-- ==== Sys2Proof/Word.lean ====
section
/-! DEFINITION. The word types of the machine and their plainest arithmetic (R6, R47). -/

namespace Sys2Proof

/-- One byte. -/
abbrev Byte := BitVec 8
/-- One 32-bit register (R73). -/
abbrev Word := BitVec 32
/-- One 64-bit value, an even-odd pair (R75), or a 64-bit address. -/
abbrev DWord := BitVec 64

/-- Bits [hi:lo] of a number, both ends included (R6). -/
def bitsOf (v hi lo : Nat) : Nat := v / 2 ^ lo % 2 ^ (hi - lo + 1)

/-- Bit i of a number. -/
def bitOf (v i : Nat) : Bool := v / 2 ^ i % 2 == 1

/-- A Bool as a number. -/
def natOfBool (b : Bool) : Nat := if b then 1 else 0

end Sys2Proof
end

