-- ==== Sys2Proof/Config.lean ====
section
/-! DEFINITION. What the spec leaves to chance or to the outside, as constants with no body: nothing can be
proved of a value of theirs (log 2, 3, 6, 10). -/

namespace Sys2Proof.Config

/-- Which of the agents that may move does so next; drawn with a counter (log 3). -/
opaque freeChoice : Nat → Nat

/-- How many ns of the reference clock pass at a step (log 2). -/
opaque freeTicks : Nat → Nat

/-- A value the spec does not fix (log 2). -/
opaque freeNat : Nat → Nat

/-- The package is a KZ-ITK-M24 module (R421; log 6). -/
opaque moduleForm : Bool

/-- PLIM's value after a start (R421). -/
def plim : BitVec 16 := if moduleForm then 2400 else 0

/-- The 2 MiB pages of their world that the device tables at a root map, each with the number of its frame: the spec does
not give the tables' format (R401; log 8). -/
opaque devPages (root : Nat) : List (Nat × Nat)

/-- The frame that the device tables at a root give a page, if any. -/
def devFrame (root page : Nat) : Option Nat := ((devPages root).lookup page).map (· * 2097152)

/-- The monitor's image in flash, and the length of the one in the staging window (R422; log 56). -/
opaque flashImage : List (BitVec 8)
opaque stagedLength : Nat

/-- The identity key that the fuses give (R422; log 56). -/
opaque identityKey : List (BitVec 8)

/-- The export master secret of an SPDM session (R398; log 10). -/
opaque exportSecret (free : Nat) : List (BitVec 8)

/-- The Vendor ID in the function's configuration space (R397; log 10). -/
opaque vendorId : BitVec 16

/-- An ECDSA signature by the identity key (R397; log 10). -/
opaque signature (free : Nat) : List (BitVec 8)

/-- The host port through which a host line is fetched (R382; log 72). -/
opaque hostPort (line : Nat) : Bool

/-- The side-band bits of an L2 tile that no keyed world has written hold the right tag (R412; log 10). -/
opaque tagRight (free : Nat) : Bool

end Sys2Proof.Config
end

