-- ==== Sys2Proof/Syntax.lean ====
section
/-! DEFINITION. The syntax of the machine's steps: one constructor of Instr for each row of
spec/opcode_table.json. The first 113 rows are instruction words (R86); the rest are the whole-machine
operations and events, which have no encoding. -/

namespace Sys2Proof

/-- The length of a word (R66). -/
inductive Form where
  | w64 | w96 | w128
  deriving DecidableEq, Repr

/-- The guard field (R80): unguarded, or k0 to k6, perhaps negated. -/
inductive Guard where
  | always
  | k (r : Fin 7) (neg : Bool)
  deriving DecidableEq, Repr

/-- What every instruction word carries besides its operands (R72). -/
structure Ctl where
  form : Form
  guard : Guard
  stall : BitVec 3
  deriving DecidableEq, Repr

/-- A source operand specifier (R73). `small f` has the value f - 64; `imm` is the W96 extension. -/
inductive Src where
  | x (r : Fin 64)
  | o (r : Fin 8)
  | y (r : Fin 2)
  | zero
  | small (f : BitVec 7)
  | s (r : Fin 255)
  | imm (v : Word)
  deriving DecidableEq, Repr

/-- A destination operand specifier (R73). -/
inductive Dst where
  | x (r : Fin 64)
  | o (r : Fin 8)
  | y (r : Fin 2)
  | zero
  | s (r : Fin 255)
  deriving DecidableEq, Repr

/-- A k-field used as a destination: k0 to k6, or "—" (R76, R153). -/
abbrev KDst := Option (Fin 7)

/-- The type codes (R79). -/
inductive Ty where
  | b32 | i32 | n32 | i64 | n64 | f32 | f16 | bf16 | f16x2 | bf16x2 | i16 | n16 | i8 | n8 | b64
  deriving DecidableEq, Repr

/-- The rounding modes (R133). -/
inductive Rnd where
  | rn | rz | rm | rp
  deriving DecidableEq, Repr

/-- Integer comparison conditions (R123). -/
inductive Cond where
  | eq | ne | lt | le | gt | ge
  deriving DecidableEq, Repr

/-- Floating-point comparison conditions (R139). -/
inductive FCond where
  | eq | ne | lt | le | gt | ge | ord | un
  deriving DecidableEq, Repr

/-- How a comparison is combined with k[c] (R123). -/
inductive KComb where
  | none
  | and (c : Fin 8)
  | or (c : Fin 8)
  | xor (c : Fin 8)
  deriving DecidableEq, Repr

/-- The identity selectors (R32). -/
inductive IdSel where
  | tid | wpos | wave | team | clx | cly | clz | gdx | gdy | gdz | nthr | nteam | core | home | cpos
  | tcap | cshape
  deriving DecidableEq, Repr

/-- A block index operand (R153): a small immediate 0 to 63, or the W96 extension. -/
inductive Blk where
  | small (v : BitVec 6)
  | imm (v : Word)
  deriving DecidableEq, Repr

/-- The direction of MOVS (R127). -/
inductive MovsDir where
  | read (d : Dst)
  | write (a : Src)
  deriving DecidableEq, Repr

/-- The mode and destination of WVOTE (R175). -/
inductive Vote where
  | ballot (d : Dst)
  | any (d : KDst)
  | all (d : KDst)
  | uni (d : KDst)
  deriving DecidableEq, Repr

/-- The mode of WXCH (R176). -/
inductive Xch where
  | idx | up | down | xor
  deriving DecidableEq, Repr

/-- Level and scope codes (R177). -/
inductive Lv where
  | w | t | c | d | s
  deriving DecidableEq, Repr

/-- Vector counts of LDV and STV (R177). -/
inductive VCount where
  | v2 | v4 | v8
  deriving DecidableEq, Repr

/-- The relation operator of CHK (R187). -/
inductive RelOp where
  | lt | le | eq
  deriving DecidableEq, Repr

/-- Operand b of CHK: a source, or a symbol (R187). -/
inductive ChkB where
  | src (b : Src)
  | len (g : Fin 255)
  | nthr | tcap | nearsz | colsz | locsz
  deriving DecidableEq, Repr

/-- The kinds of FENCE (R192). -/
structure FenceKinds where
  data : Bool
  record : Bool
  eng : Bool
  deriving DecidableEq, Repr

/-- The operations of ATOM and RED (R194). -/
inductive AtomOp where
  | add | min | max | and | or | xor | exch | cas | incw | decw | fadd | fmin | fmax
  deriving DecidableEq, Repr

/-- The completion target of a copy command (R219). -/
inductive CopyTgt where
  | barrier (b : BitVec 4)
  | sync (d : Src)
  deriving DecidableEq, Repr

/-- The weight formats of WLD (R205). -/
inductive WFmt where
  | ds8 | ds4 | bf16
  deriving DecidableEq, Repr

/-- The modes of MMA (R229). -/
inductive MMode where
  | ds8 | ds4 | bfds8 | bfbf
  deriving DecidableEq, Repr

/-- The accumulator operand: bank, or quad with acc 0 or 4 (R206, R229). -/
structure Acc where
  acc : Fin 8
  quad : Bool
  deriving DecidableEq, Repr

/-- The result formats of QST (R205). -/
inductive QFmt where
  | f32 | bf16 | bx8 | bx4
  deriving DecidableEq, Repr

/-- The field selector of TREC (R215). -/
inductive RecFld where
  | base | spbase | rows | cols | febase | fmt | tid
  deriving DecidableEq, Repr

/-- The operations of TFE (R217). -/
inductive TfeOp where
  | test | fill | empty
  deriving DecidableEq, Repr

/-- The special registers (R249). -/
inductive SReg where
  | tconf | cconf | wdcnt | wdlim | accOwner | ctxid | ctemp | throt | tmode
  deriving DecidableEq, Repr

/-- The atomic operations of a RISC-V hart (R16: a hart's AMOs act at device level). -/
inductive AmoOp where
  | swap | add | and | or | xor | min | max | minu | maxu
  deriving DecidableEq, Repr

/-- An access of a hart or of the host to device memory (R16, R385). -/
inductive HartOp where
  | load (n : Nat)
  | store (bytes : List Byte)
  | amo (op : AmoOp) (n : Nat) (v : DWord)
  /-- The monitor's export and import of the side-band tag of an L2 tile (R412, R416). -/
  | tag
  | putTag (t : BitVec 56)
  /-- The monitor's replay of a world's log comes to completion records of these world times (R418). -/
  | replay (world : Nat) (times : List Nat)
  deriving DecidableEq, Repr

/-- What a cold start is (R421, R422): whether power has just come, and the one of its steps 1 to 5 that fails, if any, counting
from 0. -/
structure Boot where
  powerOn : Bool
  fails : Option (Fin 5)
  deriving DecidableEq, Repr

/-- A host snoop (R383): it leaves the line with the slice, or takes it away, for the bytes that the host then stores there, by
their places in the line. -/
inductive Snoop where
  | share
  | invalidate (store : List (Nat × Byte))
  deriving DecidableEq, Repr

/-- What a GET_MEASUREMENTS request asks for (R397): the block, a signed response or not, and the requester's nonce. -/
structure MeasRequest where
  block : Byte
  signed : Bool
  nonce : List Byte
  deriving DecidableEq, Repr

/-- The answers of a Page Request Group Response (R378). -/
inductive PrgResponse where
  | success | invalid | failure
  deriving DecidableEq, Repr

/-- A register page of BAR0 or of the control window (R370, R389, R396, R400, R421). -/
inductive RegPage where
  /-- BAR0 of world w's function. -/
  | bar0 (w : Nat)
  /-- The monitor's control window. -/
  | control
  /-- The PRI capability in the configuration space of world w's function (R377). -/
  | config (w : Nat)
  /-- The monitor's setting of NODE, whose place the spec does not give (R389). -/
  | node
  deriving DecidableEq, Repr

/-- A member's contribution arriving at the switch (R394), from a node. `request` names the local descriptor it
came from; a contribution of another package has none. -/
structure Contribution where
  node : Nat
  world : Nat
  tenant : Nat
  request : Option Nat
  group : Nat
  seq : Nat
  op : Nat
  fmt : Nat
  count : Nat
  nmemb : Nat
  midx : Nat
  timeout : Nat
  data : List Word
  deriving DecidableEq, Repr

/-- The steps of the machine, one constructor for each row of spec/opcode_table.json, in its order. -/
inductive Instr where
  -- R85
  | nop (c : Ctl)
  -- integer, logic and address (R110)
  | add (c : Ctl) (sat : Bool) (t : Ty) (d : Dst) (a b : Src)
  | sub (c : Ctl) (sat : Bool) (t : Ty) (d : Dst) (a b : Src)
  | addc (c : Ctl) (t : Ty) (d : Dst) (a b : Src) (k : Fin 7)
  | subc (c : Ctl) (t : Ty) (d : Dst) (a b : Src) (k : Fin 7)
  | mul (c : Ctl) (t : Ty) (d : Dst) (a b : Src)
  | mulh (c : Ctl) (t : Ty) (d : Dst) (a b : Src)
  | mad (c : Ctl) (t : Ty) (d : Dst) (a b e : Src)
  | div (c : Ctl) (t : Ty) (d : Dst) (a b : Src)
  | rem (c : Ctl) (t : Ty) (d : Dst) (a b : Src)
  | abs (c : Ctl) (sat : Bool) (t : Ty) (d : Dst) (a : Src)
  | min (c : Ctl) (t : Ty) (d : Dst) (a b : Src)
  | max (c : Ctl) (t : Ty) (d : Dst) (a b : Src)
  | and (c : Ctl) (t : Ty) (d : Dst) (a b : Src)
  | or (c : Ctl) (t : Ty) (d : Dst) (a b : Src)
  | xor (c : Ctl) (t : Ty) (d : Dst) (a b : Src)
  | andn (c : Ctl) (t : Ty) (d : Dst) (a b : Src)
  | not (c : Ctl) (t : Ty) (d : Dst) (a : Src)
  | shl (c : Ctl) (t : Ty) (d : Dst) (a n : Src)
  | shr (c : Ctl) (t : Ty) (d : Dst) (a n : Src)
  | sha (c : Ctl) (t : Ty) (d : Dst) (a n : Src)
  | rot (c : Ctl) (right : Bool) (t : Ty) (d : Dst) (a n : Src)
  | fsh (c : Ctl) (left : Bool) (d : Dst) (a b n : Src)
  | clz (c : Ctl) (t : Ty) (d : Dst) (a : Src)
  | popc (c : Ctl) (t : Ty) (d : Dst) (a : Src)
  | brev (c : Ctl) (t : Ty) (d : Dst) (a : Src)
  | bfx (c : Ctl) (t : Ty) (d : Dst) (a f : Src)
  | bfi (c : Ctl) (t : Ty) (d : Dst) (a b f : Src)
  | prm (c : Ctl) (d : Dst) (a b sel : Src)
  | sel (c : Ctl) (t : Ty) (d : Dst) (a b : Src) (k : Fin 8)
  | cmp (c : Ctl) (cc : Cond) (op : KComb) (t : Ty) (d : Fin 7) (a b : Src)
  | kop (c : Ctl) (d : Fin 7) (ka kb kc : Fin 8) (table : BitVec 8)
  | mov (c : Ctl) (t : Ty) (d : Dst) (a : Src)
  | movi (c : Ctl) (hi : Bool) (t : Ty) (d : Dst) (v : Word)
  | movs (c : Ctl) (t : Ty) (dir : MovsDir) (idx : BitVec 10) (b : Src)
  | lea (c : Ctl) (n : BitVec 3) (t : Ty) (d : Dst) (a b e : Src)
  | id (c : Ctl) (sel : IdSel) (d : Dst)
  -- floating point and conversion (R132)
  | fadd (c : Ctl) (r : Rnd) (t : Ty) (d : Dst) (a b : Src)
  | fsub (c : Ctl) (r : Rnd) (t : Ty) (d : Dst) (a b : Src)
  | fmul (c : Ctl) (r : Rnd) (t : Ty) (d : Dst) (a b : Src)
  | ffma (c : Ctl) (r : Rnd) (t : Ty) (d : Dst) (a b e : Src)
  | fmin (c : Ctl) (p : Bool) (t : Ty) (d : Dst) (a b : Src)
  | fmax (c : Ctl) (p : Bool) (t : Ty) (d : Dst) (a b : Src)
  | fcmp (c : Ctl) (cc : FCond) (op : KComb) (t : Ty) (d : Fin 7) (a b : Src)
  | fclass (c : Ctl) (op : KComb) (t : Ty) (d : Fin 7) (a mask : Src)
  | frcps (c : Ctl) (d : Dst) (a : Src)
  | frsqs (c : Ctl) (d : Dst) (a : Src)
  | fexs (c : Ctl) (d : Dst) (a : Src)
  | flgs (c : Ctl) (d : Dst) (a : Src)
  | fscl (c : Ctl) (r : Rnd) (t : Ty) (d : Dst) (a n : Src)
  | fgex (c : Ctl) (t : Ty) (d : Dst) (a : Src)
  | frnd (c : Ctl) (r : Rnd) (t : Ty) (d : Dst) (a : Src)
  | cvt (c : Ctl) (r : Rnd) (sat : Bool) (dt st : Ty) (d : Dst) (a b : Src)
  | fdot2 (c : Ctl) (r : Rnd) (t : Ty) (d : Dst) (a b e : Src)
  -- control, thread and synchronisation (R153)
  | br (c : Ctl) (z : Bool) (a : Src) (blk : Blk)
  | brx (c : Ctl) (a : Src) (blk : Blk)
  | call (c : Ctl) (xs : Fin 64) (blk : Blk)
  | ret (c : Ctl) (xs : Fin 64) (blk : Blk)
  | exit (c : Ctl)
  | spawn (c : Ctl) (n : Fin 17) (d : Dst) (a : Fin 64) (blk : Blk)
  | yield (c : Ctl)
  | binit (c : Ctl) (live : Bool) (reg : Fin 16) (a : Src)
  | barv (c : Ctl) (peek : Bool) (reg : Fin 16) (d : Dst)
  | bwait (c : Ctl) (reg : Fin 16) (d : KDst) (a : Src)
  | btest (c : Ctl) (err : Bool) (reg : Fin 16) (d : KDst) (a : Src)
  | cinit (c : Ctl) (reg : Fin 16) (a : Src)
  | csign (c : Ctl) (reg : Fin 16) (d : KDst)
  | wvote (c : Ctl) (m : Vote) (a : Fin 8)
  | wxch (c : Ctl) (m : Xch) (t : Ty) (d : Dst) (a b : Src)
  -- memory, commit, atomics and locks (R177)
  | ld (c : Ctl) (t : Ty) (d : Dst) (a disp : Src)
  | st (c : Ctl) (t : Ty) (a b disp : Src)
  | ldv (c : Ctl) (n : VCount) (d : Dst) (a disp : Src)
  | stv (c : Ctl) (n : VCount) (a b disp : Src)
  | lds (c : Ctl) (t : Ty) (d : Dst) (a disp : Src)
  | chk (c : Ctl) (op : RelOp) (t : Ty) (a : Src) (b : ChkB) (k : Src)
  | commit (c : Ctl) (l : Lv)
  | abort (c : Ctl) (l : Lv)
  | fence (c : Ctl) (sc : Lv) (kinds : FenceKinds)
  | atom (c : Ctl) (op : AtomOp) (sc : Lv) (t : Ty) (d : Dst) (a b e : Src)
  | red (c : Ctl) (op : AtomOp) (sc : Lv) (t : Ty) (a b disp : Src)
  | lkacq (c : Ctl) (sc : Lv) (d : Dst) (a : Src)
  | lkrel (c : Ctl) (sc : Lv) (a : Src)
  | pref (c : Ctl) (a disp : Src)
  | swarm (c : Ctl) (d : Dst) (a b disp : Src)
  | swait (c : Ctl) (d : KDst) (a b disp : Src)
  -- engines (R204, R205)
  | cpy (c : Ctl) (tgt : CopyTgt) (a b : Src) (bounce : Bool) (mcast : Fin 17) (bch : Fin 16)
      (lenm1 : BitVec 20) (rowsm1 : BitVec 12) (spitch dpitch : BitVec 14)
  | cpyt (c : Ctl) (out : Bool) (tgt : CopyTgt) (a b tile : Src) (ntm1 : BitVec 8) (tb : Fin 6)
      (scale : Bool) (mcast : Fin 17)
  | cpyq (c : Ctl) (d : Dst) (a : Src)
  | wld (c : Ctl) (near : Bool) (tgt : CopyTgt) (a tile : Src) (slot : BitVec 10) (km1 : BitVec 6)
      (wf : WFmt)
  | wdrop (c : Ctl) (a b : Src)
  | mma (c : Ctl) (m : MMode) (ci : Fin 16) (a : Src) (acc : Acc) (mh nh : Bool) (km1 : BitVec 6)
      (slot : BitVec 10) (nexp : BitVec 14)
  | azero (c : Ctl) (acc : Acc)
  | ard (c : Ctl) (acc : Fin 8) (d : Dst) (a : Src)
  | awr (c : Ctl) (acc : Fin 8) (f32 : Bool) (a b : Src)
  | qst (c : Ctl) (acc : Acc) (axisM : Bool) (a post tile : Src) (fmt : QFmt) (blkScale rin rout : Bool)
      (hslot : Fin 17) (sreg : BitVec 10)
  | resld (c : Ctl) (ebase : Fin 64) (a : Src) (nm1 : Fin 64) (disp : Src)
  | resst (c : Ctl) (ebase : Fin 64) (a : Src) (nm1 : Fin 64) (disp : Src)
  | hclr (c : Ctl) (slot : Fin 16) (a : Src)
  | hrd (c : Ctl) (slot : Fin 16) (d : Dst) (a : Src)
  | trec (c : Ctl) (fld : RecFld) (d : Dst) (a b : Src)
  | topen (c : Ctl) (d : Dst) (a : Src)
  | tclose (c : Ctl) (d : Dst) (a : Src)
  | tfe (c : Ctl) (op : TfeOp) (d : Dst) (a tile : Src)
  -- system (R242)
  | trap (c : Ctl) (n : BitVec 7) (a : Src)
  | bkpt (c : Ctl) (n : BitVec 7)
  | srd (c : Ctl) (r : SReg) (d : Dst)
  | swr (c : Ctl) (r : SReg) (a : Src)
  | time (c : Ctl) (d : Dst)
  | publish (c : Ctl) (slot : Fin 16) (d : Dst)
  | launch (c : Ctl) (d : Dst) (a : Src)
  | svc (c : Ctl) (n : BitVec 7) (d : Dst) (a b : Src)
  | perf (c : Ctl) (ctr : Fin 16) (d : Dst)
  | sleep (c : Ctl) (a : Src)
  -- whole-machine operations and events
  | admNotify (w : Nat) (addr : DWord)
  | lqNotify (w : Nat) (addr : DWord)
  | admission
  | placement (p : Nat)
  | teamStart (core : Nat)
  | selection (core : Nat)
  | writeBack (pass grp : Nat)
  | resultArrival (id : Nat)
  | teamEnd (team : Nat)
  | clusterRelease (cluster : Nat)
  | copyDelivery (req : Nat)
  | matrixStart (op : Nat)
  | surgeGrant (quarter : Nat)
  | matrixDone (op : Nat)
  | drainComplete (op : Nat)
  | binExpiry (core team addr : Nat)
  | sleepWake (team tid : Nat)
  | serviceReply (call : Nat)
  | hartAccess (w : Nat) (addr : DWord) (op : HartOp)
  | revoking (w : Nat) (page : DWord)
  | revoked (image : Nat)
  | pageRequest (id : Nat)
  | pageRequestGroupResponse (w : Nat) (prg : Nat) (r : PrgResponse)
  | prstatHaltedClear (w : Nat)
  | atsInvalidationRequest (w pasid : Nat) (base : DWord) (size : Nat) (global : Bool)
  | invalidationCompletion (w : Nat)
  | hostSnoop (port : Nat) (line : DWord) (kind : Snoop)
  | hostCxlAccess (w : Nat) (addr : DWord) (op : HartOp)
  | birsp (w : Nat) (line : DWord)
  | windowRead (w : Nat) (off n : Nat)
  | windowWrite (w : Nat) (off : Nat) (bytes : List Byte)
  | windowOpen (w win : Nat)
  | windowClose (w win : Nat)
  | fqNotify (w : Nat) (addr : DWord)
  | inboundLaunchRequest (node srcWorld srcTenant w tenant : Nat) (packet : List Byte)
  | reductionContribution (k : Contribution)
  | reductionDelivery (inst midx : Nat)
  | reductionTimeout (inst : Nat)
  | peerUnreachable (node : Nat)
  | partitionWrite (p off : Nat) (v : DWord)
  | softRequest (p slot : Nat)
  | resume (p slot : Nat)
  | kill (p slot : Nat)
  | requestArrival (p slot : Nat)
  | graceExpiry (p slot : Nat)
  | haltComplete (p slot : Nat)
  | killTimerExpiry (p slot : Nat)
  | killComplete (p slot : Nat)
  | waymaskWrite (p slot : Nat) (v : DWord)
  | sweepComplete (p slot : Nat)
  | tokenCredit
  | borrowReset
  | serviceTargetEvaluation
  | migrationStart (w : Nat) (mdst : DWord)
  | migrationSwitch (w : Nat)
  | migrationDone (w : Nat)
  | worldPause (w : Nat) (pause : Bool)
  | toffWrite (w : Nat) (v : DWord)
  | tlastWrite (w : Nat) (v : DWord)
  | migenWrite (w : Nat) (b : Bool)
  | logtailWrite (w : Nat) (v : Word)
  | lockInterface (w : Nat)
  | startInterface (w : Nat) (nonce : Nat)
  | stopInterface (w : Nat)
  | getDeviceInterfaceReport (w : Nat)
  | getVersion (w : Nat)
  | getCapabilities (w : Nat)
  | negotiateAlgorithms (w : Nat)
  | getCertificate (w : Nat)
  | keyExchange (w : Nat) (periodMs : Nat)
  | finish (w : Nat)
  | endSession (w : Nat)
  | getMeasurements (w : Nat) (request : MeasRequest)
  | heartbeat (w : Nat)
  | keyRelease (w : Nat) (world : Nat) (generation : Word) (wrapped : List Byte)
  | chanOpen (w : Nat) (chan : Nat) (key : List Byte) (nonce : BitVec 96)
  | chanClose (w : Nat) (chan : Nat)
  | heartbeatDeadline (w : Nat)
  | goDark (w : Nat)
  | softErrorReset (column : Nat)
  | coldStart (fails : Boot)
  | monitorReady (ready : Bool)
  | warmStart (fails : Option (Fin 5))
  | reload (fails : Option (Fin 5))
  | sensorSample (temps : List (Nat × BitVec 16))
  | throttleUpdate
  | powerTermUpdate (pwr : BitVec 16)
  | modulePowerRemoval (inputFault : Bool)
  | registerWrite (page : RegPage) (off : Nat) (v : DWord)
  | launchRequestAcknowledgement (req : Nat) (code : DWord)
  | worldPartWrite (w : Nat) (v : DWord)
  | vendorDefinedRequest (w : Nat) (payload : List Byte)
  deriving DecidableEq, Repr

end Sys2Proof
end

