-- ==== Sys2Proof/Machine/Types.lean ====
section
/-! DEFINITION. The codes and properties of types and modifiers (R79, R47, R48, R74, R133, R177), and
which results have variable latency or which destinations an entry allows (R83, R428). -/

namespace Sys2Proof

/-- The type code of R79. -/
def Ty.code : Ty → BitVec 4
  | .b32 => 0x0 | .i32 => 0x1 | .n32 => 0x2 | .i64 => 0x3 | .n64 => 0x4 | .f32 => 0x5 | .f16 => 0x6
  | .bf16 => 0x7 | .f16x2 => 0x8 | .bf16x2 => 0x9 | .i16 => 0xA | .n16 => 0xB | .i8 => 0xC | .n8 => 0xD
  | .b64 => 0xE

/-- The type of a code; 0xF is reserved (R79). -/
def Ty.ofCode (v : BitVec 4) : Option Ty :=
  match v.toNat with
  | 0x0 => some .b32 | 0x1 => some .i32 | 0x2 => some .n32 | 0x3 => some .i64 | 0x4 => some .n64
  | 0x5 => some .f32 | 0x6 => some .f16 | 0x7 => some .bf16 | 0x8 => some .f16x2 | 0x9 => some .bf16x2
  | 0xA => some .i16 | 0xB => some .n16 | 0xC => some .i8 | 0xD => some .n8 | 0xE => some .b64
  | _ => none

/-- A type whose values are even-odd pairs (R75). -/
def Ty.wide : Ty → Bool
  | .i64 | .n64 | .b64 => true
  | _ => false

/-- The width W of an operand in bits (R111). -/
def Ty.width : Ty → Nat
  | .i64 | .n64 | .b64 => 64
  | .i16 | .n16 | .f16 | .bf16 => 16
  | .i8 | .n8 => 8
  | _ => 32

/-- The bytes of one memory access of the type (R185). -/
def Ty.bytes (t : Ty) : Nat := t.width / 8

/-- A signed integer type. -/
def Ty.signed : Ty → Bool
  | .i8 | .i16 | .i32 | .i64 => true
  | _ => false

/-- The unsigned type of the same width: addresses are compared so (R131). -/
def Ty.unsigned : Ty → Ty
  | .i8 => .n8 | .i16 => .n16 | .i32 => .n32 | .i64 => .n64
  | t => t

/-- An integer type: codes 0x1 to 0x4 and 0xA to 0xD (R110). -/
def Ty.isInt : Ty → Bool
  | .i32 | .n32 | .i64 | .n64 | .i16 | .n16 | .i8 | .n8 => true
  | _ => false

/-- An untyped-bits type. -/
def Ty.isBits : Ty → Bool
  | .b32 | .b64 => true
  | _ => false

/-- A scalar float type: group F of R132. -/
def Ty.isF : Ty → Bool
  | .f32 | .f16 | .bf16 => true
  | _ => false

/-- A packed float type. -/
def Ty.isPacked : Ty → Bool
  | .f16x2 | .bf16x2 => true
  | _ => false

/-- Group F2 of R132. -/
def Ty.isF2 (t : Ty) : Bool := t.isF || t.isPacked

/-- The scalar type of a packed type's elements. -/
def Ty.elem : Ty → Ty
  | .f16x2 => .f16
  | .bf16x2 => .bf16
  | t => t

/-- The type sets of the integer entries (R110). -/
def Ty.isInt3264 : Ty → Bool
  | .i32 | .n32 | .i64 | .n64 => true
  | _ => false

/-- The conversion pairs that R146 allows, with the saturation bit and the rounding field. -/
def cvtOk (dt st : Ty) (sat : Bool) (r : Rnd) : Bool :=
  if st.isF then
    if dt.isF then dt != st
    else if dt.isInt then !sat
    else dt.isPacked && st == .f32
  else if st.isInt then
    if dt.isF then true
    else dt.isInt && dt != st && r == .rn
  else false

/-- The types of an atomic operation (R194). -/
def AtomOp.types (op : AtomOp) (t : Ty) : Bool :=
  match op with
  | .add | .min | .max => t.isInt3264
  | .and | .or | .xor | .exch | .cas => t.isBits
  | .incw | .decw => t == .n32
  | .fadd => t == .f32 || t.isPacked
  | .fmin | .fmax => t == .f32

/-- The registers moved by LDV and STV (R177). -/
def VCount.regs : VCount → Nat
  | .v2 => 2
  | .v4 => 4
  | .v8 => 8

/-- The type a TREC selector demands (R215). -/
def RecFld.wide : RecFld → Bool
  | .base | .spbase | .febase => true
  | _ => false

/-- A special register of 64 bits (R249). -/
def SReg.wide : SReg → Bool
  | .accOwner => true
  | _ => false

/-- The registers SWR may write (R249). -/
def SReg.writable : SReg → Bool
  | .tconf | .cconf => true
  | _ => false

/-- The registers marked timing (R249). -/
def SReg.timing : SReg → Bool
  | .accOwner | .ctxid | .ctemp | .throt => true
  | _ => false

/-- A level's number: 0 wave set, 1 team set, 2 cluster set, 3 device, 4 system (R177). -/
def Lv.num : Lv → Nat
  | .w => 0 | .t => 1 | .c => 2 | .d => 3 | .s => 4

/-- The block index an operand names (R153). -/
def Blk.index : Blk → Nat
  | .small v => v.toNat
  | .imm v => v.toNat

/-- The 32-bit immediate is used (R67). -/
def Src.isImm : Src → Bool
  | .imm _ => true
  | _ => false

/-- The same for a block index. -/
def Blk.isImm : Blk → Bool
  | .imm _ => true
  | _ => false

/-- A source that names a register. -/
def Src.isReg : Src → Bool
  | .x _ | .o _ | .y _ | .s _ => true
  | _ => false

/-- The specifier may stand for an operand that is a pair if `wide` (R75). -/
def Src.pairOk (wide : Bool) : Src → Bool
  | .x r => !wide || r.val % 2 == 0
  | .o r => !wide || r.val % 2 == 0
  | .y r => !wide || r.val % 2 == 0
  | .s r => !wide || r.val % 2 == 0
  | _ => true

/-- The same for a destination. -/
def Dst.pairOk (wide : Bool) : Dst → Bool
  | .x r => !wide || r.val % 2 == 0
  | .o r => !wide || r.val % 2 == 0
  | .y r => !wide || r.val % 2 == 0
  | .s r => !wide || r.val % 2 == 0
  | .zero => true

/-- The bytes of a word of a form (R66). -/
def Form.bytes : Form → Nat
  | .w64 => 8 | .w96 => 12 | .w128 => 16

/-- The control fields of an instruction word; none for the steps that have no encoding. -/
def Instr.ctl? : Instr → Option Ctl
  | .nop c | .add c .. | .sub c .. | .addc c .. | .subc c .. | .mul c .. | .mulh c .. | .mad c ..
  | .div c .. | .rem c .. | .abs c .. | .min c .. | .max c .. | .and c .. | .or c .. | .xor c ..
  | .andn c .. | .not c .. | .shl c .. | .shr c .. | .sha c .. | .rot c .. | .fsh c .. | .clz c ..
  | .popc c .. | .brev c .. | .bfx c .. | .bfi c .. | .prm c .. | .sel c .. | .cmp c .. | .kop c ..
  | .mov c .. | .movi c .. | .movs c .. | .lea c .. | .id c .. | .fadd c .. | .fsub c .. | .fmul c ..
  | .ffma c .. | .fmin c .. | .fmax c .. | .fcmp c .. | .fclass c .. | .frcps c .. | .frsqs c ..
  | .fexs c .. | .flgs c .. | .fscl c .. | .fgex c .. | .frnd c .. | .cvt c .. | .fdot2 c .. | .br c ..
  | .brx c .. | .call c .. | .ret c .. | .exit c .. | .spawn c .. | .yield c | .binit c .. | .barv c ..
  | .bwait c .. | .btest c .. | .cinit c .. | .csign c .. | .wvote c .. | .wxch c .. | .ld c .. | .st c ..
  | .ldv c .. | .stv c .. | .lds c .. | .chk c .. | .commit c .. | .abort c .. | .fence c .. | .atom c ..
  | .red c .. | .lkacq c .. | .lkrel c .. | .pref c .. | .swarm c .. | .swait c .. | .cpy c .. | .cpyt c ..
  | .cpyq c .. | .wld c .. | .wdrop c .. | .mma c .. | .azero c .. | .ard c .. | .awr c .. | .qst c ..
  | .resld c .. | .resst c .. | .hclr c .. | .hrd c .. | .trec c .. | .topen c .. | .tclose c .. | .tfe c ..
  | .trap c .. | .bkpt c .. | .srd c .. | .swr c .. | .time c .. | .publish c .. | .launch c .. | .svc c ..
  | .perf c .. | .sleep c .. => some c
  | _ => none

/-- Block-ending instructions (R68). -/
def Instr.endsBlock : Instr → Bool
  | .br .. | .brx .. | .call .. | .ret .. | .exit .. | .yield .. | .bwait .. | .swait .. | .sleep .. => true
  | _ => false

/-- The kinds of block an instruction is legal in: (thread, uniform) (R155, R178, R205, R243). -/
def Instr.legalIn : Instr → Bool × Bool
  | .call .. | .ret .. | .spawn .. | .barv .. | .bwait .. | .btest .. | .csign .. | .wvote .. | .wxch .. =>
    (true, false)
  | .binit .. | .cinit .. => (false, true)
  | .ld .. | .st .. | .ldv .. | .stv .. | .atom .. | .red .. | .swait .. => (true, false)
  | .lds .. => (false, true)
  | .commit _ l => if l = .w then (true, false) else (false, true)
  | .abort _ l => if l = .w then (true, false) else (false, true)
  | .lkacq _ sc .. | .lkrel _ sc .. => if sc = .t then (true, true) else (false, true)
  | .cpy .. | .cpyt .. | .cpyq .. | .wld .. | .mma .. | .ard .. | .awr .. => (true, false)
  | .wdrop .. | .azero .. | .qst .. | .resld .. | .resst .. | .hclr .. | .topen .. | .tclose .. => (false, true)
  | .swr .. | .publish .. | .launch .. | .svc .. => (false, true)
  | _ => (true, true)

/-- Results of variable latency (R83, R164, R170, R173, R175, R176, R186, R203, R205, R243). -/
def Instr.variableLatency : Instr → Bool
  | .ld .. | .ldv .. | .lds .. | .div .. | .rem .. | .atom .. | .cpyq .. | .ard .. | .hrd .. | .tfe ..
  | .wvote .. | .wxch .. | .srd .. | .time .. | .perf .. | .spawn .. | .barv .. | .btest .. | .csign ..
  | .lkacq .. | .swarm .. | .trec .. | .topen .. | .tclose .. | .publish .. | .launch .. | .svc .. => true
  | _ => false

/-- The destination specifier of an instruction that has one, other than a k-field. -/
def Instr.dst? : Instr → Option Dst
  | .add _ _ _ d .. | .sub _ _ _ d .. | .abs _ _ _ d .. => some d
  | .addc _ _ d .. | .subc _ _ d .. | .mul _ _ d .. | .mulh _ _ d .. | .mad _ _ d .. | .div _ _ d ..
  | .rem _ _ d .. | .min _ _ d .. | .max _ _ d .. | .and _ _ d .. | .or _ _ d .. | .xor _ _ d ..
  | .andn _ _ d .. | .not _ _ d .. | .shl _ _ d .. | .shr _ _ d .. | .sha _ _ d .. | .fsh _ _ d ..
  | .clz _ _ d .. | .popc _ _ d .. | .brev _ _ d .. | .bfx _ _ d .. | .bfi _ _ d .. | .sel _ _ d ..
  | .mov _ _ d .. | .fgex _ _ d .. => some d
  | .rot _ _ _ d .. | .movi _ _ _ d .. | .lea _ _ _ d .. | .fadd _ _ _ d .. | .fsub _ _ _ d ..
  | .fmul _ _ _ d .. | .ffma _ _ _ d .. | .fmin _ _ _ d .. | .fmax _ _ _ d .. | .fscl _ _ _ d ..
  | .frnd _ _ _ d .. | .fdot2 _ _ _ d .. | .wxch _ _ _ d .. => some d
  | .prm _ d .. | .frcps _ d .. | .frsqs _ d .. | .fexs _ d .. | .flgs _ d .. => some d
  | .movs _ _ (.read d) .. => some d
  | .id _ _ d | .cvt _ _ _ _ _ d .. | .spawn _ _ d .. | .barv _ _ _ d => some d
  | .wvote _ (.ballot d) _ => some d
  | .ld _ _ d .. | .ldv _ _ d .. | .lds _ _ d .. | .lkacq _ _ d _ | .swarm _ d .. | .cpyq _ d _
  | .ard _ _ d _ | .hrd _ _ d _ | .trec _ _ d .. | .topen _ d _ | .tclose _ d _ | .tfe _ _ d ..
  | .srd _ _ d | .time _ d | .publish _ _ d | .launch _ d _ | .svc _ _ d .. | .perf _ _ d => some d
  | .atom _ _ _ _ d .. => some d
  | _ => none

/-- The register kinds an entry allows in field d: (x, o or y, s, zero), before R77 and R78
(R110, R132, R153, R177, R204, R242). -/
def Instr.dstKinds : Instr → Bool × Bool × Bool × Bool
  | .div .. | .rem .. => (true, false, false, true)
  | .spawn .. | .barv .. | .wvote .. | .wxch .. | .ld .. | .atom .. => (true, false, false, true)
  | .ldv .. | .cpyq .. | .ard .. => (true, false, false, false)
  | .lds .. => (false, false, true, false)
  | .lkacq .. | .swarm .. | .hrd .. | .srd .. | .time .. | .perf .. => (true, false, true, false)
  | .trec .. | .tfe .. => (true, false, true, true)
  | .topen .. | .tclose .. | .publish .. | .launch .. | .svc .. => (false, false, true, true)
  | _ => (true, true, true, true)

end Sys2Proof
end

