-- ==== Sys2Proof/WellFormed.lean ====
section
/-! DEFINITION. Which instructions the encoding tables can write (R66, R67, R75, R76, R87, R110, R132,
R153, R177, R204, R205, R242): every operand in its stated use, the extension used at most once. -/

namespace Sys2Proof

/-- How many operands take the extension as their immediate. -/
def immCount (l : List Src) : Nat := (l.filter Src.isImm).length

/-- The form of a W64 or W96 opcode agrees with the use of the extension (R67, R87). -/
def Ctl.short (c : Ctl) (imms : Nat) : Bool :=
  match c.form with
  | .w64 => imms == 0
  | .w96 => imms ≤ 1
  | .w128 => false

/-- A W96-only opcode without a 0x1FF operand (R67, R87). -/
def Ctl.only96 (c : Ctl) : Bool := c.form == .w96

/-- A W128-only opcode; 0x1FF is rejected there (R67). -/
def Ctl.only128 (c : Ctl) (imms : Nat) : Bool := c.form == .w128 && imms == 0

/-- Three operands of one width. -/
def wf3 (c : Ctl) (w : Bool) (d : Dst) (a b : Src) : Bool :=
  d.pairOk w && a.pairOk w && b.pairOk w && c.short (immCount [a, b])

/-- A destination and one operand. -/
def wf2 (c : Ctl) (w : Bool) (d : Dst) (a : Src) : Bool :=
  d.pairOk w && a.pairOk w && c.short (immCount [a])

/-- An accumulator operand: a quad starts at 0 or 4 (R206). -/
def Acc.wf (a : Acc) : Bool := !a.quad || a.acc.val % 4 == 0

/-- The immediates of a copy target. -/
def CopyTgt.imms : CopyTgt → List Src
  | .barrier _ => []
  | .sync d => [d]

/-- The encodable instructions. The steps that have no encoding are well formed as they stand. -/
def Instr.wf : Instr → Bool
  | .nop c => c.guard == .always
  | .add c _ t d a b | .sub c _ t d a b => t.isInt && wf3 c t.wide d a b
  | .addc c t d a b _ | .subc c t d a b _ =>
    (t == .n32 || t == .n64 || t.isBits) && wf3 c t.wide d a b
  | .mul c t d a b | .min c t d a b | .max c t d a b => t.isInt && wf3 c t.wide d a b
  | .mulh c t d a b | .div c t d a b | .rem c t d a b => t.isInt3264 && wf3 c t.wide d a b
  | .mad c t d a b e =>
    t.isInt && d.pairOk t.wide && a.pairOk t.wide && b.pairOk t.wide && e.pairOk t.wide &&
      c.short (immCount [a, b, e])
  | .abs c _ t d a => t.signed && wf2 c t.wide d a
  | .and c t d a b | .or c t d a b | .xor c t d a b | .andn c t d a b => t.isBits && wf3 c t.wide d a b
  | .not c t d a | .brev c t d a => t.isBits && wf2 c t.wide d a
  | .shl c t d a n | .shr c t d a n | .rot c _ t d a n =>
    t.isBits && d.pairOk t.wide && a.pairOk t.wide && c.short (immCount [a, n])
  | .sha c t d a n =>
    (t == .i32 || t == .i64) && d.pairOk t.wide && a.pairOk t.wide && c.short (immCount [a, n])
  | .fsh c _ _ a b n | .prm c _ a b n => c.short (immCount [a, b, n])
  | .clz c t _ a | .popc c t _ a => t.isBits && a.pairOk t.wide && c.short (immCount [a])
  | .bfx c t d a f => t.isInt3264 && d.pairOk t.wide && a.pairOk t.wide && c.short (immCount [a, f])
  | .bfi c t d a b f =>
    t.isBits && d.pairOk t.wide && a.pairOk t.wide && b.pairOk t.wide && c.short (immCount [a, b, f])
  | .sel c t d a b _ => wf3 c t.wide d a b
  | .cmp c cc _ t _ a b =>
    (t.isInt || (t.isBits && (cc == .eq || cc == .ne))) && a.pairOk t.wide && b.pairOk t.wide &&
      c.short (immCount [a, b])
  | .kop c .. => c.short 0
  | .mov c t d a => wf2 c t.wide d a
  | .movi c hi t d _ => (t.isBits || t.isInt3264) && (!hi || t.wide) && d.pairOk t.wide && c.only96
  | .movs c t dir idx b =>
    t.isBits && c.only96 && !b.isImm && (!t.wide || idx.toNat % 2 == 0) &&
      (match dir with
       | .read d => d.pairOk t.wide
       | .write a => a.pairOk t.wide && !a.isImm)
  | .lea c _ t d a b e =>
    (t.isBits || t.isInt3264) && d.pairOk t.wide && a.pairOk t.wide && c.short (immCount [a, b, e])
  | .id c _ _ => c.short 0
  | .fadd c _ t d a b | .fsub c _ t d a b | .fmul c _ t d a b | .fmin c _ t d a b | .fmax c _ t d a b =>
    t.isF2 && wf3 c false d a b
  | .ffma c _ t _ a b e => t.isF2 && c.short (immCount [a, b, e])
  | .fcmp c _ _ t _ a b => t.isF && c.short (immCount [a, b])
  | .fclass c _ t _ a m => t.isF && c.short (immCount [a, m])
  | .frcps c _ a | .frsqs c _ a | .fexs c _ a | .flgs c _ a => c.short (immCount [a])
  | .fscl c _ t _ a n => t.isF2 && c.short (immCount [a, n])
  | .fgex c t _ a => t.isF && c.short (immCount [a])
  | .frnd c _ t _ a => t.isF2 && c.short (immCount [a])
  | .cvt c r sat dt ft d a b =>
    cvtOk dt ft sat r && d.pairOk dt.wide && a.pairOk ft.wide && (dt.isPacked || b == .zero) &&
      c.short (immCount [a, b])
  | .fdot2 c _ t _ a b e => t.isPacked && c.short (immCount [a, b, e])
  | .br c _ a blk | .brx c a blk => c.short (immCount [a] + natOfBool blk.isImm)
  | .call c _ blk | .ret c _ blk => c.short (natOfBool blk.isImm)
  | .exit c | .yield c => c.short 0
  | .spawn c n _ a blk =>
    (if n.val = 0 then a.val == 0 else a.val + n.val ≤ 64) && c.short (natOfBool blk.isImm)
  | .binit c _ _ a | .bwait c _ _ a | .btest c _ _ _ a | .cinit c _ a => c.short (immCount [a])
  | .barv c .. | .csign c .. | .wvote c .. => c.short 0
  | .wxch c _ t d a b => t.isBits && d.pairOk t.wide && a.pairOk t.wide && c.short (immCount [a, b])
  | .ld c t d a disp => d.pairOk t.wide && c.short (immCount [a, disp])
  | .st c t a b disp => b.pairOk t.wide && c.short (immCount [a, b, disp])
  | .ldv c n d a disp =>
    (match d with | .x r => r.val + n.regs ≤ 64 | _ => true) && c.short (immCount [a, disp])
  | .stv c n a b disp =>
    (match b with | .x r => r.val + n.regs ≤ 64 | _ => false) && c.short (immCount [a, disp])
  | .lds c t d a disp =>
    (t.isBits || t.isInt3264 || t == .f32) && d.pairOk t.wide && c.short (immCount [a, disp])
  | .chk c _ t a b k =>
    t.isInt3264 && a.isReg && a.pairOk t.wide &&
      (match b with | .src b => b.pairOk t.wide | _ => true) &&
      (match k with | .small _ => true | .imm _ => true | _ => false) &&
      c.short (immCount [k] + (match b with | .src b => immCount [b] | _ => 0))
  | .commit c l => l != .s && c.short 0
  | .abort c l => (l == .w || l == .t || l == .c) && c.short 0
  | .fence c _ k => (k.data || k.record || k.eng) && c.short 0
  | .atom c op sc t d a b e =>
    op.types t && sc != .w && d.pairOk t.wide && b.pairOk t.wide &&
      (op != .cas || e.pairOk t.wide) && c.short (immCount [a, b, e])
  | .red c op sc t a b disp =>
    op.types t && op != .exch && op != .cas && sc != .w && b.pairOk t.wide &&
      c.short (immCount [a, b, disp])
  | .lkacq c sc _ a | .lkrel c sc a => sc != .w && c.short (immCount [a])
  | .pref c a disp => c.short (immCount [a, disp])
  | .swarm c _ a b disp | .swait c _ a b disp => c.short (immCount [a, b, disp])
  | .cpy c tgt a b bounce _ bch _ _ _ _ =>
    (bounce || bch.val == 0) && c.only128 (immCount (tgt.imms ++ [a, b]))
  | .cpyt c _ tgt a b tile _ _ _ _ => a.pairOk true && c.only128 (immCount (tgt.imms ++ [a, b, tile]))
  | .cpyq c d a => d.pairOk true && c.short (immCount [a])
  | .wld c near tgt a tile _ _ _ =>
    (if near then tile == .zero else a.pairOk true) && c.only128 (immCount (tgt.imms ++ [a, tile]))
  | .wdrop c a b => c.short (immCount [a, b])
  | .mma c _ _ a acc mh nh _ _ nexp =>
    acc.wf && (!acc.quad || (!mh && !nh)) && 1 ≤ nexp.toNat && nexp.toNat ≤ 8192 &&
      c.only128 (immCount [a])
  | .azero c acc => acc.wf && c.short 0
  | .ard c _ _ a => c.short (immCount [a])
  | .awr c _ _ a b => c.short (immCount [a, b])
  | .qst c acc _ a post tile fmt blk _ _ _ sreg =>
    acc.wf && a.pairOk true &&
      (match fmt with
       | .bx8 | .bx4 => acc.quad
       | _ => !blk && sreg.toNat == 0) &&
      c.only128 (immCount [a, post, tile])
  | .resld c e a nm1 disp | .resst c e a nm1 disp =>
    e.val + nm1.val + 1 ≤ 64 && c.short (immCount [a, disp])
  | .hclr c _ a | .hrd c _ _ a => c.short (immCount [a])
  | .trec c f _ a b => a.pairOk true && b.pairOk f.wide && c.short (immCount [a, b])
  | .topen c _ a | .tclose c _ a => a.pairOk true && c.short (immCount [a])
  | .tfe c _ _ a tile => a.pairOk true && c.short (immCount [a, tile])
  | .trap c _ a | .sleep c a => c.short (immCount [a])
  | .bkpt c _ => c.short 0
  | .srd c r d => d.pairOk r.wide && c.short 0
  | .swr c r a => r.writable && c.short (immCount [a])
  | .time c d | .publish c _ d | .perf c _ d => d.pairOk true && c.short 0
  | .launch c _ a => a.pairOk true && c.short (immCount [a])
  | .svc c _ d a b => d.pairOk true && a.pairOk true && c.short (immCount [a, b])
  | _ => true

end Sys2Proof
end

