-- ==== Sys2Proof/Decode.lean ====
section
/-! DEFINITION. Instruction words (R66, R67, R72 to R76, R79, R80, R86 to R88) and the encoding tables of
R110, R127, R132, R153, R177, R204, R205 and R242: the decoder, total on any bytes and rejecting by name, and
after it the encoder. Fields are examined in the order of R429. -/

namespace Sys2Proof

/-- The field a rejection names (OPND of R107), or the reason that names none. -/
inductive DecodeErr where
  /-- Fewer bytes than the word's length. -/
  | short
  /-- Length code 11 (R66, R88). -/
  | length
  /-- A reserved opcode (R88), or a length the opcode does not allow (R87). -/
  | opcode
  /-- Guard 7 negated (R80), or a guard on a NOP (R85). -/
  | guard
  | d | a | b | c
  /-- A type code the entry does not list (R79). -/
  | type
  | minor
  | ext
  deriving DecidableEq, Repr

/-- OPND of R107. -/
def DecodeErr.opnd : DecodeErr → Nat
  | .d => 1 | .a => 2 | .b => 3 | .c => 4 | .guard => 5 | .ext => 6 | .minor => 7
  | _ => 0

/-- The fields of a word (R72), as numbers; `ext` is the extension, 0 in a W64. -/
structure Fields where
  form : Form
  op : Nat
  stall : BitVec 3
  guard : BitVec 3
  neg : Bool
  d : Nat
  a : Nat
  b : Nat
  c : Nat
  ty : BitVec 4
  minor : BitVec 7
  ext : Nat
  deriving DecidableEq, Repr

/-- The word's fields (R72), from its bits: bit 0 is bit 0 of the first doubleword. -/
def Fields.ofWord (form : Form) (w : Nat) : Fields where
  form := form
  op := bitsOf w 9 2
  stall := BitVec.ofNat 3 (bitsOf w 12 10)
  guard := BitVec.ofNat 3 (bitsOf w 15 13)
  neg := bitOf w 16
  d := bitsOf w 25 17
  a := bitsOf w 34 26
  b := bitsOf w 43 35
  c := bitsOf w 52 44
  ty := BitVec.ofNat 4 (bitsOf w 56 53)
  minor := BitVec.ofNat 7 (bitsOf w 63 57)
  ext := bitsOf w (form.bytes * 8 - 1) 64

/-- The length code (R66). -/
def Form.ofCode (v : Nat) : Option Form :=
  match v with
  | 0 => some .w64 | 1 => some .w96 | 2 => some .w128 | _ => none

/-- The answer of one stage of decoding. -/
abbrev Dec (α : Type) := Except DecodeErr α

/-- Rejects under `e` unless `b`. -/
def need (b : Bool) (e : DecodeErr) : Dec Unit := if b then .ok () else .error e

/-- An answer, or the rejection `e`. -/
def orErr {α : Type} (o : Option α) (e : DecodeErr) : Dec α :=
  match o with | some v => .ok v | none => .error e

/-- The specifier of "no operand" and of zero (R73). -/
def specZero : Nat := 0x04A

/-- A source specifier (R73, R74); `imm` is the extension where 0x1FF may stand for it. -/
def Src.ofSpec (imm : Option Word) (v : Nat) : Option Src :=
  if v < 0x40 then some (.x (Fin.ofNat 64 v))
  else if v < 0x48 then some (.o (Fin.ofNat 8 (v - 0x40)))
  else if v < 0x4A then some (.y (Fin.ofNat 2 (v - 0x48)))
  else if v = 0x4A then some .zero
  else if v < 0x80 then none
  else if v < 0x100 then some (.small (BitVec.ofNat 7 (v - 0x80)))
  else if v < 0x1FF then some (.s (Fin.ofNat 255 (v - 0x100)))
  else if v = 0x1FF then imm.map .imm
  else none

/-- A destination specifier (R73). -/
def Dst.ofSpec (v : Nat) : Option Dst :=
  if v < 0x40 then some (.x (Fin.ofNat 64 v))
  else if v < 0x48 then some (.o (Fin.ofNat 8 (v - 0x40)))
  else if v < 0x4A then some (.y (Fin.ofNat 2 (v - 0x48)))
  else if v = 0x4A then some .zero
  else if v < 0x100 then none
  else if v < 0x1FF then some (.s (Fin.ofNat 255 (v - 0x100)))
  else none

namespace Fields

/-- The type code names a 64-bit type. -/
def wide (f : Fields) : Bool := f.ty == 0x3 || f.ty == 0x4 || f.ty == 0xE

/-- The extension as an immediate, in a W96 word where no lower field has taken it (R67, R73). -/
def immUnless (f : Fields) (taken : Bool) : Option Word :=
  if f.form = .w96 && !taken then some (BitVec.ofNat 32 f.ext) else none

/-- Field d as a destination; a pair if `w` (R73, R75). -/
def dst (f : Fields) (w : Bool) : Dec Dst := do
  let d ← orErr (Dst.ofSpec f.d) .d
  need (d.pairOk w) .d
  pure d

/-- Field a as a source; a pair if `w`. -/
def srcA (f : Fields) (w : Bool) : Dec Src := do
  let v ← orErr (Src.ofSpec (f.immUnless false) f.a) .a
  need (v.pairOk w) .a
  pure v

/-- Field b as a source; a pair if `w`. -/
def srcB (f : Fields) (w : Bool) : Dec Src := do
  let v ← orErr (Src.ofSpec (f.immUnless (f.a == 0x1FF)) f.b) .b
  need (v.pairOk w) .b
  pure v

/-- Field c as a source; a pair if `w`. -/
def srcC (f : Fields) (w : Bool) : Dec Src := do
  let v ← orErr (Src.ofSpec (f.immUnless (f.a == 0x1FF || f.b == 0x1FF)) f.c) .c
  need (v.pairOk w) .c
  pure v

/-- A field that must hold 0x04A (R72). -/
def noD (f : Fields) : Dec Unit := need (f.d == specZero) .d
@[inherit_doc noD] def noA (f : Fields) : Dec Unit := need (f.a == specZero) .a
@[inherit_doc noD] def noB (f : Fields) : Dec Unit := need (f.b == specZero) .b
@[inherit_doc noD] def noC (f : Fields) : Dec Unit := need (f.c == specZero) .c

/-- Field d as a k-field destination: k0 to k6 (R76). -/
def kd (f : Fields) : Dec (Fin 7) := do
  need (decide (f.d < 7)) .d
  pure (Fin.ofNat 7 f.d)

/-- Field d as "k, or —" (R153). -/
def kdOpt (f : Fields) : Dec KDst :=
  if f.d = specZero then pure none else do
    need (decide (f.d < 7)) .d
    pure (some (Fin.ofNat 7 f.d))

/-- A k-field source (R76). -/
def kf (v : Nat) (e : DecodeErr) : Dec (Fin 8) := do
  need (decide (v < 8)) e
  pure (Fin.ofNat 8 v)

/-- A k-field source that may not be k7 (R110). -/
def kf7 (v : Nat) (e : DecodeErr) : Dec (Fin 7) := do
  need (decide (v < 7)) e
  pure (Fin.ofNat 7 v)

/-- Field b as a block index (R153). -/
def blk (f : Fields) : Dec Blk :=
  if 0xC0 ≤ f.b && f.b < 0x100 then pure (.small (BitVec.ofNat 6 (f.b - 0xC0)))
  else if f.b = 0x1FF then do
    let v ← orErr (f.immUnless (f.a == 0x1FF)) .b
    pure (.imm v)
  else .error .b

/-- Field b as n - 1 of RESLD and RESST: a small immediate 0 to 63 (R204). -/
def nm1 (f : Fields) : Dec (Fin 64) := do
  need (decide (0xC0 ≤ f.b) && decide (f.b < 0x100)) .b
  pure (Fin.ofNat 64 (f.b - 0xC0))

/-- A type of the entry's set (R79). -/
def type (f : Fields) (ok : Ty → Bool) : Dec Ty := do
  let t ← orErr (Ty.ofCode f.ty) .type
  need (ok t) .type
  pure t

/-- The type field holds exactly this code. -/
def typeIs (f : Fields) (v : BitVec 4) : Dec Unit := need (f.ty == v) .type

/-- The type that a selector demands: 0xE if its value is of 64 bits and else 0x0, or either where it selects nothing
(R204, R215, R242, R249). -/
def typeBy (f : Fields) (wide : Option Bool) : Dec Unit :=
  need (match wide with
    | some w => f.ty == (if w then 0xE else 0)
    | none => f.ty == 0 || f.ty == 0xE) .type

/-- Minor bits outside the mask are zero (R72). -/
def minorIn (f : Fields) (mask : BitVec 7) : Dec Unit := need (f.minor &&& ~~~mask == 0) .minor

/-- Minor bits [hi:lo], counted from bit 57. -/
def mbits (f : Fields) (hi lo : Nat) : Nat := bitsOf f.minor.toNat hi lo

/-- Minor bit i, counted from bit 57. -/
def mbit (f : Fields) (i : Nat) : Bool := bitOf f.minor.toNat i

/-- The extension of a W64 or W96 word is an immediate or zero (R67). -/
def extEnd (f : Fields) : Dec Unit :=
  need (f.a == 0x1FF || f.b == 0x1FF || f.c == 0x1FF || f.ext == 0) .ext

/-- A word with no extension use at all. -/
def extZero (f : Fields) : Dec Unit := need (f.ext == 0) .ext

/-- Rounding mode [58:57] (R133). -/
def rnd (f : Fields) : Rnd :=
  match f.mbits 1 0 with | 0 => .rn | 1 => .rz | 2 => .rm | _ => .rp

/-- The guard field (R80). -/
def guardOf (f : Fields) : Dec Guard :=
  if f.guard = 7 then
    if f.neg then .error .guard else pure .always
  else pure (.k (Fin.ofNat 7 f.guard.toNat) f.neg)

/-- The op field [61:60] of CMP, FCMP and FCLASS, with field c (R123). -/
def kcomb (f : Fields) : Dec KComb :=
  match f.mbits 4 3 with
  | 0 => do f.noC; pure .none
  | 1 => do let k ← kf f.c .c; pure (.and k)
  | 2 => do let k ← kf f.c .c; pure (.or k)
  | _ => do let k ← kf f.c .c; pure (.xor k)

/-- The completion target: TK and BI in minor, field d (R204, R219). BI is examined with the minor bits. -/
def target (f : Fields) : Dec CopyTgt :=
  if f.mbit 0 then do
    let d ← orErr (Src.ofSpec none f.d) .d
    pure (.sync d)
  else do
    f.noD
    pure (.barrier (BitVec.ofNat 4 (f.mbits 4 1)))

/-- The minor bits of a copy command: BI is 0 with a sync word (R204, R219). -/
def copyMinor (f : Fields) : Dec Unit := need (f.minor &&& ~~~0x3F == 0 && (!f.mbit 0 || f.mbits 4 1 == 0)) .minor

end Fields

/-- Comparison codes of R123. -/
def Cond.ofCode : Nat → Option Cond
  | 0 => some .eq | 1 => some .ne | 2 => some .lt | 3 => some .le | 4 => some .gt | 5 => some .ge
  | _ => none

/-- Comparison codes of R139. -/
def FCond.ofCode : Nat → FCond
  | 0 => .eq | 1 => .ne | 2 => .lt | 3 => .le | 4 => .gt | 5 => .ge | 6 => .ord
  | _ => .un

/-- Selectors of R32. -/
def IdSel.ofCode : Nat → Option IdSel
  | 0 => some .tid | 1 => some .wpos | 2 => some .wave | 3 => some .team | 4 => some .clx | 5 => some .cly
  | 6 => some .clz | 7 => some .gdx | 8 => some .gdy | 9 => some .gdz | 10 => some .nthr | 11 => some .nteam
  | 12 => some .core | 13 => some .home | 14 => some .cpos | 15 => some .tcap | 16 => some .cshape
  | _ => none

/-- Level and scope codes of R177. -/
def Lv.ofCode : Nat → Option Lv
  | 0 => some .w | 1 => some .t | 2 => some .c | 3 => some .d | 4 => some .s
  | _ => none

/-- Operation codes of R194. -/
def AtomOp.ofCode : Nat → Option AtomOp
  | 0 => some .add | 1 => some .min | 2 => some .max | 3 => some .and | 4 => some .or | 5 => some .xor
  | 6 => some .exch | 7 => some .cas | 8 => some .incw | 9 => some .decw | 10 => some .fadd
  | 11 => some .fmin | 12 => some .fmax
  | _ => none

/-- Selectors of R215. -/
def RecFld.ofCode : Nat → Option RecFld
  | 0 => some .base | 1 => some .spbase | 2 => some .rows | 3 => some .cols | 4 => some .febase
  | 5 => some .fmt | 6 => some .tid
  | _ => none

/-- Special-register indices of R249. -/
def SReg.ofCode : Nat → Option SReg
  | 0 => some .tconf | 1 => some .cconf | 2 => some .wdcnt | 3 => some .wdlim | 4 => some .accOwner
  | 5 => some .ctxid | 6 => some .ctemp | 7 => some .throt | 8 => some .tmode
  | _ => none

/-- The symbols of CHK (R187). -/
def ChkB.ofSym (v : Nat) : Option ChkB :=
  if v < 255 then some (.len (Fin.ofNat 255 v))
  else match v with
    | 0x100 => some .nthr | 0x101 => some .tcap | 0x102 => some .nearsz | 0x103 => some .colsz
    | 0x104 => some .locsz | _ => none

/-- Two sources and a destination of one width: the commonest row shape. -/
def Fields.dab (f : Fields) (w : Bool) : Dec (Dst × Src × Src) := do
  let d ← f.dst w
  let a ← f.srcA w
  let b ← f.srcB w
  pure (d, a, b)

/-- The rows of R110. -/
def decodeInteger (f : Fields) (c : Ctl) : Dec Instr :=
  let sat := f.mbit 0
  let w := f.wide
  match f.op with
  | 0x01 => do
    let (d, a, b) ← f.dab w; f.noC; let t ← f.type Ty.isInt; f.minorIn 1; f.extEnd; pure (.add c sat t d a b)
  | 0x02 => do
    let (d, a, b) ← f.dab w; f.noC; let t ← f.type Ty.isInt; f.minorIn 1; f.extEnd; pure (.sub c sat t d a b)
  | 0x03 => do
    let (d, a, b) ← f.dab w; let k ← Fields.kf7 f.c .c
    let t ← f.type (fun t => t == .n32 || t == .n64 || t.isBits); f.minorIn 0; f.extEnd
    pure (.addc c t d a b k)
  | 0x04 => do
    let (d, a, b) ← f.dab w; let k ← Fields.kf7 f.c .c
    let t ← f.type (fun t => t == .n32 || t == .n64 || t.isBits); f.minorIn 0; f.extEnd
    pure (.subc c t d a b k)
  | 0x05 => do
    let (d, a, b) ← f.dab w; f.noC; let t ← f.type Ty.isInt; f.minorIn 0; f.extEnd; pure (.mul c t d a b)
  | 0x06 => do
    let (d, a, b) ← f.dab w; f.noC; let t ← f.type Ty.isInt3264; f.minorIn 0; f.extEnd; pure (.mulh c t d a b)
  | 0x07 => do
    let (d, a, b) ← f.dab w; let e ← f.srcC w; let t ← f.type Ty.isInt; f.minorIn 0; f.extEnd
    pure (.mad c t d a b e)
  | 0x08 => do
    let (d, a, b) ← f.dab w; f.noC; let t ← f.type Ty.isInt3264; f.minorIn 0; f.extEnd; pure (.div c t d a b)
  | 0x09 => do
    let (d, a, b) ← f.dab w; f.noC; let t ← f.type Ty.isInt3264; f.minorIn 0; f.extEnd; pure (.rem c t d a b)
  | 0x0A => do
    let d ← f.dst w; let a ← f.srcA w; f.noB; f.noC; let t ← f.type Ty.signed; f.minorIn 1; f.extEnd
    pure (.abs c sat t d a)
  | 0x0B => do
    let (d, a, b) ← f.dab w; f.noC; let t ← f.type Ty.isInt; f.minorIn 0; f.extEnd; pure (.min c t d a b)
  | 0x0C => do
    let (d, a, b) ← f.dab w; f.noC; let t ← f.type Ty.isInt; f.minorIn 0; f.extEnd; pure (.max c t d a b)
  | 0x0D => do
    let (d, a, b) ← f.dab w; f.noC; let t ← f.type Ty.isBits; f.minorIn 0; f.extEnd; pure (.and c t d a b)
  | 0x0E => do
    let (d, a, b) ← f.dab w; f.noC; let t ← f.type Ty.isBits; f.minorIn 0; f.extEnd; pure (.or c t d a b)
  | 0x0F => do
    let (d, a, b) ← f.dab w; f.noC; let t ← f.type Ty.isBits; f.minorIn 0; f.extEnd; pure (.xor c t d a b)
  | 0x10 => do
    let (d, a, b) ← f.dab w; f.noC; let t ← f.type Ty.isBits; f.minorIn 0; f.extEnd; pure (.andn c t d a b)
  | 0x11 => do
    let d ← f.dst w; let a ← f.srcA w; f.noB; f.noC; let t ← f.type Ty.isBits; f.minorIn 0; f.extEnd
    pure (.not c t d a)
  | 0x12 => do
    let d ← f.dst w; let a ← f.srcA w; let n ← f.srcB false; f.noC; let t ← f.type Ty.isBits
    f.minorIn 0; f.extEnd; pure (.shl c t d a n)
  | 0x13 => do
    let d ← f.dst w; let a ← f.srcA w; let n ← f.srcB false; f.noC; let t ← f.type Ty.isBits
    f.minorIn 0; f.extEnd; pure (.shr c t d a n)
  | 0x14 => do
    let d ← f.dst w; let a ← f.srcA w; let n ← f.srcB false; f.noC
    let t ← f.type (fun t => t == .i32 || t == .i64); f.minorIn 0; f.extEnd; pure (.sha c t d a n)
  | 0x15 => do
    let d ← f.dst w; let a ← f.srcA w; let n ← f.srcB false; f.noC; let t ← f.type Ty.isBits
    f.minorIn 1; f.extEnd; pure (.rot c sat t d a n)
  | 0x16 => do
    let (d, a, b) ← f.dab false; let n ← f.srcC false; f.typeIs 0; f.minorIn 1; f.extEnd
    pure (.fsh c sat d a b n)
  | 0x17 => do
    let d ← f.dst false; let a ← f.srcA w; f.noB; f.noC; let t ← f.type Ty.isBits; f.minorIn 0; f.extEnd
    pure (.clz c t d a)
  | 0x18 => do
    let d ← f.dst false; let a ← f.srcA w; f.noB; f.noC; let t ← f.type Ty.isBits; f.minorIn 0; f.extEnd
    pure (.popc c t d a)
  | 0x19 => do
    let d ← f.dst w; let a ← f.srcA w; f.noB; f.noC; let t ← f.type Ty.isBits; f.minorIn 0; f.extEnd
    pure (.brev c t d a)
  | 0x1A => do
    let d ← f.dst w; let a ← f.srcA w; let n ← f.srcB false; f.noC; let t ← f.type Ty.isInt3264
    f.minorIn 0; f.extEnd; pure (.bfx c t d a n)
  | 0x1B => do
    let (d, a, b) ← f.dab w; let n ← f.srcC false; let t ← f.type Ty.isBits; f.minorIn 0; f.extEnd
    pure (.bfi c t d a b n)
  | 0x1C => do
    let (d, a, b) ← f.dab false; let n ← f.srcC false; f.typeIs 0; f.minorIn 0; f.extEnd
    pure (.prm c d a b n)
  | 0x1D => do
    let (d, a, b) ← f.dab w; let k ← Fields.kf f.c .c; let t ← f.type (fun _ => true); f.minorIn 0; f.extEnd
    pure (.sel c t d a b k)
  | 0x1E => do
    let d ← f.kd; let a ← f.srcA w; let b ← f.srcB w; let op ← f.kcomb
    let t ← f.type (fun t => t.isInt || t.isBits); f.minorIn 0x1F
    let cc ← orErr (Cond.ofCode (f.mbits 2 0)) .minor
    need (t.isInt || cc == .eq || cc == .ne) .minor
    f.extEnd; pure (.cmp c cc op t d a b)
  | 0x1F => do
    need (decide (f.d < 16) && decide (f.d % 8 < 7)) .d
    let ka ← Fields.kf f.a .a; let kb ← Fields.kf f.b .b; let kc ← Fields.kf f.c .c; f.typeIs 0; f.extEnd
    pure (.kop c (Fin.ofNat 7 (f.d % 8)) ka kb kc (BitVec.ofNat 8 (f.d / 8 + 2 * f.minor.toNat)))
  | 0x20 => do
    let d ← f.dst w; let a ← f.srcA w; f.noB; f.noC; let t ← f.type (fun _ => true); f.minorIn 0; f.extEnd
    pure (.mov c t d a)
  | 0x21 => do
    let d ← f.dst w; f.noA; f.noB; f.noC; let t ← f.type (fun t => t.isBits || t.isInt3264)
    f.minorIn 1; need (!sat || t.wide) .minor; pure (.movi c sat t d (BitVec.ofNat 32 f.ext))
  | 0x22 => do
    let d ← f.dst w
    let wr := bitOf f.ext 10
    need (!wr || d == .zero) .d
    let a ← orErr (Src.ofSpec none f.a) .a
    need (if wr then a.pairOk w else a == .zero) .a
    let b ← orErr (Src.ofSpec none f.b) .b
    f.noC; let t ← f.type Ty.isBits; f.minorIn 0
    need (bitsOf f.ext 31 11 == 0 && (!w || f.ext % 2 == 0)) .ext
    pure (.movs c t (if wr then .write a else .read d) (BitVec.ofNat 10 f.ext) b)
  | 0x23 => do
    let d ← f.dst w; let a ← f.srcA w; let b ← f.srcB false; let e ← f.srcC false
    let t ← f.type (fun t => t.isBits || t.isInt3264); f.minorIn 7; f.extEnd
    pure (.lea c (BitVec.ofNat 3 (f.mbits 2 0)) t d a b e)
  | 0x24 => do
    let d ← f.dst false; f.noA; f.noB; f.noC; f.typeIs 2; f.minorIn 0x1F
    let sel ← orErr (IdSel.ofCode (f.mbits 4 0)) .minor
    f.extEnd; pure (.id c sel d)
  | _ => .error .opcode

/-- The rows of R132. -/
def decodeFloat (f : Fields) (c : Ctl) : Dec Instr :=
  let p := f.mbit 0
  let r := f.rnd
  match f.op with
  | 0x30 => do
    let (d, a, b) ← f.dab false; f.noC; let t ← f.type Ty.isF2; f.minorIn 3; f.extEnd; pure (.fadd c r t d a b)
  | 0x31 => do
    let (d, a, b) ← f.dab false; f.noC; let t ← f.type Ty.isF2; f.minorIn 3; f.extEnd; pure (.fsub c r t d a b)
  | 0x32 => do
    let (d, a, b) ← f.dab false; f.noC; let t ← f.type Ty.isF2; f.minorIn 3; f.extEnd; pure (.fmul c r t d a b)
  | 0x33 => do
    let (d, a, b) ← f.dab false; let e ← f.srcC false; let t ← f.type Ty.isF2; f.minorIn 3; f.extEnd
    pure (.ffma c r t d a b e)
  | 0x34 => do
    let (d, a, b) ← f.dab false; f.noC; let t ← f.type Ty.isF2; f.minorIn 1; f.extEnd; pure (.fmin c p t d a b)
  | 0x35 => do
    let (d, a, b) ← f.dab false; f.noC; let t ← f.type Ty.isF2; f.minorIn 1; f.extEnd; pure (.fmax c p t d a b)
  | 0x36 => do
    let d ← f.kd; let a ← f.srcA false; let b ← f.srcB false; let op ← f.kcomb
    let t ← f.type Ty.isF; f.minorIn 0x1F; f.extEnd; pure (.fcmp c (FCond.ofCode (f.mbits 2 0)) op t d a b)
  | 0x37 => do
    let d ← f.kd; let a ← f.srcA false; let b ← f.srcB false; let op ← f.kcomb
    let t ← f.type Ty.isF; f.minorIn 0x18; f.extEnd; pure (.fclass c op t d a b)
  | 0x38 => do
    let d ← f.dst false; let a ← f.srcA false; f.noB; f.noC; f.typeIs 5; f.minorIn 0; f.extEnd; pure (.frcps c d a)
  | 0x39 => do
    let d ← f.dst false; let a ← f.srcA false; f.noB; f.noC; f.typeIs 5; f.minorIn 0; f.extEnd; pure (.frsqs c d a)
  | 0x3A => do
    let d ← f.dst false; let a ← f.srcA false; f.noB; f.noC; f.typeIs 5; f.minorIn 0; f.extEnd; pure (.fexs c d a)
  | 0x3B => do
    let d ← f.dst false; let a ← f.srcA false; f.noB; f.noC; f.typeIs 5; f.minorIn 0; f.extEnd; pure (.flgs c d a)
  | 0x3C => do
    let (d, a, b) ← f.dab false; f.noC; let t ← f.type Ty.isF2; f.minorIn 3; f.extEnd; pure (.fscl c r t d a b)
  | 0x3D => do
    let d ← f.dst false; let a ← f.srcA false; f.noB; f.noC; let t ← f.type Ty.isF; f.minorIn 0; f.extEnd
    pure (.fgex c t d a)
  | 0x3E => do
    let d ← f.dst false; let a ← f.srcA false; f.noB; f.noC; let t ← f.type Ty.isF2; f.minorIn 3; f.extEnd
    pure (.frnd c r t d a)
  | 0x3F => do
    let src := BitVec.ofNat 4 (f.mbits 6 3)
    let d ← f.dst f.wide
    let a ← f.srcA (src == 3 || src == 4 || src == 0xE)
    let b ← f.srcB false
    need (f.ty == 8 || f.ty == 9 || f.b == specZero) .b
    f.noC
    let t ← f.type (fun t => t.isF2 || t.isInt)
    let u ← orErr (Ty.ofCode src) .minor
    need (cvtOk t u (f.mbit 2) r) .minor
    f.extEnd; pure (.cvt c r (f.mbit 2) t u d a b)
  | 0x40 => do
    let (d, a, b) ← f.dab false; let e ← f.srcC false; let t ← f.type Ty.isPacked; f.minorIn 3; f.extEnd
    pure (.fdot2 c r t d a b e)
  | _ => .error .opcode

/-- The rows of R153. -/
def decodeControl (f : Fields) (c : Ctl) : Dec Instr :=
  let i := Fin.ofNat 16 (f.mbits 3 0)
  match f.op with
  | 0x50 => do
    f.noD; let a ← f.srcA false; let k ← f.blk; f.noC; f.typeIs 0; f.minorIn 1; f.extEnd
    pure (.br c (f.mbit 0) a k)
  | 0x51 => do
    f.noD; let a ← f.srcA false; let k ← f.blk; f.noC; f.typeIs 0; f.minorIn 0; f.extEnd; pure (.brx c a k)
  | 0x52 => do
    need (decide (f.d < 64)) .d; need (f.a == f.d) .a; let k ← f.blk; f.noC; f.typeIs 0; f.minorIn 0; f.extEnd
    pure (.call c (Fin.ofNat 64 f.d) k)
  | 0x53 => do
    need (decide (f.d < 64)) .d; need (f.a == f.d) .a; let k ← f.blk; f.noC; f.typeIs 0; f.minorIn 0; f.extEnd
    pure (.ret c (Fin.ofNat 64 f.d) k)
  | 0x54 => do f.noD; f.noA; f.noB; f.noC; f.typeIs 0; f.minorIn 0; f.extEnd; pure (.exit c)
  | 0x55 => do
    let n := f.mbits 4 0
    let d ← f.dst false
    need (if n = 0 then f.a == specZero else decide (f.a + n ≤ 64)) .a
    let k ← f.blk; f.noC; f.typeIs 0; f.minorIn 0x1F; need (decide (n ≤ 16)) .minor; f.extEnd
    pure (.spawn c (Fin.ofNat 17 n) d (if n = 0 then 0 else Fin.ofNat 64 f.a) k)
  | 0x56 => do f.noD; f.noA; f.noB; f.noC; f.typeIs 0; f.minorIn 0; f.extEnd; pure (.yield c)
  | 0x57 => do
    f.noD; let a ← f.srcA false; f.noB; f.noC; f.typeIs 0; f.minorIn 0x1F; f.extEnd; pure (.binit c (f.mbit 4) i a)
  | 0x58 => do
    let d ← f.dst false; f.noA; f.noB; f.noC; f.typeIs 0; f.minorIn 0x1F; f.extEnd; pure (.barv c (f.mbit 4) i d)
  | 0x59 => do
    let d ← f.kdOpt; let a ← f.srcA false; f.noB; f.noC; f.typeIs 0; f.minorIn 0xF; f.extEnd; pure (.bwait c i d a)
  | 0x5A => do
    let d ← f.kdOpt; let a ← f.srcA false; f.noB; f.noC; f.typeIs 0; f.minorIn 0x1F; f.extEnd
    pure (.btest c (f.mbit 4) i d a)
  | 0x5B => do
    f.noD; let a ← f.srcA false; f.noB; f.noC; f.typeIs 0; f.minorIn 0xF; f.extEnd; pure (.cinit c i a)
  | 0x5C => do
    let d ← f.kdOpt; f.noA; f.noB; f.noC; f.typeIs 0; f.minorIn 0xF; f.extEnd; pure (.csign c i d)
  | 0x5D => do
    let m ← (match f.mbits 1 0 with
      | 0 => do let d ← f.dst false; pure (Vote.ballot d)
      | 1 => do let d ← f.kdOpt; pure (Vote.any d)
      | 2 => do let d ← f.kdOpt; pure (Vote.all d)
      | _ => do let d ← f.kdOpt; pure (Vote.uni d) : Dec Vote)
    let k ← Fields.kf f.a .a; f.noB; f.noC; f.typeIs 0; f.minorIn 3; f.extEnd; pure (.wvote c m k)
  | 0x5E => do
    let d ← f.dst f.wide; let a ← f.srcA f.wide; let b ← f.srcB false; f.noC; let t ← f.type Ty.isBits
    f.minorIn 3; f.extEnd
    pure (.wxch c (match f.mbits 1 0 with | 0 => .idx | 1 => .up | 2 => .down | _ => .xor) t d a b)
  | _ => .error .opcode

/-- The vector count of R177. -/
def VCount.ofCode : Nat → Option VCount
  | 0 => some .v2 | 1 => some .v4 | 2 => some .v8
  | _ => none

/-- The rows of R177. -/
def decodeMemory (f : Fields) (c : Ctl) : Dec Instr :=
  let w := f.wide
  match f.op with
  | 0x60 => do
    let d ← f.dst w; let a ← f.srcA false; f.noB; let e ← f.srcC false; let t ← f.type (fun _ => true)
    f.minorIn 0; f.extEnd; pure (.ld c t d a e)
  | 0x61 => do
    f.noD; let a ← f.srcA false; let b ← f.srcB w; let e ← f.srcC false; let t ← f.type (fun _ => true)
    f.minorIn 0; f.extEnd; pure (.st c t a b e)
  | 0x62 => do
    let d ← f.dst false
    need (match d, VCount.ofCode (f.mbits 1 0) with | .x r, some n => decide (r.val + n.regs ≤ 64) | _, _ => true) .d
    let a ← f.srcA false; f.noB; let e ← f.srcC false; f.typeIs 0; f.minorIn 3
    let n ← orErr (VCount.ofCode (f.mbits 1 0)) .minor
    f.extEnd; pure (.ldv c n d a e)
  | 0x63 => do
    f.noD; let a ← f.srcA false; let b ← f.srcB false
    need (match b, VCount.ofCode (f.mbits 1 0) with
      | .x r, some n => decide (r.val + n.regs ≤ 64) | .x _, none => true | _, _ => false) .b
    let e ← f.srcC false; f.typeIs 0; f.minorIn 3
    let n ← orErr (VCount.ofCode (f.mbits 1 0)) .minor
    f.extEnd; pure (.stv c n a b e)
  | 0x64 => do
    let d ← f.dst w; let a ← f.srcA false; f.noB; let e ← f.srcC false
    let t ← f.type (fun t => t.isBits || t.isInt3264 || t == .f32); f.minorIn 0; f.extEnd; pure (.lds c t d a e)
  | 0x65 => do
    f.noD; let a ← f.srcA w; need a.isReg .a
    let b ← (if f.mbit 2 then orErr (ChkB.ofSym f.b) .b else do let b ← f.srcB w; pure (.src b) : Dec ChkB)
    let e ← (if f.mbit 2 then
        orErr (Src.ofSpec (f.immUnless (f.a == 0x1FF)) f.c) .c else f.srcC false : Dec Src)
    need (match e with | .small _ => true | .imm _ => true | _ => false) .c
    let t ← f.type Ty.isInt3264; f.minorIn 7
    let op ← orErr (match f.mbits 1 0 with
      | 0 => some RelOp.lt | 1 => some .le | 2 => some .eq | _ => none) .minor
    f.extEnd; pure (.chk c op t a b e)
  | 0x66 => do
    f.noD; f.noA; f.noB; f.noC; f.typeIs 0; f.minorIn 7
    let l ← orErr (Lv.ofCode (f.mbits 2 0)) .minor
    need (l != .s) .minor; f.extEnd; pure (.commit c l)
  | 0x67 => do
    f.noD; f.noA; f.noB; f.noC; f.typeIs 0; f.minorIn 7
    let l ← orErr (Lv.ofCode (f.mbits 2 0)) .minor
    need (l == .w || l == .t || l == .c) .minor; f.extEnd; pure (.abort c l)
  | 0x68 => do
    f.noD; f.noA; f.noB; f.noC; f.typeIs 0; f.minorIn 0x3F
    let l ← orErr (Lv.ofCode (f.mbits 2 0)) .minor
    need (f.mbit 3 || f.mbit 4 || f.mbit 5) .minor
    f.extEnd; pure (.fence c l ⟨f.mbit 3, f.mbit 4, f.mbit 5⟩)
  | 0x69 => do
    let (d, a, b) ← (do
      let d ← f.dst w; let a ← f.srcA false; let b ← f.srcB w; pure (d, a, b) : Dec (Dst × Src × Src))
    let e ← f.srcC (w && f.mbits 6 3 == 7)
    let t ← f.type (fun t => match AtomOp.ofCode (f.mbits 6 3) with | some op => op.types t | none => true)
    let op ← orErr (AtomOp.ofCode (f.mbits 6 3)) .minor
    let sc ← orErr (Lv.ofCode (f.mbits 2 0)) .minor
    need (sc != .w) .minor; f.extEnd; pure (.atom c op sc t d a b e)
  | 0x6A => do
    f.noD; let a ← f.srcA false; let b ← f.srcB w; let e ← f.srcC false
    let t ← f.type (fun t => match AtomOp.ofCode (f.mbits 6 3) with | some op => op.types t | none => true)
    let op ← orErr (AtomOp.ofCode (f.mbits 6 3)) .minor
    need (op != .exch && op != .cas) .minor
    let sc ← orErr (Lv.ofCode (f.mbits 2 0)) .minor
    need (sc != .w) .minor; f.extEnd; pure (.red c op sc t a b e)
  | 0x6B => do
    let d ← f.dst false; let a ← f.srcA false; f.noB; f.noC; f.typeIs 0; f.minorIn 7
    let sc ← orErr (Lv.ofCode (f.mbits 2 0)) .minor
    need (sc != .w) .minor; f.extEnd; pure (.lkacq c sc d a)
  | 0x6C => do
    f.noD; let a ← f.srcA false; f.noB; f.noC; f.typeIs 0; f.minorIn 7
    let sc ← orErr (Lv.ofCode (f.mbits 2 0)) .minor
    need (sc != .w) .minor; f.extEnd; pure (.lkrel c sc a)
  | 0x6D => do
    f.noD; let a ← f.srcA false; f.noB; let e ← f.srcC false; f.typeIs 0; f.minorIn 0; f.extEnd; pure (.pref c a e)
  | 0x6E => do
    let d ← f.dst false; let a ← f.srcA false; let b ← f.srcB false; let e ← f.srcC false
    f.typeIs 0; f.minorIn 0; f.extEnd; pure (.swarm c d a b e)
  | 0x6F => do
    let d ← f.kdOpt; let a ← f.srcA false; let b ← f.srcB false; let e ← f.srcC false
    f.typeIs 0; f.minorIn 0; f.extEnd; pure (.swait c d a b e)
  | _ => .error .opcode

/-- The accumulator fields ACC [59:57] and Q [60]; a quad starts at 0 or 4 (R204, R206). -/
def Fields.accQ (f : Fields) : Dec Acc := do
  let acc : Acc := ⟨Fin.ofNat 8 (f.mbits 2 0), f.mbit 3⟩
  need acc.wf .minor
  pure acc

/-- Bits [hi:lo] of the W128 extension, numbered as R205 numbers them, from bit 64. -/
def Fields.xbits (f : Fields) (hi lo : Nat) : Nat := bitsOf f.ext (hi - 64) (lo - 64)

/-- A bit of the W128 extension, numbered as R205 numbers it. -/
def Fields.xbit (f : Fields) (i : Nat) : Bool := bitOf f.ext (i - 64)

/-- The rows of R204 and R205. -/
def decodeEngine (f : Fields) (c : Ctl) : Dec Instr :=
  let slot16 := Fin.ofNat 16 (f.mbits 3 0)
  match f.op with
  | 0x80 => do
    let tgt ← f.target; let a ← f.srcA false; let b ← f.srcB false
    need (decide (f.c < 512) && decide (f.c % 32 ≤ 16) && (f.mbit 5 || f.c / 32 == 0)) .c
    f.typeIs 0; f.copyMinor; need (decide (f.ext < 2 ^ 60)) .ext
    pure (.cpy c tgt a b (f.mbit 5) (Fin.ofNat 17 (f.c % 32)) (Fin.ofNat 16 (f.c / 32))
      (BitVec.ofNat 20 (f.xbits 83 64)) (BitVec.ofNat 12 (f.xbits 95 84))
      (BitVec.ofNat 14 (f.xbits 109 96)) (BitVec.ofNat 14 (f.xbits 123 110)))
  | 0x81 => do
    let tgt ← f.target; let a ← f.srcA true; let b ← f.srcB false; let e ← f.srcC false
    f.typeIs 0; f.copyMinor
    need (decide (f.ext < 2 ^ 17) && decide (f.xbits 74 72 ≤ 5) && decide (f.xbits 80 76 ≤ 16)) .ext
    pure (.cpyt c (f.mbit 5) tgt a b e (BitVec.ofNat 8 (f.xbits 71 64)) (Fin.ofNat 6 (f.xbits 74 72))
      (f.xbit 75) (Fin.ofNat 17 (f.xbits 80 76)))
  | 0x82 => do
    let d ← f.dst true; let a ← f.srcA false; f.noB; f.noC; f.typeIs 0xE; f.minorIn 0; f.extEnd; pure (.cpyq c d a)
  | 0x83 => do
    let near := f.mbit 5
    let tgt ← f.target; let a ← f.srcA (!near); f.noB; let e ← f.srcC false
    need (!near || e == .zero) .c
    f.typeIs 0; f.copyMinor; need (decide (f.ext < 2 ^ 18)) .ext
    let wf ← orErr (match f.xbits 81 80 with
      | 0 => some WFmt.ds8 | 1 => some .ds4 | 2 => some .bf16 | _ => none) .ext
    pure (.wld c near tgt a e (BitVec.ofNat 10 (f.xbits 73 64)) (BitVec.ofNat 6 (f.xbits 79 74)) wf)
  | 0x84 => do
    f.noD; let a ← f.srcA false; let b ← f.srcB false; f.noC; f.typeIs 0; f.minorIn 0; f.extEnd; pure (.wdrop c a b)
  | 0x85 => do
    f.noD; let a ← f.srcA false; f.noB; f.noC; f.typeIs 0; f.minorIn 0x3F
    let acc : Acc := ⟨Fin.ofNat 8 (f.xbits 66 64), f.xbit 67⟩
    let nexp := BitVec.ofNat 14 (f.xbits 99 86)
    need (decide (f.ext < 2 ^ 36) && acc.wf && (!acc.quad || (!f.xbit 68 && !f.xbit 69)) &&
      decide (1 ≤ nexp.toNat) && decide (nexp.toNat ≤ 8192)) .ext
    pure (.mma c (match f.mbits 5 4 with | 0 => .ds8 | 1 => .ds4 | 2 => .bfds8 | _ => .bfbf) slot16 a acc
      (f.xbit 68) (f.xbit 69) (BitVec.ofNat 6 (f.xbits 75 70)) (BitVec.ofNat 10 (f.xbits 85 76)) nexp)
  | 0x86 => do
    f.noD; f.noA; f.noB; f.noC; f.typeIs 0; f.minorIn 0xF; let acc ← f.accQ; f.extEnd; pure (.azero c acc)
  | 0x87 => do
    let d ← f.dst false; let a ← f.srcA false; f.noB; f.noC; f.typeIs 0; f.minorIn 7; f.extEnd
    pure (.ard c (Fin.ofNat 8 (f.mbits 2 0)) d a)
  | 0x88 => do
    f.noD; let a ← f.srcA false; let b ← f.srcB false; f.noC; need (f.ty == 5 || f.ty == 0) .type
    f.minorIn 7; f.extEnd; pure (.awr c (Fin.ofNat 8 (f.mbits 2 0)) (f.ty == 5) a b)
  | 0x89 => do
    f.noD; let a ← f.srcA true; let b ← f.srcB false; let e ← f.srcC false; f.typeIs 5; f.minorIn 0x1F
    let acc ← f.accQ
    let fmt ← orErr (match f.xbits 67 64 with
      | 0 => some QFmt.f32 | 1 => some .bf16 | 3 => some .bx8 | 4 => some .bx4 | _ => none) .ext
    need (decide (f.ext < 2 ^ 22) && decide (f.xbits 75 71 ≤ 16) &&
      (match fmt with
       | .bx8 | .bx4 => acc.quad
       | _ => !f.xbit 68 && f.xbits 85 76 == 0)) .ext
    pure (.qst c acc (f.mbit 4) a b e fmt (f.xbit 68) (f.xbit 69) (f.xbit 70) (Fin.ofNat 17 (f.xbits 75 71))
      (BitVec.ofNat 10 (f.xbits 85 76)))
  | 0x8A => do
    f.noD; let a ← f.srcA false; let n ← f.nm1; let e ← f.srcC false; f.typeIs 0; f.minorIn 0x3F
    need (decide (f.mbits 5 0 + n.val + 1 ≤ 64)) .minor; f.extEnd; pure (.resld c (Fin.ofNat 64 (f.mbits 5 0)) a n e)
  | 0x8B => do
    f.noD; let a ← f.srcA false; let n ← f.nm1; let e ← f.srcC false; f.typeIs 0; f.minorIn 0x3F
    need (decide (f.mbits 5 0 + n.val + 1 ≤ 64)) .minor; f.extEnd; pure (.resst c (Fin.ofNat 64 (f.mbits 5 0)) a n e)
  | 0x8C => do
    f.noD; let a ← f.srcA false; f.noB; f.noC; f.typeIs 0; f.minorIn 0xF; f.extEnd; pure (.hclr c slot16 a)
  | 0x8D => do
    let d ← f.dst false; let a ← f.srcA false; f.noB; f.noC; f.typeIs 0; f.minorIn 0xF; f.extEnd
    pure (.hrd c slot16 d a)
  | 0x8E => do
    let d ← f.dst false; let a ← f.srcA true
    let b ← f.srcB (f.mbits 2 0 == 0 || f.mbits 2 0 == 1 || f.mbits 2 0 == 4)
    f.noC; f.typeBy ((RecFld.ofCode (f.mbits 2 0)).map RecFld.wide)
    f.minorIn 7; let fld ← orErr (RecFld.ofCode (f.mbits 2 0)) .minor
    f.extEnd; pure (.trec c fld d a b)
  | 0x8F => do
    let d ← f.dst false; let a ← f.srcA true; f.noB; f.noC; f.typeIs 0; f.minorIn 0; f.extEnd; pure (.topen c d a)
  | 0x90 => do
    let d ← f.dst false; let a ← f.srcA true; f.noB; f.noC; f.typeIs 0; f.minorIn 0; f.extEnd; pure (.tclose c d a)
  | 0x91 => do
    let d ← f.dst false; let a ← f.srcA true; f.noB; let e ← f.srcC false; f.typeIs 0; f.minorIn 3
    let op ← orErr (match f.mbits 1 0 with
      | 0 => some TfeOp.test | 1 => some .fill | 2 => some .empty | _ => none) .minor
    f.extEnd; pure (.tfe c op d a e)
  | _ => .error .opcode

/-- The rows of R242. -/
def decodeSystem (f : Fields) (c : Ctl) : Dec Instr :=
  match f.op with
  | 0xA0 => do
    f.noD; let a ← f.srcA false; f.noB; f.noC; f.typeIs 0; f.extEnd; pure (.trap c f.minor a)
  | 0xA1 => do f.noD; f.noA; f.noB; f.noC; f.typeIs 0; f.extEnd; pure (.bkpt c f.minor)
  | 0xA2 => do
    let d ← f.dst (f.mbits 5 0 == 4); f.noA; f.noB; f.noC
    f.typeBy ((SReg.ofCode (f.mbits 5 0)).map SReg.wide); f.minorIn 0x3F
    let r ← orErr (SReg.ofCode (f.mbits 5 0)) .minor
    f.extEnd; pure (.srd c r d)
  | 0xA3 => do
    f.noD; let a ← f.srcA false; f.noB; f.noC; f.typeIs 0; f.minorIn 0x3F
    let r ← orErr (SReg.ofCode (f.mbits 5 0)) .minor
    need r.writable .minor; f.extEnd; pure (.swr c r a)
  | 0xA4 => do
    let d ← f.dst true; f.noA; f.noB; f.noC; f.typeIs 0xE; f.minorIn 0; f.extEnd; pure (.time c d)
  | 0xA5 => do
    let d ← f.dst true; f.noA; f.noB; f.noC; f.typeIs 0xE; f.minorIn 0xF; f.extEnd
    pure (.publish c (Fin.ofNat 16 (f.mbits 3 0)) d)
  | 0xA6 => do
    let d ← f.dst false; let a ← f.srcA true; f.noB; f.noC; f.typeIs 0; f.minorIn 0; f.extEnd; pure (.launch c d a)
  | 0xA7 => do
    let d ← f.dst true; let a ← f.srcA true; let b ← f.srcB false; f.noC; f.typeIs 0xE; f.extEnd
    pure (.svc c f.minor d a b)
  | 0xA8 => do
    let d ← f.dst true; f.noA; f.noB; f.noC; f.typeIs 0xE; f.minorIn 0xF; f.extEnd
    pure (.perf c (Fin.ofNat 16 (f.mbits 3 0)) d)
  | 0xA9 => do
    f.noD; let a ← f.srcA false; f.noB; f.noC; f.typeIs 0; f.minorIn 0; f.extEnd; pure (.sleep c a)
  | _ => .error .opcode

/-- The opcode is assigned (R86, R88) and allows the form (R87). -/
def opFormOk (op : Nat) (form : Form) : Bool :=
  if op = 0 then true
  else if op = 0x21 || op = 0x22 then form == .w96
  else if op = 0x80 || op = 0x81 || op = 0x83 || op = 0x85 || op = 0x89 then form == .w128
  else if (1 ≤ op && op ≤ 0x24) || (0x30 ≤ op && op ≤ 0x40) || (0x50 ≤ op && op ≤ 0x5E) ||
      (0x60 ≤ op && op ≤ 0x6F) || (0x80 ≤ op && op ≤ 0x91) || (0xA0 ≤ op && op ≤ 0xA9) then form != .w128
  else false

/-- The instruction of a word's fields, in the order of R429 step 3. -/
def decodeFields (f : Fields) : Dec Instr := do
  need (opFormOk f.op f.form) .opcode
  let g ← f.guardOf
  let c : Ctl := ⟨f.form, g, f.stall⟩
  if f.op = 0 then do
    need (g == .always) .guard
    f.noD; f.noA; f.noB; f.noC; f.typeIs 0; f.minorIn 0; f.extZero
    pure (.nop c)
  else if f.op < 0x30 then decodeInteger f c
  else if f.op < 0x50 then decodeFloat f c
  else if f.op < 0x60 then decodeControl f c
  else if f.op < 0x80 then decodeMemory f c
  else if f.op < 0xA0 then decodeEngine f c
  else decodeSystem f c

/-- The number whose bytes these are, the first the least significant (R6). -/
def natOfBytes : List Byte → Nat
  | [] => 0
  | b :: l => b.toNat + 256 * natOfBytes l

/-- The n low bytes of a number, the least significant first (R6). -/
def bytesOfNat : Nat → Nat → List Byte
  | 0, _ => []
  | n + 1, v => BitVec.ofNat 8 v :: bytesOfNat n (v / 256)

/-- The form of the word that starts with these bytes (R66). -/
def formOf (l : List Byte) : Dec Form :=
  match l with
  | [] => .error .short
  | b :: _ => orErr (Form.ofCode (b.toNat % 4)) .length

/-- Decodes one word from bytes: the instruction and the bytes after it. -/
def decode (l : List Byte) : Dec (Instr × List Byte) := do
  let form ← formOf l
  need (decide (form.bytes ≤ l.length)) .short
  let i ← decodeFields (Fields.ofWord form (natOfBytes (l.take form.bytes)))
  pure (i, l.drop form.bytes)

/-- The decoder on a word given as a number, bit 0 the lowest bit of the first doubleword; the bits above
`nbits` are zero. -/
def decodeTableWord (nbits w : Nat) : Option Instr :=
  match decode (bytesOfNat 16 (w % 2 ^ nbits)) with
  | .ok (i, _) => some i
  | .error _ => none

/-! The encoder, from the same tables. -/

/-- The specifier of a source (R73). -/
def Src.spec : Src → Nat
  | .x r => r.val
  | .o r => 0x40 + r.val
  | .y r => 0x48 + r.val
  | .zero => 0x4A
  | .small f => 0x80 + f.toNat
  | .s r => 0x100 + r.val
  | .imm _ => 0x1FF

/-- The specifier of a destination (R73). -/
def Dst.spec : Dst → Nat
  | .x r => r.val
  | .o r => 0x40 + r.val
  | .y r => 0x48 + r.val
  | .zero => 0x4A
  | .s r => 0x100 + r.val

/-- The immediate of a source, as the extension. -/
def Src.ext : Src → Nat
  | .imm v => v.toNat
  | _ => 0

/-- The specifier of a block index. -/
def Blk.spec : Blk → Nat
  | .small v => 0xC0 + v.toNat
  | .imm _ => 0x1FF

/-- Its extension. -/
def Blk.ext : Blk → Nat
  | .small _ => 0
  | .imm v => v.toNat

/-- "k, or —". -/
def kdSpec : KDst → Nat
  | none => specZero
  | some k => k.val

def Cond.code : Cond → Nat
  | .eq => 0 | .ne => 1 | .lt => 2 | .le => 3 | .gt => 4 | .ge => 5

def FCond.code : FCond → Nat
  | .eq => 0 | .ne => 1 | .lt => 2 | .le => 3 | .gt => 4 | .ge => 5 | .ord => 6 | .un => 7

def Rnd.code : Rnd → Nat
  | .rn => 0 | .rz => 1 | .rm => 2 | .rp => 3

/-- The op field of R123. -/
def KComb.code : KComb → Nat
  | .none => 0 | .and _ => 1 | .or _ => 2 | .xor _ => 3

/-- Field c of R123. -/
def KComb.spec : KComb → Nat
  | .none => specZero
  | .and k | .or k | .xor k => k.val

def IdSel.code : IdSel → Nat
  | .tid => 0 | .wpos => 1 | .wave => 2 | .team => 3 | .clx => 4 | .cly => 5 | .clz => 6 | .gdx => 7 | .gdy => 8
  | .gdz => 9 | .nthr => 10 | .nteam => 11 | .core => 12 | .home => 13 | .cpos => 14 | .tcap => 15 | .cshape => 16

def AtomOp.code : AtomOp → Nat
  | .add => 0 | .min => 1 | .max => 2 | .and => 3 | .or => 4 | .xor => 5 | .exch => 6 | .cas => 7 | .incw => 8
  | .decw => 9 | .fadd => 10 | .fmin => 11 | .fmax => 12

def RecFld.code : RecFld → Nat
  | .base => 0 | .spbase => 1 | .rows => 2 | .cols => 3 | .febase => 4 | .fmt => 5 | .tid => 6

def SReg.code : SReg → Nat
  | .tconf => 0 | .cconf => 1 | .wdcnt => 2 | .wdlim => 3 | .accOwner => 4 | .ctxid => 5 | .ctemp => 6
  | .throt => 7 | .tmode => 8

def VCount.code : VCount → Nat
  | .v2 => 0 | .v4 => 1 | .v8 => 2

/-- Field b of CHK. -/
def ChkB.spec : ChkB → Nat
  | .src b => b.spec
  | .len g => g.val
  | .nthr => 0x100 | .tcap => 0x101 | .nearsz => 0x102 | .colsz => 0x103 | .locsz => 0x104

/-- The immediate of CHK's operand b. -/
def ChkB.ext : ChkB → Nat
  | .src b => b.ext
  | _ => 0

/-- Field d of a copy command (R219). -/
def CopyTgt.spec : CopyTgt → Nat
  | .barrier _ => specZero
  | .sync d => d.spec

/-- TK and BI (R204). -/
def CopyTgt.minor : CopyTgt → Nat
  | .barrier b => 2 * b.toNat
  | .sync _ => 1

def WFmt.code : WFmt → Nat
  | .ds8 => 0 | .ds4 => 1 | .bf16 => 2

def MMode.code : MMode → Nat
  | .ds8 => 0 | .ds4 => 1 | .bfds8 => 2 | .bfbf => 3

def QFmt.code : QFmt → Nat
  | .f32 => 0 | .bf16 => 1 | .bx8 => 3 | .bx4 => 4

/-- ACC [59:57] and Q [60]. -/
def Acc.minor (a : Acc) : Nat := a.acc.val + 8 * natOfBool a.quad

/-- A word's fields with the operand fields unused. -/
def Ctl.fields (c : Ctl) (op : Nat) : Fields where
  form := c.form
  op := op
  stall := c.stall
  guard := match c.guard with | .always => 7 | .k r _ => BitVec.ofNat 3 r.val
  neg := match c.guard with | .always => false | .k _ n => n
  d := specZero
  a := specZero
  b := specZero
  c := specZero
  ty := 0
  minor := 0
  ext := 0

/-- The fields of a three-operand row. -/
def Ctl.dab (c : Ctl) (op : Nat) (t : Ty) (minor : Nat) (d : Dst) (a b : Src) : Fields :=
  { c.fields op with
    d := d.spec, a := a.spec, b := b.spec, ty := t.code, minor := BitVec.ofNat 7 minor, ext := a.ext + b.ext }

/-- The fields of a four-operand row. -/
def Ctl.dabc (c : Ctl) (op : Nat) (t : Ty) (minor : Nat) (d : Dst) (a b e : Src) : Fields :=
  { c.dab op t minor d a b with c := e.spec, ext := a.ext + b.ext + e.ext }

/-- The fields of a row with one source. -/
def Ctl.da (c : Ctl) (op : Nat) (t : Ty) (minor : Nat) (d : Dst) (a : Src) : Fields :=
  c.dab op t minor d a .zero

/-- The fields of a row whose destination is a number already, with one type code. -/
def Ctl.raw (c : Ctl) (op ty minor d a b e ext : Nat) : Fields :=
  { c.fields op with
    d := d, a := a, b := b, c := e, ty := BitVec.ofNat 4 ty, minor := BitVec.ofNat 7 minor, ext := ext }

/-- The fields of an instruction word; none for a step that has no encoding. -/
def encodeFields : Instr → Option Fields
  | .nop c => some (c.fields 0)
  | .add c s t d a b => some (c.dab 0x01 t (natOfBool s) d a b)
  | .sub c s t d a b => some (c.dab 0x02 t (natOfBool s) d a b)
  | .addc c t d a b k => some { c.dab 0x03 t 0 d a b with c := k.val }
  | .subc c t d a b k => some { c.dab 0x04 t 0 d a b with c := k.val }
  | .mul c t d a b => some (c.dab 0x05 t 0 d a b)
  | .mulh c t d a b => some (c.dab 0x06 t 0 d a b)
  | .mad c t d a b e => some (c.dabc 0x07 t 0 d a b e)
  | .div c t d a b => some (c.dab 0x08 t 0 d a b)
  | .rem c t d a b => some (c.dab 0x09 t 0 d a b)
  | .abs c s t d a => some (c.da 0x0A t (natOfBool s) d a)
  | .min c t d a b => some (c.dab 0x0B t 0 d a b)
  | .max c t d a b => some (c.dab 0x0C t 0 d a b)
  | .and c t d a b => some (c.dab 0x0D t 0 d a b)
  | .or c t d a b => some (c.dab 0x0E t 0 d a b)
  | .xor c t d a b => some (c.dab 0x0F t 0 d a b)
  | .andn c t d a b => some (c.dab 0x10 t 0 d a b)
  | .not c t d a => some (c.da 0x11 t 0 d a)
  | .shl c t d a n => some (c.dab 0x12 t 0 d a n)
  | .shr c t d a n => some (c.dab 0x13 t 0 d a n)
  | .sha c t d a n => some (c.dab 0x14 t 0 d a n)
  | .rot c r t d a n => some (c.dab 0x15 t (natOfBool r) d a n)
  | .fsh c l d a b n => some (c.dabc 0x16 .b32 (natOfBool l) d a b n)
  | .clz c t d a => some (c.da 0x17 t 0 d a)
  | .popc c t d a => some (c.da 0x18 t 0 d a)
  | .brev c t d a => some (c.da 0x19 t 0 d a)
  | .bfx c t d a n => some (c.dab 0x1A t 0 d a n)
  | .bfi c t d a b n => some (c.dabc 0x1B t 0 d a b n)
  | .prm c d a b n => some (c.dabc 0x1C .b32 0 d a b n)
  | .sel c t d a b k => some { c.dab 0x1D t 0 d a b with c := k.val }
  | .cmp c cc op t d a b =>
    some (c.raw 0x1E t.code.toNat (cc.code + 8 * op.code) d.val a.spec b.spec op.spec (a.ext + b.ext))
  | .kop c d ka kb kc table =>
    some (c.raw 0x1F 0 (table.toNat / 2) (d.val + 8 * (table.toNat % 2)) ka.val kb.val kc.val 0)
  | .mov c t d a => some (c.da 0x20 t 0 d a)
  | .movi c hi t d v => some (c.raw 0x21 t.code.toNat (natOfBool hi) d.spec specZero specZero specZero v.toNat)
  | .movs c t dir i b =>
    some (match dir with
      | .read d => c.raw 0x22 t.code.toNat 0 d.spec specZero b.spec specZero i.toNat
      | .write a => c.raw 0x22 t.code.toNat 0 specZero a.spec b.spec specZero (i.toNat + 1024))
  | .lea c n t d a b e => some (c.dabc 0x23 t n.toNat d a b e)
  | .id c sel d => some (c.raw 0x24 2 sel.code d.spec specZero specZero specZero 0)
  | .fadd c r t d a b => some (c.dab 0x30 t r.code d a b)
  | .fsub c r t d a b => some (c.dab 0x31 t r.code d a b)
  | .fmul c r t d a b => some (c.dab 0x32 t r.code d a b)
  | .ffma c r t d a b e => some (c.dabc 0x33 t r.code d a b e)
  | .fmin c p t d a b => some (c.dab 0x34 t (natOfBool p) d a b)
  | .fmax c p t d a b => some (c.dab 0x35 t (natOfBool p) d a b)
  | .fcmp c cc op t d a b =>
    some (c.raw 0x36 t.code.toNat (cc.code + 8 * op.code) d.val a.spec b.spec op.spec (a.ext + b.ext))
  | .fclass c op t d a b =>
    some (c.raw 0x37 t.code.toNat (8 * op.code) d.val a.spec b.spec op.spec (a.ext + b.ext))
  | .frcps c d a => some (c.da 0x38 .f32 0 d a)
  | .frsqs c d a => some (c.da 0x39 .f32 0 d a)
  | .fexs c d a => some (c.da 0x3A .f32 0 d a)
  | .flgs c d a => some (c.da 0x3B .f32 0 d a)
  | .fscl c r t d a n => some (c.dab 0x3C t r.code d a n)
  | .fgex c t d a => some (c.da 0x3D t 0 d a)
  | .frnd c r t d a => some (c.da 0x3E t r.code d a)
  | .cvt c r sat t u d a b => some (c.dab 0x3F t (r.code + 4 * natOfBool sat + 8 * u.code.toNat) d a b)
  | .fdot2 c r t d a b e => some (c.dabc 0x40 t r.code d a b e)
  | .br c z a k => some (c.raw 0x50 0 (natOfBool z) specZero a.spec k.spec specZero (a.ext + k.ext))
  | .brx c a k => some (c.raw 0x51 0 0 specZero a.spec k.spec specZero (a.ext + k.ext))
  | .call c x k => some (c.raw 0x52 0 0 x.val x.val k.spec specZero k.ext)
  | .ret c x k => some (c.raw 0x53 0 0 x.val x.val k.spec specZero k.ext)
  | .exit c => some (c.fields 0x54)
  | .spawn c n d a k =>
    some (c.raw 0x55 0 n.val d.spec (if n.val = 0 then specZero else a.val) k.spec specZero k.ext)
  | .yield c => some (c.fields 0x56)
  | .binit c live i a =>
    some (c.raw 0x57 0 (i.val + 16 * natOfBool live) specZero a.spec specZero specZero a.ext)
  | .barv c peek i d => some (c.raw 0x58 0 (i.val + 16 * natOfBool peek) d.spec specZero specZero specZero 0)
  | .bwait c i d a => some (c.raw 0x59 0 i.val (kdSpec d) a.spec specZero specZero a.ext)
  | .btest c err i d a =>
    some (c.raw 0x5A 0 (i.val + 16 * natOfBool err) (kdSpec d) a.spec specZero specZero a.ext)
  | .cinit c i a => some (c.raw 0x5B 0 i.val specZero a.spec specZero specZero a.ext)
  | .csign c i d => some (c.raw 0x5C 0 i.val (kdSpec d) specZero specZero specZero 0)
  | .wvote c m k =>
    some (match m with
      | .ballot d => c.raw 0x5D 0 0 d.spec k.val specZero specZero 0
      | .any d => c.raw 0x5D 0 1 (kdSpec d) k.val specZero specZero 0
      | .all d => c.raw 0x5D 0 2 (kdSpec d) k.val specZero specZero 0
      | .uni d => c.raw 0x5D 0 3 (kdSpec d) k.val specZero specZero 0)
  | .wxch c m t d a b =>
    some (c.dab 0x5E t (match m with | .idx => 0 | .up => 1 | .down => 2 | .xor => 3) d a b)
  | .ld c t d a e => some (c.dabc 0x60 t 0 d a .zero e)
  | .st c t a b e => some (c.dabc 0x61 t 0 .zero a b e)
  | .ldv c n d a e => some (c.dabc 0x62 .b32 n.code d a .zero e)
  | .stv c n a b e => some (c.dabc 0x63 .b32 n.code .zero a b e)
  | .lds c t d a e => some (c.dabc 0x64 t 0 d a .zero e)
  | .chk c op t a b e =>
    some (c.raw 0x65 t.code.toNat
      ((match op with | .lt => 0 | .le => 1 | .eq => 2) + (match b with | .src _ => 0 | _ => 4))
      specZero a.spec b.spec e.spec (b.ext + e.ext))
  | .commit c l => some (c.raw 0x66 0 l.num specZero specZero specZero specZero 0)
  | .abort c l => some (c.raw 0x67 0 l.num specZero specZero specZero specZero 0)
  | .fence c l k =>
    some (c.raw 0x68 0 (l.num + 8 * natOfBool k.data + 16 * natOfBool k.record + 32 * natOfBool k.eng)
      specZero specZero specZero specZero 0)
  | .atom c op sc t d a b e => some (c.dabc 0x69 t (sc.num + 8 * op.code) d a b e)
  | .red c op sc t a b e => some (c.dabc 0x6A t (sc.num + 8 * op.code) .zero a b e)
  | .lkacq c sc d a => some (c.da 0x6B .b32 sc.num d a)
  | .lkrel c sc a => some (c.da 0x6C .b32 sc.num .zero a)
  | .pref c a e => some (c.dabc 0x6D .b32 0 .zero a .zero e)
  | .swarm c d a b e => some (c.dabc 0x6E .b32 0 d a b e)
  | .swait c d a b e => some (c.raw 0x6F 0 0 (kdSpec d) a.spec b.spec e.spec (a.ext + b.ext + e.ext))
  | .cpy c tgt a b bnc mc ch len rows sp dp =>
    some (c.raw 0x80 0 (tgt.minor + 32 * natOfBool bnc) tgt.spec a.spec b.spec (mc.val + 32 * ch.val)
      (len.toNat + 2 ^ 20 * rows.toNat + 2 ^ 32 * sp.toNat + 2 ^ 46 * dp.toNat))
  | .cpyt c out tgt a b e ntm1 tb scale mc =>
    some (c.raw 0x81 0 (tgt.minor + 32 * natOfBool out) tgt.spec a.spec b.spec e.spec
      (ntm1.toNat + 2 ^ 8 * tb.val + 2 ^ 11 * natOfBool scale + 2 ^ 12 * mc.val))
  | .cpyq c d a => some (c.da 0x82 .b64 0 d a)
  | .wld c near tgt a e slot km1 wf =>
    some (c.raw 0x83 0 (tgt.minor + 32 * natOfBool near) tgt.spec a.spec specZero e.spec
      (slot.toNat + 2 ^ 10 * km1.toNat + 2 ^ 16 * wf.code))
  | .wdrop c a b => some (c.dab 0x84 .b32 0 .zero a b)
  | .mma c m ci a acc mh nh km1 slot nexp =>
    some (c.raw 0x85 0 (ci.val + 16 * m.code) specZero a.spec specZero specZero
      (acc.acc.val + 8 * natOfBool acc.quad + 16 * natOfBool mh + 32 * natOfBool nh + 2 ^ 6 * km1.toNat +
        2 ^ 12 * slot.toNat + 2 ^ 22 * nexp.toNat))
  | .azero c acc => some (c.raw 0x86 0 acc.minor specZero specZero specZero specZero 0)
  | .ard c i d a => some (c.da 0x87 .b32 i.val d a)
  | .awr c i f32 a b => some (c.dab 0x88 (if f32 then .f32 else .b32) i.val .zero a b)
  | .qst c acc axisM a b e fmt blk rin rout hs sreg =>
    some (c.raw 0x89 5 (acc.minor + 16 * natOfBool axisM) specZero a.spec b.spec e.spec
      (fmt.code + 2 ^ 4 * natOfBool blk + 2 ^ 5 * natOfBool rin + 2 ^ 6 * natOfBool rout + 2 ^ 7 * hs.val +
        2 ^ 12 * sreg.toNat))
  | .resld c e0 a n e => some (c.raw 0x8A 0 e0.val specZero a.spec (0xC0 + n.val) e.spec (a.ext + e.ext))
  | .resst c e0 a n e => some (c.raw 0x8B 0 e0.val specZero a.spec (0xC0 + n.val) e.spec (a.ext + e.ext))
  | .hclr c i a => some (c.da 0x8C .b32 i.val .zero a)
  | .hrd c i d a => some (c.da 0x8D .b32 i.val d a)
  | .trec c fld d a b => some (c.dab 0x8E (if fld.wide then .b64 else .b32) fld.code d a b)
  | .topen c d a => some (c.da 0x8F .b32 0 d a)
  | .tclose c d a => some (c.da 0x90 .b32 0 d a)
  | .tfe c op d a e =>
    some (c.dabc 0x91 .b32 (match op with | .test => 0 | .fill => 1 | .empty => 2) d a .zero e)
  | .trap c n a => some (c.da 0xA0 .b32 n.toNat .zero a)
  | .bkpt c n => some (c.raw 0xA1 0 n.toNat specZero specZero specZero specZero 0)
  | .srd c r d => some (c.da 0xA2 (if r.wide then .b64 else .b32) r.code d .zero)
  | .swr c r a => some (c.da 0xA3 .b32 r.code .zero a)
  | .time c d => some (c.da 0xA4 .b64 0 d .zero)
  | .publish c i d => some (c.da 0xA5 .b64 i.val d .zero)
  | .launch c d a => some (c.da 0xA6 .b32 0 d a)
  | .svc c n d a b => some (c.dab 0xA7 .b64 n.toNat d a b)
  | .perf c i d => some (c.da 0xA8 .b64 i.val d .zero)
  | .sleep c a => some (c.da 0xA9 .b32 0 .zero a)
  | _ => none

/-- The length code of a form. -/
def Form.code : Form → Nat
  | .w64 => 0 | .w96 => 1 | .w128 => 2

/-- The word of fields (R72). -/
def Fields.word (f : Fields) : Nat :=
  f.form.code + 2 ^ 2 * f.op + 2 ^ 10 * f.stall.toNat + 2 ^ 13 * f.guard.toNat + 2 ^ 16 * natOfBool f.neg +
    2 ^ 17 * f.d + 2 ^ 26 * f.a + 2 ^ 35 * f.b + 2 ^ 44 * f.c + 2 ^ 53 * f.ty.toNat + 2 ^ 57 * f.minor.toNat +
    2 ^ 64 * f.ext

/-- The bytes of an instruction word, in memory order; none for a step that has no encoding. -/
def encode (i : Instr) : Option (List Byte) :=
  (encodeFields i).map (fun f => bytesOfNat f.form.bytes f.word)

end Sys2Proof
end

