-- ==== Sys2Proof/Machine/Crypto.lean ====
section
/-! DEFINITION. The algorithms that R222, R397, R398, R406 and R410 to R413 name: AES-256, its CTR, XTS, GCM, GMAC and
key-wrap modes, SHA-384, HMAC and HKDF. Blocks are lists of bytes, the first the first in memory (log 10). -/

namespace Sys2Proof.Machine

/-- Two byte strings, byte by byte. -/
def xorBytes (a b : List Byte) : List Byte := List.zipWith (· ^^^ ·) a b

/-- The big-endian number of a byte string. -/
def beNat (l : List Byte) : Nat := l.foldl (fun n b => 256 * n + b.toNat) 0

/-- The n-byte big-endian string of a number. -/
def beBytes (n v : Nat) : List Byte := (List.range n).map (fun i => BitVec.ofNat 8 (v / 2 ^ (8 * (n - 1 - i))))

/-- The byte string of a text of ASCII characters. -/
def asciiBytes (t : List Char) : List Byte := t.map (fun c => BitVec.ofNat 8 c.toNat)

/-! AES-256. -/

/-- x times a, in AES's field of 256 elements. -/
def aesDouble (a : Byte) : Byte := (a <<< 1) ^^^ (if a.msb then 0x1B else 0)

/-- The product in that field. -/
def aesMul (a b : Byte) : Byte :=
  ((List.range 8).foldl (fun (e : Byte × Byte) i => (if b.getLsbD i then e.1 ^^^ e.2 else e.1, aesDouble e.2)) (0, a)).1

/-- The inverse in that field, 0 for 0: the power 254. -/
def aesInv (a : Byte) : Byte :=
  ((List.range 7).foldl (fun (e : Byte × Byte) _ => (aesMul e.1 (aesMul e.2 e.2), aesMul e.2 e.2)) (1, a)).1

/-- The substitution of a byte. -/
def aesSub (a : Byte) : Byte :=
  let x := aesInv a
  x ^^^ x.rotateLeft 1 ^^^ x.rotateLeft 2 ^^^ x.rotateLeft 3 ^^^ x.rotateLeft 4 ^^^ 0x63

/-- Its inverse. -/
def aesUnsub (b : Byte) : Byte := aesInv (b.rotateLeft 1 ^^^ b.rotateLeft 3 ^^^ b.rotateLeft 6 ^^^ 0x05)

/-- The key words of the rounds, four bytes each, in order. -/
def aesWords (key : List Byte) : List (List Byte) :=
  let first := (List.range 8).map (fun i => (key.drop (4 * i)).take 4)
  (List.range 52).foldl (fun (w : List (List Byte)) j =>
    let i := j + 8
    let last := w.getD (i - 1) []
    let t :=
      if i % 8 = 0 then xorBytes ((last.drop 1 ++ last.take 1).map aesSub) [1 <<< (i / 8 - 1), 0, 0, 0]
      else if i % 8 = 4 then last.map aesSub
      else last
    w ++ [xorBytes (w.getD (i - 8) []) t]) first

/-- The key of round r. -/
def aesRoundKey (w : List (List Byte)) (r : Nat) : List Byte := ((w.drop (4 * r)).take 4).flatten

/-- Row r of each column moves by r columns: forwards for decryption. -/
def aesShift (back : Bool) (s : List Byte) : List Byte :=
  (List.range 16).map (fun i =>
    let (c, r) := (i / 4, i % 4)
    s.getD (4 * ((if back then c + 4 - r else c + r) % 4) + r) 0)

/-- Each column times a circulant matrix. -/
def aesMix (m : List Byte) (s : List Byte) : List Byte :=
  (List.range 16).map (fun i =>
    let (c, r) := (i / 4, i % 4)
    (List.range 4).foldl (fun x j => x ^^^ aesMul (m.getD ((j + 4 - r) % 4) 0) (s.getD (4 * c + j) 0)) 0)

/-- AES-256 encryption of a block. -/
def aesEnc (key block : List Byte) : List Byte :=
  let w := aesWords key
  let s := (List.range 13).foldl (fun s r =>
    xorBytes (aesMix [2, 3, 1, 1] (aesShift false (s.map aesSub))) (aesRoundKey w (r + 1))) (xorBytes block (aesRoundKey w 0))
  xorBytes (aesShift false (s.map aesSub)) (aesRoundKey w 14)

/-- AES-256 decryption of a block. -/
def aesDec (key block : List Byte) : List Byte :=
  let w := aesWords key
  let s := (List.range 13).foldl (fun s r =>
    aesMix [14, 11, 13, 9] (xorBytes ((aesShift true s).map aesUnsub) (aesRoundKey w (13 - r)))) (xorBytes block (aesRoundKey w 14))
  xorBytes ((aesShift true s).map aesUnsub) (aesRoundKey w 0)

/-! Modes. -/

/-- The blocks of a byte string, the last perhaps short; n is at least their number. -/
def blocksOf : Nat → List Byte → List (List Byte)
  | 0, _ => []
  | n + 1, l => if l.isEmpty then [] else l.take 16 :: blocksOf n (l.drop 16)

/-- The product of the field of GHASH, whose elements have their first bit on the left. -/
def ghashMul (x y : BitVec 128) : BitVec 128 :=
  ((List.range 128).foldl (fun (e : BitVec 128 × BitVec 128) i =>
    (if x.getMsbD i then e.1 ^^^ e.2 else e.1,
      (e.2 >>> 1) ^^^ (if e.2.getLsbD 0 then 0xE1#128 <<< 120 else 0))) (0, y)).1

/-- GHASH under a hash key, of whole and part blocks that are filled with zeros. -/
def ghash (h : BitVec 128) (blocks : List (List Byte)) : BitVec 128 :=
  blocks.foldl (fun y b => ghashMul (y ^^^ BitVec.ofNat 128 (beNat b * 2 ^ (8 * (16 - b.length)))) h) 0

/-- The tag of AES-GCM for a 96-bit nonce, additional data and ciphertext. -/
def gcmTag (key : List Byte) (nonce : Nat) (aad cipher : List Byte) : BitVec 128 :=
  let h := BitVec.ofNat 128 (beNat (aesEnc key (List.replicate 16 0)))
  let lens := beBytes 8 (8 * aad.length) ++ beBytes 8 (8 * cipher.length)
  ghash h (blocksOf (aad.length + 1) aad ++ blocksOf (cipher.length + 1) cipher ++ [lens]) ^^^
    BitVec.ofNat 128 (beNat (aesEnc key (beBytes 16 (nonce * 2 ^ 32 + 1))))

/-- AES-GCM's stream over a byte string: its encryption and its decryption. -/
def gcmStream (key : List Byte) (nonce : Nat) (l : List Byte) : List Byte :=
  (blocksOf (l.length + 1) l).zipIdx.flatMap (fun e => xorBytes e.1 (aesEnc key (beBytes 16 (nonce * 2 ^ 32 + 2 + e.2))))

/-- AES-256-GCM opening of a row without additional data: the plaintext, if the tag is right (R222). -/
def gcmOpen (key : List Byte) (nonce : Nat) (cipher tag : List Byte) : Option (List Byte) :=
  if beNat tag = (gcmTag key nonce [] cipher).toNat ∧ tag.length = 16 then some (gcmStream key nonce cipher) else none

/-- The tag of an L2 tile: bits [127:72] of AES-GMAC over its ciphertext (R412). -/
def tileTag (key : List Byte) (iv : Nat) (cipher : List Byte) : BitVec 56 :=
  ((gcmTag key iv cipher []) >>> 72).setWidth 56

/-- x times a tweak, little-endian (XTS). -/
def xtsDouble (t : Nat) : Nat := 2 * t % 2 ^ 128 ^^^ (if 2 ^ 127 ≤ t then 0x87 else 0)

/-- The tweak of block j of a data unit. -/
def xtsTweak (key : List Byte) (unit j : Nat) : List Byte :=
  let t0 := beNat (aesEnc (key.drop 32) (beBytes 16 unit).reverse).reverse
  (beBytes 16 ((List.range j).foldl (fun t _ => xtsDouble t) t0)).reverse

/-- AES-256-XTS of block j of a data unit (R411). -/
def xtsBlock (enc : Bool) (key : List Byte) (unit j : Nat) (b : List Byte) : List Byte :=
  let t := xtsTweak key unit j
  xorBytes t (if enc then aesEnc (key.take 32) (xorBytes b t) else aesDec (key.take 32) (xorBytes b t))

/-- One step of AES key unwrapping: t counts down from 24 to 1. -/
def unwrapStep (kek : List Byte) (e : List Byte × List (List Byte)) (t : Nat) : List Byte × List (List Byte) :=
  let i := (t - 1) % 4
  let b := aesDec kek (xorBytes e.1 (beBytes 8 t) ++ e.2.getD i [])
  (b.take 8, e.2.set i (b.drop 8))

/-- AES-KW unwrapping of a 32-byte key (R398). -/
def unwrapKey (kek wrapped : List Byte) : Option (List Byte) :=
  let r := (List.range 4).map (fun i => (wrapped.drop (8 + 8 * i)).take 8)
  let (a, r) := (List.range 24).foldl (fun e n => unwrapStep kek e (24 - n)) (wrapped.take 8, r)
  if wrapped.length = 40 ∧ a = List.replicate 8 0xA6 then some r.flatten else none

/-! SHA-384, HMAC and HKDF. -/

/-- SHA-512's round constants, part a. -/
def shaConstA : List (BitVec 64) := [
  0x428A2F98D728AE22, 0x7137449123EF65CD, 0xB5C0FBCFEC4D3B2F, 0xE9B5DBA58189DBBC,
  0x3956C25BF348B538, 0x59F111F1B605D019, 0x923F82A4AF194F9B, 0xAB1C5ED5DA6D8118,
  0xD807AA98A3030242, 0x12835B0145706FBE, 0x243185BE4EE4B28C, 0x550C7DC3D5FFB4E2,
  0x72BE5D74F27B896F, 0x80DEB1FE3B1696B1, 0x9BDC06A725C71235, 0xC19BF174CF692694,
  0xE49B69C19EF14AD2, 0xEFBE4786384F25E3, 0x0FC19DC68B8CD5B5, 0x240CA1CC77AC9C65]

/-- SHA-512's round constants, part b. -/
def shaConstB : List (BitVec 64) := [
  0x2DE92C6F592B0275, 0x4A7484AA6EA6E483, 0x5CB0A9DCBD41FBD4, 0x76F988DA831153B5,
  0x983E5152EE66DFAB, 0xA831C66D2DB43210, 0xB00327C898FB213F, 0xBF597FC7BEEF0EE4,
  0xC6E00BF33DA88FC2, 0xD5A79147930AA725, 0x06CA6351E003826F, 0x142929670A0E6E70,
  0x27B70A8546D22FFC, 0x2E1B21385C26C926, 0x4D2C6DFC5AC42AED, 0x53380D139D95B3DF,
  0x650A73548BAF63DE, 0x766A0ABB3C77B2A8, 0x81C2C92E47EDAEE6, 0x92722C851482353B]

/-- SHA-512's round constants, part c. -/
def shaConstC : List (BitVec 64) := [
  0xA2BFE8A14CF10364, 0xA81A664BBC423001, 0xC24B8B70D0F89791, 0xC76C51A30654BE30,
  0xD192E819D6EF5218, 0xD69906245565A910, 0xF40E35855771202A, 0x106AA07032BBD1B8,
  0x19A4C116B8D2D0C8, 0x1E376C085141AB53, 0x2748774CDF8EEB99, 0x34B0BCB5E19B48A8,
  0x391C0CB3C5C95A63, 0x4ED8AA4AE3418ACB, 0x5B9CCA4F7763E373, 0x682E6FF3D6B2B8A3,
  0x748F82EE5DEFB2FC, 0x78A5636F43172F60, 0x84C87814A1F0AB72, 0x8CC702081A6439EC]

/-- SHA-512's round constants, part d. -/
def shaConstD : List (BitVec 64) := [
  0x90BEFFFA23631E28, 0xA4506CEBDE82BDE9, 0xBEF9A3F7B2C67915, 0xC67178F2E372532B,
  0xCA273ECEEA26619C, 0xD186B8C721C0C207, 0xEADA7DD6CDE0EB1E, 0xF57D4F7FEE6ED178,
  0x06F067AA72176FBA, 0x0A637DC5A2C898A6, 0x113F9804BEF90DAE, 0x1B710B35131C471B,
  0x28DB77F523047D84, 0x32CAAB7B40C72493, 0x3C9EBE0A15C9BEBC, 0x431D67C49C100D4C,
  0x4CC5D4BECB3E42B6, 0x597F299CFC657E2A, 0x5FCB6FAB3AD6FAEC, 0x6C44198C4A475817]

/-- SHA-512's round constants. -/
def shaConst : List (BitVec 64) := shaConstA ++ shaConstB ++ shaConstC ++ shaConstD

/-- SHA-384's first hash value. -/
def shaInit : List (BitVec 64) := [
  0xCBBB9D5DC1059ED8, 0x629A292A367CD507, 0x9159015A3070DD17, 0x152FECD8F70E5939,
  0x67332667FFC00B31, 0x8EB44A8768581511, 0xDB0C2E0D64F98FA7, 0x47B5481DBEFA4FA4]

/-- The message schedule of a block of 16 words. -/
def shaWords (m : List (BitVec 64)) : List (BitVec 64) :=
  (List.range 64).foldl (fun w j =>
    let at_ (k : Nat) : BitVec 64 := w.getD (j + k) 0
    let s0 := (at_ 1).rotateRight 1 ^^^ (at_ 1).rotateRight 8 ^^^ at_ 1 >>> 7
    let s1 := (at_ 14).rotateRight 19 ^^^ (at_ 14).rotateRight 61 ^^^ at_ 14 >>> 6
    w ++ [s1 + at_ 9 + s0 + at_ 0]) m

/-- One round. -/
def shaRound (v : List (BitVec 64)) (kw : BitVec 64 × BitVec 64) : List (BitVec 64) :=
  let at_ (k : Nat) : BitVec 64 := v.getD k 0
  let e := at_ 4
  let a := at_ 0
  let t1 := at_ 7 + (e.rotateRight 14 ^^^ e.rotateRight 18 ^^^ e.rotateRight 41) +
    ((e &&& at_ 5) ^^^ (~~~e &&& at_ 6)) + kw.1 + kw.2
  let t2 := (a.rotateRight 28 ^^^ a.rotateRight 34 ^^^ a.rotateRight 39) +
    ((a &&& at_ 1) ^^^ (a &&& at_ 2) ^^^ (at_ 1 &&& at_ 2))
  [t1 + t2, a, at_ 1, at_ 2, at_ 3 + t1, e, at_ 5, at_ 6]

/-- Blocks of 128 bytes as 16 words each; n is at least their number. -/
def shaBlocks : Nat → List Byte → List (List (BitVec 64))
  | 0, _ => []
  | n + 1, l =>
    if l.isEmpty then []
    else (List.range 16).map (fun i => BitVec.ofNat 64 (beNat ((l.drop (8 * i)).take 8))) :: shaBlocks n (l.drop 128)

/-- SHA-384 of a byte string. -/
def sha384 (l : List Byte) : List Byte :=
  let padded := l ++ [0x80] ++ List.replicate ((239 - l.length % 128) % 128) 0 ++ beBytes 16 (8 * l.length)
  let h := (shaBlocks (padded.length / 128) padded).foldl (fun h b =>
    List.zipWith (· + ·) h ((shaConst.zip (shaWords b)).foldl shaRound h)) shaInit
  (h.take 6).flatMap (fun x => beBytes 8 x.toNat)

/-- HMAC-SHA-384. -/
def hmac384 (key msg : List Byte) : List Byte :=
  let k := if 128 < key.length then sha384 key else key
  let k := k ++ List.replicate (128 - k.length) 0
  sha384 (k.map (· ^^^ 0x5C) ++ sha384 (k.map (· ^^^ 0x36) ++ msg))

/-- HKDF-Expand with SHA-384, to at most 96 bytes. -/
def hkdfExpand (prk info : List Byte) (n : Nat) : List Byte :=
  let t1 := hmac384 prk (info ++ [1])
  (t1 ++ hmac384 prk (t1 ++ info ++ [2])).take n

/-- HKDF-SHA-384 with an empty salt. -/
def hkdf384 (ikm info : List Byte) (n : Nat) : List Byte := hkdfExpand (hmac384 [] ikm) info n

/-- The keys derived from a world key (R410). -/
structure WorldKeys where
  ctr : List Byte
  xts : List Byte
  mac : List Byte
  deriving DecidableEq, Repr

/-- HKDF-SHA-384 with the world key as input key material and an empty salt (R410). -/
def WorldKeys.derive (k : List Byte) : WorldKeys where
  ctr := hkdf384 k (asciiBytes ['k', 'z', ' ', 'c', 't', 'r']) 32
  xts := hkdf384 k (asciiBytes ['k', 'z', ' ', 'x', 't', 's']) 64
  mac := hkdf384 k (asciiBytes ['k', 'z', ' ', 'm', 'a', 'c']) 32

/-- How an L2 tile of a world's device memory is encrypted (R411): by the data unit's address, or by the record's TID and
VERSION, the record's tile, its first chunk in that tile, and its place among the tensor's L2 tiles. -/
inductive Iv where
  | xts (addr : Nat)
  | ctr (tid : Nat) (version : Word) (tile chunk index : Nat)
  deriving DecidableEq, Repr

/-- The pad's input block of chunk j (R411); its first byte holds bits [127:120] (log 10). -/
def ctrBlock (tid version tile j : Nat) : List Byte :=
  beBytes 16 (tid * 2 ^ 112 + version * 2 ^ 80 + tile % 2 ^ 32 * 2 ^ 48 + j % 2 ^ 12)

/-- Encrypts, or decrypts, block j of an L2 tile (R411). -/
def Iv.block (iv : Iv) (enc : Bool) (k : WorldKeys) (j : Nat) (b : List Byte) : List Byte :=
  match iv with
  | .xts a => xtsBlock enc k.xts a j b
  | .ctr tid v t c _ => xorBytes b (aesEnc k.ctr (ctrBlock tid v.toNat t (c + j)))

/-- The tag of an L2 tile (R412): its 96-bit IV is TID, VERSION and the L2 tile's index, or the address (log 10). -/
def Iv.tag (iv : Iv) (k : WorldKeys) (cipher : List Byte) : BitVec 56 :=
  tileTag k.mac
    (match iv with
     | .xts a => a
     | .ctr tid v _ _ i => tid * 2 ^ 80 + v.toNat * 2 ^ 48 + i % 2 ^ 48) cipher

/-- The key under which a world key is wrapped, from the session's export master secret (R398). -/
def wrapKey (secret : List Byte) : List Byte :=
  hkdfExpand secret (asciiBytes ['k', 'z', ' ', 'w', 'o', 'r', 'l', 'd', ' ', 'k', 'e', 'k']) 32

end Sys2Proof.Machine
end

