-- ==== Sys2Proof/Machine/Records.lean ====
section
/-! DEFINITION. The records State is made of: the core's, the memories' and the engines' (R25 to R35, R83,
R167, R172, R174, R182, R189, R209 to R241, R278 to R309, R331 to R344). -/

namespace Sys2Proof.Machine

/-- A table: at most one entry a key. -/
abbrev Table (α : Type) := List (Nat × α)

/-- The canonical form of bytes listed by address: addresses strictly rise, and no entry equals what an unlisted address
reads as, which is zero. -/
def Memory.wf : List Host.Cell → Bool
  | [] => true
  | [(_, b)] => b != 0
  | (a, b) :: (c, d) :: r => b != 0 && decide (a < c) && Memory.wf ((c, d) :: r)

/-- Bytes of memory by address, in canonical form. -/
abbrev Mem := { l : List Host.Cell // Memory.wf l = true }

/-- Nothing is listed. -/
def Mem.empty : Mem := ⟨[], rfl⟩

/-- The memory spaces (R33). -/
inductive Space where
  | loc | near | col | dev | host
  deriving DecidableEq, Repr

/-- What admission fixes for a memory instruction (R179): the space, the region (255 for none) and whether
the base is a pair. -/
structure Site where
  space : Space
  region : Nat
  pair : Bool
  deriving DecidableEq, Repr

/-- A register as an instruction names it. -/
inductive Reg where
  | x (r : Nat) | k (r : Nat) | o (r : Nat) | y (r : Nat) | s (r : Nat) | e (r : Nat)
  deriving DecidableEq, Repr

/-- An agent of R318: a thread, or a team in its uniform blocks. -/
inductive Agent where
  | thread (team tid : Nat)
  | uniform (team : Nat)
  deriving DecidableEq, Repr

/-- Who moves next (log 3). -/
inductive Turn where
  | idle
  | issue (pass grp : Nat)
  | event (i : Instr)
  deriving DecidableEq, Repr

/-- The registers an instruction reads and writes: the thread's window, or the team's copies in a uniform
pass (R77, R78, R287). `s` is the team's uniform registers. -/
structure View where
  x : Vector Word 64
  k : Vector Bool 7
  o : Vector Word 8
  y : Vector Word 2
  s : Vector Word 1024
  deriving DecidableEq, Repr

/-- The window of a thread inside a block (R287), with the registers the block has written. -/
structure Window where
  x : Vector Word 64
  k : Vector Bool 7
  o : Vector Word 8
  y : Vector Word 2
  wroteX : BitVec 64
  wroteK : BitVec 7
  deriving DecidableEq, Repr

/-- Why a thread or a team is parked (R291). -/
inductive ParkCause where
  /-- A host page is missing (R373); the request it waits for. -/
  | page (request : Nat)
  /-- A fifth open wave-collective instance (R174). -/
  | collective
  /-- A halt by pre-emption (R362). -/
  | halt
  deriving DecidableEq, Repr

/-- What a blocked thread waits for (R170, R203, R253). -/
inductive BlockCause where
  | barrier (b : Nat) (kd : KDst) (token : Word)
  | sync (addr : Nat) (kd : KDst) (token : Word)
  | sleep (wake : Nat)
  deriving DecidableEq, Repr

/-- Where a live thread stands (R278). Offsets are code-section byte offsets. -/
inductive TState where
  | waiting (off : Nat)
  | inPass (pass : Nat)
  | parked (off : Nat) (cause : ParkCause) (resumable : Bool)
  | blocked (off : Nat) (cause : BlockCause)
  deriving DecidableEq, Repr

/-- How a lane leaves its block (R156, R170, R203, R253). -/
inductive Leave where
  | goto (off : Nat)
  | block (off : Nat) (cause : BlockCause)
  deriving DecidableEq, Repr

/-- One row of a FENCE issued and not yet met (R192): the accesses it waits for, and the kinds it holds back. -/
structure FenceRec where
  waits : List Nat
  kinds : FenceKinds
  deriving DecidableEq, Repr

/-- A tensor record's fields (R209); VERSION and OPEN are the record cache's. -/
structure TRec where
  version : Word
  tid : Nat
  opened : Bool
  conf : Bool
  tshape : Nat
  baxis : Bool
  fmt : Nat
  base : Nat
  spbase : Nat
  cols : Nat
  rows : Nat
  febase : Nat
  /-- A reserved bit is set. -/
  rsv : Bool
  deriving DecidableEq, Repr

/-- A copy request's status, by its sequence number (R218, R224). -/
structure CopyStatus where
  seq : Nat
  code : Nat
  moved : Nat
  deriving DecidableEq, Repr

/-- A live thread. -/
structure Thread where
  x : Vector Word 64
  k : Vector Bool 7
  /-- Pending bits (R83). -/
  pendX : BitVec 64
  pendK : BitVec 7
  st : TState
  /-- The block it goes to once its group has been written back. -/
  leave : Option Leave
  win : Window
  /-- The block whose live-ins the window holds, so that a park record is told from the store (R292). -/
  hasWin : Bool
  loc : Mem
  wdcnt : Word
  spawned : Bool
  /-- Executions of each wave collective, by code offset (R174). -/
  joins : Table Nat
  fences : List FenceRec
  copySeq : Nat
  copies : List CopyStatus
  deriving DecidableEq, Repr

/-- A barrier register (R167); `mask` is the threads that have arrived, `late` those spawned during a MODE 1
phase, whom EXP does not count (R169). -/
structure BarReg where
  gen : Word
  exp : Nat
  arr : Nat
  mask : List Nat
  err : Bool
  live : Bool
  extra : Nat
  late : List Nat
  deriving DecidableEq, Repr

/-- A wave set's byte (R182): its key is space and address; `writer` is the thread that stored it, or 8192 once that
thread has ceased to be live; `inst` is the open COMMIT.w or ABORT.w that will take it. -/
structure WCell where
  key : Nat
  byte : Byte
  writer : Nat
  inst : Option Nat
  deriving DecidableEq, Repr

/-- A team or cluster set's byte, with those who merged it since the set was emptied (R189). -/
structure SCell where
  key : Nat
  byte : Byte
  mergers : List Nat
  deriving DecidableEq, Repr

/-- A lane's part in a wave collective (R174): no contribution when its guard is false. -/
structure Join where
  tid : Nat
  takes : Bool
  value : DWord
  sel : Word
  /-- The thread has ceased to be live since (R174). -/
  gone : Bool
  deriving DecidableEq, Repr

/-- What an open wave collective will do. -/
inductive CollKind where
  | vote (m : Vote)
  | xch (m : Xch) (wide : Bool) (d : Dst)
  | commit
  | abort
  deriving DecidableEq, Repr

/-- An open instance of a wave collective (R174). -/
structure Coll where
  id : Nat
  off : Nat
  num : Nat
  kind : CollKind
  awaited : List Nat
  joined : List Join
  deriving DecidableEq, Repr

/-- A wave: its set and its open instances, and how many instances it has opened at each address. -/
structure Wave where
  cells : List WCell
  colls : List Coll
  opened : Table Nat
  deriving DecidableEq, Repr

/-- The operands of a matrix operation (R229). -/
structure MOp where
  mode : MMode
  acc : Acc
  mh : Bool
  nh : Bool
  k : Nat
  slot : Nat
  /-- The panel's space, near or column, and address (R230). -/
  space : Space
  panel : Nat
  deriving DecidableEq, Repr

/-- The MMA signature a partial set holds (R231): the operation, NEXP, and the first signature's place. -/
structure MSig where
  op : MOp
  nexp : Nat
  off : Nat
  tid : Nat
  /-- The word's bits, to compare signatures by (R231). -/
  word : Instr
  /-- Two signatures of the set have carried different operations. -/
  bad : Bool
  deriving DecidableEq, Repr

/-- A convergence register (R172). -/
structure ConvReg where
  exp : Nat
  sig : Nat
  seq : Word
  set : Option MSig
  deriving DecidableEq, Repr

/-- A histogram slot (R239). -/
structure HistSlot where
  base : Word
  count : Vector Word 32
  deriving DecidableEq, Repr

/-- A lock held by a team (R197). -/
structure HeldLock where
  space : Space
  addr : Nat
  scope : Lv
  deriving DecidableEq, Repr

/-- A team's matrix-side reservation (R341): banks `bank` on, weight-buffer bytes `wbuf` on. -/
structure MatrixRes where
  bank : Nat
  banks : Nat
  wbuf : Nat
  wbufLen : Nat
  deriving DecidableEq, Repr

/-- A team park record (R431): where the uniform pass stopped; its o and y stay in the team. -/
structure UPark where
  off : Nat
  cause : ParkCause
  resumable : Bool
  deriving DecidableEq, Repr

/-- A resident team (R25, R27, R30). -/
structure Team where
  launch : Nat
  cluster : Nat
  /-- Team index within the cluster (R32). -/
  index : Nat
  /-- The cores of its unit, the home core first (R29). -/
  cores : List Nat
  started : Bool
  ended : Bool
  /-- It has been stopped by a team fault (R244). -/
  stopped : Bool
  s : Vector Word 1024
  sPend : BitVec 1024
  /-- The uniform pass's o and y copies (R78). -/
  uo : Vector Word 8
  uy : Vector Word 2
  bar : Vector BarReg 16
  conv : Vector ConvReg 16
  res : Vector Word 64
  resPend : BitVec 64
  hist : Vector HistSlot 16
  tconf : Word
  set : List SCell
  locks : List HeldLock
  fences : List FenceRec
  upark : Option UPark
  /-- The last uniform block's leave, until its pass is written back. -/
  uleave : Option Leave
  mres : Option MatrixRes
  /-- While the cluster is saved: what its banks and its weight-buffer range held (R339). -/
  savedBanks : List (List Word)
  savedWbuf : Mem
  /-- It has passed the surge arbiter, and when it asked for that (R355). -/
  surge : Bool
  surgeAsk : Option Nat
  /-- The place of its start, or of its return, in the order in which those were asked for (R341). -/
  asked : Nat
  /-- Where the merge of host bytes under way stands: 0 none, 1 waiting for a page, 2 told that it is supplied,
  3 that it is not (R379); its page; and the COMMIT.d under way has merged and waits for the host (R385). -/
  mwait : Nat
  mpage : Nat
  dwait : Bool
  /-- Accesses of the merge under way that have their L2-port tokens (R357). -/
  mtok : Nat
  /-- It stands at a task boundary (R166, R361). -/
  boundary : Bool
  /-- The EXIT or trap that stands for the team in a fault after its last exit (R244). -/
  lastOff : Nat
  deriving DecidableEq, Repr

/-- A fixed-latency producer of the group, for SSTALL (R84): register, issue distance, latency, offset. -/
structure Producer where
  reg : Reg
  dist : Nat
  lat : Nat
  off : Nat
  deriving DecidableEq, Repr

/-- An issue group (R285): lanes in ascending thread index; none in a uniform pass. -/
structure Group where
  lanes : List Nat
  off : Nat
  dist : Nat
  prods : List Producer
  /-- Accesses of its next instruction that have their L2-port tokens (R357). -/
  tok : Nat
  /-- The pipe that it has entered: none while it waits in the picker (R285). -/
  pipe : Option (Fin 2)
  /-- Its last instruction has issued; it awaits write-back (R287). -/
  done : Bool
  deriving DecidableEq, Repr

/-- A pass (R279). -/
structure Pass where
  core : Nat
  team : Nat
  off : Nat
  uniform : Bool
  resume : Bool
  groups : Table Group
  deriving DecidableEq, Repr

/-- The age of a candidate, its spawn bin, and whether it has a waiting vector (R282, R284, R302). -/
structure Cand where
  core : Nat
  team : Nat
  off : Nat
  /-- A resume point (R292), not a block. -/
  resume : Bool
  age : Nat
  bin : Bool
  vec : Bool
  deriving DecidableEq, Repr

/-- One lane of an atomic request (R195): the agent, where the old value goes, and the operands. -/
structure AtomLane where
  agent : Agent
  dst : List Reg
  b : DWord
  c : DWord
  deriving DecidableEq, Repr

/-- A 4 KiB page as an access has it: its physical page, and whether CXL.cache may hold its lines (R374). -/
structure Frame where
  page : Nat
  cached : Bool
  deriving DecidableEq, Repr

/-- The pages of an access: those of host memory as translated at issue (R373), and those of device memory whose
translation has gone since (R380, R381). -/
abbrev Frames := List (Nat × Frame)

/-- An access under way. `addr` is in the space's own addresses. -/
inductive PendKind where
  /-- Register values ready to arrive. -/
  | ready (ws : List (Reg × Word))
  /-- A load: the bytes read so far, in address order. -/
  | load (space : Space) (addr n : Nat) (got : List Byte) (t : Ty) (dst : List Reg) (xl : Frames)
  /-- A combined atomic request. -/
  | atomic (space : Space) (addr : Nat) (sc : Lv) (op : AtomOp) (t : Ty) (lanes : List AtomLane)
      (xl : Frames)
  /-- An access of these agents that met a wrong tag, and never completes (R412). -/
  | lost (agents : List Agent)
  deriving DecidableEq, Repr

/-- A pending result (R83). -/
structure Pend where
  agent : Agent
  kind : PendKind
  /-- The instruction it came from. -/
  off : Nat
  deriving DecidableEq, Repr

/-- Where a byte of a copy lies: a space, or the home core's weight buffer. -/
inductive PSpace where
  | mem (sp : Space)
  | wbuf (core : Nat)
  | zeros
  deriving DecidableEq, Repr

/-- A row or part of a copy request: `tag` marks a bounced row (R222). -/
structure Row where
  src : PSpace
  sa : Nat
  dst : PSpace
  da : Nat
  len : Nat
  tag : Bool
  deriving DecidableEq, Repr

/-- A tile of an engine write: its state-array place and the 512-byte tiles its bytes lie in (R211, R212). -/
structure TileMark where
  febase : Nat
  tile : Nat
  l2 : List Nat
  deriving DecidableEq, Repr

/-- The byte of tile state that a mark sets (R211). -/
def TileMark.place (m : TileMark) : Nat := m.febase + m.tile / 4

/-- The states of a copy request (R224). -/
inductive CState where
  | queued | active | parked (request : Nat) | complete | failed
  deriving DecidableEq, Repr

/-- A resolved completion target (R219). -/
inductive CTarget where
  | barrier (b : Nat)
  | sync (addr : Nat)
  deriving DecidableEq, Repr

/-- A part of a multicast request on its way to one member (R336): the member, the address there, and the bytes. -/
structure Flight where
  member : Nat
  addr : Nat
  bytes : List Byte
  deriving DecidableEq, Repr

/-- A copy request (R208, R218). -/
structure CopyReq where
  core : Nat
  team : Nat
  /-- Its issuer: none once that thread has ceased to be live (R162). -/
  tid : Option Nat
  cluster : Nat
  world : Nat
  seq : Nat
  /-- Rows still to be delivered. -/
  rows : List Row
  /-- Bytes of the first of them already read. -/
  pos : Nat
  /-- Cluster core indices of a multicast (R221); none otherwise. -/
  members : Option (List Nat)
  target : CTarget
  state : CState
  /-- Why it fails, once what it has gathered and sent has landed (R220, R334); 0 while it does not. -/
  ecode : Nat
  /-- It is cancelled, and reports nothing (R339). -/
  cancel : Bool
  /-- Bytes delivered, or on their way to members. -/
  moved : Nat
  /-- The part that has been read and not delivered (R337). -/
  buf : List Byte
  /-- Deliveries on their way to members, and arrivals that sync words are still to count: address and bytes (R335, R336). -/
  flights : List Flight
  owed : List (Nat × Nat)
  /-- Claimed 512-byte tiles, by device address / 512, not yet delivered. -/
  claims : List Nat
  /-- Bytes gathered for claimed tiles, by device address (R334), and the parts they came in: address and length. -/
  staging : List (Nat × Byte)
  parts : List (Nat × Nat)
  /-- Tile bits to set as tiles become final (R212). -/
  marks : List TileMark
  /-- The record it writes, for TCLOSE and migration; 0 for none; and the record it has looked up (R326). -/
  record : Nat
  looked : Option Nat
  /-- That record as it was before a migration moved the tensor's tiles, whose old ones it goes on to read (R326). -/
  before : Option TRec
  bounce : Bool
  chan : Nat
  /-- The opened bytes of the row under way (R222). -/
  plain : List Byte
  /-- Accesses of the tile being placed that have their L2-port tokens (R357). -/
  tok : Nat
  /-- A tile that it reads bears a wrong tag: it reads no more (R412). -/
  lost : Bool
  deriving DecidableEq, Repr

/-- A drain (R235): its operands as read at issue. -/
structure Drain where
  axisM : Bool
  post : Word
  tile : Nat
  fmt : QFmt
  blk : Bool
  rin : Bool
  rout : Bool
  hslot : Nat
  code : Byte
  /-- The record as it was looked up: address, data, plane and state places, and the block axis. -/
  record : Nat
  base : Nat
  spbase : Nat
  febase : Nat
  cols : Nat
  baxis : Bool
  conf : Bool
  /-- Claimed 512-byte tiles, by device address / 512. -/
  claims : List Nat
  deriving DecidableEq, Repr

/-- A drain that has finished with its bank: its tile is still to be written (R163, R237). -/
structure TileWrite where
  team : Nat
  core : Nat
  off : Nat
  drain : Drain
  /-- What it writes: device addresses and bytes. -/
  runs : List (Nat × List Byte)
  /-- Its accesses that have their L2-port tokens (R357). -/
  tok : Nat
  deriving DecidableEq, Repr

/-- An entry of a team's bank queues (R233). -/
inductive BankOpKind where
  | mma (op : MOp)
  | azero
  /-- The lane it answers: none once that thread has ceased to be live (R162). -/
  | ard (tid : Option Nat) (dst : List Reg) (el : Nat)
  | awr (el : Nat) (v : Word)
  | qst (d : Drain)
  deriving DecidableEq, Repr

/-- An operation on accumulator banks: `banks` are physical. -/
structure BankOp where
  team : Nat
  core : Nat
  banks : List Nat
  off : Nat
  kind : BankOpKind
  started : Bool
  /-- What each bank will hold, computed when the operation starts from the panel and slot as they stand then
(R230, R232). -/
  result : List (List Word)
  deriving DecidableEq, Repr

/-- A weight-buffer access in issue order (R228): the range, and whether it writes. -/
structure WbufUse where
  core : Nat
  lo : Nat
  hi : Nat
  write : Bool
  /-- The copy request or bank operation that makes it. -/
  owner : Nat
  deriving DecidableEq, Repr

/-- A service call awaiting its reply (R256, R405). -/
structure SvcCall where
  team : Nat
  world : Nat
  record : Nat
  dst : List Reg
  deriving DecidableEq, Repr

/-- A cached tensor record (R209, R213, R326). -/
structure RecCache where
  world : Nat
  addr : Nat
  version : Word
  opened : Bool
  migrating : Bool
  deriving DecidableEq, Repr

/-- Who waits to write a page that is being moved (R325, R326): an access under way, a tile of a copy request, a drain, the
word an agent is about to issue, a team's merge, a lock break, a record of the device's own, or a hart's or the host's access. -/
inductive Writer where
  | pend (id : Nat)
  | copy (id tile : Nat)
  | drain (id : Nat)
  | word (a : Agent)
  | merge (team : Nat)
  | lockBreak (id : Nat)
  | device (id : Nat)
  | outside (i : Instr)
  deriving DecidableEq, Repr

/-- A record that the device writes of its own: a launch's or a descriptor's completion record, by its address and what
stands before and after the world time in it (R43, R391); a verdict record (R106); or a trap record in the next slot of the
fault ring, by its doublewords but for the count of dropped ones (R246). -/
inductive OwnRecord where
  | completion (addr : Nat) (head tail : List Byte)
  | verdict (addr : Nat) (bytes : List Byte)
  | trap (bytes : List Byte)
  deriving DecidableEq, Repr

/-- Such a record of a world that is still to be written: its page is being moved (R325), or the command log is full (R417). -/
structure Due where
  world : Nat
  record : OwnRecord
  deriving DecidableEq, Repr

end Sys2Proof.Machine
end

