-- ==== Sys2Proof/Machine/SysRecords.lean ====
section
/-! DEFINITION. The records State is made of: images, launches, clusters, worlds, tenants, partitions, the host
link, the fabric and the start machinery (R17, R36 to R44, R93 to R107, R246, R254 to R257, R349 to R366,
R370 to R427). -/

namespace Sys2Proof.Machine

/-- A type descriptor of a live entry (R100). -/
structure LiveType where
  cls : Nat
  spec : Nat
  pair : Bool
  uniform : Bool
  deriving DecidableEq, Repr

/-- A live entry (R100): a register, its type, and its range if it has one. -/
structure LiveEntry where
  reg : Reg
  type : LiveType
  range : Option (Nat × Nat)
  deriving DecidableEq, Repr

/-- A block of an admitted image, with what running it needs of its annotation (R98, R99). -/
structure Block where
  off : Nat
  ann : Nat
  uniform : Bool
  role : Nat
  live : List LiveEntry
  /-- Relations: A, OP, B and the constant (R101). -/
  rels : List (Nat × Nat × Nat × Int)
  /-- The locks held on entry: region and PEND (R102). -/
  locks : List (Nat × Nat)
  budget : Nat
  deriving DecidableEq, Repr

/-- A region-table entry (R97). -/
structure Region where
  space : Nat
  rd : Bool
  w : Bool
  guarded : Bool
  lregion : Nat
  lscope : Nat
  cap : Nat
  minLen : Nat
  deriving DecidableEq, Repr

/-- Where an image stands (R19, R21, R274 to R276). -/
inductive ImageState where
  | submitted | sealed | rejected | revoking | revoked
  deriving DecidableEq, Repr

/-- An image the device holds (R93 to R98, R105, R274). -/
structure Image where
  world : Nat
  tenant : Nat
  id : Word
  base : Nat
  len : Nat
  verdict : Nat
  state : ImageState
  /-- The code section: device address and length. -/
  code : Nat
  codeLen : Nat
  blocks : List Block
  regions : List Region
  nargs : Nat
  regs : Nat
  threads : Nat
  nearSz : Nat
  colSz : Nat
  locSz : Nat
  wbuf : Nat
  accBanks : Nat
  tmset : Nat
  clset : Nat
  producer : Bool
  latrev1 : Bool
  replayOk : Bool
  /-- What admission fixed for each memory instruction (R179) and for a CHK of a pointer, by code offset; for
CPY's destination pointer, the offset plus 1. -/
  sites : Table Site
  /-- The CMPs of two pointers, by code offset (R131). -/
  ptrCmps : List Nat
  /-- Producer checks it inserted (R207), by code offset. -/
  prodChecks : List Nat
  /-- The FRCPS, FRSQS, FEXS and FLGS words, by code offset (R285). -/
  seeds : List Nat
  /-- The sealed pages of 64 KiB, by device address / 65536 (R19, R274). -/
  pages : List Nat
  deriving DecidableEq, Repr

/-- A captured submission record (R105). -/
structure Submission where
  world : Nat
  base : Nat
  len : Nat
  verdict : Nat
  tenant : Nat
  id : Word
  order : Nat
  deriving DecidableEq, Repr

/-- A dependence entry of a parameter block (R38). -/
structure Dep where
  record : Nat
  tile : Nat
  count : Nat
  result : Bool
  deriving DecidableEq, Repr

/-- Launch states (R41). -/
inductive LState where
  | captured | held | placing | running | done
  deriving DecidableEq, Repr

/-- A launch (R36 to R44). -/
structure Launch where
  world : Nat
  tenant : Nat
  image : Word
  state : LState
  prio : Nat
  locdev : Bool
  scommit : Bool
  sstall : Bool
  prodw : Nat
  amax : Nat
  threads : Nat
  entry : Nat
  cw : Nat
  ch : Nat
  gx : Nat
  gy : Nat
  gz : Nat
  wdog : Nat
  bin : Nat
  tpc : Nat
  compl : Nat
  regions : List (Nat × Nat)
  args : List Word
  deps : List Dep
  mcast : List Nat
  pasid : Option Nat
  locbase : Nat
  /-- Partition and context slot it runs in. -/
  part : Nat
  slot : Nat
  /-- Clusters placed so far, in linear order. -/
  placed : Nat
  released : Nat
  /-- Teams that ended, EXITs, stopped threads, and the first error class with its time (R43, R44). -/
  teams : Nat
  exits : Nat
  stops : Nat
  eclass : Nat
  etime : Nat
  killed : Bool
  /-- When it became eligible or last placed a cluster, for R351. -/
  order : Nat
  /-- Its dependences have held (R352), and the tile bits when they were last evaluated. -/
  eligible : Bool
  bits : Option (List (List Byte))
  /-- Its checks against the image have passed (R21, R42). -/
  checked : Bool
  deriving DecidableEq, Repr

/-- A cluster (R24, R31, R34). -/
structure Cluster where
  launch : Nat
  cx : Nat
  cy : Nat
  cz : Nat
  /-- Core number of its top-left core. -/
  origin : Nat
  w : Nat
  h : Nat
  /-- Saved by pre-emption: not on the cores (R364). -/
  saved : Bool
  near : Mem
  col : Mem
  set : List SCell
  cconf : Word
  teams : List Nat
  /-- The team whose end emptied it (R163, R244); 0 before that. -/
  emptied : Nat
  deriving DecidableEq, Repr

/-- A window of BAR memory (R387): WCTL's bits, base, length, cairn address, HIST address and the cairn value last
written. -/
structure Window64 where
  werr : Bool
  bad : Bool
  opened : Bool
  base : DWord
  len : DWord
  cairn : DWord
  hist : DWord
  cval : DWord
  deriving DecidableEq, Repr

/-- A bounce channel (R413). -/
structure Chan where
  opened : Bool
  key : List Byte
  nonce : BitVec 96
  count : Nat
  deriving DecidableEq, Repr

/-- A tenant block (R402). -/
structure Tenant where
  capBase : DWord
  valid : Bool
  ncap : Nat
  deriving DecidableEq, Repr

/-- The migration block of a world and the migration it runs (R324 to R326). -/
structure Migration where
  state : Nat
  mode : Bool
  src : DWord
  dst : DWord
  /-- What runs: 0 nothing, 1 the copy, 2 what follows the switch; its mode and addresses; and the commands that looked the
  record up before the switch (R326). -/
  active : Nat
  amode : Bool
  asrc : Nat
  adst : Nat
  readers : List Nat
  /-- Who waits to write, in order of arrival (R325, R326). -/
  waiting : List Writer
  deriving DecidableEq, Repr

/-- A world (R17, R246, R371, R377, R389, R396, R401, R409). -/
structure World where
  /-- World block: STATE, CAUSE, HIDDEN, PAUSE, MIGEN, LOG, CONF, VALID, PART. -/
  state : Nat
  cause : Nat
  hidden : Bool
  pause : Bool
  migen : Bool
  log : Bool
  conf : Bool
  valid : Bool
  part : Nat
  frbase : DWord
  frslots : Nat
  logsize : Word
  toff : DWord
  tlast : DWord
  logbase : DWord
  loghead : Word
  logtail : Word
  devtab : DWord
  /-- The fault ring's record index and drop count (R246). -/
  frindex : Nat
  frdrop : Nat
  /-- When the world was paused (R420), and the world times of completion records that a replay is to write (R418). -/
  pausedAt : Nat
  replay : List Nat
  /-- QERR and the last values written to the notify registers (R17). -/
  qerr : BitVec 4
  admNotify : DWord
  lqNotify : DWord
  fqNotify : DWord
  fqerr : BitVec 2
  /-- Coupling page (R371): PASIDTAB and PRSTAT. -/
  pasidtab : DWord
  prHalted : Bool
  prOut : Nat
  prSent : Word
  /-- Outstanding Page Request Allocation (R377). -/
  prAlloc : Nat
  windows : Vector Window64 16
  /-- Window tiles copied to HIST since the last publication: window and tile (R388). -/
  hist : List (Nat × Nat)
  mig : Migration
  /-- SPDM session and heartbeat (R397 to R399). -/
  exchanging : Bool
  session : Bool
  hbPeriod : Nat
  hbDeadline : Nat
  nonce : Nat
  /-- The session's export master secret (R398), and the keys derived from the world key (R410). -/
  secret : List Byte
  key : Option WorldKeys
  chans : Vector Chan 16
  /-- Channels that CHAN_CLOSE has yet to close (R398). -/
  closing : List Nat
  /-- Steps of going dark still to take (R414), and when the world began to (R44). -/
  dark : Nat
  darkAt : Nat
  deriving DecidableEq, Repr

/-- What the side-band of an L2 tile of HBM stands for (R412): written back under the keys that a world holds, or under
keys since erased or by other hands, with the tag that it bears; or found to bear a tag that is wrong for a world's reading. -/
inductive Seal where
  | live (world : Nat) (iv : Iv)
  | dead (tag : BitVec 56)
  | wrong (world : Nat) (iv : Iv)
  deriving DecidableEq, Repr

/-- A usable translation: the physical base of its range, the range's log2 size, whether it allows a write, PBMT. -/
structure Leaf where
  phys : Nat
  bits : Nat
  write : Bool
  pbmt : Nat
  deriving DecidableEq, Repr

/-- An entry of a die's last-level TLB (R376): an aligned 2 MiB range of a PASID, by number, with its one translation or
those of its 4 KiB pages, by page number. -/
structure Tlb where
  die : Nat
  world : Nat
  pasid : Nat
  range : Nat
  whole : Option Leaf
  pages : Table Leaf
  deriving DecidableEq, Repr

/-- A non-leaf entry that a translation unit has cached (R376): at `level`, for the addresses whose bits above the level's
index are `tag`, the table it points to. -/
structure NonLeaf where
  die : Nat
  world : Nat
  pasid : Nat
  level : Nat
  tag : Nat
  table : Nat
  deriving DecidableEq, Repr

/-- A host line that a slice holds, and its port's filter with it (R382): its number, whether it is dirty, the context
that wrote it last (R383), the world it is tagged with, and while it is dirty what host memory itself has in its place (R414). -/
structure HostLine where
  line : Nat
  dirty : Bool
  ctx : Option Nat
  world : Nat
  behind : List Byte
  deriving DecidableEq, Repr

/-- A PASID context kept by a die's translation unit (R372, R376). -/
structure PCtx where
  die : Nat
  world : Nat
  pasid : Nat
  root : Nat
  /-- The second-stage root, if GMODE selects one. -/
  groot : Option Nat
  deriving DecidableEq, Repr

/-- An access that waits for a host page (R378). -/
inductive Waiter where
  | thread (team tid : Nat)
  | uniform (team : Nat)
  | copy (req : Nat)
  | merge (team : Nat)
  | lockBreak (id : Nat)
  deriving DecidableEq, Repr

/-- A page request (R377), for reading, writing or both: sent with PRG index `prg`, or waiting to be sent; the accesses that joined it, each with its first
byte on the page; and the host's answer, while a saved context keeps it from taking effect (R378). -/
structure PageReq where
  world : Nat
  pasid : Nat
  page : Nat
  read : Bool
  write : Bool
  sent : Bool
  prg : Nat
  joined : List (Waiter × Nat)
  answer : Option Bool
  deriving DecidableEq, Repr

/-- A lock break that cannot be made yet (R199, R325, R333), with the place of the team that stopped. -/
structure LockBreak where
  team : Team
  cluster : Cluster
  launch : Launch
  image : Image
  off : Nat
  lock : HeldLock
  deriving DecidableEq, Repr

/-- A line of device memory that the host may hold through CXL.mem (R385): the line's number, the bytes the host
holds, whether a BISnp has been sent and not yet answered, and the clusters that have placed bytes in it since. -/
structure SharedLine where
  world : Nat
  line : Nat
  bytes : List Byte
  snooped : Bool
  clusters : List Nat
  deriving DecidableEq, Repr

/-- A partition's block and status, and its dispatcher's state (R349, R351, R356, R408). -/
structure Part where
  haltlim : Nat
  tplace : Nat
  minoct : Nat
  target : Nat
  pways : BitVec 16
  poold : Nat
  blim : Nat
  octets : DWord
  hbmsh : Nat
  stss : Nat
  lerr : Bool
  gen : Word
  /-- Octets marked for transfer, with the partition they go to. -/
  marks : List (Nat × Nat)
  /-- The world that placed last. -/
  last : Nat
  deriving DecidableEq, Repr

/-- A context slot: its block (R350) and its place on the ladder (R359). -/
structure Slot where
  /-- The world and tenant whose residency it is; free when not bound. -/
  bound : Bool
  world : Nat
  tenant : Nat
  state : Nat
  ktime : Nat
  gtime : Nat
  rate : Nat
  depth : Nat
  tsg : Nat
  waymask : BitVec 16
  reqt : DWord
  haltt : DWord
  /-- A soft request is on its way to the cores. -/
  flying : Bool
  /-- When G and K expire, on the reference clock. -/
  gAt : Nat
  kAt : Nat
  /-- A CMD 2 is held until the halt completes, or a resume waits for another context to halt (R360). -/
  held : Bool
  resume : Bool
  /-- The kill follows from a world that goes dark (R44), or the soft request from a pause (R420). -/
  dark : Bool
  paused : Bool
  /-- Way sweeps: ways being swept, and a WAYMASK written meanwhile (R358). -/
  sweep : BitVec 16
  queued : Option (BitVec 16)
  deriving DecidableEq, Repr

/-- A context's bucket at an L2 port (R357), and the accesses that wait there, in order. -/
structure Bucket where
  tokens : Nat
  /-- Hundredths of a token credited so far. -/
  frac : Nat
  borrowed : Nat
  waiters : List Nat
  deriving DecidableEq, Repr

/-- A captured fabric descriptor (R390) until its record is written, with the data read at capture. -/
structure FabDesc where
  world : Nat
  tenant : Nat
  reduction : Bool
  group : Nat
  seq : Nat
  op : Nat
  fmt : Nat
  timeout : Nat
  nmemb : Nat
  midx : Nat
  dst : Nat
  count : Nat
  compl : Nat
  /-- The peer: node, world and tenant (R403). -/
  node : Nat
  peerWorld : Nat
  peerTenant : Nat
  data : List Byte
  /-- Its contribution has left for the switch. -/
  sent : Bool
  deriving DecidableEq, Repr

/-- A reduction instance at the switch (R394, R395). -/
structure Reduction where
  world : Nat
  tenant : Nat
  group : Nat
  seq : Nat
  contribs : List Contribution
  start : Nat
  /-- How it came out: status and mask. -/
  outcome : Option (Nat × Nat)
  result : List Word
  /-- Members that have yet to be told, by index. -/
  owed : List Nat
  deriving DecidableEq, Repr

/-- An invalidation under way (R380): the accesses issued before it; and whether it is the monitor's own (R381). -/
structure Inval where
  world : Nat
  pends : List Nat
  internal : Bool
  deriving DecidableEq, Repr

/-- What a start waits for (R422 to R424). -/
inductive Starting where
  | none
  /-- The monitor's ready signal, due by a time; from a warm start or not. -/
  | ready (by_ : Nat) (warm : Bool)
  /-- The contexts of a warm start end first (R424 step 1); and the step of its own that will fail, if any. -/
  | ending (fails : Option (Fin 5))
  deriving DecidableEq, Repr

/-- The start and power page, and what stands behind it (R421 to R427). -/
structure Power where
  stepfail : Nat
  fails : Nat
  state : Nat
  starting : Starting
  pwr : BitVec 16
  plim : BitVec 16
  tmax : BitVec 8
  tcrit : BitVec 8
  ttrot : BitVec 8
  /-- The power term s_p (R426). -/
  sp : Nat
  /-- A column has exceeded TCRIT, and not all are 5 degrees below it yet (R427). -/
  trip : Bool
  staging : Mem
  removed : Bool
  /-- The evidence of the measured boot: whether the monitor's image came from the staging window, and its digest; and the
  identity key (R422). -/
  fromWindow : Bool
  digest : List Byte
  identity : List Byte
  deriving DecidableEq, Repr

/-- What CAPABILITIES says that the function can do (R397's exchange 3). -/
inductive SpdmCap where
  | cert | chal | measSigned | keyEx | hbeat | encrypt | mac
  deriving DecidableEq, Repr

/-- The algorithms of ALGORITHMS (R397 and its exchange 4): brainpoolP384r1 as an extended one of a vendor's registry. -/
inductive SpdmAlg where
  | sha384 | secp384r1 | aes256Gcm
  | brainpoolP384r1 (vendor : BitVec 16)
  deriving DecidableEq, Repr

/-- Answers to SPDM requests (R397 to R399). -/
inductive SpdmReply where
  | version (major minor : Nat)
  | capabilities (l : List SpdmCap)
  | algorithms (l : List SpdmAlg)
  | certificate | keyExchange | finished | ended | alive
  /-- The blocks asked for, by index, the requester's nonce, and the signature of a signed response (R397, R406). -/
  | measurements (blocks : List (Byte × List Byte)) (nonce : List Byte) (signature : Option (List Byte))
  | status (n : Nat)
  | invalidRequest | sessionRequired | unexpected
  deriving DecidableEq, Repr

/-- Answers to TDISP requests (R398, R409). -/
inductive TdispReply where
  | locked (nonce : Nat) | started | stopped | error
  /-- The trust state, and the TDI's MMIO ranges: BAR, first offset and last (R396 and R397's exchange 7). -/
  | report (state : Nat) (mmio : List (Nat × Nat × Nat))
  deriving DecidableEq, Repr

/-- What the device tells the outside (log 4). -/
inductive Output where
  /-- The value a read of a register, window or memory returns. -/
  | value (w : Nat) (bytes : List Byte)
  /-- A hart or host access that faults (R19, R274). -/
  | accessFault (w : Nat) (addr : Nat)
  | pageRequest (w pasid page : Nat) (read write last : Bool) (prg : Nat)
  /-- To the host, or to the monitor for its own (R381). -/
  | invalidationComplete (w : Nat) (internal : Bool)
  | msix (w : Nat)
  /-- The filter's answer to a host snoop (R383): whether it holds the line, and the bytes of a dirty one. -/
  | snoop (port : Nat) (line : DWord) (held : Bool) (data : Option (List Byte))
  | bisnp (w line : Nat)
  | spdm (w : Nat) (r : SpdmReply)
  | tdisp (w : Nat) (r : TdispReply)
  /-- A launch packet sent to a peer's world and tenant for a descriptor (R393), and the answer to one received. -/
  | launchRequest (desc node w tenant : Nat) (packet : List Byte)
  | launchAnswer (node w tenant code : Nat)
  deriving DecidableEq, Repr

end Sys2Proof.Machine
end

