-- ==== Sys2Proof/Machine/State.lean ====
section
/-! DEFINITION. Why a step stops, the state of the machine, and the state after reset. State is plain data and
holds everything the spec gives a name; INVENTORY.md lists each piece with its rule. -/

namespace Sys2Proof.Machine

/-- Why a step stops. -/
inductive Fault where
  /-- An instruction word was run although no issue group is about to issue. Raised by every instruction
  meaning; no step of the machine does so. Safe. -/
  | noGroup
  /-- The words at the issuing group's address do not decode, or the address is in no code section. Raised by
  step. Sealed code never does this (R71). Safe. -/
  | noInstruction
  /-- The word has a form that admission rejects (R428, R206) or for which it fixed no space (R179), so it is
  never run. Raised by instruction meanings. Safe (log 11). -/
  | notAdmitted
  deriving DecidableEq, Repr

/-- Why a step has no meaning. -/
inductive Refusal where
  /-- The instruction has no meaning in the model. Raised by the dispatch alone. Safe. -/
  | notModelled (mnemonic : String)
  deriving DecidableEq, Repr

/-- The state of the machine. Tables list only what exists. -/
structure State where
  /-- Who moves next, what the outside has asked for, what of it has had to wait, and the counters of free values and names:
  the model's own (log 2, 3, 5, 28). -/
  turn : Turn
  inputs : List Instr
  held : List Instr
  free : Nat
  nextId : Nat
  /-- The reference clock, ns (R252). -/
  now : Nat
  /-- HBM by package address, in plain text where a world that holds keys has written it; the L2 tiles that lie encrypted,
by package address / 512 (R411, R412); host memory by host physical address. -/
  hbm : Mem
  seals : Table Seal
  hostMem : Mem
  /-- What the device has changed in the device tables: world, 2 MiB page of the world, frame if any (log 8); and the world
that a frame, by its number, was last mapped to (R415). -/
  devTab : List (Nat × Nat × Option Nat)
  owners : Table Nat
  /-- Changes of 2 MiB pages' translations that a revocation holds up: world, page, and whether the page is to be mapped as
  the tables have it now, and not unmapped (R275). -/
  unmaps : List (Nat × Nat × Bool)
  threads : Table Thread
  waves : Table Wave
  teams : Table Team
  clusters : Table Cluster
  launches : Table Launch
  images : Table Image
  passes : Table Pass
  cands : List Cand
  /-- Cores whose previous selection was under row 1 of R281. -/
  lastRow1 : List Nat
  pends : Table Pend
  copies : Table CopyReq
  bankOps : Table BankOp
  drains : Table TileWrite
  wbufUses : List WbufUse
  calls : Table SvcCall
  /-- Records of the device's own that are still to be written, in order (R325, R417). -/
  dues : Table Due
  /-- The call number of each service ring, by its package address (R256, R405). -/
  svcSeq : Table Nat
  recs : List RecCache
  /-- Accumulator banks and weight buffers, by core * 8 + bank and by core. -/
  accs : Table (List Word)
  /-- Saved copies of banks, by context on a core and bank (R366). -/
  accSaved : Table (List Word)
  /-- Groups waiting for copy-unit entries, by core, in order (R331). -/
  copyQ : List (Nat × Nat × Nat)
  wbufs : Table Mem
  /-- ACC_OWNER by core, CTEMP by column, THROT by core (R250). -/
  accOwner : Table DWord
  ctemp : Table (BitVec 16)
  throt : Table (BitVec 4)
  /-- Cores being reset after a soft error, with the time at which the kill reaches the rest of their clusters (R340). -/
  resets : List (Nat × Nat)
  worlds : Table World
  tenants : Table Tenant
  /-- The translation unit: cached translations, non-leaf entries and contexts, page requests, how often an access has
  been told Success for a page (R378), and lock breaks that wait. -/
  tlb : List Tlb
  nonLeaf : List NonLeaf
  pctx : List PCtx
  pageReqs : Table PageReq
  tries : List ((Waiter × Nat) × Nat)
  breaks : Table LockBreak
  /-- Device lines the host may hold (R385). -/
  shared : List SharedLine
  /-- Performance counters (R257); and by the same key, the cycles of work done since counters 5 and 6 were last read: the
  model's own (log 13). -/
  perf : Table Nat
  cycles : Table Nat
  /-- Partitions, context slots by partition * 16 + slot, buckets by slot * 64 + port, pools by partition * 64 + port
  (R349, R350, R357). -/
  parts : Table Part
  slots : Table Slot
  buckets : Table Bucket
  pools : Table Nat
  /-- Submissions captured and not yet taken, in order (R17, R105), and the world served last (R277). -/
  subs : List Submission
  admLast : Nat
  /-- Fabric descriptors captured, and the switch's instances (R390, R394); NODE (R389). -/
  fabric : Table FabDesc
  reductions : Table Reduction
  node : BitVec 16
  /-- Host lines that a slice holds, in the order they were allocated (R382), and invalidations under way (R380). -/
  hostLines : List HostLine
  invals : List Inval
  power : Power
  /-- Messages to the outside, newest last (log 4). -/
  outbox : List Output
  deriving DecidableEq, Repr

/-- The start page after a start, with the fields that are kept (R421, R422): STATE 3 (log 1). -/
def Power.reset (stepfail fails : Nat) : Power where
  stepfail := stepfail
  fails := fails
  state := 3
  starting := .none
  pwr := 0
  plim := Config.plim
  tmax := 0
  tcrit := 115
  ttrot := 100
  sp := 0
  trip := false
  staging := .empty
  removed := false
  fromWindow := false
  digest := []
  identity := []

/-- The monitor's image in flash has been measured, and the identity key derived (R422). -/
def Power.measured (p : Power) : Power :=
  { p with fromWindow := false, digest := sha384 Config.flashImage, identity := Config.identityKey }

/-- The state after reset. -/
def State.reset : State where
  turn := .idle
  inputs := []
  held := []
  free := 0
  nextId := 1
  now := 0
  hbm := .empty
  seals := []
  hostMem := .empty
  devTab := []
  owners := []
  unmaps := []
  threads := []
  waves := []
  teams := []
  clusters := []
  launches := []
  images := []
  passes := []
  cands := []
  lastRow1 := []
  pends := []
  copies := []
  bankOps := []
  drains := []
  wbufUses := []
  calls := []
  dues := []
  svcSeq := []
  recs := []
  accs := []
  accSaved := []
  copyQ := []
  wbufs := []
  accOwner := []
  ctemp := []
  throt := []
  resets := []
  worlds := []
  tenants := []
  tlb := []
  nonLeaf := []
  pctx := []
  pageReqs := []
  tries := []
  breaks := []
  shared := []
  perf := []
  cycles := []
  parts := []
  slots := []
  buckets := []
  pools := []
  subs := []
  admLast := 0
  fabric := []
  reductions := []
  node := 0
  hostLines := []
  invals := []
  power := (Power.reset 0 0).measured
  outbox := []

end Sys2Proof.Machine
end

