-- ==== Sys2Proof/Machine/Base.lean ====
section
/-! DEFINITION. Operations over tables and memory: HBM and device addresses, worlds and world time (R6, R16,
R19, R33, R274, R401, R402, R419). -/

namespace Sys2Proof.Machine

/-! Tables. -/

/-- The entry of a key. -/
def tget {α : Type} : Table α → Nat → Option α
  | [], _ => none
  | (j, a) :: r, k => if j = k then some a else tget r k

/-- Replaces or adds the entry of a key. -/
def tset {α : Type} : Table α → Nat → α → Table α
  | [], k, a => [(k, a)]
  | (j, b) :: r, k, a => if j = k then (k, a) :: r else (j, b) :: tset r k a

/-- Removes the entry of a key. -/
def tdel {α : Type} : Table α → Nat → Table α
  | [], _ => []
  | (j, b) :: r, k => if j = k then tdel r k else (j, b) :: tdel r k

/-- Changes the entry of a key, if it is there. -/
def tmod {α : Type} (t : Table α) (k : Nat) (f : α → α) : Table α :=
  match tget t k with
  | some a => tset t k (f a)
  | none => t

/-! Memory. An unlisted byte reads 0 (R422 step 3 for HBM, R328 for near and column; log 7, 9). -/

/-- One byte. -/
def Cells.read : List Host.Cell → Nat → Byte
  | [], _ => 0
  | (c, v) :: r, a => if c = a then v else Cells.read r a

/-- Writes one byte, keeping the canonical form. -/
def Cells.write : List Host.Cell → Nat → Byte → List Host.Cell
  | [], a, b => if b = 0 then [] else [(a, b)]
  | (c, v) :: r, a, b =>
    if a < c then (if b = 0 then (c, v) :: r else (a, b) :: (c, v) :: r)
    else if a = c then (if b = 0 then r else (a, b) :: r)
    else (c, v) :: Cells.write r a b

/-- Writes bytes from an address on. -/
def Cells.writeN : List Host.Cell → Nat → List Byte → List Host.Cell
  | m, _, [] => m
  | m, a, b :: l => Cells.writeN (Cells.write m a b) (a + 1) l

/-- The canonical form, by its first entry. -/
theorem Memory.wf_cons {a : Nat} {b : Byte} {m : List Host.Cell} :
    Memory.wf ((a, b) :: m) = true ↔ b ≠ 0 ∧ Memory.wf m = true ∧ ∀ e ∈ m, a < e.1 := by
  induction m generalizing a b with
  | nil => simp [Memory.wf]
  | cons e r ih =>
    obtain ⟨c, d⟩ := e
    have h := @ih c d
    constructor
    · intro w
      simp only [Memory.wf, Bool.and_eq_true, bne_iff_ne, decide_eq_true_eq] at w
      obtain ⟨⟨hb, hac⟩, hr⟩ := w
      refine ⟨hb, hr, ?_⟩
      intro e he
      rcases List.mem_cons.mp he with rfl | he
      · exact hac
      · exact lt_trans hac ((h.mp hr).2.2 e he)
    · rintro ⟨hb, hr, hlt⟩
      simp only [Memory.wf, Bool.and_eq_true, bne_iff_ne, decide_eq_true_eq]
      exact ⟨⟨hb, hlt (c, d) (List.mem_cons_self ..)⟩, hr⟩

/-- A write lists nothing new but at its address. -/
theorem Cells.write_mem {m : List Host.Cell} {a : Nat} {b : Byte} {e : Nat × Byte} (h : e ∈ Cells.write m a b) :
    e ∈ m ∨ e.1 = a := by
  induction m with
  | nil =>
    simp only [Cells.write] at h
    split at h
    · simp at h
    · simp at h; exact .inr (by rw [h])
  | cons c r ih =>
    obtain ⟨c, d⟩ := c
    simp only [Cells.write] at h
    split at h
    · split at h
      · exact .inl h
      · rcases List.mem_cons.mp h with h | h
        · exact .inr (by rw [h])
        · exact .inl h
    · split at h
      · split at h
        · exact .inl (List.mem_cons_of_mem _ h)
        · rcases List.mem_cons.mp h with h | h
          · exact .inr (by rw [h])
          · exact .inl (List.mem_cons_of_mem _ h)
      · rcases List.mem_cons.mp h with h | h
        · exact .inl (by rw [h]; exact List.mem_cons_self ..)
        · rcases ih h with h | h
          · exact .inl (List.mem_cons_of_mem _ h)
          · exact .inr h

/-- A write keeps the canonical form. -/
theorem Cells.write_wf {m : List Host.Cell} (a : Nat) (b : Byte) (h : Memory.wf m = true) :
    Memory.wf (Cells.write m a b) = true := by
  induction m with
  | nil =>
    simp only [Cells.write]
    split
    · rfl
    · next hb => simpa [Memory.wf] using hb
  | cons e r ih =>
    obtain ⟨c, d⟩ := e
    obtain ⟨hd, hr, hlt⟩ := Memory.wf_cons.mp h
    simp only [Cells.write]
    split
    · next hac =>
      split
      · exact h
      · next hb =>
        refine Memory.wf_cons.mpr ⟨hb, h, ?_⟩
        intro e he
        rcases List.mem_cons.mp he with rfl | he
        · exact hac
        · exact lt_trans hac (hlt e he)
    · split
      · next hc =>
        subst hc
        split
        · exact hr
        · next hb => exact Memory.wf_cons.mpr ⟨hb, hr, hlt⟩
      · next hc =>
        refine Memory.wf_cons.mpr ⟨hd, ih hr, ?_⟩
        intro e he
        rcases Cells.write_mem he with he | he
        · exact hlt e he
        · rw [he]; omega

/-- So do the writes of several bytes. -/
theorem Cells.writeN_wf {m : List Host.Cell} (a : Nat) (l : List Byte) (h : Memory.wf m = true) :
    Memory.wf (Cells.writeN m a l) = true := by
  induction l generalizing m a with
  | nil => exact h
  | cons b l ih => exact ih (a + 1) (Cells.write_wf a b h)

/-- Nothing of the form is lost by leaving entries out. -/
theorem Memory.wf_filter {m : List Host.Cell} (f : Host.Cell → Bool) (h : Memory.wf m = true) :
    Memory.wf (m.filter f) = true := by
  induction m with
  | nil => rfl
  | cons e r ih =>
    obtain ⟨c, d⟩ := e
    obtain ⟨hd, hr, hlt⟩ := Memory.wf_cons.mp h
    rw [List.filter_cons]
    split
    · exact Memory.wf_cons.mpr ⟨hd, ih hr, fun e he => hlt e (List.mem_of_mem_filter he)⟩
    · exact ih hr

/-- One byte. -/
def Mem.read (m : Mem) (a : Nat) : Byte := Cells.read m.val a

/-- n bytes from an address on. -/
def Mem.readN (m : Mem) (a n : Nat) : List Byte := (List.range n).map (fun i => m.read (a + i))

/-- Writes one byte. -/
def Mem.write (m : Mem) (a : Nat) (b : Byte) : Mem := ⟨Cells.write m.val a b, Cells.write_wf a b m.property⟩

/-- Writes bytes from an address on. -/
def Mem.writeN (m : Mem) (a : Nat) (l : List Byte) : Mem := ⟨Cells.writeN m.val a l, Cells.writeN_wf a l m.property⟩

/-- The bytes at the addresses that f names; the others read zero. -/
def Mem.keep (m : Mem) (f : Nat → Bool) : Mem := ⟨m.val.filter (fun e => f e.1), Memory.wf_filter _ m.property⟩

/-- The bytes of another memory, each at the address that f gives it, come to lie in this one. -/
def Mem.overlay (m : Mem) (f : Nat → Nat) (l : Mem) : Mem := l.val.foldl (fun m e => m.write (f e.1) e.2) m

/-! The start (R421 to R424). -/

/-- The device runs: in STATE 3, or with its monitor started and not yet ready. -/
def Power.up (p : Power) : Bool := match p.starting with | .ready .. => true | _ => p.state == 3

/-- The application cluster does not run: it is held in reset, or a start has failed and none has followed. -/
def Power.held (p : Power) : Bool := p.state == 4 || (p.state == 1 && p.starting == .none)

/-! Free values and the clock. -/

/-- A value the spec does not fix (log 2), and the state after it is drawn. -/
def State.draw (s : State) : Nat × State := (Config.freeNat s.free, { s with free := s.free + 1 })

/-- One of several, at will (log 3); a draw is made only where there is a choice. -/
def State.pick {α : Type} (s : State) : List α → Option (α × State)
  | [] => none
  | [a] => some (a, s)
  | a :: b :: r =>
    let l := a :: b :: r
    some ((l[Config.freeChoice s.free % l.length]?).getD a, { s with free := s.free + 1 })

/-- A fresh name (log 5). -/
def State.fresh (s : State) : Nat × State := (s.nextId, { s with nextId := s.nextId + 1 })

/-! Worlds and tenants. -/

/-- A window as it is after reset (R387). -/
def Window64.reset : Window64 := ⟨false, false, false, 0, 0, 0, 0, 0⟩

/-- A world as it is after reset (R17, R371, R389, R396, R401). -/
def World.reset : World where
  state := 0
  cause := 0
  hidden := false
  pause := false
  migen := false
  log := false
  conf := false
  valid := false
  part := 0
  frbase := 0
  frslots := 0
  logsize := 0
  toff := 0
  tlast := 0
  logbase := 0
  loghead := 0
  logtail := 0
  devtab := 0
  frindex := 0
  frdrop := 0
  pausedAt := 0
  replay := []
  qerr := 0
  admNotify := 0
  lqNotify := 0
  fqNotify := 0
  fqerr := 0
  pasidtab := 0
  prHalted := false
  prOut := 0
  prSent := 0
  prAlloc := 0
  windows := Vector.replicate 16 Window64.reset
  hist := []
  mig := ⟨0, false, 0, 0, 0, false, 0, 0, [], []⟩
  exchanging := false
  session := false
  hbPeriod := 0
  hbDeadline := 0
  nonce := 0
  secret := []
  key := none
  chans := Vector.replicate 16 ⟨false, [], 0, 0⟩
  closing := []
  dark := 0
  darkAt := 0

/-- World w. -/
def State.world (s : State) (w : Nat) : World := (tget s.worlds w).getD World.reset

/-- Changes world w. -/
def State.setWorld (s : State) (w : Nat) (f : World → World) : State :=
  { s with worlds := tset s.worlds w (f (s.world w)) }

/-- Tenant t of world w (R402). -/
def State.tenant (s : State) (w t : Nat) : Tenant := (tget s.tenants (w * 64 + t)).getD ⟨0, false, 0⟩

/-- World time (R419): never below the highest value already returned. -/
def State.worldTime (s : State) (w : Nat) : Nat :=
  let v := (s.world w).toff + BitVec.ofNat 64 s.now
  Nat.max v.toNat (s.world w).tlast.toNat

/-- Reads world time: TLAST becomes it, and TOFF is raised when that is needed (R419). -/
def State.readTime (s : State) (w : Nat) : Nat × State :=
  let v := s.worldTime w
  (v, s.setWorld w (fun x =>
    { x with tlast := BitVec.ofNat 64 v, toff := BitVec.ofNat 64 v - BitVec.ofNat 64 s.now }))

/-! Partitions and context slots. -/

/-- A partition's block after a start (R349, R408). -/
def Part.reset (p : Nat) : Part where
  haltlim := 30
  tplace := 95
  minoct := 0
  target := 0
  pways := if p = 0 then 0xFFFF else 0
  poold := 0
  blim := 0
  octets := if p = 0 then ~~~0 else 0
  hbmsh := if p = 0 then 64 else 0
  stss := 7
  lerr := false
  gen := 0
  marks := []
  last := 0

/-- Partition p. -/
def State.part (s : State) (p : Nat) : Part := (tget s.parts p).getD (Part.reset p)

/-- Changes partition p. -/
def State.setPart (s : State) (p : Nat) (f : Part → Part) : State :=
  { s with parts := tset s.parts p (f (s.part p)) }

/-- The thread state store of partition p, in bytes (R26, R349). -/
def Part.stateStore (p : Part) : Nat := (p.stss + 1) * 262144

/-- A context slot after a start (R350). -/
def Slot.reset : Slot where
  bound := false
  world := 0
  tenant := 0
  state := 0
  ktime := 0
  gtime := 4
  rate := 0
  depth := 0
  tsg := 0
  waymask := 0
  reqt := 0
  haltt := 0
  flying := false
  gAt := 0
  kAt := 0
  held := false
  resume := false
  dark := false
  paused := false
  sweep := 0
  queued := none

/-- Context slot i of partition p. -/
def State.slot (s : State) (p i : Nat) : Slot := (tget s.slots (p * 16 + i)).getD Slot.reset

/-- Changes context slot i of partition p. -/
def State.setSlot (s : State) (p i : Nat) (f : Slot → Slot) : State :=
  { s with slots := tset s.slots (p * 16 + i) (f (s.slot p i)) }

/-- A world starts to go dark (R414 step 1): its running contexts are asked to halt with G = 0. A world that is not
confidential never does. -/
def State.startDark (s : State) (w cause : Nat) : State :=
  let x := s.world w
  if x.dark ≠ 0 ∨ x.state = 0 ∨ x.state = 4 then s
  else
    State.setWorld { s with slots := s.slots.map (fun (e : Nat × Slot) =>
      if e.2.bound ∧ e.2.world = w then
        (e.1, { e.2 with
          dark := true, flying := e.2.flying || e.2.state == 1
          gAt := if e.2.state = 3 then s.now else e.2.gAt })
      else e) } w (fun x => { x with dark := 1, cause := cause, darkAt := s.now })

/-! Device memory. -/

/-- A 2 MiB page. -/
def bigPage : Nat := 2097152

/-- The bytes of HBM (R3). -/
def hbmSize : Nat := 2 ^ 39

/-- The package address of a device address of world w (R401 DEVTAB, R381; log 8), which lies in HBM (R3). -/
def State.devAddr (s : State) (w a : Nat) : Option Nat :=
  let root := (s.world w).devtab.toNat
  let frame :=
    match s.devTab.find? (fun e => e.1 == w && e.2.1 == a / bigPage) with
    | some (_, _, f) => f
    | none => if root = 0 then none else Config.devFrame root (a / bigPage)
  (frame.filter (fun f => decide (f + bigPage ≤ hbmSize))).map (fun f => f + a % bigPage)

/-- World w maps the byte of HBM at p, by its tables or by what the device has changed in them. -/
def State.mapsByte (s : State) (w p : Nat) : Bool :=
  let root := (s.world w).devtab.toNat
  s.devTab.any (fun e => e.1 == w && e.2.2.any (fun f => decide (f ≤ p) && decide (p < f + bigPage))) ||
    (root != 0 && (Config.devPages root).any (fun e =>
      e.2 == p / bigPage && !s.devTab.any (fun d => d.1 == w && d.2.1 == e.1)))

/-- The n bytes at a lie in world w's device memory. -/
def State.devRange (s : State) (w a n : Nat) : Bool :=
  decide (a + n ≤ 2 ^ 64) &&
    (List.range ((a + (n - 1)) / bigPage - a / bigPage + 1)).all
      (fun i => (s.devAddr w ((a / bigPage + i) * bigPage)).isSome)

/-! Encryption (R410 to R412; log 10). `hbm` holds what the world that wrote an L2 tile wrote; everyone else meets the
tile's ciphertext. -/

/-- The keys that world w holds. -/
def State.keys (s : State) (w : Nat) : Option WorldKeys := (s.world w).key

/-- A byte of HBM as it lies there; 0 outside it. -/
def State.rawByte (s : State) (p : Nat) : Byte :=
  if hbmSize ≤ p then 0 else
  match tget s.seals (p / 512) with
  | some (.live w iv) =>
    match s.keys w with
    | some k => (iv.block true k (p % 512 / 16) (s.hbm.readN (p / 16 * 16) 16)).getD (p % 16) 0
    | none => s.hbm.read p
  | _ => s.hbm.read p

/-- n bytes of HBM as they lie there. -/
def State.rawBytes (s : State) (p n : Nat) : List Byte := (List.range n).map (fun i => s.rawByte (p + i))

/-- The L2 tile of p lies as world w writes it under iv. -/
def State.sealedBy (s : State) (w : Nat) (iv : Iv) (p : Nat) : Bool := tget s.seals (p / 512) == some (.live w iv)

/-- A byte of HBM as world w reads it under iv. -/
def State.openByte (s : State) (w : Nat) (iv : Iv) (p : Nat) : Byte :=
  match s.keys w with
  | none => s.rawByte p
  | some k =>
    if s.sealedBy w iv p then s.hbm.read p
    else (iv.block false k (p % 512 / 16) (s.rawBytes (p / 16 * 16) 16)).getD (p % 16) 0

/-- The L2 tile of p comes to lie as world w writes it under iv, every byte reading for that world as it did. -/
def State.takeTile (s : State) (w : Nat) (iv : Iv) (p : Nat) : State :=
  let base := p / 512 * 512
  let same : Bool := match s.keys w with | some _ => s.sealedBy w iv p | none => (tget s.seals (p / 512)).isNone
  if same then s
  else
    { s with
      hbm := s.hbm.writeN base ((List.range 512).map (fun i => s.openByte w iv (base + i)))
      seals := if (s.keys w).isSome then tset s.seals (p / 512) (.live w iv) else tdel s.seals (p / 512) }

/-- Whether the tag that lies beside the tile of p is the one that world w reads there with this IV: a free value where
nothing says how the tile was written, and false for as long as it is found wrong (R412). -/
def State.tagFits (s : State) (k : WorldKeys) (w : Nat) (iv : Iv) (p : Nat) : Bool × State :=
  let raw := s.rawBytes (p / 512 * 512) 512
  let drawn : Bool × State := (Config.tagRight s.free, { s with free := s.free + 1 })
  match tget s.seals (p / 512) with
  | none => drawn
  | some (.wrong w' iv') => if w' = w ∧ iv' = iv then (false, s) else drawn
  | some (.dead tag) => (iv.tag k raw == tag, s)
  | some (.live w' iv') =>
    ((match s.keys w' with | some k' => iv.tag k raw == iv'.tag k' raw | none => false), s)

/-- The tag of a tile that nothing else is known of is found wrong for world w and this IV. -/
def State.foundWrong (s : State) (w : Nat) (iv : Iv) (p : Nat) : State :=
  match tget s.seals (p / 512) with
  | none | some (.wrong ..) => { s with seals := tset s.seals (p / 512) (.wrong w iv) }
  | _ => s

/-- Checks the tag of the L2 tile of p as world w fills it under iv (R412): a wrong one makes the world go dark, and is wrong
from then on. -/
def State.fillTile (s : State) (w : Nat) (iv : Iv) (p : Nat) : Bool × State :=
  match s.keys w with
  | none => (true, s)
  | some k =>
    if s.sealedBy w iv p then (true, s)
    else
      match s.tagFits k w iv p with
      | (true, s) => (true, s.takeTile w iv p)
      | (false, s) => (false, (s.foundWrong w iv p).startDark w 2)

/-- World w's keys are erased (R414 step 2): what it wrote is left as it lies in HBM, with its tags. -/
def State.eraseKeys (s : State) (w : Nat) : State :=
  let shut (t : State) (e : Nat × Seal) : State :=
    match e.2, s.keys w with
    | .live w' iv, some k =>
      if w' = w then
        let raw := s.rawBytes (e.1 * 512) 512
        { t with hbm := t.hbm.writeN (e.1 * 512) raw, seals := tset t.seals e.1 (.dead (iv.tag k raw)) }
      else t
    | _, _ => t
  (s.seals.foldl shut s).setWorld w (fun x => { x with key := none })

/-- Bytes of HBM come to lie at p, whatever lay there, with no tag of a world's; none outside it. -/
def State.rawWrites (s : State) : Nat → List Byte → State
  | _, [] => s
  | p, b :: l =>
    if hbmSize ≤ p then s else
    let s := if (tget s.seals (p / 512)).isNone then s
      else { s with
        hbm := s.hbm.writeN (p / 512 * 512) (s.rawBytes (p / 512 * 512) 512), seals := tdel s.seals (p / 512) }
    State.rawWrites { s with hbm := s.hbm.write p b } (p + 1) l

/-- A byte of device memory as it lies at home, outside the tiles of records with CONF = 1; 0 where nothing is mapped. -/
def State.devByte (s : State) (w a : Nat) : Byte :=
  match s.devAddr w a with
  | some p => s.openByte w (.xts (a / 512 * 512)) p
  | none => 0

/-- n bytes of device memory at home. -/
def State.devBytes (s : State) (w a n : Nat) : List Byte := (List.range n).map (fun i => s.devByte w (a + i))

/-- A little-endian number of n bytes in device memory (R6). -/
def State.devNat (s : State) (w a n : Nat) : Nat := natOfBytes (s.devBytes w a n)

/-- Address a of world w is read-only: an image under admission (R19) or a sealed page (R274, R275). -/
def State.readOnly (s : State) (w a : Nat) : Bool :=
  s.images.any (fun e =>
    let i := e.2
    i.world == w &&
      (match i.state with
       | .submitted => decide (i.base ≤ a) && decide (a < i.base + i.len)
       | .sealed | .revoking => i.pages.contains (a / 65536)
       | _ => false))

/-- Writes a byte of device memory under iv, and nothing else. A tile that holds something is filled first, and takes no
byte where its tag is wrong (R412). -/
def State.devPut (s : State) (w : Nat) (iv : Iv) (full : Bool) (a : Nat) (b : Byte) : State :=
  match s.devAddr w a with
  | some p =>
    match (if full then s.fillTile w iv p else (true, s)) with
    | (true, s) => let s := s.takeTile w iv p; { s with hbm := s.hbm.write p b }
    | (false, s) => s
  | none => s

end Sys2Proof.Machine
end

