-- ==== Sys2Proof/Machine/Mmu.lean ====
section
/-! DEFINITION. The device translation unit: PASID contexts (R371, R372), Sv57 and Sv57x4 walks (R374, R375), the
last-level TLB (R376) and page requests (R377). -/

namespace Sys2Proof.Machine

/-- n bytes of host memory at system level, as a number. -/
def State.hostNat (s : State) (a n : Nat) : Nat := natOfBytes (s.hostMem.readN a n)

/-- What one page-table entry at a level means (R374): a leaf, a pointer to the next table, or a failure. -/
inductive Pte where
  | leaf (l : Leaf)
  | next (table : Nat)
  | fail
  deriving DecidableEq, Repr

/-- Reads an entry's bits. `user` heeds U (first stage). Level 0 is the last. -/
def Pte.of (e level : Nat) (user : Bool) : Pte :=
  let v := bitOf e 0
  let r := bitOf e 1
  let w := bitOf e 2
  let x := bitOf e 3
  let u := bitOf e 4
  let a := bitOf e 6
  let d := bitOf e 7
  let ppn := bitsOf e 53 10
  let rsv := bitsOf e 60 54 != 0
  let pbmt := bitsOf e 62 61
  let n := bitOf e 63
  if !v || rsv || (w && !r) then .fail
  else if r || x then
    let bits := 12 + 9 * level
    let napot := n && level == 0 && ppn % 16 == 8
    if !r || !a || (user && !u) || pbmt == 3 || (n && !napot) then .fail
    else if ppn % 2 ^ (9 * level) ≠ 0 then .fail
    else if napot then .leaf ⟨(ppn / 16 * 16) * 4096, 16, w && d, pbmt⟩
    else .leaf ⟨ppn * 4096, bits, w && d, pbmt⟩
  else if (user && u) || a || d || n || pbmt != 0 || level == 0 then .fail
  else .next (ppn * 4096)

/-- How a walk came out: the usable leaf, and the non-leaf entries it went through, each with its level and the table it
points to. -/
structure Walked where
  leaf : Option Leaf
  seen : List (Nat × Nat)
  deriving DecidableEq, Repr

/-- The address of the entry for va in a table whose entries stand at a level. -/
def entryAddr (table level va : Nat) : Nat := table + 8 * (va / 2 ^ (12 + 9 * level) % 512)

/-- A walk from the entry at `ea`, at a level; `via` translates an entry's address (the second stage, R375). -/
def walk (s : State) (via : Nat → Option Nat) (user : Bool) : Nat → Nat → Nat → Nat → Walked
  | 0, _, _, _ => ⟨none, []⟩
  | fuel + 1, level, ea, va =>
    match via ea with
    | none => ⟨none, []⟩
    | some pa =>
      match Pte.of (s.hostNat pa 8) level user with
      | .leaf l => ⟨some l, []⟩
      | .next t =>
        let r := walk s via user fuel (level - 1) (entryAddr t (level - 1) va) va
        { r with seen := (level, t) :: r.seen }
      | .fail => ⟨none, []⟩

/-- The second stage: the leaf for a guest physical address (R375). -/
def State.stage2 (s : State) (g gpa : Nat) : Option Leaf :=
  if 2 ^ 59 ≤ gpa then none else (walk s some false 5 4 (g + 8 * (gpa / 2 ^ 48)) gpa).leaf

/-- A guest physical address as a host physical one, for reading. -/
def State.guest (s : State) (groot : Option Nat) (gpa : Nat) : Option Nat :=
  match groot with
  | none => some gpa
  | some g => (s.stage2 g gpa).map (fun l => l.phys + gpa % 2 ^ l.bits)

/-- The whole walk of R374 and R375 for the 4 KiB page of va, from the root or from a cached non-leaf entry. Where there
is a second stage, both must allow a write, and the first stage's PBMT stands unless it is 0 (log 15). -/
def State.walkPage (s : State) (root : Nat) (groot : Option Nat) (start : Option NonLeaf) (va : Nat) (write : Bool) :
    Walked :=
  let (level, ea) : Nat × Nat := match start with
    | some n => (n.level - 1, entryAddr n.table (n.level - 1) va)
    | none => (4, entryAddr root 4 va)
  if va % 2 ^ 64 / 2 ^ 56 ≠ 0 ∧ va % 2 ^ 64 / 2 ^ 56 ≠ 255 then ⟨none, []⟩
  else
    let r := walk s (s.guest groot) true 5 level ea va
    let leaf : Option Leaf := r.leaf.bind (fun l =>
      match groot with
      | none => some l
      | some g =>
        let gpa := l.phys + va % 2 ^ l.bits / 4096 * 4096
        (s.stage2 g gpa).map (fun m =>
          ⟨(m.phys + gpa % 2 ^ m.bits) / 4096 * 4096, 12, l.write && m.write, if l.pbmt = 0 then m.pbmt else l.pbmt⟩))
    { r with leaf := leaf.filter (fun l => l.write || !write) }

/-- The PASID context p of world w, read from the table (R371, R372); a reserved bit makes it invalid (R11). -/
def State.readContext (s : State) (w p : Nat) : Option (Nat × Option Nat) :=
  let t := (s.world w).pasidtab.toNat
  let size := Nat.min (t % 32) 20
  if !bitOf t 5 || decide (2 ^ size ≤ p) then none
  else
    let c := t / 4096 * 4096 + 16 * p
    let d0 := s.hostNat c 8
    let d1 := s.hostNat (c + 8) 8
    if d0 % 16 ≠ 0xA ∨ bitsOf d0 11 4 ≠ 0 ∨ bitsOf d1 13 4 ≠ 0 then none
    else if d1 % 16 = 0 then some (d0 / 4096 * 4096, none)
    else if d1 % 16 = 0xA then some (d0 / 4096 * 4096, some (d1 / 16384 * 16384))
    else none

/-- The context in use: the one a die has cached, else the table's, then cached (R372, R376). -/
def State.context (s : State) (die w p : Nat) : Option (Nat × Option Nat) × State :=
  match s.pctx.find? (fun c => c.die == die && c.world == w && c.pasid == p) with
  | some c => (some (c.root, c.groot), s)
  | none =>
    match s.readContext w p with
    | some (r, g) => (some (r, g), { s with pctx := ⟨die, w, p, r, g⟩ :: s.pctx })
    | none => (none, s)

/-- The outcome of translating the page of an address (R373). -/
inductive XPage where
  | ok (l : Leaf) (s : State)
  /-- A failed walk, for which a page request is sent. -/
  | miss (s : State)
  /-- A failed walk for which none is sent (R372). -/
  | invalid (s : State)

/-- The entries of a TLB (R376). -/
def tlbSize : Nat := 131072

/-- The translation that a die has cached for va. -/
def State.cached (s : State) (die w p va : Nat) : Option Leaf :=
  (s.tlb.find? (fun e => e.die == die && e.world == w && e.pasid == p && e.range == va / bigPage)).bind (fun e =>
    e.whole.orElse (fun _ => tget e.pages (va / 4096)))

/-- A leaf as the TLB holds it: a 2 MiB range, or a 4 KiB page (R376). -/
def Leaf.piece (l : Leaf) (va : Nat) : Leaf :=
  let bits := if 21 ≤ l.bits then 21 else 12
  { l with phys := l.phys + va % 2 ^ l.bits / 2 ^ bits * 2 ^ bits, bits := bits }

/-- A die caches a leaf, in the place of some other range when the TLB is full (R376). -/
def State.cacheLeaf (s : State) (die w p va : Nat) (l : Leaf) : State :=
  let mine (e : Tlb) : Bool := e.die == die && e.world == w && e.pasid == p && e.range == va / bigPage
  let pages := if l.bits = 21 then [] else
    tset (match s.tlb.find? mine with | some e => e.pages | none => []) (va / 4096) l
  let e : Tlb := ⟨die, w, p, va / bigPage, if l.bits = 21 then some l else none, pages⟩
  let rest := s.tlb.filter (fun e => !mine e)
  let there := rest.filter (fun e => e.die == die)
  match (if there.length < tlbSize then none else s.pick there) with
  | some (out, s) => { s with tlb := e :: rest.erase out }
  | none => { s with tlb := e :: rest }

/-- The non-leaf entries a walk went through are cached (R376). -/
def State.cacheSeen (s : State) (die w p va : Nat) (seen : List (Nat × Nat)) : State :=
  { s with nonLeaf := seen.foldl (fun l e =>
      let n : NonLeaf := ⟨die, w, p, e.1, va / 2 ^ (12 + 9 * e.1), e.2⟩
      if l.contains n then l else n :: l) s.nonLeaf }

/-- Walks for the page of va, from the root or from one of the non-leaf entries cached for it, and caches what it may. -/
def State.walkCached (s : State) (die w p root : Nat) (groot : Option Nat) (va : Nat) (write : Bool) :
    Option Leaf × State :=
  let starts := s.nonLeaf.filter (fun n => n.die == die && n.world == w && n.pasid == p &&
    n.tag == va / 2 ^ (12 + 9 * n.level))
  let (start, s) : Option NonLeaf × State := match s.pick (none :: starts.map some) with
    | some e => e
    | none => (none, s)
  let r := s.walkPage root groot start va write
  let s := s.cacheSeen die w p va r.seen
  match r.leaf with
  | some l => (some (l.piece va), s.cacheLeaf die w p va (l.piece va))
  | none => (none, s)

/-- Translates the page of va. A cached leaf may or may not still be in the TLB (log 15). -/
def State.translatePage (s : State) (die w : Nat) (pasid : Option Nat) (va : Nat) (write : Bool) : XPage :=
  match pasid with
  | none => .invalid s
  | some p =>
    let hit := (s.cached die w p va).filter (fun l => l.write || !write)
    let (n, s) := match hit with | some _ => s.draw | none => (0, s)
    match hit, n % 2 with
    | some l, 0 => .ok l s
    | _, _ =>
      match s.context die w p with
      | (none, s) => .invalid s
      | (some (r, g), s) =>
        match s.walkCached die w p r g va write with
        | (some l, s) => .ok l s
        | (none, s) => .miss s

/-- The outcome of translating every page of a range: the host physical page of each, or the first page that
fails. Accesses to a page with PBMT 1 or 2 bypass CXL.cache (R374). -/
inductive XRange where
  | ok (xl : Frames) (s : State)
  | miss (page : Nat) (s : State)
  | invalid (page : Nat) (s : State)

/-- Translates n 4 KiB pages from page number pg on. -/
def State.translatePages (s : State) (die w : Nat) (pasid : Option Nat) (write : Bool) : Nat → Nat → XRange
  | 0, _ => .ok [] s
  | n + 1, pg =>
    match s.translatePage die w pasid (pg * 4096) write with
    | .ok l s =>
      match State.translatePages s die w pasid write n (pg + 1) with
      | .ok xl s => .ok ((pg, ⟨(l.phys + pg * 4096 % 2 ^ l.bits) / 4096, l.pbmt == 0⟩) :: xl) s
      | r => r
    | .miss s => .miss pg s
    | .invalid s => .invalid pg s

/-- Translates the pages of [a, a + n). -/
def State.translateRange (s : State) (die w : Nat) (pasid : Option Nat) (a n : Nat) (write : Bool) : XRange :=
  s.translatePages die w pasid write ((a + (n - 1)) / 4096 - a / 4096 + 1) (a / 4096)

/-- A failed access joins a page request (R377): one already there with the same or a stronger right, or a new
one, which PAGE_REQUEST will send. Answers the request. -/
def State.joinRequest (s : State) (w : Nat) (pasid : Option Nat) (page : Nat) (read write : Bool) (who : Waiter)
    (addr : Nat) : Nat × State :=
  let p := pasid.getD 0
  match s.pageReqs.find? (fun e => e.2.world == w && e.2.pasid == p && e.2.page == page && (e.2.write || !write) &&
      e.2.answer.isNone) with
  | some (id, r) => (id, { s with pageReqs := tset s.pageReqs id { r with joined := r.joined ++ [(who, addr)] } })
  | none =>
    (s.nextId, { s with
      pageReqs := s.pageReqs ++ [(s.nextId, ⟨w, p, page, read, write, false, 0, [(who, addr)], none⟩)]
      nextId := s.nextId + 1 })

end Sys2Proof.Machine
end

