-- ==== Sys2Proof/Machine/Ops.lean ====
section
/-! DEFINITION. The named operations over memory and registers; the write sets and lookup paths (R182 to R193,
R314 to R316); the command log and records of the device's own (R20, R417); and taking a trap (R244 to R246). -/

namespace Sys2Proof.Machine

/-! Tensor records, as far as a plain access needs them (R209, R211, R212). -/

/-- The record at a, read at device level, with the cache's VERSION and OPEN where it is cached (R209, R322). -/
def State.readRec (s : State) (w a : Nat) : TRec :=
  let d (i : Nat) : Nat := s.devNat w (a + 8 * i) 8
  let c := s.recs.find? (fun c => c.world == w && c.addr == a)
  { version := match c with | some c => c.version | none => BitVec.ofNat 32 (d 0 / 2 ^ 32)
    tid := bitsOf (d 0) 31 16
    opened := match c with | some c => c.opened | none => bitOf (d 0) 11
    conf := bitOf (d 0) 10
    tshape := bitsOf (d 0) 9 8
    baxis := bitOf (d 0) 4
    fmt := bitsOf (d 0) 3 0
    base := d 1
    spbase := d 2
    cols := d 3 / 2 ^ 32
    rows := d 3 % 2 ^ 32
    febase := d 4
    rsv := bitsOf (d 0) 15 12 != 0 || bitsOf (d 0) 7 5 != 0 || d 5 != 0 || d 6 != 0 || d 7 != 0 }

/-- The side of a tile (R209). -/
def TRec.side (r : TRec) : Nat := if r.tshape = 0 then 32 else 64

/-- Bytes of a tile (R46, R210). -/
def TRec.tileBytes (r : TRec) : Nat :=
  let e := r.side * r.side
  match r.fmt with
  | 0 | 7 => e * 4
  | 1 | 2 => e * 2
  | 4 | 6 => e / 2
  | _ => e

/-- Tiles of a tensor. -/
def TRec.tiles (r : TRec) : Nat := (r.rows / r.side) * (r.cols / r.side)

/-- Bit i of the tile-state array (R211). -/
def State.tileBit (s : State) (w febase i : Nat) : Bool := bitOf (s.devByte w (febase + i / 8)).toNat (i % 8)

/-- The CONF record and tile that address a of world w lies in, among the records in the record cache. -/
def State.confTile (s : State) (w a : Nat) : Option (TRec × Nat) :=
  s.recs.findSome? (fun c =>
    if c.world = w then
      let r := s.readRec w c.addr
      if r.conf && decide (r.base ≤ a) && decide (a < r.base + r.tiles * r.tileBytes) then
        some (r, (a - r.base) / r.tileBytes)
      else none
    else none)

/-- How the L2 tile at address a of a CONF record's tile t is encrypted (R411, R412). -/
def TRec.ivAt (r : TRec) (t a : Nat) : Iv :=
  let o := a / 512 * 512 - r.base
  .ctr r.tid r.version t (o % r.tileBytes / 16) (o / 512)

/-- How the L2 tile of address a of world w is encrypted (R411), and whether it holds anything: a tile whose W is 0 does
not (R212). -/
def State.ivOf (s : State) (w a : Nat) : Iv × Bool :=
  match s.confTile w a with
  | some (r, t) => (r.ivAt t a, s.tileBit w r.febase (2 * t + 1))
  | none => (.xts (a / 512 * 512), true)

/-- The lowest byte of [a, a + n) in a CONF tile, which no thread or team may write (R212). -/
def State.refused (s : State) (w a n : Nat) : Option Nat :=
  ((List.range n).map (fun i => a + i)).find? (fun b => (s.confTile w b).isSome)

/-- The lowest byte of [a, a + n) in a read-only page (R19, R274). -/
def State.sealedByte (s : State) (w a n : Nat) : Option Nat :=
  ((List.range n).map (fun i => a + i)).find? (fun b => s.readOnly w b)

/-- The same for an address of a record's tiles. -/
def State.ivIn (s : State) (w : Nat) (r : TRec) (a : Nat) : Iv × Bool :=
  let t := (a - r.base) / r.tileBytes
  (r.ivAt t a, s.tileBit w r.febase (2 * t + 1))

/-- One byte of device memory, which lies encrypted as given and holds something or not. -/
def State.readBy (s : State) (w : Nat) (iv : Iv × Bool) (a : Nat) : Byte :=
  match s.devAddr w a with
  | some p => if iv.2 then s.openByte w iv.1 p else 0
  | none => 0

/-- A read of one byte of device memory: a CONF tile whose W is 0 reads zero (R212). -/
def State.devRead (s : State) (w a : Nat) : Byte := s.readBy w (s.ivOf w a) a

/-- n bytes of device memory, so read; and the little-endian number that they are (R6). -/
def State.devReads (s : State) (w a n : Nat) : List Byte := (List.range n).map (fun i => s.devRead w (a + i))
def State.readNat (s : State) (w a n : Nat) : Nat := natOfBytes (s.devReads w a n)

/-- The L2 tiles of [a, a + n), encrypted as given, are filled (R412), but for tiles that read as zero (R212). -/
def State.fillBy (s : State) (w : Nat) (iv : Nat → Iv × Bool) (a n : Nat) : Bool × State :=
  if (s.keys w).isNone then (true, s)
  else (List.range ((a + (n - 1)) / 512 - a / 512 + 1)).foldl (fun (e : Bool × State) i =>
    let b := (a / 512 + i) * 512
    match e.2.devAddr w b with
    | some p => if e.1 && (iv b).2 then e.2.fillTile w (iv b).1 p else e
    | none => e) (true, s)

/-- The same, encrypted as they are by now. -/
def State.fill (s : State) (w a n : Nat) : Bool × State := s.fillBy w (s.ivOf w) a n

/-- What the device reads of a world at [a, a + n) for an event comes out of its tiles, which are filled (R412); a wrong tag
ends the event there. -/
def State.captured (s : State) (w a n : Nat) (f : State → State) : Host.Outcome State Fault Refusal :=
  match s.fill w a n with
  | (true, s) => .next (f s)
  | (false, s) => .next s

/-- Writes a byte of device memory and nothing else. -/
def State.devRaw (s : State) (w a : Nat) (b : Byte) : State :=
  s.devPut w (s.ivOf w a).1 (s.ivOf w a).2 a b

/-- The same for bytes from an address on. -/
def State.devRaws (s : State) (w : Nat) : Nat → List Byte → State
  | _, [] => s
  | a, b :: l => State.devRaws (s.devRaw w a b) w (a + 1) l

/-! Placements at device level. -/

/-- A byte comes to lie in device memory: a line the host may hold is snooped (R385). -/
def State.devLay (s : State) (w a : Nat) (b : Byte) : State :=
  let s := s.devRaw w a b
  if s.shared.any (fun e => e.world == w && e.line == a / 64 && !e.snooped) then
    { s with
      shared := s.shared.map (fun e => if e.world = w ∧ e.line = a / 64 then { e with snooped := true } else e)
      outbox := s.outbox ++ [.bisnp w (a / 64)] }
  else s

/-- The same for bytes from an address on. -/
def State.devLays (s : State) (w : Nat) : Nat → List Byte → State
  | _, [] => s
  | a, b :: l => State.devLays (s.devLay w a b) w (a + 1) l

/-- The first placement into a window's tile after a publication copies the tile to HIST (R388), once it is filled (R412). -/
def State.histCopy (s : State) (w a : Nat) : State :=
  if (s.world w).windows.any (fun x => x.opened) then
    (List.range 16).foldl (fun s i =>
      let x := ((s.world w).windows[i]?).getD Window64.reset
      let t := (a - x.base.toNat) / 512
      if x.opened && decide (x.base.toNat ≤ a) && decide (a < x.base.toNat + x.len.toNat) &&
          !(s.world w).hist.contains (i, t) then
        match s.fill w (x.base.toNat + 512 * t) 512 with
        | (true, s) =>
          (s.devLays w (x.hist.toNat + 512 * t)
            ((List.range 512).map (fun j => s.devRead w (x.base.toNat + 512 * t + j)))).setWorld w
            (fun y => { y with hist := (i, t) :: y.hist })
        | (false, s) => s
      else s) s
  else s

/-- A device-level placement of one byte of device memory, whatever it holds. -/
def State.devPoke (s : State) (w a : Nat) (b : Byte) : State := (s.histCopy w a).devLay w a b

/-- The same for bytes from an address on. -/
def State.devPokes (s : State) (w : Nat) : Nat → List Byte → State
  | _, [] => s
  | a, b :: l => State.devPokes (s.devPoke w a b) w (a + 1) l

/-- Where world w's open windows show the byte of HBM at p (R387). -/
def State.shownAt (s : State) (w p : Nat) : List Nat :=
  ((s.world w).windows.toList.filter (fun x => x.opened)).flatMap (fun x =>
    let lo := x.base.toNat / bigPage
    let pages := (List.range ((x.base.toNat + (x.len.toNat - 1)) / bigPage - lo + 1)).map (lo + ·)
    (pages.filter (fun g => s.devAddr w (g * bigPage) == some (p / bigPage * bigPage))).map
      (fun g => g * bigPage + p % bigPage))

/-- The device itself places bytes in HBM, by package address (R405, R417): a tile of a window is copied to HIST before (R323,
R388). -/
def State.ownRaws (s : State) : Nat → List Byte → State
  | _, [] => s
  | p, b :: l =>
    let s := s.worlds.foldl (fun s e => (s.shownAt e.1 p).foldl (fun s a => s.histCopy e.1 a) s) s
    State.ownRaws (s.rawWrites p [b]) (p + 1) l

/-- A device agent's write of one byte at home: a read-only byte is left as it is (log 14). -/
def State.devWrite (s : State) (w a : Nat) (b : Byte) : State :=
  if s.readOnly w a then s else s.devPoke w a b

/-- The same for bytes from an address on. -/
def State.devWrites (s : State) (w : Nat) : Nat → List Byte → State
  | _, [] => s
  | a, b :: l => State.devWrites (s.devWrite w a b) w (a + 1) l

/-- Sets bit i of the tile-state array. -/
def State.setTileBit (s : State) (w febase i : Nat) (v : Bool) : State :=
  let b := (s.devByte w (febase + i / 8)).toNat
  let m := 2 ^ (i % 8)
  s.devPoke w (febase + i / 8) (BitVec.ofNat 8 (if v then b ||| m else b &&& (255 - m)))

/-! Teams, waves and their sets. -/

/-- The key of a thread. -/
def tkey (team tid : Nat) : Nat := team * 8192 + tid

/-- The key of a wave. -/
def wkey (team wave : Nat) : Nat := team * 256 + wave

/-- The place of a byte in a set: its space and address. -/
def skey (sp : Space) (a : Nat) : Nat :=
  (match sp with | .loc => 0 | .near => 1 | .col => 2 | .dev => 3 | .host => 4) * 2 ^ 64 + a

/-- The space of a set's byte. -/
def spaceOf (key : Nat) : Space :=
  match key / 2 ^ 64 with
  | 0 => .loc | 1 => .near | 2 => .col | 3 => .dev | _ => .host

/-- The address of a set's byte. -/
def addrOf (key : Nat) : Nat := key % 2 ^ 64

def State.thread (s : State) (team tid : Nat) : Option Thread := tget s.threads (tkey team tid)

def State.wave (s : State) (team wave : Nat) : Wave := (tget s.waves (wkey team wave)).getD ⟨[], [], []⟩

/-- Changes a wave. -/
def State.setWave (s : State) (team wave : Nat) (w : Wave) : State :=
  { s with waves := tset s.waves (wkey team wave) w }

/-- Changes a thread. -/
def State.modThread (s : State) (team tid : Nat) (f : Thread → Thread) : State :=
  { s with threads := tmod s.threads (tkey team tid) f }

/-- Changes a team. -/
def State.modTeam (s : State) (team : Nat) (f : Team → Team) : State := { s with teams := tmod s.teams team f }

/-- Changes a cluster. -/
def State.modCluster (s : State) (c : Nat) (f : Cluster → Cluster) : State :=
  { s with clusters := tmod s.clusters c f }

/-- Changes a launch. -/
def State.modLaunch (s : State) (l : Nat) (f : Launch → Launch) : State :=
  { s with launches := tmod s.launches l f }

/-- Thread indices of a team's live threads. -/
def State.liveTids (s : State) (team : Nat) : List Nat :=
  s.threads.filterMap (fun e => if e.1 / 8192 = team then some (e.1 % 8192) else none)

/-- How many threads of the team are live. -/
def State.liveCount (s : State) (team : Nat) : Nat := (s.liveTids team).length

/-- The live threads of a wave. -/
def State.waveTids (s : State) (team wave : Nat) : List Nat :=
  (s.liveTids team).filter (fun t => t / 32 == wave)

/-- Everything a team belongs to. -/
structure Place where
  team : Team
  cluster : Cluster
  launch : Launch
  image : Image
  deriving DecidableEq, Repr

/-- The sealed image of a launch. -/
def State.imageOf (s : State) (l : Launch) : Option Image :=
  (s.images.find? (fun e => e.2.world == l.world && e.2.tenant == l.tenant && e.2.id == l.image &&
    (e.2.state == .sealed || e.2.state == .revoking))).map (·.2)

/-- The effective team-set capacity in sectors (R95, R96). -/
def Image.teamCap (i : Image) : Nat :=
  (if i.tmset = 0 then Nat.min 262144 (2048 * ((i.threads + 31) / 32)) else i.tmset) / 32

/-- The effective cluster-set capacity in sectors, with TPC teams a cluster (R95, R96). -/
def Image.clusterCap (i : Image) (tpc : Nat) : Nat :=
  if i.clset = 0 then Nat.min 262144 (tpc * i.teamCap) else i.clset / 32

/-- Where a team stands. -/
def State.place (s : State) (team : Nat) : Option Place := do
  let t ← tget s.teams team
  let c ← tget s.clusters t.cluster
  let l ← tget s.launches t.launch
  let i ← s.imageOf l
  pure ⟨t, c, l, i⟩

/-- The core that holds a thread's state (R30). -/
def Team.coreOf (t : Team) (cap tid : Nat) : Nat :=
  let n := t.cores.length
  let w := (cap + 31) / 32
  (t.cores.getD ((List.range n).findIdx (fun j => decide (tid / 32 < (j + 1) * w / n))) (t.cores.headD 0))

/-- The home core. -/
def Team.home (t : Team) : Nat := t.cores.headD 0

/-! Home level. -/

/-- The physical address of a byte, in the pages an access has. -/
def Frames.phys (xl : Frames) (a : Nat) : Option Nat := (xl.lookup (a / 4096)).map (fun f => f.page * 4096 + a % 4096)

/-- The byte at its home; `xl` holds the access's pages (R373, R380). -/
def State.homeByte (s : State) (p : Place) (sp : Space) (a : Nat) (xl : Frames) : Byte :=
  match sp with
  | .loc => 0
  | .near => match tget s.clusters p.team.cluster with | some c => c.near.read a | none => 0
  | .col => match tget s.clusters p.team.cluster with | some c => c.col.read a | none => 0
  | .dev =>
    match xl.phys a with
    | some pa => s.openByte p.launch.world (.xts (a / 512 * 512)) pa
    | none => s.devRead p.launch.world a
  | .host => match xl.phys a with | some pa => s.hostMem.read pa | none => 0

/-- A cluster has placed a byte in a line the host may hold (R385): COMMIT.d waits for its BIRsp. -/
def State.placedBy (s : State) (w cluster a : Nat) : State :=
  { s with shared := s.shared.map (fun e =>
      if e.world = w ∧ e.line = a / 64 ∧ !e.clusters.contains cluster then
        { e with clusters := cluster :: e.clusters } else e) }

/-- The same for the lines of [a, a + n). -/
def State.placedLines (s : State) (w cluster a n : Nat) : State :=
  (List.range ((a + (n - 1)) / 64 - a / 64 + 1)).foldl (fun s i => s.placedBy w cluster ((a / 64 + i) * 64)) s

/-- The lines of a port's filter (R382). -/
def filterSize : Nat := 524288

/-- A slice comes to hold the host line of a physical address for a context of world w, which may be about to write it. A line
not held yet is allocated in its port's filter, out of which the line allocated first goes when it is full (R382). -/
def State.touchHost (s : State) (w pa : Nat) (write : Bool) (ctx : Option Nat) : State :=
  let n := pa / 64
  let now := if write then s.hostMem.readN (n * 64) 64 else []
  if s.hostLines.any (fun e => e.line == n) then
    if write then { s with hostLines := s.hostLines.map (fun e =>
      if e.line = n then ⟨n, true, ctx, w, if e.dirty then e.behind else now⟩ else e) } else s
  else
    let mine := s.hostLines.filter (fun e => Config.hostPort e.line == Config.hostPort n)
    let kept := if mine.length < filterSize then s.hostLines else
      match mine.head? with | some e => s.hostLines.erase e | none => s.hostLines
    { s with hostLines := kept ++ [⟨n, write, if write then ctx else none, w, now⟩] }

/-- The host lines tagged with world w go, and what was dirty in them with them (R414). -/
def State.dropLines (s : State) (w : Nat) : State :=
  { s with
    hostMem := (s.hostLines.filter (fun e => e.world == w && e.dirty)).foldl (fun m e => m.writeN (e.line * 64) e.behind) s.hostMem
    hostLines := s.hostLines.filter (fun e => e.world != w) }

/-- The key of the context that a launch runs in. -/
def Launch.ctx (l : Launch) : Nat := l.part * 16 + l.slot

/-- The host lines of [a, a + n), as translated, but for pages that bypass CXL.cache (R374). -/
def State.touchRange (s : State) (w : Nat) (xl : Frames) (a n : Nat) (write : Bool) (ctx : Option Nat) : State :=
  (List.range ((a + (n - 1)) / 64 - a / 64 + 1)).foldl (fun s i =>
    let b := (a / 64 + i) * 64
    match xl.lookup (b / 4096) with
    | some f => if f.cached then s.touchHost w (f.page * 4096 + b % 4096) write ctx else s
    | none => s) s

/-- Writes a byte of host memory, as translated, for a context of world w. -/
def State.hostWrite (s : State) (w : Nat) (xl : Frames) (ctx : Option Nat) (a : Nat) (b : Byte) : State :=
  match xl.phys a with
  | some pa => let s := s.touchRange w xl a 1 true ctx; { s with hostMem := s.hostMem.write pa b }
  | none => s

/-- Writes a byte at its home. -/
def State.homeWrite (s : State) (p : Place) (sp : Space) (a : Nat) (b : Byte) (xl : Frames) : State :=
  match sp with
  | .loc => s
  | .near => s.modCluster p.team.cluster (fun c => { c with near := c.near.write a b })
  | .col => s.modCluster p.team.cluster (fun c => { c with col := c.col.write a b })
  | .dev =>
    match xl.phys a with
    | some pa =>
      let s := s.takeTile p.launch.world (.xts (a / 512 * 512)) pa
      { s with hbm := s.hbm.write pa b }
    | none => (s.devWrite p.launch.world a b).placedBy p.launch.world p.team.cluster a
  | .host => s.hostWrite p.launch.world xl (some p.launch.ctx) a b

/-- Writes bytes at home from an address on. -/
def State.homeWrites (s : State) (p : Place) (sp : Space) (xl : Frames) : Nat → List Byte → State
  | _, [] => s
  | a, b :: l => State.homeWrites (s.homeWrite p sp a b xl) p sp xl (a + 1) l

/-! Sets (R182, R188, R189). Cells are kept in rising key order. -/

/-- The byte a wave set holds. -/
def wcell (l : List WCell) (k : Nat) : Option Byte := (l.find? (fun c => c.key == k)).map (·.byte)

/-- The byte a team or cluster set holds. -/
def scell (l : List SCell) (k : Nat) : Option Byte := (l.find? (fun c => c.key == k)).map (·.byte)

/-- A store's byte enters a wave set, replacing the byte held there (R182). -/
def wput (k : Nat) (b : Byte) (tid : Nat) : List WCell → List WCell
  | [] => [⟨k, b, tid, none⟩]
  | c :: r =>
    if k < c.key then ⟨k, b, tid, none⟩ :: c :: r
    else if k = c.key then ⟨k, b, tid, none⟩ :: r
    else c :: wput k b tid r

/-- A byte enters a team or cluster set; `m` is its merger, none for an atomic's byte (R189). -/
def sput (k : Nat) (b : Byte) (m : Option Nat) : List SCell → List SCell
  | [] => [⟨k, b, m.toList⟩]
  | c :: r =>
    if k < c.key then ⟨k, b, m.toList⟩ :: c :: r
    else if k = c.key then
      ⟨k, b, match m with | some x => if c.mergers.contains x then c.mergers else x :: c.mergers | none => c.mergers⟩ :: r
    else c :: sput k b m r

/-- The 32-byte sectors that keys in rising order touch. -/
def sectors : List Nat → Nat
  | [] => 0
  | [_] => 1
  | a :: b :: r => (if a / 32 = b / 32 then 0 else 1) + sectors (b :: r)

/-- Sectors of a team or cluster set. -/
def setSectors (l : List SCell) : Nat := sectors (l.map (·.key))

/-- Sectors of a team's wave sets and its team set, which share TMSET (R182). -/
def State.teamSectors (s : State) (team : Nat) : Nat :=
  (s.waves.foldl (fun n e => if e.1 / 256 = team then n + sectors (e.2.cells.map (·.key)) else n) 0) +
    (match tget s.teams team with | some t => setSectors t.set | none => 0)

/-- The sets of the lookup path of R184 and R186, for one byte: the agent's wave set, the team set, and the cluster set
for device and host bytes; `lv` starts the path at a higher level (R193). -/
def State.setByte (s : State) (p : Place) (a : Agent) (lv : Lv) (sp : Space) (addr : Nat) : Option Byte :=
  let k := skey sp addr
  let own :=
    match lv, a with
    | .w, .thread team tid => wcell (s.wave team (tid / 32)).cells k
    | _, _ => none
  let team := match a with | .thread t _ => t | .uniform t => t
  let tset' :=
    match lv with
    | .w | .t => (tget s.teams team).bind (fun t => scell t.set k)
    | _ => none
  let cset :=
    match lv with
    | .w | .t | .c =>
      if sp = .dev || sp = .host then (tget s.clusters p.team.cluster).bind (fun c => scell c.set k) else none
    | _ => none
  own.orElse (fun _ => tset'.orElse (fun _ => cset))

/-- The lookup path for one byte: the sets, then home. -/
def State.lookup (s : State) (p : Place) (a : Agent) (lv : Lv) (sp : Space) (addr : Nat) (xl : Frames) : Byte :=
  (s.setByte p a lv sp addr).getD (s.homeByte p sp addr xl)

/-! Lines of device memory that the host may hold (R385). -/

/-- A line of [a, a + n) may be held by the host. -/
def State.hostMay (s : State) (w a n : Nat) : Bool :=
  s.shared.any (fun e => e.world == w && decide (a / 64 ≤ e.line) && decide (e.line ≤ (a + (n - 1)) / 64))

/-- Back-invalidates the lines of [a, a + n) that the host may hold. -/
def State.snoopLines (s : State) (w a n : Nat) : State :=
  let mine (e : SharedLine) : Bool :=
    e.world == w && decide (a / 64 ≤ e.line) && decide (e.line ≤ (a + (n - 1)) / 64) && !e.snooped
  { s with
    shared := s.shared.map (fun e => if mine e then { e with snooped := true } else e)
    outbox := s.outbox ++ (s.shared.filter mine).map (fun e => .bisnp w e.line) }

/-! Accesses under way (R318). -/

/-- The range of an access under way, if it is one. -/
def PendKind.range : PendKind → Option (Space × Nat × Nat)
  | .ready _ | .lost _ => none
  | .load sp a n _ _ _ _ => some (sp, a, n)
  | .atomic sp a _ _ t _ _ => some (sp, a, t.bytes)

/-- The agents of an access under way. -/
def Pend.agents (p : Pend) : List Agent :=
  match p.kind with
  | .atomic _ _ _ _ _ lanes _ => lanes.map (·.agent)
  | .lost l => l
  | _ => [p.agent]

/-- Two ranges share a byte. -/
def meets (a n b m : Nat) : Bool := decide (a < b + m) && decide (b < a + n)

/-- One of the accesses listed, by the agent, touches a byte of [a, a + n) (R318). -/
def overlaps (l : List (Nat × Pend)) (ag : Agent) (sp : Space) (a n : Nat) : Bool :=
  l.any (fun e =>
    match e.2.kind.range with
    | some (sp', b, m) => sp' == sp && meets a n b m && e.2.agents.contains ag
    | none => false)

/-! Waiting on engine claims and migration locks (R184, R325, R333). -/

/-- A 512-byte tile of world w is claimed by a copy request or a drain that f names. -/
def State.claimedIf (s : State) (w tile : Nat) (f : Nat → Bool) : Bool :=
  let mine (team : Nat) : Bool := match s.place team with | some p => p.launch.world == w | none => false
  s.copies.any (fun e => f e.1 && e.2.world == w && e.2.claims.contains tile) ||
    s.bankOps.any (fun e => f e.1 &&
      (match e.2.kind with
       | .qst d => d.claims.contains tile && mine e.2.team
       | _ => false)) ||
    s.drains.any (fun e => f e.1 && e.2.drain.claims.contains tile && mine e.2.team)

/-- A 512-byte tile of world w is claimed by a copy request or a drain. -/
def State.claimed (s : State) (w tile : Nat) : Bool := s.claimedIf w tile (fun _ => true)

/-- A tile is claimed by a request or drain other than `id`, or, with `before`, by an earlier one (R333). -/
def State.claimedBy (s : State) (w tile id : Nat) (before : Bool) : Bool :=
  s.claimedIf w tile (fun i => if before then decide (i < id) else i != id)

/-- A byte of the range [a, a + n) of device memory lies in a claimed tile. -/
def State.claimedRange (s : State) (w a n : Nat) : Bool :=
  (List.range ((a + (n - 1)) / 512 - a / 512 + 1)).any (fun i => s.claimed w (a / 512 + i))

/-- A write of [a, a + n), or an engine write to the tensor of record `ra`, is one that the world's migration holds back,
or has held back: it touches the page being moved (R325), or its record is the one being moved (R326). -/
def Migration.holds (m : Migration) (a n ra : Nat) : Bool :=
  if m.amode then ra != 0 && ra == m.asrc
  else a / bigPage == m.asrc / bigPage || (a + (n - 1)) / bigPage == m.asrc / bigPage

/-- Where a placement in [a, a + n) makes tiles of world w's open windows be copied to HIST (R388): address and length. -/
def State.histRanges (s : State) (w a n : Nat) : List (Nat × Nat) :=
  (s.world w).windows.toList.zipIdx.flatMap (fun e =>
    let b := e.1.base.toNat
    if !e.1.opened || decide (a + n ≤ b) || decide (b + e.1.len.toNat ≤ a) then []
    else
      ((List.range ((a + (n - 1) - b) / 512 - (a - b) / 512 + 1)).filter (fun i =>
        !(s.world w).hist.contains (e.2, (a - b) / 512 + i))).map
          (fun i => (e.1.hist.toNat + 512 * ((a - b) / 512 + i), 512)))

/-- A write may be made now: nothing holds it, or what it makes be copied to HIST, back, and it is the first of those that waited
(R325, R326). -/
def State.mayWrite (s : State) (w : Nat) (who : Writer) (a n ra : Nat) : Bool :=
  let m := (s.world w).mig
  !((m.active == 1 || !m.waiting.isEmpty) &&
      (m.holds a n ra || (s.histRanges w a n).any (fun e => m.holds e.1 e.2 0))) ||
    (m.active != 1 && (match m.waiting with | [] => true | h :: _ => h == who))

/-- Who may not write yet waits behind those who came before. -/
def State.queueWriter (s : State) (w : Nat) (who : Writer) : State :=
  if (s.world w).mig.waiting.contains who then s
  else s.setWorld w (fun x => { x with mig := { x.mig with waiting := x.mig.waiting ++ [who] } })

/-- It has written, and waits no more. -/
def State.wrote (s : State) (w : Nat) (who : Writer) : State :=
  if (s.world w).mig.waiting.contains who then
    s.setWorld w (fun x => { x with mig := { x.mig with waiting := x.mig.waiting.filter (· != who) } })
  else s

/-! The command log (R417). -/

/-- The log has room for n units of 64 bytes, or is off. -/
def State.logRoom (s : State) (w n : Nat) : Bool :=
  let x := s.world w
  !x.log || decide ((x.loghead - x.logtail).toNat + n ≤ x.logsize.toNat)

/-- The units of a record with a payload of n bytes. -/
def logUnits (n : Nat) : Nat := 1 + (n + 63) / 64

/-- Writes a unit of 64 bytes at the log's head, which lies at a package address. -/
def State.logUnit (s : State) (w : Nat) (b : List Byte) : State :=
  let x := s.world w
  if x.logsize = 0 then s
  else
    let a := x.logbase.toNat + 64 * (x.loghead.toNat % x.logsize.toNat)
    State.setWorld (s.ownRaws a (b ++ List.replicate (64 - b.length) 0)) w
      (fun x => { x with loghead := x.loghead + 1 })

/-- Appends a record. -/
def State.logRecord (s : State) (w kind : Nat) (payload : List Byte) : State :=
  if !(s.world w).log then s
  else
    let s := s.logUnit w (bytesOfNat 8 (kind + 2 ^ 32 * payload.length))
    (List.range ((payload.length + 63) / 64)).foldl (fun s i => s.logUnit w ((payload.drop (64 * i)).take 64)) s

/-! Records of the device's own (R20, R325, R417; log 14). -/

/-- Where such a record of world w lies, and its length: a trap record in the next slot of the fault ring (R246). -/
def State.ownAt (s : State) (w : Nat) : OwnRecord → Nat × Nat
  | .completion a _ _ => (a, 32)
  | .verdict a _ => (a, 64)
  | .trap _ => ((s.world w).frbase.toNat + 64 * ((s.world w).frindex % (s.world w).frslots), 64)

/-- Bytes come to lie at a, their first doubleword last (R20). -/
def State.statusLast (s : State) (w a : Nat) (b : List Byte) : State :=
  (s.devPokes w (a + 8) (b.drop 8)).devPokes w a (b.take 8)

/-- A trap record is dropped (R246). -/
def State.dropRecord (s : State) (w : Nat) : State :=
  s.setWorld w (fun x => { x with frdrop := Nat.min (x.frdrop + 1) 0xFFFF })

/-- The world time that a completion record has: that of the log which is replayed (R418), else what it is by now. -/
def State.recordTime (s : State) (w : Nat) : Nat × State :=
  match (s.world w).replay with
  | t :: r => (t, s.setWorld w (fun x => { x with replay := r }))
  | [] => s.readTime w

/-- Writes such a record: a completion record with the world time, and with its entry in the command log (R417); a trap record
with the count of those dropped, or it is dropped itself (R246). -/
def State.writeOwn (s : State) (w : Nat) (r : OwnRecord) : State :=
  let a := (s.ownAt w r).1
  match r with
  | .completion _ head tail =>
    let (time, s) := s.recordTime w
    let b := head ++ bytesOfNat 8 time ++ tail
    (s.statusLast w a b).logRecord w 5 b
  | .verdict _ b => s.statusLast w a b
  | .trap b =>
    if (s.world w).frslots = 0 || s.devNat w a 8 != 0 then s.dropRecord w
    else
      let d := bytesOfNat 8 (natOfBytes (b.take 8) + 2 ^ 16 * (s.world w).frdrop)
      (s.devPokes w a (d ++ b.drop 8)).setWorld w (fun x => { x with frindex := x.frindex + 1, frdrop := 0 })

/-- Two such records are of one order: those of one kind are written as they arise (R246, R417). -/
def OwnRecord.follows : OwnRecord → OwnRecord → Bool
  | .completion .., .completion .. | .verdict .., .verdict .. | .trap _, .trap _ => true
  | _, _ => false

/-- The record's turn has come: none of its kind comes before it, and the command log has room for its entry (R417). -/
def State.ownTurn (s : State) (w id : Nat) (r : OwnRecord) : Bool :=
  !s.dues.any (fun e => decide (e.1 < id) && e.2.world == w && e.2.record.follows r) &&
    (match r with | .completion .. => s.logRoom w (logUnits 32) | _ => true)

/-- Its page is not being moved (R325). -/
def State.ownFree (s : State) (w id : Nat) (r : OwnRecord) : Bool :=
  s.mayWrite w (.device id) (s.ownAt w r).1 (s.ownAt w r).2 0

/-- In its turn it waits behind those that wait to write its page (R325). -/
def State.queueOwn (s : State) (w id : Nat) (r : OwnRecord) : State :=
  if s.ownTurn w id r && !s.ownFree w id r then s.queueWriter w (.device id) else s

/-- The device writes a record of its own, or will as soon as it may. -/
def State.own (s : State) (w : Nat) (r : OwnRecord) : State :=
  let id := s.nextId
  if s.ownTurn w id r && s.ownFree w id r then s.writeOwn w r
  else State.queueOwn { s with nextId := id + 1, dues := s.dues ++ [(id, ⟨w, r⟩)] } w id r

/-- Records that had to wait are written as soon as they may be. -/
def State.settleDues (s : State) : State :=
  s.dues.foldl (fun s e =>
    let w := e.2.world
    if s.ownTurn w e.1 e.2.record && s.ownFree w e.1 e.2.record then
      (State.wrote { s with dues := tdel s.dues e.1 } w (.device e.1)).writeOwn w e.2.record
    else s.queueOwn w e.1 e.2.record) s

/-! L2-port tokens (R357). -/

/-- The octet of a core (R23). -/
def octetOf (core : Nat) : Nat := core / 8

/-- The context slot of a launch. -/
def State.slotOf (s : State) (l : Launch) : Slot := s.slot l.part l.slot

/-- A context's bucket at a port, and its key. -/
def bucketKey (part slot port : Nat) : Nat := (part * 16 + slot) * 64 + port

/-- What waits at a port is still there: an access, a copy request, a drain, a pass or a team. -/
def State.stands (s : State) (id : Nat) : Bool :=
  s.pends.any (·.1 == id) || s.copies.any (·.1 == id) || s.drains.any (·.1 == id) || s.passes.any (·.1 == id) ||
    s.teams.any (·.1 == id)

/-- An access of n sectors takes its tokens, if there are enough and none waits before it; else it waits (R357). -/
def State.takeTokens (s : State) (p : Place) (core n who : Nat) : Bool × State :=
  let l := p.launch
  if (s.slotOf l).rate = 0 then (true, s)
  else
    let port := octetOf core
    let k := bucketKey l.part l.slot port
    let b := (tget s.buckets k).getD ⟨0, 0, 0, []⟩
    let pool := (tget s.pools (l.part * 64 + port)).getD 0
    let line := b.waiters.filter s.stands
    let first : Bool := match line.head? with | none => true | some h => h == who
    let rest := line.filter (· != who)
    if first ∧ n ≤ b.tokens then
      (true, { s with buckets := tset s.buckets k { b with tokens := b.tokens - n, waiters := rest } })
    else if first ∧ n ≤ pool ∧ b.borrowed + n ≤ (s.part l.part).blim then
      (true, { s with
        buckets := tset s.buckets k { b with borrowed := b.borrowed + n, waiters := rest }
        pools := tset s.pools (l.part * 64 + port) (pool - n) })
    else
      (false, { s with buckets := tset s.buckets k { b with
        waiters := if line.contains who then line else line ++ [who] } })

/-- Accesses of so many sectors each take their tokens in turn, as far as there are enough: answers how many have theirs. -/
def State.gatherTokens (s : State) (p : Place) (core who : Nat) : List Nat → Nat × State
  | [] => (0, s)
  | n :: l =>
    match s.takeTokens p core n who with
    | (true, s) => let (k, s) := State.gatherTokens s p core who l; (k + 1, s)
    | (false, s) => (0, s)

/-- The 32-byte sectors of [a, a + n). -/
def sectorsOf (a n : Nat) : Nat := (a + (n - 1)) / 32 - a / 32 + 1

/-- The accesses of [a, a + n), one for each L2 tile, by their sectors: at most 16 each (R357). -/
def accessesOf (a n : Nat) : List Nat :=
  (List.range ((a + (n - 1)) / 512 - a / 512 + 1)).map (fun i =>
    let lo := Nat.max a ((a / 512 + i) * 512)
    sectorsOf lo (Nat.min (a + n) ((a / 512 + i + 1) * 512) - lo))

/-- The accesses of a set's bytes, one for each L2 tile, by their sectors. -/
def setAccesses (l : List SCell) : List Nat :=
  let secs := (l.map (fun c => c.key / 32)).eraseDups
  ((secs.map (· / 16)).eraseDups).map (fun t => (secs.filter (fun x => x / 16 == t)).length)

/-! Registers of a lane. -/

/-- No registers: the parts of a View an agent does not have. -/
def zeroWindow : Window where
  x := Vector.replicate 64 0
  k := Vector.replicate 7 false
  o := Vector.replicate 8 0
  y := Vector.replicate 2 0
  wroteX := 0
  wroteK := 0

/-- What an agent's instruction reads and writes. -/
def State.view (s : State) (a : Agent) : View :=
  match a with
  | .thread team tid =>
    let w := match s.thread team tid with | some t => t.win | none => zeroWindow
    let u := match tget s.teams team with | some t => t.s | none => Vector.replicate 1024 0
    ⟨w.x, w.k, w.o, w.y, u⟩
  | .uniform team =>
    match tget s.teams team with
    | some t => ⟨zeroWindow.x, zeroWindow.k, t.uo, t.uy, t.s⟩
    | none => ⟨zeroWindow.x, zeroWindow.k, zeroWindow.o, zeroWindow.y, Vector.replicate 1024 0⟩

/-- Reads one register; anything outside a file reads zero. -/
def View.reg (v : View) : Reg → Word
  | .x r => (v.x[r]?).getD 0
  | .k r => BitVec.ofNat 32 (natOfBool ((v.k[r]?).getD true))
  | .o r => (v.o[r]?).getD 0
  | .y r => (v.y[r]?).getD 0
  | .s r => (v.s[r]?).getD 0
  | .e _ => 0

/-- A condition register; k7 reads true (R76). -/
def View.kreg (v : View) (r : Nat) : Bool := (v.k[r]?).getD true

/-- Writes one register in a window, recording that the block wrote it (R287). -/
def Window.put (w : Window) (r : Reg) (v : Word) : Window :=
  match r with
  | .x i => { w with x := w.x.setIfInBounds i v, wroteX := w.wroteX ||| (1#64 <<< i) }
  | .k i => { w with k := w.k.setIfInBounds i (v != 0), wroteK := w.wroteK ||| (1#7 <<< i) }
  | .o i => { w with o := w.o.setIfInBounds i v }
  | .y i => { w with y := w.y.setIfInBounds i v }
  | _ => w

/-- Writes one of a team's registers. -/
def Team.put (t : Team) (r : Reg) (v : Word) : Team :=
  match r with
  | .o i => { t with uo := t.uo.setIfInBounds i v }
  | .y i => { t with uy := t.uy.setIfInBounds i v }
  | .s i => { t with s := t.s.setIfInBounds i v }
  | .e i => { t with res := t.res.setIfInBounds i v }
  | _ => t

/-- Writes one register of an agent. -/
def State.putReg (s : State) (a : Agent) (r : Reg) (v : Word) : State :=
  match a with
  | .thread team tid => s.modThread team tid (fun t => { t with win := t.win.put r v })
  | .uniform team => s.modTeam team (fun t => t.put r v)

/-- Writes several registers of an agent. -/
def State.putRegs (s : State) (a : Agent) (l : List (Reg × Word)) : State :=
  l.foldl (fun s e => s.putReg a e.1 e.2) s

/-! Pending bits (R83). -/

/-- The register's pending bit. -/
def State.pendBit (s : State) (a : Agent) (r : Reg) : Bool :=
  match a with
  | .thread team tid =>
    match r with
    | .x i => match s.thread team tid with | some t => t.pendX.getLsbD i | none => false
    | .k i => match s.thread team tid with | some t => t.pendK.getLsbD i | none => false
    | .s i => match tget s.teams team with | some t => t.sPend.getLsbD i | none => false
    | _ => false
  | .uniform team =>
    match r with
    | .s i => match tget s.teams team with | some t => t.sPend.getLsbD i | none => false
    | .e i => match tget s.teams team with | some t => t.resPend.getLsbD i | none => false
    | _ => false

/-- Sets or clears a pending bit. -/
def State.setPend (s : State) (a : Agent) (r : Reg) (b : Bool) : State :=
  match a with
  | .thread team tid =>
    match r with
    | .x i => s.modThread team tid (fun t =>
        { t with pendX := if b then t.pendX ||| (1#64 <<< i) else t.pendX &&& ~~~(1#64 <<< i) })
    | .k i => s.modThread team tid (fun t =>
        { t with pendK := if b then t.pendK ||| (1#7 <<< i) else t.pendK &&& ~~~(1#7 <<< i) })
    | _ => s
  | .uniform team =>
    match r with
    | .s i => s.modTeam team (fun t =>
        { t with sPend := if b then t.sPend ||| (1#1024 <<< i) else t.sPend &&& ~~~(1#1024 <<< i) })
    | .e i => s.modTeam team (fun t =>
        { t with resPend := if b then t.resPend ||| (1#64 <<< i) else t.resPend &&& ~~~(1#64 <<< i) })
    | _ => s

/-- Sets the pending bits of several registers. -/
def State.setPends (s : State) (a : Agent) (l : List Reg) (b : Bool) : State :=
  l.foldl (fun s r => s.setPend a r b) s

/-- A result arrives (R83): the registers are written and their bits clear. A thread still in a pass takes it in
its window; the store holds it too, and holds it alone once the thread has left the block. -/
def State.arrive (s : State) (a : Agent) (l : List (Reg × Word)) : State :=
  let s := s.setPends a (l.map (·.1)) false
  match a with
  | .uniform _ => s.putRegs a l
  | .thread team tid =>
    l.foldl (fun s e => s.modThread team tid (fun t =>
      let t := { t with win := t.win.put e.1 e.2 }
      match t.st, t.hasWin with
      | .inPass _, true => t
      | _, _ =>
        match e.1 with
        | .x i => { t with x := t.x.setIfInBounds i e.2 }
        | .k i => { t with k := t.k.setIfInBounds i (e.2 != 0) }
        | _ => t)) s

/-- Enters a pending result, its registers' bits set. -/
def State.pend (s : State) (a : Agent) (k : PendKind) (regs : List Reg) (off : Nat) : State :=
  let s := s.setPends a regs true
  { s with pends := s.pends ++ [(s.nextId, ⟨a, k, off⟩)], nextId := s.nextId + 1 }

/-! Barriers (R167 to R170). Waiters are released by `settle`. -/

/-- The phase completes when ARR == EXP and EXP is not 0 (R169). -/
def BarReg.check (b : BarReg) (live : Nat) : BarReg :=
  if b.exp ≠ 0 ∧ b.arr = b.exp then
    { b with gen := b.gen + 1, arr := 0, mask := [], late := [], exp := if b.live then live + b.extra else b.exp }
  else b

/-- One arrival (R169). `who` is the arriving thread; none for the copy unit. -/
def BarReg.arrive (b : BarReg) (who : Option Nat) (live : Nat) : BarReg :=
  if b.exp = 0 then { b with err := true }
  else
    let joins : Bool := match who with | some t => b.live && b.late.contains t && !b.mask.contains t | none => false
    let b := if joins then { b with exp := b.exp + 1, late := b.late.filter (fun t => some t != who) } else b
    let mask := match who with | some t => if b.mask.contains t then b.mask else t :: b.mask | none => b.mask
    BarReg.check { b with arr := b.arr + 1, mask := mask } live

/-- A thread departs (R169): by EXIT, or stopped, which sets ERR in every register in use. -/
def BarReg.depart (b : BarReg) (tid : Nat) (stopped : Bool) (live : Nat) : BarReg :=
  let used : Bool := b.exp != 0
  let b := if stopped && used then { b with err := true } else b
  if b.live && used && !b.mask.contains tid then BarReg.check { b with exp := b.exp - 1 } live else b

/-! Trap records and stopping (R244 to R246). -/

/-- The block an offset lies in: the last block entry at or below it. -/
def Image.blockAt (i : Image) (off : Nat) : Nat :=
  (i.blocks.zipIdx.foldl (fun (best : Nat × Nat) e =>
    if e.1.off ≤ off ∧ (best.1 ≤ e.1.off ∨ best.2 = 0xFFFFFFFF) then (e.1.off, e.2) else best) (0, 0xFFFFFFFF)).2

/-- Writes a trap record to the world's fault ring, or drops it (R246). -/
def State.trapRecord (s : State) (p : Place) (code : Nat) (kindTeam : Bool) (tid core off aux : Nat) : State :=
  let w := p.launch.world
  let (time, s) := s.readTime w
  let d0 := code + 2 ^ 8 * natOfBool kindTeam + 2 ^ 32 * p.image.id.toNat
  let d1 := off + 2 ^ 32 * p.image.blockAt off
  let d2 := p.cluster.cx + 2 ^ 16 * p.cluster.cy + 2 ^ 32 * p.cluster.cz + 2 ^ 48 * p.team.index
  let d3 := (if kindTeam then 0xFFFF else tid) + 2 ^ 16 * core + 2 ^ 32 * p.launch.tenant
  s.own w (.trap (bytesOfNat 8 d0 ++ bytesOfNat 8 d1 ++ bytesOfNat 8 d2 ++ bytesOfNat 8 d3 ++ bytesOfNat 8 aux ++
    bytesOfNat 8 time ++ bytesOfNat 8 p.launch.compl ++ bytesOfNat 8 0))

/-- The launch's first error class in time, and the lowest of those of one ns (R43, R44). -/
def State.errClass (s : State) (l cls : Nat) : State :=
  s.modLaunch l (fun x =>
    if x.eclass = 0 ∨ (x.etime = s.now ∧ cls < x.eclass) then { x with eclass := cls, etime := s.now } else x)

/-- Takes a thread out of every group, and closes nothing. -/
def State.leaveGroups (s : State) (team tid : Nat) : State :=
  { s with passes := s.passes.map (fun e =>
      if e.2.team = team then
        (e.1, { e.2 with groups := e.2.groups.map (fun g =>
          (g.1, { g.2 with lanes := g.2.lanes.filter (fun t => t != tid) })) })
      else e) }

/-- An instance no longer awaits a thread that has ceased to be live (R174). -/
def Coll.without (k : Coll) (tid : Nat) : Coll :=
  let joined := k.joined.map (fun j => if j.tid = tid then { j with gone := true } else j)
  { k with awaited := k.awaited.filter (fun t => t != tid), joined := joined }

/-- A read of an accumulator element has no lane to answer any more. -/
def BankOp.without (o : BankOp) (tid : Nat) : BankOp :=
  match o.kind with
  | .ard t d el => if t = some tid then { o with kind := .ard none d el } else o
  | _ => o

/-- A thread ceases to be live, by EXIT or stopped (R162, R169, R244): its pending results are discarded, but an
atomic already issued still performs; it departs the barriers. -/
def State.endThread (s : State) (team tid : Nat) (stopped : Bool) : State :=
  let me := Agent.thread team tid
  let strip (e : Nat × Pend) : Option (Nat × Pend) :=
    match e.2.kind with
    | .lost l =>
      let left := l.filter (fun a => a != me)
      if left.isEmpty then none else some (e.1, { e.2 with kind := .lost left })
    | .atomic sp a sc op t lanes xl =>
      let lanes' := lanes.map (fun (l : AtomLane) => if l.agent = me then ⟨l.agent, [], l.b, l.c⟩ else l)
      some (e.1, { e.2 with kind := .atomic sp a sc op t lanes' xl })
    | _ => if e.2.agent = me then none else some e
  let s := { s with threads := tdel s.threads (tkey team tid), pends := s.pends.filterMap strip }
  let s := s.leaveGroups team tid
  -- requests and reads go on without an issuer, and nobody waits for its pages: a later thread of the index does not see
  -- them (R162, R224)
  let s := { s with
    copies := s.copies.map (fun (e : Nat × CopyReq) =>
      if e.2.team = team ∧ e.2.tid = some tid then (e.1, { e.2 with tid := none }) else e)
    bankOps := s.bankOps.map (fun (e : Nat × BankOp) => if e.2.team = team then (e.1, e.2.without tid) else e)
    pageReqs := s.pageReqs.map (fun (e : Nat × PageReq) =>
      (e.1, { e.2 with joined := e.2.joined.filter (fun j => j.1 != Waiter.thread team tid) }))
    tries := s.tries.filter (fun e => e.1.1 != Waiter.thread team tid) }
  -- its stores are taken by its wave's next COMMIT.w (R163)
  let s := { s with waves := tmod s.waves (wkey team (tid / 32)) (fun w =>
    { w with
      cells := w.cells.map (fun (c : WCell) => if c.writer = tid then { c with writer := 8192 } else c)
      colls := w.colls.map (fun (k : Coll) => k.without tid) }) }
  let live := s.liveCount team
  let s := s.modTeam team (fun t => { t with bar := t.bar.map (fun b => b.depart tid stopped live) })
  match tget s.teams team with
  | some t =>
    s.modLaunch t.launch (fun l => if stopped then { l with stops := l.stops + 1 } else { l with exits := l.exits + 1 })
  | none => s

/-- Taking a thread trap (R244): the record is written and the thread is stopped. -/
def State.trapThread (s : State) (team tid : Nat) (code off aux : Nat) : State :=
  match s.place team with
  | none => s
  | some p =>
    let s := s.trapRecord p code false tid (p.team.coreOf p.image.threads tid) off aux
    let s := s.errClass p.team.launch (if code = 0x0B then 2 else 1)
    let s := s.modTeam team (fun t => { t with lastOff := off })
    s.endThread team tid true

/-- A break of a word of device memory that is made in its turn (R199, R325, R333), or given up on a CONF tile or a
read-only page; none where it must wait. -/
def State.breakDev (s : State) (p : Place) (off id : Nat) (k : HeldLock) : Option State :=
  let w := p.launch.world
  if s.claimedRange w k.addr 4 || !s.mayWrite w (.lockBreak id) k.addr 4 0 then none
  else
    let s := s.wrote w (.lockBreak id)
    if (s.confTile w k.addr).isSome || s.readOnly w k.addr then some (s.trapRecord p 0x17 true 0 p.team.home off k.addr)
    else some (s.homeWrites p .dev [] k.addr [0xFF, 0xFF, 0xFF, 0xFF])

/-- A lock break comes to wait. -/
def State.deferBreak (s : State) (p : Place) (off id : Nat) (k : HeldLock) : State :=
  { s with breaks := s.breaks ++ [(id, ⟨p.team, p.cluster, p.launch, p.image, off, k⟩)] }

/-- Writes 0xFFFF_FFFF to a lock word at its scope (R199), or a record of code 0x17 where that cannot be done:
a CONF tile, a read-only page, or a host page that is not supplied. A device word that is claimed or being moved, and a
host word whose page must first be asked for, wait. -/
def State.breakLock (s : State) (p : Place) (off : Nat) (k : HeldLock) : State :=
  let bytes : List Byte := [0xFF, 0xFF, 0xFF, 0xFF]
  match k.scope, k.space with
  | .c, sp =>
    s.modCluster p.team.cluster (fun c =>
      { c with set := bytes.zipIdx.foldl (fun l e => sput (skey sp (k.addr + e.2)) e.1 none l) c.set })
  | .t, _ => s
  | _, .host =>
    match s.translateRange (p.team.home / 128) p.launch.world p.launch.pasid k.addr 4 true with
    | .ok xl s => s.homeWrites p .host xl k.addr bytes
    | .miss page s =>
      let (id, s) := s.fresh
      (s.joinRequest p.launch.world p.launch.pasid page false true (.lockBreak id) k.addr).2.deferBreak p off id k
    | .invalid _ s => s.trapRecord p 0x17 true 0 p.team.home off k.addr
  | _, _ =>
    match s.breakDev p off s.nextId k with
    | some s => s
    | none =>
      let (id, s) := s.fresh
      let s := if s.mayWrite p.launch.world (.lockBreak id) k.addr 4 0 then s
        else s.queueWriter p.launch.world (.lockBreak id)
      s.deferBreak p off id k

/-- A team fault's record and its mark on the launch, against a team that may already have ended (R244). -/
def State.teamRecord (s : State) (team : Nat) (code off aux : Nat) : State :=
  match s.place team with
  | none => s
  | some p => (s.trapRecord p code true 0 p.team.home off aux).errClass p.team.launch 3

/-- Stopping a team (R244, R199): every live thread is counted as stopped, the team's sets are discarded, and then its
locks at .c, .d and .s are broken. -/
def State.stopTeam (s : State) (team : Nat) (p : Place) (off : Nat) : State :=
  let s := (s.liveTids team).foldl (fun s t => s.endThread team t true) s
  let s := { s with
    waves := s.waves.filter (fun e => e.1 / 256 != team)
    passes := s.passes.filter (fun e => e.2.team != team)
    pends := s.pends.filter (fun e => e.2.agent != Agent.uniform team) }
  let s := s.modTeam team (fun t => { t with
    set := [], stopped := true, locks := [], upark := none, uleave := none, sPend := 0, resPend := 0 })
  p.team.locks.foldl (fun s k => s.breakLock p off k) s

/-- Taking a team trap (R244): the record is written and the team is stopped. -/
def State.trapTeam (s : State) (team : Nat) (code off aux : Nat) : State :=
  match s.place team with
  | none => s
  | some p => if p.team.stopped then s else (s.teamRecord team code off aux).stopTeam team p off

end Sys2Proof.Machine
end

