-- ==== Sys2Proof/Machine/Caps.lean ====
section
/-! DEFINITION. Capability tables (R402 to R404) and the record check (R213). -/

namespace Sys2Proof.Machine

/-- A capability entry (R403). -/
structure Cap where
  kind : Nat
  pasid : Nat
  space : Nat
  reduce : Bool
  launch : Bool
  w : Bool
  rd : Bool
  base : Nat
  len : Nat
  deriving DecidableEq, Repr

/-- A little-endian number of n bytes in HBM, by package address. -/
def State.hbmNat (s : State) (a n : Nat) : Nat := natOfBytes (s.rawBytes a n)

/-- Entry i of a tenant's table, read at the moment of a check; none if absent (R403, R404). -/
def State.cap (s : State) (w t i : Nat) : Option Cap :=
  let b := s.tenant w t
  let a := b.capBase.toNat / 32 * 32 + 32 * i
  let d := s.hbmNat a 8
  if !b.valid || decide (Nat.min b.ncap 256 ≤ i) then none
  else if bitsOf d 63 52 != 0 || bitsOf d 31 12 != 0 || s.hbmNat (a + 24) 8 != 0 then none
  else if d % 16 = 0 ∨ 3 < d % 16 then none
  else some ⟨d % 16, bitsOf d 51 32, bitsOf d 11 8, bitOf d 7, bitOf d 6, bitOf d 5, bitOf d 4, s.hbmNat (a + 8) 8,
    s.hbmNat (a + 16) 8⟩

/-- A range is covered by one region entry of the tenant's table (R403). -/
def State.covered (s : State) (w t space : Nat) (pasid : Option Nat) (a n : Nat) (rd wr : Bool) : Bool :=
  (List.range (Nat.min (s.tenant w t).ncap 256)).any (fun i =>
    match s.cap w t i with
    | some c => c.kind == 1 && c.space == space && decide (c.base ≤ a) && decide (a + n ≤ c.base + c.len) &&
        (space != 4 || some c.pasid == pasid) && (!rd || c.rd) && (!wr || c.w)
    | none => false)

/-- A range of device memory that a tenant may use. -/
def State.devCovered (s : State) (w t a n : Nat) (rd wr : Bool) : Bool :=
  s.devRange w a n && s.covered w t 3 none a n rd wr

/-- A format with a scale plane (R46). -/
def scaled (fmt : Nat) : Bool := 3 ≤ fmt && fmt ≤ 6

/-- The bytes of a tensor's scale plane. -/
def TRec.planeLen (r : TRec) : Nat := if scaled r.fmt then r.rows * r.cols / 64 else 0

/-- The record's own fields are in order (R209, R213). -/
def TRec.sound (r : TRec) : Bool :=
  !r.rsv && r.fmt ≤ 7 && r.tshape ≤ 1 && r.tid != 0 &&
    (!scaled r.fmt || (r.tshape == 1 && r.spbase != 0)) &&
    r.rows != 0 && r.rows % r.side == 0 && r.cols != 0 && r.cols % r.side == 0 &&
    r.base % 512 == 0 && r.spbase % 64 == 0 && r.febase % 8 == 0

/-- The first doubleword of the record at a with the VERSION and OPEN of r. -/
def State.recHead (s : State) (w a : Nat) (r : TRec) : Nat :=
  let d := s.devNat w a 8
  d % 2 ^ 32 - (if bitOf d 11 then 2 ^ 11 else 0) + 2 ^ 11 * natOfBool r.opened + 2 ^ 32 * r.version.toNat

/-- A store has changed the VERSION or OPEN of a record that the cache keeps, so that its next lookup writes them back
(R209). -/
def State.recStale (s : State) (w a : Nat) : Bool := s.recHead w a (s.readRec w a) != s.devNat w a 8

/-- Writes the VERSION and OPEN the cache keeps back over what the record's bytes hold (R209). -/
def State.writeBackRec (s : State) (w a : Nat) (r : TRec) : State :=
  if s.recHead w a r = s.devNat w a 8 then s else s.devPokes w a (bytesOfNat 8 (s.recHead w a r))

/-- The record check of R213; a record that passes it is in the cache afterwards. -/
def State.recCheck (s : State) (w t a : Nat) (rd wr : Bool) (tile : Option Nat) : Option (TRec × State) :=
  if a % 64 ≠ 0 || !s.devRange w a 64 then none
  else
    let r := s.readRec w a
    let ranges := [(r.base, r.tiles * r.tileBytes), (r.febase, (r.tiles + 3) / 4)] ++
      (if scaled r.fmt then [(r.spbase, r.planeLen)] else [])
    if !r.sound || ranges.any (fun g => !s.devCovered w t g.1 g.2 rd wr) then none
    else if s.recs.any (fun c => c.world == w && c.addr != a && (s.readRec w c.addr).tid == r.tid) then none
    else if (match tile with | some i => decide (r.tiles ≤ i) | none => false) then none
    else
      let mig := match s.recs.find? (fun c => c.world == w && c.addr == a) with | some c => c.migrating | none => false
      let rest := s.recs.filter (fun c => !(c.world == w && c.addr == a))
      let s := { s with recs := ⟨w, a, r.version, r.opened, mig⟩ :: rest }
      some (r, s.writeBackRec w a r)

/-- The device address of tile i. -/
def TRec.tileAddr (r : TRec) (i : Nat) : Nat := r.base + i * r.tileBytes

/-- The scale bytes of 64 × 64 tile i, as runs: plane address and length (R210, R223). -/
def TRec.planeRuns (r : TRec) (i : Nat) : List (Nat × Nat) :=
  let c := r.cols / 64
  let ti := i / c
  let tj := i % c
  if r.baxis then [(r.spbase + ti * r.cols + tj * 64, 64)]
  else (List.range 64).map (fun m => (r.spbase + (ti * 64 + m) * c + tj, 1))

/-- An engine write of tile i is refused (R212). -/
def State.engineRefused (s : State) (w : Nat) (r : TRec) (i : Nat) : Bool :=
  r.conf && !(r.opened && !s.tileBit w r.febase (2 * i + 1))

/-- The same for a copy that lands in whatever CONF tile an address lies in. -/
def State.copyRefused (s : State) (w a : Nat) : Bool :=
  match s.confTile w a with
  | some (r, i) => s.engineRefused w r i
  | none => false

end Sys2Proof.Machine
end

