-- ==== Sys2Proof/Machine/Operands.lean ====
section
/-! DEFINITION. Operand values and destinations (R47, R73 to R76), the registers an instruction reads and writes
(R81, R83), and the issue of an instruction to a group: guards (R80), pending bits (R83), strict stalls (R84). -/

namespace Sys2Proof.Machine

/-- The value of a small immediate (R73). -/
def smallVal (f : BitVec 7) : Int := (f.toNat : Int) - 64

/-- The float of exponent field width `eb`, fraction width `fb` with this small integer value, exact (R74). -/
def smallFloat (eb fb : Nat) (v : Int) : Nat :=
  let m := v.natAbs
  if m = 0 then 0
  else
    let e := Nat.log2 m
    (if v < 0 then 2 ^ (eb + fb) else 0) + (2 ^ (eb - 1) - 1 + e) * 2 ^ fb + (m - 2 ^ e) * 2 ^ fb / 2 ^ e

/-- An immediate operand of a type (R74): `small` and the 32-bit immediate. -/
def immVal (t : Ty) (a : Src) : DWord :=
  match a with
  | .small f =>
    let v := smallVal f
    match t with
    | .i64 | .n64 | .b64 => BitVec.ofInt 64 v
    | .f32 => BitVec.ofNat 64 (smallFloat 8 23 v)
    | .f16 => BitVec.ofNat 64 (smallFloat 5 10 v)
    | .bf16 => BitVec.ofNat 64 (smallFloat 8 7 v)
    | .f16x2 => BitVec.ofNat 64 (smallFloat 5 10 v * 65537)
    | .bf16x2 => BitVec.ofNat 64 (smallFloat 8 7 v * 65537)
    | _ => (BitVec.ofInt 32 v).setWidth 64
  | .imm i =>
    match t with
    | .i64 => i.signExtend 64
    | .f16 | .bf16 => (i.setWidth 16).setWidth 64
    | _ => i.setWidth 64
  | _ => 0

end Sys2Proof.Machine

namespace Sys2Proof
open Sys2Proof.Machine

/-- The registers a source names; a pair if `wide` (R75). -/
def Src.regs (wide : Bool) : Src → List Reg
  | .x r => if wide then [.x r.val, .x (r.val + 1)] else [.x r.val]
  | .o r => if wide then [.o r.val, .o (r.val + 1)] else [.o r.val]
  | .y r => if wide then [.y r.val, .y (r.val + 1)] else [.y r.val]
  | .s r => if wide then [.s r.val, .s (r.val + 1)] else [.s r.val]
  | _ => []

/-- The registers a destination names. -/
def Dst.regs (wide : Bool) : Dst → List Reg
  | .x r => if wide then [.x r.val, .x (r.val + 1)] else [.x r.val]
  | .o r => if wide then [.o r.val, .o (r.val + 1)] else [.o r.val]
  | .y r => if wide then [.y r.val, .y (r.val + 1)] else [.y r.val]
  | .s r => if wide then [.s r.val, .s (r.val + 1)] else [.s r.val]
  | .zero => []

end Sys2Proof

namespace Sys2Proof.Machine

/-- A register list's value: the first the low half (R47). -/
def View.regs (v : View) : List Reg → DWord
  | [] => 0
  | [r] => (v.reg r).setWidth 64
  | lo :: hi :: _ => (v.reg hi) ++ (v.reg lo)

/-- The value of a source operand of a type (R73, R74, R75). -/
def View.src (v : View) (t : Ty) (a : Src) : DWord :=
  match a with
  | .small _ | .imm _ => immVal t a
  | _ => v.regs (Src.regs t.wide a)

/-- A source operand that its entry reads as 32 bits. -/
def View.src32 (v : View) (a : Src) : Word := (v.src .b32 a).setWidth 32

/-- The writes of a value to a destination; a pair if `wide`, both halves in one event (R75). -/
def dstWrites (d : Dst) (wide : Bool) (v : DWord) : List (Reg × Word) :=
  match Dst.regs wide d with
  | [r] => [(r, v.setWidth 32)]
  | [lo, hi] => [(lo, v.setWidth 32), (hi, (v >>> 32).setWidth 32)]
  | _ => []

/-- A k-field source (R76). -/
def View.kf (v : View) (r : Fin 8) : Bool := v.kreg r.val

/-- The writes of a condition register, or none for "—". -/
def kWrites (d : KDst) (b : Bool) : List (Reg × Word) :=
  match d with
  | none => []
  | some r => [(.k r.val, BitVec.ofNat 32 (natOfBool b))]

/-- The register of "k, or —". -/
def kdRegs (d : KDst) : List Reg :=
  match d with
  | none => []
  | some r => [.k r.val]

end Sys2Proof.Machine

namespace Sys2Proof
open Sys2Proof.Machine

/-- A guard holds in a lane (R80). -/
def Guard.holds (g : Guard) (v : View) : Bool :=
  match g with
  | .always => true
  | .k r n => v.kreg r.val != n

end Sys2Proof

namespace Sys2Proof.Machine

/-- The integer an operand of an integer type holds (R47). -/
def intVal (t : Ty) (v : DWord) : Int :=
  let n := v.toNat % 2 ^ t.width
  if t.signed && decide (2 ^ (t.width - 1) ≤ n) then (n : Int) - 2 ^ t.width else n

/-- An integer result of a type, wrapped to its width and extended to its register or pair (R47). -/
def ofIntVal (t : Ty) (z : Int) : DWord :=
  let n := (z % 2 ^ t.width).toNat
  if t.wide then BitVec.ofNat 64 n
  else if t.signed && decide (2 ^ (t.width - 1) ≤ n) then BitVec.ofNat 64 (n + 2 ^ 32 - 2 ^ t.width)
  else BitVec.ofNat 64 n

end Sys2Proof.Machine

namespace Sys2Proof
open Sys2Proof.Machine

/-! The registers an instruction reads and writes, for R81, R83 and R84. -/

/-- A guard's register. -/
def Guard.regs : Guard → List Reg
  | .always => []
  | .k r _ => [.k r.val]

/-- n registers from x[r] on. -/
def xrun (r n : Nat) : List Reg := (List.range n).map (fun i => .x (r + i))

/-- n registers from e[r] on. -/
def erun (r n : Nat) : List Reg := (List.range n).map (fun i => .e (r + i))

/-- A source operand: its number in OPND (R107), its specifier, and whether it is a pair. -/
structure Operand where
  opnd : Nat
  src : Src
  wide : Bool
  deriving DecidableEq, Repr

/-- The sync-word pointer of a copy command (R219). -/
def CopyTgt.operands : CopyTgt → List Operand
  | .barrier _ => []
  | .sync d => [⟨1, d, false⟩]

/-- The source operands of an instruction, but for k-fields and runs of registers; `pair` says that its memory base is a
pair (R81, R179), `pair2` the same of CPY's destination pointer. -/
def Instr.operands (pair pair2 : Bool) : Instr → List Operand
  | .add _ _ t _ a b | .sub _ _ t _ a b => [⟨2, a, t.wide⟩, ⟨3, b, t.wide⟩]
  | .addc _ t _ a b _ | .subc _ t _ a b _ | .mul _ t _ a b | .mulh _ t _ a b | .div _ t _ a b | .rem _ t _ a b
  | .min _ t _ a b | .max _ t _ a b | .and _ t _ a b | .or _ t _ a b | .xor _ t _ a b | .andn _ t _ a b
  | .sel _ t _ a b _ | .cmp _ _ _ t _ a b => [⟨2, a, t.wide⟩, ⟨3, b, t.wide⟩]
  | .mad _ t _ a b e => [⟨2, a, t.wide⟩, ⟨3, b, t.wide⟩, ⟨4, e, t.wide⟩]
  | .abs _ _ t _ a | .not _ t _ a | .clz _ t _ a | .popc _ t _ a | .brev _ t _ a | .mov _ t _ a => [⟨2, a, t.wide⟩]
  | .shl _ t _ a n | .shr _ t _ a n | .sha _ t _ a n | .rot _ _ t _ a n | .bfx _ t _ a n | .wxch _ _ t _ a n =>
    [⟨2, a, t.wide⟩, ⟨3, n, false⟩]
  | .fsh _ _ _ a b n | .prm _ _ a b n | .ffma _ _ _ _ a b n | .fdot2 _ _ _ _ a b n =>
    [⟨2, a, false⟩, ⟨3, b, false⟩, ⟨4, n, false⟩]
  | .bfi _ t _ a b n => [⟨2, a, t.wide⟩, ⟨3, b, t.wide⟩, ⟨4, n, false⟩]
  | .movs _ t dir _ b =>
    (match dir with
     | .read _ => []
     | .write a => [⟨2, a, t.wide⟩]) ++ [⟨3, b, false⟩]
  | .lea _ _ t _ a b e => [⟨2, a, t.wide⟩, ⟨3, b, false⟩, ⟨4, e, false⟩]
  | .fadd _ _ _ _ a b | .fsub _ _ _ _ a b | .fmul _ _ _ _ a b | .fmin _ _ _ _ a b | .fmax _ _ _ _ a b
  | .fscl _ _ _ _ a b | .fcmp _ _ _ _ _ a b | .fclass _ _ _ _ a b | .wdrop _ a b | .awr _ _ _ a b =>
    [⟨2, a, false⟩, ⟨3, b, false⟩]
  | .frcps _ _ a | .frsqs _ _ a | .fexs _ _ a | .flgs _ _ a | .fgex _ _ _ a | .frnd _ _ _ _ a | .br _ _ a _
  | .brx _ a _ | .binit _ _ _ a | .bwait _ _ _ a | .btest _ _ _ _ a | .cinit _ _ a | .cpyq _ _ a | .ard _ _ _ a
  | .hclr _ _ a | .hrd _ _ _ a | .mma _ _ _ a _ _ _ _ _ _ | .trap _ _ a | .swr _ _ a | .sleep _ a =>
    [⟨2, a, false⟩]
  | .cvt _ _ _ _ u _ a b => [⟨2, a, u.wide⟩, ⟨3, b, false⟩]
  | .call _ x _ | .ret _ x _ => [⟨2, .x x, false⟩]
  | .ld _ _ _ a d | .ldv _ _ _ a d | .lds _ _ _ a d | .pref _ a d | .resld _ _ a _ d | .resst _ _ a _ d =>
    [⟨2, a, pair⟩, ⟨4, d, false⟩]
  | .st _ t a b d => [⟨2, a, pair⟩, ⟨3, b, t.wide⟩, ⟨4, d, false⟩]
  | .stv _ _ a b d | .swarm _ _ a b d | .swait _ _ a b d => [⟨2, a, pair⟩, ⟨3, b, false⟩, ⟨4, d, false⟩]
  | .chk _ _ t a b _ => ⟨2, a, t.wide⟩ :: (match b with | .src b => [⟨3, b, t.wide⟩] | _ => [])
  | .atom _ op _ t _ a b e => [⟨2, a, pair⟩, ⟨3, b, t.wide⟩, ⟨4, e, t.wide && op == .cas⟩]
  | .red _ _ _ t a b e => [⟨2, a, pair⟩, ⟨3, b, t.wide⟩, ⟨4, e, false⟩]
  | .lkacq _ _ _ a | .lkrel _ _ a => [⟨2, a, pair⟩]
  | .cpy _ tgt a b _ _ _ _ _ _ _ => tgt.operands ++ [⟨2, a, pair⟩, ⟨3, b, pair2⟩]
  | .cpyt _ _ tgt a b e _ _ _ _ => tgt.operands ++ [⟨2, a, true⟩, ⟨3, b, false⟩, ⟨4, e, false⟩]
  | .wld _ near tgt a e _ _ _ => tgt.operands ++ [⟨2, a, !near⟩, ⟨4, e, false⟩]
  | .qst _ _ _ a b e _ _ _ _ _ _ => [⟨2, a, true⟩, ⟨3, b, false⟩, ⟨4, e, false⟩]
  | .trec _ f _ a b => [⟨2, a, true⟩, ⟨3, b, f.wide⟩]
  | .topen _ _ a | .tclose _ _ a | .launch _ _ a => [⟨2, a, true⟩]
  | .tfe _ _ _ a e => [⟨2, a, true⟩, ⟨4, e, false⟩]
  | .svc _ _ _ a b => [⟨2, a, true⟩, ⟨3, b, false⟩]
  | _ => []

/-- The k-field of a combining op (R123). -/
def KComb.field : KComb → List (Nat × Nat)
  | .none => []
  | .and k | .or k | .xor k => [(4, k.val)]

/-- The k-field sources of an instruction: operand number and register (R76). -/
def Instr.kFields : Instr → List (Nat × Nat)
  | .addc _ _ _ _ _ k | .subc _ _ _ _ _ k => [(4, k.val)]
  | .sel _ _ _ _ _ k => [(4, k.val)]
  | .cmp _ _ op _ _ _ _ | .fcmp _ _ op _ _ _ _ | .fclass _ op _ _ _ _ => op.field
  | .kop _ _ ka kb kc _ => [(2, ka.val), (3, kb.val), (4, kc.val)]
  | .wvote _ _ k => [(2, k.val)]
  | _ => []

/-- Registers read that no source operand names by itself: runs, s[i] of MOVS and QST, and residue registers. -/
def Instr.runReads : Instr → List Reg
  | .movs _ t (.read _) i b => if b = .zero then (if t.wide then [.s i.toNat, .s (i.toNat + 1)] else [.s i.toNat]) else []
  | .spawn _ n _ a _ => xrun a.val n.val
  | .stv _ n _ b _ => match b with | .x r => xrun r.val n.regs | _ => []
  | .qst _ acc _ _ _ _ fmt blk rin rout _ sreg =>
    (if rin || rout then erun 0 (if acc.quad then 64 else 32) else []) ++
      (match fmt with | .bx8 | .bx4 => if blk then [] else [.s sreg.toNat] | _ => [])
  | .resst _ e0 _ n _ => erun e0.val (n.val + 1)
  | _ => []

/-- The registers the operands of an instruction name. -/
def Instr.readsOps (pair pair2 : Bool) (i : Instr) : List Reg :=
  (Instr.operands pair pair2 i).flatMap (fun o => Src.regs o.wide o.src) ++
    (Instr.kFields i).map (fun e => .k e.2) ++ Instr.runReads i

/-- The width of an instruction's destination. -/
def Instr.dstWide : Instr → Bool
  | .clz .. | .popc .. | .id .. => false
  | .cvt _ _ _ t _ _ _ _ => t.wide
  | .cpyq .. | .time .. | .publish .. | .svc .. | .perf .. => true
  | .srd _ r _ => r.wide
  | .add _ _ t .. | .sub _ _ t .. | .abs _ _ t .. | .rot _ _ t .. | .movi _ _ t .. | .lea _ _ t .. | .wxch _ _ t ..
  | .atom _ _ _ t .. => t.wide
  | .addc _ t .. | .subc _ t .. | .mul _ t .. | .mulh _ t .. | .mad _ t .. | .div _ t .. | .rem _ t .. | .min _ t ..
  | .max _ t .. | .and _ t .. | .or _ t .. | .xor _ t .. | .andn _ t .. | .not _ t .. | .shl _ t .. | .shr _ t ..
  | .sha _ t .. | .brev _ t .. | .bfx _ t .. | .bfi _ t .. | .sel _ t .. | .mov _ t .. | .movs _ t .. | .ld _ t ..
  | .lds _ t .. => t.wide
  | _ => false

/-- The registers an instruction writes. -/
def Instr.writesRegs : Instr → List Reg
  | .ldv _ n (.x r) _ _ => xrun r.val n.regs
  | .movs _ t (.write _) i b => if b = .zero then (if t.wide then [.s i.toNat, .s (i.toNat + 1)] else [.s i.toNat]) else []
  | .addc _ t d _ _ k | .subc _ t d _ _ k => Dst.regs t.wide d ++ [.k k.val]
  | .cmp _ _ _ _ d _ _ | .kop _ d .. | .fcmp _ _ _ _ d _ _ | .fclass _ _ _ d _ _ => [.k d.val]
  | .bwait _ _ d _ | .btest _ _ _ d _ | .csign _ _ d | .swait _ d _ _ _ => kdRegs d
  | .wvote _ (.any d) _ | .wvote _ (.all d) _ | .wvote _ (.uni d) _ => kdRegs d
  | .call _ x _ | .ret _ x _ => [.x x.val]
  | .resld _ e0 _ n _ => erun e0.val (n.val + 1)
  | i => match i.dst? with | some d => Dst.regs i.dstWide d | none => []

/-- Every register an instruction reads: its operands and its guard. -/
def Instr.readsRegs (pair pair2 : Bool) (i : Instr) : List Reg :=
  Instr.readsOps pair pair2 i ++ (match i.ctl? with | some c => c.guard.regs | none => [])

/-- The fixed latency of an instruction's result (R82), in revision 2; none for variable latency or no result. -/
def Instr.latency2 (i : Instr) : Option Nat :=
  match i with
  | .mul .. | .mulh .. | .mad .. => some (if i.dstWide then 8 else 4)
  | .cmp .. | .kop .. | .fcmp .. | .fclass .. | .id .. => some 2
  | .movs .. => some 3
  | .fadd .. | .fsub .. | .fmul .. | .ffma .. | .fmin .. | .fmax .. | .fscl .. | .fgex .. | .frnd .. | .fdot2 ..
  | .cvt .. => some 5
  | .frcps .. | .frsqs .. | .fexs .. | .flgs .. => some 12
  | .clz _ t .. | .popc _ t .. => some (if t.wide then 3 else 2)
  | .add .. | .sub .. | .addc .. | .subc .. | .abs .. | .min .. | .max .. | .and .. | .or .. | .xor .. | .andn ..
  | .not .. | .shl .. | .shr .. | .sha .. | .rot .. | .fsh .. | .brev .. | .bfx .. | .bfi .. | .prm .. | .sel ..
  | .mov .. | .movi .. | .lea .. => some (if i.dstWide then 3 else 2)
  | _ => none

/-- The latency under the revision an image names (R82). -/
def Instr.latency (rev1 : Bool) (i : Instr) : Option Nat :=
  match i with
  | .fadd .. | .fsub .. | .fmul .. | .ffma .. | .fmin .. | .fmax .. | .fscl .. | .fgex .. | .frnd .. | .fdot2 ..
  | .cvt .. => some (if rev1 then 4 else 5)
  | _ => i.latency2

/-- The latency of one register of a producer: one less for y0 and y1, at least 1 (R82). -/
def regLatency (l : Nat) : Reg → Nat
  | .y _ => Nat.max 1 (l - 1)
  | _ => l

end Sys2Proof

namespace Sys2Proof.Machine

/-! Issue. -/

/-- The issuing group and where it stands. -/
structure Here where
  pid : Nat
  gid : Nat
  pass : Pass
  group : Group
  place : Place
  deriving DecidableEq, Repr

/-- The group whose turn it is. -/
def State.here (s : State) : Option Here :=
  match s.turn with
  | .issue pid gid => do
    let p ← tget s.passes pid
    let g ← tget p.groups gid
    let pl ← s.place p.team
    if g.done then none else some ⟨pid, gid, p, g, pl⟩
  | _ => none

/-- The lanes of the group, in ascending thread index; the team itself in a uniform pass. -/
def Here.agents (h : Here) : List Agent :=
  if h.pass.uniform then [.uniform h.pass.team] else h.group.lanes.map (fun t => .thread h.pass.team t)

/-- The core the group runs on (R30). -/
def Here.core (h : Here) : Nat := h.pass.core

/-- The lanes in which an instruction takes effect (R80). -/
def Here.taking (h : Here) (c : Ctl) (s : State) : List Agent :=
  h.agents.filter (fun a => c.guard.holds (s.view a))

/-- The site admission fixed for the issuing word (R179). -/
def Here.site (h : Here) : Option Site := tget h.place.image.sites h.group.off

/-- The site of CPY's destination pointer. -/
def Here.site2 (h : Here) : Option Site := tget h.place.image.sites (h.group.off + 1)

/-- Is the word's memory base a pair? -/
def Here.pair (h : Here) : Bool := match h.site with | some x => x.pair | none => false
@[inherit_doc Here.pair] def Here.pair2 (h : Here) : Bool := match h.site2 with | some x => x.pair | none => false

/-- The type at which a CMP compares: two pointers are compared as unsigned addresses (R131). -/
def Here.cmpType (h : Here) (t : Ty) : Ty := if h.place.image.ptrCmps.contains h.group.off then t.unsigned else t

/-- The registers that a MOVS with an index operand moves (R127). -/
structure MovsIdx where
  writes : Bool
  type : Ty
  base : BitVec 10
  index : Src
  deriving DecidableEq, Repr

/-- The index of a MOVS whose field b is present (R127). -/
def movsDyn : Instr → Option MovsIdx
  | .movs _ t (.read _) i b => if b = .zero then none else some ⟨false, t, i, b⟩
  | .movs _ t (.write _) i b => if b = .zero then none else some ⟨true, t, i, b⟩
  | _ => none

/-- The registers that an index selects in a lane (R127). -/
def View.movsRegs (v : View) (m : MovsIdx) : List Reg :=
  let n := (v.src32 m.index).toNat
  if m.type.wide then [.s (m.base.toNat + 2 * n), .s (m.base.toNat + 2 * n + 1)] else [.s (m.base.toNat + n)]

/-- The registers that an instruction's index selects, over the lanes of the group; with `all`, those it reads too (R127). -/
def Here.indexed (h : Here) (i : Instr) (s : State) (all : Bool) : List Reg :=
  match movsDyn i with
  | some m => if all || m.writes then h.agents.flatMap (fun a => (s.view a).movsRegs m) else []
  | none => []

/-- The instruction waits on pending bits, in any lane of the group (R83, R127). -/
def Here.waits (h : Here) (i : Instr) (s : State) : Bool :=
  let regs := Instr.readsRegs h.pair h.pair2 i ++ i.writesRegs ++ h.indexed i s true
  h.agents.any (fun a => regs.any (fun r => s.pendBit a r))

/-- The first producer that a strict-stalls consumer finds too close (R84): the latest of them, whose offset the trap record
names, and of the group, whichever lanes its guard took (log 73). -/
def Here.undersized (h : Here) (i : Instr) (s : State) : Option Producer :=
  if h.place.launch.sstall && h.place.image.latrev1 then
    let regs := Instr.readsRegs h.pair h.pair2 i ++ i.writesRegs ++ h.indexed i s true
    h.group.prods.find? (fun p => regs.contains p.reg && decide (h.group.dist < p.dist + p.lat))
  else none

/-- Changes the issuing group. -/
def State.modGroup (s : State) (pid gid : Nat) (f : Group → Group) : State :=
  { s with passes := tmod s.passes pid (fun p => { p with groups := tmod p.groups gid f }) }

/-- The group moves on: its address, its issue distance, and under strict stalls its producers (R81, R84). -/
def State.advance (s : State) (h : Here) (i : Instr) (c : Ctl) : State :=
  let new :=
    match i.latency2 with
    | some l => (i.writesRegs ++ h.indexed i s false).map (fun r =>
        (⟨r, h.group.dist, regLatency l r, h.group.off⟩ : Producer))
    | none => []
  s.modGroup h.pid h.gid (fun g => { g with
    off := g.off + c.form.bytes
    dist := g.dist + c.stall.toNat + 1
    tok := 0
    prods :=
      if h.place.launch.sstall && h.place.image.latrev1 then
        new ++ g.prods.filter (fun p => !(new.any (fun q => q.reg == p.reg)))
      else [] })

/-- A performance counter's key: context slot of a partition, core, counter (R257). -/
def perfKey (part slot core ctr : Nat) : Nat := ((part * 16 + slot) * 512 + core) * 16 + ctr

/-- Adds to a performance counter of the executing context on the executing core. -/
def State.count (s : State) (h : Place) (core ctr n : Nat) : State :=
  let k := perfKey h.launch.part h.launch.slot core ctr
  { s with perf := tset s.perf k (((tget s.perf k).getD 0 + n) % 2 ^ 64) }

/-- Cycles of work for a context on a core, which the counter may have gained when it is next read (R257; log 13). -/
def State.spend (s : State) (h : Place) (core ctr n : Nat) : State :=
  let k := perfKey h.launch.part h.launch.slot core ctr
  { s with cycles := tset s.cycles k ((tget s.cycles k).getD 0 + n) }

/-- What an instruction's effect on its group comes to. -/
inductive Body where
  | done (s : State)
  /-- It cannot issue yet: the group waits, and nothing has happened. -/
  | wait
  /-- It cannot issue yet, and has begun to wait: this happens. -/
  | hold (f : State → State)
  /-- It is not in a form that admission accepts. -/
  | bad

/-! Words that read or write device memory as they issue. -/

/-- An agent's use of [a, a + n) of device memory. -/
structure DevUse where
  agent : Agent
  a : Nat
  n : Nat
  read : Bool
  write : Bool
  deriving DecidableEq, Repr

/-- It cannot be had yet: an earlier access of the agent to the same bytes (R318), a claimed tile (R333), a line the host may
hold (R385), a page being moved (R325). -/
def State.devBusy (s : State) (w : Nat) (u : DevUse) : Bool :=
  overlaps s.pends u.agent .dev u.a u.n || s.claimedRange w u.a u.n || (u.read && s.hostMay w u.a u.n) ||
    (u.write && !s.mayWrite w (.word u.agent) u.a u.n 0)

/-- What waiting for it does: the host is asked for the line, or the write takes its place behind the others. -/
def State.devBook (s : State) (w : Nat) (u : DevUse) : State :=
  if overlaps s.pends u.agent .dev u.a u.n || s.claimedRange w u.a u.n then s
  else if u.read && s.hostMay w u.a u.n then s.snoopLines w u.a u.n
  else if u.write && !s.mayWrite w (.word u.agent) u.a u.n 0 then s.queueWriter w (.word u.agent)
  else s

/-- The tiles that uses read are filled (R412), up to the first whose tag is wrong. -/
def State.fills (s : State) (w : Nat) (l : List DevUse) : Bool × State :=
  l.foldl (fun e u => if e.1 && u.read then e.2.fill w u.a u.n else e) (true, s)

/-- Goes on once accesses of so many sectors each have their tokens at the group's port (R357). -/
def portWait (h : Here) (l : List Nat) (s : State) (f : State → Body) : Body :=
  let left := l.drop h.group.tok
  let e := s.gatherTokens h.place h.core h.pid left
  if e.1 = left.length then f e.2
  else .hold (fun s =>
    let e := s.gatherTokens h.place h.core h.pid left
    e.2.modGroup h.pid h.gid (fun g => { g with tok := g.tok + e.1 }))

/-- Goes on once all the uses can be had; a fill whose tag is wrong stops it for good. -/
def devWords (h : Here) (l : List DevUse) (s : State) (f : State → Body) : Body :=
  let w := h.place.launch.world
  if l.any (s.devBusy w) then .hold (fun s => l.foldl (fun s u => s.devBook w u) s)
  else portWait h (l.flatMap (fun u => accessesOf u.a u.n)) s (fun s =>
    match s.fills w l with
    | (false, _) => .hold (fun s => (s.fills w l).2)
    | (true, s) => f (l.foldl (fun s u => if u.write then s.wrote w (.word u.agent) else s) s))

end Sys2Proof.Machine

namespace Sys2Proof
open Sys2Proof.Machine

/-- The word is legal in this kind of block, with a destination its entry allows (R77, R78, R428). -/
def Instr.formOk (i : Instr) (uniform : Bool) : Bool :=
  let (th, un) := i.legalIn
  let kinds := i.dstKinds
  (if uniform then un else th) &&
    (match i.dst? with
     | none => true
     | some (.x _) => kinds.1 && !uniform
     | some (.o _) | some (.y _) => kinds.2.1 && !i.variableLatency
     | some (.s _) => kinds.2.2.1 && uniform
     | some .zero => kinds.2.2.2) &&
    (!uniform ||
      ((Instr.readsRegs true true i ++ i.writesRegs).all (fun r =>
        match r with | .x _ => false | .k k => k == 7 | _ => true) &&
       (match i.ctl? with | some c => c.guard == .always | none => true)))

end Sys2Proof

namespace Sys2Proof.Machine

/-- The group moves on and the instruction takes effect, unless it cannot issue yet. -/
def Here.run (h : Here) (i : Instr) (c : Ctl) (s : State) (body : Here → State → Body) : Host.Outcome State Fault Refusal :=
  match body h (((s.advance h i c).count h.place h.core 2 1).count h.place h.core 3 (h.taking c s).length) with
  | .done t => .next t
  | .wait => .next s
  | .hold f => .next (f s)
  | .bad => .fault .notAdmitted

/-- Takes the undersized-stall trap in a lane (R84). -/
def State.stallTrap (s : State) (a : Agent) (off producer : Nat) : State :=
  match a with
  | .thread team tid => s.trapThread team tid 0x05 off producer
  | .uniform team => s.trapTeam team 0x05 off producer

/-- Issues an instruction to the group whose turn it is: it waits on pending bits, an undersized stall under SSTALL traps the
lanes in which it would take effect and goes on in the others, and otherwise the group moves on and the effect takes
place. -/
def issue (i : Instr) (c : Ctl) (s : State) (body : Here → State → Body) : Host.Outcome State Fault Refusal :=
  match s.here with
  | none => .fault .noGroup
  | some h =>
    if !i.formOk h.pass.uniform then .fault .notAdmitted
    else if h.waits i s then .next s
    else
      match h.undersized i s with
      | some p =>
        let t := (h.taking c s).foldl (fun s a => s.stallTrap a h.group.off p.off) s
        match t.here with
        | some h' => if h'.pass.uniform || h'.group.lanes.isEmpty then .next t else h'.run i c t body
        | none => .next t
      | none => h.run i c s body

/-- The agent is still live: a thread of the table, or a team that has not been stopped. -/
def State.alive (s : State) (a : Agent) : Bool :=
  match a with
  | .thread team tid => (s.thread team tid).isSome
  | .uniform team => match tget s.teams team with | some t => !t.stopped | none => false

/-- Applies a lane's effect to each agent in turn, passing over those that an earlier lane's effect has stopped. -/
def eachLane (l : List Agent) (f : Agent → State → State) (s : State) : State :=
  l.foldl (fun s a => if s.alive a then f a s else s) s

/-- A trap of the agent: a thread trap, or a team trap in a uniform block (R244). -/
def State.trap (s : State) (a : Agent) (code off aux : Nat) : State :=
  match a with
  | .thread team tid => s.trapThread team tid code off aux
  | .uniform team => s.trapTeam team code off aux

/-- Results that arrive later: the registers' bits are set now (R83). -/
def State.later (s : State) (a : Agent) (w : List (Reg × Word)) : State := s.pend a (.ready w) (w.map (·.1)) 0

/-- An instruction whose effect is a write of registers, computed from the lane's own registers and what admission fixed for
the word. -/
def aluAt (i : Instr) (c : Ctl) (f : Here → View → List (Reg × Word)) (s : State) : Host.Outcome State Fault Refusal :=
  issue i c s (fun h s => .done ((h.taking c s).foldl (fun t a => t.putRegs a (f h (s.view a))) s))

/-- The same, from the lane's own registers alone. -/
def alu (i : Instr) (c : Ctl) (f : View → List (Reg × Word)) (s : State) : Host.Outcome State Fault Refusal :=
  aluAt i c (fun _ => f) s

/-- The same with a result of variable latency (R83): the registers' bits are set until it arrives. -/
def aluVar (i : Instr) (c : Ctl) (f : View → List (Reg × Word)) (s : State) : Host.Outcome State Fault Refusal :=
  issue i c s (fun h s => .done ((h.taking c s).foldl (fun t a =>
    let w := f (s.view a)
    t.later a w) s))

end Sys2Proof.Machine
end

