-- ==== Sys2Proof/Machine/Flags.lean ====
section
/-! DEFINITION. What is written to condition registers: comparisons and their combination (R123), carries and
borrows (R113), truth tables (R124). -/

namespace Sys2Proof.Machine

/-- A comparison of two integers (R123). -/
def condHolds (cc : Cond) (a b : Int) : Bool :=
  match cc with
  | .eq => decide (a = b) | .ne => decide (a ≠ b) | .lt => decide (a < b) | .le => decide (a ≤ b)
  | .gt => decide (a > b) | .ge => decide (a ≥ b)

/-- The combination of a comparison with k[c] (R123). -/
def combine (op : KComb) (v : View) (cond : Bool) : Bool :=
  match op with
  | .none => cond
  | .and k => cond && v.kf k
  | .or k => cond || v.kf k
  | .xor k => xor cond (v.kf k)

/-- The carry of ADDC over W bits (R113). -/
def carryOut (w a b : Nat) (cin : Bool) : Bool := decide (2 ^ w ≤ a + b + natOfBool cin)

/-- The borrow of SUBC over W bits (R113). -/
def borrowOut (a b : Nat) (cin : Bool) : Bool := decide (a < b + natOfBool cin)

/-- Entry i of an 8-entry truth table (R124). -/
def tableBit (t : BitVec 8) (a b c : Bool) : Bool :=
  t.getLsbD (4 * natOfBool a + 2 * natOfBool b + natOfBool c)

/-- The write of one condition register. -/
def kWrite (r : Nat) (b : Bool) : Reg × Word := (.k r, BitVec.ofNat 32 (natOfBool b))

end Sys2Proof.Machine
end

