-- ==== Sys2Proof/Machine/Float.lean ====
section
/-! DEFINITION. Floating-point numbers: formats (R48 to R50), rounding (R51), FSUM (R134), comparison (R138 to
R140) and the seeds (R62 to R64). A finite value is an exact dyadic, rounded once. -/

namespace Sys2Proof.Machine

/-- A binary format: exponent and fraction widths (R48). -/
structure Fmt where
  eb : Nat
  fb : Nat
  deriving DecidableEq, Repr

/-- binary32, binary16 and BF16. -/
def fp32 : Fmt := ⟨8, 23⟩
@[inherit_doc fp32] def fp16 : Fmt := ⟨5, 10⟩
@[inherit_doc fp32] def bfp16 : Fmt := ⟨8, 7⟩

/-- The format of a type's elements. -/
def fmtOf (t : Ty) : Fmt :=
  match t with
  | .f16 | .f16x2 => fp16
  | .bf16 | .bf16x2 => bfp16
  | _ => fp32

/-- A value: NaN, an infinity, or (-1)^neg × m × 2^e. -/
inductive FVal where
  | nan
  | inf (neg : Bool)
  | fin (neg : Bool) (m : Nat) (e : Int)
  deriving DecidableEq, Repr

/-- The exponent of the smallest normal. -/
def Fmt.emin (f : Fmt) : Int := 2 - 2 ^ (f.eb - 1)

/-- The bits of an infinity without its sign. -/
def Fmt.infBits (f : Fmt) : Nat := (2 ^ f.eb - 1) * 2 ^ f.fb

/-- The sign bit. -/
def Fmt.signBit (f : Fmt) (neg : Bool) : Nat := if neg then 2 ^ (f.eb + f.fb) else 0

/-- The default NaN (R48, R50). -/
def Fmt.nanBits (f : Fmt) : Nat := f.infBits + 2 ^ (f.fb - 1)

/-- The bits below the sign. -/
def Fmt.mag (f : Fmt) (n : Nat) : Nat := n % 2 ^ (f.eb + f.fb)

/-- The sign of a bit pattern. -/
def Fmt.neg (f : Fmt) (n : Nat) : Bool := bitOf n (f.eb + f.fb)

/-- The value of a bit pattern (R48, R49). -/
def Fmt.unpack (f : Fmt) (n : Nat) : FVal :=
  let x := f.mag n / 2 ^ f.fb
  let q := n % 2 ^ f.fb
  if x = 2 ^ f.eb - 1 then (if q = 0 then .inf (f.neg n) else .nan)
  else if x = 0 then .fin (f.neg n) q (f.emin - f.fb)
  else .fin (f.neg n) (q + 2 ^ f.fb) (f.emin - f.fb + (x - 1))

/-- Whether a magnitude cut to an integer with remainder r of d rounds up (R51). -/
def roundUp (mode : Rnd) (neg : Bool) (sig r d : Nat) : Bool :=
  match mode with
  | .rn => decide (d < 2 * r) || (decide (2 * r = d) && decide (sig % 2 = 1))
  | .rz => false
  | .rm => neg && decide (r ≠ 0)
  | .rp => !neg && decide (r ≠ 0)

/-- m × 2^e as an integer count of 2^q, rounded (R51). -/
def roundAt (mode : Rnd) (neg : Bool) (m : Nat) (e q : Int) : Nat :=
  if q ≤ e then m * 2 ^ (e - q).toNat
  else
    let d := 2 ^ (q - e).toNat
    m / d + natOfBool (roundUp mode neg (m / d) (m % d) d)

/-- An overflowed result (R51); `sat` is the saturation of R147. -/
def Fmt.overflow (f : Fmt) (mode : Rnd) (sat neg : Bool) : Nat :=
  let big := f.signBit neg + f.infBits - 1
  if sat then big
  else
    match mode with
    | .rn => f.signBit neg + f.infBits
    | .rz => big
    | .rm => if neg then f.signBit neg + f.infBits else big
    | .rp => if neg then big else f.signBit neg + f.infBits

/-- The exact value (-1)^neg × m × 2^e rounded once to the format (R49, R51). -/
def Fmt.round (f : Fmt) (mode : Rnd) (sat neg : Bool) (m : Nat) (e : Int) : Nat :=
  if m = 0 then f.signBit neg
  else
    let x := max (e + Nat.log2 m) f.emin
    let sig := roundAt mode neg m e (x - f.fb)
    let enc := (x - f.emin).toNat * 2 ^ f.fb + sig
    if f.infBits ≤ enc then f.overflow mode sat neg else f.signBit neg + enc

/-- The bits of a value in the format. -/
def Fmt.pack (f : Fmt) (mode : Rnd) (sat : Bool) (v : FVal) : Nat :=
  match v with
  | .nan => f.nanBits
  | .inf n => f.signBit n + f.infBits
  | .fin n m e => f.round mode sat n m e

/-- Negation of a term. -/
def FVal.negate : FVal → FVal
  | .nan => .nan
  | .inf n => .inf (!n)
  | .fin n m e => .fin (!n) m e

/-- A product term (R134): NaN where a factor is, or for infinity times zero. -/
def FVal.mul : FVal → FVal → FVal
  | .nan, _ => .nan
  | _, .nan => .nan
  | .inf a, .inf b => .inf (a != b)
  | .inf a, .fin b m _ => if m = 0 then .nan else .inf (a != b)
  | .fin a m _, .inf b => if m = 0 then .nan else .inf (a != b)
  | .fin a m e, .fin b n g => .fin (a != b) (m * n) (e + g)

/-- The sum of two exact values, signed, as an integer count of a common power of two. -/
def exactAdd (x y : Int × Int) : Int × Int :=
  let q := min x.2 y.2
  (x.1 * 2 ^ (x.2 - q).toNat + y.1 * 2 ^ (y.2 - q).toNat, q)

/-- The finite terms' exact sum. -/
def exactSum (l : List FVal) : Int × Int :=
  l.foldl (fun a t =>
    match t with
    | .fin n m e => if m = 0 then a else if a.1 = 0 then ((if n then -(m : Int) else m), e)
        else exactAdd a ((if n then -(m : Int) else m), e)
    | _ => a) (0, 0)

/-- FSUM (R134). -/
def fsum (f : Fmt) (mode : Rnd) (l : List FVal) : Nat :=
  let nan := l.any (fun t => t == .nan)
  let pinf := l.any (fun t => t == .inf false)
  let ninf := l.any (fun t => t == .inf true)
  if nan || (pinf && ninf) then f.nanBits
  else if pinf then f.infBits
  else if ninf then f.signBit true + f.infBits
  else
    let v := exactSum l
    if v.1 = 0 then
      let zero (n : Bool) (t : FVal) : Bool := match t with | .fin s m _ => decide (m = 0) && s == n | _ => false
      if l.all (zero true) then f.signBit true
      else if l.all (zero false) then 0
      else f.signBit (mode == .rm)
    else f.round mode false (decide (v.1 < 0)) v.1.natAbs v.2

/-- The order of R138: -0 below +0. -/
def Fmt.key (f : Fmt) (n : Nat) : Int := if f.neg n then -(f.mag n : Int) - 1 else f.mag n

/-- The order of values (R139): the two zeros are equal. -/
def Fmt.valKey (f : Fmt) (n : Nat) : Int := if f.neg n then -(f.mag n : Int) else f.mag n

/-- A bit pattern is a NaN. -/
def Fmt.isNan (f : Fmt) (n : Nat) : Bool := decide (f.infBits < f.mag n)

/-- FMIN and FMAX (R138): `max` chooses the greater. -/
def Fmt.minmax (f : Fmt) (p big : Bool) (a b : Nat) : Nat :=
  if p && (f.isNan a || f.isNan b) then f.nanBits
  else if f.isNan a && f.isNan b then f.nanBits
  else if f.isNan a then b
  else if f.isNan b then a
  else if big then (if f.key b ≤ f.key a then a else b)
  else (if f.key a ≤ f.key b then a else b)

/-- FCMP's conditions (R139). -/
def Fmt.cmp (f : Fmt) (cc : FCond) (a b : Nat) : Bool :=
  let un := f.isNan a || f.isNan b
  match cc with
  | .eq => !un && decide (f.valKey a = f.valKey b)
  | .ne => un || decide (f.valKey a ≠ f.valKey b)
  | .lt => !un && decide (f.valKey a < f.valKey b)
  | .le => !un && decide (f.valKey a ≤ f.valKey b)
  | .gt => !un && decide (f.valKey b < f.valKey a)
  | .ge => !un && decide (f.valKey b ≤ f.valKey a)
  | .ord => !un
  | .un => un

/-- The class of R140. -/
def Fmt.cls (f : Fmt) (n : Nat) : Nat :=
  let m := f.mag n
  if f.infBits < m then (if bitOf m (f.fb - 1) then 9 else 8)
  else if m = f.infBits then (if f.neg n then 0 else 7)
  else if m = 0 then (if f.neg n then 3 else 4)
  else if m < 2 ^ f.fb then (if f.neg n then 2 else 5)
  else (if f.neg n then 1 else 6)

/-- FSCL (R142). The scale is clamped where every value over- or underflows alike. -/
def Fmt.scale (f : Fmt) (mode : Rnd) (a : Nat) (n : Int) : Nat :=
  match f.unpack a with
  | .nan => f.nanBits
  | .inf _ => a
  | .fin s m e => if m = 0 then a else f.round mode false s m (e + max (-1000) (min 1000 n))

/-- FGEX (R143). -/
def Fmt.gex (f : Fmt) (a : Nat) : Int :=
  match f.unpack a with
  | .fin _ m e => if m = 0 then -(2 ^ 31) else e + Nat.log2 m
  | _ => 2 ^ 31 - 1

/-- A finite value rounded to an integer's magnitude (R144, R148). -/
def roundInt (mode : Rnd) (neg : Bool) (m : Nat) (e : Int) : Nat :=
  -- below 2^-4 - log2 m nothing changes in how it rounds
  roundAt mode neg m e 0

/-- FRND (R144): a value between -1 and 0 rounds by its mode, to -1 under .rm (log 90). -/
def Fmt.rndInt (f : Fmt) (mode : Rnd) (a : Nat) : Nat :=
  match f.unpack a with
  | .nan => f.nanBits
  | .inf _ => a
  | .fin s m e => if m = 0 then a else f.round .rz false s (roundInt mode s m e) 0

/-- CVT from float to float (R147). -/
def cvtFF (src dst : Fmt) (mode : Rnd) (sat : Bool) (a : Nat) : Nat := dst.pack mode sat (src.unpack a)

/-- CVT from float to integer (R148). -/
def cvtFI (src : Fmt) (lo hi : Int) (mode : Rnd) (a : Nat) : Int :=
  match src.unpack a with
  | .nan => 0
  | .inf s => if s then lo else hi
  | .fin s m e =>
    let v : Int := roundInt mode s m e
    max lo (min hi (if s then -v else v))

/-- CVT from integer to float (R149). -/
def cvtIF (dst : Fmt) (mode : Rnd) (sat : Bool) (v : Int) : Nat := dst.round mode sat (decide (v < 0)) v.natAbs 0

/-! Seeds (R62 to R64). -/

/-- A 12-bit significand (or fewer bits, subnormal) times 2^q as binary32. -/
def pack12 (neg : Bool) (sig : Nat) (q : Int) : Nat := fp32.round .rn false neg sig q

/-- RNE12 of num / den × 2^k, positive (R62). -/
def rne12 (num den : Nat) (k : Int) (neg : Bool) : Nat :=
  let l : Int := (Nat.log2 num : Int) - Nat.log2 den
  let ge : Bool := if 0 ≤ l then decide (den * 2 ^ l.toNat ≤ num) else decide (den ≤ num * 2 ^ (-l).toNat)
  let x := k + (if ge then l else l - 1)
  let q := max (x - 11) (-149)
  let n := if q ≤ k then num * 2 ^ (k - q).toNat else num
  let d := if q ≤ k then den else den * 2 ^ (q - k).toNat
  pack12 neg (n / d + natOfBool (roundUp .rn false (n / d) (n % d) d)) q

/-- The operand normalised (R62): its exponent E and F8. -/
def seedParts (m : Nat) (e : Int) : Int × Nat :=
  let l := Nat.log2 m
  (e + l, if 8 ≤ l then m / 2 ^ (l - 8) % 256 else m * 2 ^ (8 - l) % 256)

/-- FRCPS (R63, R64). -/
def frcps (a : Nat) : Nat :=
  match fp32.unpack a with
  | .nan => fp32.nanBits
  | .inf s => fp32.signBit s
  | .fin s m e =>
    if m = 0 then fp32.signBit s + fp32.infBits
    else
      let (x, f8) := seedParts m e
      rne12 512 (513 + 2 * f8) (-x) s

/-- Binary search: the greatest s below 2^b whose test holds, from the highest bit down. -/
def greatest (ok : Nat → Bool) : Nat → Nat → Nat
  | 0, s => s
  | b + 1, s => greatest ok b (if ok (s + 2 ^ b) then s + 2 ^ b else s)

/-- FRSQS (R63, R64). -/
def frsqs (a : Nat) : Nat :=
  match fp32.unpack a with
  | .nan => fp32.nanBits
  | .inf s => if s then fp32.nanBits else 0
  | .fin s m e =>
    if m = 0 then fp32.signBit s + fp32.infBits
    else if s then fp32.nanBits
    else
      let (x, f8) := seedParts m e
      let den := if x % 2 = 0 then 513 + 2 * f8 else 2 * (513 + 2 * f8)
      let t := if x % 2 = 0 then x / 2 else (x - 1) / 2
      -- y × 2^(t + 12) = sqrt (2^33 / den)
      let sig := greatest (fun n => decide (n * n * den ≤ 2 ^ 33)) 13 0
      let up := decide ((2 * sig + 1) * (2 * sig + 1) * den < 2 ^ 35) ||
        (decide ((2 * sig + 1) * (2 * sig + 1) * den = 2 ^ 35) && decide (sig % 2 = 1))
      pack12 false (sig + natOfBool up) (-t - 12)

/-- FEXS (R63, R64). -/
def fexs (a : Nat) : Nat :=
  match fp32.unpack a with
  | .nan => fp32.nanBits
  | .inf s => if s then 0 else fp32.infBits
  | .fin s m e =>
    if m = 0 then 0x3F800000
    else if 8 ≤ e + Nat.log2 m then (if s then 0 else fp32.infBits)
    else if 7 ≤ e + Nat.log2 m && !s then fp32.infBits
    else
      -- 256 × x, rounded down
      let z : Int := if s then -(m : Int) else m
      let h : Int := if 0 ≤ e + 8 then z * 2 ^ (e + 8).toNat else z / 2 ^ (-(e + 8)).toNat
      let n := h / 256
      let i := (h % 256).toNat
      let q := max (n - 11) (-149)
      let g : Int := (n - q) * 512 + 2 * i + 1
      if g < -512 then 0
      else
        let sig := if g < 0 then 0 else greatest (fun x => decide (x ^ 512 ≤ 2 ^ g.toNat)) 13 0
        let up := decide ((2 * sig + 1) ^ 512 < 2 ^ (g + 512).toNat)
        pack12 false (sig + natOfBool up) q

/-- FLGS (R63, R64). -/
def flgs (a : Nat) : Nat :=
  match fp32.unpack a with
  | .nan => fp32.nanBits
  | .inf s => if s then fp32.nanBits else fp32.infBits
  | .fin s m e =>
    if m = 0 then fp32.signBit true + fp32.infBits
    else if s then fp32.nanBits
    else
      let (x, f8) := seedParts m e
      let k := 513 + 2 * f8
      let r := greatest (fun r => decide (2 ^ r * 512 ^ 4096 ≤ k ^ 4096)) 12 0
      let up := decide (2 ^ (2 * r + 1) * 512 ^ 8192 < k ^ 8192)
      let v : Int := x * 4096 + (r + natOfBool up : Nat)
      fp32.round .rn false (decide (v < 0)) v.natAbs (-12)

end Sys2Proof.Machine
end

