-- ==== Sys2Proof/Machine/Matrix.lean ====
section
/-! DEFINITION. Matrix and drain arithmetic (R45 to R61, R229, R230, R235, R236, R240). -/

namespace Sys2Proof.Machine

/-- The fixed-point weight of a DS8 code, 2^7 times its value (R52, R54). -/
def ds8 (b : Nat) : Int :=
  let t (s : Bool) (e : Nat) : Int := if s then -(2 ^ (7 - e) : Nat) else (2 ^ (7 - e) : Nat)
  t (bitOf b 7) (bitsOf b 6 4) + t (bitOf b 3) (bitsOf b 2 0)

/-- The same of a DS4 code (R53, R54). -/
def ds4 (b : Nat) : Int :=
  if b = 15 then 0 else if bitOf b 3 then -(2 ^ (7 - b % 8) : Nat) else (2 ^ (7 - b % 8) : Nat)

/-- A signed byte. -/
def sByte (b : Nat) : Int := if b < 128 then (b : Int) else (b : Int) - 256

/-- A scale byte as significand and exponent: significand × 2^exponent; significand 0 for code 0 (R55). -/
def sc8 (b : Nat) : Nat × Int := if b = 0 then (0, 0) else (4 + b % 4, (b / 4 : Nat) - 42)

/-- ACCADD (R60). -/
def accAdd (c : Nat) (t : FVal) : Nat :=
  match t with
  | .fin _ 0 _ => if fp32.isNan c then fp32.nanBits else c
  | _ => fsum fp32 .rn [fp32.unpack c, t]

/-- A finite value with a signed significand. -/
def finOf (z : Int) (e : Int) : FVal := .fin (decide (z < 0)) z.natAbs e

/-- The bytes of a K block of the panel (R230). -/
def panelStride (m : MMode) : Nat :=
  match m with
  | .ds8 | .ds4 => 4160
  | .bfds8 | .bfbf => 8192

/-- The weight at row k, column n of a slot (R225), as 2^7 times its value. -/
def weight (mode : MMode) (slot : Nat → Nat) (k n : Nat) : Int :=
  match mode with
  | .ds4 =>
    let b := slot (k / 2 * 64 + n)
    ds4 (if k % 2 = 0 then b % 16 else b / 16)
  | _ => ds8 (slot (k * 64 + n))

/-- The scale of block b, column n of a slot of K rows (R225). -/
def slotScale (mode : MMode) (slot : Nat → Nat) (kk b n : Nat) : Nat × Int :=
  sc8 (slot (match mode with | .ds4 => kk * 32 + b * 64 + n | _ => kk * 64 + b * 64 + n))

/-- The term of one 64-element block in an integer mode (R59). -/
def blockTerm (mode : MMode) (panel slot : Nat → Nat) (kk m n b : Nat) : FVal :=
  let s := (List.range 64).foldl
    (fun (z : Int) k => z + sByte (panel (b * 4160 + m * 64 + k)) * weight mode slot (b * 64 + k) n) 0
  let (ma, ea) := sc8 (panel (b * 4160 + 4096 + m))
  let (mw, ew) := slotScale mode slot kk b n
  finOf (s * ma * mw) (ea + ew - 7)

/-- The BF16 value of A at row m, column k of the panel. -/
def panelBf (panel : Nat → Nat) (m k : Nat) : FVal :=
  let a := k / 64 * 8192 + m * 128 + (k % 64) * 2
  bfp16.unpack (panel a + 256 * panel (a + 1))

/-- The term of one k in a BF16 mode (R59). -/
def stepTerm (mode : MMode) (panel slot : Nat → Nat) (kk m n k : Nat) : FVal :=
  let a := panelBf panel m k
  match mode with
  | .bfbf => a.mul (bfp16.unpack (slot (2 * (k * 64 + n)) + 256 * slot (2 * (k * 64 + n) + 1)))
  | _ =>
    let (mw, ew) := slotScale mode slot kk (k / 64) n
    a.mul (finOf (weight mode slot k n * mw) (ew - 7))

/-- One element after an operation of K rows (R60). -/
def mmaElem (mode : MMode) (panel slot : Nat → Nat) (kk m n c : Nat) : Nat :=
  match mode with
  | .ds8 | .ds4 => (List.range (kk / 64)).foldl (fun c b => accAdd c (blockTerm mode panel slot kk m n b)) c
  | .bfds8 | .bfbf => (List.range kk).foldl (fun c k => accAdd c (stepTerm mode panel slot kk m n k)) c

/-- What the operation leaves in the j-th of its banks (R229): `bank` is what that bank holds. -/
def mmaBank (op : MOp) (panel slot : Nat → Nat) (bank : List Word) (j : Nat) : List Word :=
  let mh := if op.acc.quad then j / 2 else natOfBool op.mh
  let nh := if op.acc.quad then j % 2 else natOfBool op.nh
  bank.zipIdx.map (fun e =>
    BitVec.ofNat 32 (mmaElem op.mode panel slot op.k (32 * mh + e.2 / 32) (32 * nh + e.2 % 32) e.1.toNat))

/-! The drain. -/

/-- x ≤ y for m × 2^e and m' × 2^e'. -/
def dyLe (m : Nat) (e : Int) (m' : Nat) (e' : Int) : Bool :=
  let l := min e e'
  decide (m * 2 ^ (e - l).toNat ≤ m' * 2 ^ (e' - l).toNat)

/-- The covering code of magnitude μ for limit L (R58). -/
def coverCode (l : Nat) (mu : FVal) : Nat :=
  match mu with
  | .nan | .inf _ => 0xFF
  | .fin _ 0 _ => 0
  | .fin _ m e =>
    ((List.range 255).map (· + 1)).find? (fun c => dyLe m e (l * (sc8 c).1) (sc8 c).2) |>.getD 0xFF

/-- The larger magnitude; a NaN or infinity prevails. -/
def maxMag (a b : FVal) : FVal :=
  match a, b with
  | .nan, _ | _, .nan => .nan
  | .inf _, _ | _, .inf _ => .inf false
  | .fin _ m e, .fin _ m' e' => if dyLe m e m' e' then .fin false m' e' else .fin false m e

/-- round_half_even of num / den. -/
def rheDiv (num den : Nat) : Nat :=
  let q := num / den
  let r := num % den
  if den < 2 * r ∨ (2 * r = den ∧ q % 2 = 1) then q + 1 else q

/-- An element quantised to a block format with limit L and scale code: the code and the residue (R236). -/
def quantise (l : Nat) (code : Nat) (v : Nat) : Int × Nat :=
  let (ms, es) := sc8 code
  let sig : Nat := fp32.round .rn false false ms es
  match fp32.unpack v with
  | .nan => (0, 0)
  | .inf s =>
    if ms = 0 then (0, 0)
    else (if s then -(l : Int) else l, fp32.signBit s + sig)
  | .fin s m e =>
    if ms = 0 then (0, 0)
    else
      let k := min e es
      let q := Nat.min (rheDiv (m * 2 ^ (e - k).toNat) (ms * 2 ^ (es - k).toNat)) l
      let qz : Int := if s then -(q : Int) else q
      let r := fsum fp32 .rn [.fin s m e, finOf (-(qz * ms)) es]
      let r := if fp32.mag r > sig then fp32.signBit (fp32.neg r) + sig else r
      (qz, r)

/-- One element of a drain: its code as bits of the format, and the residue passed on (R236). -/
def drainElem (fmt : QFmt) (code v : Nat) : Nat × Nat :=
  match fmt with
  | .bx8 => let (q, e) := quantise 127 code v; ((q % 256).toNat, e)
  | .bx4 => let (q, e) := quantise 7 code v; ((q % 16).toNat, e)
  | .bf16 =>
    let q := cvtFF fp32 bfp16 .rn false v
    let fin : Bool := match fp32.unpack v, bfp16.unpack q with | .fin .., .fin .. => true | _, _ => false
    (q, if fin then fsum fp32 .rn [fp32.unpack v, (bfp16.unpack q).negate] else 0)
  | .f32 => (v, 0)

/-- Element (m, n) of a bank, or of a quad's four banks (R229). -/
def accElem (banks : List (List Word)) (m n : Nat) : Nat :=
  if banks.length = 1 then (((banks.headD [])[m * 32 + n]?).getD 0).toNat
  else ((((banks[2 * (m / 32) + n / 32]?).getD [])[m % 32 * 32 + n % 32]?).getD 0).toNat

/-- acc × post + e, rounded (R236). -/
def drainVal (acc : Nat) (post e : Nat) : Nat :=
  fsum fp32 .rn [(fp32.unpack acc).mul (fp32.unpack post), fp32.unpack e]

/-- The codes of a tile's blocks, by row for BAXIS 0 and by column for BAXIS 1 (R236). -/
def drainCodes (fmt : QFmt) (blk : Bool) (fixed : Nat) (baxis : Bool) (banks : List (List Word)) (post : Nat) :
    List Nat :=
  let l := if fmt = .bx8 then 127 else 7
  (List.range 64).map (fun i =>
    if blk then
      coverCode l ((List.range 64).foldl (fun mu j =>
        let (m, n) := if baxis then (j, i) else (i, j)
        maxMag mu (fp32.unpack (fsum fp32 .rn [(fp32.unpack (accElem banks m n)).mul (fp32.unpack post)])))
        (.fin false 0 0))
    else fixed)

/-- Drains one line: the codes along it, the values counted, and the residue it leaves (R236). -/
def drainLine (fmt : QFmt) (baxis axisM : Bool) (codes : List Nat) (banks : List (List Word)) (post r : Nat) :
    List Nat → Nat → List Nat × List Nat × Nat
  | [], e => ([], [], e)
  | j :: js, e =>
    let (m, n) := if axisM then (j, r) else (r, j)
    let v := drainVal (accElem banks m n) post e
    let (q, e) := drainElem fmt ((codes[if baxis then n else m]?).getD 0) v
    let (qs, vs, e) := drainLine fmt baxis axisM codes banks post r js e
    (q :: qs, v :: vs, e)

/-- The bin of a value (R240). -/
def histBin (base : Int) (v : Nat) : Nat :=
  match fp32.unpack v with
  | .nan | .inf _ => 31
  | .fin _ 0 _ => 0
  | _ =>
    let i := fp32.gex v - base + 1
    if i < 1 then 0 else if 30 < i then 31 else i.toNat

/-- A tile's bytes from its element codes, row-major in `q` (R210). -/
def tileBytesOf (fmt : QFmt) (baxis : Bool) (d : Nat) (q : Nat → Nat → Nat) : List Byte :=
  let b (n : Nat) : Byte := BitVec.ofNat 8 n
  match fmt with
  | .f32 => (List.range (d * d)).flatMap (fun i => bytesOfNat 4 (q (i / d) (i % d)))
  | .bf16 => (List.range (d * d)).flatMap (fun i => bytesOfNat 2 (q (i / d) (i % d)))
  | .bx8 => (List.range (d * d)).map (fun i => b (q (i / d) (i % d)))
  | .bx4 =>
    (List.range (d * d / 2)).map (fun i =>
      if baxis then b (q (i / d * 2) (i % d) + 16 * q (i / d * 2 + 1) (i % d))
      else b (q (2 * i / d) (2 * i % d) + 16 * q (2 * i / d) (2 * i % d + 1)))

end Sys2Proof.Machine
end

