-- ==== Sys2Proof/Machine/Integer.lean ====
section
/-! DEFINITION. Integer, logic and address instructions (R111 to R130), and NOP (R85). -/

namespace Sys2Proof.Machine

/-- The limits of an integer type (R47). -/
def intMin (t : Ty) : Int := if t.signed then -(2 ^ (t.width - 1)) else 0
@[inherit_doc intMin] def intMax (t : Ty) : Int := if t.signed then 2 ^ (t.width - 1) - 1 else 2 ^ t.width - 1

/-- An exact result, wrapped or saturated (R112). -/
def wrapOrSat (sat : Bool) (t : Ty) (v : Int) : DWord :=
  ofIntVal t (if sat then max (intMin t) (min (intMax t) v) else v)

/-- The operand as an integer of the type. -/
def View.int (v : View) (t : Ty) (a : Src) : Int := intVal t (v.src t a)

/-- The operand as W bits, unsigned. -/
def View.nat (v : View) (t : Ty) (a : Src) : Nat := (v.src t a).toNat % 2 ^ t.width

/-- W bits as a destination's value. -/
def ofBits (t : Ty) (n : Nat) : DWord := BitVec.ofNat 64 (n % 2 ^ t.width)

/-- A two-operand integer operation's writes. -/
def arith2 (sat : Bool) (t : Ty) (d : Dst) (a b : Src) (f : Int → Int → Int) (v : View) : List (Reg × Word) :=
  dstWrites d t.wide (wrapOrSat sat t (f (v.int t a) (v.int t b)))

/-- A two-operand bitwise operation's writes. -/
def bits2 (t : Ty) (d : Dst) (a b : Src) (f : Nat → Nat → Nat) (v : View) : List (Reg × Word) :=
  dstWrites d t.wide (ofBits t (f (v.nat t a) (v.nat t b)))

/-- NOP (R85). -/
def execNop (c : Ctl) (s : State) : Host.Outcome State Fault Refusal := alu (.nop c) c (fun _ => []) s

/-- ADD (R112). -/
def execAdd (c : Ctl) (sat : Bool) (t : Ty) (d : Dst) (a b : Src) (s : State) : Host.Outcome State Fault Refusal :=
  alu (.add c sat t d a b) c (arith2 sat t d a b (· + ·)) s

/-- SUB (R112). -/
def execSub (c : Ctl) (sat : Bool) (t : Ty) (d : Dst) (a b : Src) (s : State) : Host.Outcome State Fault Refusal :=
  alu (.sub c sat t d a b) c (arith2 sat t d a b (· - ·)) s

/-- ADDC (R113): the sum modulo 2^W, and the carry back in k[c]. -/
def execAddc (c : Ctl) (t : Ty) (d : Dst) (a b : Src) (k : Fin 7) (s : State) : Host.Outcome State Fault Refusal :=
  alu (.addc c t d a b k) c (fun v =>
    let cin := v.kreg k.val
    dstWrites d t.wide (ofBits t (v.nat t a + v.nat t b + natOfBool cin)) ++
      [kWrite k.val (carryOut t.width (v.nat t a) (v.nat t b) cin)]) s

/-- SUBC (R113): the difference modulo 2^W, and the borrow back in k[c]. -/
def execSubc (c : Ctl) (t : Ty) (d : Dst) (a b : Src) (k : Fin 7) (s : State) : Host.Outcome State Fault Refusal :=
  alu (.subc c t d a b k) c (fun v =>
    let cin := v.kreg k.val
    dstWrites d t.wide (ofBits t (v.nat t a + 2 * 2 ^ t.width - v.nat t b - natOfBool cin)) ++
      [kWrite k.val (borrowOut (v.nat t a) (v.nat t b) cin)]) s

/-- MUL (R112). -/
def execMul (c : Ctl) (t : Ty) (d : Dst) (a b : Src) (s : State) : Host.Outcome State Fault Refusal :=
  alu (.mul c t d a b) c (arith2 false t d a b (· * ·)) s

/-- MULH (R114): the upper half of the exact product. -/
def execMulh (c : Ctl) (t : Ty) (d : Dst) (a b : Src) (s : State) : Host.Outcome State Fault Refusal :=
  alu (.mulh c t d a b) c (arith2 false t d a b (fun x y => x * y / 2 ^ t.width)) s

/-- MAD (R112). -/
def execMad (c : Ctl) (t : Ty) (d : Dst) (a b e : Src) (s : State) : Host.Outcome State Fault Refusal :=
  alu (.mad c t d a b e) c (fun v => dstWrites d t.wide (ofIntVal t (v.int t a * v.int t b + v.int t e))) s

/-- The quotient of R115. -/
def divVal (t : Ty) (a b : Int) : Int :=
  if b = 0 then (if t.signed then -1 else intMax t) else a.tdiv b

/-- The remainder of R115. -/
def remVal (a b : Int) : Int := if b = 0 then a else a.tmod b

/-- DIV (R115). -/
def execDiv (c : Ctl) (t : Ty) (d : Dst) (a b : Src) (s : State) : Host.Outcome State Fault Refusal :=
  aluVar (.div c t d a b) c (arith2 false t d a b (divVal t)) s

/-- REM (R115). -/
def execRem (c : Ctl) (t : Ty) (d : Dst) (a b : Src) (s : State) : Host.Outcome State Fault Refusal :=
  aluVar (.rem c t d a b) c (arith2 false t d a b remVal) s

/-- ABS (R112). -/
def execAbs (c : Ctl) (sat : Bool) (t : Ty) (d : Dst) (a : Src) (s : State) : Host.Outcome State Fault Refusal :=
  alu (.abs c sat t d a) c (fun v => dstWrites d t.wide (wrapOrSat sat t ((v.int t a).natAbs : Int))) s

/-- MIN (R112). -/
def execMin (c : Ctl) (t : Ty) (d : Dst) (a b : Src) (s : State) : Host.Outcome State Fault Refusal :=
  alu (.min c t d a b) c (arith2 false t d a b (fun x y => if x ≤ y then x else y)) s

/-- MAX (R112). -/
def execMax (c : Ctl) (t : Ty) (d : Dst) (a b : Src) (s : State) : Host.Outcome State Fault Refusal :=
  alu (.max c t d a b) c (arith2 false t d a b (fun x y => if x ≥ y then x else y)) s

/-- AND (R116). -/
def execAnd (c : Ctl) (t : Ty) (d : Dst) (a b : Src) (s : State) : Host.Outcome State Fault Refusal :=
  alu (.and c t d a b) c (bits2 t d a b (· &&& ·)) s

/-- OR (R116). -/
def execOr (c : Ctl) (t : Ty) (d : Dst) (a b : Src) (s : State) : Host.Outcome State Fault Refusal :=
  alu (.or c t d a b) c (bits2 t d a b (· ||| ·)) s

/-- XOR (R116). -/
def execXor (c : Ctl) (t : Ty) (d : Dst) (a b : Src) (s : State) : Host.Outcome State Fault Refusal :=
  alu (.xor c t d a b) c (bits2 t d a b (· ^^^ ·)) s

/-- ANDN (R116). -/
def execAndn (c : Ctl) (t : Ty) (d : Dst) (a b : Src) (s : State) : Host.Outcome State Fault Refusal :=
  alu (.andn c t d a b) c (bits2 t d a b (fun x y => x &&& (2 ^ t.width - 1 - y))) s

/-- NOT (R116). -/
def execNot (c : Ctl) (t : Ty) (d : Dst) (a : Src) (s : State) : Host.Outcome State Fault Refusal :=
  alu (.not c t d a) c (fun v => dstWrites d t.wide (ofBits t (2 ^ t.width - 1 - v.nat t a))) s

/-- A shift amount: the unsigned 32-bit value of b (R117). -/
def View.amount (v : View) (n : Src) : Nat := (v.src32 n).toNat

/-- SHL (R117). -/
def execShl (c : Ctl) (t : Ty) (d : Dst) (a n : Src) (s : State) : Host.Outcome State Fault Refusal :=
  alu (.shl c t d a n) c (fun v =>
    dstWrites d t.wide (if t.width ≤ v.amount n then 0 else ofBits t (v.nat t a * 2 ^ v.amount n))) s

/-- SHR (R117). -/
def execShr (c : Ctl) (t : Ty) (d : Dst) (a n : Src) (s : State) : Host.Outcome State Fault Refusal :=
  alu (.shr c t d a n) c (fun v =>
    dstWrites d t.wide (if t.width ≤ v.amount n then 0 else ofBits t (v.nat t a / 2 ^ v.amount n))) s

/-- SHA (R117). -/
def execSha (c : Ctl) (t : Ty) (d : Dst) (a n : Src) (s : State) : Host.Outcome State Fault Refusal :=
  alu (.sha c t d a n) c (fun v =>
    dstWrites d t.wide (ofIntVal t (v.int t a / 2 ^ Nat.min (v.amount n) (t.width - 1)))) s

/-- ROT (R117). -/
def execRot (c : Ctl) (right : Bool) (t : Ty) (d : Dst) (a n : Src) (s : State) : Host.Outcome State Fault Refusal :=
  alu (.rot c right t d a n) c (fun v =>
    let m := v.amount n % t.width
    let x := v.nat t a
    dstWrites d t.wide (ofBits t
      (if right then x / 2 ^ m + x * 2 ^ (t.width - m) else x * 2 ^ m + x / 2 ^ (t.width - m)))) s

/-- FSH (R118). -/
def execFsh (c : Ctl) (left : Bool) (d : Dst) (a b n : Src) (s : State) : Host.Outcome State Fault Refusal :=
  alu (.fsh c left d a b n) c (fun v =>
    let m := v.amount n % 32
    let j := v.nat .b32 a * 2 ^ 32 + v.nat .b32 b
    dstWrites d false (ofBits .b32 (if left then j * 2 ^ m / 2 ^ 32 else j / 2 ^ m))) s

/-- Leading zeros of the W low bits. -/
def clzNat (w n : Nat) : Nat := if n = 0 then w else w - 1 - Nat.log2 n

/-- One bits among the first w. -/
def popNat : Nat → Nat → Nat
  | 0, _ => 0
  | w + 1, n => n % 2 + popNat w (n / 2)

/-- The first w bits, reversed. -/
def revNat : Nat → Nat → Nat
  | 0, _ => 0
  | w + 1, n => n % 2 * 2 ^ w + revNat w (n / 2)

/-- CLZ (R119): a 32-bit destination. -/
def execClz (c : Ctl) (t : Ty) (d : Dst) (a : Src) (s : State) : Host.Outcome State Fault Refusal :=
  alu (.clz c t d a) c (fun v => dstWrites d false (BitVec.ofNat 64 (clzNat t.width (v.nat t a)))) s

/-- POPC (R119): a 32-bit destination. -/
def execPopc (c : Ctl) (t : Ty) (d : Dst) (a : Src) (s : State) : Host.Outcome State Fault Refusal :=
  alu (.popc c t d a) c (fun v => dstWrites d false (BitVec.ofNat 64 (popNat t.width (v.nat t a)))) s

/-- BREV (R119). -/
def execBrev (c : Ctl) (t : Ty) (d : Dst) (a : Src) (s : State) : Host.Outcome State Fault Refusal :=
  alu (.brev c t d a) c (fun v => dstWrites d t.wide (BitVec.ofNat 64 (revNat t.width (v.nat t a)))) s

/-- The field of BFX (R120): descriptor f, operand a of a type. -/
def bfxVal (t : Ty) (a : Int) (f : Nat) : Int :=
  let l := Nat.min (bitsOf f 15 8) t.width
  let field := (a / 2 ^ bitsOf f 7 0) % 2 ^ l
  if l = 0 then 0 else if t.signed && decide (2 ^ (l - 1) ≤ field) then field - 2 ^ l else field

/-- BFX (R120). -/
def execBfx (c : Ctl) (t : Ty) (d : Dst) (a f : Src) (s : State) : Host.Outcome State Fault Refusal :=
  alu (.bfx c t d a f) c (fun v => dstWrites d t.wide (ofIntVal t (bfxVal t (v.int t a) (v.amount f)))) s

/-- The result of BFI (R120). -/
def bfiVal (w a b f : Nat) : Nat :=
  let p := bitsOf f 7 0
  if w ≤ p then a
  else
    let l := Nat.min (bitsOf f 15 8) (w - p)
    a % 2 ^ p + b % 2 ^ l * 2 ^ p + a / 2 ^ (p + l) * 2 ^ (p + l)

/-- BFI (R120). -/
def execBfi (c : Ctl) (t : Ty) (d : Dst) (a b f : Src) (s : State) : Host.Outcome State Fault Refusal :=
  alu (.bfi c t d a b f) c (fun v =>
    dstWrites d t.wide (ofBits t (bfiVal t.width (v.nat t a) (v.nat t b) (v.amount f)))) s

/-- One byte of PRM's result (R121). -/
def prmByte (x sel i : Nat) : Nat :=
  let n := bitsOf sel (4 * i + 3) (4 * i)
  let y := x / 2 ^ (8 * (n % 8)) % 256
  if n < 8 then y else if 128 ≤ y then 255 else 0

/-- PRM (R121). -/
def execPrm (c : Ctl) (d : Dst) (a b sel : Src) (s : State) : Host.Outcome State Fault Refusal :=
  alu (.prm c d a b sel) c (fun v =>
    let x := v.nat .b32 b * 2 ^ 32 + v.nat .b32 a
    let n := v.amount sel
    dstWrites d false (BitVec.ofNat 64
      (prmByte x n 0 + 2 ^ 8 * prmByte x n 1 + 2 ^ 16 * prmByte x n 2 + 2 ^ 24 * prmByte x n 3))) s

/-- A value as its type's register or pair keeps it (R125). -/
def moveVal (t : Ty) (x : DWord) : DWord :=
  if t.isInt then ofIntVal t (intVal t x)
  else match t with
    | .f16 | .bf16 => (x.setWidth 16).setWidth 64
    | _ => x

/-- SEL (R122): the full width of the type, bit for bit. -/
def execSel (c : Ctl) (t : Ty) (d : Dst) (a b : Src) (k : Fin 8) (s : State) : Host.Outcome State Fault Refusal :=
  alu (.sel c t d a b k) c (fun v => dstWrites d t.wide (moveVal t (if v.kf k then v.src t a else v.src t b))) s

/-- CMP (R123, R131). -/
def execCmp (c : Ctl) (cc : Cond) (op : KComb) (t : Ty) (d : Fin 7) (a b : Src) (s : State) :
    Host.Outcome State Fault Refusal :=
  aluAt (.cmp c cc op t d a b) c (fun h v =>
    [kWrite d.val (combine op v (condHolds cc (v.int (h.cmpType t) a) (v.int (h.cmpType t) b)))]) s

/-- KOP (R124). -/
def execKop (c : Ctl) (d : Fin 7) (ka kb kc : Fin 8) (table : BitVec 8) (s : State) :
    Host.Outcome State Fault Refusal :=
  alu (.kop c d ka kb kc table) c (fun v => [kWrite d.val (tableBit table (v.kf ka) (v.kf kb) (v.kf kc))]) s

/-- MOV (R125). -/
def execMov (c : Ctl) (t : Ty) (d : Dst) (a : Src) (s : State) : Host.Outcome State Fault Refusal :=
  alu (.mov c t d a) c (fun v => dstWrites d t.wide (moveVal t (v.src t a))) s

/-- The value of MOVI (R126). -/
def moviVal (hi : Bool) (t : Ty) (e : Word) : DWord :=
  if hi then e.setWidth 64 <<< 32 else match t with | .i64 => e.signExtend 64 | _ => e.setWidth 64

/-- MOVI (R126). -/
def execMovi (c : Ctl) (hi : Bool) (t : Ty) (d : Dst) (e : Word) (s : State) : Host.Outcome State Fault Refusal :=
  alu (.movi c hi t d e) c (fun _ => dstWrites d t.wide (moviVal hi t e)) s

/-- MOVS (R127): reads or writes s[i], or the pair, at i = IDX + B, or IDX + 2 B for .b64. A write is legal in a
uniform block only. -/
def execMovs (c : Ctl) (t : Ty) (dir : MovsDir) (i : BitVec 10) (b : Src) (s : State) :
    Host.Outcome State Fault Refusal :=
  issue (.movs c t dir i b) c s (fun h s =>
    match dir, h.pass.uniform with
    | .write _, false => .bad
    | .read d, _ =>
      .done ((h.taking c s).foldl (fun u ag =>
        let v := s.view ag
        u.putRegs ag (dstWrites d t.wide (v.regs (v.movsRegs ⟨false, t, i, b⟩)))) s)
    | .write a, true =>
      .done ((h.taking c s).foldl (fun u ag =>
        let v := s.view ag
        let x := v.src t a
        match v.movsRegs ⟨true, t, i, b⟩ with
        | [r] => u.putRegs ag [(r, x.setWidth 32)]
        | [lo, hi] => u.putRegs ag [(lo, x.setWidth 32), (hi, (x >>> 32).setWidth 32)]
        | _ => u) s))

/-- LEA (R129): base + (index << N) + displacement, modulo 2^W. -/
def execLea (c : Ctl) (n : BitVec 3) (t : Ty) (d : Dst) (a b e : Src) (s : State) :
    Host.Outcome State Fault Refusal :=
  alu (.lea c n t d a b e) c (fun v =>
    let bx : Int := if t.signed then (v.src32 b).toInt else (v.src32 b).toNat
    let cx : Int := (v.src32 e).toInt
    dstWrites d t.wide (ofIntVal t (v.nat t a + bx * 2 ^ n.toNat + cx))) s

/-- The identity values (R32, R130). -/
def idVal (p : Place) (core : Nat) (a : Agent) (sel : IdSel) : Nat :=
  let tid := match a with | .thread _ t => t | .uniform _ => 0
  match sel with
  | .tid => tid
  | .wpos => tid % 32
  | .wave => tid / 32
  | .team => p.team.index
  | .clx => p.cluster.cx
  | .cly => p.cluster.cy
  | .clz => p.cluster.cz
  | .gdx => p.launch.gx
  | .gdy => p.launch.gy
  | .gdz => p.launch.gz
  | .nthr => p.launch.threads
  | .nteam => p.launch.tpc
  | .core => core
  | .home => p.team.home
  | .cpos =>
    (core % 128 / 16 - p.cluster.origin % 128 / 16) * p.cluster.w + (core % 16 - p.cluster.origin % 16)
  | .tcap => p.image.threads
  | .cshape => p.cluster.w + 256 * p.cluster.h

/-- The selectors that are not uniform (R32). -/
def IdSel.varies : IdSel → Bool
  | .tid | .wpos | .wave | .core | .cpos => true
  | _ => false

/-- ID (R130). -/
def execId (c : Ctl) (sel : IdSel) (d : Dst) (s : State) : Host.Outcome State Fault Refusal :=
  issue (.id c sel d) c s (fun h s =>
    if h.pass.uniform && IdSel.varies sel then .bad
    else .done ((h.taking c s).foldl (fun u a =>
      u.putRegs a (dstWrites d false (BitVec.ofNat 64 (idVal h.place h.core a sel)))) s))

end Sys2Proof.Machine
end

