-- ==== Sys2Proof/Machine/Control.lean ====
section
/-! DEFINITION. Control, thread and synchronisation instructions (R153 to R176): leaving a block, threads,
barrier and convergence registers, wave collectives. -/

namespace Sys2Proof.Machine

/-! Leaving a block (R70, R156). -/

/-- The first 64-byte boundary after the instruction's last byte. -/
def Here.fallThrough (h : Here) (c : Ctl) : Nat := (h.group.off + c.form.bytes + 63) / 64 * 64

/-- How an agent leaves the block. -/
def State.setLeave (s : State) (a : Agent) (l : Leave) : State :=
  match a with
  | .thread team tid => s.modThread team tid (fun t => { t with leave := some l })
  | .uniform team => s.modTeam team (fun t => { t with uleave := some l })

/-- Ends the block: lanes whose guard fails take the fall-through, the others do as `f` says. -/
def State.endBlock (s : State) (h : Here) (c : Ctl) (f : Agent → View → State → State) : State :=
  let s := s.modGroup h.pid h.gid (fun g => { g with done := true })
  eachLane h.agents (fun a s =>
    let v := s.view a
    if c.guard.holds v then f a v s else s.setLeave a (.goto (h.fallThrough c))) s

/-- The entry offset of a block (R154). -/
def Here.entry (h : Here) (k : Blk) : Option Nat := (h.place.image.blocks[k.index]?).map (·.off)

/-- BR (R158). -/
def execBr (c : Ctl) (z : Bool) (a : Src) (k : Blk) (s : State) : Host.Outcome State Fault Refusal :=
  issue (.br c z a k) c s (fun h s =>
    match h.entry k with
    | none => .bad
    | some e => .done (s.endBlock h c (fun ag v s =>
        s.setLeave ag (.goto (if (v.src32 a == 0) == z then e else h.fallThrough c)))))

/-- What an indirect target comes to (R159): a block, or the code of the trap. -/
def Here.indirect (h : Here) (cls : Blk) (target : Nat) : Except Nat Nat :=
  if target % 64 ≠ 0 then .error 0x03
  else
    match h.place.image.blocks.find? (fun b => b.off == target), h.place.image.blocks[cls.index]? with
    | some b, some k => if target < h.place.image.codeLen ∧ b.ann = k.ann then .ok target else .error 0x04
    | _, _ => .error 0x04

/-- BRX (R159). -/
def execBrx (c : Ctl) (a : Src) (k : Blk) (s : State) : Host.Outcome State Fault Refusal :=
  issue (.brx c a k) c s (fun h s =>
    .done (s.endBlock h c (fun ag v s =>
      let t := (v.src32 a).toNat
      match h.indirect k t with
      | .ok o => s.setLeave ag (.goto o)
      | .error code => s.trap ag code h.group.off t)))

/-! Thread-local memory (R35). -/

/-- The device address of a thread's local area, with LOCDEV (R35). -/
def Place.locBase (p : Place) (tid : Nat) : Nat :=
  let l := (p.image.locSz + 63) / 64 * 64
  let cl := (p.cluster.cz * p.launch.gy + p.cluster.cy) * p.launch.gx + p.cluster.cx
  p.launch.locbase + ((cl * p.launch.tpc + p.team.index) * p.image.threads + tid) * l

/-- The use of device memory that an access of a thread's local area makes, with LOCDEV (R35). -/
def Place.locUse (p : Place) (ag : Agent) (off n : Nat) (write : Bool) : List DevUse :=
  match ag with
  | .thread _ tid => if p.launch.locdev then [⟨ag, p.locBase tid + off, n, !write, write⟩] else []
  | .uniform _ => []

/-- A store to a thread's local area that lies in device memory: in a CONF tile it stops the team (R212), in a read-only page
the thread (R19, R274); else it goes on. -/
def State.locStore (s : State) (p : Place) (team tid off n at_ : Nat) (f : State → State) : State :=
  let w := p.launch.world
  let a := p.locBase tid + off
  match (if p.launch.locdev then s.refused w a n else none), (if p.launch.locdev then s.sealedByte w a n else none) with
  | some b, _ => s.trapTeam team 0x15 at_ b
  | none, some b => s.trapThread team tid 0x0C at_ b
  | none, none => f s

/-- A byte of a thread's local area. -/
def State.locRead (s : State) (p : Place) (team tid off : Nat) : Byte :=
  if p.launch.locdev then s.devRead p.launch.world (p.locBase tid + off)
  else match s.thread team tid with | some t => t.loc.read off | none => 0

/-- n bytes of it. -/
def State.locReads (s : State) (p : Place) (team tid off n : Nat) : List Byte :=
  (List.range n).map (fun i => s.locRead p team tid (off + i))

/-- Writes bytes of it, at once (R182). -/
def State.locWrites (s : State) (p : Place) (team tid : Nat) : Nat → List Byte → State
  | _, [] => s
  | off, b :: l =>
    State.locWrites
      (if p.launch.locdev then
        (s.devWrite p.launch.world (p.locBase tid + off) b).placedBy p.launch.world p.team.cluster (p.locBase tid + off)
       else s.modThread team tid (fun t => { t with loc := t.loc.write off b })) p team tid (off + 1) l

/-- CALL (R160): pushes the return offset and moves to the target. -/
def execCall (c : Ctl) (x : Fin 64) (k : Blk) (s : State) : Host.Outcome State Fault Refusal :=
  issue (.call c x k) c s (fun h s =>
    match h.entry k with
    | none => .bad
    | some e =>
      let sp (v : View) : Word := v.reg (.x x.val) - 4
      let uses := (h.taking c s).flatMap (fun ag => h.place.locUse ag (sp (s.view ag)).toNat 4 true)
      if (h.taking c s).any (fun ag => overlaps s.pends ag .loc (sp (s.view ag)).toNat 4) then .wait
      else devWords h uses s (fun s => .done (s.endBlock h c (fun ag v s =>
        match ag with
        | .uniform _ => s
        | .thread team tid =>
          s.locStore h.place team tid (sp v).toNat 4 h.group.off (fun s =>
            let s := s.locWrites h.place team tid (sp v).toNat (bytesOfNat 4 (h.fallThrough c))
            (s.putReg ag (.x x.val) (sp v)).setLeave ag (.goto e))))))

/-- RET (R160): pops the offset and moves to it, with the checks of R159. -/
def execRet (c : Ctl) (x : Fin 64) (k : Blk) (s : State) : Host.Outcome State Fault Refusal :=
  issue (.ret c x k) c s (fun h s =>
    let uses := (h.taking c s).flatMap (fun ag => h.place.locUse ag ((s.view ag).reg (.x x.val)).toNat 4 false)
    if (h.taking c s).any (fun ag => overlaps s.pends ag .loc ((s.view ag).reg (.x x.val)).toNat 4) then .wait
    else devWords h uses s (fun s => .done (s.endBlock h c (fun ag v s =>
      match ag with
      | .uniform _ => s
      | .thread team tid =>
        let sp := v.reg (.x x.val)
        let t := natOfBytes (s.locReads h.place team tid sp.toNat 4)
        match h.indirect k t with
        | .ok o => (s.putReg ag (.x x.val) (sp + 4)).setLeave ag (.goto o)
        | .error code => s.trap ag code h.group.off t))))

/-- EXIT (R162): ends the thread; in a uniform block, every live thread of the team at once. -/
def execExit (c : Ctl) (s : State) : Host.Outcome State Fault Refusal :=
  issue (.exit c) c s (fun h s =>
    .done (s.endBlock h c (fun ag _ s =>
      let out (team : Nat) (s : State) : State := s.modTeam team (fun t => { t with lastOff := h.group.off })
      match ag with
      | .thread team tid => out team (s.endThread team tid false)
      | .uniform team => out team ((s.liveTids team).foldl (fun s t => s.endThread team t false) s))))

/-! Candidates' spawn bins (R302). -/

/-- How many threads wait at a block of a team, on one core (R279, R284). -/
def State.waiters (s : State) (p : Place) (team core off : Nat) : List Nat :=
  (s.liveTids team).filter (fun tid =>
    (match s.thread team tid with | some t => t.st == .waiting off | none => false) &&
      p.team.coreOf p.image.threads tid == core)

/-- Changes a candidate's entry, making it if it is missing. -/
def State.modCand (s : State) (core team off : Nat) (resume : Bool) (f : Cand → Cand) : State :=
  let is (e : Cand) : Bool := e.core == core && e.team == team && e.off == off && e.resume == resume
  if s.cands.any is then { s with cands := s.cands.map (fun e => if is e then f e else e) }
  else { s with cands := s.cands ++ [f ⟨core, team, off, resume, 0, false, false⟩] }

/-- A thread as it starts (R37, R164, R307). -/
def Thread.start (st : TState) : Thread where
  x := Vector.replicate 64 0
  k := Vector.replicate 7 false
  pendX := 0
  pendK := 0
  st := st
  leave := none
  win := zeroWindow
  hasWin := false
  loc := .empty
  wdcnt := 0
  spawned := false
  joins := []
  fences := []
  copySeq := 0
  copies := []

/-- The lowest free index of a team (R27). -/
def State.freeTid (s : State) (team cap : Nat) : Option Nat :=
  (List.range cap).find? (fun i => (s.thread team i).isNone)

/-- A spawned thread joins the waiters of its block: a bin opens unless there are 32 already, and closes when they
reach 32 (R302). -/
def State.openBin (s : State) (p : Place) (team tid off : Nat) : State :=
  let core := p.team.coreOf p.image.threads tid
  let n := (s.waiters p team core off).length
  s.modCand core team off false (fun e => { e with bin := decide (n < 32) })

/-- SPAWN (R164). -/
def execSpawn (c : Ctl) (n : Fin 17) (d : Dst) (a : Fin 64) (k : Blk) (s : State) :
    Host.Outcome State Fault Refusal :=
  issue (.spawn c n d a k) c s (fun h s =>
    match h.entry k with
    | none => .bad
    | some e => .done (eachLane (h.taking c s) (fun ag s =>
        let team := h.pass.team
        let v := s.view ag
        match s.freeTid team h.place.image.threads with
        | none => s.later ag (dstWrites d false 0xFFFFFFFF)
        | some i =>
          let xs := (List.range n.val).foldl
            (fun (r : Vector Word 64) j => r.setIfInBounds j (v.reg (.x (a.val + j)))) (Vector.replicate 64 0)
          let t : Thread := { Thread.start (.waiting e) with
            x := xs, spawned := true, joins := (s.wave team (i / 32)).opened }
          let s := { s with threads := tset s.threads (tkey team i) t }
          let s := s.modTeam team (fun u => { u with bar := u.bar.map (fun b =>
            if b.live then { b with late := i :: b.late } else b) })
          (s.openBin h.place team i e).later ag (dstWrites d false (BitVec.ofNat 64 i))) s))

/-- YIELD (R166): the fall-through; in a uniform block, a task boundary. -/
def execYield (c : Ctl) (s : State) : Host.Outcome State Fault Refusal :=
  issue (.yield c) c s (fun h s =>
    .done (s.endBlock h c (fun ag _ s =>
      let s := s.setLeave ag (.goto (h.fallThrough c))
      match ag with
      | .thread _ _ => s
      | .uniform team => s.modTeam team (fun t => { t with boundary := true }))))

/-! Barrier registers (R167 to R171). -/

/-- A barrier register of a team. -/
def State.bar (s : State) (team i : Nat) : BarReg :=
  match tget s.teams team with
  | some t => (t.bar[i]?).getD ⟨0, 0, 0, [], false, false, 0, []⟩
  | none => ⟨0, 0, 0, [], false, false, 0, []⟩

/-- Changes a barrier register. -/
def State.modBar (s : State) (team i : Nat) (f : BarReg → BarReg) : State :=
  s.modTeam team (fun t =>
    match t.bar[i]? with
    | some b => { t with bar := t.bar.setIfInBounds i (f b) }
    | none => t)

/-- BINIT's new setting (R168). -/
def BarReg.init (b : BarReg) (live : Bool) (n threads : Nat) : BarReg where
  gen := if b.arr ≠ 0 then b.gen + 1 else b.gen
  exp := if live then threads + n else n
  arr := 0
  mask := []
  err := false
  live := live
  extra := if live then n else 0
  late := []

/-- BINIT (R168). -/
def execBinit (c : Ctl) (live : Bool) (i : Fin 16) (a : Src) (s : State) : Host.Outcome State Fault Refusal :=
  issue (.binit c live i a) c s (fun h s =>
    .done (eachLane (h.taking c s) (fun ag s =>
      s.modBar h.pass.team i.val (fun b => b.init live (((s.view ag).src32 a).toNat % 65536) (s.liveCount h.pass.team))) s))

/-- The loads and atomics an agent has issued and that have not performed, and the instances it has joined, of a kind that f
names, that are still open. -/
def State.underWay (s : State) (a : Agent) (f : CollKind → Bool) : List Nat :=
  (s.pends.filterMap (fun e =>
    match e.2.kind with
    | .load .. => if e.2.agent = a then some e.1 else none
    | .atomic _ _ _ _ _ lanes _ => if lanes.any (fun l => l.agent == a) then some e.1 else none
    | .lost l => if l.contains a then some e.1 else none
    | .ready _ => none)) ++
    (match a with
     | .thread team tid =>
       (s.wave team (tid / 32)).colls.filterMap (fun k =>
         if f k.kind && k.joined.any (fun j => j.tid == tid) then some k.id else none)
     | .uniform _ => [])

/-- The accesses an agent has issued and that have not performed, COMMIT.w and ABORT.w among them (R171, R192). -/
def State.outstanding (s : State) (a : Agent) : List Nat := s.underWay a (fun k => k == .commit || k == .abort)

/-- BARV (R170, R171): takes the token GEN, and arrives unless it peeks. The arrival waits for the thread's earlier
accesses and commits. -/
def execBarv (c : Ctl) (peek : Bool) (i : Fin 16) (d : Dst) (s : State) : Host.Outcome State Fault Refusal :=
  issue (.barv c peek i d) c s (fun h s =>
    if !peek && (h.taking c s).any (fun a => !(s.outstanding a).isEmpty) then .wait
    else .done (eachLane (h.taking c s) (fun ag s =>
      let b := s.bar h.pass.team i.val
      let s := s.later ag (dstWrites d false (b.gen.setWidth 64))
      match ag with
      | .thread team tid =>
        if peek then s
        else s.modBar team i.val (fun b => b.arrive (some tid) (s.liveCount team))
      | .uniform _ => s) s))

/-- BWAIT (R170): on at once when the token is old or ERR is set, else blocked until then. -/
def execBwait (c : Ctl) (i : Fin 16) (d : KDst) (a : Src) (s : State) : Host.Outcome State Fault Refusal :=
  issue (.bwait c i d a) c s (fun h s =>
    .done (s.endBlock h c (fun ag v s =>
      let b := s.bar h.pass.team i.val
      let tok := v.src32 a
      if b.err || b.gen != tok then
        (s.putRegs ag (kWrites d b.err)).setLeave ag (.goto (h.fallThrough c))
      else s.setLeave ag (.block (h.fallThrough c) (.barrier i.val d tok)))))

/-- BTEST (R170). -/
def execBtest (c : Ctl) (err : Bool) (i : Fin 16) (d : KDst) (a : Src) (s : State) :
    Host.Outcome State Fault Refusal :=
  issue (.btest c err i d a) c s (fun h s =>
    .done (eachLane (h.taking c s) (fun ag s =>
      let b := s.bar h.pass.team i.val
      s.later ag (kWrites d (if err then b.err else b.gen != (s.view ag).src32 a))) s))

/-! Convergence registers (R172, R173). -/

/-- A convergence register of a team. -/
def State.conv (s : State) (team i : Nat) : ConvReg :=
  match tget s.teams team with
  | some t => (t.conv[i]?).getD ⟨0, 0, 0, none⟩
  | none => ⟨0, 0, 0, none⟩

/-- Changes a convergence register. -/
def State.modConv (s : State) (team i : Nat) (f : ConvReg → ConvReg) : State :=
  s.modTeam team (fun t =>
    match t.conv[i]? with
    | some b => { t with conv := t.conv.setIfInBounds i (f b) }
    | none => t)

/-- CINIT (R172): a partial set is discarded. -/
def execCinit (c : Ctl) (i : Fin 16) (a : Src) (s : State) : Host.Outcome State Fault Refusal :=
  issue (.cinit c i a) c s (fun h s =>
    .done (eachLane (h.taking c s) (fun ag s =>
      let n := Nat.min ((s.view ag).src32 a).toNat 8192
      s.modConv h.pass.team i.val (fun r => { r with exp := n, sig := 0, set := none })) s))

/-- The physical banks of an accumulator operand (R206, R341). -/
def bankList (base : Nat) (a : Acc) : List Nat :=
  if a.quad then (List.range 4).map (fun j => base + a.acc.val + j) else [base + a.acc.val]

/-- The bytes of a slot of K rows (R225). -/
def slotBytes (m : MMode) (k : Nat) : Nat :=
  match m with
  | .ds8 | .bfds8 => 65 * k
  | .ds4 => 33 * k
  | .bfbf => 128 * k

/-- A bank's contents; zero when it has not been written (R366, R415). -/
def State.bank (s : State) (core b : Nat) : List Word := (tget s.accs (core * 8 + b)).getD (List.replicate 1024 0)

/-- The key of a context's saved copy of a bank. -/
def bankKey (part slot core b : Nat) : Nat := ((part * 16 + slot) * 512 + core) * 8 + b

/-- The byte of ACC_OWNER for a bank (R250). -/
def State.owner (s : State) (core b : Nat) : Nat := ((tget s.accOwner core).getD 0).toNat / 2 ^ (8 * b) % 256

/-- A context comes to use a bank as its operation enters the queue (R366): on a first-use trap the owner's copy is spilt
and its own restored. -/
def State.useBank (s : State) (p : Place) (core : Nat) (writes : Bool) (b : Nat) : State :=
  let reg := ((tget s.accOwner core).getD 0).toNat
  let o := s.owner core b
  let (v, d, sl) := (bitOf o 7, bitOf o 6, o % 16)
  let l := p.launch
  let put (s : State) (dirty : Bool) : State :=
    let n := 128 + 64 * natOfBool dirty + l.slot
    { s with accOwner := tset s.accOwner core (BitVec.ofNat 64 (reg - o * 2 ^ (8 * b) + n * 2 ^ (8 * b))) }
  if v && sl == l.slot then put s (d || writes)
  else
    let mine := tget s.accSaved (bankKey l.part l.slot core b)
    let s := if v && d then
        { s with accSaved := tset s.accSaved (bankKey l.part sl core b) (s.bank core b) } else s
    let s := { s with accs := match mine with
      | some x => tset s.accs (core * 8 + b) x
      | none => tdel s.accs (core * 8 + b) }
    let s := if v || mine.isSome then s.count p core 12 1 else s
    put s writes

/-- Operations of another context on one of the banks are still to finish, so a first-use trap waits (R366). -/
def State.bankBusy (s : State) (p : Place) (banks : List Nat) : Bool :=
  s.bankOps.any (fun e => e.2.core == p.team.home && e.2.banks.any (fun b => banks.contains b) &&
    (match s.place e.2.team with
     | some q => q.launch.part != p.launch.part || q.launch.slot != p.launch.slot
     | none => false))

/-- A matrix operation enters the queues of its banks (R233), and its slot read takes its place in the order of
weight-buffer accesses (R228). -/
def State.enqueueMma (s : State) (team : Nat) (m : MSig) : State :=
  match s.place team with
  | none => s
  | some p =>
    let t := p.team
    match t.mres with
    | none => s
    | some r =>
      let id := s.nextId
      let s := (bankList r.bank m.op.acc).foldl (fun s b => s.useBank p t.home true b) s
      { s with
        nextId := s.nextId + 1
        bankOps := s.bankOps ++ [(id, ⟨team, t.home, bankList r.bank m.op.acc, m.off, .mma m.op, false, []⟩)]
        wbufUses := s.wbufUses ++
          [⟨t.home, r.wbuf + m.op.slot * 512, r.wbuf + m.op.slot * 512 + slotBytes m.op.mode m.op.k, false, id⟩] }

/-- One signature at c[ci] (R173, R231), carrying an operation or nothing; answers whether it completed the set. A
signature at a register whose EXP is 0 is ignored. -/
def State.sign (s : State) (team ci off : Nat) (m : Option MSig) : Bool × State :=
  let r := s.conv team ci
  if r.exp = 0 then (false, s)
  else
    let set :=
      match r.set, m with
      | none, m => m
      | some a, none => some a
      | some a, some b => some { a with bad := a.bad || a.word != b.word || a.op != b.op, off := off }
    if r.sig + 1 < r.exp then (false, s.modConv team ci (fun r => { r with sig := r.sig + 1, set := set }))
    else
      let s := s.modConv team ci (fun r => { r with sig := 0, set := none, seq := r.seq + 1 })
      match set with
      | none => (true, s)
      | some a => (true, if a.bad then s.trapTeam team 0x14 off ci else s.enqueueMma team a)

/-- The signatures of a group would complete a set whose operation's banks another context still works on; `own` is the
operand that the group itself signs with. -/
def Here.signWaits (h : Here) (s : State) (ci n : Nat) (own : Option Acc) : Bool :=
  let r := s.conv h.pass.team ci
  match h.place.team.mres, (r.set.map (·.op.acc)).orElse (fun _ => own) with
  | some m, some a => r.exp != 0 && decide (r.exp ≤ r.sig + n) && s.bankBusy h.place (bankList m.bank a)
  | _, _ => false

/-- CSIGN (R173): k[d] := 1 in the thread whose signature completes the set. -/
def execCsign (c : Ctl) (i : Fin 16) (d : KDst) (s : State) : Host.Outcome State Fault Refusal :=
  issue (.csign c i d) c s (fun h s =>
    if h.signWaits s i.val (h.taking c s).length none then .wait
    else .done (eachLane (h.taking c s) (fun ag s =>
      let (full, s) := s.sign h.pass.team i.val h.group.off none
      if s.alive ag then s.later ag (kWrites d full) else s) s))

/-! Wave collectives (R174 to R176). They complete in `settle`. -/

/-- Parks a thread before the instruction at an offset (R292). -/
def State.parkThread (s : State) (team tid off : Nat) (cause : ParkCause) : State :=
  let s := s.leaveGroups team tid
  let s := s.modThread team tid (fun t => { t with st := .parked off cause false, leave := none })
  match s.place team with
  | some p => s.count p (p.team.coreOf p.image.threads tid) 13 1
  | none => s

/-- A thread's next execution of the collective at `off` joins an instance of its wave, opening it if need be; a
fifth open instance parks it (R174). Answers the instance it joined. -/
def State.joinColl (s : State) (team off : Nat) (kind : CollKind) (j : Join) : Option Nat × State :=
  match s.thread team j.tid with
  | none => (none, s)
  | some t =>
    let wv := j.tid / 32
    let w := s.wave team wv
    let m := (tget t.joins off).getD 0 + 1
    let mark (s : State) : State := s.modThread team j.tid (fun t => { t with joins := tset t.joins off m })
    match w.colls.find? (fun k => k.off == off && k.num == m) with
    | some k =>
      (some k.id, mark (s.setWave team wv { w with
        colls := w.colls.map (fun e => if e.id = k.id then { e with joined := e.joined ++ [j] } else e) }))
    | none =>
      if 4 ≤ w.colls.length then (none, s.parkThread team j.tid off .collective)
      else
        let k : Coll := ⟨s.nextId, off, m, kind, s.waveTids team wv, [j]⟩
        let s := { s with nextId := s.nextId + 1 }
        (some k.id, mark (s.setWave team wv { w with
          colls := w.colls ++ [k], opened := tset w.opened off (Nat.max m ((tget w.opened off).getD 0)) }))

/-- The group's lanes join a collective, those whose guard fails without contributing (R174). -/
def joinLanes (h : Here) (c : Ctl) (kind : CollKind) (mk : Agent → View → Nat → Join)
    (after : Agent → Nat → Join → State → State) (s : State) : State :=
  eachLane h.agents (fun ag s =>
    match ag with
    | .uniform _ => s
    | .thread team tid =>
      let v := s.view ag
      let j := if c.guard.holds v then mk ag v tid else ⟨tid, false, 0, 0, false⟩
      let (joined, s) := s.joinColl team h.group.off kind j
      match joined with | some id => after ag id j s | none => s) s

/-- The registers a vote writes. -/
def Vote.dstRegs : Vote → List Reg
  | .ballot d => Dst.regs false d
  | .any d | .all d | .uni d => kdRegs d

/-- WVOTE (R175). -/
def execWvote (c : Ctl) (m : Vote) (k : Fin 8) (s : State) : Host.Outcome State Fault Refusal :=
  issue (.wvote c m k) c s (fun h s =>
    .done (joinLanes h c (.vote m) (fun _ v tid => ⟨tid, true, BitVec.ofNat 64 (natOfBool (v.kf k)), 0, false⟩)
      (fun ag _ j s => if j.takes then s.setPends ag (Vote.dstRegs m) true else s) s))

/-- WXCH (R176). -/
def execWxch (c : Ctl) (m : Xch) (t : Ty) (d : Dst) (a b : Src) (s : State) : Host.Outcome State Fault Refusal :=
  issue (.wxch c m t d a b) c s (fun h s =>
    .done (joinLanes h c (.xch m t.wide d) (fun _ v tid => ⟨tid, true, v.src t a, v.src32 b, false⟩)
      (fun ag _ j s => if j.takes then s.setPends ag (Dst.regs t.wide d) true else s) s))

end Sys2Proof.Machine
end

