-- ==== Sys2Proof/Machine/Access.lean ====
section
/-! DEFINITION. Operations the memory instructions share: addresses (R180), host pages and parking (R291, R373,
R431), what an access waits for (R192, R318), performing loads and atomics (R184, R193, R195, R315), and merges
(R188 to R191, R379). -/

namespace Sys2Proof.Machine

/-- The address A + C of a memory operand (R180). -/
def View.addr (v : View) (pair : Bool) (a disp : Src) : Nat :=
  if pair then (v.src .b64 a + (v.src32 disp).signExtend 64).toNat else (v.src32 a + v.src32 disp).toNat

/-- The displacement 0. -/
def noDisp : Src := .small 64

/-! Parking on a host page. -/

/-- The access a waiter stands for. -/
def Agent.waiter : Agent → Waiter
  | .thread team tid => .thread team tid
  | .uniform team => .uniform team

/-- Parks a team in its uniform pass (R431). -/
def State.parkTeam (s : State) (h : Here) (cause : ParkCause) : State :=
  let team := h.pass.team
  let tids := s.liveTids team
  let s := tids.foldl (fun s tid => s.modThread team tid (fun t =>
    { t with st := .parked h.group.off cause false })) s
  let s := s.modTeam team (fun t => { t with upark := some ⟨h.group.off, cause, false⟩ })
  { s with passes := tdel s.passes h.pid }.count h.place h.core 13 tids.length

/-- Parks an agent before the issuing instruction (R291, R431). -/
def State.parkAgent (s : State) (h : Here) (ag : Agent) (cause : ParkCause) : State :=
  match ag with
  | .thread team tid => s.parkThread team tid h.group.off cause
  | .uniform _ => s.parkTeam h cause

/-- How often an access has been told Success for a page (R378). -/
def State.triesOf (s : State) (who : Waiter) (page : Nat) : Nat := (s.tries.lookup (who, page)).getD 0

/-- Forgets it, for all its pages. -/
def State.clearTries (s : State) (who : Waiter) : State :=
  { s with tries := s.tries.filter (fun e => e.1.1 != who) }

/-- Goes on with an access of [a, a + n) once its host pages are translated (R373); on a failed walk the agent
parks, or stops with code 0x0C where the page is not supplied (R372, R378). -/
def State.reach (s : State) (h : Here) (ag : Agent) (sp : Space) (a n : Nat) (read write : Bool)
    (f : Frames → State → State) : State :=
  if sp ≠ .host then f [] s
  else
    let l := h.place.launch
    let who := ag.waiter
    match s.translateRange (h.core / 128) l.world l.pasid a n write with
    | .ok xl s => f xl (s.clearTries who)
    | .invalid page s => (s.clearTries who).trap ag 0x0C h.group.off (Nat.max a (page * 4096))
    | .miss page s =>
      if 3 ≤ s.triesOf who page then (s.clearTries who).trap ag 0x0C h.group.off (Nat.max a (page * 4096))
      else
        let (id, s) := s.joinRequest l.world l.pasid page read write who (Nat.max a (page * 4096))
        s.parkAgent h ag (.page id)

/-! What an access waits for. -/

/-- The FENCEs of an agent. -/
def State.fencesOf (s : State) (ag : Agent) : List FenceRec :=
  match ag with
  | .thread team tid => match s.thread team tid with | some t => t.fences | none => []
  | .uniform team => match tget s.teams team with | some t => t.fences | none => []

/-- An access or instance is still under way. -/
def State.stillOpen (s : State) (id : Nat) : Bool :=
  s.pends.any (fun e => e.1 == id) || s.waves.any (fun w => w.2.colls.any (fun k => k.id == id))

/-- A FENCE of a kind still holds back the agent's later accesses of that kind (R192). -/
def State.heldBy (s : State) (ag : Agent) (k : FenceKinds → Bool) : Bool :=
  (s.fencesOf ag).any (fun f => k f.kinds && f.waits.any s.stillOpen)

/-- A FENCE of any kind does (R243). -/
def State.heldAny (s : State) (ag : Agent) : Bool := s.heldBy ag (fun k => k.data || k.record || k.eng)

/-- One of the agent's accesses under way touches a byte of a set (R318). -/
def State.meetsCells (s : State) (ag : Agent) (keys : List Nat) : Bool :=
  keys.any (fun k => overlaps s.pends ag (spaceOf k) (addrOf k) 1)

/-- The accesses entered before a given one. -/
def State.before (s : State) (id : Nat) : List (Nat × Pend) := s.pends.takeWhile (fun e => e.1 != id)

/-! Loads. -/

/-- The agent's own level: a thread looks in its wave's set first, a team does not (R184, R186). -/
def Agent.level : Agent → Lv
  | .thread _ _ => .w
  | .uniform _ => .t

/-- The team an agent belongs to. -/
def Agent.team : Agent → Nat
  | .thread team _ => team
  | .uniform team => team

/-- The core of an agent: its thread's, or the team's home core. -/
def Place.coreFor (p : Place) : Agent → Nat
  | .thread _ tid => p.team.coreOf p.image.threads tid
  | .uniform _ => p.team.home

/-- The device address of an access, if its home is device memory (R35). -/
def Place.devHome (p : Place) (ag : Agent) (sp : Space) (a : Nat) : Option Nat :=
  match sp, ag with
  | .dev, _ => some a
  | .loc, .thread _ tid => if p.launch.locdev then some (p.locBase tid + a) else none
  | _, _ => none

/-- Some byte of [a, a + n) is in no set of the path that starts at a level, so that it is read at home. -/
def State.readsHome (s : State) (p : Place) (ag : Agent) (lv : Lv) (sp : Space) (a n : Nat) : Bool :=
  sp == .loc || (List.range n).any (fun i => (s.setByte p ag lv sp (a + i)).isNone)

/-- The sectors of [a, a + n) pass through the agent's L2 port, if they are device or host memory (R357). -/
def State.portTokens (s : State) (p : Place) (ag : Agent) (dev : Bool) (a n who : Nat) : Bool × State :=
  if dev then s.takeTokens p (p.coreFor ag) (sectorsOf a n) who else (true, s)

/-- A byte as an agent's load sees it. -/
def State.loadByte (s : State) (p : Place) (ag : Agent) (sp : Space) (a : Nat) (xl : Frames) : Byte :=
  match sp, ag with
  | .loc, .thread team tid => s.locRead p team tid a
  | _, _ => s.lookup p ag ag.level sp a xl

/-- The registers a load writes from its bytes: one value of its type, or consecutive words (R185). -/
def loadRegs (t : Ty) (dst : List Reg) (bytes : List Byte) : List (Reg × Word) :=
  match dst with
  | [r] => [(r, (ofIntVal t (natOfBytes bytes)).setWidth 32)]
  | _ => dst.zipIdx.map (fun e => (e.1, BitVec.ofNat 32 (natOfBytes ((bytes.drop (4 * e.2)).take 4))))

/-- The end of the sector part that starts at a. -/
def partEnd (a stop : Nat) : Nat := Nat.min stop ((a / 32 + 1) * 32)

/-- The next sector part of a load performs, unless the agent's earlier accesses to its bytes have not performed, its
bytes are claimed, the host may hold them, or it has no token (R184, R315, R318, R333, R357, R385); with the last part
the result arrives (R83). One that meets a wrong tag never completes (R412). -/
def State.performLoad (s : State) (id : Nat) (p : Pend) : State :=
  match p.kind, s.place p.agent.team with
  | .load sp a n got t dst xl, some pl =>
    let w := pl.launch.world
    let lo := a + got.length
    let hi := partEnd lo (a + n)
    let k := hi - lo
    let home := pl.devHome p.agent sp lo
    let at_ := home.getD lo
    let reads : Bool := (home.isSome || sp == .host) && s.readsHome pl p.agent p.agent.level sp lo k
    if overlaps (s.before id) p.agent sp lo k || (home.isSome && s.claimedRange w at_ k) then s
    else if reads && sp != .host && s.hostMay w at_ k then s.snoopLines w at_ k
    else
      match s.portTokens pl p.agent reads at_ k id with
      | (false, s) => s
      | (true, s) =>
        match (if reads && sp != .host then s.fill w at_ k else (true, s)) with
        | (false, s) => { s with pends := tset s.pends id { p with kind := .lost [p.agent] } }
        | (true, s) =>
          let got := got ++ (List.range k).map (fun i => s.loadByte pl p.agent sp (lo + i) xl)
          let s := if sp = .host ∧ reads then s.touchRange w xl lo k false none else s
          if hi = a + n then
            ({ s with pends := tdel s.pends id }).arrive p.agent (loadRegs t dst got)
          else { s with pends := tset s.pends id { p with kind := .load sp a n got t dst xl } }
  | _, _ => s

/-! Writes at a level (R193). -/

/-- Writes bytes at a level: into the team set, the cluster set, or home. -/
def State.levelWrites (s : State) (team : Nat) (p : Place) (lv : Lv) (sp : Space) (xl : Frames) (a : Nat)
    (bytes : List Byte) : State :=
  let put (l : List SCell) : List SCell := bytes.zipIdx.foldl (fun l e => sput (skey sp (a + e.2)) e.1 none l) l
  match lv with
  | .w | .t => s.modTeam team (fun t => { t with set := put t.set })
  | .c =>
    if sp = .dev ∨ sp = .host then s.modCluster p.team.cluster (fun c => { c with set := put c.set })
    else s.homeWrites p sp xl a bytes
  | .d | .s => s.homeWrites p sp xl a bytes

/-- A little-endian value of n bytes as a load at a level sees it. -/
def State.levelRead (s : State) (team : Nat) (p : Place) (lv : Lv) (sp : Space) (xl : Frames)
    (a n : Nat) : DWord :=
  BitVec.ofNat 64 (natOfBytes ((List.range n).map (fun i => s.lookup p (.uniform team) lv sp (a + i) xl)))

/-- A scope at which a word of a space is written at its home in device memory. -/
def devScope (sp : Space) (lv : Lv) : Bool := sp == .dev && (lv == .d || lv == .s)

/-! Atomics. -/

/-- The new value of an atomic operation (R194). -/
def atomNew (op : AtomOp) (t : Ty) (old b c : DWord) : DWord :=
  let z (f : Int → Int → Int) : DWord := ofIntVal t (f (intVal t old) (intVal t b))
  let fl (f : Fmt → Nat → Nat → Nat) : DWord :=
    if t.isPacked then
      BitVec.ofNat 64 (f (fmtOf t) (old.toNat % 65536) (b.toNat % 65536) +
        65536 * f (fmtOf t) (old.toNat / 65536 % 65536) (b.toNat / 65536 % 65536))
    else BitVec.ofNat 64 (f (fmtOf t) (old.toNat % 2 ^ 32) (b.toNat % 2 ^ 32))
  match op with
  | .add => z (· + ·)
  | .min => z min
  | .max => z max
  | .and => old &&& b
  | .or => old ||| b
  | .xor => old ^^^ b
  | .exch => b
  | .cas => if old.toNat % 2 ^ t.width = c.toNat % 2 ^ t.width then b else old
  | .incw => z (fun o b => if o ≥ b then 0 else o + 1)
  | .decw => z (fun o b => if o = 0 ∨ o > b then b else o - 1)
  | .fadd => fl (fun f x y => fsum f .rn [f.unpack x, f.unpack y])
  | .fmin => fl (fun f x y => f.minmax false false x y)
  | .fmax => fl (fun f x y => f.minmax false true x y)

/-- The lanes of an atomic request, one after another (R195): what each saw, and the value left. -/
def atomLanes (op : AtomOp) (t : Ty) : DWord → List AtomLane → List (AtomLane × DWord) × DWord
  | v, [] => ([], v)
  | v, l :: r =>
    let (out, last) := atomLanes op t (atomNew op t v l.b l.c) r
    ((l, v) :: out, last)

/-- The halves of an old value for its destination. -/
def splitRegs (dst : List Reg) (v : DWord) : List (Reg × Word) :=
  dst.zipIdx.map (fun e => (e.1, (v >>> (32 * e.2)).setWidth 32))

/-- An atomic request performs at its level and its old values arrive (R193, R195). On a CONF tile it stops the team
(R212), and on a read-only page its lanes (R19, R274; log 14). -/
def State.performAtomic (s : State) (id : Nat) (p : Pend) : State :=
  match p.kind, s.place p.agent.team with
  | .atomic sp a lv op t lanes xl, some pl =>
    let w := pl.launch.world
    let n := t.bytes
    let home := devScope sp lv
    let reads : Bool := sp == .dev && s.readsHome pl p.agent lv sp a n
    if lanes.any (fun l => overlaps (s.before id) l.agent sp a n) || (sp == .dev && s.claimedRange w a n) then s
    else if reads && s.hostMay w a n then s.snoopLines w a n
    else if home && !s.mayWrite w (.pend id) a n 0 then s.queueWriter w (.pend id)
    else
      match s.portTokens pl p.agent (reads || home || sp == .host) a n id with
      | (false, s) => s
      | (true, s) =>
        match (if reads then s.fill w a n else (true, s)) with
        | (false, s) => { s with pends := tset s.pends id { p with kind := .lost (lanes.map (·.agent)) } }
        | (true, s) =>
          let s' := State.wrote { s with pends := tdel s.pends id } w (.pend id)
          match (if home then s.refused w a n else none), (if home then s.sealedByte w a n else none) with
          | some b, _ => s'.trapTeam p.agent.team 0x15 p.off b
          | none, some b => lanes.foldl (fun s l => if s.alive l.agent then s.trap l.agent 0x0C p.off b else s) s'
          | none, none =>
            let (out, last) := atomLanes op t (s.levelRead p.agent.team pl lv sp xl a n) lanes
            let s' := s'.levelWrites p.agent.team pl lv sp xl a (bytesOfNat n last.toNat)
            out.foldl (fun s e => s.arrive e.1.agent (splitRegs e.1.dst e.2)) s'
  | _, _ => s

/-! Merges. -/

/-- The lowest place of the cells that someone else has merged since the set was emptied (R189). -/
def conflict (set : List SCell) (who : Nat) (cells : List (Nat × Byte)) : Option Nat :=
  (cells.find? (fun e => set.any (fun c => c.key == e.1 && c.mergers.any (fun m => m != who)))).map (·.1)

/-- Saturating increment of a conflict register. -/
def satInc (w : Word) : Word := if w = 0xFFFFFFFF then w else w + 1

/-- A merge into the team set (R188 to R191): `who` is the wave plus 1, or 0 for a RESST. Answers the lowest
conflicting address; a merge that leaves more sectors than TMSET allows in the team set and the wave sets together stops the
team (log 92). -/
def State.mergeTeam (s : State) (team off who : Nat) (cells : List (Nat × Byte)) : Option Nat × State :=
  match s.place team with
  | none => (none, s)
  | some p =>
    let t := p.team
    let s' := s.modTeam team (fun t => { t with set := cells.foldl (fun l e => sput e.1 e.2 (some who) l) t.set })
    if p.image.teamCap < s'.teamSectors team then (none, s.trapTeam team 0x10 off 0)
    else
      match conflict t.set who cells with
      | none => (none, s')
      | some k =>
        (some (addrOf k), (s'.modTeam team (fun t => { t with tconf := satInc t.tconf })).count p t.home 11 1)

/-- What SCOMMIT does after a wave's merge has met a conflict (R189). -/
def State.scommitWave (s : State) (team wv off : Nat) (c : Option Nat) : State :=
  match c, s.place team with
  | some a, some p =>
    if p.launch.scommit then (s.waveTids team wv).foldl (fun s tid => s.trapThread team tid 0x08 off a) s else s
  | _, _ => s

/-- Cells as bytes. -/
def WCell.pair (c : WCell) : Nat × Byte := (c.key, c.byte)
@[inherit_doc WCell.pair] def SCell.pair (c : SCell) : Nat × Byte := (c.key, c.byte)

/-- COMMIT.t (R188): near and column bytes go home, the others to the cluster set. A failure is the team's. -/
def State.commitT (s : State) (team off : Nat) : State :=
  match s.place team with
  | none => s
  | some p =>
    let t := p.team
    let up := t.set.filter (fun c => spaceOf c.key == .dev || spaceOf c.key == .host)
    let here := t.set.filter (fun c => spaceOf c.key == .near || spaceOf c.key == .col)
    let set := up.foldl (fun l e => sput e.key e.byte (some team) l) p.cluster.set
    if up ≠ [] ∧ p.image.clusterCap p.launch.tpc < setSectors set then
      if t.ended then (s.teamRecord team 0x11 off 0).modTeam team (fun t => { t with set := [] })
      else s.trapTeam team 0x11 off 0
    else
      let s := here.foldl (fun s c => s.homeWrite p (spaceOf c.key) (addrOf c.key) c.byte []) s
      let s := s.modCluster t.cluster (fun c => { c with set := set })
      let s := s.modTeam team (fun t => { t with set := [] })
      match conflict p.cluster.set team (up.map SCell.pair) with
      | none => s
      | some k =>
        let s := (s.modCluster t.cluster (fun c => { c with cconf := satInc c.cconf })).count p t.home 11 1
        if !p.launch.scommit then s
        else if t.ended then s.teamRecord team 0x12 off (addrOf k)
        else s.trapTeam team 0x12 off (addrOf k)

/-- The state of a merge at home. -/
inductive MergeOut where
  | done (s : State)
  | wait
  | hold (f : State → State)

/-- Translates every page of host cells for writing. -/
def State.translateCells (s : State) (die : Nat) (l : Launch) : List Nat → XRange
  | [] => .ok [] s
  | pg :: r =>
    match s.translatePages die l.world l.pasid true 1 pg with
    | .ok xl s =>
      match State.translateCells s die l r with
      | .ok xl' s => .ok (xl ++ xl') s
      | e => e
    | e => e

/-- A failed merge: a team fault, or the record alone where every thread has already ended (R244). What it has taken
goes with it (R188, R212). -/
def State.mergeFault (s : State) (team : Nat) (p : Place) (code off aux : Nat) : State :=
  let s := s.modTeam team (fun t => { t with mwait := 0, mtok := 0 })
  let s := if p.team.ended then s.teamRecord team code off aux else s.trapTeam team code off aux
  s.modCluster p.team.cluster (fun c => { c with set := [] })

/-- COMMIT.c (R188, R212, R379): the whole cluster set goes home as one event, once its host pages are translated
and no byte of it is in a claimed tile or a page being moved. -/
def State.commitC (s : State) (team off : Nat) : MergeOut :=
  match s.place team with
  | none => .done s
  | some p =>
    let set := p.cluster.set
    let dev := set.filter (fun c => spaceOf c.key == .dev)
    let host := set.filter (fun c => spaceOf c.key == .host)
    let first (pg : Nat) : Nat :=
      match host.find? (fun c => addrOf c.key / 4096 == pg) with | some c => addrOf c.key | none => pg * 4096
    let w := p.launch.world
    let who := Waiter.merge team
    if dev.any (fun c => s.claimedRange w (addrOf c.key) 1) then .wait
    else
      match dev.find? (fun c => (s.confTile w (addrOf c.key)).isSome), dev.find? (fun c => s.readOnly w (addrOf c.key)) with
      | some c, _ => .done (s.mergeFault team p 0x15 off (addrOf c.key))
      | none, some c => .done (s.mergeFault team p 0x0C off (addrOf c.key))
      | none, none =>
        if p.team.mwait = 1 then .wait
        else if p.team.mwait = 3 then .done (s.mergeFault team p 0x0C off (first p.team.mpage))
        else
          match s.translateCells (p.team.home / 128) p.launch (host.map (fun c => addrOf c.key / 4096)).eraseDups with
          | .invalid pg s => .done (s.mergeFault team p 0x0C off (first pg))
          | .miss pg s =>
            if 3 ≤ s.triesOf who pg then .done ((s.clearTries who).mergeFault team p 0x0C off (first pg))
            else .hold (fun s =>
              (s.joinRequest w p.launch.pasid pg false true who (first pg)).2.modTeam team
                (fun t => { t with mwait := 1, mpage := pg }))
          | .ok xl s' =>
            if dev.any (fun c => !s.mayWrite w (.merge team) (addrOf c.key) 1 0) then
              .hold (fun s => s.queueWriter w (.merge team))
            else
              let left := (setAccesses set).drop p.team.mtok
              let e := s'.gatherTokens p p.team.home team left
              if e.1 ≠ left.length then
                .hold (fun s =>
                  let e := s.gatherTokens p p.team.home team left
                  e.2.modTeam team (fun t => { t with mtok := t.mtok + e.1 }))
              else
                let s := ((e.2.clearTries who).wrote w (.merge team)).modTeam team (fun t => { t with mwait := 0, mtok := 0 })
                let s := set.foldl (fun s c =>
                  s.homeWrite p (spaceOf c.key) (addrOf c.key) c.byte (if spaceOf c.key = .host then xl else [])) s
                .done (s.modCluster p.team.cluster (fun c => { c with set := [] }))

/-- A line that the cluster has placed bytes in still awaits its BIRsp (R385). -/
def State.owesBirsp (s : State) (cluster : Nat) : Bool :=
  s.shared.any (fun e => e.snooped && e.clusters.contains cluster)

/-! Completing wave collectives (R174 to R176). -/

/-- An instance is complete when every thread it still awaits has joined. -/
def Coll.complete (k : Coll) : Bool := k.awaited.all (fun t => k.joined.any (fun j => j.tid == t && !j.gone))

/-- The contributors of an instance: one that has ceased to be live since counts (R174; log 91). -/
def Coll.contributors (k : Coll) : List Join := k.joined.filter (fun j => j.takes)

/-- The value WVOTE gives its contributors (R175). -/
def voteVal (m : Vote) (l : List Join) : Word :=
  let one (j : Join) : Bool := j.value == 1
  let b (x : Bool) : Word := BitVec.ofNat 32 (natOfBool x)
  match m with
  | .ballot _ => BitVec.ofNat 32 (l.foldl (fun n j => if one j then n + 2 ^ (j.tid % 32) else n) 0)
  | .any _ => b (l.any one)
  | .all _ => b (l.all one)
  | .uni _ => b (l.all one || l.all (fun j => !one j))

/-- The value WXCH gives a contributor (R176). -/
def xchVal (m : Xch) (l : List Join) (j : Join) : DWord :=
  let pos := j.tid % 32
  let b := j.sel.toNat
  let src : Option Nat :=
    match m with
    | .idx => some (b % 32)
    | .up => if b ≤ pos then some (pos - b) else none
    | .down => some (pos + b)
    | .xor => some (pos ^^^ (b % 32))
  match src with
  | none => j.value
  | some p => match l.find? (fun i => i.tid % 32 == p) with | some i => i.value | none => j.value

/-- Completes an instance: its results are on their way, or its cells merge or go; threads parked for want of an
instance may resume. -/
def State.finishColl (s : State) (team wv : Nat) (k : Coll) : State :=
  let w := s.wave team wv
  let taken := w.cells.filter (fun c => c.inst == some k.id)
  let s := s.setWave team wv { w with
    cells := w.cells.filter (fun c => c.inst != some k.id)
    colls := w.colls.filter (fun e => e.id != k.id) }
  let s := (s.waveTids team wv).foldl (fun s tid => s.modThread team tid (fun t =>
    match t.st with
    | .parked off .collective _ => { t with st := .parked off .collective true }
    | _ => t)) s
  let give (s : State) (f : Join → List (Reg × Word)) : State :=
    k.contributors.foldl (fun s j => if j.gone then s else s.later (.thread team j.tid) (f j)) s
  match k.kind with
  | .vote m => give s (fun _ => (Vote.dstRegs m).map (fun r => (r, voteVal m k.contributors)))
  | .xch m wide d => give s (fun j => splitRegs (Dst.regs wide d) (xchVal m k.contributors j))
  | .abort => s
  | .commit =>
    let s :=
      match s.place team with
      | some p => s.count p (p.team.coreOf p.image.threads (32 * wv)) 10 1
      | none => s
    let (c, s) := s.mergeTeam team k.off (wv + 1) (taken.map WCell.pair)
    s.scommitWave team wv k.off c

/-- What is left of a wave without live threads merges (R163). -/
def State.emptyWave (s : State) (team wv : Nat) : State :=
  match tget s.teams team with
  | none => s
  | some t =>
    let w := s.wave team wv
    let s := s.setWave team wv { w with cells := [] }
    (s.mergeTeam team t.lastOff (wv + 1) (w.cells.map WCell.pair)).2

end Sys2Proof.Machine
end

