-- ==== Sys2Proof/Machine/Memory.lean ====
section
/-! DEFINITION. Memory, commit, atomic and lock instructions (R177 to R203). -/

namespace Sys2Proof.Machine

/-- Issues an instruction that names memory: its space is the one admission fixed (R179). -/
def sited (i : Instr) (c : Ctl) (s : State) (f : Here → Site → State → Body) : Host.Outcome State Fault Refusal :=
  issue i c s (fun h s => match h.site with | none => .bad | some x => f h x s)

/-- Issues an access, which a FENCE.data not yet met holds back (R192). -/
def access (i : Instr) (c : Ctl) (s : State) (f : Here → Site → State → Body) : Host.Outcome State Fault Refusal :=
  sited i c s (fun h x s => if (h.taking c s).any (fun a => s.heldBy a (·.data)) then .wait else f h x s)

/-- One lane's load of n bytes (R184). -/
def State.loadLane (s : State) (h : Here) (ag : Agent) (x : Site) (a n : Nat) (t : Ty) (dst : List Reg) : State :=
  s.reach h ag x.space a n true false (fun xl s => s.pend ag (.load x.space a n [] t dst xl) dst h.group.off)

/-- One lane's store of bytes (R182). -/
def State.storeLane (s : State) (h : Here) (ag : Agent) (x : Site) (a : Nat) (bytes : List Byte) : State :=
  match ag with
  | .uniform _ => s
  | .thread team tid =>
    if x.space = .loc then
      s.locStore h.place team tid a bytes.length h.group.off (fun s => s.locWrites h.place team tid a bytes)
    else s.reach h ag x.space a bytes.length false true (fun _ s =>
      let w := s.wave team (tid / 32)
      let s' := s.setWave team (tid / 32) { w with
        cells := bytes.zipIdx.foldl (fun l e => wput (skey x.space (a + e.2)) e.1 tid l) w.cells }
      if h.place.image.teamCap < s'.teamSectors team ∧ s.teamSectors team < s'.teamSectors team then
        s.trapTeam team 0x10 h.group.off a
      else s')

/-- LD (R184, R185). -/
def execLd (c : Ctl) (t : Ty) (d : Dst) (a disp : Src) (s : State) : Host.Outcome State Fault Refusal :=
  access (.ld c t d a disp) c s (fun h x s =>
    .done (eachLane (h.taking c s) (fun ag s =>
      s.loadLane h ag x ((s.view ag).addr x.pair a disp) t.bytes t (Dst.regs t.wide d)) s))

/-- Stores wait until the agent's earlier accesses to the same bytes have performed (R318). -/
def stores (h : Here) (c : Ctl) (x : Site) (n : Nat) (addr : Agent → State → Nat) (bytes : Agent → State → List Byte)
    (s : State) : Body :=
  let uses : List DevUse :=
    if x.space = .loc then (h.taking c s).flatMap (fun ag => h.place.locUse ag (addr ag s) n true) else []
  if (h.taking c s).any (fun ag => overlaps s.pends ag x.space (addr ag s) n) then .wait
  else devWords h uses s (fun s =>
    .done (eachLane (h.taking c s) (fun ag s => s.storeLane h ag x (addr ag s) (bytes ag s)) s))

/-- ST (R182, R185). -/
def execSt (c : Ctl) (t : Ty) (a b disp : Src) (s : State) : Host.Outcome State Fault Refusal :=
  access (.st c t a b disp) c s (fun h x s =>
    stores h c x t.bytes (fun ag s => (s.view ag).addr x.pair a disp)
      (fun ag s => bytesOfNat t.bytes ((s.view ag).src t b).toNat) s)

/-- LDV (R185). -/
def execLdv (c : Ctl) (n : VCount) (d : Dst) (a disp : Src) (s : State) : Host.Outcome State Fault Refusal :=
  access (.ldv c n d a disp) c s (fun h x s =>
    .done (eachLane (h.taking c s) (fun ag s =>
      s.loadLane h ag x ((s.view ag).addr x.pair a disp) (4 * n.regs) .b32
        (match d with | .x r => xrun r.val n.regs | _ => [])) s))

/-- STV (R185). -/
def execStv (c : Ctl) (n : VCount) (a b disp : Src) (s : State) : Host.Outcome State Fault Refusal :=
  access (.stv c n a b disp) c s (fun h x s =>
    stores h c x (4 * n.regs) (fun ag s => (s.view ag).addr x.pair a disp)
      (fun ag s =>
        match b with
        | .x r => (xrun r.val n.regs).flatMap (fun q => bytesOfNat 4 ((s.view ag).reg q).toNat)
        | _ => []) s)

/-- LDS (R186). -/
def execLds (c : Ctl) (t : Ty) (d : Dst) (a disp : Src) (s : State) : Host.Outcome State Fault Refusal :=
  access (.lds c t d a disp) c s (fun h x s =>
    .done (eachLane (h.taking c s) (fun ag s =>
      s.loadLane h ag x ((s.view ag).addr x.pair a disp) t.bytes t (Dst.regs t.wide d)) s))

/-- The offset of a pointer (R33, R187); other operands of CHK are read as they are. -/
def Here.chkOffset (h : Here) (v : Int) : Int :=
  match h.site with
  | none => v
  | some x =>
    match x.space with
    | .loc => v
    | .near => v % 2 ^ 19
    | .col => v % 2 ^ 23
    | .dev | .host => v - ((h.place.launch.regions[x.region]?).getD (0, 0)).1

/-- CHK's operand b (R187). -/
def Here.chkB (h : Here) (t : Ty) (v : View) : ChkB → Int
  | .src b => intVal t (v.src t b)
  | .len g => ((h.place.launch.regions[g.val]?).getD (0, 0)).2
  | .nthr => h.place.launch.threads
  | .tcap => h.place.image.threads
  | .nearsz => h.place.image.nearSz
  | .colsz => h.place.image.colSz
  | .locsz => h.place.image.locSz

/-- The relation of CHK. -/
def relHolds : RelOp → Int → Int → Bool
  | .lt, x, y => decide (x < y)
  | .le, x, y => decide (x ≤ y)
  | .eq, x, y => decide (x = y)

/-- CHK (R187). -/
def execChk (c : Ctl) (op : RelOp) (t : Ty) (a : Src) (b : ChkB) (k : Src) (s : State) :
    Host.Outcome State Fault Refusal :=
  issue (.chk c op t a b k) c s (fun h s =>
    .done (eachLane (h.taking c s) (fun ag s =>
      let v := s.view ag
      let x := h.chkOffset (intVal t (v.src t a))
      if relHolds op x (h.chkB t v b + (v.src32 k).toInt) then s
      else s.trap ag 0x06 h.group.off (BitVec.ofInt 64 x).toNat) s))

/-- The stores of a thread not yet taken by an instance. -/
def Wave.openCells (w : Wave) (tid : Nat) : List WCell := w.cells.filter (fun e => e.writer == tid && e.inst.isNone)

/-- The stores of a thread not yet taken by an instance join one (R188, R190); with `left`, those of the wave's threads
that have ceased to be live do so too (R163). -/
def State.markCells (s : State) (team tid id : Nat) (left : Bool) : State :=
  let w := s.wave team (tid / 32)
  s.setWave team (tid / 32) { w with
    cells := w.cells.map (fun e =>
      if (e.writer = tid ∨ (left ∧ e.writer = 8192)) ∧ e.inst = none then { e with inst := some id } else e) }

/-- COMMIT.w and ABORT.w: the lanes join, and their stores with them, once their accesses to those bytes have performed
(R318). -/
def joinStores (h : Here) (c : Ctl) (k : CollKind) (s : State) : Body :=
  let early (ag : Agent) : Bool :=
    match ag with
    | .thread team tid => s.meetsCells ag (((s.wave team (tid / 32)).openCells tid).map (·.key))
    | .uniform _ => false
  if (h.taking c s).any early then .wait
  else .done (joinLanes h c k (fun _ _ tid => ⟨tid, true, 0, 0, false⟩)
    (fun ag id j s =>
      match ag with
      | .thread team tid => if j.takes then s.markCells team tid id (k == .commit) else s
      | .uniform _ => s) s)

/-- The sets that a uniform block's COMMIT or ABORT takes hold a byte that the team's own accesses have yet to meet
(R318). -/
def Here.setsBusy (h : Here) (s : State) (l : Lv) : Bool :=
  let set := match l with | .t => h.place.team.set | _ => h.place.cluster.set
  s.meetsCells (.uniform h.pass.team) (set.map (·.key))

/-- COMMIT.c, and the first half of COMMIT.d. -/
def State.commitBody (s : State) (team off : Nat) (after : State → Body) : Body :=
  match s.commitC team off with
  | .done s => after s
  | .wait => .wait
  | .hold f => .hold f

/-- COMMIT (R188, R379, R385). -/
def execCommit (c : Ctl) (l : Lv) (s : State) : Host.Outcome State Fault Refusal :=
  issue (.commit c l) c s (fun h s =>
    let team := h.pass.team
    if (h.taking c s).any (fun a => s.heldBy a (·.data)) || (l != .w && h.setsBusy s l) then .wait
    else
      match l with
      | .w => joinStores h c .commit s
      | .t => .done (s.commitT team h.group.off)
      | .c => s.commitBody team h.group.off .done
      | .d =>
        if h.place.team.dwait then
          if s.owesBirsp h.place.team.cluster then .wait
          else .done (s.modTeam team (fun t => { t with dwait := false }))
        else s.commitBody team h.group.off (fun s' =>
          if s'.alive (.uniform team) && s'.owesBirsp h.place.team.cluster then
            .hold (fun s => match s.commitC team h.group.off with
              | .done s => s.modTeam team (fun t => { t with dwait := true })
              | _ => s)
          else .done s')
      | .s => .bad)

/-- ABORT (R190, R320). -/
def execAbort (c : Ctl) (l : Lv) (s : State) : Host.Outcome State Fault Refusal :=
  issue (.abort c l) c s (fun h s =>
    if (h.taking c s).any (fun a => s.heldBy a (·.data)) || (l != .w && h.setsBusy s l) then .wait
    else
      match l with
      | .w => joinStores h c .abort s
      | .t => .done (s.modTeam h.pass.team (fun t => { t with set := [] }))
      | .c => .done (s.modCluster h.place.team.cluster (fun k => { k with set := [] }))
      | _ => .bad)

/-- Records a FENCE of an agent (R192), row by row: .data waits for the accesses, commits and aborts still under way, .eng for
the accesses and commits, and each holds back the later ones of its own row. The writes to records that .rec waits for have
performed when they have issued. -/
def State.addFence (s : State) (ag : Agent) (k : FenceKinds) : State :=
  let rows : List FenceRec :=
    (if k.data then [⟨s.outstanding ag, ⟨true, false, false⟩⟩] else []) ++
      (if k.eng then [⟨s.underWay ag (fun c => c == .commit), ⟨false, false, true⟩⟩] else [])
  let put (l : List FenceRec) : List FenceRec :=
    rows.filter (fun f => !f.waits.isEmpty) ++ l.filter (fun f => f.waits.any s.stillOpen)
  match ag with
  | .thread team tid => s.modThread team tid (fun t => { t with fences := put t.fences })
  | .uniform team => s.modTeam team (fun t => { t with fences := put t.fences })

/-- FENCE (R192). -/
def execFence (c : Ctl) (sc : Lv) (k : FenceKinds) (s : State) : Host.Outcome State Fault Refusal :=
  issue (.fence c sc k) c s (fun h s => .done (eachLane (h.taking c s) (fun ag s => s.addFence ag k) s))

/-- A lane of an atomic goes with the lanes of its wave that name the same address (R195): `base` is the first name
this instruction gave out. -/
def State.joinAtomic (s : State) (base : Nat) (ag : Agent) (sp : Space) (a : Nat) (lv : Lv) (op : AtomOp) (t : Ty)
    (l : AtomLane) (xl : Frames) (off : Nat) : State :=
  let wave (x : Agent) : Nat := match x with | .thread _ tid => tid / 32 | .uniform _ => 0
  let same (e : Nat × Pend) : Bool :=
    decide (base ≤ e.1) && wave e.2.agent == wave ag &&
      (match e.2.kind with | .atomic _ b _ _ _ _ _ => a == b | _ => false)
  match s.pends.find? same with
  | some (id, p) =>
    match p.kind with
    | .atomic sp a lv op t lanes xl =>
      { s.setPends ag l.dst true with pends := tset s.pends id { p with kind := .atomic sp a lv op t (lanes ++ [l]) xl } }
    | _ => s
  | none => s.pend ag (.atomic sp a lv op t [l] xl) l.dst off

/-- ATOM and RED in each lane (R181, R193 to R195, R374). -/
def atomics (h : Here) (c : Ctl) (x : Site) (lv : Lv) (op : AtomOp) (t : Ty) (dst : List Reg) (a b e disp : Src)
    (s : State) : Body :=
  let base := s.nextId
  .done (eachLane (h.taking c s) (fun ag s =>
    let v := s.view ag
    let ad := v.addr x.pair a disp
    if ad % t.bytes ≠ 0 then s.trap ag 0x07 h.group.off ad
    else s.reach h ag x.space ad t.bytes true true (fun xl s =>
      if xl.any (fun f => !f.2.cached) then s.trap ag 0x0C h.group.off ad
      else s.joinAtomic base ag x.space ad lv op t ⟨ag, dst, v.src t b, v.src t e⟩ xl h.group.off)) s)

/-- ATOM (R194). -/
def execAtom (c : Ctl) (op : AtomOp) (sc : Lv) (t : Ty) (d : Dst) (a b e : Src) (s : State) :
    Host.Outcome State Fault Refusal :=
  access (.atom c op sc t d a b e) c s (fun h x s =>
    atomics h c x sc op t (Dst.regs t.wide d) a b e (if op = .cas then noDisp else e) s)

/-- RED (R194). -/
def execRed (c : Ctl) (op : AtomOp) (sc : Lv) (t : Ty) (a b disp : Src) (s : State) :
    Host.Outcome State Fault Refusal :=
  access (.red c op sc t a b disp) c s (fun h x s => atomics h c x sc op t [] a b noDisp disp s)

/-- What a lock instruction acts on: an aligned word whose bytes may be written now (R181, R197). `f` has the word's
value and answers what to write. -/
def lockLanes (h : Here) (c : Ctl) (x : Site) (sc : Lv) (a : Src) (s : State)
    (f : Agent → Nat → Word → State → Option Word × State) : Body :=
  let addr (ag : Agent) (s : State) : Nat := (s.view ag).addr x.pair a noDisp
  let home := devScope x.space sc
  let uses : List DevUse :=
    if x.space = .dev then (h.taking c s).map (fun ag => ⟨ag, addr ag s, 4, true, home⟩) else []
  if (h.taking c s).any (fun ag => overlaps s.pends ag x.space (addr ag s) 4) then .wait
  else devWords h uses s (fun s => .done (eachLane (h.taking c s) (fun ag s =>
    let w := h.place.launch.world
    let ad := addr ag s
    if ad % 4 ≠ 0 then s.trap ag 0x07 h.group.off ad
    else s.reach h ag x.space ad 4 true true (fun xl s =>
      if xl.any (fun f => !f.2.cached) then s.trap ag 0x0C h.group.off ad
      else
        match (if home then s.refused w ad 4 else none), (if home then s.sealedByte w ad 4 else none) with
        | some b, _ => s.trapTeam h.pass.team 0x15 h.group.off b
        | none, some b => s.trap ag 0x0C h.group.off b
        | none, none =>
          match f ag ad ((s.levelRead h.pass.team h.place sc x.space xl ad 4).setWidth 32) s with
          | (some w, s) => s.levelWrites h.pass.team h.place sc x.space xl ad (bytesOfNat 4 w.toNat)
          | (none, s) => s)) s))

/-- The team comes to hold a lock, or gives it up; locks at .t are not among them (R197, R199). -/
def State.setLock (s : State) (team : Nat) (k : HeldLock) (held : Bool) : State :=
  if k.scope = .t then s
  else s.modTeam team (fun t => { t with
    locks := if held then t.locks.filter (· != k) ++ [k] else t.locks.filter (· != k) })

/-- LKACQ (R197). -/
def execLkacq (c : Ctl) (sc : Lv) (d : Dst) (a : Src) (s : State) : Host.Outcome State Fault Refusal :=
  access (.lkacq c sc d a) c s (fun h x s =>
    lockLanes h c x sc a s (fun ag ad w s =>
      let out (n : Nat) (s : State) : State := s.later ag (dstWrites d false (BitVec.ofNat 64 n))
      if w = 0 then (some 1, out 0 (s.setLock h.pass.team ⟨x.space, ad, sc⟩ true))
      else if w = 0xFFFFFFFF then (none, out 2 s)
      else (none, out 1 s)))

/-- LKREL (R197): it waits until every earlier access, COMMIT and FENCE of the issuer has performed. -/
def execLkrel (c : Ctl) (sc : Lv) (a : Src) (s : State) : Host.Outcome State Fault Refusal :=
  access (.lkrel c sc a) c s (fun h x s =>
    if (h.taking c s).any (fun ag => !(s.outstanding ag).isEmpty) then .wait
    else lockLanes h c x sc a s (fun _ ad _ s => (some 0, s.setLock h.pass.team ⟨x.space, ad, sc⟩ false)))

/-- The host lines of the 512-byte tile at an address come to be held, where the page is translated and CXL.cache may
hold it (R200, R373, R382). -/
def State.prefHost (s : State) (h : Here) (a : Nat) : State :=
  match s.translateRange (h.core / 128) h.place.launch.world h.place.launch.pasid (a / 512 * 512) 512 false with
  | .ok xl s => s.touchRange h.place.launch.world xl (a / 512 * 512) 512 false none
  | .miss _ s | .invalid _ s => s

/-- PREF (R200): a device tile is filled, a host tile's lines are brought in, and a host address without a translation is
dropped. -/
def execPref (c : Ctl) (a disp : Src) (s : State) : Host.Outcome State Fault Refusal :=
  sited (.pref c a disp) c s (fun h x s => .done (eachLane (h.taking c s) (fun ag s =>
    let ad := (s.view ag).addr x.pair a disp
    match x.space with
    | .host => s.prefHost h ad
    | .dev => (s.fill h.place.launch.world ad 1).2
    | _ => s) s))

/-! Sync words (R201, R202). -/

/-- A sync word's fields. -/
structure SyncWord where
  target : Nat
  count : Nat
  gen : Nat
  err : Bool
  ecode : Nat
  deriving DecidableEq, Repr

/-- The sync word at a near address, at its home. -/
def State.syncWord (s : State) (p : Place) (a : Nat) : SyncWord :=
  let n (o k : Nat) : Nat := natOfBytes ((List.range k).map (fun i => s.homeByte p .near (a + o + i) []))
  let lo := n 0 8
  let hi := n 8 8
  ⟨lo % 2 ^ 32, lo / 2 ^ 32, hi % 2 ^ 32, bitOf hi 32, bitsOf hi 35 33⟩

/-- Writes it back. -/
def State.setSyncWord (s : State) (p : Place) (a : Nat) (w : SyncWord) : State :=
  s.homeWrites p .near [] a (bytesOfNat 8 (w.target + 2 ^ 32 * w.count) ++
    bytesOfNat 8 (w.gen + 2 ^ 32 * natOfBool w.err + 2 ^ 33 * w.ecode))

/-- complete-if-due (R202). -/
def SyncWord.due (w : SyncWord) : SyncWord :=
  if w.target ≠ 0 ∧ w.target ≤ w.count then
    { w with count := w.count - w.target, target := 0, gen := (w.gen + 1) % 2 ^ 32 }
  else w

/-- SWARM's effect on the word. -/
def SyncWord.arm (w : SyncWord) (b : Nat) : SyncWord := { w with target := b, err := false, ecode := 0 }.due

/-- An arrival of n bytes. -/
def SyncWord.arrive (w : SyncWord) (n : Nat) : SyncWord := { w with count := Nat.min (w.count + n) (2 ^ 32 - 1) }.due

/-- An error. -/
def SyncWord.fail (w : SyncWord) (code : Nat) : SyncWord := { w with err := true, ecode := code }

/-- SWARM (R202). -/
def execSwarm (c : Ctl) (d : Dst) (a b disp : Src) (s : State) : Host.Outcome State Fault Refusal :=
  access (.swarm c d a b disp) c s (fun h x s =>
    if (h.taking c s).any (fun ag => overlaps s.pends ag x.space ((s.view ag).addr x.pair a disp) 16) then .wait
    else .done (eachLane (h.taking c s) (fun ag s =>
      let v := s.view ag
      let ad := v.addr x.pair a disp
      if ad % 16 ≠ 0 then s.trap ag 0x07 h.group.off ad
      else
        let w := s.syncWord h.place ad
        (s.setSyncWord h.place ad (w.arm (v.src32 b).toNat)).later ag (dstWrites d false (BitVec.ofNat 64 w.gen))) s))

/-- SWAIT (R203): on at once when ERR is set or the token is old, else blocked until then. -/
def execSwait (c : Ctl) (d : KDst) (a b disp : Src) (s : State) : Host.Outcome State Fault Refusal :=
  access (.swait c d a b disp) c s (fun h x s =>
    if (h.taking c s).any (fun ag => overlaps s.pends ag x.space ((s.view ag).addr x.pair a disp) 16) then .wait
    else .done (s.endBlock h c (fun ag v s =>
      let ad := v.addr x.pair a disp
      let tok := v.src32 b
      if ad % 16 ≠ 0 then s.trap ag 0x07 h.group.off ad
      else
        let w := s.syncWord h.place ad
        if w.err || w.gen != tok.toNat then
          (s.putRegs ag (kWrites d w.err)).setLeave ag (.goto (h.fallThrough c))
        else s.setLeave ag (.block (h.fallThrough c) (.sync ad d tok)))))

end Sys2Proof.Machine
end

