-- ==== Sys2Proof/Machine/Engines.lean ====
section
/-! DEFINITION. Copy, matrix, drain and histogram instructions (R204 to R241, R331 to R344, R366). -/

namespace Sys2Proof.Machine

/-! Copy requests (R208, R218 to R224, R331). -/

/-- The sync words a request signals (R219, R221). -/
def CopyReq.syncs (r : CopyReq) : List Nat :=
  match r.target, r.members with
  | .barrier _, _ => []
  | .sync a, none => [a]
  | .sync a, some ms => ms.map (fun m => m * 2 ^ 19 + a % 2 ^ 19)

/-- The status word CPYQ shows but for DONE (R224). -/
def CState.code (c : CState) (ecode : Nat) : Nat :=
  match c with
  | .queued => 1
  | .active => 2
  | .parked _ => 3
  | .complete => 4
  | .failed => 5 + 16 * ecode

/-- The bytes delivered to every member (R224). -/
def CopyReq.done (r : CopyReq) : Nat :=
  let left (m : Nat) : Nat := r.flights.foldl (fun n f => if f.member = m then n + f.bytes.length else n) 0
  r.moved - r.flights.foldl (fun n f => Nat.max n (left f.member)) 0

/-- A request leaves the copy unit; its thread keeps the status of its last 32 requests (R224). -/
def State.dropCopy (s : State) (id : Nat) (r : CopyReq) : State :=
  let s := { s with copies := tdel s.copies id, wbufUses := s.wbufUses.filter (fun u => u.owner != id) }
  match r.tid with
  | none => s
  | some tid => s.modThread r.team tid (fun t =>
      { t with copies := t.copies.filter (fun e => decide (t.copySeq ≤ e.seq + 32)) ++
          [⟨r.seq, r.state.code r.ecode, r.done⟩] })

/-- The package core of a cluster's core m. -/
def Cluster.coreAt (c : Cluster) (m : Nat) : Nat := c.origin + 16 * (m / c.w) + m % c.w

/-- A core is being reset (R340). -/
def State.coreDown (s : State) (core : Nat) : Bool := s.resets.any (fun e => e.1 == core)

/-- A cluster's core m is. -/
def State.memberDown (s : State) (cluster m : Nat) : Bool :=
  match tget s.clusters cluster with | some c => s.coreDown (c.coreAt m) | none => false

/-- A failed request reports to its target, where that lies on no core being reset (R220, R340). -/
def State.reportFail (s : State) (id : Nat) (r : CopyReq) : State :=
  let s := s.dropCopy id { r with state := .failed }
  match r.target, s.place r.team with
  | .barrier b, some p =>
    if p.team.ended || s.coreDown p.team.home then s else s.modBar r.team b (fun b => { b with err := true })
  | .sync _, some p =>
    (r.syncs.filter (fun a => !s.memberDown r.cluster (a / 2 ^ 19))).foldl
      (fun s a => s.setSyncWord p a ((s.syncWord p a).fail r.ecode)) s
  | _, none => s

/-- Nothing of a request is left to read, to place, to land or to signal. -/
def CopyReq.over (r : CopyReq) : Bool := r.rows.isEmpty && r.claims.isEmpty && r.flights.isEmpty && r.owed.isEmpty

/-- A request goes on, or ends: it fails, or goes without a word, or its barrier gets its arrival, unless it lies on a core
being reset (R219, R220, R332, R339, R340). -/
def State.endCopy (s : State) (id : Nat) (r : CopyReq) : State :=
  if !r.over then { s with copies := tset s.copies id r }
  else if r.cancel then s.dropCopy id { r with state := .failed }
  else if r.ecode ≠ 0 then s.reportFail id r
  else
    match r.target, tget s.teams r.team with
    | .barrier b, some t =>
      if s.coreDown t.home then s.reportFail id { r with ecode := 1 }
      else
        let s := s.dropCopy id { r with state := .complete }
        if t.ended then s else s.modBar r.team b (fun b => b.arrive none (s.liveCount r.team))
    | _, _ => s.dropCopy id { r with state := .complete }

/-- The bytes of a request that are still to be read. -/
def CopyReq.rest (r : CopyReq) : List Row :=
  match r.rows with
  | [] => []
  | a :: l => { a with sa := a.sa + r.pos, da := a.da + r.pos, len := a.len - r.pos } :: l

/-- A row touches a tile of device memory. -/
def Row.touches (r : Row) (tile : Nat) : Bool :=
  r.dst == .mem .dev && r.len != 0 && decide (r.da < (tile + 1) * 512) && decide (tile * 512 < r.da + r.len)

/-- All of a claimed tile's bytes have been gathered (R334). -/
def CopyReq.gathered (r : CopyReq) (tile : Nat) : Bool :=
  !r.rest.any (fun a => a.touches tile) && r.staging.any (fun e => e.1 / 512 == tile)

/-- A request reads no more: its claims go, but for tiles it has gathered whole (R334). -/
def CopyReq.stop (r : CopyReq) : CopyReq :=
  let keep := r.claims.filter r.gathered
  { r with
    rows := [], pos := 0, plain := [], buf := [], state := .active, claims := keep
    staging := r.staging.filter (fun e => keep.contains (e.1 / 512))
    marks := r.marks.filter (fun m => m.l2.all (fun t => keep.contains t || !r.claims.contains t)) }

/-- A request fails with a code (R220): at once, or when what it has gathered and sent has landed (R334). -/
def State.failCopy (s : State) (id : Nat) (r : CopyReq) (code : Nat) : State := s.endCopy id { r.stop with ecode := code }

/-- The 512-byte tiles that the .dev destinations of rows overlap, in the order in which their last bytes are read. -/
def claimsOf (rows : List Row) : List Nat :=
  (rows.flatMap (fun r =>
    match r.dst with
    | .mem .dev => (List.range ((r.da + (r.len - 1)) / 512 - r.da / 512 + 1)).map (fun i => r.da / 512 + i)
    | _ => [])).reverse.eraseDups.reverse

/-- A claim of a tile is refused: a CONF tile (R212, R333), or one in a read-only page (R19, R274; log 14). -/
def State.claimRefused (s : State) (w : Nat) (claims : List Nat) : Bool :=
  claims.any (fun t => s.copyRefused w (t * 512) || s.readOnly w (t * 512))

/-- What a copy command asks for in one lane, or that it is refused with code 3. -/
structure CopyJob where
  refused : Bool
  rows : List Row
  members : Option (List Nat)
  marks : List TileMark
  record : Nat
  looked : Option Nat
  bounce : Bool
  chan : Nat
  /-- The weight-buffer bytes it writes. -/
  wb : Option (Nat × Nat)

/-- A refused command: the failure goes to the sync words of its members (R220, R221). -/
def CopyJob.refuse (members : Option (List Nat)) : CopyJob := ⟨true, [], members, [], 0, none, false, 0, none⟩

/-- Enters a lane's request, or fails it at once (R208, R220). -/
def State.enterCopy (s : State) (h : Here) (team tid : Nat) (tgt : CTarget) (j : CopyJob) : State :=
  match s.thread team tid with
  | none => s
  | some t =>
    let id := s.nextId
    let s := { s.modThread team tid (fun t => { t with copySeq := t.copySeq + 1 }) with nextId := id + 1 }
    let r : CopyReq :=
      { core := h.core, team := team, tid := some tid, cluster := h.place.team.cluster, world := h.place.launch.world
        seq := t.copySeq, rows := j.rows, pos := 0, members := j.members, target := tgt, state := .queued, ecode := 0
        cancel := false, moved := 0, buf := [], flights := [], owed := [], claims := claimsOf j.rows, staging := []
        parts := [], marks := j.marks, record := j.record, looked := j.looked, before := none, bounce := j.bounce, chan := j.chan
        plain := []
        tok := 0, lost := false }
    if j.refused then s.failCopy id r 3
    else
      let uses := match j.wb with | some (lo, hi) => [⟨h.place.team.home, lo, hi, true, id⟩] | none => []
      { s with copies := s.copies ++ [(id, r)], wbufUses := s.wbufUses ++ uses }

/-- The first group waiting for entries of a core that still exists (R331). -/
def State.copyHead (s : State) (core : Nat) : Option (Nat × Nat) :=
  (s.copyQ.find? (fun e => e.1 == core &&
    (match tget s.passes e.2.1 with
     | some p => match tget p.groups e.2.2 with | some g => !g.lanes.isEmpty | none => false
     | none => false))).map (·.2)

/-- The barrier register or sync word of a completion target in a lane (R219). -/
def resolveTgt (v : View) : CopyTgt → CTarget
  | .barrier b => .barrier b.toNat
  | .sync d => .sync (v.src32 d).toNat

/-- The entries of a core's copy unit that are taken: those of saved clusters are not on it (R331, R339). -/
def State.copyEntries (s : State) (core : Nat) : Nat :=
  (s.copies.filter (fun e => e.2.core == core &&
    (match tget s.clusters e.2.cluster with | some c => !c.saved | none => true))).length

/-- A record lookup's use of device memory: it writes where it must write back what a store has changed (R209). -/
def State.lookupUse (s : State) (w : Nat) (ag : Agent) (a : Nat) : DevUse := ⟨ag, a, 64, true, s.recStale w a⟩

/-- An engine command's uses as it looks up the record at a (R213, R385): the record, and for a write to a CONF tensor the
state of its n tiles from t on (R212). -/
def State.lookupUses (s : State) (w : Nat) (ag : Agent) (a : Nat) (out : Bool) (t n : Nat) : List DevUse :=
  let r := s.readRec w a
  s.lookupUse w ag a ::
    (if out && r.conf then
      [⟨ag, r.febase + t / 4, (t + n - 1) / 4 - t / 4 + 1, true, false⟩].filter (fun u => s.devRange w u.a u.n)
    else [])

/-- The lowest of the tiles a job claims that lies in the page being moved makes it wait, behind those who came before
(R325). -/
def State.claimWaits (s : State) (w : Nat) (ag : Agent) (claims : List Nat) : Bool :=
  claims.any (fun t => !s.mayWrite w (.word ag) (t * 512) 512 0)

/-- A copy command (R207, R208, R331): lanes that are not producers trap, and the others enter a request each once
the unit has entries for all of them. `job` looks up records, with these uses, so it may change the state. -/
def copyCmd (i : Instr) (c : Ctl) (tgt : CopyTgt) (s : State) (uses : Nat → Agent → View → State → List DevUse)
    (job : Here → View → State → CopyJob × State) : Host.Outcome State Fault Refusal :=
  issue i c s (fun h s =>
    let takers := h.taking c s
    let checked := h.place.image.prodChecks.contains h.group.off
    let wave (a : Agent) : Nat := match a with | .thread _ tid => tid / 32 | .uniform _ => 0
    let bad (a : Agent) : Bool := checked && wave a != h.place.launch.prodw
    let good := takers.filter (fun a => !bad a)
    let n := good.length
    let used := s.copyEntries h.core
    let w := h.place.launch.world
    let waits (ag : Agent) : Bool := s.claimWaits w ag (claimsOf (job h (s.view ag) s).1.rows)
    let me := (h.core, h.pid, h.gid)
    let mine : Bool := match s.copyHead h.core with | some e => e == (h.pid, h.gid) | none => true
    if takers.any (fun a => s.heldBy a (·.eng)) then .wait
    else if n ≠ 0 ∧ (!mine ∨ 32 < used + n) then
      .hold (fun s => if s.copyQ.contains me then s else { s with copyQ := s.copyQ ++ [me] })
    else if good.any waits then
      .hold (fun s => (good.filter waits).foldl (fun s ag => s.queueWriter w (.word ag)) s)
    else devWords h (good.flatMap (fun ag => uses w ag (s.view ag) s)) s (fun s =>
      .done (eachLane takers (fun ag s =>
        match ag with
        | .uniform _ => s
        | .thread team tid =>
          if bad ag then s.trap ag 0x09 h.group.off (wave ag)
          else
            let v := s.view ag
            let (j, s) := job h v s
            (s.wrote w (.word ag)).enterCopy h team tid (resolveTgt v tgt) j)
        { s with copyQ := s.copyQ.filter (fun e => e != me) })))

/-- The members of multicast entry n - 1 (R38, R221); none outside where n is 0, and none inside where it is
missing. -/
def Here.members (h : Here) (n : Nat) : Option (Option (List Nat)) :=
  if n = 0 then some none
  else (h.place.launch.mcast[n - 1]?).map (fun m => some ((List.range 32).filter (fun i => bitOf m i)))

/-- CPY (R218, R221, R222). -/
def execCpy (c : Ctl) (tgt : CopyTgt) (a b : Src) (bounce : Bool) (mcast : Fin 17) (bch : Fin 16)
    (lenm1 : BitVec 20) (rowsm1 : BitVec 12) (spitch dpitch : BitVec 14) (s : State) :
    Host.Outcome State Fault Refusal :=
  copyCmd (.cpy c tgt a b bounce mcast bch lenm1 rowsm1 spitch dpitch) c tgt s (fun _ _ _ _ => []) (fun h v s =>
    match h.site, h.site2, h.members mcast.val with
    | some x, some y, some ms =>
      let sa := v.addr x.pair a noDisp
      let da := v.addr y.pair b noDisp
      let rows := (List.range (rowsm1.toNat + 1)).map (fun i =>
        (⟨.mem x.space, sa + i * 32 * spitch.toNat, .mem y.space, da + i * 32 * dpitch.toNat, lenm1.toNat + 1, bounce⟩ :
          Row))
      let w := h.place.launch.world
      let closed := bounce && !(((s.world w).chans[bch.val]?).map (·.opened)).getD false
      if closed || s.claimRefused w (claimsOf rows) then (.refuse ms, s)
      else (⟨false, rows, ms, [], 0, none, bounce, bch.val, none⟩, s)
    | _, _, _ => (.refuse none, s))

/-- CPYT (R223). -/
def execCpyt (c : Ctl) (out : Bool) (tgt : CopyTgt) (a b tile : Src) (ntm1 : BitVec 8) (tb : Fin 6) (scale : Bool)
    (mcast : Fin 17) (s : State) : Host.Outcome State Fault Refusal :=
  copyCmd (.cpyt c out tgt a b tile ntm1 tb scale mcast) c tgt s
    (fun w ag v s => s.lookupUses w ag (v.addr true a noDisp) out (v.src32 tile).toNat (ntm1.toNat + 1)) (fun h v s =>
    let w := h.place.launch.world
    let ra := v.addr true a noDisp
    let la := (v.src32 b).toNat
    let lsp : Space := match h.site2 with | some y => y.space | none => .near
    let t0 := (v.src32 tile).toNat
    let nt := ntm1.toNat + 1
    match h.members mcast.val, s.recCheck w h.place.launch.tenant ra (!out) out (some (t0 + nt - 1)) with
    | some ms, some (r, s) =>
      let tl := r.tileBytes
      let step := tl + (if scale then 64 else 0)
      let tiles := (List.range nt).map (fun i =>
        let l := la + i * step
        let runs := if scale then r.planeRuns (t0 + i) else []
        let parts := (r.tileAddr (t0 + i), tl, l) ::
          runs.zipIdx.map (fun e => (e.1.1, e.1.2, l + tl + (if r.baxis then 0 else e.2)))
        (t0 + i, parts.map (fun (d, n, l) =>
          if out then (⟨.mem lsp, l, .mem .dev, d, n, false⟩ : Row) else ⟨.mem .dev, d, .mem lsp, l, n, false⟩)))
      let rows := tiles.flatMap (·.2)
      let marks := if out then tiles.map (fun e => (⟨r.febase, e.1, claimsOf e.2⟩ : TileMark)) else []
      if tl ≠ 2 ^ (tb.val + 9) || (scale && !scaled r.fmt) ||
          (out && ((List.range nt).any (fun i => s.engineRefused w r (t0 + i)) ||
            (claimsOf rows).any (fun t => s.readOnly w (t * 512)) || marks.any (fun m => s.readOnly w m.place))) then (.refuse ms, s)
      else (⟨false, rows, ms, marks, if out then ra else 0, some ra, false, 0, none⟩, s)
    | ms, _ => (.refuse (ms.getD none), s))

/-- CPYQ (R224). -/
def execCpyq (c : Ctl) (d : Dst) (a : Src) (s : State) : Host.Outcome State Fault Refusal :=
  issue (.cpyq c d a) c s (fun h s => .done (eachLane (h.taking c s) (fun ag s =>
    match ag with
    | .uniform _ => s
    | .thread team tid =>
      match s.thread team tid with
      | none => s
      | some t =>
        let n := ((s.view ag).src32 a).toNat % 32
        let word (done code : Nat) : Nat := Nat.min done (2 ^ 32 - 1) * 2 ^ 32 + code
        let v :=
          if t.copySeq ≤ n then 0
          else
            let q := t.copySeq - 1 - n
            match s.copies.find? (fun e => e.2.team == team && e.2.tid == some tid && e.2.seq == q) with
            | some (_, r) => word r.done (r.state.code r.ecode)
            | none => match t.copies.find? (fun e => e.seq == q) with | some e => word e.moved e.code | none => 0
        s.later ag (dstWrites d true (BitVec.ofNat 64 v))) s))

/-! The weight buffer (R225 to R228). -/

/-- A record's format is the one WLD names (R226). -/
def wfFits (wf : WFmt) (r : TRec) : Bool :=
  r.tshape == 1 &&
    (match wf with
     | .ds8 => r.fmt == 5 && r.baxis
     | .ds4 => r.fmt == 6 && r.baxis
     | .bf16 => r.fmt == 1)

/-- The bytes of a slot of K rows in a format (R225). -/
def wfSlotLen (wf : WFmt) (k : Nat) : Nat :=
  match wf with | .ds8 => 65 * k | .ds4 => 33 * k | .bf16 => 128 * k

/-- The offset of a slot's scale bytes. -/
def wfScaleAt (wf : WFmt) (k : Nat) : Nat := match wf with | .ds4 => 32 * k | _ => 64 * k

/-- WLD (R226). -/
def execWld (c : Ctl) (near : Bool) (tgt : CopyTgt) (a tile : Src) (slot : BitVec 10) (km1 : BitVec 6) (wf : WFmt)
    (s : State) : Host.Outcome State Fault Refusal :=
  copyCmd (.wld c near tgt a tile slot km1 wf) c tgt s
    (fun w ag v s => if near then [] else s.lookupUses w ag (v.addr true a noDisp) false 0 0)
    (fun h v s =>
    match h.place.team.mres with
    | none => (.refuse none, s)
    | some m =>
      let core := h.place.team.home
      let nb := km1.toNat + 1
      let k := 64 * nb
      let da := m.wbuf + slot.toNat * 512
      let wb := some (da, da + wfSlotLen wf k)
      if near then
        (⟨false, [⟨.mem .near, (v.src32 a).toNat, .wbuf core, da, wfSlotLen wf k, false⟩], none, [], 0, none, false, 0, wb⟩, s)
      else
        let t0 := (v.src32 tile).toNat
        let ra := v.addr true a noDisp
        match s.recCheck h.place.launch.world h.place.launch.tenant ra true false none with
        | none => (.refuse none, s)
        | some (r, s) =>
          let cc := r.cols / 64
          if !wfFits wf r || decide (r.tiles ≤ t0 + (nb - 1) * cc) then (.refuse none, s)
          else
            let rows := (List.range nb).flatMap (fun b =>
              let t := t0 + b * cc
              (⟨.mem .dev, r.tileAddr t, .wbuf core, da + b * r.tileBytes, r.tileBytes, false⟩ : Row) ::
                (if wf = .bf16 then []
                 else (r.planeRuns t).map (fun e =>
                  ⟨.mem .dev, e.1, .wbuf core, da + wfScaleAt wf k + b * 64, e.2, false⟩)))
            (⟨false, rows, none, [], 0, some ra, false, 0, wb⟩, s))

/-- Earlier-issued accesses to weight-buffer bytes are still to come (R228): any, for a write. -/
def State.wbufBusy (s : State) (core lo hi : Nat) (write : Bool) (owner : Option Nat) : Bool :=
  (s.wbufUses.takeWhile (fun u => some u.owner != owner)).any (fun u =>
    u.core == core && decide (u.lo < hi) && decide (lo < u.hi) && (write || u.write))

/-- The bytes of a core's weight buffer. -/
def State.wbuf (s : State) (core : Nat) : Mem := (tget s.wbufs core).getD .empty

/-- WDROP (R227). -/
def execWdrop (c : Ctl) (a b : Src) (s : State) : Host.Outcome State Fault Refusal :=
  issue (.wdrop c a b) c s (fun h s =>
    match h.place.team.mres with
    | none => .done s
    | some m =>
      let core := h.place.team.home
      let v := s.view (.uniform h.pass.team)
      let x := (v.src32 a).toNat
      let lo := Nat.min (x / 512 * 512) m.wbufLen
      let hi := Nat.min ((x + (v.src32 b).toNat) / 512 * 512) m.wbufLen
      if hi ≤ lo then .done s
      else if s.wbufBusy core (m.wbuf + lo) (m.wbuf + hi) true none then .wait
      else
        let rest := (s.wbuf core).keep (fun a => decide (a < m.wbuf + lo) || decide (m.wbuf + hi ≤ a))
        .done { s with wbufs := tset s.wbufs core rest })

/-! Matrix issue and the banks (R229 to R234, R366). -/

/-- MMA (R231). -/
def execMma (c : Ctl) (m : MMode) (ci : Fin 16) (a : Src) (acc : Acc) (mh nh : Bool) (km1 : BitVec 6)
    (slot : BitVec 10) (nexp : BitVec 14) (s : State) : Host.Outcome State Fault Refusal :=
  issue (.mma c m ci a acc mh nh km1 slot nexp) c s (fun h s =>
    match h.site with
    | none => .bad
    | some x =>
    if (h.taking c s).any (fun x => s.heldBy x (·.eng)) || h.signWaits s ci.val (h.taking c s).length (some acc) then .wait
    else .done (eachLane (h.taking c s) (fun ag s =>
      let r := s.conv h.pass.team ci.val
      match ag with
      | .uniform _ => s
      | .thread _ tid =>
        if r.exp ≠ nexp.toNat then s.trap ag 0x0A h.group.off (r.exp + 2 ^ 32 * nexp.toNat)
        else
          let op : MOp := ⟨m, acc, mh, nh, 64 * (km1.toNat + 1), slot.toNat, x.space, ((s.view ag).src32 a).toNat⟩
          (s.sign h.pass.team ci.val h.group.off
            (some ⟨op, nexp.toNat, h.group.off, tid, .mma c m ci a acc mh nh km1 slot nexp, false⟩)).2) s))

/-- The issuing team's bank operation enters the queues (R233, R366). -/
def State.enterBank (s : State) (h : Here) (banks : List Nat) (writes : Bool) (k : BankOpKind) : State :=
  let s := banks.foldl (fun s b => s.useBank h.place h.place.team.home writes b) s
  { s with
    bankOps := s.bankOps ++ [(s.nextId, ⟨h.pass.team, h.place.team.home, banks, h.group.off, k, false, []⟩)]
    nextId := s.nextId + 1 }

/-- The physical banks of an operand, or none without a reservation. -/
def Here.banks (h : Here) (a : Acc) : List Nat :=
  match h.place.team.mres with | some m => bankList m.bank a | none => []

/-- AZERO (R234). -/
def execAzero (c : Ctl) (acc : Acc) (s : State) : Host.Outcome State Fault Refusal :=
  issue (.azero c acc) c s (fun h s =>
    if s.bankBusy h.place (h.banks acc) then .wait else .done (s.enterBank h (h.banks acc) true .azero))

/-- ARD (R234). -/
def execArd (c : Ctl) (acc : Fin 8) (d : Dst) (a : Src) (s : State) : Host.Outcome State Fault Refusal :=
  issue (.ard c acc d a) c s (fun h s =>
    let banks := h.banks ⟨acc, false⟩
    if s.bankBusy h.place banks then .wait
    else .done (eachLane (h.taking c s) (fun ag s =>
      match ag with
      | .uniform _ => s
      | .thread _ tid =>
        let v := s.view ag
        (s.setPends ag (Dst.regs false d) true).enterBank h banks false
          (.ard (some tid) (Dst.regs false d) ((v.src32 a).toNat % 1024))) s))

/-- AWR (R234). -/
def execAwr (c : Ctl) (acc : Fin 8) (f32 : Bool) (a b : Src) (s : State) : Host.Outcome State Fault Refusal :=
  issue (.awr c acc f32 a b) c s (fun h s =>
    let banks := h.banks ⟨acc, false⟩
    if s.bankBusy h.place banks then .wait
    else .done (eachLane (h.taking c s) (fun ag s =>
      let v := s.view ag
      s.enterBank h banks true
        (.awr ((v.src32 b).toNat % 1024) ((v.src (if f32 then .f32 else .b32) a).setWidth 32))) s))

/-- The code of QST's format (R46). -/
def qCode : QFmt → Nat
  | .f32 => 0 | .bf16 => 1 | .bx8 => 3 | .bx4 => 4

/-- A drain of the team is still to finish with its bank, and so with its residues and counts. -/
def State.draining (s : State) (team : Nat) (f : Drain → Bool) : Bool :=
  s.bankOps.any (fun e => e.2.team == team && (match e.2.kind with | .qst d => f d | _ => false))

/-- QST (R235, R237). The record is looked up, and the tile claimed, when it issues. -/
def execQst (c : Ctl) (acc : Acc) (axisM : Bool) (a post tile : Src) (fmt : QFmt) (blk rin rout : Bool)
    (hslot : Fin 17) (sreg : BitVec 10) (s : State) : Host.Outcome State Fault Refusal :=
  issue (.qst c acc axisM a post tile fmt blk rin rout hslot sreg) c s (fun h s =>
    let team := h.pass.team
    let v := s.view (.uniform team)
    let l := h.place.launch
    let ra := v.addr true a noDisp
    let t := (v.src32 tile).toNat
    let ag := Agent.uniform team
    if s.heldBy ag (fun k => k.eng || k.record) || s.bankBusy h.place (h.banks acc) then .wait
    else devWords h (s.lookupUses l.world ag ra true t 1) s (fun s =>
      match s.recCheck l.world l.tenant ra false true (some t) with
      | none => .done (s.trapTeam team 0x13 h.group.off ra)
      | some (r, s') =>
        let row (e : Nat × Nat) : Row := ⟨.zeros, 0, .mem .dev, e.1, e.2, false⟩
        let bx := fmt == .bx8 || fmt == .bx4
        let claims := claimsOf (((r.tileAddr t, r.tileBytes) :: (if bx then r.planeRuns t else [])).map row)
        if r.fmt ≠ qCode fmt || r.tshape ≠ natOfBool acc.quad || s'.engineRefused l.world r t ||
            claims.any (fun t => s.readOnly l.world (t * 512)) || s.readOnly l.world (r.febase + t / 4) then
          .done (s.trapTeam team 0x13 h.group.off ra)
        else if s.claimWaits l.world ag claims then .hold (fun s => s.queueWriter l.world (.word ag))
        else
          let d : Drain :=
            { axisM := axisM, post := (v.src .f32 post).setWidth 32, tile := t, fmt := fmt, blk := blk, rin := rin
              rout := rout, hslot := hslot.val, code := (v.reg (.s sreg.toNat)).setWidth 8, record := ra
              base := r.base, spbase := r.spbase, febase := r.febase, cols := r.cols, baxis := r.baxis
              conf := r.conf, claims := claims }
          .done ((s'.wrote l.world (.word ag)).enterBank h (h.banks acc) false (.qst d))))

/-! Residue registers and histograms (R238 to R241). -/

/-- RESLD (R238): it waits for the team's drains in the queue. -/
def execResld (c : Ctl) (e0 : Fin 64) (a : Src) (nm1 : Fin 64) (d : Src) (s : State) :
    Host.Outcome State Fault Refusal :=
  access (.resld c e0 a nm1 d) c s (fun h x s =>
    let ag := Agent.uniform h.pass.team
    if s.draining h.pass.team (fun k => k.rin || k.rout) then .wait
    else .done (s.loadLane h ag x ((s.view ag).addr x.pair a d) (4 * (nm1.val + 1)) .b32 (erun e0.val (nm1.val + 1))))

/-- RESST (R238): its bytes merge into the team set, marked as the team's (R189). -/
def execResst (c : Ctl) (e0 : Fin 64) (a : Src) (nm1 : Fin 64) (d : Src) (s : State) :
    Host.Outcome State Fault Refusal :=
  access (.resst c e0 a nm1 d) c s (fun h x s =>
    let team := h.pass.team
    let ag := Agent.uniform team
    let n := nm1.val + 1
    let ad := (s.view ag).addr x.pair a d
    if s.draining team (fun k => k.rin || k.rout) || overlaps s.pends ag x.space ad (4 * n) then .wait
    else .done (s.reach h ag x.space ad (4 * n) false true (fun _ s =>
      let words := (List.range n).map (fun i => (h.place.team.res[e0.val + i]?).getD 0)
      let bytes := words.flatMap (fun w => bytesOfNat 4 w.toNat)
      let (k, s) := s.mergeTeam team h.group.off 0 (bytes.zipIdx.map (fun e => (skey x.space (ad + e.2), e.1)))
      match k with
      | some b => if h.place.launch.scommit then s.trapTeam team 0x08 h.group.off b else s
      | none => s)))

/-- Changes a histogram slot. -/
def State.modHist (s : State) (team i : Nat) (f : HistSlot → HistSlot) : State :=
  s.modTeam team (fun t =>
    match t.hist[i]? with
    | some x => { t with hist := t.hist.setIfInBounds i (f x) }
    | none => t)

/-- HCLR (R241). -/
def execHclr (c : Ctl) (slot : Fin 16) (a : Src) (s : State) : Host.Outcome State Fault Refusal :=
  issue (.hclr c slot a) c s (fun h s =>
    if s.draining h.pass.team (fun k => k.hslot == slot.val + 1) then .wait
    else .done (s.modHist h.pass.team slot.val (fun _ =>
      ⟨(s.view (.uniform h.pass.team)).src32 a, Vector.replicate 32 0⟩)))

/-- HRD (R241). -/
def execHrd (c : Ctl) (slot : Fin 16) (d : Dst) (a : Src) (s : State) : Host.Outcome State Fault Refusal :=
  issue (.hrd c slot d a) c s (fun h s =>
    if s.draining h.pass.team (fun k => k.hslot == slot.val + 1) then .wait
    else .done (eachLane (h.taking c s) (fun ag s =>
      let i := ((s.view ag).src32 a).toNat % 32
      let w :=
        match h.place.team.hist[slot.val]? with
        | some x => (x.count[i]?).getD 0
        | none => 0
      s.later ag (dstWrites d false (w.setWidth 64))) s))

/-! Record instructions (R215 to R217). -/

/-- A lane's result of a record instruction, with its record's address; `f` answers whether it writes, too. `writes` are the
bytes it then does, and `reads` others that it reads besides the record: address and length. A write to a
read-only page is a trap (R19, R274; log 14). -/
def recordOp (i : Instr) (c : Ctl) (d : Dst) (a : Src) (s : State) (wait : Here → Nat → State → Bool)
    (reads writes : View → Nat → TRec → List (Nat × Nat)) (f : Here → View → Nat → State → Word × Bool × State) :
    Host.Outcome State Fault Refusal :=
  issue i c s (fun h s =>
    let w := h.place.launch.world
    let addr (v : View) : Nat := v.addr true a noDisp
    let touched (f : View → Nat → TRec → List (Nat × Nat)) (v : View) : List (Nat × Nat) :=
      (f v (addr v) (s.readRec w (addr v))).filter (fun e => s.devRange w e.1 e.2)
    let written := touched writes
    let uses (ag : Agent) : List DevUse :=
      s.lookupUse w ag (addr (s.view ag)) :: (touched reads (s.view ag)).map (fun e => ⟨ag, e.1, e.2, true, false⟩) ++
        (written (s.view ag)).map (fun e => ⟨ag, e.1, e.2, true, true⟩)
    if (h.taking c s).any (fun ag => s.heldBy ag (·.record) || wait h (addr (s.view ag)) s) then .wait
    else devWords h ((h.taking c s).flatMap uses) s (fun s => .done (eachLane (h.taking c s) (fun ag s =>
      let v := s.view ag
      let (r, wrote, s') := f h v (addr v) s
      match (if wrote then (written v).findSome? (fun e => s.sealedByte w e.1 e.2) else none) with
      | some b => s.trap ag 0x0C h.group.off b
      | none =>
        let s' := if wrote then (written v).foldl (fun s e => s.placedLines w h.place.team.cluster e.1 e.2) s' else s'
        s'.later ag (dstWrites d false (r.setWidth 64))) s)))

/-- The bytes TREC writes: place, and value (R209, R215). -/
def trecBytes (s : State) (w ra : Nat) (f : RecFld) (b : DWord) : Nat × List Byte :=
  let d0 := s.devNat w ra 8
  match f with
  | .base => (ra + 8, bytesOfNat 8 b.toNat)
  | .spbase => (ra + 16, bytesOfNat 8 b.toNat)
  | .rows => (ra + 24, bytesOfNat 4 b.toNat)
  | .cols => (ra + 28, bytesOfNat 4 b.toNat)
  | .febase => (ra + 32, bytesOfNat 8 b.toNat)
  | .fmt => (ra, bytesOfNat 2 (d0 % 65536 / 2048 * 2048 + b.toNat % 2048))
  | .tid => (ra + 2, bytesOfNat 2 b.toNat)

/-- TREC (R215). -/
def execTrec (c : Ctl) (fld : RecFld) (d : Dst) (a b : Src) (s : State) : Host.Outcome State Fault Refusal :=
  recordOp (.trec c fld d a b) c d a s (fun _ _ _ => false) (fun _ _ _ => []) (fun _ ra _ => [(ra, 64)]) (fun h v ra s =>
    let l := h.place.launch
    if ra % 64 ≠ 0 || !s.devCovered l.world l.tenant ra 64 false true then (0xFFFFFFFF, false, s)
    else if (s.readRec l.world ra).opened then (0, false, s)
    else
      let (p, bytes) := trecBytes s l.world ra fld (v.src (if fld.wide then .b64 else .b32) b)
      (1, true, s.devPokes l.world p bytes))

/-- Sets what the record cache keeps, and the record with it (R209). -/
def State.setRec (s : State) (w a : Nat) (r : TRec) : State :=
  let recs := s.recs.map (fun (k : RecCache) =>
    if k.world = w ∧ k.addr = a then { k with version := r.version, opened := r.opened } else k)
  State.writeBackRec { s with recs := recs } w a r

/-- TOPEN (R216). -/
def execTopen (c : Ctl) (d : Dst) (a : Src) (s : State) : Host.Outcome State Fault Refusal :=
  recordOp (.topen c d a) c d a s (fun _ _ _ => false) (fun _ _ _ => []) (fun _ ra r => [(ra, 64), (r.febase, (r.tiles + 3) / 4)])
    (fun h _ ra s =>
    let w := h.place.launch.world
    match s.recCheck w h.place.launch.tenant ra false true none with
    | none => (0xFFFFFFFF, false, s)
    | some (r, s) =>
      if r.opened then (0, false, s)
      else
        let s := (List.range (2 * r.tiles)).foldl (fun s i => s.setTileBit w r.febase i false) s
        (1, true, s.setRec w ra { r with version := r.version + 1, opened := true }))

/-- Engine writes to a record's tensor issued and not delivered (R216). -/
def State.engineWrites (s : State) (w ra : Nat) : Bool :=
  let mine (team : Nat) : Bool := match s.place team with | some p => p.launch.world == w | none => false
  s.copies.any (fun e => e.2.world == w && e.2.record == ra && ra != 0) ||
    s.bankOps.any (fun e =>
      match e.2.kind with
      | .qst d => d.record == ra && mine e.2.team
      | _ => false) ||
    s.drains.any (fun e => e.2.drain.record == ra && mine e.2.team)

/-- TCLOSE (R216). -/
def execTclose (c : Ctl) (d : Dst) (a : Src) (s : State) : Host.Outcome State Fault Refusal :=
  recordOp (.tclose c d a) c d a s
    (fun h ra s => (s.recCheck h.place.launch.world h.place.launch.tenant ra false true none).isSome &&
      s.engineWrites h.place.launch.world ra)
    (fun _ _ _ => []) (fun _ ra _ => [(ra, 64)]) (fun h _ ra s =>
      let w := h.place.launch.world
      match s.recCheck w h.place.launch.tenant ra false true none with
      | none => (0xFFFFFFFF, false, s)
      | some (r, s) => if r.opened then (1, true, s.setRec w ra { r with opened := false }) else (0, false, s))

/-- TFE (R217). -/
def execTfe (c : Ctl) (op : TfeOp) (d : Dst) (a tile : Src) (s : State) : Host.Outcome State Fault Refusal :=
  let at_ (v : View) (r : TRec) : List (Nat × Nat) := [(r.febase + (v.src32 tile).toNat / 4, 1)]
  recordOp (.tfe c op d a tile) c d a s (fun _ _ _ => false) (fun v _ r => if op = .test then at_ v r else [])
    (fun v _ r => if op = .test then [] else at_ v r) (fun h v ra s =>
    let w := h.place.launch.world
    let t := (v.src32 tile).toNat
    match s.recCheck w h.place.launch.tenant ra false true (some t) with
    | none => (0xFFFFFFFF, false, s)
    | some (r, s) =>
      let f := s.tileBit w r.febase (2 * t)
      let old : Word := BitVec.ofNat 32 (natOfBool f + 2 * natOfBool (s.tileBit w r.febase (2 * t + 1)))
      match op with
      | .test => (old, false, s)
      | .fill => (old, true, s.setTileBit w r.febase (2 * t) true)
      | .empty => (old, true, s.setTileBit w r.febase (2 * t) false))

end Sys2Proof.Machine
end

