-- ==== Sys2Proof/Machine/Launch.lean ====
section
/-! DEFINITION. Launches: capture (R18, R36 to R40), the checks (R42, R103, R198, R327, R363, R372), what a cluster
takes of a core (R28 to R31), and completion records (R43, R44). -/

namespace Sys2Proof.Machine

/-- A little-endian field of n bytes. -/
def natAt (b : List Byte) (off n : Nat) : Nat := natOfBytes ((b.drop off).take n)

/-! Completion (R20, R43, R44). -/

/-- Writes a launch's completion record (R20, R43; log 14). Its counts are those of their 32-bit fields (log 77). -/
def State.report (s : State) (id status : Nat) : State :=
  match tget s.launches id with
  | none => s
  | some l =>
    let early := 3 ≤ status ∧ status ≤ 6
    let n (v : Nat) : Nat := if early then 0 else v % 2 ^ 32
    let ec := if status = 2 ∨ status = 7 then l.eclass else 0
    s.own l.world (.completion l.compl (bytesOfNat 8 (status + 2 ^ 8 * ec + 2 ^ 32 * n l.teams))
      (bytesOfNat 8 (n l.exits + 2 ^ 32 * n l.stops) ++ bytesOfNat 8 0))

/-- A launch is done: its completion record is written, and its entry frees. -/
def State.finishLaunch (s : State) (id status : Nat) : State :=
  let s := s.report id status
  { s with launches := tdel s.launches id }

/-- The status of a launch whose teams have all ended (R44). -/
def Launch.status (l : Launch) : Nat := if l.stops = 0 ∧ l.eclass = 0 then 1 else 2

/-! What a cluster takes of its cores (R28 to R31). -/

/-- Bytes of main registers of one thread (R28). -/
def Image.threadBytes (i : Image) : Nat := 32 * ((i.regs + 7) / 8)

/-- The threads whose state the j-th of n cores holds, counted at capacity (R28, R30). -/
def Image.partThreads (i : Image) (n j : Nat) : Nat :=
  let w := (i.threads + 31) / 32
  Nat.min i.threads (32 * ((j + 1) * w / n)) - Nat.min i.threads (32 * (j * w / n))

/-- The span of the image's teams: the smallest of 1, 2 and 4 that fits (R29). -/
def Image.span (i : Image) (store : Nat) : Option Nat :=
  [1, 2, 4].find? (fun n => (List.range n).all (fun j => decide (i.partThreads n j * i.threadBytes ≤ store)))

/-- The units of a w × h cluster for a span, each as cluster core indices with the home core first (R29). -/
def unitsOf (n w h : Nat) : List (List Nat) :=
  let at_ (x y : Nat) : Nat := y * w + x
  if n = 1 then (List.range (w * h)).map (fun c => [c])
  else if n = 2 then
    if w % 2 = 0 then
      (List.range h).flatMap (fun y => (List.range (w / 2)).map (fun x => [at_ (2 * x) y, at_ (2 * x + 1) y]))
    else if h % 2 = 0 then
      (List.range (h / 2)).flatMap (fun y => (List.range w).map (fun x => [at_ x (2 * y), at_ x (2 * y + 1)]))
    else []
  else if w % 2 = 0 ∧ h % 2 = 0 then
    (List.range (h / 2)).flatMap (fun y => (List.range (w / 2)).map (fun x =>
      [at_ (2 * x) (2 * y), at_ (2 * x + 1) (2 * y), at_ (2 * x) (2 * y + 1), at_ (2 * x + 1) (2 * y + 1)]))
  else []

/-- What resident clusters take of a core (R28). -/
structure Usage where
  teams : Nat
  threads : Nat
  foot : Nat
  near : Nat
  col : Nat
  deriving DecidableEq, Repr

/-- Both together. -/
def Usage.plus (a b : Usage) : Usage :=
  ⟨a.teams + b.teams, a.threads + b.threads, a.foot + b.foot, a.near + b.near, a.col + b.col⟩

/-- What a cluster of w × h cores takes of its core j. -/
def clusterUse (i : Image) (units : List (List Nat)) (tpc w h : Nat) (locdev : Bool) (j : Nat) : Usage :=
  let base : Usage := ⟨0, 0, 0, i.nearSz, i.colSz + (i.clusterCap tpc * 32 + (w * h - 1)) / (w * h)⟩
  (List.range tpc).foldl (fun u t =>
    let un := units.getD (t % units.length) []
    let k := un.findIdx (fun c => c == j)
    if k < un.length then
      let n := i.partThreads un.length k
      u.plus ⟨1, n, n * i.threadBytes, 0,
        (if locdev then 0 else n * i.locSz) + (if k = 0 then i.teamCap * 32 else 0)⟩
    else u) base

/-- The limits of R28. -/
def Usage.fits (u : Usage) (store : Nat) : Bool :=
  u.teams ≤ 16 && u.threads ≤ 8192 && u.foot ≤ store && u.near ≤ 524288 && decide (u.col + store ≤ 8388608)

/-- Cores of a rectangle with its top-left at core c, if it lies on one die. -/
def rectangle (c w h : Nat) : Option (List Nat) :=
  if c % 16 + w ≤ 16 ∧ c % 128 / 16 + h ≤ 8 then
    some ((List.range h).flatMap (fun j => (List.range w).map (fun i => c + 16 * j + i)))
  else none

/-- Rectangles in the dispatcher's order: dies ascending, origins in ascending (y, x) (R354). -/
def rectangles (w h : Nat) : List (List Nat) := (List.range 512).filterMap (fun c => rectangle c w h)

/-- The octets the placement check of R42 uses: MINOCT of the partition's, or all of them (R356; log 19). -/
def Part.checkOctets (p : Part) : List Nat :=
  let all := (List.range 64).filter (fun k => p.octets.getLsbD k)
  if p.minoct = 0 then all else all.take p.minoct

/-- Some placement could hold one cluster on the empty partition (R24, R28, R29). -/
def Part.couldHold (p : Part) (i : Image) (l : Launch) : Bool :=
  match i.span p.stateStore with
  | none => false
  | some n =>
    let units := unitsOf n l.cw l.ch
    let oct := p.checkOctets
    !units.isEmpty &&
      (List.range (l.cw * l.ch)).all (fun j => (clusterUse i units l.tpc l.cw l.ch l.locdev j).fits p.stateStore) &&
      (rectangles l.cw l.ch).any (fun r => r.all (fun c => oct.contains (octetOf c)))

/-- The worst case of a forced halt exceeds HALTLIM (R363), with every term multiplied by 64 × w × h × 36. -/
def Part.tooSlow (p : Part) (i : Image) (l : Launch) : Bool :=
  let lim := if p.haltlim = 0 ∨ 30 < p.haltlim then 30 else p.haltlim
  let a := if i.accBanks = 0 then 0 else 400 + 200 * i.accBanks
  let wh := l.cw * l.ch
  let cycles := 80 + 16 * ((i.regs + 7) / 8 + 4)
  let m := Nat.max (i.teamCap * 32 * wh) (i.clusterCap l.tpc * 32)
  decide (3600 * lim * (64 * wh) < (36 * (100 + a) + 10 * cycles) * (64 * wh) + 10 * m)

/-! Facts of an entry annotation (R101, R103). -/

/-- Argument word r. -/
def Launch.arg (l : Launch) (r : Nat) : Word := l.args.getD r 0

/-- The value of an entry's register: a pair of argument words or one of them. -/
def Launch.argVal (l : Launch) (e : LiveEntry) : Nat :=
  match e.reg with
  | .s r => (l.arg r).toNat + (if e.type.pair then 2 ^ 32 * (l.arg (r + 1)).toNat else 0)
  | _ => 0

/-- A register's reading as a term: an integer by its type, a pointer by its offset (R101, R187, R327). -/
def Launch.termOf (l : Launch) (e : LiveEntry) : Int :=
  let v := l.argVal e
  if e.type.cls = 2 then
    match Ty.ofCode (BitVec.ofNat 4 e.type.spec) with
    | some t => intVal' t v
    | none => v
  else if e.type.cls = 4 then
    if e.type.spec = 0xFE then (v % 2 ^ 19 : Nat)
    else if e.type.spec = 0xFF then (v % 2 ^ 23 : Nat)
    else if e.type.spec = 0xFD then v
    else (v : Int) - (l.regions.getD e.type.spec (0, 0)).1
  else v
where
  intVal' (t : Ty) (v : Nat) : Int :=
    let u := v % 2 ^ t.width
    if t.signed && decide (2 ^ (t.width - 1) ≤ u) then (u : Int) - 2 ^ t.width else u

/-- The number an annotation gives a register (R100). -/
def regCode : Reg → Nat
  | .x r => r
  | .k r => 0x50 + r
  | .s r => 0x100 + r
  | _ => 0x7FF

/-- The largest offset a pointer may have (R100). -/
def Launch.ptrMax (l : Launch) (i : Image) (spec : Nat) : Nat :=
  if spec = 0xFE then i.nearSz
  else if spec = 0xFF then i.colSz
  else if spec = 0xFD then i.locSz
  else (l.regions.getD spec (0, 0)).2

/-- The value of a term of a relation. -/
def Launch.term (l : Launch) (i : Image) (live : List LiveEntry) (c : Nat) : Int :=
  if c = 0x7FE ∨ c = 0x7FF then 0
  else if c = 0x700 then l.threads
  else if c = 0x701 then i.threads
  else if c = 0x702 then i.nearSz
  else if c = 0x703 then i.colSz
  else if c = 0x704 then i.locSz
  else if 0x600 ≤ c then ((l.regions.getD (c - 0x600) (0, 0)).2 : Nat)
  else match live.find? (fun e => regCode e.reg == c) with | some e => l.termOf e | none => 0

/-- The bounds of a RANGE word, read at the entry's type (R100). -/
def rangeOf (t : LiveType) (r : Option (Nat × Nat)) : Option (Int × Int) :=
  match r, Ty.ofCode (BitVec.ofNat 4 t.spec) with
  | some (lo, hi), some ty =>
    if ty.signed then some ((BitVec.ofNat 32 lo).toInt, (BitVec.ofNat 32 hi).toInt) else some (lo, hi)
  | _, _ => none

/-- A live entry's promise holds of the arguments. -/
def Launch.entryHolds (l : Launch) (i : Image) (e : LiveEntry) : Bool :=
  let t := l.termOf e
  (match rangeOf e.type e.range with
   | some (lo, hi) => decide (lo ≤ t) && decide (t ≤ hi)
   | none => true) &&
    (e.type.cls != 4 || (decide (0 ≤ t) && decide (t ≤ l.ptrMax i e.type.spec)))

/-- A relation holds of the arguments. -/
def Launch.relHolds (l : Launch) (i : Image) (live : List LiveEntry) (r : Nat × Nat × Nat × Int) : Bool :=
  let a := l.term i live r.1
  let b := l.term i live r.2.2.1 + r.2.2.2
  match r.2.1 with
  | 0 => decide (a < b)
  | 1 => decide (a ≤ b)
  | _ => decide (a = b)

/-- A lockword argument is in order (R198): aligned, in the region that holds the lock word. -/
def Launch.lockHolds (l : Launch) (i : Image) (e : LiveEntry) : Bool :=
  match i.regions[e.type.spec]? with
  | none => false
  | some g =>
    let (b, n) := l.regions.getD g.lregion (0, 0)
    let v := l.argVal e
    v % 4 == 0 && decide (b ≤ v) && decide (v + 4 ≤ b + n)

/-- A near or column argument names a core of the cluster (R327). -/
def Launch.coreHolds (l : Launch) (e : LiveEntry) : Bool :=
  let v := l.argVal e
  let n := l.cw * l.ch
  if e.type.spec = 0xFE then decide (v / 2 ^ 19 < n) else if e.type.spec = 0xFF then decide (v / 2 ^ 23 < n) else true

/-! Capture (R18, R36 to R38) and the checks (R42). -/

/-- What a packet and its parameter block say, and whether they are well formed (R36 to R38). -/
def readPacket (w : Nat) (b : List Byte) (tenant : Nat) (block : List Byte) (blockOk : Bool) (order : Nat) :
    Launch × Bool :=
  let d (i : Nat) : Nat := natAt b (8 * i) 8
  let param := bitOf (d 0) 18
  let nreg := bitsOf (d 1) 63 56
  let nargs := bitsOf (d 1) 55 48
  let body := if param then block.drop 0x10 else b.drop 0x28
  let a0 := 16 * nreg
  let fixed := a0 + 4 * nargs
  let d0 := (fixed + 7) / 8 * 8
  let h := natAt block 0 8
  let ndep := if param then bitsOf h 7 0 else 0
  let nmc := if param then bitsOf h 12 8 else 0
  let dep (i : Nat) : Nat × Nat := (natAt body (d0 + 16 * i) 8, natAt body (d0 + 16 * i + 8) 8)
  let mcw (i : Nat) : Nat := natAt body (d0 + 16 * ndep + 8 * i) 8
  let cw := bitsOf (d 2) 55 48
  let ch := bitsOf (d 2) 63 56
  let locdev := bitOf (d 0) 19
  let locbase := if param then natAt block 8 8 else 0
  let zeros (lo n : Nat) : Bool := ((body.drop lo).take n).all (· == 0)
  let l : Launch :=
    { world := w, tenant := tenant, image := BitVec.ofNat 32 (d 0 / 2 ^ 32), state := .captured
      prio := bitsOf (d 0) 23 20, locdev := locdev, scommit := bitOf (d 0) 17, sstall := bitOf (d 0) 16
      prodw := bitsOf (d 1) 47 40, amax := bitsOf (d 1) 39 32, threads := bitsOf (d 1) 31 16
      entry := bitsOf (d 1) 15 0, cw := cw, ch := ch, gx := bitsOf (d 2) 15 0, gy := bitsOf (d 2) 31 16
      gz := bitsOf (d 2) 47 32, wdog := d 3 / 2 ^ 32, bin := bitsOf (d 3) 23 16, tpc := bitsOf (d 3) 15 0
      compl := d 4
      regions := (List.range nreg).map (fun i => (natAt body (16 * i) 8, natAt body (16 * i + 8) 8))
      args := (List.range nargs).map (fun i => BitVec.ofNat 32 (natAt body (a0 + 4 * i) 4))
      deps := (List.range ndep).map (fun i =>
        ⟨(dep i).1, (dep i).2 % 2 ^ 32, bitsOf (dep i).2 47 32, bitOf (dep i).2 48⟩)
      mcast := (List.range nmc).map mcw
      pasid := if param && bitOf h 52 then some (bitsOf h 51 32) else none
      locbase := locbase, part := 0, slot := 0, placed := 0, released := 0, teams := 0, exits := 0, stops := 0
      eclass := 0, etime := 0, killed := false, order := order, eligible := false, bits := none, checked := false }
  let wh := cw * ch
  let blockForm : Bool :=
    if param then
      blockOk && bitsOf h 31 13 == 0 && bitsOf h 63 53 == 0 && nmc ≤ 16 &&
        decide (0x10 + d0 + 16 * ndep + 8 * nmc ≤ 8192) && zeros fixed (d0 - fixed) &&
        (if locdev then locbase % 64 == 0 else locbase == 0) &&
        (List.range ndep).all (fun i => bitsOf (dep i).2 47 32 != 0 && (dep i).2 / 2 ^ 49 == 0) &&
        (List.range nmc).all (fun i => mcw i != 0 && decide (mcw i < 2 ^ wh)) && d 6 == 0 && d 7 == 0
    else decide (fixed ≤ 24) && zeros fixed (24 - fixed) && !locdev
  let ok :=
    d 0 % 256 == 1 && tenant < 64 && bitsOf (d 0) 31 24 == 0 && bitsOf (d 3) 31 24 == 0 &&
      1 ≤ l.threads && 1 ≤ l.gx && 1 ≤ l.gy && 1 ≤ l.gz && 1 ≤ cw && cw ≤ 16 && 1 ≤ ch && ch ≤ 8 && wh ≤ 32 &&
      1 ≤ l.tpc && l.tpc ≤ 16 * wh && blockForm
  (l, ok)

/-- The length of a packet's parameter block by its own counts (R38). -/
def paramLen (b : List Byte) (head : Nat) : Nat :=
  0x10 + (16 * bitsOf (natAt b 8 8) 63 56 + 4 * bitsOf (natAt b 8 8) 55 48 + 7) / 8 * 8 + 16 * bitsOf head 7 0 +
    8 * bitsOf head 12 8

/-- Checks 4 and 5 of R42, with those of R103, R198 and R327, and check 6: the status, or none if all pass. A .host region may
lie anywhere below 2^64 (R39; log 84). -/
def State.checkImage (s : State) (l : Launch) (i : Image) : Option Nat :=
  let waves := (i.threads + 31) / 32
  match i.blocks[l.entry]? with
  | none => some 4
  | some b =>
    let named (e : LiveEntry) : Bool :=
      match e.reg with
      | .s r => decide (r + natOfBool e.type.pair < i.nargs) && e.type.uniform
      | _ => false
    if l.regions.length ≠ i.regions.length ∨ l.args.length ≠ i.nargs ∨ i.threads < l.threads ∨ waves ≤ l.prodw ∨
        b.uniform ∨ b.role ≠ 0 ∨ !b.live.all named then some 4
    else
      let okRegion (e : (Nat × Nat) × Region) : Bool :=
        let ((a, n), g) := e
        a % 32 == 0 && g.minLen ≤ n && decide (a + n ≤ 2 ^ 64) &&
          (if g.space = 3 then n == 0 || s.devRange l.world a n else l.pasid.isSome) &&
          (match s.cap l.world l.tenant g.cap with
           | some c => c.kind == 1 && c.space == g.space && decide (c.base ≤ a) && decide (a + n ≤ c.base + c.len) &&
             (g.space != 4 || some c.pasid == l.pasid) && (!g.rd || c.rd) && (!g.w || c.w)
           | none => false)
      let okPasid : Bool := match l.pasid with | some p => (s.readContext l.world p).isSome | none => true
      let locLen := l.gx * l.gy * l.gz * l.tpc * i.threads * ((i.locSz + 63) / 64 * 64)
      let okLoc : Bool := !l.locdev || locLen == 0 || s.devRange l.world l.locbase locLen
      if !(l.regions.zip i.regions).all okRegion || !okPasid || !okLoc then some 5
      else if !(b.live.all (l.entryHolds i) && b.rels.all (l.relHolds i b.live)) then some 5
      else if !b.live.all (fun e =>
          (e.type.cls != 5 || l.lockHolds i e) && (e.type.cls != 4 || l.coreHolds e)) then some 5
      else
        let p := s.part l.part
        if p.octets = 0 ∨ p.pways = 0 ∨ p.hbmsh = 0 ∨ !p.couldHold i l ∨ p.tooSlow i l then some 6 else none

/-- The image a launch names, whatever has become of it (R42 step 3). -/
def State.imageNamed (s : State) (l : Launch) : Option Image :=
  (s.images.find? (fun e => e.2.world == l.world && e.2.tenant == l.tenant && e.2.id == l.image &&
    (e.2.state == .sealed || e.2.state == .submitted))).map (·.2)

/-- The checks from the third on (R42, R416; log 20): a launch of an image under admission is held, and the checks that ask
for the image follow its verdict (R21, R41). -/
def State.checkLaunch (s : State) (id : Nat) : State :=
  match tget s.launches id with
  | none => s
  | some l =>
    let l := { l with part := (s.world l.world).part }
    match s.imageNamed l with
    | none => s.finishLaunch id 3
    | some i =>
      if i.state = .submitted then { s with launches := tset s.launches id { l with state := .held } }
      else if (s.world l.world).migen && !i.replayOk then s.finishLaunch id 3
      else
        match s.checkImage l i with
        | some st => s.finishLaunch id st
        | none => { s with launches := tset s.launches id { l with state := .held, checked := true } }

/-- A launch may place its next cluster (R351). -/
def Launch.places (l : Launch) : Bool :=
  !l.killed && l.checked && ((l.state == .held && l.eligible) || l.state == .placing)

/-- The launches of a world in its queue (R41). -/
def State.queued (s : State) (w : Nat) : Nat := (s.launches.filter (fun e => e.2.world == w && e.2.state != .done)).length

/-- Where the parameter block of a packet of 64 bytes lies and its length, if there is one that can be read (R38). -/
def State.paramBlock (s : State) (w : Nat) (b : List Byte) : Option (Nat × Nat) :=
  let pa := natAt b 0x28 8
  if !bitOf (natAt b 0 8) 18 || pa % 64 != 0 || !s.devRange w pa 16 then none
  else
    let n := paramLen b (s.readNat w pa 8)
    if n ≤ 8192 && s.devRange w pa n then some (pa, n) else none

/-- The units of the log that the capture of a packet takes, with its parameter block (R417). -/
def State.captureUnits (s : State) (w : Nat) (b : List Byte) : Nat :=
  logUnits (64 + ((s.paramBlock w b).map (·.2)).getD 0)

/-- Captures a launch packet from its 64 bytes, for a tenant where the source fixes one (R40), and checks it;
`kind` is its record's in the log. A parameter block with a wrong tag ends the capture (R412). -/
def State.captureLaunch (s : State) (w : Nat) (b : List Byte) (tenant : Option Nat) (kind : Nat) : State :=
  let at_ := s.paramBlock w b
  match (match at_ with | some (pa, n) => s.fill w pa n | none => (true, s)) with
  | (false, s) => s
  | (true, s) =>
  let block := match at_ with | some (pa, n) => s.devReads w pa n | none => []
  let (l, ok) := readPacket w b (tenant.getD (bitsOf (natAt b 0 8) 15 8)) block at_.isSome s.now
  let s := s.logRecord w kind (b ++ block)
  if l.compl % 32 ≠ 0 || !s.devRange w l.compl 32 then s
  else
    let id := s.nextId
    let s := { s with
      nextId := id + 1
      launches := s.launches ++ [(id, { l with part := (s.world w).part })] }
    if !ok then s.finishLaunch id 4 else s.checkLaunch id

/-- A team as it is placed, before its start (R31, R37), which it asks for then (R341). -/
def Team.placed (launch cluster index : Nat) (cores : List Nat) (asked : Nat) : Team where
  launch := launch
  cluster := cluster
  index := index
  cores := cores
  started := false
  ended := false
  stopped := false
  s := Vector.replicate 1024 0
  sPend := 0
  uo := Vector.replicate 8 0
  uy := Vector.replicate 2 0
  bar := Vector.replicate 16 ⟨0, 0, 0, [], false, false, 0, []⟩
  conv := Vector.replicate 16 ⟨0, 0, 0, none⟩
  res := Vector.replicate 64 0
  resPend := 0
  hist := Vector.replicate 16 ⟨0, Vector.replicate 32 0⟩
  tconf := 0
  set := []
  locks := []
  fences := []
  upark := none
  uleave := none
  mres := none
  savedBanks := []
  savedWbuf := .empty
  surge := false
  surgeAsk := none
  asked := asked
  mwait := 0
  mpage := 0
  dwait := false
  mtok := 0
  boundary := false
  lastOff := 0

/-- A cluster as it is placed (R328). -/
def Cluster.placed (launch cx cy cz origin w h : Nat) (teams : List Nat) : Cluster where
  launch := launch
  cx := cx
  cy := cy
  cz := cz
  origin := origin
  w := w
  h := h
  saved := false
  near := .empty
  col := .empty
  set := []
  cconf := 0
  teams := teams
  emptied := 0

end Sys2Proof.Machine
end

