-- ==== Sys2Proof/Machine/Selector.lean ====
section
/-! DEFINITION. The selector (R278 to R287, R302, R306 to R309), team start (R37, R341), write-back, team end and
cluster release (R163, R339), and what happens of itself after a step (`State.settle`). -/

namespace Sys2Proof.Machine

/-! Contexts. -/

/-- The context's teams run on: Active or Requested (R359). -/
def Slot.runs (c : Slot) : Bool := c.state == 1 || c.state == 3

/-- A team stands on its cores: its cluster is not saved, it has its reservation, and it has started and not ended. -/
def Place.onCores (p : Place) : Bool :=
  !p.cluster.saved && p.team.mres.isSome && p.team.started && !p.team.ended && !p.team.stopped

/-- The selector may choose from a team: its context runs, and it does not wait at a task boundary under a request
(R361). -/
def State.selectable (s : State) (p : Place) : Bool :=
  let c := s.slotOf p.launch
  p.onCores && c.runs && !(c.state == 3 && p.team.boundary)

/-! Waiters. -/

/-- The block entered at an offset. -/
def Image.entryAt (i : Image) (off : Nat) : Option Block := i.blocks.find? (fun b => b.off == off)

/-- A thread becomes a waiter of a candidate: its entry is made, and a bin closes at 32 (R282, R302). -/
def State.addWaiter (s : State) (p : Place) (team tid off : Nat) (resume : Bool) : State :=
  let core := p.team.coreOf p.image.threads tid
  let n := (s.waiters p team core off).length
  s.modCand core team off resume (fun e => { e with bin := e.bin && (resume || decide (n < 32)) })

/-- A thread moves on to a block's entry, or blocks (R156). The store is written by the caller. -/
def State.moveThread (s : State) (p : Place) (team tid : Nat) (l : Leave) : State :=
  let st : TState := match l with | .goto off => .waiting off | .block off cause => .blocked off cause
  let s := s.modThread team tid (fun t => { t with st := st, leave := none, hasWin := false, win := zeroWindow })
  match l with
  | .goto off => s.addWaiter p team tid off false
  | .block _ _ => s

/-- Releases a blocked thread with the value of its k destination (R170, R203). -/
def State.release (s : State) (p : Place) (team tid off : Nat) (k : KDst) (b : Bool) : State :=
  let s := (kWrites k b).foldl (fun s e => s.modThread team tid (fun t =>
    match e.1 with | .k i => { t with k := t.k.setIfInBounds i (e.2 != 0) } | _ => t)) s
  s.moveThread p team tid (.goto off)

/-! Write-back (R287). -/

/-- A thread's live-outs enter the store: what the block wrote and the successor lists. -/
def Thread.writeOut (t : Thread) (live : List LiveEntry) : Thread :=
  let keep (c : Nat) : Bool :=
    live.any (fun e => regCode e.reg == c || (e.type.pair && regCode e.reg + 1 == c))
  { t with
    x := Vector.ofFn (fun i : Fin 64 =>
      if t.win.wroteX.getLsbD i.val && keep i.val then (t.win.x[i.val]?).getD 0 else (t.x[i.val]?).getD 0)
    k := Vector.ofFn (fun i : Fin 7 =>
      if t.win.wroteK.getLsbD i.val && keep (0x50 + i.val) then (t.win.k[i.val]?).getD false
      else (t.k[i.val]?).getD false) }

/-- The offset a leave goes to. -/
def Leave.off : Leave → Nat
  | .goto o => o
  | .block o _ => o

/-- Removes a group, and its pass with the last one (R279). -/
def State.dropGroup (s : State) (pid gid : Nat) : State :=
  match tget s.passes pid with
  | none => s
  | some p =>
    let gs := tdel p.groups gid
    { s with passes := if gs.isEmpty then tdel s.passes pid else tset s.passes pid { p with groups := gs } }

/-- A group that has left its block is written back. -/
def State.writeBack (s : State) (pid gid : Nat) : State :=
  match tget s.passes pid with
  | none => s
  | some p =>
    match tget p.groups gid, s.place p.team with
    | some g, some pl =>
      if !g.done then s
      else if p.uniform then
        match pl.team.uleave with
        | none => s.dropGroup pid gid
        | some l =>
          let s := (s.dropGroup pid gid).modTeam p.team (fun t => { t with uleave := none })
          (s.liveTids p.team).foldl (fun s tid => s.moveThread pl p.team tid l) s
      else
        g.lanes.foldl (fun s tid =>
          match s.thread p.team tid with
          | none => s
          | some t =>
            let l := t.leave.getD (.goto g.off)
            let live := match pl.image.entryAt l.off with | some b => b.live | none => []
            (s.modThread p.team tid (fun t => t.writeOut live)).moveThread pl p.team tid l) (s.dropGroup pid gid)
    | _, _ => s

/-- WRITE_BACK (R287). -/
def execWriteBack (pass grp : Nat) (s : State) : Host.Outcome State Fault Refusal := .next (s.writeBack pass grp)

/-! Candidates and selection (R279 to R282). -/

/-- A candidate as the selector sees it. -/
structure Choice where
  team : Nat
  off : Nat
  resume : Bool
  uniform : Bool
  place : Place
  tids : List Nat
  age : Nat
  deriving DecidableEq, Repr

/-- The device address the selector orders by. -/
def Choice.addr (c : Choice) : Nat := c.place.image.code + c.off

/-- A candidate's age. -/
def State.ageOf (s : State) (core team off : Nat) (resume : Bool) : Nat :=
  match s.cands.find? (fun e => e.core == core && e.team == team && e.off == off && e.resume == resume) with
  | some e => e.age
  | none => 0

/-- A pass of the pair is open on the core. -/
def State.openPass (s : State) (core team off : Nat) : Bool :=
  s.passes.any (fun e => e.2.core == core && e.2.team == team && e.2.off == off)

/-- The waiting vectors of a team part (R284). -/
def vectors : Nat := 256

/-- Where a thread counts as a waiter: its address, and whether that is a resume point (R278, R292). -/
def Thread.waitsAt (t : Thread) : Option (Nat × Bool) :=
  match t.st with
  | .waiting off => some (off, false)
  | .parked off _ true => some (off, true)
  | _ => none

/-- The waiters of a candidate (R279). -/
def State.waitingAt (s : State) (p : Place) (team core off : Nat) (resume : Bool) : List Nat :=
  (s.liveTids team).filter (fun tid =>
    p.team.coreOf p.image.threads tid == core && (s.thread team tid).bind (·.waitsAt) == some (off, resume))

/-- A team's candidates on a core for rows 2 and 3: thread blocks and resume points with waiters. -/
def State.teamChoices (s : State) (core team : Nat) (p : Place) : List Choice :=
  if !s.selectable p || !p.team.cores.contains core || p.team.upark.isSome then []
  else
    let at_ := (s.liveTids team).filterMap (fun tid =>
      if p.team.coreOf p.image.threads tid = core then
        (s.thread team tid).bind (fun t => t.waitsAt.map (fun w => (tid, w)))
      else none)
    ((at_.map (·.2)).eraseDups).filterMap (fun w =>
      let uni := match p.image.entryAt w.1 with | some b => b.uniform && !w.2 | none => false
      if uni || s.openPass core team w.1 then none
      else some ⟨team, w.1, w.2, false, p, (at_.filter (fun e => e.2 == w)).map (·.1), s.ageOf core team w.1 w.2⟩)

/-- A team's ready uniform block, or its resumable park, on its home core (R280, R431). -/
def State.readyUniform (s : State) (core team : Nat) (p : Place) : Option Choice :=
  let tids := s.liveTids team
  if !s.selectable p || p.team.home != core || tids.isEmpty then none
  else
    match p.team.upark with
    | some u => if u.resumable then some ⟨team, u.off, true, true, p, tids, 0⟩ else none
    | none =>
      match (s.thread team (tids.headD 0)).bind (·.waitsAt) with
      | some (off, false) =>
        let uni := match p.image.entryAt off with | some b => b.uniform | none => false
        if uni && tids.all (fun tid => (s.thread team tid).bind (·.waitsAt) == some (off, false)) then
          some ⟨team, off, false, true, p, tids, 0⟩
        else none
      | _ => none

/-- The elements with the least key. -/
def leastBy {α : Type} (key : α → Nat) (l : List α) : List α :=
  match l with
  | [] => []
  | a :: r =>
    let m := r.foldl (fun m b => Nat.min m (key b)) (key a)
    l.filter (fun b => key b == m)

/-- Narrows to the least context slot, then the least team index. -/
def bySlot (l : List Choice) : List Choice :=
  leastBy (fun c => c.place.team.index) (leastBy (fun c => c.place.launch.slot) l)

/-- A_max of a launch (R36). -/
def Launch.aMax (l : Launch) : Nat := if l.amax = 0 then 16 else l.amax

/-- The rows of R281: the row, and the candidates it cannot tell apart. -/
def chooseRow (ready rest : List Choice) (lastRow1 : Bool) : Nat × List Choice :=
  let due := rest.filter (fun c => c.place.launch.aMax ≤ c.age)
  if !ready.isEmpty && !(lastRow1 && !due.isEmpty) then (1, bySlot ready)
  else if !due.isEmpty then (2, bySlot (leastBy Choice.addr (leastBy (fun c => 255 - c.age) due)))
  else (3, bySlot (leastBy Choice.addr (leastBy (fun c => 8192 - c.tids.length) rest)))

/-- What may have a waiting vector: a thread block or a resume point, but not a uniform block (R280, R284). -/
def Cand.takes (e : Cand) (p : Place) : Bool :=
  e.resume || !(match p.image.entryAt e.off with | some b => b.uniform | none => false)

/-- Ages after a selection: the chosen one's is 0 and its bin closes, the other candidates' rise (R282, R302). Its waiting
vector goes to the candidate of its team part without one that has the lowest address (R284). -/
def State.ageAll (s : State) (core : Nat) (rest : List Choice) (c : Choice) : State :=
  let s := rest.foldl (fun s d =>
    if d.team = c.team ∧ d.off = c.off ∧ d.resume = c.resume then
      s.modCand core d.team d.off d.resume (fun e => { e with age := 0, bin := false, vec := false })
    else s.modCand core d.team d.off d.resume (fun e => { e with age := Nat.min 255 (e.age + 1) })) s
  let had : Bool := !c.uniform && (s.cands.filter (fun e => e.core == core && e.team == c.team && e.vec)).length < vectors
  match leastBy (fun (e : Cand) => e.off) (s.cands.filter (fun e => e.core == core && e.team == c.team && !e.vec &&
      e.takes c.place && !(s.waitingAt c.place c.team core e.off e.resume).isEmpty && !(e.off == c.off && e.resume == c.resume))) with
  | e :: _ => if had then s.modCand core c.team e.off e.resume (fun e => { e with vec := true }) else s
  | [] => s

/-- A thread enters a pass of a block with its store in the window (R287). -/
def Thread.enter (t : Thread) (pid : Nat) : Thread :=
  { t with
    st := .inPass pid, leave := none, spawned := false, hasWin := true
    win := { zeroWindow with x := t.x, k := t.k } }

/-- The watchdog at a capture (R307 to R309): the count rises, and a thread above the limit is stopped, with its team if
the block's lock set is not empty. -/
def State.watch (s : State) (c : Choice) (tid : Nat) : State :=
  match s.thread c.team tid with
  | none => s
  | some t =>
    let n : Word := if t.wdcnt = 0xFFFFFFFF then t.wdcnt else t.wdcnt + 1
    let s := s.modThread c.team tid (fun t => { t with wdcnt := n })
    if c.place.launch.wdog = 0 ∨ n.toNat ≤ c.place.launch.wdog then s
    else
      let s := s.trapThread c.team tid 0x0B c.off n.toNat
      match c.place.image.entryAt c.off with
      | some b => if b.locks.isEmpty then s else s.trapTeam c.team 0x16 c.off tid
      | none => s

/-- Lists of at most 32, in order. -/
def chunks32 (fuel : Nat) (l : List Nat) : List (List Nat) :=
  match fuel, l with
  | 0, _ => []
  | _, [] => []
  | f + 1, l => l.take 32 :: chunks32 f (l.drop 32)

/-- A group as the picker forms it (R285). -/
def Group.formed (lanes : List Nat) (off : Nat) : Group := ⟨lanes, off, 0, [], 0, none, false⟩

/-- The chosen candidate's waiters form a pass (R279, R280, R285, R292). -/
def State.capture (s : State) (core : Nat) (c : Choice) : State :=
  let pid := s.nextId
  let s := State.modTeam { s with nextId := pid + 1 } c.team (fun t => { t with boundary := false })
  if c.uniform then
    let s := c.tids.foldl (fun s tid => s.modThread c.team tid (fun t => { t with st := .inPass pid, leave := none })) s
    let s := s.modTeam c.team (fun t =>
      if c.resume then { t with upark := none }
      else { t with uo := Vector.replicate 8 0, uy := Vector.replicate 2 0, uleave := none })
    let pass : Pass := ⟨core, c.team, c.off, true, c.resume, [(0, Group.formed [] c.off)]⟩
    { s with passes := s.passes ++ [(pid, pass)] }
  else
    let s := if c.resume then s else c.tids.foldl (fun s tid => s.watch c tid) s
    let tids := c.tids.filter (fun tid => (s.thread c.team tid).isSome)
    if tids.isEmpty then s
    else
      let s := tids.foldl (fun s tid => s.modThread c.team tid (fun t =>
        if c.resume then { t with st := .inPass pid } else t.enter pid)) s
      let gs := (chunks32 256 (tids.mergeSort)).zipIdx.map (fun e => (e.2, Group.formed e.1 c.off))
      let pass : Pass := ⟨core, c.team, c.off, false, c.resume, gs⟩
      { s with passes := s.passes ++ [(pid, pass)] }

/-- A core's candidates: ready uniform blocks, and the others. -/
def State.choices (s : State) (core : Nat) : List Choice × List Choice :=
  let pl := s.teams.filterMap (fun e => (s.place e.1).map (fun p => (e.1, p)))
  (pl.filterMap (fun e => s.readyUniform core e.1 e.2), pl.flatMap (fun e => s.teamChoices core e.1 e.2))

/-- SELECTION (R279, R281): a slot is free and there is a candidate. -/
def execSelection (core : Nat) (s : State) : Host.Outcome State Fault Refusal :=
  let (ready, rest) := s.choices core
  if 4 ≤ (s.passes.filter (fun e => e.2.core == core)).length then .next s
  else
    let (row, l) := chooseRow ready rest (s.lastRow1.contains core)
    match s.pick l with
    | none => .next s
    | some (c, s) =>
      let s := { s.ageAll core rest c with
        lastRow1 := s.lastRow1.filter (· != core) ++ (if row = 1 then [core] else []) }
      let s := if row = 2 then s.count c.place core 15 1 else s
      .next (s.capture core c)

/-! The pipes (R285). -/

/-- The block of an offset holds one of the words that only pipe 1 takes. -/
def Image.seedBlock (i : Image) (off : Nat) : Bool := i.seeds.any (fun o => i.blockAt o == i.blockAt off)

/-- The groups that a pipe of a core holds. -/
def State.pipeLoad (s : State) (core : Nat) (pipe : Fin 2) : Nat :=
  s.passes.foldl (fun n e =>
    if e.2.core = core then n + (e.2.groups.filter (fun g => g.2.pipe == some pipe)).length else n) 0

/-- The pipe that a group of a pass is for. -/
def State.pipeFor (s : State) (p : Pass) (pl : Place) : Fin 2 :=
  if p.uniform then 0
  else if pl.image.seedBlock p.off then 1
  else if s.pipeLoad p.core 1 < s.pipeLoad p.core 0 then 1 else 0

/-- The first group that waits in the picker of a core: its pass, its number, and the pass's number. -/
def State.pickerHead (s : State) (core : Nat) : Option (Nat × Nat × Pass) :=
  s.passes.findSome? (fun e =>
    if e.2.core = core then (e.2.groups.find? (fun g => g.2.pipe.isNone)).map (fun g => (e.1, g.1, e.2)) else none)

/-- Groups of a core enter their pipes, in order, as long as there is room; what enters a block counts (R257). -/
def State.enterPipes (s : State) (core : Nat) : Nat → State
  | 0 => s
  | n + 1 =>
    match s.pickerHead core with
    | none => s
    | some (pid, gid, p) =>
      match s.place p.team with
      | none => s
      | some pl =>
        let pipe := s.pipeFor p pl
        if 8 ≤ s.pipeLoad core pipe then s
        else
          let s := s.modGroup pid gid (fun g => { g with pipe := some pipe })
          State.enterPipes (if p.resume then s else s.count pl core 1 1) core n

/-- On every core. -/
def State.settlePipes (s : State) : State :=
  ((s.passes.map (fun e => e.2.core)).eraseDups).foldl (fun s core => s.enterPipes core 16) s

/-! Team start (R37, R341). -/

/-- Two ranges [a, a + n) and [b, b + m) share nothing. -/
def apart (a n b m : Nat) : Bool := decide (a + n ≤ b) || decide (b + m ≤ a)

/-- Teams that hold a reservation on a core. -/
def State.holders (s : State) (core : Nat) : List Place :=
  s.teams.filterMap (fun e =>
    (s.place e.1).bind (fun p => if p.team.home = core ∧ p.team.mres.isSome then some p else none))

/-- The bank bases a team may be granted (R341, R366). -/
def State.bankBases (s : State) (p : Place) : List Nat :=
  let n := p.image.accBanks
  let cand := if 5 ≤ n then [0] else if n = 4 then [0, 4] else (List.range 9).filter (fun b => decide (b + n ≤ 8))
  let mine := s.slotOf p.launch
  if n = 0 then [0]
  else cand.filter (fun b => (s.holders p.team.home).all (fun q =>
    match q.team.mres with
    | some r =>
      let other := q.launch.part = p.launch.part ∧ q.launch.slot ≠ p.launch.slot ∧ (s.slotOf q.launch).tsg = mine.tsg
      decide other || apart b n r.bank r.banks
    | none => true))

/-- The weight-buffer places it may be granted, on 512-byte bounds. -/
def State.wbufBases (s : State) (p : Place) : List Nat :=
  let n := p.image.wbuf
  if n = 0 then [0]
  else ((List.range ((524288 - n) / 512 + 1)).map (512 * ·)).filter (fun b =>
    (s.holders p.team.home).all (fun q =>
      match q.team.mres with | some r => apart b n r.wbuf r.wbufLen | none => true))

/-- A team starts: its registers and threads as R37 says. -/
def State.startTeam (s : State) (team : Nat) (p : Place) (r : MatrixRes) : State :=
  let args := p.launch.args
  let s := s.modTeam team (fun t => { t with
    started := true, mres := some r
    s := Vector.ofFn (fun i : Fin 1024 => args.getD i.val 0) })
  let entry := match p.image.blocks[p.launch.entry]? with | some b => b.off | none => 0
  let s := { s with
    threads := s.threads ++
      (List.range p.launch.threads).map (fun i => (tkey team i, Thread.start (.waiting entry))) }
  (p.team.cores).foldl (fun s core =>
    if (s.waiters p team core entry).isEmpty then s else s.modCand core team entry false (fun e => e)) s

/-- A team that was saved with its cluster gets its reservation again, with what it held (R339, R365). -/
def State.regrant (s : State) (team : Nat) (p : Place) (r : MatrixRes) : State :=
  let core := p.team.home
  let l := p.launch
  let s := p.team.savedBanks.zipIdx.foldl (fun (s : State) (e : List Word × Nat) =>
    { s with accSaved := tset s.accSaved (bankKey l.part l.slot core (r.bank + e.2)) e.1 }) s
  let s := { s with wbufs := tset s.wbufs core ((s.wbuf core).overlay (fun a => r.wbuf + a) p.team.savedWbuf) }
  s.modTeam team (fun t => { t with mres := some r, savedBanks := [], savedWbuf := .empty })

/-- TEAM_START (R341): the waiting team of a core that asked first is granted its whole reservation. -/
def execTeamStart (core : Nat) (s : State) : Host.Outcome State Fault Refusal :=
  let waiting := s.teams.filterMap (fun e =>
    (s.place e.1).bind (fun p =>
      let asks := p.team.mres.isNone && !p.team.ended && !p.team.stopped && !p.cluster.saved
      if p.team.home = core ∧ asks then some (e.1, p) else none))
  match leastBy (fun e => e.2.team.asked) waiting with
  | [] => .next s
  | (team, p) :: _ =>
    match s.pick (s.bankBases p) with
    | none => .next s
    | some (b, s') =>
      match s'.pick (s.wbufBases p) with
      | none => .next s
      | some (w, s') =>
        let r : MatrixRes := ⟨b, p.image.accBanks, w, p.image.wbuf⟩
        .next (if p.team.started then s'.regrant team p r else s'.startTeam team p r)

/-! Bank operations that take effect in their turn (R233, R234, R366). -/

/-- No earlier entry of the queues holds one of the banks. -/
def State.bankTurn (s : State) (id core : Nat) (banks : List Nat) : Bool :=
  !(s.bankOps.takeWhile (fun e => e.1 != id)).any (fun e =>
    e.2.core == core && e.2.banks.any (fun b => banks.contains b))

/-- Sets one element of a bank. -/
def State.setBankElem (s : State) (core b i : Nat) (v : Word) : State :=
  { s with accs := tset s.accs (core * 8 + b) ((s.bank core b).set i v) }

/-- Changes a histogram slot by a value it counts (R240). -/
def HistSlot.add (h : HistSlot) (v : Nat) : HistSlot :=
  let i := histBin h.base.toInt v
  let c := (h.count[i]?).getD 0
  { h with count := h.count.setIfInBounds i (if c = 0xFFFFFFFF then c else c + 1) }

/-- What each line of a drain comes to (R236): its elements, what it counts, and its residue. -/
def Drain.lines (d : Drain) (side : Nat) (codes : List Nat) (banks : List (List Word)) (res : Vector Word 64) :
    List (List Nat × List Nat × Nat) :=
  (List.range side).map (fun r =>
    drainLine d.fmt d.baxis d.axisM codes banks d.post.toNat r (List.range side)
      (if d.rin then ((res[r]?).getD 0).toNat else 0))

/-- The tile and its scale bytes, as runs of device memory (R236, R237). -/
def Drain.runs (d : Drain) (r : TRec) (side : Nat) (codes : List Nat) (lines : List (List Nat × List Nat × Nat)) :
    List (Nat × List Byte) :=
  let q (m n : Nat) : Nat :=
    if d.axisM then ((lines.getD n ([], [], 0)).1).getD m 0 else ((lines.getD m ([], [], 0)).1).getD n 0
  let data := tileBytesOf d.fmt d.baxis side q
  let scale := codes.map (fun c => (BitVec.ofNat 8 c : Byte))
  let planes := if d.fmt = .bx8 ∨ d.fmt = .bx4 then r.planeRuns d.tile else []
  (d.base + d.tile * data.length, data) ::
    (if d.baxis then planes.map (fun e => (e.1, scale)) else planes.zipIdx.map (fun e => (e.1.1, [scale.getD e.2 0])))

/-- A drain that uses residues waits for those under way and for earlier drains that use them (R237). -/
def State.resTurn (s : State) (id : Nat) (o : BankOp) (d : Drain) (p : Place) : Bool :=
  !(d.rin || d.rout) || (p.team.resPend == 0 && !(s.bankOps.takeWhile (fun e => e.1 != id)).any (fun e =>
    e.2.team == o.team && (match e.2.kind with | .qst k => k.rin || k.rout | _ => false)))

/-- A drain is refused: a CONF tile that R212 refuses, or a read-only page (R19, R274). -/
def State.drainRefused (s : State) (w : Nat) (d : Drain) : Bool :=
  s.engineRefused w { s.readRec w d.record with febase := d.febase } d.tile ||
    d.claims.any (fun t => s.readOnly w (t * 512)) || s.readOnly w (d.febase + d.tile / 4)

/-- A drain's record is confidential, and engine writes of its tile that came before are still to be delivered: whether R212
refuses it is not known yet. -/
def State.drainUnsure (s : State) (w id : Nat) (d : Drain) : Bool :=
  d.conf && d.claims.any (fun t => s.claimedBy w t id true)

/-- A drain reads its banks and leaves them: residues and counts are in place, and its tile is still to be written (R163,
R236 to R240). -/
def State.drainBank (s : State) (id : Nat) (o : BankOp) (d : Drain) (p : Place) : State :=
  let banks := o.banks.map (fun b => s.bank o.core b)
  let side := if o.banks.length = 1 then 32 else 64
  let codes := drainCodes d.fmt d.blk d.code.toNat d.baxis banks d.post.toNat
  let lines := d.lines side codes banks p.team.res
  let r : TRec := { s.readRec p.launch.world d.record with
    base := d.base, spbase := d.spbase, febase := d.febase, cols := d.cols, baxis := d.baxis }
  let s := if d.rout then s.modTeam o.team (fun t => { t with
      res := lines.zipIdx.foldl (fun v e => v.setIfInBounds e.2 (BitVec.ofNat 32 e.1.2.2)) t.res }) else s
  let s := if d.hslot = 0 then s else s.modHist o.team (d.hslot - 1) (fun h =>
      (lines.flatMap (fun l => l.2.1)).foldl HistSlot.add h)
  { s.spend p o.core 6 ((if d.blk then 2 * side else side) + 16) with
    bankOps := tdel s.bankOps id
    drains := s.drains ++ [(id, ⟨o.team, o.core, o.off, d, d.runs r side codes lines, 0⟩)] }

/-- AZERO, ARD, AWR and QST have what they need of the banks when their turn has come. A QST that R212 refuses by then stops the
team, and its residue registers are as they were (R226). -/
def State.quickBank (s : State) (id : Nat) (o : BankOp) : State :=
  if !s.bankTurn id o.core o.banks then s
  else
    match s.place o.team with
    | none => { s with bankOps := tdel s.bankOps id }
    | some p =>
      let done : State := { s with bankOps := tdel s.bankOps id }
      match o.kind with
      | .azero =>
        { done with accs := o.banks.foldl (fun a b => tset a (o.core * 8 + b) (List.replicate 1024 0)) s.accs }
      | .ard none _ _ => done
      | .ard (some tid) dst el =>
        let v := ((s.bank o.core (o.banks.headD 0))[el]?).getD 0
        done.later (.thread o.team tid) (dst.map (fun r => (r, v)))
      | .awr el v => done.setBankElem o.core (o.banks.headD 0) el v
      | .qst d =>
        let w := p.launch.world
        if !s.resTurn id o d p || s.drainUnsure w id d then s
        else if s.drainRefused w d then done.trapTeam o.team 0x13 o.off d.record
        else s.drainBank id o d p
      | .mma _ => s

/-! Partitions' borders (R356, R407). -/

/-- Some resident cluster of the partition has a core in the octet. -/
def State.octetBusy (s : State) (p k : Nat) : Bool :=
  s.clusters.any (fun e =>
    !e.2.saved &&
      (match tget s.launches e.2.launch with | some l => l.part == p | none => false) &&
      (match rectangle e.2.origin e.2.w e.2.h with | some r => r.any (fun c => octetOf c == k) | none => false))

/-- A world of the partition is keyed: its layout is frozen (R407). -/
def State.frozen (s : State) (p : Nat) : Bool :=
  s.worlds.any (fun e => e.2.part == p && e.2.valid && e.2.state == 3)

/-- Marked octets that are free move to their partition (R356); the mark of one that its partition has given away is void. -/
def State.moveOctets (s : State) : State :=
  s.parts.foldl (fun s e =>
    e.2.marks.foldl (fun s m =>
      let (k, q) := m
      if !(s.part e.1).octets.getLsbD k then s.setPart e.1 (fun p => { p with marks := p.marks.filter (· != m) })
      else if s.octetBusy e.1 k || s.frozen e.1 || s.frozen q then s
      else
        (s.setPart e.1 (fun p => { p with
            octets := p.octets &&& ~~~(1#64 <<< k), gen := p.gen + 1, marks := p.marks.filter (· != m) })).setPart q
          (fun p => { p with octets := p.octets ||| (1#64 <<< k), gen := p.gen + 1 })) s) s

/-! Team end and cluster release (R163, R339, R366, R415). -/

/-- Work of the team that its end waits for. -/
def State.teamBusy (s : State) (team : Nat) : Bool :=
  s.bankOps.any (fun e => e.2.team == team) ||
    s.pends.any (fun e => e.2.agent == Agent.uniform team) ||
    s.passes.any (fun e => e.2.team == team)

/-- Releases a team's banks and weight-buffer range, zeroed. -/
def State.releaseMatrix (s : State) (p : Place) (team : Nat) : State :=
  match p.team.mres with
  | none => s
  | some r =>
    let core := p.team.home
    let l := p.launch
    let s := (List.range r.banks).foldl (fun s i =>
      let b := r.bank + i
      let reg := ((tget s.accOwner core).getD 0).toNat
      let o := reg / 2 ^ (8 * b) % 256
      let s := { s with accSaved := tdel s.accSaved (bankKey l.part l.slot core b) }
      if bitOf o 7 && o % 16 == l.slot then
        { s with
          accs := tdel s.accs (core * 8 + b)
          accOwner := tset s.accOwner core (BitVec.ofNat 64 (reg - o * 2 ^ (8 * b))) }
      else s) s
    let rest := (s.wbuf core).keep (fun a => decide (a < r.wbuf) || decide (r.wbuf + r.wbufLen ≤ a))
    State.modTeam { s with wbufs := if r.wbufLen = 0 then s.wbufs else tset s.wbufs core rest } team
      (fun t => { t with mres := none })

/-- TEAM_END (R163): no thread is live and its operations are done; its sets merge and its reservation is released. -/
def execTeamEnd (team : Nat) (s : State) : Host.Outcome State Fault Refusal :=
  match s.place team with
  | none => .next s
  | some p =>
    if !p.team.started || p.team.ended || p.cluster.saved || p.launch.killed || s.liveCount team != 0 || s.teamBusy team then .next s
    else
      let s := s.modTeam team (fun t => { t with ended := true, upark := none })
      let s := if p.team.stopped then s else s.commitT team p.team.lastOff
      let s := (s.releaseMatrix p team).modLaunch p.team.launch (fun l => { l with teams := l.teams + 1 })
      let s := s.modCluster p.team.cluster (fun c => { c with emptied := team })
      .next (State.moveOctets { s with
        waves := s.waves.filter (fun e => e.1 / 256 != team)
        cands := s.cands.filter (fun e => e.team != team) })

/-- The cores that a context's clusters stand on. -/
def State.coresOf (s : State) (p i : Nat) : List Nat :=
  s.clusters.flatMap (fun e =>
    match tget s.launches e.2.launch with
    | some l =>
      if l.part = p ∧ l.slot = i ∧ !e.2.saved then (rectangle e.2.origin e.2.w e.2.h).getD [] else []
    | none => [])

/-- Another context of the slot's time-slice group stands in one of these states on one of its cores. -/
def State.rivals (s : State) (p i : Nat) (states : List Nat) (cores : List Nat) : List Nat :=
  (List.range 16).filter (fun j =>
    j != i && (s.slot p j).tsg == (s.slot p i).tsg && states.contains (s.slot p j).state &&
      (s.coresOf p j).any (fun c => cores.contains c))

/-- The clusters of a context. -/
def State.ctxClusters (s : State) (p i : Nat) : List (Nat × Cluster) :=
  s.clusters.filter (fun e =>
    match tget s.launches e.2.launch with | some l => l.part == p && l.slot == i | none => false)

/-- The world places clusters: it exists, is not paused, not going dark, and is keyed if it is confidential (R409,
R414, R420). -/
def World.runs (x : World) : Bool := x.valid && !x.pause && x.dark == 0 && (!x.conf || x.state == 3)

/-- It does while the device runs (R423, R424). -/
def State.goes (s : State) (w : Nat) : Bool := s.power.up && (s.world w).runs

/-- Threads and teams parked by a halt may go on (R291, R365). -/
def State.unhalt (s : State) (teams : List Nat) : State :=
  let s := { s with threads := s.threads.map (fun e =>
    if teams.contains (e.1 / 8192) then
      (match e.2.st with
       | .parked off .halt _ => (e.1, { e.2 with st := .parked off .halt true })
       | _ => e)
    else e) }
  teams.foldl (fun s t => s.modTeam t (fun t =>
    match t.upark with
    | some u => if u.cause = .halt then { t with upark := some { u with resumable := true }, surge := false } else { t with surge := false }
    | none => { t with surge := false })) s

/-- A context becomes active, and its group's halted contexts become inactive (R359, R365); its teams pass the surge arbiter
anew (R355). -/
def State.makeActive (s : State) (p i : Nat) : State :=
  let tsg := (s.slot p i).tsg
  let s := (List.range 16).foldl (fun s j =>
    if j ≠ i ∧ (s.slot p j).state = 5 ∧ (s.slot p j).tsg = tsg then s.setSlot p j (fun c => { c with state := 2 })
    else s) s
  (s.unhalt ((s.ctxClusters p i).flatMap (fun e => e.2.teams))).setSlot p i
    (fun c => { c with state := 1, resume := false, held := false })

/-- Contexts of a group whose turn has come become active: the Inactive ones, in slot order, once a context has become
empty (R432), or those that a CMD 2 has asked for, once a context has halted (R360), as they stand when that happens. One that a
pause of its world holds goes on with the world (R420). -/
def State.activate (s : State) (p tsg : Nat) (asked : Bool) : State :=
  let due (i : Nat) : Bool :=
    let c := s.slot p i
    c.bound && c.tsg == tsg && ((c.state == 2 && !asked) || (c.resume && (c.state == 2 || c.state == 5)))
  ((List.range 16).filter due).foldl (fun s i =>
    let w := (s.slot p i).world
    if !(s.rivals p i [1, 3, 4] (s.coresOf p i)).isEmpty then s
    else if s.goes w then s.makeActive p i
    else if (s.world w).pause then s.setSlot p i (fun c => { c with paused := true })
    else s) s

/-- Empties a slot whose context has no cluster left; the Inactive contexts of its group become active where they may (R359,
R432). -/
def State.emptySlot (s : State) (p i : Nat) : State :=
  let c := s.slot p i
  if !c.bound || s.clusters.any (fun e =>
      match tget s.launches e.2.launch with | some l => l.part == p && l.slot == i | none => false) then s
  else
    let s := s.setSlot p i (fun c => { c with
      bound := false, state := 0, flying := false, held := false, resume := false, dark := false, paused := false })
    let s := { s with
      perf := s.perf.filter (fun e => e.1 / 8192 != p * 16 + i)
      accSaved := s.accSaved.filter (fun e => e.1 / 4096 != p * 16 + i)
      buckets := s.buckets.filter (fun e => e.1 / 64 != p * 16 + i) }
    s.activate p c.tsg false

/-- Removes a cluster, with its teams and what they left (R415). A call that is still to be answered stays (R405). -/
def State.dropCluster (s : State) (id : Nat) (c : Cluster) : State :=
  let inC (team : Nat) : Bool := c.teams.contains team
  { s with
    clusters := tdel s.clusters id
    teams := s.teams.filter (fun e => !inC e.1)
    threads := s.threads.filter (fun e => !inC (e.1 / 8192))
    waves := s.waves.filter (fun e => !inC (e.1 / 256))
    cands := s.cands.filter (fun e => !inC e.team)
    passes := s.passes.filter (fun e => !inC e.2.team)
    pends := s.pends.filter (fun e => !inC e.2.agent.team) }

/-- Every team of a cluster has ended. -/
def State.allEnded (s : State) (c : Cluster) : Bool :=
  c.teams.all (fun t => match tget s.teams t with | some t => t.ended | none => true)

/-- Copy requests of clusters whose teams have ended are cancelled once they park (R339). -/
def State.settleCopies (s : State) : State :=
  s.copies.foldl (fun s e =>
    match e.2.state, tget s.clusters e.2.cluster with
    | .parked _, some c =>
      if !c.saved && s.allEnded c then
        (s.clearTries (.copy e.1)).endCopy e.1 { e.2.stop with cancel := true }
      else s
    | _, _ => s) s

/-- The launch is done once every cluster of its grid has been placed and released. -/
def Launch.complete (l : Launch) : Bool := l.gx * l.gy * l.gz == l.placed && l.placed == l.released

/-- CLUSTER_RELEASE (R163, R339): the teams have ended, accesses have performed, drains are written and copies are settled;
the cluster set merges, for the team whose end emptied the cluster (R244), and the cluster leaves. With the launch's last
cluster the completion record is written (R22, R43). -/
def execClusterRelease (cluster : Nat) (s : State) : Host.Outcome State Fault Refusal :=
  match tget s.clusters cluster with
  | none => .next s
  | some c =>
    match tget s.launches c.launch with
    | some l =>
      if c.saved || l.killed || !s.allEnded c || s.pends.any (fun e => c.teams.contains e.2.agent.team) ||
          s.drains.any (fun e => c.teams.contains e.2.team) || s.copies.any (fun e => e.2.cluster == cluster) then .next s
      else
        let off := match tget s.teams c.emptied with | some t => t.lastOff | none => 0
        match s.commitC c.emptied off with
        | .wait => .next s
        | .hold f => .next (f s)
        | .done s =>
          let s := (s.dropCluster cluster c).modLaunch c.launch (fun l => { l with released := l.released + 1 })
          let s :=
            match tget s.launches c.launch with
            | some l => if l.complete then s.finishLaunch c.launch l.status else s
            | none => s
          .next (s.emptySlot l.part l.slot).moveOctets
    | none => .next s

/-! Timers of the core. -/

/-- BIN_EXPIRY (R302): an open bin's candidate becomes due. The timer is in core cycles, which the model does not count
(log 13). -/
def execBinExpiry (core team addr : Nat) (s : State) : Host.Outcome State Fault Refusal :=
  match s.place team with
  | none => .next s
  | some p =>
    if p.onCores && s.cands.any (fun e => e.core == core && e.team == team && e.off == addr && !e.resume && e.bin) then
      .next (s.modCand core team addr false (fun e => { e with age := Nat.max e.age p.launch.aMax, bin := false }))
    else .next s

/-- SLEEP_WAKE (R253): world time has reached a sleeper's wake time, and nothing halts its context (R420). -/
def execSleepWake (team tid : Nat) (s : State) : Host.Outcome State Fault Refusal :=
  match s.thread team tid, s.place team with
  | some t, some p =>
    match t.st with
    | .blocked off (.sleep wake) =>
      if wake ≤ s.worldTime p.launch.world && !p.cluster.saved && (s.slotOf p.launch).runs && s.goes p.launch.world then
        .next ((s.moveThread p team tid (.goto off)).count p (p.team.coreOf p.image.threads tid) 14 1)
      else .next s
    | _ => .next s
  | _, _ => .next s

/-- SERVICE_REPLY (R256, R405): the reply is read, the slot zeroed and the result delivered. A reply with a reserved bit is
refused: no part of it takes effect (R11; log 78). -/
def execServiceReply (call : Nat) (s : State) : Host.Outcome State Fault Refusal :=
  match tget s.calls call with
  | none => .next s
  | some k =>
    let v := s.hbmNat (k.record + 24) 8
    let saved : Bool := match s.place k.team with | some p => p.cluster.saved | none => false
    if v = 0 ∨ v / 2 ^ 40 ≠ 0 ∨ saved then .next s
    else
      let s := { s.ownRaws k.record (List.replicate 32 0) with calls := tdel s.calls call }
      .next (s.arrive (.uniform k.team) (splitRegs k.dst (BitVec.ofNat 64 (v % 2 ^ 32 * 2 ^ 32))))

/-! What happens of itself after a step. -/

/-- Complete instances finish, and emptied waves merge (R163, R174). -/
def State.settleWaves (s : State) : State :=
  s.waves.foldl (fun s e =>
    let team := e.1 / 256
    let wv := e.1 % 256
    let s := e.2.colls.foldl (fun s k => if k.complete then s.finishColl team wv k else s) s
    match tget s.waves e.1 with
    | some w =>
      let goes : Bool := match tget s.teams team with | some t => !t.stopped | none => false
      if goes && !w.cells.isEmpty && (s.waveTids team wv).isEmpty then s.emptyWave team wv else s
    | none => s) s

/-- Threads blocked on a phase or a sync word go on once it is over (R170, R203). -/
def State.settleBlocked (s : State) : State :=
  s.threads.foldl (fun s e =>
    let team := e.1 / 8192
    let tid := e.1 % 8192
    match e.2.st with
    | .blocked off (.barrier b k tok) =>
      let r := s.bar team b
      if r.err || r.gen != tok then
        match s.place team with | some p => s.release p team tid off k r.err | none => s
      else s
    | .blocked off (.sync a k tok) =>
      match s.place team with
      | some p =>
        let w := s.syncWord p a
        if w.err || w.gen != tok.toNat then s.release p team tid off k w.err else s
      | none => s
    | _ => s) s

/-- Bank operations whose turn has come take effect. -/
def State.settleBanks (s : State) : State :=
  s.bankOps.foldl (fun s e => s.quickBank e.1 e.2) s

/-- Threads that have become waiters of a resume point make it a candidate (R284, R292). -/
def State.settleResumes (s : State) : State :=
  s.threads.foldl (fun s e =>
    match e.2.waitsAt, s.place (e.1 / 8192) with
    | some (off, true), some p => s.modCand (p.team.coreOf p.image.threads (e.1 % 8192)) (e.1 / 8192) off true (fun c => c)
    | _, _ => s) s

/-- A candidate that has gained a waiter gets a waiting vector, if its team part has one free (R284). -/
def State.settleVectors (s : State) : State :=
  s.cands.foldl (fun s e =>
    match s.place e.team with
    | some p =>
      let used := (s.cands.filter (fun c => c.core == e.core && c.team == e.team && c.vec)).length
      if !e.vec && e.takes p && decide (used < vectors) && !(s.waitingAt p e.team e.core e.off e.resume).isEmpty then
        s.modCand e.core e.team e.off e.resume (fun c => { c with vec := true })
      else s
    | none => s) s

/-- Groups without lanes go, with passes that have none left, and candidates without waiters on their core lose their age
(R279, R282, R293). -/
def State.settlePasses (s : State) : State :=
  let live (p : Pass) (g : Group) : Bool :=
    if p.uniform then !(g.done && (s.liveTids p.team).isEmpty) else !g.lanes.isEmpty
  let passes := s.passes.filterMap (fun e =>
    let gs := e.2.groups.filter (fun g => live e.2 g.2)
    if gs.isEmpty then none else some (e.1, { e.2 with groups := gs }))
  let s := { s with passes := passes }
  { s with cands := s.cands.filter (fun c =>
      s.openPass c.core c.team c.off ||
        (match s.place c.team with
         | some p => !(s.waitingAt p c.team c.core c.off c.resume).isEmpty
         | none => false)) }

/-- After every step. -/
def State.settle (s : State) : State :=
  s.settleWaves.settleBlocked.settleBanks.settleCopies.settlePasses.settleResumes.settleVectors.settlePipes

end Sys2Proof.Machine
end

