-- ==== Sys2Proof/Machine/Dispatcher.lean ====
section
/-! DEFINITION. The dispatcher: notify writes (R17, R18, R105), dependences (R352), placement (R351, R354). -/

namespace Sys2Proof.Machine

/-- An outside request that must wait is held, before those that its turn comes before (log 28). -/
def State.retry (s : State) (i : Instr) : State := { s with held := i :: s.held }

/-! Verdicts (R106). -/

/-- What a fault record says (R107). -/
structure AdmFault where
  rule : Nat
  opnd : Nat
  block : Nat
  off : Nat
  found : Nat
  expected : Nat
  aux : Nat
  deriving DecidableEq, Repr

/-- The bytes of a fault record. -/
def AdmFault.bytes (f : AdmFault) (id : Word) : List Byte :=
  bytesOfNat 8 (id.toNat + 2 ^ 32 * f.block) ++ bytesOfNat 8 (f.off + 2 ^ 32 * f.rule + 2 ^ 40 * f.opnd) ++
    bytesOfNat 8 (f.expected + 2 ^ 32 * f.found) ++ bytesOfNat 8 f.aux

/-- Writes a verdict record (R20, R106; log 14). -/
def State.writeVerdict (s : State) (w verdict status : Nat) (id : Word) (replay : Bool) (npages codebase : Nat)
    (fault : Option AdmFault) : State :=
  let rest := bytesOfNat 8 codebase ++ bytesOfNat 8 0 ++ bytesOfNat 8 0 ++
    (match fault with | some f => f.bytes id | none => List.replicate 32 0)
  s.own w (.verdict verdict (bytesOfNat 8 (status + 2 ^ 8 * natOfBool replay + 2 ^ 16 * npages + 2 ^ 32 * id.toNat) ++ rest))

/-- Two ranges share a byte. -/
def rangesMeet (a n b m : Nat) : Bool := decide (a < b + m) && decide (b < a + n)

/-- The range overlaps a sealed page or an image whose admission is in progress (R105, R276). -/
def State.imageClash (s : State) (w a n : Nat) : Bool :=
  s.images.any (fun e =>
    let i := e.2
    i.world == w &&
      (match i.state with
       | .submitted => rangesMeet a n i.base i.len
       | .sealed | .revoking => i.pages.any (fun p => rangesMeet a n (p * 65536) 65536)
       | _ => false))

/-- An id is held by a sealed image of the tenant, or by one under admission (R105, R276). -/
def State.idHeld (s : State) (w t : Nat) (id : Word) : Bool :=
  s.images.any (fun e => e.2.world == w && e.2.tenant == t && e.2.id == id &&
    (e.2.state == .submitted || e.2.state == .sealed || e.2.state == .revoking))

/-- An image as it is captured, before its admission. -/
def Image.submitted (w tenant : Nat) (id : Word) (base len verdict : Nat) : Image where
  world := w
  tenant := tenant
  id := id
  base := base
  len := len
  verdict := verdict
  state := .submitted
  code := 0
  codeLen := 0
  blocks := []
  regions := []
  nargs := 0
  regs := 0
  threads := 0
  nearSz := 0
  colSz := 0
  locSz := 0
  wbuf := 0
  accBanks := 0
  tmset := 0
  clset := 0
  producer := false
  latrev1 := false
  replayOk := false
  sites := []
  ptrCmps := []
  prodChecks := []
  seeds := []
  pages := []

/-- Captures a submission record (R105). -/
def State.captureSubmission (s : State) (w : Nat) (b : List Byte) : State :=
  let base := natAt b 0 8
  let d1 := natAt b 8 8
  let verdict := natAt b 16 8
  let tenant := bitsOf d1 39 32
  let len := d1 % 2 ^ 32
  if verdict % 64 ≠ 0 || !s.devRange w verdict 64 then s
  else if d1 / 2 ^ 40 ≠ 0 || natAt b 24 8 != 0 || 63 < tenant || base % 65536 != 0 || !s.devRange w base len ||
      s.imageClash w base len then s.writeVerdict w verdict 3 0 false 0 0 none
  else
    let id := BitVec.ofNat 32 (s.readNat w (base + 8) 4)
    if s.idHeld w tenant id then s.writeVerdict w verdict 4 id false 0 0 none
    else
      { s with
        nextId := s.nextId + 1
        images := s.images ++ [(s.nextId, Image.submitted w tenant id base len verdict)]
        subs := s.subs ++ [⟨w, base, len, verdict, tenant, id, s.nextId⟩] }

/-- Sets bits of QERR. -/
def State.qerrBit (s : State) (w i : Nat) : State := s.setWorld w (fun x => { x with qerr := x.qerr ||| (1#4 <<< i) })

/-- The world takes notify writes: it is not dark (R409). -/
def World.takes (x : World) : Bool := x.state != 4

/-- ADM_NOTIFY (R17, R18, R105). Of a write that is misaligned or outside, and finds the queue full as well, only the first is
shown (log 79). One that must wait for the log or a claim has been stored, and is captured in its turn. -/
def execAdmNotify (w : Nat) (addr : DWord) (s : State) : Host.Outcome State Fault Refusal :=
  let a := addr.toNat
  if !(s.world w).takes then .next s
  else
    let s' := s.setWorld w (fun x => { x with admNotify := addr })
    if a % 32 ≠ 0 || !s.devRange w a 32 then .next (s'.qerrBit w 0)
    else if 8 ≤ (s.subs.filter (fun e => e.world == w)).length then .next (s'.qerrBit w 1)
    else if s.claimedRange w a 32 || !s.logRoom w (logUnits 32) then .next (s'.retry (.admNotify w addr))
    else s'.captured w a 32 (fun s => (s.logRecord w 1 (s.devReads w a 32)).captureSubmission w (s.devReads w a 32))

/-- LQ_NOTIFY (R17, R18, R41), with the same choice (log 79). -/
def execLqNotify (w : Nat) (addr : DWord) (s : State) : Host.Outcome State Fault Refusal :=
  let a := addr.toNat
  if !(s.world w).takes then .next s
  else
    let s' := s.setWorld w (fun x => { x with lqNotify := addr })
    if a % 64 ≠ 0 || !s.devRange w a 64 then .next (s'.qerrBit w 2)
    else if 64 ≤ s.queued w then .next (s'.qerrBit w 3)
    else if s.claimedRange w a 64 || !s.logRoom w (s.captureUnits w (s.devReads w a 64)) then .next (s'.retry (.lqNotify w addr))
    else s'.captured w a 64 (fun s => s.captureLaunch w (s.devReads w a 64) none 2)

/-! Dependences (R352). -/

/-- The tile-state bytes of the records a launch names. -/
def State.depBits (s : State) (l : Launch) : List (List Byte) :=
  l.deps.map (fun d =>
    let r := s.readRec l.world d.record
    s.devBytes l.world r.febase ((r.tiles + 3) / 4))

/-- Evaluates a launch's dependences in order: whether all hold, or none where a record fails its check. What is read comes out
of tiles that are filled (R412). -/
def State.evalDeps (s : State) (l : Launch) : List Dep → Option (Bool × State)
  | [] => some (true, s)
  | d :: r =>
    match s.fill l.world d.record 64 with
    | (false, s) => some (false, s)
    | (true, s) =>
    match s.recCheck l.world l.tenant d.record true false (some (d.tile + d.count - 1)) with
    | none => none
    | some (t, s) =>
      match s.fill l.world t.febase ((t.tiles + 3) / 4) with
      | (false, s) => some (false, s)
      | (true, s) =>
      let ok := (List.range d.count).all (fun i => s.tileBit l.world t.febase (2 * (d.tile + i)) != d.result)
      match State.evalDeps s l r with
      | none => none
      | some (b, s) => some (ok && b, s)

/-- What evaluating a launch's dependences reads: its records and their tile state. -/
def State.depRanges (s : State) (l : Launch) : List (Nat × Nat) :=
  l.deps.flatMap (fun d =>
    let r := s.readRec l.world d.record
    [(d.record, 64), (r.febase, (r.tiles + 3) / 4)])

/-- Held launches are evaluated when they come to be held and whenever a bit of a named record has changed, once no line that is
read may be with the host (R385). -/
def State.settleDeps (s : State) : State :=
  s.launches.foldl (fun s e =>
    match tget s.launches e.1 with
    | none => s
    | some l =>
      if l.state ≠ .held ∨ l.eligible ∨ l.bits = some (s.depBits l) then s
      else if (s.depRanges l).any (fun e => s.hostMay l.world e.1 e.2) then
        (s.depRanges l).foldl (fun s e => s.snoopLines l.world e.1 e.2) s
      else
        match s.evalDeps l l.deps with
        | none => s.finishLaunch e.1 4
        | some (b, s) =>
          let l' := { l with eligible := b, bits := some (s.depBits l), order := if b then s.now else l.order }
          { s with launches := tset s.launches e.1 l' }) s

/-! Placement (R351, R354). -/

/-- A core is hot (R354). -/
def State.hot (s : State) (p : Part) (core : Nat) : Bool :=
  decide (((tget s.ctemp core).getD 0).toInt > p.tplace * 16)

/-- What resident clusters take of a core. -/
def State.usageOf (s : State) (store core : Nat) : Usage :=
  s.clusters.foldl (fun u e =>
    let c := e.2
    match tget s.launches c.launch, rectangle c.origin c.w c.h with
    | some l, some r =>
      if c.saved || !r.contains core then u
      else
        match s.imageOf l with
        | some i => u.plus (clusterUse i (unitsOf ((i.span store).getD 1) c.w c.h) l.tpc c.w c.h l.locdev
            (r.findIdx (fun x => x == core)))
        | none => u
    | _, _ => u) ⟨0, 0, 0, 0, 0⟩

/-- The first rectangle that can take a cluster of the launch, with its units; a partition without ways or channels places
nothing (R349, R354). -/
def State.findRoom (s : State) (l : Launch) (i : Image) : Option (List Nat × List (List Nat)) :=
  let p := s.part l.part
  match i.span p.stateStore with
  | none => none
  | some n =>
    let units := unitsOf n l.cw l.ch
    if units.isEmpty then none
    else
      ((rectangles l.cw l.ch).find? (fun r => r.zipIdx.all (fun e =>
        let (core, j) := e
        p.pways != 0 && p.hbmsh != 0 && p.octets.getLsbD (octetOf core) && !p.marks.any (fun m => m.1 == octetOf core) &&
          !s.hot p core &&
          ((s.usageOf p.stateStore core).plus (clusterUse i units l.tpc l.cw l.ch l.locdev j)).fits
            p.stateStore))).map (fun r => (r, units))

/-- The context slot a launch runs in: its context's, or a free one (R250; log 22). -/
def State.findSlot (s : State) (l : Launch) : Option (Nat × State) :=
  match (List.range 16).find? (fun i =>
      let c := s.slot l.part i
      c.bound && c.world == l.world && c.tenant == l.tenant) with
  | some i => some (i, s)
  | none => s.pick ((List.range 16).filter (fun i => !(s.slot l.part i).bound && (s.slot l.part i).state == 0))

/-- The rectangle's cores suit the context's state: it may take clusters, and no rival of its group runs there while it is
Active (R350, R359, R361). -/
def State.slotTakes (s : State) (p i : Nat) (cores : List Nat) : Bool :=
  let c := s.slot p i
  c.state == 0 || c.state == 2 || (c.state == 1 && (s.rivals p i [1, 3, 4] cores).isEmpty)

/-- Places a launch's next cluster (R31, R351). -/
def State.placeCluster (s : State) (id : Nat) (l : Launch) (slot : Nat) (cores : List Nat) (units : List (List Nat)) :
    State :=
  let n := l.placed
  let base := s.nextId
  let cid := base
  let tids := (List.range l.tpc).map (fun t => base + 1 + t)
  let c := Cluster.placed id (n % l.gx) (n / l.gx % l.gy) (n / l.gx / l.gy) (cores.headD 0) l.cw l.ch tids
  let teams := tids.zipIdx.map (fun e =>
    (e.1, Team.placed id cid e.2 ((units.getD (e.2 % units.length) []).map (fun j => cores.getD j 0)) e.1))
  let was := s.slot l.part slot
  let l := { l with
    slot := slot, placed := n + 1, order := s.now
    state := if n + 1 = l.gx * l.gy * l.gz then .running else .placing }
  let s := { s with
    nextId := base + 1 + l.tpc
    launches := tset s.launches id l
    clusters := s.clusters ++ [(cid, c)]
    teams := s.teams ++ teams }
  let s := s.setPart l.part (fun p => { p with last := l.world })
  let s := s.setSlot l.part slot (fun x => { x with
    bound := true, world := l.world, tenant := l.tenant, state := if was.state = 0 then 2 else was.state })
  let first : Bool := was.state == 0 && (s.rivals l.part slot [1, 3, 4] cores).isEmpty
  if first then s.makeActive l.part slot else s

/-- A world's launches in the dispatcher's order (R351). -/
def State.dispatchOrder (s : State) (w : Nat) : List (Nat × Launch) :=
  let l := s.launches.filter (fun e => e.2.world == w && e.2.places)
  (List.range 16).flatMap (fun i => l.filter (fun e => e.2.prio == 15 - i))

/-- Places the first of the launches whose next cluster fits; a blocking launch ends the search (R351). -/
def State.placeFirst (s : State) : List (Nat × Launch) → Option State
  | [] => none
  | (id, l) :: r =>
    let here : Option State :=
      match s.imageOf l with
      | none => none
      | some i =>
        match s.findRoom l i with
        | none => none
        | some (cores, units) =>
          match s.findSlot l with
          | some (slot, s') =>
            if s'.slotTakes l.part slot cores then some (s'.placeCluster id l slot cores units) else none
          | none => none
    match here with
    | some s => some s
    | none => if l.order + 2000000 ≤ s.now then none else s.placeFirst r

/-- The worlds of a partition, from the one after the last that placed (R351). -/
def State.roundRobin (s : State) (p : Nat) : List Nat :=
  let ws := (List.range 256).filter (fun w => s.goes w && (s.world w).part == p)
  let last := (s.part p).last
  ws.filter (fun w => decide (last < w)) ++ ws.filter (fun w => decide (w ≤ last))

/-! Saving to free cores, and placing saved clusters again (R339, R359, R365; log 23). -/

/-- The context stands halted and its engine work is settled, so it can be saved (R339). -/
def State.canSave (s : State) (p i : Nat) : Bool :=
  let c := s.slot p i
  let cs := s.ctxClusters p i
  let teams := cs.flatMap (fun e => e.2.teams)
  let busy (r : CopyReq) : Bool :=
    match r.state with | .parked _ => !r.flights.isEmpty || !r.owed.isEmpty | _ => true
  (c.state == 2 || c.state == 5) && !c.resume && !cs.isEmpty &&
    !s.copies.any (fun e => cs.any (fun k => k.1 == e.2.cluster) && busy e.2) &&
    !s.bankOps.any (fun e => teams.contains e.2.team) && !s.drains.any (fun e => teams.contains e.2.team) &&
     !s.pends.any (fun e => teams.contains e.2.agent.team) &&
    !s.passes.any (fun e => teams.contains e.2.team)

/-- What a bank holds for a context: the bank itself, if the context owns it, else its saved copy (R366). -/
def State.bankOf (s : State) (l : Launch) (core b : Nat) : List Word :=
  let o := s.owner core b
  if bitOf o 7 && o % 16 == l.slot then s.bank core b
  else (tget s.accSaved (bankKey l.part l.slot core b)).getD (List.replicate 1024 0)

/-- A team's banks and weight buffer are saved, and its reservation is given up. -/
def State.saveTeam (s : State) (team : Nat) : State :=
  match s.place team with
  | none => s
  | some p =>
    match p.team.mres with
    | none => s
    | some r =>
      let core := p.team.home
      let banks := (List.range r.banks).map (fun i => s.bankOf p.launch core (r.bank + i))
      let wb := Mem.empty.overlay (fun a => a - r.wbuf)
        ((s.wbuf core).keep (fun a => decide (r.wbuf ≤ a) && decide (a < r.wbuf + r.wbufLen)))
      (s.releaseMatrix p team).modTeam team (fun t => { t with savedBanks := banks, savedWbuf := wb, surge := false })

/-- Saves a context's clusters to free its cores: state 6. Open bins are discarded (R304), and the host lines that it has
written go back (R383). -/
def State.saveContext (s : State) (p i : Nat) : State :=
  let cs := s.ctxClusters p i
  let teams := cs.flatMap (fun e => e.2.teams)
  let s := teams.foldl (fun s t => s.saveTeam t) s
  let s := cs.foldl (fun s e => s.modCluster e.1 (fun c => { c with saved := true })) s
  State.setSlot { s with
    cands := s.cands.map (fun c => if teams.contains c.team then { c with bin := false } else c)
    hostLines := s.hostLines.map (fun e => if e.ctx = some (p * 16 + i) then { e with dirty := false, ctx := none } else e) } p i
    (fun c => { c with state := 6 })

/-- The core that takes the place of a core of a cluster. -/
def Cluster.dest (c : Cluster) (cores : List Nat) (core : Nat) : Nat :=
  cores.getD (((rectangle c.origin c.w c.h).getD []).findIdx (fun x => x == core)) core

/-- A saved cluster comes to stand on other cores, with its shape and indices (R130, R365); its teams ask for their
reservations again (R341). -/
def State.moveCluster (s : State) (id : Nat) (c : Cluster) (cores : List Nat) : State :=
  let dest := c.dest cores
  let s := c.teams.foldl (fun s t =>
    let (n, s) := s.fresh
    s.modTeam t (fun t => { t with cores := t.cores.map dest, asked := n })) s
  let s := s.modCluster id (fun c => { c with saved := false, origin := cores.headD 0 })
  { s with
    cands := s.cands.map (fun e => if c.teams.contains e.team then { e with core := dest e.core } else e)
    copies := s.copies.map (fun e => if e.2.cluster = id then (e.1, { e.2 with core := dest e.2.core }) else e) }

/-- A context's counters go with it to other cores (R257). -/
def State.moveCounters (s : State) (p i : Nat) (moves : List (Nat × Nat)) : State :=
  { s with perf := s.perf.foldl (fun (t : Table Nat) e =>
      let core := e.1 / 16 % 512
      let k := if e.1 / 8192 = p * 16 + i then perfKey p i ((moves.lookup core).getD core) (e.1 % 16) else e.1
      tset t k (((tget t k).getD 0 + e.2) % 2 ^ 64)) [] }

/-- Each candidate with a spawned waiter and fewer than 32 waiters, on its core, opens a fresh bin (R293, R304). -/
def State.reopenBins (s : State) (teams : List Nat) : State :=
  { s with cands := s.cands.map (fun c =>
      match s.place c.team with
      | some p =>
        if teams.contains c.team ∧ !c.resume then
          let ws := s.waitingAt p c.team c.core c.off false
          let spawned (tid : Nat) : Bool := match s.thread c.team tid with | some t => t.spawned | none => false
          { c with bin := decide (ws.length < 32) && ws.any spawned }
        else c
      | none => c) }

/-- Places every saved cluster of a context that is to resume, or none of them: their copy units must have room for their
requests, too (R331, R339). -/
def State.replace (s : State) (p i : Nat) : Option State :=
  let cs := s.ctxClusters p i
  let moved := cs.foldl (fun (o : Option (State × List (Nat × Nat))) e =>
    match o, tget s.launches e.2.launch with
    | some (s, m), some l =>
      match s.imageOf l with
      | none => none
      | some im =>
        match s.findRoom l im with
        | some (cores, _) =>
          some (s.moveCluster e.1 e.2 cores,
            m ++ ((rectangle e.2.origin e.2.w e.2.h).getD []).map (fun c => (c, e.2.dest cores c)))
        | none => none
    | _, _ => none) (some (s, []))
  match moved with
  | none => none
  | some (s, m) =>
    let cores := s.coresOf p i
    if !(s.rivals p i [1, 3, 4] cores).isEmpty || cores.any (fun c => decide (32 < s.copyEntries c)) then none
    else some (((s.moveCounters p i m).reopenBins (cs.flatMap (fun e => e.2.teams))).makeActive p i)

/-- PLACEMENT (R351, R354, R365): saved contexts that are to resume come first; then each world in its turn; and where
nothing fits that waits, a halted context may be saved. -/
def execPlacement (p : Nat) (s : State) : Host.Outcome State Fault Refusal :=
  let back := (List.range 16).filter (fun i =>
    let c := s.slot p i
    c.state == 6 && c.resume && s.goes c.world)
  match back.findSome? (fun i => s.replace p i) with
  | some s => .next s
  | none =>
    let worlds := s.roundRobin p
    match worlds.findSome? (fun w => s.placeFirst (s.dispatchOrder w)) with
    | some s => .next s
    | none =>
      if back.isEmpty ∧ worlds.all (fun w => (s.dispatchOrder w).isEmpty) then .next s
      else
        match s.pick (none :: ((List.range 16).filter (fun i => s.canSave p i)).map some) with
        | some (some i, s) => .next (s.saveContext p i)
        | _ => .next s

end Sys2Proof.Machine
end

