-- ==== Sys2Proof/Machine/Facts.lean ====
section
/-! DEFINITION. What the admission unit holds at an instruction boundary (R261), its facts (R262), those that are
implied (R263), and what proves a goal (R264). -/

namespace Sys2Proof.Machine

/-- A term (R101, R262): a register by its even member, a symbol, or the constant 0. -/
inductive Term where
  | zero
  | reg (r : Reg)
  | len (g : Nat)
  | nthr | tcap | near | col | loc
  deriving DecidableEq, Repr

/-- u ≤ v + c (R262). -/
structure AdmFact where
  u : Term
  v : Term
  c : Int
  deriving DecidableEq, Repr

/-- What a register is known to hold: its type, whether it is a pointer typed from a live entry or moved from one, and its
RANGE word's bounds (R263). -/
structure RegInfo where
  type : LiveType
  fromLive : Bool
  range : Option (Int × Int)
  deriving DecidableEq, Repr

/-- The meaning of a k register (R266); `single` if its negation is known (R267). -/
structure KMeaning where
  facts : List AdmFact
  single : Bool
  deriving DecidableEq, Repr

/-- The checker's state in a block (R261). -/
structure Walk where
  uniform : Bool
  types : List (Reg × RegInfo)
  facts : List AdmFact
  kmean : List (Nat × KMeaning)
  /-- The held-lock set: region and PEND. -/
  held : List (Nat × Nat)
  /-- Acquisition results: register and region (R269). -/
  acq : List (Reg × Nat)
  sectors : Nat
  producer : Bool
  /-- The o and y registers written so far (R78). -/
  written : List Reg
  /-- Fixed-latency producers so far, the latest first, and the issue distance from the block's start (R81). -/
  prods : List Producer
  dist : Nat
  deriving DecidableEq, Repr

/-- The even member of the pair that an odd register is in. -/
def Reg.evenOf : Reg → Option Reg
  | .x r => if r % 2 = 1 then some (.x (r - 1)) else none
  | .o r => if r % 2 = 1 then some (.o (r - 1)) else none
  | .y r => if r % 2 = 1 then some (.y (r - 1)) else none
  | .s r => if r % 2 = 1 then some (.s (r - 1)) else none
  | _ => none

/-- What a register, or the pair it names, is known to hold; none if it is untyped. k7 is always typed (R76). -/
def Walk.info (k : Walk) (r : Reg) : Option RegInfo :=
  if r = .k 7 then some ⟨⟨7, 0, false, true⟩, false, none⟩
  else (k.types.find? (fun e => e.1 == r)).map (·.2)

/-- The register is the odd member of a typed pair. -/
def Walk.inPair (k : Walk) (r : Reg) : Bool :=
  match Reg.evenOf r with
  | none => false
  | some b => match k.info b with | some i => i.type.pair | none => false

/-- A register holds a uniform value (R271). -/
def Walk.isUniform (k : Walk) (r : Reg) : Bool :=
  match r with
  | .s _ => true
  | _ =>
    let of (o : Option RegInfo) : Bool := match o with | some i => i.type.uniform | none => false
    of (k.info r) || (k.inPair r && of ((Reg.evenOf r).bind k.info))

/-! Types (R100). -/

/-- The type an instruction's type code names: int, float or bits. -/
def tyLive (t : Ty) : LiveType :=
  ⟨if t.isBits then 1 else if t.isInt then 2 else 3, t.code.toNat, t.wide, false⟩

/-- The width in bits of a value of a type. -/
def LiveType.width (l : LiveType) : Nat :=
  if 1 ≤ l.cls && l.cls ≤ 3 then (match Ty.ofCode (BitVec.ofNat 4 l.spec) with | some t => t.width | none => 0)
  else if l.pair then 64 else 32

/-- The descriptor of a type (R100): bits [26:12] of a live entry. -/
def LiveType.desc (l : LiveType) : Nat :=
  l.cls + 16 * l.spec + 2 ^ 12 * natOfBool l.pair + 2 ^ 13 * natOfBool l.uniform

/-- The same class and parameter, whatever the uniformity. -/
def LiveType.same (a b : LiveType) : Bool := a.cls == b.cls && a.spec == b.spec && a.pair == b.pair

/-- The length a pointer's offset is bounded by (R100). -/
def LiveType.lenTerm (l : LiveType) : Term :=
  if l.spec = 0xFD then .loc else if l.spec = 0xFE then .near else if l.spec = 0xFF then .col else .len l.spec

/-- The space a pointer or lockword is used in (R179). -/
def LiveType.space (i : Image) (l : LiveType) : Option Space :=
  let of (g : Nat) : Option Space := (i.regions[g]?).map (fun r => if r.space = 3 then .dev else .host)
  if l.cls = 4 then
    if l.spec = 0xFD then some .loc else if l.spec = 0xFE then some .near else if l.spec = 0xFF then some .col
    else of l.spec
  else if l.cls = 5 then (i.regions[l.spec]?).bind (fun r => of r.lregion)
  else none

/-! Facts. -/

/-- Adds a fact: a smaller constant replaces one held on the same pair, and a new pair takes a place while one of the 256 is
free (R262). -/
def addFact (l : List AdmFact) (f : AdmFact) : List AdmFact :=
  if l.any (fun g => g.u == f.u && g.v == f.v) then
    l.map (fun g => if g.u = f.u ∧ g.v = f.v ∧ f.c < g.c then f else g)
  else if l.length < 256 then l ++ [f] else l

/-- Adds facts in order. -/
def addFacts (l fs : List AdmFact) : List AdmFact := fs.foldl addFact l

/-- u op v + c in the form of R262; `op` is 0 <, 1 ≤, 2 ==. -/
def normFact (u v : Term) (op : Nat) (c : Int) : List AdmFact :=
  match op with
  | 0 => [⟨u, v, c - 1⟩]
  | 1 => [⟨u, v, c⟩]
  | _ => [⟨u, v, c⟩, ⟨v, u, -c⟩]

/-- The fact names a term. -/
def AdmFact.names (f : AdmFact) (t : Term) : Bool := f.u == t || f.v == t

/-- lo ≤ t and t ≤ hi. -/
def between (t : Term) (lo hi : Int) : List AdmFact := [⟨.zero, t, -lo⟩, ⟨t, .zero, hi⟩]

/-- The least and greatest value of an integer type. -/
def tyLeast (t : Ty) : Int := if t.signed then -(2 ^ (t.width - 1) : Int) else 0
@[inherit_doc tyLeast] def tyGreatest (t : Ty) : Int :=
  if t.signed then (2 ^ (t.width - 1) : Int) - 1 else (2 ^ t.width : Int) - 1

/-- The facts implied of a register (R263). -/
def impliedReg (r : Reg) (i : RegInfo) : List AdmFact :=
  let t : Term := .reg r
  if i.type.cls = 2 then
    (match Ty.ofCode (BitVec.ofNat 4 i.type.spec) with
     | some ty => between t (tyLeast ty) (tyGreatest ty)
     | none => []) ++ (match i.range with | some (lo, hi) => between t lo hi | none => [])
  else if i.type.cls = 4 && i.fromLive then [⟨.zero, t, 0⟩, ⟨t, i.type.lenTerm, 0⟩]
  else []

/-- All implied facts (R263). -/
def Walk.implied (k : Walk) (i : Image) : List AdmFact :=
  let const (t : Term) (n : Nat) : List AdmFact := between t n n
  k.types.flatMap (fun e => impliedReg e.1 e.2) ++
    i.regions.zipIdx.map (fun e => (⟨.zero, .len e.2, -(e.1.minLen : Int)⟩ : AdmFact)) ++
    [⟨.zero, .nthr, -1⟩, ⟨.nthr, .tcap, 0⟩] ++ const .tcap i.threads ++ const .near i.nearSz ++ const .col i.colSz ++
    const .loc i.locSz

/-- A term's constant value, where facts give it one (R264). -/
def constOf (l : List AdmFact) (t : Term) : Option Int :=
  if t = .zero then some 0
  else
    ((l.filter (fun f => f.u == t && f.v == .zero)).find? (fun f =>
      l.any (fun g => g.u == .zero && g.v == t && g.c == -f.c))).map (·.c)

/-- Facts prove u ≤ v + c, in exactly the cases of R264. -/
def proves (l : List AdmFact) (u v : Term) (c : Int) : Bool :=
  (u == v && decide (0 ≤ c)) ||
    l.any (fun f => f.u == u && f.v == v && decide (f.c ≤ c)) ||
    (l.filter (fun f => f.u == u)).any (fun f =>
      l.any (fun g => g.u == f.v && g.v == v && decide (f.c + g.c ≤ c))) ||
    (match constOf l u, constOf l v with
     | some a, some b => decide (a ≤ b + c)
     | _, _ => false)

/-- A goal is proved from what the checker holds. -/
def Walk.proves (k : Walk) (i : Image) (u v : Term) (c : Int) : Bool :=
  Machine.proves (k.facts ++ k.implied i) u v c

/-- The least known upper bound of a term, and its greatest known lower bound, over all that R264 proves. -/
def upperOf (l : List AdmFact) (t : Term) : Option Int :=
  let one := (l.filter (fun f => f.u == t && f.v == .zero)).map (·.c)
  let two := (l.filter (fun f => f.u == t)).flatMap (fun f =>
    (l.filter (fun g => g.u == f.v && g.v == .zero)).map (fun g => f.c + g.c))
  (one ++ two).min?
@[inherit_doc upperOf] def lowerOf (l : List AdmFact) (t : Term) : Option Int :=
  let one := (l.filter (fun f => f.u == .zero && f.v == t)).map (·.c)
  let two := (l.filter (fun f => f.v == t)).flatMap (fun f =>
    (l.filter (fun g => g.u == .zero && g.v == f.u)).map (fun g => f.c + g.c))
  ((one ++ two).min?).map (fun c => -c)

/-! Writes (R265). -/

/-- Every register whose type or facts a write of these touches: they, and the pairs they break. -/
def Walk.touched (k : Walk) (rs : List Reg) : List Reg := rs ++ (rs.filter k.inPair).filterMap Reg.evenOf

/-- Forgets all that names registers that are written (R265, R266, R269). -/
def Walk.forget (k : Walk) (rs : List Reg) : Walk :=
  let hit (f : AdmFact) : Bool := rs.any (fun r => f.names (.reg r))
  { k with
    types := k.types.filter (fun e => !rs.contains e.1)
    facts := k.facts.filter (fun f => !hit f)
    kmean := k.kmean.filter (fun e => !rs.contains (.k e.1) && !e.2.facts.any hit)
    acq := k.acq.filter (fun e => !rs.contains e.1) }

/-- The facts of a write d == t + c: its own, unless d is t, and the facts of t restated, in the store's order and then
those implied (R262, R265). -/
def restate (store implied : List AdmFact) (d t : Term) (c : Int) : List AdmFact :=
  (if d = t then [] else [⟨d, t, c⟩, ⟨t, d, -c⟩]) ++
    (store ++ implied.filter (fun f => f.names t)).filterMap (fun f =>
      if f.u = t ∧ f.v ≠ t ∧ f.v ≠ d then some ⟨d, f.v, f.c + c⟩
      else if f.v = t ∧ f.u ≠ t ∧ f.u ≠ d then some ⟨f.u, d, f.c - c⟩
      else none)

/-- The term of an annotation's code (R101). -/
def Term.ofCode (c : Nat) : Term :=
  if c < 0x40 then .reg (.x c)
  else if 0x100 ≤ c ∧ c < 0x500 then .reg (.s (c - 0x100))
  else if 0x600 ≤ c ∧ c < 0x700 then .len (c - 0x600)
  else match c with
    | 0x700 => .nthr | 0x701 => .tcap | 0x702 => .near | 0x703 => .col | 0x704 => .loc | _ => .zero

/-- The state at a block's entry, from its annotation alone (R261). -/
def Walk.entry (b : Block) : Walk where
  uniform := b.uniform
  types := b.live.map (fun e => (e.reg, ⟨e.type, e.type.cls == 4, rangeOf e.type e.range⟩))
  facts := addFacts [] (b.rels.flatMap (fun r => normFact (Term.ofCode r.1) (Term.ofCode r.2.2.1) r.2.1 r.2.2.2))
  kmean := []
  held := b.locks
  acq := []
  sectors := b.budget
  producer := b.role == 1
  written := []
  prods := []
  dist := 0

end Sys2Proof.Machine
end

