-- ==== Sys2Proof/Machine/Checker.lean ====
section
/-! DEFINITION. What admission checks at an instruction and at an edge, in the order of R429: steps 4 to 15 (R77, R78, R81,
R127, R131, R152 to R165, R178 to R183, R187, R193 to R207, R218 to R231, R243, R255, R256, R258, R265 to R273). -/

namespace Sys2Proof.Machine

/-- An answer of the admission unit, or its rejection. -/
abbrev Adm (α : Type) := Except AdmFault α

/-- Where a fault lies: a block and an offset (R107). -/
structure Spot where
  block : Nat
  off : Nat
  deriving DecidableEq, Repr

/-- A rejection. -/
def Spot.reject (p : Spot) (rule opnd : Nat) (found expected aux : Nat := 0) : Adm Unit :=
  .error ⟨rule, opnd, p.block, p.off, found, expected, aux⟩

/-- Rejects where an operand number is given. -/
def Spot.none (p : Spot) (rule : Nat) (o : Option Nat) : Adm Unit :=
  match o with | some n => p.reject rule n | _ => pure ()

/-! Step 4: block kind and uniformity (R77, R127, R130, R155, R178, R205, R243, R249). -/

/-- The identity values that are uniform (R32). -/
def idUniform : IdSel → Bool
  | .tid | .wpos | .wave | .core | .cpos => false
  | _ => true

/-- The operand for which a word is rejected under ADM-11. A k-field destination in a uniform block is operand 1 (log 85). -/
def kindFault (i : Instr) (uniform : Bool) : Option Nat :=
  let (th, un) := i.legalIn
  let dst : Bool := match i.dst? with | some (.s _) => !uniform | some (.x _) => uniform | _ => false
  let guarded : Bool := match i.ctl? with | some c => c.guard != .always | none => false
  let kdst : Bool := match i with
    | .addc .. | .subc .. => false
    | _ => i.writesRegs.any (fun r => match r with | .k _ => true | _ => false)
  let isX (a : Src) : Bool := match a with | .x _ => true | _ => false
  if !(if uniform then un else th) then some 0
  else if !uniform then
    match i with
    | .movs _ _ (.write _) _ _ => some 6
    | _ => if dst then some 1 else none
  else if guarded then some 5
  else if dst || kdst then some 1
  else
    match [2, 3, 4].find? (fun n => (Instr.operands false false i).any (fun o => o.opnd == n && isX o.src) ||
        (Instr.kFields i).any (fun e => e.1 == n && e.2 != 7)) with
    | some n => some n
    | none =>
      match i with
      | .id _ sel _ => if idUniform sel then none else some 7
      | .srd _ .wdcnt _ => some 7
      | _ => none

/-! Step 5: the operand file (R78). -/

/-- The operand of this number is, by its type, a pair (R179). -/
def Walk.pairAt (k : Walk) (i : Instr) (n : Nat) : Bool :=
  (Instr.operands false false i).any (fun o => o.opnd == n &&
    (Src.regs false o.src).any (fun r => match k.info r with | some f => f.type.pair | none => false))

/-- The operand for which a word is rejected under ADM-05. -/
def Walk.fileFault (k : Walk) (i : Instr) : Option Nat :=
  let file (r : Reg) : Bool := match r with | .o _ | .y _ => true | _ => false
  let dst : Bool := match i.dst? with | some (.o _) | some (.y _) => i.variableLatency | _ => false
  if dst then some 1
  else ((Instr.operands (k.pairAt i 2) (k.pairAt i 3) i).find? (fun o =>
    (Src.regs o.wide o.src).any (fun r => file r && !k.written.contains r))).map (·.opnd)

/-! Step 6: types, rights and spaces. -/

/-- What an operand must be. -/
inductive Want where
  /-- A value whose register's type satisfies `ok`; `exp` is the descriptor expected. -/
  | val (opnd : Nat) (a : Src) (ok : LiveType → Bool) (exp : Nat)
  /-- A k register. -/
  | kreg (opnd r : Nat)
  /-- An address in one of the spaces, or a lockword, with the rights. -/
  | mem (opnd : Nat) (a : Src) (ok : Space → Bool) (lock rd w uni : Bool)
  /-- A uniform register that the extension names by its index. -/
  | sreg (opnd i : Nat) (ok : LiveType → Bool) (exp : Nat)
  /-- A register that is typed, alone or in a pair. -/
  | typed (opnd : Nat) (r : Reg)
  /-- One at least of those that the index register of a MOVS may select is typed (R127, R261; log 89). -/
  | selects (opnd : Nat) (m : MovsIdx)
  /-- No operand will do. -/
  | never (opnd exp : Nat)

/-- Int or bits of the type's width, or a narrow int for a narrow type (R131). -/
def okInt (t : Ty) (l : LiveType) : Bool :=
  (l.cls == 1 || l.cls == 2) && (l.width == t.width || (t.width ≤ 16 && l.cls == 2 && l.width ≤ 16))

/-- Int or bits of exactly a width (R152). -/
def okWidth (n : Nat) (l : LiveType) : Bool := (l.cls == 1 || l.cls == 2) && l.width == n

/-- The same, or a float register read as bits (R131). -/
def okBits (t : Ty) (l : LiveType) : Bool := okInt t l || (l.cls == 3 && t.width == 32)

/-- Float of the format, or bits of its width (R152): every float is held in one 32-bit register, whose bits type is .b32
(R48, R100, R145; log 76). -/
def okFloat (t : Ty) (l : LiveType) : Bool :=
  (l.cls == 3 && l.spec == t.code.toNat) || (l.cls == 1 && !l.pair)

/-- A float source of CVT: element 0 of a packed register converts directly (R145). -/
def okCvtSrc (t : Ty) (l : LiveType) : Bool :=
  okFloat t l || (l.cls == 3 && (match Ty.ofCode (BitVec.ofNat 4 l.spec) with | some p => p.isPacked && p.elem == t | none => false))

/-- A pointer of the type's width. -/
def okPtr (t : Ty) (l : LiveType) : Bool := l.cls == 4 && l.width == t.width

/-- What MOV and SEL copy (R131; log 88). -/
def okMov (t : Ty) (l : LiveType) : Bool :=
  okInt t l || (l.cls == 3 && !t.wide) || ((l.cls == 4 || l.cls == 5 || l.cls == 6) && l.width == t.width)

/-- What ST stores (R430), and WXCH exchanges: any class but cond, a pair for a 64-bit type. -/
def okStored (t : Ty) (l : LiveType) : Bool := l.cls != 7 && l.pair == t.wide

/-- The type of a source: its register's, or that of the instruction. -/
def Walk.srcType (k : Walk) (t : Ty) (a : Src) : Option LiveType :=
  match Src.regs false a with
  | r :: _ => (k.info r).map (fun i => { i.type with uniform := false })
  | [] => some (tyLive t)

/-- A source is a pointer. -/
def Walk.isPtr (k : Walk) (a : Src) : Bool :=
  match Src.regs false a with
  | r :: _ => match k.info r with | some i => i.type.cls == 4 | none => false
  | [] => false

/-- The wants of an operand list by one rule. -/
def wantAll (l : List Operand) (f : LiveType → Bool) (t : Ty) : List Want :=
  l.map (fun o => .val o.opnd o.src f (tyLive t).desc)

/-- An integer operand of 32 bits. -/
def want32 (n : Nat) (a : Src) : Want := .val n a (okWidth 32) (tyLive .b32).desc

/-- Device memory alone, and the spaces of the other operands. -/
def inDev (s : Space) : Bool := s == .dev
@[inherit_doc inDev] def inNear (s : Space) : Bool := s == .near
@[inherit_doc inDev] def inLocal (s : Space) : Bool := s == .near || s == .col
@[inherit_doc inDev] def inShared (s : Space) : Bool := s == .dev || s == .host
@[inherit_doc inDev] def inAny (_ : Space) : Bool := true
@[inherit_doc inDev] def notLoc (s : Space) : Bool := s != .loc

/-- A load's address, and a store's. -/
def loadAt (a : Src) : Want := .mem 2 a inAny true true false false
@[inherit_doc loadAt] def storeAt (a : Src) : Want := .mem 2 a inAny true false true false

/-- A record operand (R206). -/
def recAt (a : Src) (w : Bool) : Want := .mem 2 a inDev false (!w) w false

/-- The sync word of a copy command (R219). -/
def tgtWants : CopyTgt → List Want
  | .barrier _ => []
  | .sync d => [.mem 1 d inNear false false false false]

/-- The wants of an instruction's operands, in their order. -/
def Walk.wants (k : Walk) (i : Instr) : List Want :=
  let ops := Instr.operands false false i
  let two (t u : Ty) (f g : LiveType → Bool) : List Want :=
    ops.map (fun o => if o.opnd = 2 then .val 2 o.src f (tyLive t).desc else .val o.opnd o.src g (tyLive u).desc)
  match i with
  | .add _ _ t .. | .sub _ _ t .. | .addc _ t .. | .subc _ t .. | .mul _ t .. | .mulh _ t .. | .mad _ t .. | .div _ t ..
  | .rem _ t .. | .abs _ _ t .. | .min _ t .. | .max _ t .. | .clz _ t .. | .popc _ t .. => wantAll ops (okInt t) t
  | .and _ t .. | .or _ t .. | .xor _ t .. | .andn _ t .. | .not _ t .. | .brev _ t .. => wantAll ops (okBits t) t
  | .shl _ t .. | .shr _ t .. | .rot _ _ t .. => two t .b32 (okBits t) (okBits .b32)
  | .sha _ t .. | .bfx _ t .. => two t .b32 (okInt t) (okWidth 32)
  | .fsh .. | .prm .. => wantAll ops (okBits .b32) .b32
  | .bfi _ t _ a b n =>
    wantAll [⟨2, a, t.wide⟩, ⟨3, b, t.wide⟩] (okBits t) t ++ [.val 4 n (okBits .b32) (tyLive .b32).desc]
  | .sel _ t .. | .mov _ t .. => wantAll ops (okMov t) t
  | .cmp _ _ _ t _ a b =>
    .val 2 a (fun l => okInt t l || okPtr t l) (tyLive t).desc ::
      (if k.isPtr a then
        match k.srcType t a with
        | some l => if b.isReg then [.val 3 b (fun m => m.same l) l.desc] else [.never 3 l.desc]
        | none => []
       else [.val 3 b (okInt t) (tyLive t).desc])
  | .movs _ t dir i b =>
    two t .b32 (okInt t) (okWidth 32) ++
      (match dir with
       | .read _ =>
         if b.isReg then [.selects 6 ⟨false, t, i, b⟩]
         else [.sreg 6 (i.toNat + (if t.wide then 2 else 1) * (immVal .b32 b).toNat) (okInt t) (tyLive t).desc]
       | .write _ => [])
  | .lea _ _ t .. => two t .b32 (fun l => okInt t l || okPtr t l) (okWidth 32)
  | .fadd _ _ t .. | .fsub _ _ t .. | .fmul _ _ t .. | .ffma _ _ t .. | .fmin _ _ t .. | .fmax _ _ t .. | .fcmp _ _ _ t ..
  | .fgex _ t .. | .frnd _ _ t .. => wantAll ops (okFloat t) t
  | .fclass _ _ t .. | .fscl _ _ t .. => two t .b32 (okFloat t) (okWidth 32)
  | .frcps .. | .frsqs .. | .fexs .. | .flgs .. => wantAll ops (okFloat .f32) .f32
  | .cvt _ _ _ _ u .. => two u .f32 (if u.isF then okCvtSrc u else okWidth u.width) (okFloat .f32)
  | .fdot2 _ _ t _ a b e =>
    wantAll [⟨2, a, false⟩, ⟨3, b, false⟩] (okFloat t) t ++ [.val 4 e (okFloat .f32) (tyLive .f32).desc]
  | .brx _ a _ => [.val 2 a (fun l => okWidth 32 l || l.cls == 6) (tyLive .b32).desc]
  | .call _ x _ | .ret _ x _ =>
    [.val 2 (.x x) (fun l => l.same ⟨4, 0xFD, false, false⟩) (LiveType.desc ⟨4, 0xFD, false, false⟩)]
  | .spawn _ n _ a _ => (xrun a.val n.val).map (fun r => .typed 2 r)
  | .wxch _ _ t .. => two t .b32 (okStored t) (okWidth 32)
  | .ld _ _ _ a d | .ldv _ _ _ a d | .lds _ _ _ a d => [loadAt a, want32 4 d]
  | .st _ t a b d => [storeAt a, .val 3 b (okStored t) (tyLive t).desc, want32 4 d]
  | .stv _ n a b d =>
    storeAt a :: (match b with
      | .x r => (xrun r.val n.regs).map (fun r =>
          .val 3 (match r with | .x j => .x (Fin.ofNat 64 j) | _ => .zero) (okStored .b32) (tyLive .b32).desc)
      | _ => []) ++ [want32 4 d]
  | .chk _ _ t a b _ =>
    .val 2 a (fun l => okInt t l || (okPtr t l && !t.signed)) (tyLive t).desc ::
      (match b with | .src b => [.val 3 b (okInt t) (tyLive t).desc] | _ => [])
  | .atom _ op _ t _ a b e =>
    let f := if t.isInt || t.isBits then okInt t else okFloat t
    [.mem 2 a notLoc true false true false, .val 3 b f (tyLive t).desc,
      if op = .cas then .val 4 e f (tyLive t).desc else want32 4 e]
  | .red _ _ _ t a b e =>
    let f := if t.isInt || t.isBits then okInt t else okFloat t
    [.mem 2 a notLoc true false true false, .val 3 b f (tyLive t).desc, want32 4 e]
  | .lkacq _ _ _ a | .lkrel _ _ a => [.mem 2 a (fun _ => false) true false false false]
  | .pref _ a d => [.mem 2 a inShared true true false false, want32 4 d]
  | .swarm _ _ a b d | .swait _ _ a b d => [.mem 2 a inNear false false false false, want32 3 b, want32 4 d]
  | .cpy _ tgt a b bounce mcast .. =>
    tgtWants tgt ++ [.mem 2 a (if bounce then (fun s => s == .host) else notLoc) false true false false,
      .mem 3 b (if mcast.val = 0 then notLoc else inNear) false false true false]
  | .cpyt _ out tgt a b e _ _ _ mcast =>
    tgtWants tgt ++ [recAt a false,
      .mem 3 b (if mcast.val = 0 then inLocal else if out then (fun _ => false) else inNear) false false false false,
      want32 4 e]
  | .wld _ near tgt a e .. =>
    tgtWants tgt ++ (if near then [.mem 2 a inNear false false false false] else [recAt a false, want32 4 e])
  | .mma _ _ _ a .. => [.mem 2 a inLocal false false false true]
  | .awr _ _ _ a b => [.val 2 a (fun l => 1 ≤ l.cls && l.cls ≤ 3 && l.width == 32) (tyLive .b32).desc, want32 3 b]
  | .qst _ _ _ a b e fmt blk _ _ _ sreg =>
    [recAt a false, .val 3 b (okFloat .f32) (tyLive .f32).desc, want32 4 e] ++
      (match fmt with | .bx8 | .bx4 => if blk then [] else [.typed 6 (.s sreg.toNat)] | _ => [])
  | .resld _ _ a _ d => [.mem 2 a notLoc false true false false, want32 4 d]
  | .resst _ _ a _ d => [.mem 2 a notLoc false false true false, want32 4 d]
  | .trec _ f _ a b => [recAt a true, .val 3 b (okWidth (if f.wide then 64 else 32)) (tyLive (if f.wide then .b64 else .b32)).desc]
  | .topen _ _ a | .tclose _ _ a => [recAt a true]
  | .tfe _ _ _ a e => [recAt a true, want32 4 e]
  | .launch _ _ a => [.mem 2 a inDev false true false false]
  | .svc _ _ _ a b => [.mem 2 a inDev false true false false, want32 3 b]
  | _ => ops.map (fun o => want32 o.opnd o.src)

/-- The number a want carries. -/
def Want.opnd : Want → Nat
  | .val n .. | .kreg n _ | .mem n .. | .sreg n .. | .typed n _ | .selects n _ | .never n _ => n

/-- A source as a term plus a constant, read at a type (R262). -/
def Walk.term (k : Walk) (t : Ty) (a : Src) : Option (Term × Int) :=
  match a with
  | .zero => some (.zero, 0)
  | .small _ | .imm _ => some (.zero, intVal t (immVal t a))
  | _ =>
    match Src.regs false a with
    | r :: _ =>
      match k.info r with
      | some i =>
        if (i.type.cls = 2 ∧ i.type.spec = t.code.toNat) ∨ i.type.cls = 4 then some (.reg r, 0) else none
      | none => none
    | [] => none

/-- The greatest index a dynamic MOVS may add (R127). -/
def movsLimit (t : Ty) (idx : BitVec 10) : Int :=
  if t.wide then (1022 - (idx.toNat : Int)) / 2 else 1023 - (idx.toNat : Int)

/-- The registers that a dynamic MOVS may reach: from IDX up to the largest index proved for it (R127). -/
def Walk.movsReach (k : Walk) (im : Image) (m : MovsIdx) : List Reg :=
  let most := movsLimit m.type m.base
  let top := match k.term .n32 m.index with
    | some (.zero, c) => c
    | some (u, c) => ((upperOf (k.facts ++ k.implied im) u).map (· + c)).getD most
    | none => most
  (List.range ((if m.type.wide then 2 else 1) * ((min top most).toNat + 1))).map (fun j => .s (m.base.toNat + j))

/-- How an operand fails: OPND, FOUND and EXPECTED. -/
def Walk.wantFault (k : Walk) (im : Image) (w : Want) : Option (Nat × Nat × Nat) :=
  match w with
  | .never n exp => some (n, 0, exp)
  | .kreg n r => if (k.info (.k r)).isSome then none else some (n, 0, 7)
  | .typed n r => if (k.info r).isSome || k.inPair r then none else some (n, 0, 0)
  | .selects n m =>
    if (k.movsReach im m).any (fun r => (k.info r).isSome || k.inPair r) then none else some (n, 0, (tyLive m.type).desc)
  | .sreg n i ok exp =>
    match k.info (.s i) with
    | none => some (n, 0, exp)
    | some f => if ok f.type then none else some (n, f.type.desc, exp)
  | .val n a ok exp =>
    match Src.regs false a with
    | [] => none
    | r :: _ =>
      match k.info r with
      | none => some (n, 0, exp)
      | some i => if ok i.type then none else some (n, i.type.desc, exp)
  | .mem n a ok lock rd w uni =>
    match (Src.regs false a).head?.bind k.info with
    | none => some (n, 0, 0)
    | some i =>
      let l := i.type
      match l.space im with
      | none => some (n, l.desc, 0)
      | some sp =>
        let g := im.regions[l.spec]?
        let rights : Bool := match g with
          | some g => l.cls != 4 || !inShared sp || ((!rd || g.rd) && (!w || g.w))
          | none => true
        let kind : Bool := if l.cls = 5 then lock else ok sp && !(k.uniform && sp == .loc)
        if !kind || !rights then some (n, l.desc, 0)
        else if uni && !l.uniform && !(Src.regs false a).all k.isUniform then some (n, l.desc, l.desc + 2 ^ 13)
        else none

/-- The first operand of the wrong type, in the order guard, d, a, b, c, extension (R261, R429). -/
def Walk.typeFault (k : Walk) (im : Image) (i : Instr) (c : Ctl) : Option (Nat × Nat × Nat) :=
  let guard : List Want := match c.guard with | .always => [] | .k r _ => [.kreg 5 r.val]
  let ks : List Want := (Instr.kFields i).map (fun e => .kreg e.1 e.2)
  let ws := k.wants i ++ ks
  let upto (n : Nat) : List Want := ws.filter (fun w => w.opnd == n)
  (guard ++ upto 1 ++ upto 2 ++ upto 3 ++ upto 4 ++ upto 6).findSome? (k.wantFault im)

/-- The type of the operand of a number. -/
def Walk.typeAt (k : Walk) (i : Instr) (n : Nat) : Option LiveType :=
  ((Instr.operands false false i).find? (fun o => o.opnd == n)).bind (fun o =>
    ((Src.regs false o.src).head?.bind k.info).map (·.type))

/-- The scope of an atomic or lock instruction does not suit its space or its lock (R193, R198). -/
def Walk.scopeFault (k : Walk) (im : Image) (i : Instr) : Bool :=
  let bad (sc : Lv) (lock : Bool) : Bool :=
    match k.typeAt i 2 with
    | none => true
    | some l =>
      !(match l.space im with
        | some .near | some .col => sc == .t || sc == .c
        | some .dev => sc != .w
        | some .host => sc == .s
        | _ => false) ||
        (lock && (match im.regions[l.spec]? with | some g => g.lscope != sc.num | none => true))
  match i with
  | .atom _ _ sc .. | .red _ _ sc .. => bad sc false
  | .lkacq _ sc .. | .lkrel _ sc .. => bad sc true
  | _ => false

/-! Terms, bounds and dynamic indices. -/

/-- A displacement that the word fixes. -/
def dispOf (a : Src) : Option Int :=
  match a with
  | .zero => some 0
  | .small f => some (smallVal f)
  | .imm v => some v.toInt
  | _ => none

/-- A footprint to be proved: the operand, its bytes and its displacement, none where it has no fixed one; and the term that
its length is, where an operand gives it. -/
structure Bound where
  opnd : Nat
  src : Src
  n : Option Nat
  disp : Option Int
  len : Option (Term × Int)

/-- The bytes of a slot of K rows that a mode reads (R225). -/
def modeSlotLen (m : MMode) (k : Nat) : Nat :=
  match m with | .ds8 | .bfds8 => 65 * k | .ds4 => 33 * k | .bfbf => 128 * k

/-- A length operand as a term. -/
def Walk.lenTerm (k : Walk) (b : Src) : Option (Term × Int) := (k.term .n32 b).orElse (fun _ => k.term .i32 b)

/-- The most that a length can be by the facts (R256). -/
def Walk.lenMost (k : Walk) (im : Image) (b : Src) : Option Nat :=
  match k.lenTerm b with
  | some (.zero, c) => some c.toNat
  | some (u, c) => (upperOf (k.facts ++ k.implied im) u).map (fun m => (m + c).toNat)
  | none => none

/-- What an instruction's accesses touch (R180, R206, R218 to R238, R255, R256). -/
def Walk.bounds (k : Walk) (im : Image) (i : Instr) : List Bound :=
  let tgtB (t : CopyTgt) : List Bound := match t with | .sync d => [⟨1, d, some 16, some 0, none⟩] | .barrier _ => []
  match i with
  | .ld _ t _ a d | .lds _ t _ a d | .st _ t a _ d | .red _ _ _ t a _ d => [⟨2, a, some t.bytes, dispOf d, none⟩]
  | .ldv _ n _ a d | .stv _ n a _ d => [⟨2, a, some (4 * n.regs), dispOf d, none⟩]
  | .atom _ op _ t _ a _ e => [⟨2, a, some t.bytes, if op = .cas then some 0 else dispOf e, none⟩]
  | .pref _ a d => [⟨2, a, some 1, dispOf d, none⟩]
  | .swarm _ _ a _ d | .swait _ _ a _ d => [⟨2, a, some 16, dispOf d, none⟩]
  | .cpy _ tgt a b bounce _ _ lenm1 rowsm1 sp dp =>
    tgtB tgt ++
      [⟨2, a, some (rowsm1.toNat * 32 * sp.toNat + lenm1.toNat + 1 + (if bounce then 16 else 0)), some 0, none⟩,
        ⟨3, b, some (rowsm1.toNat * 32 * dp.toNat + lenm1.toNat + 1), some 0, none⟩]
  | .cpyt _ _ tgt a b _ ntm1 tb scale _ =>
    tgtB tgt ++ [⟨2, a, some 64, some 0, none⟩,
      ⟨3, b, some ((ntm1.toNat + 1) * (2 ^ (tb.val + 9) + (if scale then 64 else 0))), some 0, none⟩]
  | .wld _ near tgt a _ _ km1 wf =>
    tgtB tgt ++ [⟨2, a, some (if near then wfSlotLen wf (64 * (km1.toNat + 1)) else 64), some 0, none⟩]
  | .mma _ m _ a _ _ _ km1 _ _ => [⟨2, a, some ((km1.toNat + 1) * panelStride m), some 0, none⟩]
  | .qst _ _ _ a .. | .trec _ _ _ a _ | .topen _ _ a | .tclose _ _ a | .tfe _ _ _ a _ | .launch _ _ a =>
    [⟨2, a, some 64, some 0, none⟩]
  | .resld _ _ a n d | .resst _ _ a n d => [⟨2, a, some (4 * (n.val + 1)), dispOf d, none⟩]
  | .svc _ _ _ a b =>
    [⟨2, a, k.lenMost im b, some 0, k.lenTerm b⟩]
  | _ => []

/-- A footprint is proved in bounds (R180); a lockword needs no proof. -/
def Walk.boundOk (k : Walk) (im : Image) (b : Bound) : Bool :=
  match (Src.regs false b.src).head? with
  | none => false
  | some r =>
    match k.info r with
    | none => false
    | some i =>
      if i.type.cls = 5 then true
      else
        let known := k.facts ++ k.implied im
        (match b.n, b.disp with
         | some n, some d =>
           k.proves im .zero (.reg r) d && k.proves im (.reg r) i.type.lenTerm (-d - n)
         | _, _ => false) ||
          (match b.len, constOf known (.reg r) with
           | some (u, c), some o => decide (0 ≤ o) && k.proves im u i.type.lenTerm (-o - c)
           | _, _ => false)

/-- The index of a dynamic MOVS is proved, for a term of type .n32 (R127; log 89). -/
def Walk.movsOk (k : Walk) (im : Image) (i : Instr) : Bool :=
  match movsDyn i with
  | none => true
  | some m =>
    match k.term .n32 m.index with
    | some (u, c) => k.proves im u .zero (movsLimit m.type m.base - c)
    | none => false

/-- The registers that the index of a MOVS selects, for R81: the one that an immediate index fixes, or all that a register's
may reach; with `all`, those it reads too (log 27). -/
def Walk.indexed (k : Walk) (im : Image) (i : Instr) (all : Bool) : List Reg :=
  match movsDyn i with
  | none => []
  | some m =>
    if !(all || m.writes) then []
    else if m.index.isReg then k.movsReach im m
    else
      let w := if m.type.wide then 2 else 1
      (List.range w).map (fun j => .s (m.base.toNat + w * (immVal .b32 m.index).toNat + j))

/-- The first operand whose proof fails (R429 step 8): its number and descriptor. -/
def Walk.proofFault (k : Walk) (im : Image) (i : Instr) : Option (Nat × Nat) :=
  let desc (a : Src) : Nat := match (Src.regs false a).head?.bind k.info with | some i => i.type.desc | none => 0
  match (k.bounds im i).find? (fun b => !k.boundOk im b) with
  | some b => some (b.opnd, desc b.src)
  | none =>
    if !k.movsOk im i then some (3, 0)
    else
      match i with
      | .call _ x _ => if k.proves im .zero (.reg (.x x.val)) (-4) then none else some (2, desc (.x x))
      | .ret _ x _ => if k.proves im (.reg (.x x.val)) .loc (-4) then none else some (2, desc (.x x))
      | _ => none

/-! Steps 7 and 9 to 14. -/

/-- The registers an instruction reads or writes, for R81. -/
def Walk.uses (k : Walk) (im : Image) (i : Instr) : List Reg :=
  Instr.readsRegs (k.pairAt i 2) (k.pairAt i 3) i ++ i.writesRegs ++ k.indexed im i true

/-- The latest producer that an instruction comes too soon after (R81, R84). -/
def Walk.stallFault (k : Walk) (im : Image) (i : Instr) : Option Producer :=
  let regs := k.uses im i
  k.prods.find? (fun p => regs.contains p.reg && decide (k.dist < p.dist + p.lat))

/-- The operand for which a reservation is exceeded (R197, R206). -/
def Walk.reserveFault (k : Walk) (im : Image) (i : Instr) : Option Nat :=
  let high (a : Acc) : Bool := decide (im.accBanks ≤ a.acc.val + (if a.quad then 3 else 0))
  let slot (n len : Nat) : Bool := decide (im.wbuf < n * 512 + len)
  let wide := k.held.filter (fun h => match im.regions[h.1]? with | some g => decide (2 ≤ g.lscope) | none => false)
  match i with
  | .mma _ m _ _ acc _ _ km1 sl _ =>
    if high acc || slot sl.toNat (modeSlotLen m (64 * (km1.toNat + 1))) then some 6 else none
  | .azero _ acc => if high acc then some 7 else none
  | .qst _ acc .. => if high acc then some 7 else none
  | .ard _ acc .. | .awr _ acc .. => if high ⟨acc, false⟩ then some 7 else none
  | .wld _ _ _ _ _ sl km1 wf => if slot sl.toNat (wfSlotLen wf (64 * (km1.toNat + 1))) then some 6 else none
  | _ => if 16 < wide.length then some 0 else none

/-- A copy command (R207). -/
def isCopyCmd : Instr → Bool
  | .cpy .. | .cpyt .. | .wld .. => true
  | _ => false

/-- The block an instruction names. -/
def blockNamed : Instr → Option Nat
  | .br _ _ _ b | .brx _ _ b | .call _ _ b | .ret _ _ b | .spawn _ _ _ _ b => some b.index
  | _ => none

/-- The region whose lock guards what the address names, if it is guarded (R269). -/
def Walk.guardedAt (k : Walk) (im : Image) (i : Instr) : Option (Nat × Region) :=
  match k.typeAt i 2 with
  | some l =>
    if l.cls = 4 && l.spec < 0xFD then
      match im.regions[l.spec]? with
      | some g => if g.guarded then some (l.spec, g) else none
      | none => none
    else none
  | none => none

/-- PEND of a held lock. -/
def Walk.pendOf (k : Walk) (g : Nat) : Option Nat := (k.held.find? (fun h => h.1 == g)).map (·.2)

/-- Sets PEND of a held lock. -/
def Walk.setPend (k : Walk) (g n : Nat) : Walk :=
  { k with held := k.held.map (fun h => if h.1 = g then (g, n) else h) }

/-- A commit moves PEND (R269). -/
def pendAfter (l : Lv) (scope pend : Nat) : Nat :=
  match l with
  | .w => if pend = 1 then 2 else pend
  | .t => if pend = 2 then 3 else pend
  | .c => if pend = 3 ∧ scope ≠ 4 then 0 else pend
  | .d => if 2 ≤ pend then 0 else pend
  | .s => pend

/-- The lock rules of one instruction (R196, R198, R269): the walk after it, or the rule and operand that reject it. -/
def Walk.locks (k : Walk) (im : Image) (i : Instr) (c : Ctl) : Except (Nat × Nat) Walk :=
  let store (f : Nat → Nat) : Except (Nat × Nat) Walk :=
    match k.guardedAt im i with
    | none => .ok k
    | some (g, _) => match k.pendOf g with | some p => .ok (k.setPend g (f p)) | none => .error (16, 2)
  let atomic (sc : Lv) : Except (Nat × Nat) Walk :=
    match k.guardedAt im i with
    | none => .ok k
    | some (g, r) => if (k.pendOf g).isSome && decide (r.lscope ≤ sc.num) then .ok k else .error (16, 2)
  let commit (l : Lv) : Except (Nat × Nat) Walk :=
    if c.guard ≠ .always then .ok k
    else .ok { k with held := k.held.map (fun h =>
      (h.1, pendAfter l (match im.regions[h.1]? with | some g => g.lscope | none => 0) h.2)) }
  match i with
  | .st .. | .stv .. => store (fun _ => 1)
  | .resst .. => store (fun p => if p = 1 then 1 else 2)
  | .atom _ _ sc .. | .red _ _ sc .. => atomic sc
  | .commit _ l => commit l
  | .lkrel _ sc _ =>
    match k.typeAt i 2 with
    | none => .error (8, 2)
    | some l =>
      match k.pendOf l.spec with
      | none => .error (8, 2)
      | some p =>
        if p = 0 ∨ (sc = .t ∧ 2 ≤ p) ∨ (sc = .c ∧ p = 3) then .ok { k with held := k.held.filter (fun h => h.1 != l.spec) }
        else .error (17, 2)
  | .exit _ => if k.held.isEmpty then .ok k else .error (9, 0)
  | _ => .ok k

/-- The sectors a store adds (R183). -/
def Walk.sectorsOf (k : Walk) (im : Image) (i : Instr) : Nat :=
  let loc : Bool := match k.typeAt i 2 with | some l => l.space im == some .loc | none => false
  match i with
  | .st _ t .. => if loc then 0 else if t.bytes = 1 then 1 else 2
  | .stv .. => if loc then 0 else 2
  | _ => 0

/-- The sector count after an instruction (R270). -/
def Walk.sectorsAfter (k : Walk) (im : Image) (i : Instr) (c : Ctl) : Nat :=
  if k.uniform then k.sectors
  else
    match i with
    | .commit _ .w => if c.guard = .always then 0 else k.sectors
    | _ => k.sectors + k.sectorsOf im i

/-- Whether a block-ending instruction needs its fall-through (R70, R156). -/
def needsFall (i : Instr) (c : Ctl) : Bool :=
  i.endsBlock &&
    (c.guard != .always ||
      (match i with
       | .call .. | .yield _ | .bwait .. | .swait .. | .sleep .. => true
       | .br _ z a _ => a != .zero || !z
       | _ => false))

/-- A construct that cannot be replayed (R273); MMA words are told apart by `mmas`, those before it. -/
def nonReplayable (mmas : List (Nat × Acc)) (i : Instr) : Bool :=
  let banks (a : Acc) : List Nat := if a.quad then (List.range 4).map (a.acc.val + ·) else [a.acc.val]
  match i with
  | .atom _ op _ _ d .. => op == .fadd || op == .fmin || op == .fmax || d != .zero
  | .red _ op .. => op == .fadd || op == .fmin || op == .fmax
  | .time .. | .perf .. | .launch .. | .svc .. => true
  | .srd _ r _ => r.timing
  | .mma _ _ ci _ acc .. => mmas.any (fun e => e.1 != ci.val && (banks acc).any (fun b => (banks e.2).contains b))
  | _ => false

/-! Transfer (R258, R265, R266). -/

/-- The type an instruction gives its result (R131, R152, R258). -/
def Walk.result (k : Walk) (i : Instr) : LiveType :=
  let bits (w : Bool) : LiveType := tyLive (if w then .b64 else .b32)
  let src (t : Ty) (a : Src) : LiveType := (k.srcType t a).getD (bits t.wide)
  match i with
  | .mov _ t _ a => src t a
  | .sel _ t _ a b kk =>
    if kk.val = 7 ∨ (src t a).same (src t b) then src t a else bits t.wide
  | .lea _ _ t _ a _ _ => if k.isPtr a then src t a else tyLive t
  | .and _ t .. | .or _ t .. | .xor _ t .. | .andn _ t .. | .not _ t .. | .shl _ t .. | .shr _ t .. | .sha _ t ..
  | .rot _ _ t .. | .brev _ t .. | .bfi _ t .. | .movs _ t .. | .wxch _ _ t .. => bits t.wide
  | .clz .. | .popc .. | .id .. | .spawn .. | .hrd .. => tyLive .n32
  | .add _ _ t .. | .sub _ _ t .. | .addc _ t .. | .subc _ t .. | .mul _ t .. | .mulh _ t .. | .mad _ t .. | .div _ t ..
  | .rem _ t .. | .abs _ _ t .. | .min _ t .. | .max _ t .. | .bfx _ t .. | .movi _ _ t .. | .fadd _ _ t .. | .fsub _ _ t ..
  | .fmul _ _ t .. | .ffma _ _ t .. | .fmin _ _ t .. | .fmax _ _ t .. | .fscl _ _ t .. | .frnd _ _ t .. | .ld _ t ..
  | .lds _ t .. | .atom _ _ _ t .. => tyLive t
  | .frcps .. | .frsqs .. | .fexs .. | .flgs .. | .fdot2 .. => tyLive .f32
  | .fgex .. => tyLive .i32
  | .cvt _ _ _ t .. => tyLive t
  | .srd _ r _ => bits r.wide
  | .time .. | .perf .. | .cpyq .. | .publish .. | .svc .. => bits true
  | _ => bits false

/-- The result is uniform: all that a uniform block computes, and in a thread block the unguarded result of a word whose
every source is uniform, but for a load's (R271). A word that is computed from no source is none of these, unless its
result is an immediate or an identity value that R32 marks (log 26). -/
def Walk.resultUniform (k : Walk) (im : Image) (i : Instr) (c : Ctl) : Bool :=
  k.uniform ||
    (c.guard == .always &&
      (match i with
       | .id _ sel _ => idUniform sel
       | .ld .. | .ldv .. | .spawn _ 0 _ _ _ | .barv .. | .csign .. | .srd .. | .time .. | .perf .. => false
       | _ => true) &&
      (Instr.readsRegs (k.pairAt i 2) (k.pairAt i 3) i ++ k.indexed im i true).all k.isUniform)

/-- The facts of d == 0 + c. -/
def isConst (d : Term) (c : Int) : List AdmFact := [⟨d, .zero, c⟩, ⟨.zero, d, -c⟩]

/-- The value the word gives an operand that is no register. -/
def constSrc (t : Ty) (a : Src) : Option Int := if a.isReg then none else some (intVal t (immVal t a))

/-- The facts that an unguarded instruction adds about its destination, in their order (R262, R265). -/
def Walk.transfer (k : Walk) (im : Image) (i : Instr) : List AdmFact :=
  let known := k.facts ++ k.implied im
  let dest (d : Dst) : Option Term := (Dst.regs false d).head?.map .reg
  let assign (d : Dst) (t : Term) (c : Int) : List AdmFact :=
    match dest d with | some d => restate k.facts (k.implied im) d t c | none => []
  let fits (t : Ty) (a : Term) (c : Int) : Bool :=
    c == 0 || (if 0 < c then Machine.proves known a .zero (tyGreatest t - c) else Machine.proves known .zero a (c - tyLeast t))
  let wrap (t : Ty) (d : Dst) (a : Term) (c : Int) : List AdmFact := if fits t a c then assign d a c else []
  let move (t : Ty) (d : Dst) (a : Src) : List AdmFact :=
    if a.isReg then (match k.term t a with | some (u, _) => assign d u 0 | none => []) else []
  let index (t : Ty) (b : Src) : Option Term :=
    if b.isReg then (k.term (if t.signed then .i32 else .n32) b).map (·.1) else none
  match i with
  | .mov _ t d a =>
    match constSrc t a, dest d with
    | some v, some u => if t.isInt then isConst u v else []
    | _, _ => move t d a
  | .sel _ t d a _ kk => if kk.val = 7 then move t d a else []
  | .movi _ hi t d v =>
    match dest d with
    | some u =>
      if !t.isInt then []
      else if hi then isConst u (intVal t (v.setWidth 64 <<< 32))
      else isConst u (if t.signed then v.toInt else v.toNat)
    | none => []
  | .add _ sat t d a b =>
    if sat then []
    else
      match constSrc t a, constSrc t b with
      | none, some c => match k.term t a with | some (u, _) => wrap t d u c | none => []
      | some c, none => match k.term t b with | some (u, _) => wrap t d u c | none => []
      | _, _ => []
  | .sub _ sat t d a b =>
    if sat then []
    else
      match constSrc t a, constSrc t b with
      | none, some c => match k.term t a with | some (u, _) => wrap t d u (-c) | none => []
      | _, _ => []
  | .lea _ n t d a b e =>
    match dispOf e with
    | none => []
    | some c =>
      if k.isPtr a then
        match k.term t a with
        | none => []
        | some (u, _) =>
          if b = .zero then assign d u c
          else
            match constOf known u, index t b with
            | some k0, some w => if n = 0 then assign d w (k0 + c) else []
            | _, _ => []
      else if n = 0 && t.isInt then
        if b = .zero && a.isReg then (match k.term t a with | some (u, _) => wrap t d u c | none => [])
        else if a = .zero then (match index t b with | some w => wrap t d w c | none => [])
        else []
      else []
  | .min _ t d a b =>
    match dest d, constSrc t b with
    | some u, some v =>
      (match k.term t a with | some (w, _) => if a.isReg && w != u then [⟨u, w, 0⟩] else [] | none => []) ++ [⟨u, .zero, v⟩]
    | _, _ => []
  | .rem _ t d _ b =>
    match dest d, constSrc t b with
    | some u, some v => if !t.signed && decide (0 < v) then between u 0 (v - 1) else []
    | _, _ => []
  | .bfx _ t d _ b =>
    match dest d, constSrc .n32 b with
    | some u, some v =>
      let l := bitsOf v.toNat 15 8
      if !t.signed && 1 ≤ l && decide (l < t.width) then [⟨u, .zero, (2 ^ l : Int) - 1⟩] else []
    | _, _ => []
  | .chk _ op t a b e =>
    let n : Nat := match op with | .lt => 0 | .le => 1 | .eq => 2
    let rhs : Option (Term × Int) := match b with
      | .src b => k.term t b
      | .len g => some (.len g.val, 0)
      | .nthr => some (.nthr, 0) | .tcap => some (.tcap, 0) | .nearsz => some (.near, 0) | .colsz => some (.col, 0)
      | .locsz => some (.loc, 0)
    match k.term t a, rhs, dispOf e with
    | some (u, _), some (v, c), some d => normFact u v n (c + d)
    | _, _, _ => []
  | _ => []

/-- An operand of CMP as a term plus a constant: of the compared type's signedness (R266). -/
def Walk.cmpTerm (k : Walk) (t : Ty) (a : Src) : Option (Term × Int) :=
  match (Src.regs false a).head?.bind (fun r => (k.info r).map (fun i => (r, i.type))) with
  | some (r, l) =>
    let same : Bool := match Ty.ofCode (BitVec.ofNat 4 l.spec) with | some u => u.isInt && u.signed == t.signed | none => false
    if (l.cls == 2 && same) || l.cls == 4 then some (.reg r, 0) else none
  | none => k.term t a

/-- The meaning CMP gives its k register (R266). -/
def Walk.meaning (k : Walk) (i : Instr) (c : Ctl) : Option (Nat × KMeaning) :=
  match i with
  | .cmp _ cc op t d a b =>
    if c.guard ≠ .always then none
    else
      match k.cmpTerm t a, k.cmpTerm t b with
      | some (u, x), some (v, y) =>
        let own : List AdmFact := match cc with
          | .lt => [⟨u, v, y - x - 1⟩]
          | .le => [⟨u, v, y - x⟩]
          | .gt => [⟨v, u, x - y - 1⟩]
          | .ge => [⟨v, u, x - y⟩]
          | .eq => [⟨u, v, y - x⟩, ⟨v, u, x - y⟩]
          | .ne => []
        match op with
        | .none => if own.isEmpty then none else some (d.val, ⟨own, own.length == 1⟩)
        | .and kc =>
          let both := own ++ (match k.kmean.find? (fun e => e.1 == kc.val) with | some e => e.2.facts | none => [])
          if both.isEmpty then none else some (d.val, ⟨both, false⟩)
        | _ => none
      | _, _ => none
  | _ => none

/-- The typed units an instruction writes, each by its first register. -/
def Walk.units (k : Walk) (i : Instr) : List (Reg × LiveType) :=
  match i with
  | .ldv .. => i.writesRegs.map (fun r => (r, tyLive .b32))
  | .movs _ t (.write _) idx b => if b = .zero then [(.s idx.toNat, tyLive (if t.wide then .b64 else .b32))] else []
  | _ =>
    (i.writesRegs.filterMap (fun r => match r with | .k _ => some (r, ⟨7, 0, false, false⟩) | _ => none)) ++
      (match i.dst? with
       | some d => ((Dst.regs false d).head?.map (fun r => (r, k.result i))).toList
       | none => [])

/-- The walk after an instruction has written its registers (R265). -/
def Walk.apply (k : Walk) (im : Image) (i : Instr) (c : Ctl) (off : Nat) : Walk :=
  let free : Bool := c.guard == .always
  let uni := k.resultUniform im i c
  let copied : List Src := match i with | .mov _ _ _ a => [a] | .sel _ _ _ a b kk => if kk.val = 7 then [a] else [a, b] | _ => []
  let live (a : Src) : Bool :=
    match (Src.regs false a).head?.bind k.info with | some f => f.fromLive | none => false
  let fromLive : Bool := !copied.isEmpty && copied.all live
  let reach : List Reg := match movsDyn i with
    | some m => if m.writes then k.movsReach im m else []
    | none => []
  let regs := (i.writesRegs ++ reach).filter (fun r => match r with | .e _ => false | _ => true)
  let facts := if free then k.transfer im i else []
  let mean := k.meaning i c
  let new : List (Reg × RegInfo) := (k.units i).filterMap (fun (r, l) =>
    if free then some (r, ⟨{ l with uniform := uni }, fromLive, none⟩)
    else
      match k.info r with
      | some f =>
        if f.type.same l then some (r, ⟨{ l with uniform := k.uniform }, f.fromLive && fromLive, none⟩) else none
      | none => none)
  let spread : List (Reg × RegInfo) := reach.filterMap (fun r =>
    if (k.info r).isSome || k.inPair r then some (r, ⟨{ tyLive .b32 with uniform := true }, false, none⟩) else none)
  let f := k.forget (k.touched regs)
  let acq : List (Reg × Nat) := match i, k.typeAt i 2 with
    | .lkacq _ _ d _, some l => if free then ((Dst.regs false d).head?.map (fun r => (r, l.spec))).toList else []
    | _, _ => []
  let lat := i.latency im.latrev1
  { f with
    types := f.types ++ new ++ spread
    facts := addFacts f.facts facts
    kmean := f.kmean ++ mean.toList
    acq := f.acq ++ acq
    producer := k.producer || (isCopyCmd i && free)
    sectors := k.sectorsAfter im i c
    written := k.written ++ i.writesRegs.filter (fun r => match r with | .o _ | .y _ => true | _ => false)
    prods := (match lat with
      | some l => (i.writesRegs ++ k.indexed im i false).map (fun r => (⟨r, k.dist, regLatency l r, off⟩ : Producer))
      | none => []) ++ k.prods
    dist := k.dist + c.stall.toNat + 1 }

/-! Edges (R165, R267, R268). -/

/-- How far a lock is from release, by PEND: 1 is the worst, then 2, 3 and 0 (R268). -/
def pendRank (p : Nat) : Nat := if p = 0 then 3 else p - 1

/-- A term of the successor's annotation, in the registers of the block left; `spawn` gives the number of arguments and the
first register they are copied from (R165). -/
def edgeReg (spawn : Option (Nat × Nat)) (r : Reg) (pair : Bool) : Option Reg :=
  match spawn with
  | none => some r
  | some (n, a) =>
    match r with
    | .x j => if j + natOfBool pair < n then some (.x (a + j)) else none
    | .s j => some (.s j)
    | _ => none

/-- The same for a relation's term. -/
def edgeTerm (spawn : Option (Nat × Nat)) (t : Term) : Option Term :=
  match t with
  | .reg r => (edgeReg spawn r false).map .reg
  | _ => some t

/-- A live entry of the successor is met. -/
def Walk.meets (k : Walk) (im : Image) (spawn : Option (Nat × Nat)) (e : LiveEntry) : Bool :=
  match edgeReg spawn e.reg e.type.pair with
  | none => false
  | some r =>
    match k.info r with
    | none => false
    | some f =>
      let t : Term := .reg r
      f.type.same e.type &&
        (match rangeOf e.type e.range with
         | some (lo, hi) => k.proves im .zero t (-lo) && k.proves im t .zero hi
         | none => true) &&
        (e.type.cls != 4 || (k.proves im .zero t 0 && k.proves im t e.type.lenTerm 0)) &&
        (!e.type.uniform || k.isUniform r)

/-- The checks of one edge, in the order of R268; `k` holds the edge's own facts and locks. EXPECTED carries the RANGE bit of
the successor's entry, and FOUND never does (log 75). OPND is 8 for a live entry and 0 for the rest, and AUX is always the
successor (log 86). -/
def Walk.edge (k : Walk) (im : Image) (p : Spot) (succ : Nat) (spawn : Option (Nat × Nat)) : Adm Unit :=
  match im.blocks[succ]? with
  | none => pure ()
  | some b =>
    let scope (g : Nat) : Nat := match im.regions[g]? with | some r => r.lscope | none => 0
    let held := if spawn.isSome then k.held.filter (fun h => decide (2 ≤ scope h.1)) else k.held
    let wide := held.filter (fun h => decide (2 ≤ scope h.1))
    let rel (r : Nat × Nat × Nat × Int) : Bool :=
      match edgeTerm spawn (Term.ofCode r.1), edgeTerm spawn (Term.ofCode r.2.2.1) with
      | some u, some v => (normFact u v r.2.1 r.2.2.2).all (fun f => k.proves im f.u f.v f.c)
      | _, _ => false
    match b.live.find? (fun e => !k.meets im spawn e) with
    | some e =>
      let found := match (edgeReg spawn e.reg false).bind k.info with | some f => f.type.desc | none => 0
      p.reject 19 8 found (e.type.desc + 2 ^ 14 * natOfBool e.range.isSome) succ
    | none =>
      if !b.rels.all rel then p.reject 19 0 0 0 succ
      else if 16 < wide.length then p.reject 14 0
      else if !(held.all (fun h => b.locks.any (fun g => g.1 == h.1)) &&
          b.locks.all (fun g => held.any (fun h => h.1 == g.1 && decide (pendRank g.2 ≤ pendRank h.2)))) then
        p.reject 8 0 0 0 succ
      else if spawn.isNone && decide (b.budget < k.sectors) then p.reject 10 0 0 0 succ
      else if b.role = 1 && !k.producer then p.reject 12 0 0 0 succ
      else pure ()

/-- The facts of the edges on which a guard holds, and fails (R267). -/
def Walk.guardFacts (k : Walk) (g : Guard) : List AdmFact × List AdmFact :=
  match g with
  | .always => ([], [])
  | .k r neg =>
    match k.kmean.find? (fun e => e.1 == r.val) with
    | none => ([], [])
    | some (_, m) =>
      let no : List AdmFact := match m.single, m.facts with
        | true, [f] => [⟨f.v, f.u, -f.c - 1⟩]
        | _, _ => []
      if neg then (no, m.facts) else (m.facts, no)

/-- The facts of BR.z's taken edge and of its fall-through (R267). -/
def Walk.zeroFacts (k : Walk) (a : Src) : List AdmFact × List AdmFact :=
  match k.term .n32 a, k.term .i32 a with
  | some (.reg r, _), _ => (isConst (.reg r) 0, [⟨.zero, .reg r, -1⟩])
  | _, some (.reg r, _) => (isConst (.reg r) 0, [])
  | _, _ => ([], [])

/-- An edge: the successor, its facts, the lock acquired on it, and what the stack register moves by (R160). -/
structure Exit where
  succ : Nat
  facts : List AdmFact
  lock : Option Nat
  shift : Option (Nat × Int)

/-- The index of the block at an offset. -/
def Image.indexAt (im : Image) (off : Nat) : Option Nat := im.blocks.findIdx? (fun b => b.off == off)

/-- The fall-through of an instruction at an offset (R70). -/
def Image.fallOf (im : Image) (off len : Nat) : Option Nat := im.indexAt ((off + len + 63) / 64 * 64)

/-- The edges of a block-ending instruction, the taken edge first (R156 to R161, R267, R269). -/
def Walk.exits (k : Walk) (im : Image) (i : Instr) (c : Ctl) (off : Nat) : List Exit :=
  let guarded : Bool := c.guard != .always
  let (gh, gf) := k.guardFacts c.guard
  let fall (fs : List AdmFact) (lock : Option Nat) : List Exit :=
    match im.fallOf off c.form.bytes with | some n => [⟨n, fs, lock, none⟩] | none => []
  let side : List Exit := if guarded then fall gf none else []
  match i with
  | .br _ z a b =>
    let cond : Bool := a != .zero || !z
    let (eq, ne) := k.zeroFacts a
    let lock : Option Nat := (Src.regs false a).head?.bind (fun r => (k.acq.find? (fun e => e.1 == r)).map (·.2))
    (if a = .zero ∧ !z then []
     else [⟨b.index, gh ++ (if z then eq else ne), if z then lock else none, none⟩]) ++
      (if guarded && cond then fall [] none
       else if guarded then fall gf none
       else if cond then fall (if z then ne else eq) (if z then none else lock)
       else [])
  | .brx _ _ b => ⟨b.index, gh, none, none⟩ :: side
  | .call _ x b => ⟨b.index, gh, none, some (x.val, -4)⟩ :: side
  | .ret _ x b => ⟨b.index, gh, none, some (x.val, 4)⟩ :: side
  | .exit _ => side
  | _ => fall [] none

/-- The exit state on an edge: its facts, its lock and the moved stack register. -/
def Walk.along (k : Walk) (im : Image) (e : Exit) : Walk :=
  let k := { k with
    facts := addFacts k.facts e.facts
    held := match e.lock with
      | some g => if k.held.any (fun h => h.1 == g) then k.held else k.held ++ [(g, 0)]
      | none => k.held }
  match e.shift with
  | none => k
  | some (x, d) =>
    let r : Reg := .x x
    let fs := restate k.facts (k.implied im) (.reg r) (.reg r) d
    { k with
      types := k.types.map (fun t => if t.1 = r then (r, { t.2 with fromLive := false }) else t)
      facts := addFacts (k.facts.filter (fun f => !f.names (.reg r))) fs }

/-! One instruction. -/

/-- What admission gathers as it walks an image (R179, R207, R273, R285). -/
structure Sealing where
  sites : Table Site
  ptrCmps : List Nat
  prodChecks : List Nat
  seeds : List Nat
  mmas : List (Nat × Acc)
  replayOk : Bool

/-- The sites of a word (R179): its address operand's at its offset, CPY's and CPYT's other operand's at the next. -/
def Walk.sitesOf (k : Walk) (im : Image) (i : Instr) (off : Nat) : Table Site :=
  let site (n at_ : Nat) : Table Site :=
    match k.typeAt i n with
    | none => []
    | some l =>
      match l.space im with
      | none => []
      | some sp =>
        let g := if l.cls = 5 then (match im.regions[l.spec]? with | some r => r.lregion | none => 255)
          else if l.spec < 0xFD then l.spec else 255
        [(at_, ⟨sp, g, l.pair⟩)]
  match i with
  | .cpy .. => site 2 off ++ site 3 (off + 1)
  | .cpyt .. => site 3 (off + 1)
  | .ld .. | .ldv .. | .lds .. | .st .. | .stv .. | .chk .. | .atom .. | .red .. | .lkacq .. | .lkrel .. | .pref ..
  | .swarm .. | .swait .. | .mma .. | .resld .. | .resst .. => site 2 off
  | _ => []

/-- Steps 4 to 15 of R429 at one instruction: the walk and the sealing after it. While an image is checked, its replayOk
holds the header's REPLAY. The ROLE of a SPAWN's target belongs to step 10 (log 87). -/
def Walk.step (k : Walk) (im : Image) (q : Sealing) (p : Spot) (i : Instr) (c : Ctl) : Adm (Walk × Sealing) := do
  p.none 11 (kindFault i k.uniform)
  p.none 5 (k.fileFault i)
  match k.typeFault im i c with
  | some (n, found, exp) => p.reject 6 n found exp
  | none => if k.scopeFault im i then p.reject 6 7 else pure ()
  match k.stallFault im i with
  | some d => p.reject 4 0 0 0 d.off
  | none => pure ()
  match k.proofFault im i with
  | some (n, found) => p.reject 7 n found
  | none => pure ()
  p.none 14 (k.reserveFault im i)
  let target := (blockNamed i).bind (fun n => im.blocks[n]?)
  if isCopyCmd i && !im.producer then p.reject 12 0 else pure ()
  match i, target with
  | .spawn _ _ _ _ b, some t => if t.role = 1 then p.reject 12 0 0 0 b.index else pure ()
  | _, _ => pure ()
  let checks := if isCopyCmd i && !k.producer then [p.off] else []
  let sites := k.sitesOf im i p.off
  let seeds := match i with | .frcps .. | .frsqs .. | .fexs .. | .flgs .. => [p.off] | _ => []
  let cmps := match i with | .cmp _ _ _ _ _ a _ => if k.isPtr a then [p.off] else [] | _ => []
  let j ← (match k.locks im i c with
    | .ok j => pure j
    | .error (rule, n) => do p.reject rule n; pure k : Adm Walk)
  if !k.uniform && decide (64 < k.sectorsAfter im i c) && decide (0 < k.sectorsOf im i) then p.reject 10 0 else pure ()
  match blockNamed i, target with
  | some n, none => p.reject 20 3 0 0 n
  | some n, some b =>
    match i with
    | .spawn .. => if b.uniform then p.reject 20 3 0 0 n else pure ()
    | _ => pure ()
  | none, _ => pure ()
  if needsFall i c && (im.fallOf p.off c.form.bytes).isNone then p.reject 2 0 else pure ()
  let bad := nonReplayable q.mmas i
  if bad && im.replayOk then p.reject 15 0 else pure ()
  match i with
  | .spawn _ n _ a b =>
    Walk.edge { j with facts := addFacts j.facts (j.guardFacts c.guard).1 } im p b.index (some (n.val, a.val))
  | _ => pure ()
  let e := j.apply im i c p.off
  if i.endsBlock then
    (match i with
     | .call .. | .ret .. => j.exits im i c p.off
     | _ => e.exits im i c p.off).forM (fun x =>
      Walk.edge ((match i with | .call .. | .ret .. => j | _ => e).along im x) im p x.succ none)
  else pure ()
  let mmas := match i with | .mma _ _ ci _ acc .. => (ci.val, acc) :: q.mmas | _ => q.mmas
  pure (e, ⟨q.sites ++ sites, q.ptrCmps ++ cmps, q.prodChecks ++ checks, q.seeds ++ seeds, mmas, q.replayOk && !bad⟩)

end Sys2Proof.Machine
end

