-- ==== Sys2Proof/Machine/Admission.lean ====
section
/-! DEFINITION. Admission: reading an image (R93 to R102), walking its blocks and filler (R66 to R69, R109, R261, R429),
and the verdict (R106, R274, R277). -/

namespace Sys2Proof.Machine

/-! The header and the tables. -/

/-- The block index of a fault outside every block (R107). -/
def noBlock : Nat := 0xFFFFFFFF

/-- A fault outside every block, at an image offset. -/
def outside (off : Nat) : Spot := ⟨noBlock, off⟩

/-- Rejects unless `b`. -/
def hold (b : Bool) (e : Adm Unit) : Adm Unit := if b then pure () else e

/-- The image a check reads: n bytes at an image offset, as a number, and its length. -/
structure Source where
  read : Nat → Nat → Nat
  len : Nat

/-- What the header says of where things lie (R94). -/
structure Layout where
  nblock : Nat
  nregion : Nat
  regoff : Nat
  blkoff : Nat
  annoff : Nat
  annlen : Nat
  codeoff : Nat
  codelen : Nat
  /-- The resource record's offset, if there is one. -/
  resoff : Option Nat

/-- The sections as parts of the image, each with the offset of its header field. -/
def Layout.sections (l : Layout) : List (Nat × Nat × Nat) :=
  [(0x10, l.regoff, 16 * l.nregion), (0x10, l.blkoff, 8 * l.nblock), (0x18, l.annoff, l.annlen)] ++
    (match l.resoff with | some r => [(0x30, r, 32)] | none => [])

/-- Two parts share a byte. -/
def partsMeet (a n b m : Nat) : Bool := n != 0 && m != 0 && rangesMeet a n b m

/-- The offset of the header field that breaks R93, the code section taken in its header place: the later section's where two
overlap, and the section's own where it meets the code pages (log 74). -/
def Layout.misplaced (l : Layout) (len : Nat) : Option Nat :=
  let pages := (l.codelen + 65535) / 65536 * 65536
  let all := l.sections
  let before (i : Nat) : Bool :=
    match all[i]? with
    | none => false
    | some (_, a, n) =>
      decide (len < a + n) || (all.take i).any (fun e => partsMeet a n e.2.1 e.2.2) || partsMeet a n l.codeoff pages
  let code : Bool := decide (len < l.codeoff + l.codelen) || l.codeoff == 0
  if len < 64 ∨ 2 ^ 28 < len then some 0
  else
    match [0, 1, 2].find? before with
    | some i => (all[i]?).map (·.1)
    | none => if code then some 0x20 else if before 3 then some 0x30 else none

/-- Reads the header (R94) into the image, in the order it gives. -/
def readHeader (src : Source) (im : Image) : Adm (Image × Layout) := do
  let d (i : Nat) : Nat := src.read (8 * i) 8
  let need (b : Bool) (i : Nat) : Adm Unit := hold b ((outside (8 * i)).reject 18 0)
  need (d 0 % 2 ^ 32 == 0x4D495A4B && bitsOf (d 0) 39 32 == 1 && bitsOf (d 0) 47 43 == 0 && bitsOf (d 0) 63 56 == 0) 0
  hold (decide (bitsOf (d 0) 55 48 ≤ 2)) ((outside 0).reject 1 0)
  let l : Layout :=
    { nblock := bitsOf (d 1) 63 48, nregion := bitsOf (d 1) 47 32, regoff := bitsOf (d 2) 31 0, blkoff := bitsOf (d 2) 63 32
      annoff := bitsOf (d 3) 31 0, annlen := bitsOf (d 3) 63 32, codeoff := bitsOf (d 4) 31 0, codelen := bitsOf (d 4) 63 32
      resoff := if bitOf (d 0) 42 then some (bitsOf (d 6) 31 0) else none }
  need (l.nblock != 0 && l.nregion ≤ 255 && d 1 % 2 ^ 32 != 0) 1
  need (l.blkoff % 8 == 0 && l.regoff % 8 == 0) 2
  need (l.annoff % 8 == 0) 3
  need (l.codelen % 4 == 0 && l.codelen != 0 && l.codelen ≤ 2 ^ 24 && l.codeoff % 65536 == 0) 4
  let regs := bitsOf (d 5) 23 16
  let threads := bitsOf (d 5) 15 0
  need (bitsOf (d 5) 63 40 == 0 && bitsOf (d 5) 31 24 == 0 && 1 ≤ regs && regs ≤ 64 && 1 ≤ threads && threads ≤ 8192) 5
  need (bitsOf (d 6) 63 32 == 0 && bitsOf (d 6) 31 0 % 8 == 0 && (l.resoff.isSome || bitsOf (d 6) 31 0 == 0)) 6
  need (d 7 == 0) 7
  match l.misplaced src.len with
  | some off => (outside off).reject 18 0
  | none => pure ()
  pure ({ im with
    code := im.base + l.codeoff, codeLen := l.codelen, nargs := bitsOf (d 5) 39 32, regs := regs, threads := threads
    producer := bitOf (d 0) 40, replayOk := bitOf (d 0) 41, latrev1 := bitsOf (d 0) 55 48 == 1
    pages := (List.range ((l.codelen + 65535) / 65536)).map (fun i => (im.base + l.codeoff) / 65536 + i) }, l)

/-- Reads the resource record (R95); all is zero without one. A fault is outside every block, at the doubleword's image
offset, the high field before the low one (log 74). -/
def readResources (src : Source) (l : Layout) (im : Image) : Adm Image :=
  match l.resoff with
  | none => pure im
  | some r => do
    let d (i : Nat) : Nat := src.read (r + 8 * i) 8
    let field (i v step most : Nat) : Adm Unit := do
      hold (decide (v ≤ most)) ((outside (r + 8 * i)).reject 14 0)
      hold (v % step == 0) ((outside (r + 8 * i)).reject 18 0)
    let hi (i : Nat) : Nat := bitsOf (d i) 63 32
    let lo (i : Nat) : Nat := bitsOf (d i) 31 0
    field 0 (hi 0) 64 524288
    field 0 (lo 0) 1 1048576
    field 1 (hi 1) 512 524288
    field 1 (lo 1) 64 8126464
    field 2 (hi 2) 32 8388608
    field 2 (lo 2) 32 262144
    hold (d 3 / 16 == 0) ((outside (r + 24)).reject 18 0)
    field 3 (d 3) 1 8
    pure { im with
      nearSz := hi 0, locSz := lo 0, wbuf := hi 1, colSz := lo 1, clset := hi 2, tmset := lo 2, accBanks := d 3 }

/-- A region-table entry (R97), with what must be zero in it. -/
def readRegion (a b : Nat) : Region × Bool :=
  let r : Region :=
    { space := bitsOf a 35 32, rd := bitOf a 36, w := bitOf a 37, guarded := bitOf b 8, lregion := bitsOf b 19 12
      lscope := bitsOf b 11 9, cap := bitsOf b 7 0, minLen := bitsOf a 31 0 }
  (r, a / 2 ^ 38 == 0 && b / 2 ^ 20 == 0)

/-- A region is well formed, its lock's region among all of them (R97). -/
def regionOk (all : List (Region × Bool)) (i : Nat) (r : Region) (zero : Bool) : Bool :=
  zero && (r.space == 3 || r.space == 4) &&
    (if r.guarded then
      1 ≤ r.lscope && r.lscope ≤ 4 && r.lregion != i &&
        (match all[r.lregion]? with
         | some (h, _) => !h.guarded && h.rd && h.w && (h.space == 3 || (h.space == 4 && r.lscope == 4))
         | none => false)
     else r.lregion == 0 && r.lscope == 0)

/-- Reads the region table, and asks the tenant's capabilities for each region (R97). -/
def State.readRegions (s : State) (src : Source) (l : Layout) (im : Image) : Adm Image := do
  let at_ (i : Nat) : Nat := l.regoff + 16 * i
  let all := (List.range l.nregion).map (fun i => readRegion (src.read (at_ i) 8) (src.read (at_ i + 8) 8))
  all.zipIdx.forM (fun (e : (Region × Bool) × Nat) => do
    let ((r, zero), i) := e
    hold (regionOk all i r zero) ((outside (at_ i)).reject 18 0 0 0 i)
    hold (match s.cap im.world im.tenant r.cap with
      | some c => c.kind == 1 && c.space == r.space && (!r.rd || c.rd) && (!r.w || c.w)
      | none => false) ((outside (at_ i)).reject 13 0 0 0 i))
  pure { im with regions := all.map (·.1) }

/-- Reads the block table (R98): entry and annotation offsets. -/
def readBlockTable (src : Source) (l : Layout) : Adm (List (Nat × Nat)) := do
  let all := (List.range l.nblock).map (fun i => (src.read (l.blkoff + 8 * i) 4, src.read (l.blkoff + 8 * i + 4) 4))
  all.zipIdx.forM (fun (e : (Nat × Nat) × Nat) => do
    let ((off, ann), i) := e
    let p := outside (l.blkoff + 8 * i)
    hold (off % 64 == 0) (p.reject 3 0 0 0 i)
    hold (decide (off < l.codelen) && !all.zipIdx.any (fun f => f.2 != i && f.1.1 == off)) (p.reject 18 0 0 0 i)
    hold (ann % 8 == 0 && decide (ann + 8 ≤ l.annlen)) (p.reject 18 0 0 0 i))
  pure all

/-! Annotations (R99 to R102). -/

/-- The register of a REG code (R100). -/
def regOfCode (c : Nat) : Option Reg :=
  if c < 0x40 then some (.x c)
  else if 0x50 ≤ c ∧ c < 0x57 then some (.k (c - 0x50))
  else if 0x100 ≤ c ∧ c < 0x500 then some (.s (c - 0x100))
  else none

/-- A type is one that R100 gives this register: a k register has the class cond and no other (log 75). -/
def liveTypeOk (im : Image) (r : Reg) (t : LiveType) : Bool :=
  let isK : Bool := match r with | .k _ => true | _ => false
  let ty := Ty.ofCode (BitVec.ofNat 4 t.spec)
  let wide : Bool := match ty with | some x => x.wide | none => false
  (t.cls == 7) == isK &&
    (match t.cls with
     | 1 => (t.spec == 0x0 || t.spec == 0xE) && t.pair == wide
     | 2 => decide (t.spec < 16) && (match ty with | some x => x.isInt | none => false) && t.pair == wide
     | 3 => decide (5 ≤ t.spec) && decide (t.spec ≤ 9) && !t.pair
     | 4 => if 0xFD ≤ t.spec then !t.pair else decide (t.spec < im.regions.length) && t.pair
     | 5 => (match im.regions[t.spec]? with | some g => g.guarded | none => false) && t.pair
     | 6 | 7 => t.spec == 0 && !t.pair
     | _ => false)

/-- The registers an entry covers. -/
def LiveEntry.regs (e : LiveEntry) : List Reg :=
  match e.reg with
  | .x r => if e.type.pair then [.x r, .x (r + 1)] else [.x r]
  | .s r => if e.type.pair then [.s r, .s (r + 1)] else [.s r]
  | r => [r]

/-- A live entry of a doubleword, without its range (R100); none if it is malformed. -/
def readLive (im : Image) (d : Nat) : Option LiveEntry :=
  match regOfCode (bitsOf d 10 0) with
  | none => none
  | some r =>
    let t : LiveType := ⟨bitsOf d 15 12, bitsOf d 23 16, bitOf d 24, bitOf d 25⟩
    let isS : Bool := match r with | .s _ => true | _ => false
    let narrow : Bool := match Ty.ofCode (BitVec.ofNat 4 t.spec) with | some x => !x.wide | none => false
    let ok := bitsOf d 63 27 == 0 && !bitOf d 11 && liveTypeOk im r t && (!isS || t.uniform) &&
      (!t.pair || (Reg.evenOf r).isNone) && (!bitOf d 26 || (t.cls == 2 && narrow))
    if ok then some ⟨r, t, none⟩ else none

/-- An annotation's doublewords: the i-th, and whether it lies in the section. -/
structure AnnSource where
  word : Nat → Nat
  holds : Nat → Bool

/-- Reads n live entries from doubleword j on, those before them given. -/
def readLives (im : Image) (a : AnnSource) (p : Spot) (uniform : Bool) : Nat → Nat → List LiveEntry → Adm (List LiveEntry × Nat)
  | 0, j, l => pure (l, j)
  | n + 1, j, l => do
    hold (a.holds j) (p.reject 18 8 0 0 j)
    match readLive im (a.word j) with
    | none => do p.reject 18 8 0 0 j; pure (l, j)
    | some e => do
      hold (!e.regs.any (fun r => l.any (fun f => f.regs.contains r))) (p.reject 18 8 0 0 j)
      hold (!uniform || (match e.reg with | .s _ => true | _ => false)) (p.reject 11 8 0 0 j)
      if bitOf (a.word j) 26 then do
        hold (a.holds (j + 1)) (p.reject 18 8 0 0 (j + 1))
        let r := a.word (j + 1)
        readLives im a p uniform n (j + 2) (l ++ [{ e with range := some (bitsOf r 31 0, bitsOf r 63 32) }])
      else readLives im a p uniform n (j + 1) (l ++ [e])

/-- A relation's term is one of R101; `const` is the side's code for the constant 0. -/
def termOk (im : Image) (live : List LiveEntry) (const c : Nat) : Bool :=
  c == const || (0x700 ≤ c && c ≤ 0x704) || (0x600 ≤ c && c < 0x600 + im.regions.length) ||
    live.any (fun e => regCode e.reg == c && (e.type.cls == 2 || e.type.cls == 4))

/-- Reads n relation entries (R101). -/
def readRels (im : Image) (a : AnnSource) (p : Spot) (live : List LiveEntry) (j n : Nat) :
    Adm (List (Nat × Nat × Nat × Int)) :=
  (List.range n).mapM (fun i => do
    hold (a.holds (j + i)) (p.reject 18 8 0 0 (j + i))
    let d := a.word (j + i)
    let (x, y, op) := (bitsOf d 10 0, bitsOf d 21 11, bitsOf d 23 22)
    hold (bitsOf d 31 24 == 0 && op != 3 && termOk im live 0x7FE x && termOk im live 0x7FF y &&
      !(x == 0x7FE && y == 0x7FF)) (p.reject 18 8 0 0 (j + i))
    pure (x, op, y, (BitVec.ofNat 32 (d / 2 ^ 32)).toInt))

/-- Reads n lock entries (R102). -/
def readLocks (im : Image) (a : AnnSource) (p : Spot) (j n : Nat) : Adm (List (Nat × Nat)) :=
  (List.range n).mapM (fun i => do
    hold (a.holds (j + i)) (p.reject 18 8 0 0 (j + i))
    let d := a.word (j + i)
    let (g, sc, pend) := (bitsOf d 7 0, bitsOf d 10 8, bitsOf d 12 11)
    hold (d / 2 ^ 13 == 0 && (match im.regions[g]? with
      | some r => r.guarded && r.lscope == sc && decide (pend ≤ sc)
      | none => false)) (p.reject 18 8 0 0 (j + i))
    pure (g, pend))

/-- Reads block i's annotation (R99). -/
def readBlock (im : Image) (src : Source) (l : Layout) (i off ann : Nat) : Adm Block := do
  let a : AnnSource := ⟨fun j => src.read (l.annoff + ann + 8 * j) 8, fun j => decide (ann + 8 * (j + 1) ≤ l.annlen)⟩
  let p : Spot := ⟨i, off⟩
  let h := a.word 0
  let (budget, nlock, nrel, nlive) := (bitsOf h 47 40, bitsOf h 39 32, bitsOf h 31 24, bitsOf h 23 16)
  hold (bitsOf h 63 48 == 0) (p.reject 18 8)
  hold (decide (budget ≤ 64)) (p.reject 10 8)
  hold (bitsOf h 15 2 == 0) (p.reject 18 8)
  let (live, j) ← readLives im a p (bitOf h 0) nlive 1 []
  let rels ← readRels im a p live j nrel
  let locks ← readLocks im a p (j + nrel) nlock
  pure ⟨off, ann, bitOf h 0, bitsOf h 1 1, live, rels, locks, budget⟩

/-! Words (R66 to R69, R428, R429 steps 1 to 3). -/

/-- The destination kinds an entry allows, by opcode: x, s, zero (R110 to R242); none where it allows all. -/
def dstByOp (f : Fields) : Option (Bool × Bool × Bool) :=
  match f.op with
  | 0x08 | 0x09 | 0x55 | 0x58 | 0x60 | 0x69 => some (true, false, true)
  | 0x5D => if f.mbits 1 0 = 0 then some (true, false, true) else none
  | 0x62 | 0x82 | 0x87 => some (true, false, false)
  | 0x64 => some (false, true, false)
  | 0x6B | 0x6E | 0x8D | 0xA2 | 0xA4 | 0xA8 => some (true, true, false)
  | 0x8F | 0x90 | 0xA5 | 0xA6 | 0xA7 => some (false, true, true)
  | _ => none

/-- A destination that its entry does not allow, and that is no case of ADM-11 or ADM-05 (R428 case 3). -/
def dstWrong (f : Fields) (uniform : Bool) : Bool :=
  match dstByOp f, Dst.ofSpec f.d with
  | some (x, s, z), some d =>
    match d with
    | .x _ => !uniform && !x
    | .s _ => uniform && !s
    | .zero => !z
    | _ => false
  | _, _ => false

/-- CHK names a region that does not exist (R187). -/
def symWrong (f : Fields) (nregion : Nat) : Bool := f.op == 0x65 && f.mbit 2 && decide (f.b < 255) && decide (nregion ≤ f.b)

/-- The place of a decoding error in the order of R429 step 3. -/
def DecodeErr.place : DecodeErr → Nat
  | .short | .length | .opcode => 0
  | .guard => 1
  | .d => 2 | .a => 3 | .b => 4 | .c => 5 | .type => 6 | .minor => 7 | .ext => 8

/-- Decodes a word for admission (R429 step 3): the instruction, or the operand that ADM-01 names. -/
def admDecode (f : Fields) (uniform : Bool) (nregion : Nat) : Except Nat Instr :=
  match decodeFields f with
  | .ok i => if dstWrong f uniform then .error 1 else if symWrong f nregion then .error 3 else .ok i
  | .error e =>
    if 2 < DecodeErr.place e && dstWrong f uniform then .error 1
    else if 4 < DecodeErr.place e && symWrong f nregion then .error 3
    else .error e.opnd

/-- The least block entry above an offset, or the end of the code section. -/
def Image.entryAfter (im : Image) (off : Nat) : Nat :=
  im.blocks.foldl (fun m b => if off < b.off then Nat.min m b.off else m) im.codeLen

/-- The first three steps of R429 at a code offset: the form and fields of the word. -/
def Image.wordAt (im : Image) (src : Source) (p : Spot) (off : Nat) : Adm Fields := do
  let a := im.code - im.base + off
  match Form.ofCode (src.read a 1 % 4) with
  | none => do p.reject 1 0; pure (Fields.ofWord .w64 0)
  | some form => do
    let last := off + form.bytes
    hold (off / 32 == (last - 1) / 32 && decide (last ≤ im.entryAfter off) && decide (last ≤ im.codeLen)) (p.reject 2 0)
    pure (Fields.ofWord form (src.read a form.bytes))

/-- Walks block i from a code offset (R68, R261): what it seals, and where it ends. A block has at most 128 words. Where
another block's entry stands at the block's own entry plus 0x400, the walk has reached that entry (log 74). -/
def Image.walkBlock (im : Image) (src : Source) (i start : Nat) : Nat → Nat → Walk → Sealing → Adm (Sealing × Nat)
  | 0, off, _, q => do
    Spot.reject ⟨i, start + 1024⟩ 2 0
    pure (q, off)
  | n + 1, off, k, q => do
    match im.indexAt off with
    | some j => hold (off == start) (Spot.reject ⟨i, off⟩ 2 0 0 0 j)
    | none => pure ()
    hold (decide (off < start + 1024)) (Spot.reject ⟨i, start + 1024⟩ 2 0)
    hold (decide (off < im.codeLen)) (Spot.reject ⟨i, im.codeLen⟩ 2 0)
    let p : Spot := ⟨i, off⟩
    let f ← im.wordAt src p off
    match admDecode f k.uniform im.regions.length with
    | .error o => do p.reject 1 o; pure (q, off)
    | .ok ins =>
      match ins.ctl? with
      | none => pure (q, off)
      | some c => do
        let (k, q) ← k.step im q p ins c
        let off := off + c.form.bytes
        if ins.endsBlock then pure (q, off) else im.walkBlock src i start n off k q

/-- Walks the blocks in order: what they seal, and each one's start and end. -/
def Image.walkBlocks (im : Image) (src : Source) : Adm (Sealing × List (Nat × Nat)) :=
  im.blocks.zipIdx.foldlM (fun (a : Sealing × List (Nat × Nat)) (e : Block × Nat) => do
    let (b, i) := e
    let (q, fin) ← im.walkBlock src i b.off 129 b.off (Walk.entry b) a.1
    pure (q, (b.off, fin) :: a.2)) (⟨[], [], [], [], [], true⟩, [])

/-- Checks the filler from a code offset on (R69): a word that decodes and is no NOP is rejected with OPND 0 (log 74). -/
def Image.walkFiller (im : Image) (src : Source) (spans : List (Nat × Nat)) : Nat → Nat → Adm Unit
  | 0, _ => pure ()
  | n + 1, off =>
    if im.codeLen ≤ off then pure ()
    else
      match spans.find? (fun e => e.1 == off) with
      | some (_, fin) => im.walkFiller src spans n fin
      | none => do
        let p := outside (im.code - im.base + off)
        hold (decide (off + 8 ≤ im.entryAfter off)) (p.reject 1 0)
        let f ← im.wordAt src p off
        match admDecode f true im.regions.length with
        | .ok (.nop _) => im.walkFiller src spans n (off + f.form.bytes)
        | .ok _ => p.reject 1 0
        | .error o => p.reject 1 o

/-- Checks an image in the order of R109: the image as it will be sealed, or its first fault. -/
def State.examine (s : State) (im : Image) : Adm Image := do
  let src : Source := ⟨fun a n => s.readNat im.world (im.base + a) n, im.len⟩
  let (im, l) ← readHeader src im
  let im ← readResources src l im
  let im ← s.readRegions src l im
  let table ← readBlockTable src l
  let blocks ← table.zipIdx.mapM (fun (e : (Nat × Nat) × Nat) => readBlock im src l e.2 e.1.1 e.1.2)
  let im := { im with blocks := blocks }
  let (q, spans) ← im.walkBlocks src
  im.walkFiller src spans (l.codelen / 8 + l.nblock + 1) 0
  pure { im with
    sites := q.sites, ptrCmps := q.ptrCmps, prodChecks := q.prodChecks, seeds := q.seeds, replayOk := q.replayOk
    state := .sealed }

/-! The unit (R277). -/

/-- The next submission: the earliest of the next world, round-robin, whose admission may run. -/
def State.nextSub (s : State) : Option Submission :=
  let ready := s.subs.filter (fun e => s.goes e.world)
  let least (l : List Submission) : Option Submission :=
    match (l.map (·.world)).min? with
    | none => none
    | some w => l.find? (fun e => e.world == w)
  match least (ready.filter (fun e => decide (s.admLast < e.world))) with
  | some e => some e
  | none => least ready

/-- Launches that wait for an image's verdict (R21). -/
def State.awaiting (s : State) (im : Image) : List Nat :=
  (s.launches.filter (fun e => e.2.world == im.world && e.2.tenant == im.tenant && e.2.image == im.id &&
    e.2.state == .held && !e.2.checked)).map (·.1)

/-- Gives a verdict: the image is sealed or forgotten, and the launches that wait for it are checked (R21, R106, R274). -/
def State.judge (s : State) (e : Submission) (im : Image) : State :=
  let s := { s with subs := s.subs.filter (fun x => x.order != e.order), admLast := e.world }
  match s.examine im with
  | .ok im' =>
    let s := { s with images := tset s.images e.order im' }
    let s := s.writeVerdict e.world e.verdict 1 e.id im'.replayOk im'.pages.length im'.code none
    (s.awaiting im).foldl (fun s i => s.checkLaunch i) s
  | .error f =>
    let s := { s with images := tdel s.images e.order }
    let s := s.writeVerdict e.world e.verdict 2 e.id false 0 0 (some f)
    (s.awaiting im).foldl (fun s i => s.checkLaunch i) s

/-- The admission unit takes its next submission (R277), whose image it reads (R412). -/
def execAdmission (s : State) : Host.Outcome State Fault Refusal :=
  match s.nextSub with
  | none => .next s
  | some e =>
    match tget s.images e.order with
    | none => .next s
    | some im =>
      s.captured e.world im.base im.len (fun s => s.judge e im)

end Sys2Proof.Machine
end

