-- ==== Sys2Proof/Machine/EngineEvents.lean ====
section
/-! DEFINITION. What the engines and the return path do of themselves: results arriving (R83), copy parts (R218,
R331 to R340), matrix operations (R228 to R233, R355), drains (R235 to R240). -/

namespace Sys2Proof.Machine

/-- RESULT_ARRIVAL (R83): a result arrives, or the next part of a load, or an atomic, performs. -/
def execResultArrival (id : Nat) (s : State) : Host.Outcome State Fault Refusal :=
  match tget s.pends id with
  | none => .next s
  | some p =>
    match p.kind with
    | .ready ws => .next (State.arrive { s with pends := tdel s.pends id } p.agent ws)
    | .load .. => .next (s.performLoad id p)
    | .atomic .. => .next (s.performAtomic id p)
    | .lost _ => .next s

/-! Copy parts (R218, R331 to R340). -/

/-- A byte of near or column memory of a cluster. -/
def State.clusterByte (s : State) (c : Nat) (sp : Space) (a : Nat) : Byte :=
  match tget s.clusters c with
  | some k => if sp = .col then k.col.read a else k.near.read a
  | none => 0

/-- Writes bytes of it. -/
def State.clusterWrites (s : State) (c : Nat) (sp : Space) (a : Nat) (b : List Byte) : State :=
  s.modCluster c (fun k => if sp = .col then { k with col := k.col.writeN a b } else { k with near := k.near.writeN a b })

/-- Bytes delivered count (R257; log 13). -/
def State.countCopied (s : State) (r : CopyReq) (n : Nat) : State :=
  match s.place r.team with | some p => s.count p r.core 7 n | none => s

/-- Bytes delivered in the one place they go to count (R224, R257). -/
def State.countMoved (s : State) (r : CopyReq) (n : Nat) : CopyReq × State :=
  ({ r with moved := r.moved + n }, s.countCopied r n)

/-- The sync words of a request are to count n final bytes (R202, R335). -/
def CopyReq.owe (r : CopyReq) (n : Nat) : CopyReq := { r with owed := r.owed ++ r.syncs.map (fun a => (a, n)) }

/-- A sync word counts the bytes of a part; one on a core being reset does not, and the request fails (R202, R335, R340). -/
def State.copyCount (s : State) (id : Nat) (r : CopyReq) (a n : Nat) : State :=
  let r := { r with owed := r.owed.erase (a, n) }
  if s.memberDown r.cluster (a / 2 ^ 19) then s.failCopy id r 1
  else
    match s.place r.team with
    | some p => (s.setSyncWord p a ((s.syncWord p a).arrive n)).endCopy id r
    | none => s.endCopy id r

/-- A part lands in a member (R336), or is dropped, with the request, where that core is being reset (R340). Bytes count once
they have landed in every member (R224, R257). -/
def State.copyLand (s : State) (id : Nat) (r : CopyReq) (f : Flight) : State :=
  let before := r.done
  let r := { r with flights := r.flights.erase f }
  if s.memberDown r.cluster f.member then s.failCopy id { r with moved := r.moved - f.bytes.length } 1
  else
    let s := (s.clusterWrites r.cluster .near f.addr f.bytes).countCopied r (r.done - before)
    let r := match r.target with
      | .sync a => { r with owed := r.owed ++ [(f.member * 2 ^ 19 + a % 2 ^ 19, f.bytes.length)] }
      | .barrier _ => r
    s.endCopy id r

/-- The marks whose tiles' bytes are all final (R212), and the bytes of tile state that they set. -/
def CopyReq.finals (r : CopyReq) : List TileMark := r.marks.filter (fun m => !m.l2.any (fun t => r.claims.contains t))

/-- A mark's tile bits are set, by an engine of a cluster (R212, R385). -/
def State.setMark (s : State) (w cluster : Nat) (m : TileMark) : State :=
  ((s.setTileBit w m.febase (2 * m.tile) true).setTileBit w m.febase (2 * m.tile + 1) true).placedBy w cluster m.place

/-- Places a gathered tile whole at home (R334), once its turn has come: no earlier claim, nothing that moves the page, the
tensor or the tile state (R325, R326, R333), and tokens for the tile and for each byte of tile state (R357). A tile that has
come to be one that R212 refuses, or a byte that has come to be read-only, fails the request. -/
def State.placeTile (s : State) (id : Nat) (r : CopyReq) (tile : Nat) : State :=
  let w := r.world
  let who := Writer.copy id tile
  let part := r.staging.filter (fun e => e.1 / 512 == tile)
  let r' := { r with
    staging := r.staging.filter (fun e => e.1 / 512 != tile)
    claims := r.claims.filter (· != tile)
    parts := r.parts.filter (fun e => e.1 / 512 != tile) }
  let may : Bool := s.mayWrite w who (tile * 512) 512 r.record &&
    r'.finals.all (fun m => s.mayWrite w who m.place 1 r.record)
  if s.claimedBy w tile id true then s
  else if !may then s.queueWriter w who
  else if s.copyRefused w (tile * 512) || s.readOnly w (tile * 512) || r'.finals.any (fun m => s.readOnly w m.place) then
    (s.wrote w who).failCopy id r' 3
  else
    match s.place r.team with
    | none => (s.wrote w who).endCopy id r'
    | some p =>
      let left := (((part.map (fun e => e.1 / 32)).eraseDups).length :: r'.finals.map (fun _ => 1)).drop r.tok
      match s.gatherTokens p r.core id left with
      | (n, s) =>
        if n ≠ left.length then { s with copies := tset s.copies id { r with tok := r.tok + n } }
        else
        let s := part.foldl (fun s e => (s.devWrite w e.1 e.2).placedBy w r.cluster e.1) (s.wrote w who)
        let s := r'.finals.foldl (fun s m => s.setMark w r.cluster m) s
        let r' := { r' with marks := r'.marks.filter (fun m => !r'.finals.contains m), tok := 0 }
        let (r', s) := s.countMoved r' part.length
        s.endCopy id ((r.parts.filter (fun e => e.1 / 512 == tile)).foldl (fun q e => q.owe e.2) r')

/-- Where the pages of a request's host bytes lie; or the request parks or fails (R220, R337, R373, R378). -/
def State.copyPages (s : State) (id : Nat) (r : CopyReq) (a n : Nat) (read write : Bool) :
    Except State (Frames × State) :=
  match s.place r.team with
  | none => .error s
  | some p =>
    let who := Waiter.copy id
    match s.translateRange (r.core / 128) r.world p.launch.pasid a n write with
    | .ok xl s => .ok (xl, s.clearTries who)
    | .invalid _ s => .error ((s.clearTries who).failCopy id r 2)
    | .miss page s =>
      if 3 ≤ s.triesOf who page then .error ((s.clearTries who).failCopy id r 2)
      else
        let (q, s) := s.joinRequest r.world p.launch.pasid page read write who (Nat.max a (page * 4096))
        .error { s with copies := tset s.copies id { r with state := .parked q } }

/-- The bytes [a, a + n) of host memory, as translated. -/
def State.hostBytes (s : State) (xl : Frames) (a n : Nat) : List Byte :=
  (List.range n).map (fun i => match xl.phys (a + i) with | some pa => s.hostMem.read pa | none => 0)

/-- Writes bytes of host memory, as translated, for a context. -/
def State.hostWrites (s : State) (w : Nat) (xl : Frames) (ctx : Option Nat) : Nat → List Byte → State
  | _, [] => s
  | a, b :: l => State.hostWrites (s.hostWrite w xl ctx a b) w xl ctx (a + 1) l

/-- Tokens for a request's access of [a, a + n), or the state in which it waits for them (R357). -/
def State.copyTokens (s : State) (id : Nat) (r : CopyReq) (a n : Nat) : Except State State :=
  match s.place r.team with
  | none => .error s
  | some p => match s.takeTokens p r.core (sectorsOf a n) id with | (true, s) => .ok s | (false, s) => .error s

/-- How a tile that a request reads is encrypted, and whether it holds anything: by the record that it looked up, where a
migration has moved the tensor since (R326). -/
def CopyReq.ivOf (r : CopyReq) (s : State) (a : Nat) : Iv × Bool :=
  match r.before with
  | some t => if t.conf ∧ t.base ≤ a ∧ a < t.base + t.tiles * t.tileBytes then s.ivIn r.world t a else s.ivOf r.world a
  | none => s.ivOf r.world a

/-- Reads n bytes of a request's source (R218, R333, R385): an error is the state in which it waits, parks or fails. -/
def State.copyRead (s : State) (id : Nat) (r : CopyReq) (row : Row) (a n : Nat) : Except State (List Byte × State) :=
  match row.src with
  | .zeros => .ok (List.replicate n 0, s)
  | .wbuf core => .ok ((s.wbuf core).readN a n, s)
  | .mem .dev =>
    if (List.range ((a + (n - 1)) / 512 - a / 512 + 1)).any (fun i => s.claimedBy r.world (a / 512 + i) id false) then
      .error s
    else if s.hostMay r.world a n then .error (s.snoopLines r.world a n)
    else
      match s.copyTokens id r a n with
      | .error s => .error s
      | .ok s =>
        let iv := r.ivOf s
        match s.fillBy r.world iv a n with
        | (true, s) => .ok ((List.range n).map (fun i => s.readBy r.world (iv (a + i)) (a + i)), s)
        | (false, s) => .error { s with copies := tset s.copies id { r with lost := true } }
  | .mem .host =>
    match s.copyPages id r a n true false with
    | .error s => .error s
    | .ok (xl, s) =>
      match s.copyTokens id r a n with
      | .error s => .error s
      | .ok s => .ok (s.hostBytes xl a n, s.touchRange r.world xl a n false none)
  | .mem sp => .ok ((List.range n).map (fun i => s.clusterByte r.cluster sp (a + i)), s)

/-- Opens the row under way of a bounced request (R222, R413): its plaintext, or the state in which it waits or fails. -/
def State.openRow (s : State) (id : Nat) (r : CopyReq) (row : Row) : Except State (List Byte × State) :=
  let turn := !s.copies.any (fun e => decide (e.1 < id) && e.2.world == r.world && e.2.bounce && e.2.chan == r.chan &&
    !e.2.rows.isEmpty)
  let ch := ((s.world r.world).chans[r.chan]?).getD ⟨false, [], 0, 0⟩
  if !turn then .error s
  else if !ch.opened || decide (2 ^ 32 - 1 < ch.count) then .error (s.failCopy id r 3)
  else
    match s.copyPages id r row.sa (row.len + 16) true false with
    | .error s => .error s
    | .ok (xl, s) =>
      let s := (s.touchRange r.world xl row.sa (row.len + 16) false none).setWorld r.world (fun x => { x with
        chans := x.chans.setIfInBounds r.chan { ch with count := ch.count + 1 } })
      let nonce := ch.nonce.toNat / 2 ^ 32 * 2 ^ 32 + ch.count
      match gcmOpen ch.key nonce (s.hostBytes xl row.sa row.len) (s.hostBytes xl (row.sa + row.len) 16) with
      | some l => .ok (l, s)
      | none => .error (s.failCopy id r 3)

/-- The next part of a request, n bytes at the row's place: what has been read already, or is read now (R218, R222, R337);
the request has it from then on. -/
def State.copyFetch (s : State) (id : Nat) (r : CopyReq) (row : Row) (n : Nat) : Except State (CopyReq × State) :=
  if !r.buf.isEmpty then .ok (r, s)
  else if !row.tag then
    (s.copyRead id r row (row.sa + r.pos) n).map (fun e => ({ r with buf := e.1 }, e.2))
  else
    match (if r.plain.isEmpty then s.openRow id r row else .ok (r.plain, s)) with
    | .error s => .error s
    | .ok (plain, s) =>
      let r := { r with plain := plain }
      match s.copyTokens id r (row.sa + r.pos) n with
      | .error s => .error { s with copies := tset s.copies id r }
      | .ok s => .ok ({ r with buf := (plain.drop r.pos).take n }, s)

/-- Moves n bytes on in the rows. -/
def CopyReq.advance (r : CopyReq) (n : Nat) : CopyReq :=
  let r := { r with buf := [] }
  match r.rows with
  | [] => r
  | a :: l => if a.len ≤ r.pos + n then { r with rows := l, pos := 0, plain := [] } else { r with pos := r.pos + n }

/-- A part is final in the one place it goes to. -/
def State.copyFinal (s : State) (id : Nat) (r : CopyReq) (n : Nat) : State :=
  let (r, s) := s.countMoved (r.advance n) n
  s.endCopy id (r.owe n)

/-- Delivers a part to its destination (R218, R221, R226, R334, R336): a near or column part lands, or sets out for its
members; one for a core being reset is dropped, with its request (R340). -/
def State.copyPut (s : State) (id : Nat) (r : CopyReq) (row : Row) : State :=
  let a := row.da + r.pos
  let b := r.buf
  let wait (s : State) : State := { s with copies := tset s.copies id r }
  match row.dst with
  | .zeros => s.copyFinal id r b.length
  | .wbuf core =>
    let use := s.wbufUses.find? (fun u => u.owner == id)
    if (match use with | some u => s.wbufBusy core u.lo u.hi true (some id) | none => false) then wait s
    else if s.coreDown core then s.failCopy id r 1
    else State.copyFinal { s with wbufs := tset s.wbufs core ((s.wbuf core).writeN a b) } id r b.length
  | .mem .dev =>
    s.endCopy id { r.advance b.length with
      staging := r.staging ++ b.zipIdx.map (fun e => (a + e.2, e.1)), parts := r.parts ++ [(a, b.length)] }
  | .mem .host =>
    match s.copyPages id r a b.length false true with
    | .error s => s
    | .ok (xl, s) =>
      match s.copyTokens id r a b.length with
      | .error s => wait s
      | .ok s => (s.hostWrites r.world xl ((s.place r.team).map (fun p => p.launch.ctx)) a b).copyFinal id r b.length
  | .mem sp =>
    let size := if sp = .col then 2 ^ 23 else 2 ^ 19
    match r.members with
    | none =>
      if s.memberDown r.cluster (a / size) then s.failCopy id r 1
      else (s.clusterWrites r.cluster sp a b).copyFinal id r b.length
    | some ms =>
      let r := r.advance b.length
      s.endCopy id { r with
        moved := r.moved + b.length, flights := r.flights ++ ms.map (fun m => ⟨m, m * size + a % size, b⟩) }

/-- Reads and delivers the next part: up to the end of the destination's 32-byte sector. -/
def State.copyPart (s : State) (id : Nat) (r : CopyReq) (row : Row) : State :=
  let n := Nat.min (row.len - r.pos) (32 - (row.da + r.pos) % 32)
  match s.copyFetch id { r with state := .active } row n with
  | .error s => s
  | .ok (r, s) => s.copyPut id r row

/-- What a request may do next. -/
inductive CopyMove where
  | count (addr n : Nat)
  | land (f : Flight)
  | tile (t : Nat)
  | part (row : Row)
  deriving DecidableEq, Repr

/-- Arrivals that are owed, the first part on its way to each member, the first claimed tile once it is gathered, and the
next part, unless the request is parked or reads no more (R218, R334 to R337, R412). -/
def CopyReq.moves (r : CopyReq) : List CopyMove :=
  let parked : Bool := match r.state with | .parked _ => true | _ => r.lost
  let first (f : Flight) : Bool := (r.flights.find? (fun g => g.member == f.member)) == some f
  r.owed.eraseDups.map (fun e => .count e.1 e.2) ++ (r.flights.filter first).eraseDups.map .land ++
    (match r.claims with | t :: _ => if r.gathered t then [.tile t] else [] | [] => []) ++
    (match r.rows with | row :: _ => if parked then [] else [.part row] | [] => [])

/-- COPY_DELIVERY (R218): one of the things a request may do next. -/
def execCopyDelivery (req : Nat) (s : State) : Host.Outcome State Fault Refusal :=
  match tget s.copies req with
  | none => .next s
  | some r =>
    let saved : Bool := match tget s.clusters r.cluster with | some c => c.saved | none => false
    if saved then .next s
    else
      match s.pick r.moves with
      | none => .next s
      | some (.count a n, s) => .next (s.copyCount req r a n)
      | some (.land f, s) => .next (s.copyLand req r f)
      | some (.tile t, s) => .next (s.placeTile req r t)
      | some (.part row, s) => .next (s.copyPart req r row)

/-! Matrix operations (R228 to R233, R355). -/

/-- Quarters of the array that an operation holds (R232). -/
def MOp.quarters (o : MOp) : Nat := if o.acc.quad then 4 else 1

/-- The core cycles it takes (R232). -/
def MOp.time (o : MOp) : Nat :=
  match o.mode with
  | .ds8 => o.k + 24
  | .ds4 => o.k / 2 + 24
  | .bfds8 => 2 * o.k + 24
  | .bfbf => 4 * o.k + 24

/-- Everything but the surge arbiter lets an operation start (R228, R232). -/
def State.mmaReady (s : State) (id : Nat) (o : BankOp) : Bool :=
  match o.kind with
  | .mma op =>
    let used := s.bankOps.foldl (fun n e =>
      match e.2.kind with
      | .mma q => if e.2.core = o.core ∧ e.2.started then n + q.quarters else n
      | _ => n) 0
    let slotFree := match s.wbufUses.find? (fun u => u.owner == id) with
      | some u => !s.wbufBusy o.core u.lo u.hi false (some id)
      | none => true
    !o.started && s.bankTurn id o.core o.banks && decide (used + op.quarters ≤ 4) && slotFree
  | _ => false

/-- MATRIX_START (R232): the operation reads its panel and slot, and holds its quarters until it is done. -/
def execMatrixStart (op : Nat) (s : State) : Host.Outcome State Fault Refusal :=
  match tget s.bankOps op with
  | none => .next s
  | some o =>
    match o.kind, s.place o.team with
    | .mma m, some p =>
      match p.team.mres with
      | none => .next s
      | some r =>
        if !s.mmaReady op o || !p.team.surge then .next s
        else
          let panel (i : Nat) : Nat := (s.clusterByte p.team.cluster m.space (m.panel + i)).toNat
          let slot (i : Nat) : Nat := ((s.wbuf o.core).read (r.wbuf + m.slot * 512 + i)).toNat
          let res := o.banks.zipIdx.map (fun e => mmaBank m panel slot (s.bank o.core e.1) e.2)
          .next { s.spend p o.core 5 m.time with
            bankOps := tset s.bankOps op { o with started := true, result := res }
            wbufUses := s.wbufUses.filter (fun u => u.owner != op) }
    | _, _ => .next s

/-- The quarter of a core (R355). -/
def quarterOf (core : Nat) : Nat := core / 128 * 4 + core % 128 / 64 * 2 + core % 16 / 8

/-- The teams of running contexts whose next operation would start but for the surge arbiter. -/
def State.surgeTeams (s : State) : List Nat :=
  (s.bankOps.filterMap (fun e =>
    match s.place e.2.team with
    | some p =>
      if !p.team.surge && (s.slotOf p.launch).runs && s.mmaReady e.1 e.2 then some e.2.team else none
    | none => none)).eraseDups

/-- A team asks the arbiter when its operation would otherwise start. -/
def State.settleSurge (s : State) : State :=
  s.surgeTeams.foldl (fun s team => s.modTeam team (fun t =>
    { t with surgeAsk := t.surgeAsk.orElse (fun _ => some s.now) })) s

/-- SURGE_GRANT (R355): of the teams of a quarter that ask, the one that asked first passes the arbiter, or of those the one
on the lowest core. -/
def execSurgeGrant (quarter : Nat) (s : State) : Host.Outcome State Fault Refusal :=
  let asks := s.surgeTeams.filterMap (fun team =>
    match tget s.teams team with
    | some t => if quarterOf t.home = quarter then t.surgeAsk.map (fun a => (team, a * 512 + t.home)) else none
    | none => none)
  match leastBy (fun e => e.2) asks with
  | [] => .next s
  | e :: _ => .next (s.modTeam e.1 (fun t => { t with surge := true, surgeAsk := none }))

/-- MATRIX_DONE (R60, R232): the banks take the sums. -/
def execMatrixDone (op : Nat) (s : State) : Host.Outcome State Fault Refusal :=
  match tget s.bankOps op with
  | none => .next s
  | some o =>
    if !o.started then .next s
    else
      .next { s with
        bankOps := tdel s.bankOps op
        accs := (o.banks.zip o.result).foldl (fun a e => tset a (o.core * 8 + e.1) e.2) s.accs }

/-! Drains (R235 to R240). -/

/-- The bytes of device memory that a drain writes, as ranges: its tile and scale bytes, and the tile's state. -/
def TileWrite.ranges (d : TileWrite) : List (Nat × Nat) :=
  (d.drain.febase + d.drain.tile / 4, 1) :: d.runs.map (fun e => (e.1, e.2.length))

/-- DRAIN_COMPLETE (R236, R237): the tile and its scale bytes are written, once earlier claims are placed (R333), nothing
moves the pages or the tensor (R325, R326), and there are tokens for each L2 tile and for the byte of tile state (R357); and F
and W become 1. -/
def execDrainComplete (op : Nat) (s : State) : Host.Outcome State Fault Refusal :=
  match tget s.drains op with
  | none => .next s
  | some d =>
    match s.place d.team with
    | none => .next { s with drains := tdel s.drains op }
    | some p =>
      let w := p.launch.world
      let who := Writer.drain op
      if d.drain.claims.any (fun t => s.claimedBy w t op true) then .next s
      else if d.ranges.any (fun e => !s.mayWrite w who e.1 e.2 d.drain.record) then .next (s.queueWriter w who)
      else if s.drainRefused w d.drain then
        let s := State.wrote { s with drains := tdel s.drains op } w who
        .next (if p.team.ended then s.teamRecord d.team 0x13 d.off d.drain.record
          else s.trapTeam d.team 0x13 d.off d.drain.record)
      else
        let left := (d.ranges.flatMap (fun e => accessesOf e.1 e.2)).drop d.tok
        match s.gatherTokens p d.core op left with
        | (n, s) =>
          if n ≠ left.length then .next { s with drains := tset s.drains op { d with tok := d.tok + n } }
          else
            let s := State.wrote { s with drains := tdel s.drains op } w who
            let s := d.runs.foldl (fun s e => s.homeWrites p .dev [] e.1 e.2) s
            .next (s.setMark w p.team.cluster ⟨d.drain.febase, d.drain.tile, []⟩)

end Sys2Proof.Machine
end

