-- ==== Sys2Proof/Machine/HostLink.lean ====
section
/-! DEFINITION. Harts (R16, R19), revocation (R275, R276), page requests and invalidations (R377, R378, R380), the
host's view of device memory (R382 to R385) and windows (R387, R388). -/

namespace Sys2Proof.Machine

/-! Harts and the host. -/

/-- What an AMO leaves. -/
def amoNew (op : AmoOp) (n : Nat) (old v : Nat) : Nat :=
  let m := 2 ^ (8 * n)
  let sg (x : Nat) : Int := if m ≤ 2 * x then (x : Int) - m else x
  let v := v % m
  match op with
  | .swap => v
  | .add => (old + v) % m
  | .and => old &&& v
  | .or => old ||| v
  | .xor => old ^^^ v
  | .min => if sg old ≤ sg v then old else v
  | .max => if sg old ≤ sg v then v else old
  | .minu => Nat.min old v
  | .maxu => Nat.max old v

/-- The bytes an access touches. -/
def hartLen : HartOp → Nat
  | .load n => n
  | .store b => b.length
  | .amo _ n _ => n
  | .tag | .putTag _ | .replay .. => 0

/-- An access that writes. -/
def hartWrites : HartOp → Bool
  | .load _ => false
  | _ => true

/-- What an access writes where the bytes before it are `old`. -/
def hartStored (op : HartOp) (old : List Byte) : List Byte :=
  match op with
  | .load _ | .tag | .putTag _ | .replay .. => []
  | .store b => b
  | .amo o n v => bytesOfNat n (amoNew o n (natOfBytes old) v.toNat)

/-- The payload of a logged write: address and bytes (R417). -/
def writePayload (a : Nat) (b : List Byte) : List Byte := bytesOfNat 8 a ++ b

/-- An access of a hart or of the host may not go on yet: a claimed tile (R333), a page being moved (R325), or a write the log
has no room for (R417). -/
def State.accessWaits (s : State) (w a : Nat) (op : HartOp) (i : Instr) : Bool :=
  s.claimedRange w a (hartLen op) ||
    (hartWrites op && (!s.mayWrite w (.outside i) a (hartLen op) 0 || !s.logRoom w (logUnits (8 + (hartLen op)))))

/-- It waits, and if for a page being moved, behind the others that do. -/
def State.accessHeld (s : State) (w a : Nat) (op : HartOp) (i : Instr) : State :=
  (if hartWrites op && !s.mayWrite w (.outside i) a (hartLen op) 0 then s.queueWriter w (.outside i) else s).retry i

/-- An access that reads what lies there: a load or an AMO. -/
def hartReads : HartOp → Bool
  | .store _ => false
  | _ => true

/-- An access that faults: outside the world's memory, or a write to a read-only page (R19, R274). -/
def State.accessFaults (s : State) (w a : Nat) (op : HartOp) : Bool :=
  !s.devRange w a (hartLen op) || (hartWrites op && (List.range (hartLen op)).any (fun i => s.readOnly w (a + i)))

/-- Says something to the outside. -/
def State.say (s : State) (o : Output) : State := { s with outbox := s.outbox ++ [o] }

/-- The side-band tag of the L2 tile at a package address (R412); free where no world wrote it. -/
def State.tagOf (s : State) (p : Nat) : BitVec 56 × State :=
  let free : BitVec 56 × State := let (n, s) := s.draw; (BitVec.ofNat 56 n, s)
  match tget s.seals (p / 512) with
  | some (.dead t) => (t, s)
  | some (.live w iv) => match s.keys w with | some k => (iv.tag k (s.rawBytes (p / 512 * 512) 512), s) | none => free
  | _ => free

/-- What the monitor does for a migration by replay (R416, R418; log 83): it takes a tile's tag out, or puts one in with the bytes
that lie there, or has a world's next completion records bear the times of the log. -/
def monitorAccess (addr : DWord) (op : HartOp) (s : State) : Host.Outcome State Fault Refusal :=
  match op, s.devAddr 0 addr.toNat with
  | .tag, some p => let (t, s) := s.tagOf p; .next (s.say (.value 0 (bytesOfNat 7 t.toNat)))
  | .putTag t, some p =>
    let base := p / 512 * 512
    .next { s with hbm := s.hbm.writeN base (s.rawBytes base 512), seals := tset s.seals (p / 512) (.dead t) }
  | .replay w times, _ => .next (s.setWorld w (fun x => { x with replay := times }))
  | _, _ => .next s

/-- A hart's access to device memory (R16, R19, R274, R325, R333, R412, R417). A line that the host may hold is asked back
before it is read (R385). -/
def hartDevice (w : Nat) (addr : DWord) (op : HartOp) (s : State) : Host.Outcome State Fault Refusal :=
  let a := addr.toNat
  let i := Instr.hartAccess w addr op
  if s.accessFaults w a op then .next (s.say (.accessFault w a))
  else if s.accessWaits w a op i then .next (s.accessHeld w a op i)
  else if hartReads op && s.hostMay w a (hartLen op) then .next ((s.snoopLines w a (hartLen op)).retry i)
  else s.captured w a (hartLen op) (fun s =>
    let old := (List.range (hartLen op)).map (fun i => s.devRead w (a + i))
    let new := hartStored op old
    let s := if hartWrites op then ((s.wrote w (.outside i)).devPokes w a new).logRecord w 3 (writePayload a new) else s
    if hartReads op then s.say (.value w old) else s)

/-- The host holds a line: the byte it has of an address. -/
def State.heldByte (s : State) (w a : Nat) : Option Byte :=
  (s.shared.find? (fun e => e.world == w && e.line == a / 64)).bind (fun e => e.bytes[a % 64]?)

/-- The host comes to hold the lines of [a, a + n). -/
def State.holdLines (s : State) (w a n : Nat) : State :=
  (List.range ((a + (n - 1)) / 64 - a / 64 + 1)).foldl (fun s i =>
    let line := a / 64 + i
    if s.shared.any (fun e => e.world == w && e.line == line) then s
    else
      let b := (List.range 64).map (fun j => s.devRead w (64 * line + j))
      { s with shared := s.shared ++ [⟨w, line, b, false, []⟩] }) s

/-- A host write of one byte, placed in the home order; a line the host holds has it too (R385). -/
def State.hostPoke (s : State) (w a : Nat) (b : Byte) : State :=
  let s := (s.histCopy w a).devRaw w a b
  { s with shared := s.shared.map (fun e =>
      if e.world = w ∧ e.line = a / 64 then { e with bytes := e.bytes.set (a % 64) b } else e) }

/-- HOST_CXL_ACCESS (R314, R385): a load sees a line the host holds, else the line at home, which it then holds. -/
def execHostCxlAccess (w : Nat) (addr : DWord) (op : HartOp) (s : State) : Host.Outcome State Fault Refusal :=
  let a := addr.toNat
  let i := Instr.hostCxlAccess w addr op
  if hartLen op = 0 then .next s
  else if s.accessFaults w a op then .next (s.say (.accessFault w a))
  else if s.accessWaits w a op i then .next (s.accessHeld w a op i)
  else s.captured w a (hartLen op) (fun s =>
    let s := s.holdLines w a (hartLen op)
    let old := (List.range (hartLen op)).map (fun i => (s.heldByte w (a + i)).getD (s.devRead w (a + i)))
    let new := hartStored op old
    let s := if hartWrites op then
        (new.zipIdx.foldl (fun s e => s.hostPoke w (a + e.2) e.1) (s.wrote w (.outside i))).logRecord w 3 (writePayload a new)
      else s
    if hartReads op then s.say (.value w old) else s)

/-- BIRSP (R385): the host gives a line up; what was placed in it is at system level. -/
def execBirsp (w : Nat) (line : DWord) (s : State) : Host.Outcome State Fault Refusal :=
  .next { s with shared := s.shared.filter (fun e => !(e.world == w && e.line == line.toNat && e.snooped)) }

/-- HOST_SNOOP (R382, R383): whether the port's filter holds the line, and the bytes of a dirty one, which the host has from then on;
an invalidating snoop takes the line away. The bytes for which the host sent it, by their places in the line, are then its
stores to host memory (R314; log 72). -/
def execHostSnoop (port : Nat) (line : DWord) (kind : Snoop) (s : State) : Host.Outcome State Fault Refusal :=
  let n := line.toNat
  let here : Bool := port == natOfBool (Config.hostPort n)
  let mine := if here then s.hostLines.find? (fun e => e.line == n) else none
  let dirty : Bool := match mine with | some e => e.dirty | none => false
  let data := if dirty then some (s.hostMem.readN (n * 64) 64) else none
  let s : State := match kind with
    | .share =>
      { s with hostLines := s.hostLines.map (fun (e : HostLine) =>
          if here && e.line == n then { e with dirty := false, ctx := none } else e) }
    | .invalidate store =>
      { s with
        hostLines := s.hostLines.filter (fun e => !(here && e.line == n))
        hostMem := store.foldl (fun m e => m.write (n * 64 + e.1 % 64) e.2) s.hostMem }
  .next (s.say (.snoop port line mine.isSome data))

/-! Revocation (R275, R276). -/

/-- The image's code section has a page in a 2 MiB page. -/
def Image.codeIn (i : Image) (page : Nat) : Bool :=
  decide (i.code / bigPage ≤ page) && decide (page ≤ (i.code + (i.codeLen - 1)) / bigPage)

/-- An admission is abandoned: the verdict has STATUS 3, and the image is not held any more. -/
def State.abandon (s : State) (id : Nat) (i : Image) : State :=
  let s := { s with images := tdel s.images id, subs := s.subs.filter (fun e => e.order != id) }
  s.writeVerdict i.world i.verdict 3 i.id false 0 0 none

/-- Launches that wait on an image that is not held any more complete with status 3 (R21, R275). -/
def State.dropHeld (s : State) (i : Image) : State :=
  s.launches.foldl (fun s e =>
    let l := e.2
    if l.world = i.world ∧ l.tenant = i.tenant ∧ l.image = i.id ∧ (l.state = .captured ∨ l.state = .held) then
      s.finishLaunch e.1 3
    else s) s

/-- The pages of an access to device memory as they are mapped now, where it has none yet. -/
def State.pinned (s : State) (w a n : Nat) (xl : Frames) : Frames :=
  if xl.isEmpty then
    (List.range ((a + (n - 1)) / 4096 - a / 4096 + 1)).filterMap (fun i =>
      (s.devAddr w ((a / 4096 + i) * 4096)).map (fun p => (a / 4096 + i, ⟨p / 4096, false⟩)))
  else xl

/-- An access under way to a page of device memory goes on with the translation that it was issued under (R380, R381). -/
def State.pin (s : State) (w : Nat) (page : Nat → Bool) (e : Nat × Pend) : Nat × Pend :=
  let hits (a n : Nat) : Bool := page (a / bigPage) || page ((a + (n - 1)) / bigPage)
  match e.2.kind, s.place e.2.agent.team with
  | .load .dev a n got t dst xl, some p =>
    if p.launch.world = w ∧ hits a n then (e.1, { e.2 with kind := .load .dev a n got t dst (s.pinned w a n xl) }) else e
  | .atomic .dev a sc op t lanes xl, some p =>
    if p.launch.world = w ∧ hits a t.bytes then
      (e.1, { e.2 with kind := .atomic .dev a sc op t lanes (s.pinned w a t.bytes xl) })
    else e
  | _, _ => e

/-- The device's own invalidation of pages of a world, before their translations change (R380, R381): accesses issued earlier
keep theirs, and its completion waits for them. -/
def State.invalidate (s : State) (w : Nat) (page : Nat → Bool) : State :=
  let pends := s.pends.map (s.pin w page)
  let old := (pends.filter (fun e =>
    match e.2.kind with | .load .dev _ _ _ _ _ xl | .atomic .dev _ _ _ _ _ xl => !xl.isEmpty | _ => false)).map (·.1)
  { s with pends := pends, invals := s.invals ++ [⟨w, old, true⟩] }

/-- Images of a world that a change of pages' translations touches: admissions are abandoned (R276), and sealed images begin
to be revoked (R275). -/
def State.revoke (s : State) (w : Nat) (page : Nat → Bool) : State :=
  let within (a n : Nat) : Bool :=
    (List.range ((a + (n - 1)) / bigPage - a / bigPage + 1)).any (fun i => page (a / bigPage + i))
  s.images.foldl (fun s e =>
    let i := e.2
    if i.world = w ∧ i.state = .submitted ∧ within i.base i.len then (s.abandon e.1 i).dropHeld i
    else if i.world = w ∧ i.state = .sealed ∧ within i.code i.codeLen then
      State.dropHeld { s with images := tset s.images e.1 { i with state := .revoking } } i
    else s) s

/-- A revoking image still keeps a page of its world mapped. -/
def State.keepsPage (s : State) (w page : Nat) : Bool :=
  s.images.any (fun i => i.2.world == w && i.2.state == .revoking && i.2.codeIn page)

/-- REVOKING (R275, R276, R381): the monitor's device tables unmap a page. With no image that is being revoked in it, its
translation goes at once. -/
def execRevoking (w : Nat) (page : DWord) (s : State) : Host.Outcome State Fault Refusal :=
  let pg := page.toNat / bigPage
  let s := s.revoke w (· == pg)
  if s.keepsPage w pg then
    .next { s with unmaps := (s.unmaps.filter (fun e => !(e.1 == w && e.2.1 == pg))) ++ [(w, pg, false)] }
  else
    let s := s.invalidate w (· == pg)
    .next { s with devTab := (w, pg, none) :: s.devTab.filter (fun e => !(e.1 == w && e.2.1 == pg)) }

/-- Frames come to be world w's: one that was another's is zeroed (R415). -/
def State.takeFrames (s : State) (w : Nat) (frames : List Nat) : State :=
  frames.foldl (fun s f =>
    let s : State := match tget s.owners f with
      | some v =>
        if v = w then s
        else { s with
          hbm := s.hbm.keep (fun a => a / bigPage != f)
          seals := s.seals.filter (fun e => e.1 * 512 / bigPage != f) }
      | none => s
    { s with owners := tset s.owners f w }) s

/-- Changes of translations that nothing holds up any more are made (R275, R381). -/
def State.unmapFree (s : State) : State :=
  s.unmaps.foldl (fun s e =>
    if s.keepsPage e.1 e.2.1 then s
    else
      let s := s.invalidate e.1 (· == e.2.1)
      let rest := s.devTab.filter (fun d => !(d.1 == e.1 && d.2.1 == e.2.1))
      let s := { s with
        unmaps := s.unmaps.filter (· != e)
        devTab := if e.2.2 then rest else (e.1, e.2.1, none) :: rest }
      if e.2.2 then s.takeFrames e.1 ((s.devAddr e.1 (e.2.1 * bigPage)).map (· / bigPage)).toList else s) s

/-- A new root of a world's device tables (R275, R381, R401): pages come to lie where it has them, but for those that an image
being revoked keeps until it has gone; frames that were another world's are zeroed (R415). -/
def State.newTables (s : State) (w : Nat) (root : DWord) : State :=
  let t := State.setWorld { s with devTab := s.devTab.filter (fun e => e.1 != w) } w (fun x => { x with devtab := root })
  let moved (pg : Nat) : Bool := s.devAddr w (pg * bigPage) != t.devAddr w (pg * bigPage)
  let s := (s.revoke w moved).invalidate w moved
  let pages := (s.images.filter (fun e => e.2.world == w && e.2.state == .revoking)).flatMap (fun e =>
    (List.range ((e.2.code + (e.2.codeLen - 1)) / bigPage - e.2.code / bigPage + 1)).map (e.2.code / bigPage + ·))
  let kept := (pages.eraseDups.filter moved).map (fun pg => (w, pg, s.devAddr w (pg * bigPage)))
  let frames := (if root = 0 then [] else Config.devPages root.toNat).filter (fun e => !kept.any (fun k => k.2.1 == e.1))
  (State.setWorld { s with
    devTab := kept ++ s.devTab.filter (fun e => e.1 != w)
    unmaps := s.unmaps.filter (fun e => e.1 != w) ++ kept.map (fun e => (w, e.2.1, true)) } w
      (fun x => { x with devtab := root })).takeFrames w (frames.map (·.2))

/-- REVOKED (R275): no cluster of the image is left. -/
def execRevoked (image : Nat) (s : State) : Host.Outcome State Fault Refusal :=
  match tget s.images image with
  | none => .next s
  | some i =>
    if i.state ≠ .revoking ∨ s.launches.any (fun e =>
        e.2.world == i.world && e.2.tenant == i.tenant && e.2.image == i.id) then .next s
    else .next (State.unmapFree { s with images := tdel s.images image })

/-! Page requests (R377, R378). -/

/-- The PRG indexes of a function that no outstanding request has. -/
def State.freePrgs (s : State) (w : Nat) : List Nat :=
  (List.range 512).filter (fun n =>
    !s.pageReqs.any (fun e => e.2.world == w && e.2.sent && e.2.answer.isNone && e.2.prg == n))

/-- PAGE_REQUEST (R377), each of them its group's last: the function's first request that waits is sent, if the allocation and HALTED allow. -/
def execPageRequest (id : Nat) (s : State) : Host.Outcome State Fault Refusal :=
  match tget s.pageReqs id with
  | none => .next s
  | some r =>
    let x := s.world r.world
    let first := (s.pageReqs.find? (fun e => e.2.world == r.world && !e.2.sent)).map (·.1)
    if r.sent || first != some id || x.prHalted || decide (x.prAlloc ≤ x.prOut) then .next s
    else
      match s.pick (s.freePrgs r.world) with
      | none => .next s
      | some (n, s) =>
        let s := State.setWorld { s with pageReqs := tset s.pageReqs id { r with sent := true, prg := n } } r.world
          (fun x => { x with prOut := x.prOut + 1, prSent := satInc x.prSent })
        .next (s.say (.pageRequest r.world r.pasid r.page r.read r.write true n))

/-- How often an access has now been told Success for a page. -/
def State.addTry (s : State) (who : Waiter) (page : Nat) : State :=
  { s with tries := ((who, page), s.triesOf who page + 1) :: s.tries.filter (fun e => e.1 != (who, page)) }

/-- A lock break that waited for its page is made, waits again, or is given up (R199, R378). -/
def State.retryBreak (s : State) (id : Nat) (b : LockBreak) (supplied : Bool) : State :=
  let p : Place := ⟨b.team, b.cluster, b.launch, b.image⟩
  let who := Waiter.lockBreak id
  let a := b.lock.addr
  let giveUp (s : State) : State :=
    (State.clearTries { s with breaks := tdel s.breaks id } who).trapRecord p 0x17 true 0 p.team.home b.off a
  if !supplied then giveUp s
  else
    let s := s.addTry who (a / 4096)
    match s.translateRange (p.team.home / 128) p.launch.world p.launch.pasid a 4 true with
    | .ok xl s => (State.clearTries { s with breaks := tdel s.breaks id } who).homeWrites p .host xl a [0xFF, 0xFF, 0xFF, 0xFF]
    | .invalid _ s => giveUp s
    | .miss page s =>
      if 3 ≤ s.triesOf who page then giveUp s
      else (s.joinRequest p.launch.world p.launch.pasid page false true who a).2

/-- The answer to a request for a page takes effect for one access that joined it: it walks again, or its page is not
supplied. An access that waits for another request by now has nothing to do with it. -/
def State.answer (s : State) (req page : Nat) (who : Waiter) (addr : Nat) (supplied : Bool) : State :=
  match who with
  | .thread team tid =>
    match s.thread team tid with
    | some t =>
      match t.st with
      | .parked off (.page r) false =>
        if r ≠ req then s
        else if supplied then
          (s.addTry who page).modThread team tid (fun t => { t with st := .parked off (.page r) true })
        else (s.clearTries who).trapThread team tid 0x0C off addr
      | _ => s
    | none => s
  | .uniform team =>
    match (tget s.teams team).bind (·.upark) with
    | some ⟨off, .page r, false⟩ =>
      if r ≠ req then s
      else if supplied then (s.addTry who page).modTeam team (fun t => { t with upark := some ⟨off, .page r, true⟩ })
      else (s.clearTries who).trapTeam team 0x0C off addr
    | _ => s
  | .copy id =>
    match tget s.copies id with
    | some r =>
      match r.state with
      | .parked q =>
        if q ≠ req then s
        else if supplied then State.addTry { s with copies := tset s.copies id { r with state := .active } } who page
        else (s.clearTries who).failCopy id r 2
      | _ => s
    | none => s
  | .merge team =>
    match tget s.teams team with
    | some t =>
      if t.mwait ≠ 1 ∨ t.mpage ≠ page then s
      else if supplied then (s.addTry who page).modTeam team (fun t => { t with mwait := 2 })
      else (s.clearTries who).modTeam team (fun t => { t with mwait := 3 })
    | none => s
  | .lockBreak id =>
    match tget s.breaks id with
    | some b => s.retryBreak id b supplied
    | none => s

/-- The access belongs to a saved context, so an answer waits for its resume (R378). -/
def State.waiterSaved (s : State) (who : Waiter) : Bool :=
  let saved (team : Nat) : Bool := match s.place team with | some p => p.cluster.saved | none => false
  match who with
  | .thread team _ | .uniform team | .merge team => saved team
  | .copy id => match tget s.copies id with | some r => saved r.team | none => false
  | .lockBreak _ => false

/-- An answered request's answer takes effect for every access but those of saved contexts. -/
def State.deliver (s : State) (id : Nat) : State :=
  match tget s.pageReqs id with
  | none => s
  | some r =>
    match r.answer with
    | none => s
    | some b =>
      let (later, now) := r.joined.partition (fun e => s.waiterSaved e.1)
      let s := { s with
        pageReqs := if later.isEmpty then tdel s.pageReqs id else tset s.pageReqs id { r with joined := later } }
      now.foldl (fun s e => s.answer id r.page e.1 e.2 b) s

/-- Answers that waited for a resume. -/
def State.settleAnswers (s : State) : State :=
  s.pageReqs.foldl (fun s e => s.deliver e.1) s

/-- A sent request is answered. -/
def State.answered (s : State) (id : Nat) (r : PageReq) (b : Bool) : State :=
  (State.setWorld { s with pageReqs := tset s.pageReqs id { r with answer := some b } } r.world
    (fun x => { x with prOut := x.prOut - 1 })).deliver id

/-- PAGE_REQUEST_GROUP_RESPONSE (R378). -/
def execPageRequestGroupResponse (w prg : Nat) (r : PrgResponse) (s : State) : Host.Outcome State Fault Refusal :=
  let out := s.pageReqs.filter (fun e => e.2.world == w && e.2.sent && e.2.answer.isNone)
  match out.find? (fun e => e.2.prg == prg), r with
  | none, _ => .next s
  | some (id, q), .success => .next (s.answered id q true)
  | some (id, q), .invalid => .next (s.answered id q false)
  | some _, .failure =>
    .next (out.foldl (fun s e => s.answered e.1 e.2 false) (s.setWorld w (fun x => { x with prHalted := true })))

/-- PRSTAT_HALTED_CLEAR (R371). -/
def execPrstatHaltedClear (w : Nat) (s : State) : Host.Outcome State Fault Refusal :=
  .next (s.setWorld w (fun x => { x with prHalted := false }))

/-! Invalidations (R380). -/

/-- ATS_INVALIDATION_REQUEST: translations and non-leaf entries that overlap the range go, with the
context if the request is global or covers everything; accesses already issued to host memory are noted. At most 32 are under way. -/
def execAtsInvalidationRequest (w pasid : Nat) (base : DWord) (size : Nat) (global : Bool) (s : State) :
    Host.Outcome State Fault Refusal :=
  let b := base.toNat
  if 32 ≤ (s.invals.filter (fun e => e.world == w && !e.internal)).length then
    .next (s.retry (.atsInvalidationRequest w pasid base size global))
  else
    let all := global || (b == 0 && decide (2 ^ 64 ≤ size))
    let hit (e : Tlb) : Bool := e.world == w && e.pasid == pasid &&
      (global || meets (e.range * bigPage) bigPage b size)
    let covers (n : NonLeaf) : Bool := n.world == w && n.pasid == pasid &&
      (global || meets (n.tag * 2 ^ (12 + 9 * n.level)) (2 ^ (12 + 9 * n.level)) b size)
    let host (p : Pend) : Bool := match p.kind.range with | some (.host, _, _) => true | _ => false
    let ours (p : Pend) : Bool :=
      match s.place p.agent.team with
      | some pl => pl.launch.world == w && pl.launch.pasid == some pasid
      | none => false
    .next { s with
      tlb := s.tlb.filter (fun e => !hit e)
      nonLeaf := s.nonLeaf.filter (fun e => !covers e)
      pctx := if all then s.pctx.filter (fun c => !(c.world == w && c.pasid == pasid)) else s.pctx
      invals := s.invals ++ [⟨w, (s.pends.filter (fun e => host e.2 && ours e.2)).map (·.1), false⟩] }

/-- INVALIDATION_COMPLETION (R380, R381): the function's oldest invalidation, the host's or the monitor's, completes once the
accesses noted have performed. -/
def execInvalidationCompletion (w : Nat) (s : State) : Host.Outcome State Fault Refusal :=
  match s.invals.find? (fun e => e.world == w) with
  | none => .next s
  | some v =>
    if v.pends.any (fun id => s.pends.any (fun e => e.1 == id)) then .next s
    else .next (State.say { s with invals := s.invals.erase v } (.invalidationComplete w v.internal))

/-! Windows (R387, R388). -/

/-- Window i of world w. -/
def State.window (s : State) (w i : Nat) : Window64 := ((s.world w).windows[i]?).getD Window64.reset

/-- Changes window i. -/
def State.setWindow (s : State) (w i : Nat) (f : Window64 → Window64) : State :=
  s.setWorld w (fun x => { x with windows := x.windows.setIfInBounds i (f (s.window w i)) })

/-- BAR2 shows the staging window: the physical function in recovery (R423). -/
def State.staging (s : State) (w : Nat) : Bool := w == 0 && s.power.state == 4

/-- A byte of BAR2. -/
def State.windowByte (s : State) (w off : Nat) : Byte :=
  let i := off / 2 ^ 30
  let o := off % 2 ^ 30
  let x := s.window w i
  if s.staging w then (if off < 67108864 then s.power.staging.read off else 0xFF)
  else if !x.opened || decide (x.len.toNat ≤ o) || decide (16 ≤ i) then 0xFF
  else if (s.world w).hist.contains (i, o / 512) then s.devByte w (x.hist.toNat + o)
  else s.devRead w (x.base.toNat + o)

/-- Where a window's memory, or its history, has a byte of BAR2. -/
def State.windowAddr (s : State) (w off : Nat) : Nat :=
  let i := off / 2 ^ 30
  let o := off % 2 ^ 30
  let x := s.window w i
  if (s.world w).hist.contains (i, o / 512) then x.hist.toNat + o else x.base.toNat + o

/-- A window shows memory at an offset of BAR2. -/
def State.windowShows (s : State) (w off : Nat) : Bool :=
  let x := s.window w (off / 2 ^ 30)
  !s.staging w && x.opened && decide (off % 2 ^ 30 < x.len.toNat)

/-- The tiles that a read of BAR2 comes out of are filled (R412). -/
def State.windowFill (s : State) (w off n : Nat) : Bool × State :=
  if (s.keys w).isNone || s.staging w then (true, s)
  else (List.range n).foldl (fun e i =>
    if e.1 && e.2.windowShows w (off + i) then e.2.fill w (e.2.windowAddr w (off + i)) 1 else e) (true, s)

/-- A read of BAR2 meets a claimed tile (R333). -/
def State.windowClaimed (s : State) (w off n : Nat) : Bool :=
  (List.range n).any (fun i => s.windowShows w (off + i) && s.claimed w (s.windowAddr w (off + i) / 512))

/-- WINDOW_READ. -/
def execWindowRead (w off n : Nat) (s : State) : Host.Outcome State Fault Refusal :=
  if s.windowClaimed w off n then .next (s.retry (.windowRead w off n)) else
  match s.windowFill w off n with
  | (true, s) => .next (s.say (.value w ((List.range n).map (fun i => s.windowByte w (off + i)))))
  | (false, s) => .next s

/-- WINDOW_WRITE. -/
def execWindowWrite (w off : Nat) (bytes : List Byte) (s : State) : Host.Outcome State Fault Refusal :=
  if s.staging w then
    .next { s with power := { s.power with
      staging := s.power.staging.writeN off (bytes.take (67108864 - off)) } }
  else .next (s.setWindow w (off / 2 ^ 30) (fun x => { x with werr := true }))

/-- A window's registers allow it to open. -/
def State.windowOk (s : State) (w : Nat) (x : Window64) : Bool :=
  let b := x.base.toNat
  let n := x.len.toNat
  let h := x.hist.toNat
  b % 4096 == 0 && n != 0 && n % 4096 == 0 && n ≤ 2 ^ 30 && x.cairn.toNat % 8 == 0 && h % 512 == 0 &&
    s.devRange w b n && s.devRange w h n && (decide (b + n ≤ h) || decide (h + n ≤ b))

/-- WINDOW_OPEN: refused, setting BAD, or the cairn is read and the window opens. In recovery none does (R423). -/
def execWindowOpen (w i : Nat) (s : State) : Host.Outcome State Fault Refusal :=
  let x := s.window w i
  if x.opened || s.power.state == 4 then .next s
  else if !s.windowOk w x then .next (s.setWindow w i (fun x => { x with bad := true }))
  else
    let a := x.cairn.toNat
    let v := BitVec.ofNat 64 (natOfBytes (s.hostMem.readN a 8))
    let s := (s.touchHost w a false none).setWindow w i (fun x => { x with opened := true, bad := false, cval := v })
    .next (s.setWorld w (fun y => { y with hist := y.hist.filter (fun e => e.1 != i) }))

/-- WINDOW_CLOSE. A PUBLISH is one step, so none is in progress. -/
def execWindowClose (w i : Nat) (s : State) : Host.Outcome State Fault Refusal :=
  .next (s.setWindow w i (fun x => { x with opened := false }))

end Sys2Proof.Machine
end

