-- ==== Sys2Proof/Machine/Fabric.lean ====
section
/-! DEFINITION. The fabric (R389 to R393) and reductions in the switch (R394, R395). -/

namespace Sys2Proof.Machine

/-! Descriptors (R390, R391). -/

/-- Writes a fabric completion record (R20, R391; log 14). -/
def State.fabricRecord (s : State) (w compl status mask : Nat) : State :=
  s.own w (.completion compl (bytesOfNat 8 status ++ bytesOfNat 8 mask) (bytesOfNat 8 0))

/-- A descriptor completes, and leaves the queue. -/
def State.endDesc (s : State) (id status mask : Nat) : State :=
  match tget s.fabric id with
  | none => s
  | some d => State.fabricRecord { s with fabric := tdel s.fabric id } d.world d.compl status mask

/-- A fabric-peer entry: node, world, remote tenant, local tenant and rights (R403). -/
structure Peer where
  node : Nat
  world : Nat
  remote : Nat
  loc : Nat
  launch : Bool
  reduce : Bool
  deriving DecidableEq, Repr

/-- Entry i of a tenant's table as a peer. -/
def State.peer (s : State) (w t i : Nat) : Option Peer :=
  match s.cap w t i with
  | some c =>
    if c.kind = 3 then
      some ⟨bitsOf c.base 15 0, bitsOf c.base 23 16, bitsOf c.base 29 24, bitsOf c.base 37 32, c.launch, c.reduce⟩
    else none
  | none => none

/-- A descriptor's bytes as fields; the source's bytes are added at capture. -/
def readDesc (w : Nat) (b : List Byte) (p : Option Peer) : FabDesc :=
  let d (i : Nat) : Nat := natAt b (8 * i) 8
  let q := p.getD ⟨0, 0, 0, 0, false, false⟩
  { world := w, tenant := bitsOf (d 0) 15 8, reduction := d 0 % 256 == 2, group := bitsOf (d 0) 63 48
    seq := bitsOf (d 1) 31 0, op := bitsOf (d 0) 27 24, fmt := bitsOf (d 0) 31 28, timeout := bitsOf (d 1) 63 48
    nmemb := bitsOf (d 1) 47 40, midx := bitsOf (d 1) 39 32, dst := d 3, count := bitsOf (d 4) 31 0, compl := d 5
    node := q.node, peerWorld := q.world, peerTenant := q.remote, data := [], sent := false }

/-- A descriptor's fields are in their ranges. -/
def descOk (b : List Byte) (r : FabDesc) : Bool :=
  let d (i : Nat) : Nat := natAt b (8 * i) 8
  bitsOf (d 0) 23 16 == 0 && d 4 / 2 ^ 32 == 0 && d 6 == 0 && d 7 == 0 && d 2 % 64 == 0 && r.tenant < 64 &&
    (if r.reduction then
      (r.fmt == 7 || (r.fmt == 0 && r.op == 0)) && r.op ≤ 2 && 2 ≤ r.nmemb && r.nmemb ≤ 64 && decide (r.midx < r.nmemb) &&
        r.dst % 512 == 0 && 1 ≤ r.count && r.count ≤ 1048576
    else d 0 % 256 == 1 && r.group == 0 && r.fmt == 0 && r.op == 0 && r.dst == 0 && r.count == 0)

/-! Instances (R394, R395). -/

/-- Tenant t of world w has tenant t' of world w', in this package, as a peer for reductions. -/
def State.hasPeer (s : State) (w t w' t' : Nat) : Bool :=
  (List.range (Nat.min (s.tenant w t).ncap 256)).any (fun i =>
    match s.peer w t i with
    | some p => p.reduce && p.node == s.node.toNat && p.world == w' && p.remote == t'
    | none => false)

/-- Two tenants of this package count in one peer set: they are one, or each has the other as a peer (log 81). -/
def State.together (s : State) (w t w' t' : Nat) : Bool :=
  (w == w' && t == t') || (s.hasPeer w t w' t' && s.hasPeer w' t' w t)

/-- An instance belongs to a tenant's peer set. -/
def State.joins (s : State) (w t : Nat) (r : Reduction) : Bool :=
  s.together w t r.world r.tenant || r.contribs.any (fun k => s.together w t k.world k.tenant)

/-- An instance by its peer set, group and sequence number. -/
def State.reduction? (s : State) (w t g q : Nat) : Option (Nat × Reduction) :=
  s.reductions.find? (fun e => e.2.group == g && e.2.seq == q && s.joins w t e.2)

/-- An instance begins, and the outcome kept of the one before it in the group goes (R395). -/
def State.newReduction (s : State) (r : Reduction) : State :=
  let old (e : Nat × Reduction) : Bool :=
    e.2.group == r.group && (e.2.seq + 1) % 2 ^ 32 == r.seq && e.2.outcome.isSome && s.joins r.world r.tenant e.2
  { s with
    nextId := s.nextId + 1
    reductions := s.reductions.filter (fun e => !old e) ++ [(s.nextId, r)] }

/-- The mask of the contributions held. -/
def Reduction.mask (r : Reduction) : Nat := (r.contribs.map (fun k => 2 ^ (k.midx % 64))).eraseDups.sum

/-- An instance ends without a sum: every member that submitted completes, and the outcome is kept. -/
def State.failReduction (s : State) (id : Nat) (r : Reduction) (status : Nat) : State :=
  let r' := { r with outcome := some (status, r.mask), owed := [] }
  r.contribs.foldl (fun s k =>
    match k.request with
    | some d => s.endDesc d status r.mask
    | none => s) { s with reductions := tset s.reductions id r' }

/-- A member of an instance fails before it has contributed. -/
def State.failMember (s : State) (d : FabDesc) : State :=
  match s.reduction? d.world d.tenant d.group d.seq with
  | some (id, r) => if r.outcome.isSome || !r.result.isEmpty then s else s.failReduction id r 2
  | none => s.newReduction ⟨d.world, d.tenant, d.group, d.seq, [], s.now, some (2, 0), [], []⟩

/-- No descriptor of the same world to the same peer world, captured before, is still to leave (R392). -/
def State.sendTurn (s : State) (id : Nat) (d : FabDesc) : Bool :=
  !s.fabric.any (fun e => decide (e.1 < id) && !e.2.sent && e.2.world == d.world && e.2.node == d.node &&
    e.2.peerWorld == d.peerWorld)

/-- A captured descriptor enters the queue; a launch request leaves at once, where it is its turn. -/
def State.enterDesc (s : State) (r : FabDesc) (data : List Byte) : State :=
  let id := s.nextId
  let now := !r.reduction && s.sendTurn id r
  let s := { s with nextId := id + 1, fabric := s.fabric ++ [(id, { r with data := data, sent := now })] }
  if now then s.say (.launchRequest id r.node r.peerWorld r.peerTenant data) else s

/-- Launch requests whose turn has come leave (R392). -/
def State.settleSends (s : State) : State :=
  s.fabric.foldl (fun s e =>
    let d := e.2
    if d.reduction || d.sent || !s.sendTurn e.1 d then s
    else State.say { s with fabric := tset s.fabric e.1 { d with sent := true } }
      (.launchRequest e.1 d.node d.peerWorld d.peerTenant d.data)) s

/-- FQ_NOTIFY (R389, R390, R393): the descriptor and its source data are read, or it is dropped or refused. Of a write that is
misaligned or outside, and finds the queue full as well, only the first is shown (log 79). -/
def execFqNotify (w : Nat) (addr : DWord) (s : State) : Host.Outcome State Fault Refusal :=
  let a := addr.toNat
  if !(s.world w).takes then .next s
  else
    let s' := s.setWorld w (fun x => { x with fqNotify := addr })
    if a % 64 ≠ 0 || !s.devRange w a 64 then .next (s'.setWorld w (fun x => { x with fqerr := x.fqerr ||| 1 }))
    else if 64 ≤ (s.fabric.filter (fun e => e.2.world == w)).length then
      .next (s'.setWorld w (fun x => { x with fqerr := x.fqerr ||| 2 }))
    else
      let b := (List.range 64).map (fun i => s.devRead w (a + i))
      let i := bitsOf (natAt b 0 8) 47 32
      let peer := s.peer w (bitsOf (natAt b 0 8) 15 8) i
      let r := readDesc w b peer
      let src := natAt b 16 8
      let n := if r.reduction then 4 * r.count else 64
      let granted := match peer with | some p => if r.reduction then p.reduce else p.launch | none => false
      if s.claimedRange w a 64 || (s.devRange w src n && s.claimedRange w src n) then
        .next (s'.retry (.fqNotify w addr))
      else
        s'.captured w a 64 (fun s =>
          if r.compl % 32 ≠ 0 || !s.devRange w r.compl 32 then s
          else if !descOk b r then s.fabricRecord w r.compl 4 0
          else if !granted || !s.devCovered w r.tenant src n true false ||
              (r.reduction && !s.devCovered w r.tenant r.dst n false true) then
            (if r.reduction then s.failMember r else s).fabricRecord w r.compl 5 0
          else
            match s.fill w src n with
            | (true, s) => s.enterDesc r ((List.range n).map (fun i => s.devRead w (src + i)))
            | (false, s) => s)

/-! Launch requests (R393). -/

/-- LAUNCH_REQUEST_ACKNOWLEDGEMENT: the sender's record has STATUS 1 and the code. -/
def execLaunchRequestAcknowledgement (req : Nat) (code : DWord) (s : State) : Host.Outcome State Fault Refusal :=
  match tget s.fabric req with
  | some d =>
    if d.reduction || !d.sent then .next s
    else .next (s.endDesc req 1 code.toNat)
  | none => .next s

/-- The receiver's table lets a sender in, for the packet's tenant. -/
def State.inboundOk (s : State) (node srcWorld srcTenant w t : Nat) (packet : List Byte) : Bool :=
  (List.range (Nat.min (s.tenant w t).ncap 256)).any (fun i =>
    match s.peer w t i with
    | some p => p.launch && p.node == node && p.world == srcWorld && p.remote == srcTenant &&
        p.loc == bitsOf (natAt packet 0 8) 15 8
    | none => false)

/-- INBOUND_LAUNCH_REQUEST: the packet enters the launch queue, or the code says why not. -/
def execInboundLaunchRequest (node srcWorld srcTenant w tenant : Nat) (packet : List Byte) (s : State) :
    Host.Outcome State Fault Refusal :=
  let answer (s : State) (c : Nat) : Host.Outcome State Fault Refusal :=
    .next (s.say (.launchAnswer node srcWorld srcTenant c))
  if !(s.world w).takes || !s.inboundOk node srcWorld srcTenant w tenant packet then answer s 2
  else if natAt packet 0 1 ≠ 1 then answer s 3
  else if 64 ≤ s.queued w then answer s 1
  else if !s.logRoom w (s.captureUnits w (packet.take 64)) then
    .next (s.retry (.inboundLaunchRequest node srcWorld srcTenant w tenant packet))
  else answer (s.captureLaunch w (packet.take 64) none 4) 0

/-! Reductions (R394, R395). -/

/-- The contribution of a descriptor of the package at a node. -/
def FabDesc.contribution (d : FabDesc) (id node : Nat) : Contribution where
  node := node
  world := d.world
  tenant := d.tenant
  request := some id
  group := d.group
  seq := d.seq
  op := d.op
  fmt := d.fmt
  count := d.count
  nmemb := d.nmemb
  midx := d.midx
  timeout := d.timeout
  data := (List.range d.count).map (fun i => BitVec.ofNat 32 (natAt d.data (4 * i) 4))

/-- One step of the sum (R394). -/
def reduceStep (fmt op : Nat) (r x : Word) : Word :=
  if fmt = 0 then BitVec.ofNat 32 (accAdd r.toNat ((fmtOf .f32).unpack x.toNat))
  else if op = 0 then r + x
  else if op = 1 then (if r.toInt < x.toInt then x else r)
  else if x.toInt < r.toInt then x else r

/-- The contribution of a member. -/
def Reduction.member (r : Reduction) (m : Nat) : Option Contribution := r.contribs.find? (fun k => k.midx == m)

/-- The sum of all members, in member order. -/
def Reduction.sum (r : Reduction) (fmt op nmemb count : Nat) : List Word :=
  let data (m : Nat) : List Word := match r.member m with | some k => k.data | none => []
  (List.range count).map (fun i =>
    ((List.range nmemb).drop 1).foldl (fun v m => reduceStep fmt op v ((data m).getD i 0)) ((data 0).getD i 0))

/-- The time an instance has, from the lowest member present, in ns. -/
def Reduction.limit (r : Reduction) : Nat :=
  match (List.range 64).findSome? (fun m => r.member m) with
  | some k => (if k.timeout = 0 then 1000 else k.timeout) * 1000
  | none => 0

/-- REDUCTION_CONTRIBUTION: a contribution reaches the switch. One that comes when the sum has been formed is one member too many:
its own descriptor completes with STATUS 6 (log 81). One that comes after the instance's time finds it timed out (R395). -/
def execReductionContribution (k : Contribution) (s : State) : Host.Outcome State Fault Refusal :=
  let own : Option (Option FabDesc) := k.request.map (fun id => tget s.fabric id)
  match own with
  | some none => .next s
  | _ =>
    let ready : Bool := match own with
      | some (some d) => !d.sent && k == d.contribution (k.request.getD 0) s.node.toNat && s.sendTurn (k.request.getD 0) d
      | _ => true
    if !ready then .next s
    else
      let s := match k.request with
        | some id => { s with fabric := tmod s.fabric id (fun d => { d with sent := true }) }
        | none => s
      match s.reduction? k.world k.tenant k.group k.seq with
      | some (id, r) =>
        match r.outcome with
        | some (st, mask) => .next (match k.request with | some d => s.endDesc d st mask | none => s)
        | none =>
          if r.result.isEmpty && decide (r.start + r.limit < s.now) then
            let s := s.failReduction id r 3
            .next (match k.request with | some d => s.endDesc d 3 r.mask | none => s)
          else if !r.result.isEmpty then .next (match k.request with | some d => s.endDesc d 6 r.mask | none => s)
          else
            let agrees := r.contribs.all (fun c =>
              c.op == k.op && c.fmt == k.fmt && c.count == k.count && c.nmemb == k.nmemb && c.midx != k.midx)
            let r := { r with contribs := r.contribs ++ [k] }
            if !agrees then .next (s.failReduction id r 6)
            else if r.contribs.length < k.nmemb then .next { s with reductions := tset s.reductions id r }
            else
              let owed := (r.contribs.filter (fun c => c.request.isSome)).map (·.midx)
              let r := { r with result := r.sum k.fmt k.op k.nmemb k.count, owed := owed }
              .next { s with reductions := if owed.isEmpty then tdel s.reductions id else tset s.reductions id r }
      | none => .next (s.newReduction ⟨k.world, k.tenant, k.group, k.seq, [k], s.now, none, [], []⟩)

/-- REDUCTION_DELIVERY: the result reaches a member's destination, whole, and its record is written. A member whose destination
has come to have a read-only byte fails, and nothing is written (R19, R274, R395; log 14). -/
def execReductionDelivery (inst midx : Nat) (s : State) : Host.Outcome State Fault Refusal :=
  match tget s.reductions inst with
  | none => .next s
  | some r =>
    match r.member midx with
    | none => .next s
    | some k =>
      match k.request.bind (fun id => (tget s.fabric id).map (fun d => (id, d))) with
      | none =>
        .next (if r.owed.contains midx then
          { s with reductions := tset s.reductions inst { r with owed := r.owed.erase midx } } else s)
      | some (id, d) =>
        let bytes := r.result.flatMap (fun v => bytesOfNat 4 v.toNat)
        let who := Writer.outside (.reductionDelivery inst midx)
        let r' := { r with owed := r.owed.erase midx }
        let told (s : State) : State :=
          { s with reductions := if r'.owed.isEmpty then tdel s.reductions inst else tset s.reductions inst r' }
        if r.owed.contains midx && (s.sealedByte d.world d.dst bytes.length).isSome then
          .next ((told s).endDesc id 2 r.mask)
        else if !r.owed.contains midx || s.claimedRange d.world d.dst bytes.length ||
            !s.logRoom d.world (logUnits (8 + bytes.length)) then .next s
        else if !s.mayWrite d.world who d.dst bytes.length 0 then .next (s.queueWriter d.world who)
        else
          let s := ((s.wrote d.world who).devWrites d.world d.dst bytes).logRecord d.world 4 (bytesOfNat 8 d.dst ++ bytes)
          .next ((told s).endDesc id 1 (2 ^ k.nmemb - 1))

/-- REDUCTION_TIMEOUT. -/
def execReductionTimeout (inst : Nat) (s : State) : Host.Outcome State Fault Refusal :=
  match tget s.reductions inst with
  | none => .next s
  | some r =>
    if r.outcome.isSome || !r.result.isEmpty || decide (s.now < r.start + r.limit) then .next s
    else .next (s.failReduction inst r 3)

/-- A member of this package fails, with its descriptor (R395): its instance does, if the sum is not formed; else it alone. -/
def State.failDesc (s : State) (id : Nat) (d : FabDesc) : State :=
  match s.reduction? d.world d.tenant d.group d.seq with
  | some (i, r) =>
    if r.result.isEmpty then (s.failMember d).endDesc id 2 r.mask
    else
      let r' := { r with owed := r.owed.erase d.midx }
      State.endDesc { s with reductions := if r'.owed.isEmpty then tdel s.reductions i else tset s.reductions i r' } id 2 r.mask
  | none => (s.failMember d).endDesc id 2 0

/-- So do those of a world or a tenant. -/
def State.failDescs (s : State) (mine : FabDesc → Bool) : State :=
  s.fabric.foldl (fun s e => if mine e.2 then s.failDesc e.1 e.2 else s) s

/-- A descriptor's peer has become unreachable: a launch request completes with STATUS 2, and a reduction's instance fails if the
sum is not formed (R392, R395). -/
def State.losePeer (s : State) (id : Nat) (d : FabDesc) : State :=
  if !d.reduction then s.endDesc id 2 0
  else
    match s.reduction? d.world d.tenant d.group d.seq with
    | some (_, r) => if r.result.isEmpty then (s.failMember d).endDesc id 2 r.mask else s
    | none => (s.failMember d).endDesc id 2 0

/-- The instances without a sum to which a member of a node has contributed fail (R395). -/
def State.loseMembers (s : State) (node : Nat) : State :=
  s.reductions.foldl (fun s e =>
    match tget s.reductions e.1 with
    | some r =>
      if r.outcome.isNone && r.result.isEmpty && r.contribs.any (fun k => k.request.isNone && k.node == node) then
        s.failReduction e.1 r 2
      else s
    | none => s) s

/-- PEER_UNREACHABLE (R392). -/
def execPeerUnreachable (node : Nat) (s : State) : Host.Outcome State Fault Refusal :=
  let mine := s.fabric.filter (fun e => e.2.node == node)
  .next ((mine.foldl (fun s e => s.losePeer e.1 e.2) s).loseMembers node)

end Sys2Proof.Machine
end

