-- ==== Sys2Proof/Machine/FloatOps.lean ====
section
/-! DEFINITION. Floating-point and conversion instructions (R132 to R151). -/

namespace Sys2Proof.Machine

/-- An element of a float operand: element 1 of a packed one from [31:16], element 0 and scalars from below
(R48). -/
def elemOf (t : Ty) (x : DWord) (i : Nat) : Nat :=
  match t with
  | .f32 => x.toNat % 2 ^ 32
  | _ => x.toNat / 2 ^ (16 * i) % 2 ^ 16

/-- Applies an element operation to a scalar, or to both elements of a packed operand (R135). -/
def perElem (t : Ty) (f : Nat → Nat) : DWord :=
  if t.isPacked then BitVec.ofNat 64 (f 0 + 2 ^ 16 * f 1) else BitVec.ofNat 64 (f 0)

/-- The bits of element i of an operand. -/
def View.elem (v : View) (t : Ty) (a : Src) (i : Nat) : Nat := elemOf t (v.src t a) i

/-- Its value. -/
def View.fval (v : View) (t : Ty) (a : Src) (i : Nat) : FVal := (fmtOf t).unpack (v.elem t a i)

/-- FADD (R134, R136). -/
def execFadd (c : Ctl) (r : Rnd) (t : Ty) (d : Dst) (a b : Src) (s : State) : Host.Outcome State Fault Refusal :=
  alu (.fadd c r t d a b) c (fun v =>
    dstWrites d false (perElem t (fun i => fsum (fmtOf t) r [v.fval t a i, v.fval t b i]))) s

/-- FSUB (R134, R136). -/
def execFsub (c : Ctl) (r : Rnd) (t : Ty) (d : Dst) (a b : Src) (s : State) : Host.Outcome State Fault Refusal :=
  alu (.fsub c r t d a b) c (fun v =>
    dstWrites d false (perElem t (fun i => fsum (fmtOf t) r [v.fval t a i, (v.fval t b i).negate]))) s

/-- FMUL (R134, R136). -/
def execFmul (c : Ctl) (r : Rnd) (t : Ty) (d : Dst) (a b : Src) (s : State) : Host.Outcome State Fault Refusal :=
  alu (.fmul c r t d a b) c (fun v =>
    dstWrites d false (perElem t (fun i => fsum (fmtOf t) r [(v.fval t a i).mul (v.fval t b i)]))) s

/-- FFMA (R134, R136). -/
def execFfma (c : Ctl) (r : Rnd) (t : Ty) (d : Dst) (a b e : Src) (s : State) : Host.Outcome State Fault Refusal :=
  alu (.ffma c r t d a b e) c (fun v =>
    dstWrites d false (perElem t (fun i =>
      fsum (fmtOf t) r [(v.fval t a i).mul (v.fval t b i), v.fval t e i]))) s

/-- FMIN (R138). -/
def execFmin (c : Ctl) (p : Bool) (t : Ty) (d : Dst) (a b : Src) (s : State) : Host.Outcome State Fault Refusal :=
  alu (.fmin c p t d a b) c (fun v =>
    dstWrites d false (perElem t (fun i => (fmtOf t).minmax p false (v.elem t a i) (v.elem t b i)))) s

/-- FMAX (R138). -/
def execFmax (c : Ctl) (p : Bool) (t : Ty) (d : Dst) (a b : Src) (s : State) : Host.Outcome State Fault Refusal :=
  alu (.fmax c p t d a b) c (fun v =>
    dstWrites d false (perElem t (fun i => (fmtOf t).minmax p true (v.elem t a i) (v.elem t b i)))) s

/-- FCMP (R139). -/
def execFcmp (c : Ctl) (cc : FCond) (op : KComb) (t : Ty) (d : Fin 7) (a b : Src) (s : State) :
    Host.Outcome State Fault Refusal :=
  alu (.fcmp c cc op t d a b) c (fun v =>
    [kWrite d.val (combine op v ((fmtOf t).cmp cc (v.elem t a 0) (v.elem t b 0)))]) s

/-- FCLASS (R140). -/
def execFclass (c : Ctl) (op : KComb) (t : Ty) (d : Fin 7) (a m : Src) (s : State) :
    Host.Outcome State Fault Refusal :=
  alu (.fclass c op t d a m) c (fun v =>
    [kWrite d.val (combine op v (bitOf (v.amount m) ((fmtOf t).cls (v.elem t a 0))))]) s

/-- FRCPS (R141). -/
def execFrcps (c : Ctl) (d : Dst) (a : Src) (s : State) : Host.Outcome State Fault Refusal :=
  alu (.frcps c d a) c (fun v => dstWrites d false (BitVec.ofNat 64 (frcps (v.elem .f32 a 0)))) s

/-- FRSQS (R141). -/
def execFrsqs (c : Ctl) (d : Dst) (a : Src) (s : State) : Host.Outcome State Fault Refusal :=
  alu (.frsqs c d a) c (fun v => dstWrites d false (BitVec.ofNat 64 (frsqs (v.elem .f32 a 0)))) s

/-- FEXS (R141). -/
def execFexs (c : Ctl) (d : Dst) (a : Src) (s : State) : Host.Outcome State Fault Refusal :=
  alu (.fexs c d a) c (fun v => dstWrites d false (BitVec.ofNat 64 (fexs (v.elem .f32 a 0)))) s

/-- FLGS (R141). -/
def execFlgs (c : Ctl) (d : Dst) (a : Src) (s : State) : Host.Outcome State Fault Refusal :=
  alu (.flgs c d a) c (fun v => dstWrites d false (BitVec.ofNat 64 (flgs (v.elem .f32 a 0)))) s

/-- FSCL (R142). -/
def execFscl (c : Ctl) (r : Rnd) (t : Ty) (d : Dst) (a n : Src) (s : State) : Host.Outcome State Fault Refusal :=
  alu (.fscl c r t d a n) c (fun v =>
    dstWrites d false (perElem t (fun i => (fmtOf t).scale r (v.elem t a i) (v.src32 n).toInt))) s

/-- FGEX (R143): a 32-bit signed integer. -/
def execFgex (c : Ctl) (t : Ty) (d : Dst) (a : Src) (s : State) : Host.Outcome State Fault Refusal :=
  alu (.fgex c t d a) c (fun v => dstWrites d false (ofIntVal .i32 ((fmtOf t).gex (v.elem t a 0)))) s

/-- FRND (R144). -/
def execFrnd (c : Ctl) (r : Rnd) (t : Ty) (d : Dst) (a : Src) (s : State) : Host.Outcome State Fault Refusal :=
  alu (.frnd c r t d a) c (fun v =>
    dstWrites d false (perElem t (fun i => (fmtOf t).rndInt r (v.elem t a i)))) s

/-- The result of CVT (R145 to R151). -/
def cvtVal (r : Rnd) (sat : Bool) (dt st : Ty) (v : View) (a b : Src) : DWord :=
  if dt.isPacked then
    BitVec.ofNat 64 (cvtFF fp32 (fmtOf dt) r sat (v.elem .f32 a 0) +
      2 ^ 16 * cvtFF fp32 (fmtOf dt) r sat (v.elem .f32 b 0))
  else if st.isF then
    if dt.isF then BitVec.ofNat 64 (cvtFF (fmtOf st) (fmtOf dt) r sat (v.elem st a 0))
    else ofIntVal dt (cvtFI (fmtOf st) (intMin dt) (intMax dt) r (v.elem st a 0))
  else if dt.isF then BitVec.ofNat 64 (cvtIF (fmtOf dt) r sat (v.int st a))
  else wrapOrSat sat dt (v.int st a)

/-- CVT (R145). -/
def execCvt (c : Ctl) (r : Rnd) (sat : Bool) (dt st : Ty) (d : Dst) (a b : Src) (s : State) :
    Host.Outcome State Fault Refusal :=
  alu (.cvt c r sat dt st d a b) c (fun v => dstWrites d dt.wide (cvtVal r sat dt st v a b)) s

/-- FDOT2 (R137). -/
def execFdot2 (c : Ctl) (r : Rnd) (t : Ty) (d : Dst) (a b e : Src) (s : State) :
    Host.Outcome State Fault Refusal :=
  alu (.fdot2 c r t d a b e) c (fun v =>
    dstWrites d false (BitVec.ofNat 64 (fsum fp32 r
      [(v.fval t a 0).mul (v.fval t b 0), (v.fval t a 1).mul (v.fval t b 1), v.fval .f32 e 0]))) s

end Sys2Proof.Machine
end

