-- ==== Sys2Proof/Machine/Ladder.lean ====
section
/-! DEFINITION. The pre-emption ladder (R359 to R365), way sweeps (R358), tokens (R357), service targets (R356) and
partition blocks (R349, R407). -/

namespace Sys2Proof.Machine

/-- The teams of a context. -/
def State.ctxTeams (s : State) (p i : Nat) : List Nat := (s.ctxClusters p i).flatMap (fun e => e.2.teams)

/-! Halting (R361, R362). -/

/-- A thread goes back to wait where it was captured: what has arrived for it since stays (R83), and a capture that led to
nothing does not count for the watchdog (R307, R347). -/
def Thread.giveBack (t : Thread) (uniform : Bool) : Thread :=
  if uniform then t
  else
    { t with
      x := Vector.ofFn (fun i : Fin 64 => if t.win.wroteX.getLsbD i.val then (t.win.x[i.val]?).getD 0 else (t.x[i.val]?).getD 0)
      k := Vector.ofFn (fun i : Fin 7 =>
        if t.win.wroteK.getLsbD i.val then (t.win.k[i.val]?).getD false else (t.k[i.val]?).getD false)
      wdcnt := if t.wdcnt = 0xFFFFFFFF then t.wdcnt else t.wdcnt - 1 }

/-- A group that has not entered a pipe returns its threads to waiting (R362). -/
def State.returnGroup (s : State) (pl : Place) (ps : Pass) (g : Group) : State :=
  if ps.resume then
    let s := (if ps.uniform then s.liveTids ps.team else g.lanes).foldl (fun s tid =>
      s.modThread ps.team tid (fun t => { t with st := .parked g.off .halt false })) s
    if ps.uniform then s.modTeam ps.team (fun t => { t with upark := some ⟨g.off, .halt, false⟩ }) else s
  else
    (if ps.uniform then s.liveTids ps.team else g.lanes).foldl (fun s tid =>
      (s.modThread ps.team tid (fun t => t.giveBack ps.uniform)).moveThread pl ps.team tid (.goto ps.off)) s

/-- A group stops at its instruction boundary: a finished one is written back, one that waits in the picker returns its
threads to waiting, and the threads of any other park (R292, R362, R431). -/
def State.haltGroup (s : State) (pid : Nat) (ps : Pass) (gid : Nat) (g : Group) : State :=
  if g.done then s.writeBack pid gid
  else
    match s.place ps.team with
    | some pl =>
      let s := s.dropGroup pid gid
      if g.pipe.isNone then s.returnGroup pl ps g
      else if ps.uniform then
        let tids := s.liveTids ps.team
        let s := tids.foldl (fun s tid => s.modThread ps.team tid (fun t => { t with st := .parked g.off .halt false })) s
        (s.modTeam ps.team (fun t => { t with upark := some ⟨g.off, .halt, false⟩ })).count pl ps.core 13 tids.length
      else g.lanes.foldl (fun s tid => s.parkThread ps.team tid g.off .halt) s
    | none => s

/-- The teams of a context stop at their next instruction boundaries, but for a merge that has begun. -/
def State.haltContext (s : State) (p i : Nat) : State :=
  let teams := s.ctxTeams p i
  let goes (team : Nat) : Bool :=
    teams.contains team && (match tget s.teams team with | some t => !t.dwait | none => false)
  let s := s.passes.foldl (fun s e =>
    if goes e.2.team then e.2.groups.foldl (fun s g => s.haltGroup e.1 e.2 g.1 g.2) s else s) s
  teams.foldl (fun s team => s.modTeam team (fun t =>
    { t with surgeAsk := none, mwait := if t.dwait || t.ended then t.mwait else 0 })) s

/-- A team of the context has begun a merge that has not completed. -/
def State.merging (s : State) (p i : Nat) : Bool :=
  (s.ctxTeams p i).any (fun team => match tget s.teams team with | some t => t.dwait | none => false)

/-- Every team of the context has ended or stands at a task boundary (R361). -/
def State.atBoundary (s : State) (p i : Nat) : Bool :=
  (s.ctxTeams p i).all (fun team =>
    match tget s.teams team with
    | some t => t.ended || (t.started && t.boundary && !s.passes.any (fun e => e.2.team == team))
    | none => true)

/-! Kills (R44, R364). -/

/-- The launches with a cluster in a context. -/
def State.ctxLaunches (s : State) (p i : Nat) : List Nat :=
  ((s.ctxClusters p i).map (fun e => e.2.launch)).eraseDups

/-- Those of them whose completion records are still to be written. -/
def State.openLaunches (s : State) (p i : Nat) : List Nat :=
  (s.ctxLaunches p i).filter (fun id => match tget s.launches id with | some l => l.state != .done | none => false)

/-- Counts a context's launches as killed: their started teams, and the error class (R44). -/
def State.countKill (s : State) (p i cls : Nat) : State :=
  (s.openLaunches p i).foldl (fun s id =>
    let n := (s.teams.filter (fun e => e.2.launch == id && e.2.started && !e.2.ended)).length
    s.modLaunch id (fun l => { l with
      teams := l.teams + n, eclass := if l.killed then l.eclass else cls, etime := s.now, killed := true })) s

/-- A context's threads, sets, locks, copies, reservations and bank ownership go (R340, R364). -/
def State.discard (s : State) (p i : Nat) : State :=
  let cs := s.ctxClusters p i
  let teams := cs.flatMap (fun e => e.2.teams)
  let gone := (s.copies.filter (fun e => cs.any (fun c => c.1 == e.2.cluster))).map (·.1) ++
    (s.bankOps.filter (fun e => teams.contains e.2.team)).map (·.1) ++
    (s.drains.filter (fun e => teams.contains e.2.team)).map (·.1)
  let s := { s with
    copies := s.copies.filter (fun e => !gone.contains e.1)
    bankOps := s.bankOps.filter (fun e => !gone.contains e.1)
    drains := s.drains.filter (fun e => !gone.contains e.1)
    wbufUses := s.wbufUses.filter (fun u => !gone.contains u.owner) }
  let s := cs.foldl (fun s e => s.modCluster e.1 (fun c => { c with set := [] })) s
  teams.foldl (fun s team =>
    match s.place team with
    | none => s
    | some pl =>
      let s := (s.stopTeam team pl pl.team.lastOff).releaseMatrix pl team
      s.modTeam team (fun t => { t with ended := true, mwait := 0, dwait := false })) s

/-- A kill begins: state 7. Its class is 5 where the world had begun to go dark before this ns, and else the lower one (R44). -/
def State.startKill (s : State) (p i : Nat) : State :=
  let x := s.world (s.slot p i).world
  let cls := if x.dark ≠ 0 ∧ x.darkAt < s.now then 5 else 4
  ((s.countKill p i cls).discard p i).setSlot p i (fun c => { c with
    state := 7, flying := false, held := false, resume := false })

/-- KILL (R360, R364): CMD 3. -/
def execKill (p i : Nat) (s : State) : Host.Outcome State Fault Refusal :=
  let c := s.slot p i
  if c.state = 0 ∨ c.state = 7 then .next s else .next (s.startKill p i)

/-- Accesses of these teams are still to perform: not one that met a wrong tag, which never does (R412). -/
def State.underWayOf (s : State) (teams : List Nat) : Bool :=
  s.pends.any (fun e => teams.contains e.2.agent.team && (match e.2.kind with | .lost _ => false | _ => true))

/-- The context may be called halted (R359, R361, R362): its teams stand, and what they have issued has landed. -/
def State.haltReady (s : State) (p i : Nat) : Bool :=
  let c := s.slot p i
  let teams := s.ctxTeams p i
  ((c.state == 3 && s.atBoundary p i) || (c.state == 4 && !s.merging p i)) &&
    !s.underWayOf teams

/-- KILL_TIMER_EXPIRY (R359, R364): K expires in state 3 or 4. A halt that completes in that very ns comes first. -/
def execKillTimerExpiry (p i : Nat) (s : State) : Host.Outcome State Fault Refusal :=
  let c := s.slot p i
  if (c.state = 3 ∨ c.state = 4) ∧ (c.kAt < s.now ∨ (c.kAt = s.now ∧ !s.haltReady p i)) then .next (s.startKill p i)
  else .next s

/-- KILL_COMPLETE (R44, R364, R415): accesses already issued have performed, and the tenant's reductions have failed
(R395); the launches complete with status 7, and the context is empty. -/
def execKillComplete (p i : Nat) (s : State) : Host.Outcome State Fault Refusal :=
  let c := s.slot p i
  let cs := s.ctxClusters p i
  let teams := cs.flatMap (fun e => e.2.teams)
  let ls := s.openLaunches p i
  let done := (s.ctxLaunches p i).filter (fun id => !ls.contains id)
  if c.state ≠ 7 ∨ s.underWayOf teams ∨
      s.fabric.any (fun e => e.2.reduction && e.2.world == c.world && e.2.tenant == c.tenant) then .next s
  else
    let s := cs.foldl (fun s e => s.dropCluster e.1 e.2) s
    let s := ls.foldl (fun s id => s.finishLaunch id 7) s
    let s := { s with launches := s.launches.filter (fun e => !done.contains e.1) }
    .next (s.emptySlot p i).moveOctets

/-! The ladder (R359, R360). -/

/-- SOFT_REQUEST (R359, R360): CMD 1 sends a request to the cores of an Active context. -/
def execSoftRequest (p i : Nat) (s : State) : Host.Outcome State Fault Refusal :=
  if (s.slot p i).state = 1 then .next (s.setSlot p i (fun c => { c with flying := true })) else .next s

/-- REQUEST_ARRIVAL (R350, R359): REQT is set, and G and K start. -/
def execRequestArrival (p i : Nat) (s : State) : Host.Outcome State Fault Refusal :=
  let c := s.slot p i
  if !c.flying then .next s
  else if c.state ≠ 1 then .next (s.setSlot p i (fun c => { c with flying := false }))
  else
    let (time, s) := s.readTime c.world
    let g := if c.dark then 0 else c.gtime * 1000
    let k := (if c.ktime = 0 then 50 else c.ktime) * 1000
    .next (s.setSlot p i (fun c => { c with
      flying := false, state := 3, reqt := BitVec.ofNat 64 time, gAt := s.now + g, kAt := s.now + k }))

/-- GRACE_EXPIRY (R359, R362): the context is forced to halt. -/
def execGraceExpiry (p i : Nat) (s : State) : Host.Outcome State Fault Refusal :=
  let c := s.slot p i
  if c.state = 3 ∧ c.gAt ≤ s.now then .next ((s.setSlot p i (fun c => { c with state := 4 })).haltContext p i)
  else .next s

/-- The launches of a context whose world goes dark have their completion records written (R414). -/
def State.darkReport (s : State) (p i : Nat) : State :=
  let open_ := s.openLaunches p i
  if open_.isEmpty then s
  else
    open_.foldl (fun s id =>
      let stops := (s.threads.filter (fun e =>
        match tget s.teams (e.1 / 8192) with | some t => t.launch == id | none => false)).length
      let s := s.modLaunch id (fun l => { l with stops := l.stops + stops })
      (s.report id 7).modLaunch id (fun l => { l with state := .done })) (s.countKill p i 5)

/-- HALT_COMPLETE (R359, R360, R362, R364), no later than K expires: HALTT is set; a CMD 2 that was held, or that waits for
this context to halt, takes effect. -/
def execHaltComplete (p i : Nat) (s : State) : Host.Outcome State Fault Refusal :=
  let c := s.slot p i
  if !s.haltReady p i || decide (c.kAt < s.now) then .next s
  else
    let s := s.haltContext p i
    let (time, s) := s.readTime c.world
    let s := s.setSlot p i (fun c => { c with state := 5, haltt := BitVec.ofNat 64 time })
    let s := if c.dark then s.darkReport p i else s
    .next (if c.held ∧ s.goes c.world then s.makeActive p i else s.activate p c.tsg true)

/-- CMD 2 (R360). A context of a paused world resumes with the world (R420), and one of a world that goes dark does not
(R414). -/
def State.resume (s : State) (p i : Nat) : State :=
  let c := s.slot p i
  let cores := s.coresOf p i
  let ask : State := s.setSlot p i (fun c => { c with resume := true })
  let x := s.world c.world
  if x.dark ≠ 0 then s
  else if x.pause ∧ (c.state = 3 ∨ c.state = 4) then s.setSlot p i (fun c => { c with paused := true })
  else if c.state = 3 then s.setSlot p i (fun c => { c with state := 1 })
  else if c.state = 4 then s.setSlot p i (fun c => { c with held := true })
  else if c.state = 6 then ask
  else if c.state = 2 ∨ c.state = 5 then
    if !s.goes c.world then s.setSlot p i (fun c => { c with paused := true })
    else if (s.rivals p i [1, 3, 4] cores).isEmpty then s.makeActive p i
    else (s.rivals p i [1] cores).foldl (fun s j => s.setSlot p j (fun c => { c with flying := true })) ask
  else s

/-- RESUME (R360). -/
def execResume (p i : Nat) (s : State) : Host.Outcome State Fault Refusal := .next (s.resume p i)

/-! Way masks (R350, R358). -/

/-- The ways a mask selects in a partition. -/
def waysOf (pways m : BitVec 16) : BitVec 16 := if m &&& pways = 0 then pways else m &&& pways

/-- A mask is stored, and the ways it clears are swept. -/
def State.setWays (s : State) (p i : Nat) (m : BitVec 16) : State :=
  let pw := (s.part p).pways
  s.setSlot p i (fun c =>
    let m := m &&& pw
    { c with waymask := m, sweep := if c.bound then waysOf pw c.waymask &&& ~~~(waysOf pw m) else 0, queued := none })

/-- WAYMASK_WRITE: the doubleword with TSG and WAYMASK. During a sweep the mask waits for its end. -/
def execWaymaskWrite (p i : Nat) (v : DWord) (s : State) : Host.Outcome State Fault Refusal :=
  let m : BitVec 16 := v.setWidth 16
  let s := s.setSlot p i (fun c => { c with tsg := bitsOf v.toNat 19 16 })
  if (s.slot p i).sweep = 0 then .next (s.setWays p i m)
  else .next (s.setSlot p i (fun c => { c with queued := some m }))

/-- SWEEP_COMPLETE. -/
def execSweepComplete (p i : Nat) (s : State) : Host.Outcome State Fault Refusal :=
  let c := s.slot p i
  if c.sweep = 0 then .next s
  else
    let s := s.setSlot p i (fun c => { c with sweep := 0 })
    match c.queued with
    | some m => .next (s.setWays p i m)
    | none => .next s

/-! Tokens (R357). -/

/-- A context's ports: the octets in which it has team parts. -/
def State.portsOf (s : State) (p i : Nat) : List Nat := ((s.coresOf p i).map octetOf).eraseDups

/-- A bucket and the pool behind it after a credit: RATE hundredths of a token, and what the bucket has no room for goes
to the pool. -/
def Bucket.credit (b : Bucket) (rate depth pool poold : Nat) : Bucket × Nat :=
  let n := b.tokens + (b.frac + rate) / 100
  let d := Nat.max depth 16
  ({ b with tokens := Nat.min n d, frac := (b.frac + rate) % 100 }, Nat.min poold (pool + (n - d)))

/-- TOKEN_CREDIT: every bucket gains its tokens of 10 ns. -/
def execTokenCredit (s : State) : Host.Outcome State Fault Refusal :=
  .next (s.slots.foldl (fun s e =>
    let p := e.1 / 16
    let c := e.2
    if !c.bound || c.rate == 0 then s
    else
      (s.portsOf p (e.1 % 16)).foldl (fun s port =>
        let k := bucketKey p (e.1 % 16) port
        let (b, pool) := ((tget s.buckets k).getD ⟨0, 0, 0, []⟩).credit c.rate c.depth
          ((tget s.pools (p * 64 + port)).getD 0) (s.part p).poold
        { s with buckets := tset s.buckets k b, pools := tset s.pools (p * 64 + port) pool }) s) s)

/-- BORROW_RESET: at a microsecond boundary. -/
def execBorrowReset (s : State) : Host.Outcome State Fault Refusal :=
  .next { s with buckets := s.buckets.map (fun e => (e.1, { e.2 with borrowed := 0 })) }

/-! Service targets (R356, R407; log 24). -/

/-- The octets of a partition. -/
def Part.octetList (p : Part) : List Nat := (List.range 64).filter (fun k => p.octets.getLsbD k)

/-- A launch of the partition waits to place a cluster. -/
def State.waiting (s : State) (p : Nat) : Bool :=
  s.launches.any (fun e => e.2.part == p && e.2.places)

/-- How many resident clusters of a partition stand in an octet. -/
def State.octetClusters (s : State) (p k : Nat) : Nat :=
  (s.clusters.filter (fun e =>
    !e.2.saved && (match tget s.launches e.2.launch with | some l => l.part == p | none => false) &&
      ((rectangle e.2.origin e.2.w e.2.h).getD []).any (fun c => octetOf c == k))).length

/-- The octets a partition has, those marked for transfer counted where they go (log 24). -/
def State.octetCount (s : State) (p : Nat) : Nat :=
  let held (q : Part) : List (Nat × Nat) := q.marks.filter (fun m => q.octets.getLsbD m.1)
  (s.part p).octetList.length - (held (s.part p)).length +
    s.parts.foldl (fun n e => n + ((held e.2).filter (fun m => m.2 == p)).length) 0

/-- SERVICE_TARGET_EVALUATION: short and long partitions are paired in ascending order, and each long one marks its
octet with the fewest clusters, which moves at a team's completion (R356). -/
def execServiceTargetEvaluation (s : State) : Host.Outcome State Fault Refusal :=
  let ps := (List.range 64).filter (fun p => !s.frozen p)
  let n := s.octetCount
  let short := ps.filter (fun p => decide (n p < (s.part p).target) && s.waiting p)
  let long := ps.filter (fun p => decide ((s.part p).target < n p) && decide ((s.part p).minoct < n p))
  .next ((short.zip long).foldl (fun s e =>
    let q := s.part e.2
    let free := q.octetList.filter (fun k => !q.marks.any (fun m => m.1 == k))
    match leastBy (fun k => s.octetClusters e.2 k) free with
    | k :: _ => s.setPart e.2 (fun q => { q with marks := q.marks ++ [(k, e.1)] })
    | [] => s) s)

/-! Partition blocks (R349, R407). -/

/-- A value other than one of the block's fields is given to another partition too. -/
def State.otherParts (s : State) (p : Nat) (f : Part → Bool) : Bool :=
  (List.range 64).any (fun q => q != p && f (s.part q))

/-- A limited write of a doubleword of the block (log 25). -/
def State.limited (s : State) (p off : Nat) (v : DWord) : Bool :=
  let b := s.part p
  let n := v.toNat
  if off = 0 then
    let w : BitVec 16 := v.setWidth 16
    (w != b.pways && s.frozen p) || s.otherParts p (fun q => q.pways &&& w != 0)
  else if off = 0x10 then
    (v != b.octets && s.frozen p) || s.otherParts p (fun q => q.octets &&& v != 0) ||
      (b.octetList.any (fun k => !v.getLsbD k && s.octetBusy p k))
  else if off = 0x18 then
    let sh := bitsOf n 23 16
    let sum := (List.range 64).foldl (fun t q => if q = p then t else t + (s.part q).hbmsh) sh
    let busy := s.clusters.any (fun e => !e.2.saved && match tget s.launches e.2.launch with | some l => l.part == p | none => false)
    (sh != b.hbmsh && s.frozen p) || decide (64 < sum) || busy
  else false

/-- What a write stores. -/
def Part.store (b : Part) (off : Nat) (v : DWord) : Part :=
  let n := v.toNat
  let up (b : Part) (changed : Bool) : Part := if changed then { b with gen := b.gen + 1 } else b
  if off = 0 then
    let w : BitVec 16 := v.setWidth 16
    let c : Part := { b with
      haltlim := bitsOf n 47 40, tplace := bitsOf n 39 32, minoct := bitsOf n 31 24, target := bitsOf n 23 16, pways := w }
    up c (w != b.pways)
  else if off = 8 then { b with poold := n / 2 ^ 32, blim := n % 2 ^ 32 }
  else if off = 0x10 then up { b with octets := v, marks := b.marks.filter (fun m => v.getLsbD m.1) } (v != b.octets)
  else if off = 0x18 then up { b with hbmsh := bitsOf n 23 16, stss := n % 8 } (bitsOf n 23 16 != b.hbmsh)
  else b

/-- PARTITION_WRITE. An offset that is not listed ignores it (R9). -/
def execPartitionWrite (p off : Nat) (v : DWord) (s : State) : Host.Outcome State Fault Refusal :=
  if 64 ≤ p || off % 8 ≠ 0 || 0x20 ≤ off then .next s
  else if s.limited p off v then .next (s.setPart p (fun b => { b with lerr := true }))
  else .next (s.setPart p (fun b => b.store off v))

end Sys2Proof.Machine
end

