-- ==== Sys2Proof/Machine/Worlds.lean ====
section
/-! DEFINITION. Worlds: pause and world time (R401, R419, R420), the layout (R407), migration (R324 to R326, R416, R417),
trust, SPDM and TDISP (R396 to R399, R406, R409), bounce channels (R413) and going dark (R414). -/

namespace Sys2Proof.Machine

/-! World time and pauses. -/

/-- A TOFF of t, raised if world time would not pass TLAST (R419). -/
def State.setToff (s : State) (w : Nat) (t : Int) : State :=
  let least : Int := (s.world w).tlast.toNat + 1 - s.now
  s.setWorld w (fun x => { x with toff := BitVec.ofInt 64 (max t least) })

/-- TOFF_WRITE (R419). -/
def execToffWrite (w : Nat) (v : DWord) (s : State) : Host.Outcome State Fault Refusal := .next (s.setToff w v.toInt)

/-- TLAST_WRITE (R401): only in a pause, and only upwards. -/
def execTlastWrite (w : Nat) (v : DWord) (s : State) : Host.Outcome State Fault Refusal :=
  let x := s.world w
  if x.pause ∧ x.tlast.toNat ≤ v.toNat then .next (s.setWorld w (fun x => { x with tlast := v })) else .next s

/-- Applies f to each context slot of a world. -/
def State.eachSlot (s : State) (w : Nat) (f : Nat → Nat → Slot → State → State) : State :=
  s.slots.foldl (fun s e => if e.2.bound ∧ e.2.world = w then f (e.1 / 16) (e.1 % 16) e.2 s else s) s

/-- Sets or clears PAUSE (R420): the world's active contexts are asked to halt, and go on afterwards, as do those whose turn came
meanwhile. -/
def State.setPause (s : State) (w : Nat) (pause : Bool) : State :=
  let x := s.world w
  if x.pause = pause then s
  else if pause then
    (s.setWorld w (fun x => { x with pause := true, pausedAt := s.now })).eachSlot w (fun p i c s =>
      if c.state = 1 then s.setSlot p i (fun c => { c with flying := true, paused := true }) else s)
  else
    let s := s.setWorld w (fun x => { x with pause := false })
    let s := if x.hidden then s.setToff w (x.toff.toInt - (s.now - x.pausedAt : Nat)) else s
    s.eachSlot w (fun p i c s =>
      if !c.paused then s
      else
        let s := if c.state = 1 then s.setSlot p i (fun c => { c with flying := false }) else s.resume p i
        s.setSlot p i (fun c => { c with paused := false }))

/-- WORLD_PAUSE (R420). -/
def execWorldPause (w : Nat) (pause : Bool) (s : State) : Host.Outcome State Fault Refusal := .next (s.setPause w pause)

/-- Sets or clears MIGEN (R416): not while the world holds an image that is not replay-safe. -/
def State.setMigen (s : State) (w : Nat) (b : Bool) : State :=
  let bad := s.images.any (fun e => e.2.world == w && !e.2.replayOk && (e.2.state == .sealed || e.2.state == .revoking))
  if b && bad then s else s.setWorld w (fun x => { x with migen := b })

/-- MIGEN_WRITE (R416). -/
def execMigenWrite (w : Nat) (b : Bool) (s : State) : Host.Outcome State Fault Refusal := .next (s.setMigen w b)

/-- LOGTAIL_WRITE (R417). -/
def execLogtailWrite (w : Nat) (v : Word) (s : State) : Host.Outcome State Fault Refusal :=
  .next (s.setWorld w (fun x => { x with logtail := v }))

/-- A write of PART and VALID (R401, R407): PART only while VALID is 0; the layout of a keyed partition does not change. -/
def State.setPartValid (s : State) (w part : Nat) (valid : Bool) : State :=
  let x := s.world w
  let p := if x.valid then x.part else part
  if valid = x.valid then s.setWorld w (fun x => { x with part := p })
  else if s.frozen p then s.setPart p (fun q => { q with lerr := true })
  else (s.setWorld w (fun x => { x with part := p, valid := valid })).setPart p (fun q => { q with gen := q.gen + 1 })

/-- WORLD_PART_WRITE: the doubleword's PART and VALID. -/
def execWorldPartWrite (w : Nat) (v : DWord) (s : State) : Host.Outcome State Fault Refusal :=
  .next (s.setPartValid w (v.toNat % 64) (v.getLsbD 10))

/-! Migration (R324 to R326). -/

/-- The record of a mode-1 migration passes its check for a tenant of the world, and is not open. -/
def State.migRecord (s : State) (w a : Nat) : Option (TRec × State) :=
  match (List.range 64).findSome? (fun t => s.recCheck w t a true true none) with
  | some (r, s) => if r.opened then none else some (r, s)
  | none => none

/-- Two ranges share no byte. -/
def disjoint (a n b m : Nat) : Bool := decide (a + n ≤ b) || decide (b + m ≤ a)

/-- The commands under way that have looked up the record at an address (R326). -/
def State.lookedUp (s : State) (w ra : Nat) : List Nat :=
  let mine (team : Nat) : Bool := match s.place team with | some p => p.launch.world == w | none => false
  (s.copies.filter (fun e => e.2.world == w && e.2.looked == some ra)).map (·.1) ++
    (s.bankOps.filter (fun e => mine e.2.team && (match e.2.kind with | .qst d => d.record == ra | _ => false))).map (·.1) ++
    (s.drains.filter (fun e => mine e.2.team && e.2.drain.record == ra)).map (·.1)

/-- A world other than w maps a byte of the frame at f. -/
def State.othersFrame (s : State) (w f : Nat) : Bool :=
  s.worlds.any (fun e => e.1 != w && (s.mapsByte e.1 f || s.mapsByte e.1 (f + (bigPage - 1))))

/-- MIGRATION_START (R324): a write to MDST starts a migration, or is refused; a new frame must lie in HBM and be no other
world's (log 47). -/
def execMigrationStart (w : Nat) (mdst : DWord) (s : State) : Host.Outcome State Fault Refusal :=
  let m := (s.world w).mig
  let src := m.src.toNat
  let dst := mdst.toNat
  let start (s : State) : State := s.setWorld w (fun x => { x with mig := { x.mig with
    dst := mdst, state := 1, active := 1, amode := m.mode, asrc := src, adst := dst, readers := [] } })
  let refuse : State := s.setWorld w (fun x => { x with mig := { x.mig with dst := mdst, state := 3 } })
  if m.state = 1 ∨ m.active ≠ 0 then .next refuse
  else if !m.mode then
    match s.devAddr w src with
    | some f =>
      if src % bigPage ≠ 0 || dst % bigPage ≠ 0 || decide (hbmSize < dst + bigPage) || rangesMeet f bigPage dst bigPage ||
          s.othersFrame w dst then
        .next refuse
      else .next (start s)
    | none => .next refuse
  else
    match s.migRecord w src with
    | none => .next refuse
    | some (r, t) =>
      let n := r.tiles * r.tileBytes
      if dst % 512 ≠ 0 || !s.devRange w dst n || !disjoint r.base n dst n then .next refuse
      else .next (start { t with recs := t.recs.map (fun (c : RecCache) =>
        if c.world = w ∧ c.addr = src then { c with migrating := true } else c) })

/-- A device address of the old tiles as one of the new ones. -/
def shifted (base n dst a : Nat) : Nat := if base ≤ a ∧ a < base + n then a - base + dst else a

/-- A copy request whose writes to the tensor waited goes on at the new tiles (R326). -/
def CopyReq.redirect (r : CopyReq) (base n dst : Nat) : CopyReq :=
  let f := shifted base n dst
  let t (k : Nat) : Nat := f (k * 512) / 512
  { r with
    rows := r.rows.map (fun (e : Row) => match e.dst with | .mem .dev => { e with da := f e.da } | _ => e)
    claims := r.claims.map t
    staging := r.staging.map (fun e => (f e.1, e.2))
    parts := r.parts.map (fun e => (f e.1, e.2))
    marks := r.marks.map (fun (m : TileMark) => { m with l2 := m.l2.map t }) }

/-- The same for a drain. -/
def Drain.redirect (d : Drain) (base n dst : Nat) : Drain :=
  { d with
    base := shifted base n dst d.base
    claims := d.claims.map (fun k => shifted base n dst (k * 512) / 512) }

/-- A drain that has finished with its bank. -/
def TileWrite.redirect (d : TileWrite) (base n dst : Nat) : TileWrite :=
  { d with
    drain := d.drain.redirect base n dst
    runs := d.runs.map (fun e => (shifted base n dst e.1, e.2)) }

/-- What a tile waits to be written for, by its new place. -/
def Writer.redirect (mine : Nat → Bool) (base n dst : Nat) (x : Writer) : Writer :=
  match x with
  | .copy id t => if mine id then .copy id (shifted base n dst (t * 512) / 512) else x
  | _ => x

/-- A 2 MiB frame comes to hold what another holds, its tiles encrypted as they were (R325, R411). -/
def State.copyFrame (s : State) (f g : Nat) : State :=
  let within (k b n : Nat) : Bool := decide (b ≤ k) && decide (k < b + n)
  let rest := s.hbm.keep (fun a => !within a g bigPage)
  let tiles := s.seals.filter (fun e => within e.1 (f / 512) (bigPage / 512))
  { s with
    hbm := rest.overlay (fun a => a - f + g) (s.hbm.keep (fun a => within a f bigPage))
    seals := s.seals.filter (fun e => !within e.1 (g / 512) (bigPage / 512)) ++
      tiles.map (fun e => (e.1 - f / 512 + g / 512, e.2)) }

/-- A byte of a moved tensor is placed at its new address (R323, R326, R385, R411). -/
def State.placeMoved (s : State) (w : Nat) (r : TRec) (a : Nat) (b : Byte) : State :=
  if r.conf then
    ((s.histCopy w a).devPut w (r.ivAt ((a - r.base) / r.tileBytes) a) false a b).snoopLines w a 1
  else s.devPoke w a b

/-- The data tiles of a tensor come to lie at another base too; a tile that holds nothing is left out (R212). -/
def State.copyTiles (s : State) (w : Nat) (r : TRec) (dst : Nat) : State :=
  (List.range (r.tiles * r.tileBytes)).foldl (fun t i =>
    if r.conf && !s.tileBit w r.febase (2 * (i / r.tileBytes) + 1) then t
    else t.placeMoved w { r with base := dst } (dst + i) (s.devRead w (r.base + i))) s

/-- MIGRATION_SWITCH (R325, R326): the copy and the switch, as one event. Writes that have waited follow, in their order. -/
def execMigrationSwitch (w : Nat) (s : State) : Host.Outcome State Fault Refusal :=
  let m := (s.world w).mig
  if m.active ≠ 1 then .next s
  else if !m.amode then
    match s.devAddr w m.asrc with
    | none => .next s
    | some f =>
      let pg := m.asrc / bigPage
      let s := { s.copyFrame f m.adst with
        devTab := (w, pg, some m.adst) :: s.devTab.filter (fun e => !(e.1 == w && e.2.1 == pg))
        owners := tset s.owners (m.adst / bigPage) w }
      .next (s.setWorld w (fun x => { x with mig := { x.mig with
        state := if x.mig.waiting.isEmpty then 2 else 1, active := if x.mig.waiting.isEmpty then 0 else 2 } }))
  else
    let r := s.readRec w m.asrc
    let n := r.tiles * r.tileBytes
    let readers := s.lookedUp w m.asrc
    let writes (id : Nat) : Bool := readers.contains id && (match tget s.copies id with | some c => c.record == m.asrc | none => true)
    s.captured w r.base n (fun s =>
    let s := s.copyTiles w r m.adst
    let s := { s with
      copies := s.copies.map (fun (e : Nat × CopyReq) =>
        if writes e.1 then (e.1, e.2.redirect r.base n m.adst)
        else if readers.contains e.1 then (e.1, { e.2 with before := some r }) else e)
      bankOps := s.bankOps.map (fun (e : Nat × BankOp) =>
        match e.2.kind with
        | .qst d => if writes e.1 then (e.1, { e.2 with kind := .qst (d.redirect r.base n m.adst) }) else e
        | _ => e)
      drains := s.drains.map (fun (e : Nat × TileWrite) => if writes e.1 then (e.1, e.2.redirect r.base n m.adst) else e)
      recs := s.recs.map (fun (c : RecCache) => if c.world = w ∧ c.addr = m.asrc then { c with migrating := false } else c) }
    let s := s.devPokes w (m.asrc + 8) (bytesOfNat 8 m.adst)
    s.setWorld w (fun x => { x with mig := { x.mig with
      active := 2, readers := readers, waiting := x.mig.waiting.map (Writer.redirect writes r.base n m.adst) } }))

/-- MIGRATION_DONE (R325, R326): the writes that waited have been made, and the last command that used the old tiles has
finished. -/
def execMigrationDone (w : Nat) (s : State) : Host.Outcome State Fault Refusal :=
  let m := (s.world w).mig
  if m.active ≠ 2 || !m.waiting.isEmpty || s.copies.any (fun e => m.readers.contains e.1) ||
      s.bankOps.any (fun e => m.readers.contains e.1) ||
      s.drains.any (fun e => m.readers.contains e.1) then .next s
  else .next (s.setWorld w (fun x => { x with mig := { x.mig with state := 2, active := 0, readers := [] } }))

/-- Who waits to write still has something to write. -/
def State.stillWrites (s : State) (x : Writer) : Bool :=
  match x with
  | .pend id => (tget s.pends id).isSome
  | .copy id t => match tget s.copies id with | some r => r.claims.contains t | none => false
  | .drain id => (tget s.drains id).isSome
  | .word (.thread team tid) => s.passes.any (fun e => e.2.team == team && e.2.groups.any (fun g => g.2.lanes.contains tid))
  | .word (.uniform team) => s.passes.any (fun e => e.2.team == team && e.2.uniform)
  | .merge team => match tget s.teams team with | some t => !t.set.isEmpty || t.dwait | none => false
  | .lockBreak id => (tget s.breaks id).isSome
  | .device id => (tget s.dues id).isSome
  | .outside (.reductionDelivery inst m) => match tget s.reductions inst with | some r => r.owed.contains m | none => false
  | .outside i => s.held.contains i

/-- Whoever has nothing to write any more waits no longer (R325, R326). -/
def State.settleWriters (s : State) : State :=
  s.worlds.foldl (fun s e =>
    if e.2.mig.waiting.all s.stillWrites then s
    else s.setWorld e.1 (fun x => { x with mig := { x.mig with waiting := x.mig.waiting.filter s.stillWrites } })) s

/-- Lock breaks in device memory that waited are made as soon as they may be (R199, R325, R333). -/
def State.settleBreaks (s : State) : State :=
  s.breaks.foldl (fun s e =>
    let b := e.2
    if b.lock.space = .dev then
      match s.breakDev ⟨b.team, b.cluster, b.launch, b.image⟩ b.off e.1 b.lock with
      | some s => { s with breaks := tdel s.breaks e.1 }
      | none => s
    else s) s

/-! SPDM and TDISP (R396 to R399, R409). -/

/-- The layout record of a partition (R406). -/
def State.layout (s : State) (p : Nat) : List Byte :=
  let b := s.part p
  let worlds := ((List.range 256).filter (fun w => (s.world w).valid && (s.world w).part == p)).foldl (fun n w => n + 2 ^ w) 0
  bytesOfNat 8 (p + 2 ^ 8) ++ bytesOfNat 8 b.octets.toNat ++ bytesOfNat 8 (b.pways.toNat + 2 ^ 16 * b.hbmsh) ++
    bytesOfNat 40 worlds

/-- GEN of a world's partition. -/
def State.gen (s : State) (w : Nat) : Word := (s.part (s.world w).part).gen

/-- The deadline after a secured message (R399). -/
def State.beat (s : State) (w : Nat) : State :=
  let t := s.worldTime w
  s.setWorld w (fun x => { x with hbDeadline := t + 2 * x.hbPeriod * 1000000 })

/-- A secured message of the session (R399, R414): a new deadline, or no session any more. -/
def secured (w : Nat) (s : State) (f : State → State) : Host.Outcome State Fault Refusal :=
  let x := s.world w
  if !x.session || x.dark != 0 || decide (x.hbDeadline < s.worldTime w) then .next (s.say (.spdm w .sessionRequired))
  else .next (f (s.beat w))

/-- GET_VERSION: SPDM 1.3. -/
def execGetVersion (w : Nat) (s : State) : Host.Outcome State Fault Refusal := .next (s.say (.spdm w (.version 1 3)))

/-- GET_CAPABILITIES. -/
def execGetCapabilities (w : Nat) (s : State) : Host.Outcome State Fault Refusal :=
  .next (s.say (.spdm w (.capabilities [.cert, .chal, .measSigned, .keyEx, .hbeat, .encrypt, .mac])))

/-- NEGOTIATE_ALGORITHMS (R397). -/
def execNegotiateAlgorithms (w : Nat) (s : State) : Host.Outcome State Fault Refusal :=
  .next (s.say (.spdm w (.algorithms [.sha384, .brainpoolP384r1 Config.vendorId, .secp384r1, .aes256Gcm])))

/-- GET_CERTIFICATE. -/
def execGetCertificate (w : Nat) (s : State) : Host.Outcome State Fault Refusal := .next (s.say (.spdm w .certificate))

/-- KEY_EXCHANGE (R397, R399): the period of the session that FINISH will begin. A dark world holds none (R409). -/
def execKeyExchange (w periodMs : Nat) (s : State) : Host.Outcome State Fault Refusal :=
  if (s.world w).session || (s.world w).dark != 0 || (s.world w).state == 4 then .next (s.say (.spdm w .unexpected))
  else .next ((s.setWorld w (fun x => { x with exchanging := true, hbPeriod := periodMs })).say (.spdm w .keyExchange))

/-- FINISH: the session is held, with its export master secret (R398), and its first deadline is set. -/
def execFinish (w : Nat) (s : State) : Host.Outcome State Fault Refusal :=
  if !(s.world w).exchanging || (s.world w).dark != 0 || (s.world w).state == 4 then .next (s.say (.spdm w .unexpected))
  else
    let secret := Config.exportSecret s.free
    .next (((State.setWorld { s with free := s.free + 1 } w (fun x =>
      { x with exchanging := false, session := true, secret := secret })).beat w).say (.spdm w .finished))

/-- END_SESSION (R409): a bound or keyed world, or a Locked one, goes dark. -/
def execEndSession (w : Nat) (s : State) : Host.Outcome State Fault Refusal :=
  secured w s (fun s => ((s.setWorld w (fun x => { x with session := false })).startDark w 4).say (.spdm w .ended))

/-- The measurement blocks: the digest of the layout record, and GEN (R397, R406). -/
def State.blocks (s : State) (w : Nat) : List (Byte × List Byte) :=
  [(0xF1, sha384 (s.layout (s.world w).part)), (0xF2, bytesOfNat 4 (s.gen w).toNat)]

/-- GET_MEASUREMENTS (R397, R406): the block asked for, or both for 0xFF, with the requester's nonce, signed; none in a
response that is not signed (log 10). -/
def execGetMeasurements (w : Nat) (request : MeasRequest) (s : State) : Host.Outcome State Fault Refusal :=
  if request.signed then
    .next (State.say { s with free := s.free + 1 } (.spdm w (.measurements
      ((s.blocks w).filter (fun e => request.block == 0xFF || e.1 == request.block)) request.nonce (some (Config.signature s.free)))))
  else .next (s.say (.spdm w (.measurements [] [] none)))

/-- HEARTBEAT (R399). -/
def execHeartbeat (w : Nat) (s : State) : Host.Outcome State Fault Refusal :=
  secured w s (fun s => s.say (.spdm w .alive))

/-- KEY_RELEASE (R398, R409, R410): the world key itself is not kept. -/
def execKeyRelease (w world : Nat) (generation : Word) (wrapped : List Byte) (s : State) :
    Host.Outcome State Fault Refusal :=
  secured w s (fun s =>
    let x := s.world w
    if wrapped.length ≠ 40 then s.say (.spdm w .invalidRequest)
    else if generation ≠ s.gen w then s.say (.spdm w (.status 1))
    else
      match unwrapKey (wrapKey x.secret) wrapped with
      | none => s.say (.spdm w (.status 2))
      | some k =>
        if world ≠ w ∨ x.state ≠ 2 then s.say (.spdm w (.status 3))
        else (s.setWorld w (fun x => { x with state := 3, key := some (WorldKeys.derive k) })).say (.spdm w (.status 0)))

/-- A channel of a world. -/
def State.chan (s : State) (w i : Nat) : Chan := ((s.world w).chans[i]?).getD ⟨false, [], 0, 0⟩

/-- Replaces a channel. -/
def State.setChan (s : State) (w i : Nat) (c : Chan) : State :=
  s.setWorld w (fun x => { x with chans := x.chans.setIfInBounds i c })

/-- CHAN_OPEN (R398). -/
def execChanOpen (w i : Nat) (key : List Byte) (nonce : BitVec 96) (s : State) : Host.Outcome State Fault Refusal :=
  secured w s (fun s =>
    if key.length ≠ 32 then s.say (.spdm w .invalidRequest)
    else if (s.world w).state ≠ 3 then s.say (.spdm w (.status 1))
    else if 16 ≤ i then s.say (.spdm w (.status 3))
    else if (s.chan w i).opened then s.say (.spdm w (.status 2))
    else (s.setChan w i ⟨true, key, nonce, 0⟩).say (.spdm w (.status 0)))

/-- The bounced requests on a channel. -/
def State.onChan (s : State) (w i : Nat) : Table CopyReq :=
  s.copies.filter (fun e => e.2.world == w && e.2.bounce && e.2.chan == i)

/-- Closes the channels whose CHAN_CLOSE waits and on which no request is queued or active: parked ones fail (R398). -/
def State.settleChans (s : State) : State :=
  s.worlds.foldl (fun s e =>
    e.2.closing.foldl (fun s i =>
      let rs := s.onChan e.1 i
      let parked (r : CopyReq) : Bool := match r.state with | .parked _ => true | _ => false
      if rs.any (fun r => !parked r.2) then s
      else
        let s := rs.foldl (fun s r => s.failCopy r.1 r.2 3) s
        ((s.setChan e.1 i ⟨false, [], 0, 0⟩).setWorld e.1 (fun x => { x with closing := x.closing.erase i })).say
          (.spdm e.1 (.status 0))) s) s

/-- CHAN_CLOSE (R398). -/
def execChanClose (w i : Nat) (s : State) : Host.Outcome State Fault Refusal :=
  secured w s (fun s => (s.setWorld w (fun x => { x with closing := x.closing ++ [i] })).settleChans)

/-- VENDOR_DEFINED_REQUEST (R398): its payload names the operation and holds its operands; another operation, or a wrong
length, is refused. -/
def execVendorDefinedRequest (w : Nat) (payload : List Byte) (s : State) : Host.Outcome State Fault Refusal :=
  let byte (i : Nat) : Nat := natAt payload i 1
  if byte 0 = 1 ∧ payload.length = 46 then
    execKeyRelease w (byte 1) (BitVec.ofNat 32 (natAt payload 2 4)) (payload.drop 6) s
  else if byte 0 = 2 ∧ payload.length = 46 then
    execChanOpen w (byte 1) ((payload.drop 2).take 32) (BitVec.ofNat 96 (natAt payload 34 12)) s
  else if byte 0 = 3 ∧ payload.length = 2 then execChanClose w (byte 1) s
  else secured w s (fun s => s.say (.spdm w .invalidRequest))

/-- HEARTBEAT_DEADLINE (R399). -/
def execHeartbeatDeadline (w : Nat) (s : State) : Host.Outcome State Fault Refusal :=
  let x := s.world w
  if x.session ∧ x.dark = 0 ∧ x.hbDeadline < s.worldTime w then
    .next ((s.setWorld w (fun x => { x with session := false })).startDark w 1)
  else .next s

/-- LOCK_INTERFACE (R409). -/
def execLockInterface (w : Nat) (s : State) : Host.Outcome State Fault Refusal :=
  let x := s.world w
  if x.conf ∧ x.state = 0 then
    let (n, s) := s.draw
    .next ((s.setWorld w (fun x => { x with state := 1, nonce := n })).say (.tdisp w (.locked n)))
  else .next (s.say (.tdisp w .error))

/-- START_INTERFACE (R409): a secured message of the session (R397's exchange 9, R399). -/
def execStartInterface (w nonce : Nat) (s : State) : Host.Outcome State Fault Refusal :=
  secured w s (fun s =>
    let x := s.world w
    if x.state = 1 ∧ x.nonce = nonce then (s.setWorld w (fun x => { x with state := 2 })).say (.tdisp w .started)
    else s.say (.tdisp w .error))

/-- STOP_INTERFACE (R409). -/
def execStopInterface (w : Nat) (s : State) : Host.Outcome State Fault Refusal :=
  let x := s.world w
  if x.dark ≠ 0 then .next (s.say (.tdisp w .error))
  else if x.state = 2 ∨ x.state = 3 then .next ((s.startDark w 5).say (.tdisp w .stopped))
  else .next ((s.setWorld w (fun x => { x with state := 0 })).say (.tdisp w .stopped))

/-- GET_DEVICE_INTERFACE_REPORT (R396, R409). -/
def execGetDeviceInterfaceReport (w : Nat) (s : State) : Host.Outcome State Fault Refusal :=
  .next (s.say (.tdisp w (.report (s.world w).state [(0, 0x0000, 0x3FFF)])))

/-! Going dark (R409, R414). -/

/-- The slots of a world's contexts. -/
def State.worldSlots (s : State) (w : Nat) : List (Nat × Nat) :=
  (s.slots.filter (fun e => e.2.bound && e.2.world == w)).map (fun e => (e.1 / 16, e.1 % 16))

/-- A halted or saved context is discarded with its clusters; its launches have been reported. -/
def State.discardAll (s : State) (p i : Nat) : State :=
  let s := s.discard p i
  let ls := s.ctxLaunches p i
  let s := (s.ctxClusters p i).foldl (fun s e => s.dropCluster e.1 e.2) s
  State.emptySlot { s with launches := s.launches.filter (fun e => !ls.contains e.1) } p i

/-- A context's halt is complete, as a world that goes dark or a kill has it. -/
def Slot.halted (c : Slot) : Bool := c.state == 2 || c.state == 5 || c.state == 6

/-- What follows a world's going dark for each context that has halted: its completion records, if they are still to be written,
and the failures of its tenant's descriptors; and for each that is killed, those failures (R395, R414). -/
def State.settleDark (s : State) : State :=
  s.slots.foldl (fun s e =>
    let p := e.1 / 16
    let i := e.1 % 16
    let c := s.slot p i
    let mine (d : FabDesc) : Bool := d.world == c.world && d.tenant == c.tenant && d.reduction
    if !c.bound then s
    else if c.state = 7 then s.failDescs mine
    else if (s.world c.world).dark != 0 && c.halted then (s.darkReport p i).failDescs mine
    else s) s

/-- GO_DARK (R414): after the last halt, what is held is reported, keys are erased, state goes, and the world is dark. Its records
are written before, for which the command log must have room (R417). -/
def execGoDark (w : Nat) (s : State) : Host.Outcome State Fault Refusal :=
  let slots := s.worldSlots w
  if (s.world w).dark = 0 || !slots.all (fun e => (s.slot e.1 e.2).halted) || s.dues.any (fun e => e.2.world == w) ||
      !s.logRoom w ((s.queued w + s.fabric.length) * logUnits 32) then .next s
  else
    let s := s.setWorld w (fun x => { x with mig := { x.mig with
      state := if x.mig.active = 0 then x.mig.state else 3, active := 0, readers := [], waiting := [] } })
    let s := slots.foldl (fun s e => s.darkReport e.1 e.2) s
    let s := (s.launches.filter (fun e => e.2.world == w && e.2.state != .done)).foldl (fun s e =>
      (s.modLaunch e.1 (fun l => { l with eclass := 5 })).finishLaunch e.1 7) s
    let s := (s.images.filter (fun e => e.2.world == w && e.2.state == .submitted)).foldl (fun s e => s.abandon e.1 e.2) s
    let s := s.failDescs (fun d => d.world == w && d.reduction)
    let s := (s.eraseKeys w).setWorld w (fun x => { x with
      secret := [], chans := Vector.replicate 16 ⟨false, [], 0, 0⟩, closing := [] })
    let s := State.dropLines (slots.foldl (fun s e => s.discardAll e.1 e.2) s) w
    let s := State.unmapFree { s with
      images := s.images.filter (fun e => e.2.world != w)
      recs := s.recs.filter (fun c => c.world != w)
      breaks := s.breaks.filter (fun e => e.2.launch.world != w) }
    let s := s.setWorld w (fun x => { x with state := 4, dark := 0, session := false, exchanging := false })
    .next ((s.moveOctets.say (.tdisp w .error)).say (.msix w))

end Sys2Proof.Machine
end

