-- ==== Sys2Proof/Machine/Start.lean ====
section
/-! DEFINITION. Starting, restarting, heat and power (R340, R421 to R427). -/

namespace Sys2Proof.Machine

/-! Starts (R422 to R424). -/

/-- Everything a start clears, with what outlives it: host memory, the reference clock, the messages to and from the
outside, and the model's own counters. -/
def State.wipe (s : State) (hbm : Mem) (seals : Table Seal) (p : Power) : State :=
  { State.reset with
    inputs := s.inputs
    free := s.free
    nextId := s.nextId
    now := s.now
    hostMem := s.hostMem
    outbox := s.outbox
    hbm := hbm
    seals := seals
    power := p }

/-- A start fails at a step: another follows, or the device is in recovery (R423). -/
def Power.fail (p : Power) (step : Nat) : Power :=
  let n := Nat.min 3 (p.fails + 1)
  { p with stepfail := step, fails := n, state := if n = 3 then 4 else 1, starting := .none }

/-- The 2 s within which the monitor signals ready, in ns. -/
def readyTime : Nat := 2000000000

/-- The monitor's image is measured (R422 step 4), from the staging window or from flash. -/
def Power.measure (p : Power) (window : Bool) : Power :=
  { p with
    fromWindow := window
    digest := sha384 (if window then p.staging.readN 0 Config.stagedLength else Config.flashImage) }

/-- While a trip stands (R427), every core goes on at step 15 through a start, and the sensors at what they read. -/
def State.keepHeat (s t : State) : State :=
  { t with
    ctemp := s.ctemp
    throt := if s.power.trip then (List.range 512).map (fun c => (c, 15)) else []
    power := { t.power with trip := s.power.trip } }

/-- A cold start's steps 1 to 5: with power just come, or not (R421); with the image in the staging window, or in flash; and the
step that fails, if any, counting from 0. -/
def State.cold (s : State) (powerOn window : Bool) (fails : Option (Fin 5)) : State :=
  let q := s.power
  let on := powerOn || q.removed
  let p := { Power.reset (if on then 0 else q.stepfail) (if on then 0 else q.fails) with staging := if on then .empty else q.staging }
  let t := match fails with
    | some k => s.wipe .empty [] ((if k.val = 4 then p.measure window else p).fail (k.val + 1))
    | none => s.wipe .empty [] { p.measure window with
        identity := Config.identityKey, state := 1, starting := .ready (s.now + readyTime) false }
  if on then t else s.keepHeat t

/-- COLD_START (R422): power-on, a fundamental reset, or the start that follows a failed one (R423). -/
def execColdStart (fails : Boot) (s : State) : Host.Outcome State Fault Refusal := .next (s.cold fails.powerOn false fails.fails)

/-- RELOAD (R423): CMD 2, in recovery only. -/
def execReload (fails : Option (Fin 5)) (s : State) : Host.Outcome State Fault Refusal :=
  if s.power.state = 4 then .next (s.cold false true fails) else .next s

/-- MONITOR_READY (R422): the signal, or its time running out, which leaves nothing running (R423). -/
def execMonitorReady (ready : Bool) (s : State) : Host.Outcome State Fault Refusal :=
  match s.power.starting with
  | .ready t _ =>
    if ready then
      if s.now ≤ t then .next { s with power := { s.power with state := 3, fails := 0, starting := .none } } else .next s
    else if t ≤ s.now then .next (s.keepHeat (s.wipe .empty [] (s.power.fail 6))) else .next s
  | _ => .next s

/-- A byte of HBM that a world other than 0 maps. -/
def State.foreign (s : State) (p : Nat) : Bool := s.worlds.any (fun e => e.1 != 0 && s.mapsByte e.1 p)

/-- The step of its own that fails in a warm start: steps 1, 3 and 5 are skipped (R424). -/
def warmFails (fails : Option (Fin 5)) : Option (Fin 5) := fails.filter (fun k => k.val == 1 || k.val == 3)

/-- WARM_START (R424), step 1: worlds bound or keyed go dark, and every other context is killed. `fails` names the step of
its own that will fail. -/
def execWarmStart (fails : Option (Fin 5)) (s : State) : Host.Outcome State Fault Refusal :=
  if s.power.state ≠ 3 then .next s
  else
    let dark := s.worlds.filter (fun e => e.2.state == 2 || e.2.state == 3)
    let s := dark.foldl (fun s e => s.startDark e.1 3) s
    let s := s.slots.foldl (fun s e =>
      let c := e.2
      if c.bound ∧ (s.world c.world).dark = 0 ∧ c.state ≠ 0 ∧ c.state ≠ 7 then s.startKill (e.1 / 16) (e.1 % 16) else s) s
    .next { s with power := { s.power with state := 2, starting := .ending (warmFails fails) } }

/-- The rest of a warm start, once nothing runs any more: everything but world 0's frames is cleared; whose each frame was stays
known, for R415. -/
def State.settleStart (s : State) : State :=
  match s.power.starting with
  | .ending fails =>
    if s.worlds.any (fun e => e.2.dark != 0) || s.slots.any (fun e => e.2.bound) then s
    else
      let hbm := s.hbm.keep (fun a => !s.foreign a)
      let seals := s.seals.filter (fun e => !s.foreign (e.1 * 512))
      let p := { Power.reset s.power.stepfail s.power.fails with state := 2, identity := s.power.identity }
      let t := match fails with
        | some k => s.wipe hbm seals (p.fail (k.val + 1))
        | none => s.wipe hbm seals { p.measure false with starting := .ready (s.now + readyTime) true }
      s.keepHeat { t with owners := s.owners }
  | _ => s

/-! Heat and power (R425 to R427). -/

/-- A column's temperature, in sixteenths of a degree (R250). -/
def State.temp (s : State) (core : Nat) : Int := ((tget s.ctemp core).getD 0).toInt

/-- Some column lies above a number of degrees. -/
def State.above (s : State) (deg : Nat) : Bool := s.ctemp.any (fun e => decide ((deg : Int) * 16 < e.2.toInt))

/-- Every core goes to a step. -/
def State.allThrot (s : State) (f : Nat → Nat) : State :=
  { s with throt := (List.range 512).filterMap (fun c => if f c = 0 then none else some (c, BitVec.ofNat 4 (f c))) }

/-- SENSOR_SAMPLE (R425, R427). -/
def execSensorSample (temps : List (Nat × BitVec 16)) (s : State) : Host.Outcome State Fault Refusal :=
  let s := { s with ctemp := temps.foldl (fun (t : Table (BitVec 16)) (e : Nat × BitVec 16) =>
    if e.1 < 512 then tset t e.1 e.2 else t) s.ctemp }
  let hottest := s.ctemp.foldl (fun (m : Int) e => max m e.2.toInt) 0
  let s := { s with power := { s.power with tmax := BitVec.ofNat 8 (Nat.min 255 (hottest / 16).toNat) } }
  let hot := s.above s.power.tcrit.toNat
  if hot then
    let t := { s with power := { s.power with trip := true } }.allThrot (fun _ => 15)
    .next (if s.power.trip then t else t.say (.msix 0))
  else if s.power.trip ∧ s.ctemp.all (fun e => decide (e.2.toInt ≤ ((s.power.tcrit.toNat : Int) - 5) * 16)) then
    .next { s with power := { s.power with trip := false } }
  else .next s

/-- A core's throttle step. -/
def State.throtStep (s : State) (core : Nat) : Nat :=
  let excess := s.temp core - (s.power.ttrot.toNat : Int) * 16
  let st := if excess ≤ 0 then 0 else Nat.min 15 (1 + (excess / 16).toNat)
  let sp := if s.power.plim = 0 then 0 else s.power.sp
  if s.power.trip then 15 else Nat.max st sp

/-- THROTTLE_UPDATE (R426). -/
def execThrottleUpdate (s : State) : Host.Outcome State Fault Refusal := .next (s.allThrot s.throtStep)

/-- POWER_TERM_UPDATE (R426): the average power of the last millisecond. -/
def execPowerTermUpdate (pwr : BitVec 16) (s : State) : Host.Outcome State Fault Refusal :=
  let p := s.power
  let lim := p.plim.toNat
  let sp :=
    if lim = 0 then p.sp
    else if lim < pwr.toNat then Nat.min 15 (p.sp + 1)
    else if 100 * pwr.toNat ≤ 95 * lim then p.sp - 1
    else p.sp
  .next { s with power := { p with pwr := pwr, sp := sp } }

/-- MODULE_POWER_REMOVAL (R427): the module removes its input; only a power-on follows. -/
def execModulePowerRemoval (inputFault : Bool) (s : State) : Host.Outcome State Fault Refusal :=
  if Config.moduleForm && (inputFault || s.above (s.power.tcrit.toNat + 10)) then
    .next (s.wipe .empty [] { Power.reset 0 0 with state := 1, removed := true })
  else .next s

/-- SOFT_ERROR_RESET (R340): the core is reset, and within 2 µs the kill reaches every context with a team part on it. Until then
nothing on the core runs, and what is bound for it is dropped. -/
def execSoftErrorReset (column : Nat) (s : State) : Host.Outcome State Fault Refusal :=
  let (n, s) := s.draw
  .next { s with resets := (column, s.now + n % 2001) :: s.resets.filter (fun e => e.1 != column) }

/-- Every context with a team part on a core is killed. -/
def State.killOn (s : State) (core : Nat) : State :=
  let on (team : Nat) : Bool := match tget s.teams team with | some t => t.cores.contains core | none => false
  s.slots.foldl (fun s e =>
    let p := e.1 / 16
    let i := e.1 % 16
    let c := s.slot p i
    let standing := (s.ctxClusters p i).any (fun k => !k.2.saved && k.2.teams.any on)
    if c.bound && c.state != 0 && c.state != 7 && standing then s.startKill p i else s) s

/-- The kills of cores whose time has come (R340). -/
def State.settleResets (s : State) : State :=
  s.resets.foldl (fun s e =>
    if e.2 ≤ s.now then State.killOn { s with resets := s.resets.filter (fun r => r.1 != e.1) } e.1 else s) s

end Sys2Proof.Machine
end

