-- ==== Sys2Proof/Machine/Registers.lean ====
section
/-! DEFINITION. Register writes (R9) to the pages of BAR0 (R17, R370, R389, R396, R421) and to the control window (R400);
a register with a step of its own is written by that step. -/

namespace Sys2Proof.Machine

/-- The queue window (R17). -/
def writeQueue (w off : Nat) (v : DWord) (s : State) : Host.Outcome State Fault Refusal :=
  match off with
  | 0x000 => execAdmNotify w v s
  | 0x008 => execLqNotify w v s
  | 0x010 => .next (s.setWorld w (fun x => { x with qerr := x.qerr &&& ~~~(v.setWidth 4) }))
  | _ => .next s

/-- A window's registers (R387). -/
def writeWindow (w i off : Nat) (v : DWord) (s : State) : Host.Outcome State Fault Refusal :=
  let put (f : Window64 → Window64) : Host.Outcome State Fault Refusal :=
    .next (s.setWindow w i (fun x => if x.opened then x else f x))
  match off with
  | 0x00 =>
    let s := if v.getLsbD 2 then s.setWindow w i (fun x => { x with werr := false }) else s
    if v.getLsbD 0 then execWindowOpen w i s else execWindowClose w i s
  | 0x08 => put (fun x => { x with base := v })
  | 0x10 => put (fun x => { x with len := v })
  | 0x18 => put (fun x => { x with cairn := v })
  | 0x20 => put (fun x => { x with hist := v })
  | _ => .next s

/-- The host coupling page (R370, R371). -/
def writeCoupling (w off : Nat) (v : DWord) (s : State) : Host.Outcome State Fault Refusal :=
  if off = 0x000 then .next (s.setWorld w (fun x => { x with pasidtab := v &&& ~~~(0xFC0#64) }))
  else if off = 0x008 then (if v.getLsbD 48 then execPrstatHaltedClear w s else .next s)
  else if 0x100 ≤ off ∧ off < 0x500 then writeWindow w ((off - 0x100) / 0x40) (off % 0x40) v s
  else .next s

/-- The fabric window (R389). -/
def writeFabric (w off : Nat) (v : DWord) (s : State) : Host.Outcome State Fault Refusal :=
  match off with
  | 0x000 => execFqNotify w v s
  | 0x008 => .next (s.setWorld w (fun x => { x with fqerr := x.fqerr &&& ~~~(v.setWidth 2) }))
  | _ => .next s

/-- What the steps of a start come to when a register write begins it: none fails, or one does (log 2). -/
def State.startLuck (s : State) : Option (Fin 5) × State :=
  let (n, s) := s.draw
  (if h : n % 6 < 5 then some ⟨n % 6, h⟩ else none, s)

/-- The start and power page (R421), of the physical function alone. -/
def writePower (w off : Nat) (v : DWord) (s : State) : Host.Outcome State Fault Refusal :=
  if w ≠ 0 then .next s
  else
    match off with
    | 0x08 =>
      let (f, s') := s.startLuck
      match v.toNat % 4 with
      | 1 => execWarmStart f s'
      | 2 => execReload f s'
      | _ => .next s
    | 0x10 =>
      let n : BitVec 16 := v.setWidth 16
      let n := if Config.moduleForm && decide (2400 < n.toNat) then 2400 else n
      .next { s with power := { s.power with plim := n } }
    | 0x18 => .next { s with power := { s.power with tcrit := (v >>> 8).setWidth 8, ttrot := v.setWidth 8 } }
    | _ => .next s

/-- A migration block (R324). -/
def writeMigration (w off : Nat) (v : DWord) (s : State) : Host.Outcome State Fault Refusal :=
  match off with
  | 0x00 =>
    .next (s.setWorld w (fun x =>
      if x.mig.state = 1 then x else { x with mig := { x.mig with mode := v.getLsbD 0 } }))
  | 0x08 => .next (s.setWorld w (fun x => { x with mig := { x.mig with src := v } }))
  | 0x10 => execMigrationStart w v s
  | _ => .next s

/-- A context slot's block (R350). -/
def writeSlot (p i off : Nat) (v : DWord) (s : State) : Host.Outcome State Fault Refusal :=
  let n := v.toNat
  match off with
  | 0x00 =>
    let s := s.setSlot p i (fun c => { c with ktime := bitsOf n 23 16, gtime := Nat.min 5 (bitsOf n 10 8) })
    match n % 4 with
    | 1 => execSoftRequest p i s
    | 2 => execResume p i s
    | 3 => execKill p i s
    | _ => .next s
  | 0x08 => .next (s.setSlot p i (fun c => { c with rate := n / 2 ^ 32, depth := n % 2 ^ 32 }))
  | 0x10 => execWaymaskWrite p i v s
  | _ => .next s

/-- The world block's first doubleword (R401). -/
def State.worldWord (s : State) (w : Nat) (v : DWord) : State :=
  let s := s.setWorld w (fun x => { x with
    hidden := v.getLsbD 15, log := v.getLsbD 12, conf := if x.state = 0 then v.getLsbD 11 else x.conf })
  ((s.setPartValid w (v.toNat % 64) (v.getLsbD 10)).setMigen w (v.getLsbD 13)).setPause w (v.getLsbD 14)

/-- A world block (R401). A write of FRBASE or of FRSLOTS sets the fault ring up (R246). -/
def writeWorld (w off : Nat) (v : DWord) (s : State) : Host.Outcome State Fault Refusal :=
  let n := v.toNat
  match off with
  | 0x00 => .next (s.worldWord w v)
  | 0x08 => .next (s.setWorld w (fun x => { x with frbase := v, frindex := 0 }))
  | 0x10 => .next (s.setWorld w (fun x =>
      { x with logsize := BitVec.ofNat 32 (n / 2 ^ 32), frslots := n % 2 ^ 16, frindex := 0 }))
  | 0x18 => execToffWrite w v s
  | 0x20 => execTlastWrite w v s
  | 0x28 => .next (s.setWorld w (fun x => { x with logbase := v }))
  | 0x30 => execLogtailWrite w (v.setWidth 32) s
  | 0x38 => .next (s.newTables w (v &&& ~~~(0xFFF#64)))
  | _ => .next s

/-- A tenant block (R402). -/
def writeTenant (w t off : Nat) (v : DWord) (s : State) : Host.Outcome State Fault Refusal :=
  let b := s.tenant w t
  match off with
  | 0x00 => .next { s with tenants := tset s.tenants (w * 64 + t) { b with capBase := v &&& ~~~(0x1F#64) } }
  | 0x08 => .next { s with tenants := tset s.tenants (w * 64 + t) { b with valid := v.getLsbD 9, ncap := v.toNat % 512 } }
  | _ => .next s

/-- The control window (R400, R408). -/
def writeControl (off : Nat) (v : DWord) (s : State) : Host.Outcome State Fault Refusal :=
  if 0x10000 ≤ off ∧ off < 0x11000 then execPartitionWrite ((off - 0x10000) / 0x40) (off % 0x40) v s
  else if 0x11000 ≤ off ∧ off < 0x11200 then
    .next (if off % 8 = 0 ∧ v.getLsbD 32 then s.setPart ((off - 0x11000) / 8) (fun p => { p with lerr := false }) else s)
  else if 0x20000 ≤ off ∧ off < 0x22000 then writeMigration ((off - 0x20000) / 0x20) (off % 0x20) v s
  else if 0x30000 ≤ off ∧ off < 0x40000 then
    writeSlot ((off - 0x30000) / 0x400) (off % 0x400 / 0x40) (off % 0x40) v s
  else if 0x40000 ≤ off ∧ off < 0x44000 then writeWorld ((off - 0x40000) / 0x40) (off % 0x40) v s
  else if 0x80000 ≤ off ∧ off < 0xC0000 then
    writeTenant ((off - 0x80000) / 0x400) (off % 0x400 / 0x10) (off % 0x10) v s
  else .next s

/-- REGISTER_WRITE (R9): a doubleword of a page. An offset that is not listed ignores it. -/
def execRegisterWrite (page : RegPage) (off : Nat) (v : DWord) (s : State) : Host.Outcome State Fault Refusal :=
  match page with
  | .bar0 w =>
    if off < 0x1000 then writeQueue w off v s
    else if off < 0x2000 then writeCoupling w (off - 0x1000) v s
    else if off < 0x3000 then writeFabric w (off - 0x2000) v s
    else if off < 0x4000 then .next s
    else if off < 0x5000 then writePower w (off - 0x4000) v s
    else .next s
  | .control => writeControl off v s
  | .config w => if off = 0xC then .next (s.setWorld w (fun x => { x with prAlloc := v.toNat % 2 ^ 32 })) else .next s
  | .node => .next { s with node := v.setWidth 16 }

end Sys2Proof.Machine
end

