-- ==== Sys2Proof/Machine/RegRead.lean ====
section
/-! DEFINITION. What a read of a register returns (R9, R17, R324, R349, R350, R370, R371, R387, R389, R396, R400 to R402,
R408, R421): a read changes nothing, so it is a function of the state and no step. -/

namespace Sys2Proof.Machine

/-- A doubleword of fields, each a value at its lowest bit; a field not given reads zero. -/
def word64 (l : List (Nat × Nat)) : DWord := l.foldl (fun (v : DWord) (e : Nat × Nat) => v ||| BitVec.ofNat 64 (e.2 * 2 ^ e.1)) 0

/-- The queue window (R17). -/
def State.readQueue (s : State) (w off : Nat) : DWord :=
  let x := s.world w
  match off with
  | 0x000 => x.admNotify
  | 0x008 => x.lqNotify
  | 0x010 => x.qerr.setWidth 64
  | _ => 0

/-- The host coupling page (R370, R371, R387). -/
def State.readCoupling (s : State) (w off : Nat) : DWord :=
  let x := s.world w
  if off = 0x000 then x.pasidtab
  else if off = 0x008 then word64 [(48, natOfBool x.prHalted), (32, x.prOut % 2 ^ 16), (0, x.prSent.toNat)]
  else if 0x100 ≤ off ∧ off < 0x500 then
    let v := (x.windows[(off - 0x100) / 0x40]?).getD Window64.reset
    match off % 0x40 with
    | 0x00 => word64 [(2, natOfBool v.werr), (1, natOfBool v.bad), (0, natOfBool v.opened)]
    | 0x08 => v.base
    | 0x10 => v.len
    | 0x18 => v.cairn
    | 0x20 => v.hist
    | 0x28 => v.cval
    | _ => 0
  else 0

/-- The fabric window (R389). -/
def State.readFabric (s : State) (w off : Nat) : DWord :=
  match off with
  | 0x000 => (s.world w).fqNotify
  | 0x008 => (s.world w).fqerr.setWidth 64
  | 0x010 => s.node.setWidth 64
  | _ => 0

/-- The trust page (R396). -/
def State.readTrust (s : State) (w off : Nat) : DWord :=
  let x := s.world w
  match off with
  | 0x000 =>
    let chans := x.chans.toList.zipIdx.foldl (fun (n : Nat) (e : Chan × Nat) => n + natOfBool e.1.opened * 2 ^ e.2) 0
    word64 [(32, (s.part x.part).gen.toNat), (16, chans), (0, x.state)]
  | 0x008 => if x.session && x.state != 4 then word64 [(0, (x.hbDeadline - s.worldTime w) / 1000000 % 2 ^ 32)] else 0
  | _ => 0

/-- The start and power page (R421). -/
def State.readPower (s : State) (w off : Nat) : DWord :=
  let p := s.power
  if w ≠ 0 then 0
  else
    match off with
    | 0x00 => word64 [(12, p.stepfail), (8, p.fails), (0, p.state)]
    | 0x10 => word64 [(16, p.pwr.toNat), (0, p.plim.toNat)]
    | 0x18 => word64 [(16, p.tmax.toNat), (8, p.tcrit.toNat), (0, p.ttrot.toNat)]
    | _ => 0

/-- A partition block (R349). -/
def Part.read (b : Part) (off : Nat) : DWord :=
  match off with
  | 0x00 => word64 [(40, b.haltlim), (32, b.tplace), (24, b.minoct), (16, b.target), (0, b.pways.toNat)]
  | 0x08 => word64 [(32, b.poold), (0, b.blim)]
  | 0x10 => b.octets
  | 0x18 => word64 [(16, b.hbmsh), (0, b.stss)]
  | _ => 0

/-- A migration block (R324). -/
def Migration.read (m : Migration) (off : Nat) : DWord :=
  match off with
  | 0x00 => word64 [(8, m.state), (0, natOfBool m.mode)]
  | 0x08 => m.src
  | 0x10 => m.dst
  | _ => 0

/-- A context slot's block (R350); CMD reads 0. -/
def Slot.read (c : Slot) (off : Nat) : DWord :=
  match off with
  | 0x00 => word64 [(16, c.ktime), (8, c.gtime), (4, c.state)]
  | 0x08 => word64 [(32, c.rate), (0, c.depth)]
  | 0x10 => word64 [(16, c.tsg), (0, c.waymask.toNat)]
  | 0x18 => c.reqt
  | 0x20 => c.haltt
  | _ => 0

/-- A world block (R401). -/
def World.read (x : World) (off : Nat) : DWord :=
  match off with
  | 0x00 => word64 [(32, x.state), (16, x.cause), (15, natOfBool x.hidden), (14, natOfBool x.pause), (13, natOfBool x.migen),
      (12, natOfBool x.log), (11, natOfBool x.conf), (10, natOfBool x.valid), (0, x.part)]
  | 0x08 => x.frbase
  | 0x10 => word64 [(32, x.logsize.toNat), (0, x.frslots)]
  | 0x18 => x.toff
  | 0x20 => x.tlast
  | 0x28 => x.logbase
  | 0x30 => word64 [(32, x.loghead.toNat), (0, x.logtail.toNat)]
  | 0x38 => x.devtab
  | _ => 0

/-- A tenant block (R402). -/
def Tenant.read (b : Tenant) (off : Nat) : DWord :=
  match off with
  | 0x00 => b.capBase
  | 0x08 => word64 [(9, natOfBool b.valid), (0, b.ncap)]
  | _ => 0

/-- The control window (R400, R408). -/
def State.readControl (s : State) (off : Nat) : DWord :=
  if 0x10000 ≤ off ∧ off < 0x11000 then (s.part ((off - 0x10000) / 0x40)).read (off % 0x40)
  else if 0x11000 ≤ off ∧ off < 0x11200 then
    let p := s.part ((off - 0x11000) / 8)
    if off % 8 = 0 then word64 [(32, natOfBool p.lerr), (0, p.gen.toNat)] else 0
  else if 0x20000 ≤ off ∧ off < 0x22000 then (s.world ((off - 0x20000) / 0x20)).mig.read (off % 0x20)
  else if 0x30000 ≤ off ∧ off < 0x40000 then (s.slot ((off - 0x30000) / 0x400) (off % 0x400 / 0x40)).read (off % 0x40)
  else if 0x40000 ≤ off ∧ off < 0x44000 then (s.world ((off - 0x40000) / 0x40)).read (off % 0x40)
  else if 0x80000 ≤ off ∧ off < 0xC0000 then
    (s.tenant ((off - 0x80000) / 0x400) (off % 0x400 / 0x10)).read (off % 0x10)
  else 0

/-- A read of a register page (R9). -/
def State.readReg (s : State) (page : RegPage) (off : Nat) : DWord :=
  match page with
  | .bar0 w =>
    if off < 0x1000 then s.readQueue w off
    else if off < 0x2000 then s.readCoupling w (off - 0x1000)
    else if off < 0x3000 then s.readFabric w (off - 0x2000)
    else if off < 0x4000 then s.readTrust w (off - 0x3000)
    else if off < 0x5000 then s.readPower w (off - 0x4000)
    else 0
  | .control => s.readControl off
  | .config w => if off = 0xC then word64 [(0, (s.world w).prAlloc)] else 0
  | .node => s.node.setWidth 64

/-! Harts at the register windows (R15, R17, R389, R400). -/

/-- The register that an application-cluster hart of world w reaches at an address: the queue window, the fabric window, and for
the monitor, which is world 0, the control window. -/
def hartPage (w a : Nat) : Option (RegPage × Nat) :=
  if 0x40000000 ≤ a ∧ a < 0x40001000 then some (.bar0 w, a - 0x40000000)
  else if 0x40002000 ≤ a ∧ a < 0x40003000 then some (.bar0 w, a - 0x40000000)
  else if w = 0 ∧ 0x50000000 ≤ a ∧ a < 0x50100000 then some (.control, a - 0x50000000)
  else none

/-- A hart's access to a register: an aligned doubleword is read or written (R9), and of an access of another width a read gives
zeros and a write does nothing (log 80). -/
def hartRegister (w : Nat) (page : RegPage) (off : Nat) (op : HartOp) (s : State) : Host.Outcome State Fault Refusal :=
  let whole : Bool := hartLen op == 8 && off % 8 == 0
  match op with
  | .load n => .next (s.say (.value w (if whole then bytesOfNat 8 (s.readReg page off).toNat else List.replicate n 0)))
  | .store b => if whole then execRegisterWrite page off (BitVec.ofNat 64 (natOfBytes b)) s else .next s
  | .amo _ n _ => .next (s.say (.value w (List.replicate n 0)))
  | .tag | .putTag _ | .replay .. => .next s

/-- HART_ACCESS (R15, R16): a register window, or device memory; world 0's harts also have the monitor's part of a migration by
replay (R416, R418). Nothing happens while the application cluster is in reset, or has no monitor yet (R422, R423). -/
def execHartAccess (w : Nat) (addr : DWord) (op : HartOp) (s : State) : Host.Outcome State Fault Refusal :=
  if s.power.held then .next s
  else if hartLen op = 0 then (if w = 0 then monitorAccess addr op s else .next s)
  else
    match hartPage w addr.toNat with
    | some (page, off) => hartRegister w page off op s
    | none => hartDevice w addr op s

end Sys2Proof.Machine
end

