-- ==== Sys2Proof/Machine/System.lean ====
section
/-! DEFINITION. System, trap and timing instructions (R242 to R257). -/

namespace Sys2Proof.Machine

/-- TRAP (R247). -/
def execTrap (c : Ctl) (n : BitVec 7) (a : Src) (s : State) : Host.Outcome State Fault Refusal :=
  issue (.trap c n a) c s (fun h s =>
    .done (eachLane (h.taking c s) (fun ag s =>
      s.trap ag 0x01 h.group.off (n.toNat + 2 ^ 32 * ((s.view ag).src32 a).toNat)) s))

/-- BKPT (R248): a record, and nothing else. -/
def execBkpt (c : Ctl) (n : BitVec 7) (s : State) : Host.Outcome State Fault Refusal :=
  issue (.bkpt c n) c s (fun h s =>
    .done (eachLane (h.taking c s) (fun ag s =>
      match ag with
      | .thread _ tid => s.trapRecord h.place 0x02 false tid h.core h.group.off n.toNat
      | .uniform _ => s.trapRecord h.place 0x02 true 0 h.core h.group.off n.toNat) s))

/-- The value of a special register (R250). -/
def State.sreg (s : State) (h : Here) (ag : Agent) (r : SReg) : DWord :=
  let l := h.place.launch
  match r with
  | .tconf => h.place.team.tconf.setWidth 64
  | .cconf => h.place.cluster.cconf.setWidth 64
  | .wdcnt =>
    match ag with
    | .thread team tid => match s.thread team tid with | some t => t.wdcnt.setWidth 64 | none => 0
    | .uniform _ => 0
  | .wdlim => BitVec.ofNat 64 l.wdog
  | .accOwner => (tget s.accOwner h.core).getD 0
  | .ctxid => BitVec.ofNat 64 (2 ^ 16 * l.world + 2 ^ 8 * l.slot + l.tenant)
  | .ctemp => ((tget s.ctemp h.core).getD 0).setWidth 64
  | .throt => ((tget s.throt h.core).getD 0).setWidth 64
  | .tmode => BitVec.ofNat 64 (natOfBool (s.world l.world).hidden)

/-- SRD (R249 to R251). -/
def execSrd (c : Ctl) (r : SReg) (d : Dst) (s : State) : Host.Outcome State Fault Refusal :=
  issue (.srd c r d) c s (fun h s =>
    if r = .wdcnt ∧ h.pass.uniform then .bad
    else .done (eachLane (h.taking c s) (fun ag s => s.later ag (dstWrites d r.wide (s.sreg h ag r))) s))

/-- SWR (R251). -/
def execSwr (c : Ctl) (r : SReg) (a : Src) (s : State) : Host.Outcome State Fault Refusal :=
  issue (.swr c r a) c s (fun h s =>
    let v := (s.view (.uniform h.pass.team)).src32 a
    match r with
    | .tconf => .done (s.modTeam h.pass.team (fun t => { t with tconf := v }))
    | .cconf => .done (s.modCluster h.place.team.cluster (fun k => { k with cconf := v }))
    | _ => .bad)

/-- An instruction that any FENCE holds back (R243). -/
def fenced (i : Instr) (c : Ctl) (s : State) (f : Here → State → Body) : Host.Outcome State Fault Refusal :=
  issue i c s (fun h s => if (h.taking c s).any (fun a => s.heldAny a) then .wait else f h s)

/-- TIME (R252). -/
def execTime (c : Ctl) (d : Dst) (s : State) : Host.Outcome State Fault Refusal :=
  fenced (.time c d) c s (fun h s =>
    let r := if (h.taking c s).isEmpty then (0, s) else s.readTime h.place.launch.world
    .done (eachLane (h.taking c s) (fun ag s => s.later ag (dstWrites d true (BitVec.ofNat 64 r.1))) r.2))

/-- The team's own accesses, COMMITs and FENCEs have performed (R254 to R256). -/
def settled (i : Instr) (c : Ctl) (s : State) (f : Here → State → Body) : Host.Outcome State Fault Refusal :=
  fenced i c s (fun h s => if !(s.outstanding (.uniform h.pass.team)).isEmpty then .wait else f h s)

/-- Advances window i's cairn, for a context, and returns every tile to being read directly (R388). -/
def State.publish (s : State) (w i : Nat) (x : Window64) (ctx : Nat) : State :=
  let v := x.cval + 1
  let a := x.cairn.toNat
  let s := s.touchHost w a true (some ctx)
  let s := { s with hostMem := s.hostMem.writeN a (bytesOfNat 8 v.toNat) }
  s.setWorld w (fun y => { y with
    windows := y.windows.setIfInBounds i { x with cval := v }
    hist := y.hist.filter (fun e => e.1 != i) })

/-- PUBLISH (R254, R388): of the window only that it is open is asked (log 82). -/
def execPublish (c : Ctl) (i : Fin 16) (d : Dst) (s : State) : Host.Outcome State Fault Refusal :=
  settled (.publish c i d) c s (fun h s =>
    let w := h.place.launch.world
    let ag := Agent.uniform h.pass.team
    let x := ((s.world w).windows[i.val]?).getD Window64.reset
    if x.opened then .done ((s.publish w i.val x h.place.launch.ctx).later ag (dstWrites d true (x.cval + 1)))
    else .done (s.later ag (dstWrites d true 0)))

/-- LAUNCH (R255, R40, R417). -/
def execLaunch (c : Ctl) (d : Dst) (a : Src) (s : State) : Host.Outcome State Fault Refusal :=
  settled (.launch c d a) c s (fun h s =>
    let l := h.place.launch
    let ag := Agent.uniform h.pass.team
    let p := (s.view ag).addr true a noDisp
    if p % 64 ≠ 0 then .done (s.later ag (dstWrites d false 2))
    else if 64 ≤ s.queued l.world then .done (s.later ag (dstWrites d false 1))
    else devWords h [⟨ag, p, 64, true, false⟩] s (fun s =>
      let b := s.devReads l.world p 64
      if !s.logRoom l.world (s.captureUnits l.world b) then .wait
      else .done ((s.captureLaunch l.world b (some l.tenant) 2).later ag (dstWrites d false 0))))

/-- A service's call ring by its capability entry (R256, R405): package address and slots. -/
def State.service (s : State) (w t n : Nat) : Option (Nat × Nat) :=
  match s.cap w t n with
  | some k => if k.kind = 2 then some (k.base, k.len % 65536) else none
  | none => none

/-- The call record (R256). -/
def callRecord (h : Here) (n : Nat) (arg : Nat) (len seq : Nat) : List Byte :=
  let l := h.place.launch
  bytesOfNat 8 (1 + 2 ^ 8 * n + 2 ^ 16 * h.place.team.index + 2 ^ 32 * l.tenant + 2 ^ 40 * l.world) ++
    bytesOfNat 8 arg ++ bytesOfNat 8 (len + 2 ^ 32 * (seq % 2 ^ 32)) ++ bytesOfNat 8 0

/-- SVC (R256): the result comes with SERVICE_REPLY, or at once when the call is refused. -/
def execSvc (c : Ctl) (n : BitVec 7) (d : Dst) (a b : Src) (s : State) : Host.Outcome State Fault Refusal :=
  settled (.svc c n d a b) c s (fun h s =>
    let l := h.place.launch
    let ag := Agent.uniform h.pass.team
    let v := s.view ag
    let len := (v.src32 b).toNat
    let refuse (st : Nat) : Body := .done (s.later ag (dstWrites d true (BitVec.ofNat 64 st)))
    match s.service l.world l.tenant n.toNat with
    | none => refuse 1
    | some (ring, slots) =>
      let seq := (tget s.svcSeq ring).getD 0
      let rec_ := ring + 32 * (seq % slots)
      if 4096 < len then refuse 1
      else if slots = 0 ∨ s.hbmNat rec_ 8 ≠ 0 then refuse 2
      else
        let regs := (dstWrites d true 0).map (·.1)
        .done { (s.setPends ag regs true).ownRaws rec_ (callRecord h n.toNat (v.addr true a noDisp) len seq) with
          svcSeq := tset s.svcSeq ring (seq + 1)
          calls := s.calls ++ [(s.nextId, ⟨h.pass.team, l.world, rec_, regs⟩)]
          nextId := s.nextId + 1 })

/-- What a counter that the model has no measure of has gained since it was last read (log 13): a free count; for the busy
cycles of the matrix array and the drains, no more than their operations have taken (R232, R237). -/
def State.perfGain (s : State) (k ctr : Nat) : Nat × State :=
  if [0, 4, 8, 9].contains ctr then s.draw
  else if [5, 6].contains ctr then
    let (n, s) := s.draw
    (n % ((tget s.cycles k).getD 0 + 1), { s with cycles := tdel s.cycles k })
  else (0, s)

/-- PERF (R257). -/
def execPerf (c : Ctl) (ctr : Fin 16) (d : Dst) (s : State) : Host.Outcome State Fault Refusal :=
  fenced (.perf c ctr d) c s (fun h s =>
    let k := perfKey h.place.launch.part h.place.launch.slot h.core ctr.val
    let s := if (h.taking c s).isEmpty then s else
      match s.perfGain k ctr.val with
      | (0, s) => s
      | (n, s) => s.count h.place h.core ctr.val n
    .done (eachLane (h.taking c s) (fun ag s => s.later ag (dstWrites d true (BitVec.ofNat 64 ((tget s.perf k).getD 0)))) s))

/-- SLEEP (R253). -/
def execSleep (c : Ctl) (a : Src) (s : State) : Host.Outcome State Fault Refusal :=
  issue (.sleep c a) c s (fun h s =>
    .done (s.endBlock h c (fun ag v s =>
      let n := (v.src32 a).toNat
      let off := h.fallThrough c
      if n = 0 then s.setLeave ag (.goto off)
      else s.setLeave ag (.block off (.sleep (s.worldTime h.place.launch.world + n))))))

end Sys2Proof.Machine
end

