-- ==== Sys2Proof/Machine/Dispatch.lean ====
section
/-! DEFINITION. The meaning of each step of the machine: one arm per constructor of Instr. -/

namespace Sys2Proof.Machine

/-- The meaning of a step. -/
def exec (i : Instr) (s : State) : Host.Outcome State Fault Refusal :=
  match i with
  | .nop c => Sys2Proof.Machine.execNop c s
  | .add c sat t d a b => Sys2Proof.Machine.execAdd c sat t d a b s
  | .sub c sat t d a b => Sys2Proof.Machine.execSub c sat t d a b s
  | .addc c t d a b k => Sys2Proof.Machine.execAddc c t d a b k s
  | .subc c t d a b k => Sys2Proof.Machine.execSubc c t d a b k s
  | .mul c t d a b => Sys2Proof.Machine.execMul c t d a b s
  | .mulh c t d a b => Sys2Proof.Machine.execMulh c t d a b s
  | .mad c t d a b e => Sys2Proof.Machine.execMad c t d a b e s
  | .div c t d a b => Sys2Proof.Machine.execDiv c t d a b s
  | .rem c t d a b => Sys2Proof.Machine.execRem c t d a b s
  | .abs c sat t d a => Sys2Proof.Machine.execAbs c sat t d a s
  | .min c t d a b => Sys2Proof.Machine.execMin c t d a b s
  | .max c t d a b => Sys2Proof.Machine.execMax c t d a b s
  | .and c t d a b => Sys2Proof.Machine.execAnd c t d a b s
  | .or c t d a b => Sys2Proof.Machine.execOr c t d a b s
  | .xor c t d a b => Sys2Proof.Machine.execXor c t d a b s
  | .andn c t d a b => Sys2Proof.Machine.execAndn c t d a b s
  | .not c t d a => Sys2Proof.Machine.execNot c t d a s
  | .shl c t d a n => Sys2Proof.Machine.execShl c t d a n s
  | .shr c t d a n => Sys2Proof.Machine.execShr c t d a n s
  | .sha c t d a n => Sys2Proof.Machine.execSha c t d a n s
  | .rot c right t d a n => Sys2Proof.Machine.execRot c right t d a n s
  | .fsh c left d a b n => Sys2Proof.Machine.execFsh c left d a b n s
  | .clz c t d a => Sys2Proof.Machine.execClz c t d a s
  | .popc c t d a => Sys2Proof.Machine.execPopc c t d a s
  | .brev c t d a => Sys2Proof.Machine.execBrev c t d a s
  | .bfx c t d a f => Sys2Proof.Machine.execBfx c t d a f s
  | .bfi c t d a b f => Sys2Proof.Machine.execBfi c t d a b f s
  | .prm c d a b sel => Sys2Proof.Machine.execPrm c d a b sel s
  | .sel c t d a b k => Sys2Proof.Machine.execSel c t d a b k s
  | .cmp c cc op t d a b => Sys2Proof.Machine.execCmp c cc op t d a b s
  | .kop c d ka kb kc table => Sys2Proof.Machine.execKop c d ka kb kc table s
  | .mov c t d a => Sys2Proof.Machine.execMov c t d a s
  | .movi c hi t d v => Sys2Proof.Machine.execMovi c hi t d v s
  | .movs c t dir idx b => Sys2Proof.Machine.execMovs c t dir idx b s
  | .lea c n t d a b e => Sys2Proof.Machine.execLea c n t d a b e s
  | .id c sel d => Sys2Proof.Machine.execId c sel d s
  | .fadd c r t d a b => Sys2Proof.Machine.execFadd c r t d a b s
  | .fsub c r t d a b => Sys2Proof.Machine.execFsub c r t d a b s
  | .fmul c r t d a b => Sys2Proof.Machine.execFmul c r t d a b s
  | .ffma c r t d a b e => Sys2Proof.Machine.execFfma c r t d a b e s
  | .fmin c p t d a b => Sys2Proof.Machine.execFmin c p t d a b s
  | .fmax c p t d a b => Sys2Proof.Machine.execFmax c p t d a b s
  | .fcmp c cc op t d a b => Sys2Proof.Machine.execFcmp c cc op t d a b s
  | .fclass c op t d a mask => Sys2Proof.Machine.execFclass c op t d a mask s
  | .frcps c d a => Sys2Proof.Machine.execFrcps c d a s
  | .frsqs c d a => Sys2Proof.Machine.execFrsqs c d a s
  | .fexs c d a => Sys2Proof.Machine.execFexs c d a s
  | .flgs c d a => Sys2Proof.Machine.execFlgs c d a s
  | .fscl c r t d a n => Sys2Proof.Machine.execFscl c r t d a n s
  | .fgex c t d a => Sys2Proof.Machine.execFgex c t d a s
  | .frnd c r t d a => Sys2Proof.Machine.execFrnd c r t d a s
  | .cvt c r sat dt st d a b => Sys2Proof.Machine.execCvt c r sat dt st d a b s
  | .fdot2 c r t d a b e => Sys2Proof.Machine.execFdot2 c r t d a b e s
  | .br c z a blk => Sys2Proof.Machine.execBr c z a blk s
  | .brx c a blk => Sys2Proof.Machine.execBrx c a blk s
  | .call c xs blk => Sys2Proof.Machine.execCall c xs blk s
  | .ret c xs blk => Sys2Proof.Machine.execRet c xs blk s
  | .exit c => Sys2Proof.Machine.execExit c s
  | .spawn c n d a blk => Sys2Proof.Machine.execSpawn c n d a blk s
  | .yield c => Sys2Proof.Machine.execYield c s
  | .binit c live reg a => Sys2Proof.Machine.execBinit c live reg a s
  | .barv c peek reg d => Sys2Proof.Machine.execBarv c peek reg d s
  | .bwait c reg d a => Sys2Proof.Machine.execBwait c reg d a s
  | .btest c err reg d a => Sys2Proof.Machine.execBtest c err reg d a s
  | .cinit c reg a => Sys2Proof.Machine.execCinit c reg a s
  | .csign c reg d => Sys2Proof.Machine.execCsign c reg d s
  | .wvote c m a => Sys2Proof.Machine.execWvote c m a s
  | .wxch c m t d a b => Sys2Proof.Machine.execWxch c m t d a b s
  | .ld c t d a disp => Sys2Proof.Machine.execLd c t d a disp s
  | .st c t a b disp => Sys2Proof.Machine.execSt c t a b disp s
  | .ldv c n d a disp => Sys2Proof.Machine.execLdv c n d a disp s
  | .stv c n a b disp => Sys2Proof.Machine.execStv c n a b disp s
  | .lds c t d a disp => Sys2Proof.Machine.execLds c t d a disp s
  | .chk c op t a b k => Sys2Proof.Machine.execChk c op t a b k s
  | .commit c l => Sys2Proof.Machine.execCommit c l s
  | .abort c l => Sys2Proof.Machine.execAbort c l s
  | .fence c sc kinds => Sys2Proof.Machine.execFence c sc kinds s
  | .atom c op sc t d a b e => Sys2Proof.Machine.execAtom c op sc t d a b e s
  | .red c op sc t a b disp => Sys2Proof.Machine.execRed c op sc t a b disp s
  | .lkacq c sc d a => Sys2Proof.Machine.execLkacq c sc d a s
  | .lkrel c sc a => Sys2Proof.Machine.execLkrel c sc a s
  | .pref c a disp => Sys2Proof.Machine.execPref c a disp s
  | .swarm c d a b disp => Sys2Proof.Machine.execSwarm c d a b disp s
  | .swait c d a b disp => Sys2Proof.Machine.execSwait c d a b disp s
  | .cpy c tgt a b bounce mcast bch lenm1 rowsm1 spitch dpitch => Sys2Proof.Machine.execCpy c tgt a b bounce mcast bch lenm1 rowsm1 spitch dpitch s
  | .cpyt c out tgt a b tile ntm1 tb scale mcast => Sys2Proof.Machine.execCpyt c out tgt a b tile ntm1 tb scale mcast s
  | .cpyq c d a => Sys2Proof.Machine.execCpyq c d a s
  | .wld c near tgt a tile slot km1 wf => Sys2Proof.Machine.execWld c near tgt a tile slot km1 wf s
  | .wdrop c a b => Sys2Proof.Machine.execWdrop c a b s
  | .mma c m ci a acc mh nh km1 slot nexp => Sys2Proof.Machine.execMma c m ci a acc mh nh km1 slot nexp s
  | .azero c acc => Sys2Proof.Machine.execAzero c acc s
  | .ard c acc d a => Sys2Proof.Machine.execArd c acc d a s
  | .awr c acc f32 a b => Sys2Proof.Machine.execAwr c acc f32 a b s
  | .qst c acc axisM a post tile fmt blkScale rin rout hslot sreg => Sys2Proof.Machine.execQst c acc axisM a post tile fmt blkScale rin rout hslot sreg s
  | .resld c ebase a nm1 disp => Sys2Proof.Machine.execResld c ebase a nm1 disp s
  | .resst c ebase a nm1 disp => Sys2Proof.Machine.execResst c ebase a nm1 disp s
  | .hclr c slot a => Sys2Proof.Machine.execHclr c slot a s
  | .hrd c slot d a => Sys2Proof.Machine.execHrd c slot d a s
  | .trec c fld d a b => Sys2Proof.Machine.execTrec c fld d a b s
  | .topen c d a => Sys2Proof.Machine.execTopen c d a s
  | .tclose c d a => Sys2Proof.Machine.execTclose c d a s
  | .tfe c op d a tile => Sys2Proof.Machine.execTfe c op d a tile s
  | .trap c n a => Sys2Proof.Machine.execTrap c n a s
  | .bkpt c n => Sys2Proof.Machine.execBkpt c n s
  | .srd c r d => Sys2Proof.Machine.execSrd c r d s
  | .swr c r a => Sys2Proof.Machine.execSwr c r a s
  | .time c d => Sys2Proof.Machine.execTime c d s
  | .publish c slot d => Sys2Proof.Machine.execPublish c slot d s
  | .launch c d a => Sys2Proof.Machine.execLaunch c d a s
  | .svc c n d a b => Sys2Proof.Machine.execSvc c n d a b s
  | .perf c ctr d => Sys2Proof.Machine.execPerf c ctr d s
  | .sleep c a => Sys2Proof.Machine.execSleep c a s
  | .admNotify w addr => Sys2Proof.Machine.execAdmNotify w addr s
  | .lqNotify w addr => Sys2Proof.Machine.execLqNotify w addr s
  | .admission => Sys2Proof.Machine.execAdmission s
  | .placement p => Sys2Proof.Machine.execPlacement p s
  | .teamStart core => Sys2Proof.Machine.execTeamStart core s
  | .selection core => Sys2Proof.Machine.execSelection core s
  | .writeBack pass grp => Sys2Proof.Machine.execWriteBack pass grp s
  | .resultArrival id => Sys2Proof.Machine.execResultArrival id s
  | .teamEnd team => Sys2Proof.Machine.execTeamEnd team s
  | .clusterRelease cluster => Sys2Proof.Machine.execClusterRelease cluster s
  | .copyDelivery req => Sys2Proof.Machine.execCopyDelivery req s
  | .matrixStart op => Sys2Proof.Machine.execMatrixStart op s
  | .surgeGrant quarter => Sys2Proof.Machine.execSurgeGrant quarter s
  | .matrixDone op => Sys2Proof.Machine.execMatrixDone op s
  | .drainComplete op => Sys2Proof.Machine.execDrainComplete op s
  | .binExpiry core team addr => Sys2Proof.Machine.execBinExpiry core team addr s
  | .sleepWake team tid => Sys2Proof.Machine.execSleepWake team tid s
  | .serviceReply call => Sys2Proof.Machine.execServiceReply call s
  | .hartAccess w addr op => Sys2Proof.Machine.execHartAccess w addr op s
  | .revoking w page => Sys2Proof.Machine.execRevoking w page s
  | .revoked image => Sys2Proof.Machine.execRevoked image s
  | .pageRequest id => Sys2Proof.Machine.execPageRequest id s
  | .pageRequestGroupResponse w prg r => Sys2Proof.Machine.execPageRequestGroupResponse w prg r s
  | .prstatHaltedClear w => Sys2Proof.Machine.execPrstatHaltedClear w s
  | .atsInvalidationRequest w pasid base size global => Sys2Proof.Machine.execAtsInvalidationRequest w pasid base size global s
  | .invalidationCompletion w => Sys2Proof.Machine.execInvalidationCompletion w s
  | .hostSnoop port line kind => Sys2Proof.Machine.execHostSnoop port line kind s
  | .hostCxlAccess w addr op => Sys2Proof.Machine.execHostCxlAccess w addr op s
  | .birsp w line => Sys2Proof.Machine.execBirsp w line s
  | .windowRead w off n => Sys2Proof.Machine.execWindowRead w off n s
  | .windowWrite w off bytes => Sys2Proof.Machine.execWindowWrite w off bytes s
  | .windowOpen w win => Sys2Proof.Machine.execWindowOpen w win s
  | .windowClose w win => Sys2Proof.Machine.execWindowClose w win s
  | .fqNotify w addr => Sys2Proof.Machine.execFqNotify w addr s
  | .inboundLaunchRequest node srcWorld srcTenant w tenant packet => Sys2Proof.Machine.execInboundLaunchRequest node srcWorld srcTenant w tenant packet s
  | .reductionContribution k => Sys2Proof.Machine.execReductionContribution k s
  | .reductionDelivery inst midx => Sys2Proof.Machine.execReductionDelivery inst midx s
  | .reductionTimeout inst => Sys2Proof.Machine.execReductionTimeout inst s
  | .peerUnreachable node => Sys2Proof.Machine.execPeerUnreachable node s
  | .partitionWrite p off v => Sys2Proof.Machine.execPartitionWrite p off v s
  | .softRequest p slot => Sys2Proof.Machine.execSoftRequest p slot s
  | .resume p slot => Sys2Proof.Machine.execResume p slot s
  | .kill p slot => Sys2Proof.Machine.execKill p slot s
  | .requestArrival p slot => Sys2Proof.Machine.execRequestArrival p slot s
  | .graceExpiry p slot => Sys2Proof.Machine.execGraceExpiry p slot s
  | .haltComplete p slot => Sys2Proof.Machine.execHaltComplete p slot s
  | .killTimerExpiry p slot => Sys2Proof.Machine.execKillTimerExpiry p slot s
  | .killComplete p slot => Sys2Proof.Machine.execKillComplete p slot s
  | .waymaskWrite p slot v => Sys2Proof.Machine.execWaymaskWrite p slot v s
  | .sweepComplete p slot => Sys2Proof.Machine.execSweepComplete p slot s
  | .tokenCredit => Sys2Proof.Machine.execTokenCredit s
  | .borrowReset => Sys2Proof.Machine.execBorrowReset s
  | .serviceTargetEvaluation => Sys2Proof.Machine.execServiceTargetEvaluation s
  | .migrationStart w mdst => Sys2Proof.Machine.execMigrationStart w mdst s
  | .migrationSwitch w => Sys2Proof.Machine.execMigrationSwitch w s
  | .migrationDone w => Sys2Proof.Machine.execMigrationDone w s
  | .worldPause w pause => Sys2Proof.Machine.execWorldPause w pause s
  | .toffWrite w v => Sys2Proof.Machine.execToffWrite w v s
  | .tlastWrite w v => Sys2Proof.Machine.execTlastWrite w v s
  | .migenWrite w b => Sys2Proof.Machine.execMigenWrite w b s
  | .logtailWrite w v => Sys2Proof.Machine.execLogtailWrite w v s
  | .lockInterface w => Sys2Proof.Machine.execLockInterface w s
  | .startInterface w nonce => Sys2Proof.Machine.execStartInterface w nonce s
  | .stopInterface w => Sys2Proof.Machine.execStopInterface w s
  | .getDeviceInterfaceReport w => Sys2Proof.Machine.execGetDeviceInterfaceReport w s
  | .getVersion w => Sys2Proof.Machine.execGetVersion w s
  | .getCapabilities w => Sys2Proof.Machine.execGetCapabilities w s
  | .negotiateAlgorithms w => Sys2Proof.Machine.execNegotiateAlgorithms w s
  | .getCertificate w => Sys2Proof.Machine.execGetCertificate w s
  | .keyExchange w periodMs => Sys2Proof.Machine.execKeyExchange w periodMs s
  | .finish w => Sys2Proof.Machine.execFinish w s
  | .endSession w => Sys2Proof.Machine.execEndSession w s
  | .getMeasurements w request => Sys2Proof.Machine.execGetMeasurements w request s
  | .heartbeat w => Sys2Proof.Machine.execHeartbeat w s
  | .keyRelease w world generation wrapped => Sys2Proof.Machine.execKeyRelease w world generation wrapped s
  | .chanOpen w chan key nonce => Sys2Proof.Machine.execChanOpen w chan key nonce s
  | .chanClose w chan => Sys2Proof.Machine.execChanClose w chan s
  | .heartbeatDeadline w => Sys2Proof.Machine.execHeartbeatDeadline w s
  | .goDark w => Sys2Proof.Machine.execGoDark w s
  | .softErrorReset column => Sys2Proof.Machine.execSoftErrorReset column s
  | .coldStart fails => Sys2Proof.Machine.execColdStart fails s
  | .monitorReady ready => Sys2Proof.Machine.execMonitorReady ready s
  | .warmStart fails => Sys2Proof.Machine.execWarmStart fails s
  | .reload fails => Sys2Proof.Machine.execReload fails s
  | .sensorSample temps => Sys2Proof.Machine.execSensorSample temps s
  | .throttleUpdate => Sys2Proof.Machine.execThrottleUpdate s
  | .powerTermUpdate pwr => Sys2Proof.Machine.execPowerTermUpdate pwr s
  | .modulePowerRemoval inputFault => Sys2Proof.Machine.execModulePowerRemoval inputFault s
  | .registerWrite page off v => Sys2Proof.Machine.execRegisterWrite page off v s
  | .launchRequestAcknowledgement req code => Sys2Proof.Machine.execLaunchRequestAcknowledgement req code s
  | .worldPartWrite w v => Sys2Proof.Machine.execWorldPartWrite w v s
  | .vendorDefinedRequest w payload => Sys2Proof.Machine.execVendorDefinedRequest w payload s

end Sys2Proof.Machine
end

