-- ==== Sys2Proof/Machine/Turns.lean ====
section
/-! DEFINITION. Fetching an instruction (R66, R71), who may move next (log 3), and what follows every step. -/

namespace Sys2Proof.Machine

/-! Fetch. -/

/-- The bytes at a group's address: as many as the longest instruction has. -/
def State.fetchBytes (s : State) (i : Image) (off : Nat) : List Byte := s.devBytes i.world (i.code + off) 16

/-- The instruction at an address of an image's code section. -/
def State.instrAt (s : State) (i : Image) (off : Nat) : Option Instr :=
  if i.codeLen ≤ off then none
  else
    match decode (s.fetchBytes i off) with
    | .ok (x, _) => some x
    | .error _ => none

/-- The tiles with the bytes at the issuing group's address are filled (R412). -/
def State.fetched (s : State) : Bool × State :=
  match s.here with
  | some h => let i := h.place.image; s.fill i.world (i.code + h.group.off) (Nat.min 16 (i.codeLen - h.group.off))
  | none => (true, s)

/-- The instruction the group whose turn it is will issue. -/
def State.fetch (s : State) : Option Instr := s.here.bind (fun h => s.instrAt h.place.image h.group.off)

/-! Who may move (log 3). -/

/-- A team's groups may issue: it has its reservation (R341), and its context runs, or it finishes a merge that has begun (R359,
R362). -/
def State.mayIssue (s : State) (team : Nat) : Bool :=
  match s.place team with
  | some p =>
    let c := s.slotOf p.launch
    !p.cluster.saved && p.team.mres.isSome && (c.runs || (c.state == 4 && p.team.dwait))
  | none => false

/-- Groups that have entered a pipe and may issue (R285), and groups to be written back; nothing runs on a core that is being
reset (R340). -/
def State.groupTurns (s : State) : List Turn :=
  (s.passes.filter (fun e => !s.coreDown e.2.core)).flatMap (fun e => e.2.groups.filterMap (fun g =>
    if g.2.done then some (.event (.writeBack e.1 g.1))
    else if g.2.pipe.isSome && s.mayIssue e.2.team then some (.issue e.1 g.1)
    else none))

/-- The cores that teams stand on, but for those that are being reset (R340). -/
def State.busyCores (s : State) : List Nat :=
  ((s.teams.flatMap (fun e => e.2.cores)).eraseDups).filter (fun c => !s.coreDown c)

/-- What may happen to threads and teams. -/
def State.threadTurns (s : State) : List Instr :=
  let cores := s.busyCores
  let ends := s.teams.filterMap (fun (e : Nat × Team) =>
    if e.2.started && !e.2.ended && s.liveCount e.1 == 0 then some (Instr.teamEnd e.1) else none)
  let wakes := s.threads.filterMap (fun (e : Nat × Thread) =>
    match e.2.st with
    | .blocked _ (.sleep _) => some (Instr.sleepWake (e.1 / 8192) (e.1 % 8192))
    | _ => none)
  let bins := s.cands.filterMap (fun (e : Cand) => if e.bin then some (Instr.binExpiry e.core e.team e.off) else none)
  [cores.map Instr.teamStart, cores.map Instr.selection, ends, wakes, bins,
    s.clusters.map (fun (e : Nat × Cluster) => Instr.clusterRelease e.1)].flatten

/-- What may happen to one operation on accumulator banks. -/
def bankTurns (e : Nat × BankOp) : List Instr :=
  match e.2.kind with
  | .mma _ => if e.2.started then [.matrixDone e.1] else [.matrixStart e.1, .surgeGrant (quarterOf e.2.core)]
  | _ => []

/-- What may happen to results, copies, bank operations, drains and calls. -/
def State.engineTurns (s : State) : List Instr :=
  [s.pends.filterMap (fun (e : Nat × Pend) =>
      match e.2.kind with | .lost _ => none | _ => some (Instr.resultArrival e.1)),
    s.copies.map (fun (e : Nat × CopyReq) => Instr.copyDelivery e.1),
    s.bankOps.flatMap bankTurns,
    s.drains.map (fun (e : Nat × TileWrite) => Instr.drainComplete e.1),
    s.calls.map (fun (e : Nat × SvcCall) => Instr.serviceReply e.1)].flatten

/-- What may happen to one context slot. -/
def slotTurns (e : Nat × Slot) : List Instr :=
  let p := e.1 / 16
  let i := e.1 % 16
  let on (b : Bool) (x : Instr) : List Instr := if b then [x] else []
  let halting : Bool := e.2.state == 3 || e.2.state == 4
  [on e.2.flying (.requestArrival p i), on (e.2.state == 3) (.graceExpiry p i), on halting (.haltComplete p i),
    on halting (.killTimerExpiry p i), on (e.2.state == 7) (.killComplete p i),
    on (e.2.sweep != 0) (.sweepComplete p i)].flatten

/-- The partitions with work for the dispatcher (R351). -/
def State.placing (s : State) : List Nat :=
  let new := s.launches.filterMap (fun (e : Nat × Launch) =>
    if e.2.places then some (s.world e.2.world).part else none)
  let back := s.slots.filterMap (fun (e : Nat × Slot) => if e.2.resume then some (e.1 / 16) else none)
  (new ++ back).eraseDups

/-- What may happen in admission, in the dispatcher and on the ladder. -/
def State.dispatchTurns (s : State) : List Instr :=
  [if s.subs.isEmpty then [] else [Instr.admission],
    s.placing.map Instr.placement,
    s.slots.flatMap slotTurns,
    if s.slots.any (fun (e : Nat × Slot) => e.2.bound) then
      [Instr.tokenCredit, Instr.borrowReset, Instr.serviceTargetEvaluation]
    else []].flatten

/-- What may happen to a reduction instance. -/
def reductionTurns (e : Nat × Reduction) : List Instr :=
  Instr.reductionTimeout e.1 :: e.2.owed.map (fun m => Instr.reductionDelivery e.1 m)

/-- What may happen on the host link and in the fabric. -/
def State.linkTurns (s : State) : List Instr :=
  [s.pageReqs.filterMap (fun (e : Nat × PageReq) => if e.2.sent then none else some (Instr.pageRequest e.1)),
    s.invals.map (fun (e : Inval) => Instr.invalidationCompletion e.world),
    s.images.filterMap (fun (e : Nat × Image) => if e.2.state = .revoking then some (Instr.revoked e.1) else none),
    s.fabric.filterMap (fun (e : Nat × FabDesc) =>
      if e.2.reduction && !e.2.sent then some (Instr.reductionContribution (e.2.contribution e.1 s.node.toNat)) else none),
    s.reductions.flatMap reductionTurns].flatten

/-- What may happen to a world. -/
def worldTurns (e : Nat × World) : List Instr :=
  let on (b : Bool) (x : Instr) : List Instr := if b then [x] else []
  [on (e.2.mig.active == 1) (.migrationSwitch e.1), on (e.2.mig.active == 2) (.migrationDone e.1),
    on e.2.session (.heartbeatDeadline e.1), on (e.2.dark != 0) (.goDark e.1)].flatten

/-- What may happen to the worlds, to a start and to the throttle. -/
def State.packageTurns (s : State) : List Instr :=
  let starts := match s.power.starting with
    | .ready _ _ => [Instr.monitorReady false]
    | .none => if s.power.state = 1 then (none :: (List.finRange 5).map some).map (fun f => Instr.coldStart ⟨false, f⟩) else []
    | .ending _ => []
  let hot : Bool := Config.moduleForm && s.above (s.power.tcrit.toNat + 10)
  let warm : Bool := !s.ctemp.isEmpty || !s.throt.isEmpty || s.power.sp != 0
  [s.worlds.flatMap worldTurns, starts, if hot then [Instr.modulePowerRemoval false] else [], if warm then [Instr.throttleUpdate] else []].flatten

/-- All that may happen, but for what the outside asks: nothing without power (R427). -/
def State.turns (s : State) : List Turn :=
  if s.power.removed then [] else
  [s.groupTurns, s.threadTurns.map .event, s.engineTurns.map .event, s.dispatchTurns.map .event,
    s.linkTurns.map .event, s.packageTurns.map .event].flatten

/-- What the outside asks for in one order: two requests of one channel act in the order in which they came (R18, R325, R380,
R392; log 28). -/
inductive Channel where
  | admission (w : Nat)
  | launches (w : Nat)
  | fabric (w : Nat)
  | inbound (w : Nat)
  | page (w page : Nat)
  | invalidations (w : Nat)
  | tables (w : Nat)
  | peer (node : Nat)
  | switch (w : Nat)
  deriving DecidableEq, Repr

/-- The channel of a register (R17, R389). -/
def regChannel (page : RegPage) (off : Nat) : Option Channel :=
  match page, off with
  | .bar0 w, 0x0000 => some (.admission w)
  | .bar0 w, 0x0008 => some (.launches w)
  | .bar0 w, 0x2000 => some (.fabric w)
  | _, _ => none

/-- The channel of a request that may have to wait. -/
def channelOf (i : Instr) : Option Channel :=
  match i with
  | .admNotify w _ => some (.admission w)
  | .lqNotify w _ => some (.launches w)
  | .fqNotify w _ => some (.fabric w)
  | .registerWrite page off _ => regChannel page off
  | .inboundLaunchRequest _ _ _ w _ _ => some (.inbound w)
  | .hartAccess w a _ =>
    match hartPage w a.toNat with
    | some (page, off) => regChannel page off
    | none => some (.page w (a.toNat / bigPage))
  | .hostCxlAccess w a _ => some (.page w (a.toNat / bigPage))
  | .atsInvalidationRequest w _ _ _ _ => some (.invalidations w)
  | .revoking w _ => some (.tables w)
  | .peerUnreachable n => some (.peer n)
  | .reductionContribution k => some (.switch k.world)
  | _ => none

/-- One of a list of requests is of a request's channel. -/
def sameChannel (i : Instr) (l : List Instr) : Bool := (channelOf i).isSome && l.any (fun j => channelOf j == channelOf i)

/-- The requests held that none of their channel came before. -/
def State.heldTurns (s : State) : List Instr :=
  (s.held.zipIdx.filter (fun e => !sameChannel e.1 (s.held.take e.2))).map (·.1)

/-- What the outside asks for next comes to be held behind the requests of its channel that are: what is left of the inputs,
and what is held. -/
def takeIn : List Instr → List Instr → List Instr × List Instr
  | [], held => ([], held)
  | i :: r, held => if sameChannel i held then takeIn r (held ++ [i]) else (i :: r, held)

/-- A request that means something without power (R427). -/
def startsUp : Instr → Bool
  | .coldStart _ => true
  | _ => false

/-- The inputs as they are heeded: in their order within a channel, and without power only what brings it back. -/
def State.intake (s : State) : State :=
  if s.power.removed then { s with inputs := s.inputs.dropWhile (fun i => !startsUp i), held := [] }
  else
    let (inputs, held) := takeIn s.inputs s.held
    { s with inputs := inputs, held := held }

/-- Where a turn comes from. -/
inductive Origin where
  | device | held | outside
  deriving DecidableEq, Repr

/-- Names who moves next: one of those that may, or a request that was held, or the first thing the outside has asked for. -/
def State.schedule (s : State) : State :=
  let s := s.intake
  let l := s.turns.map (fun t => (t, Origin.device)) ++ s.heldTurns.map (fun i => (.event i, Origin.held)) ++
    (s.inputs.take 1).map (fun i => (.event i, Origin.outside))
  match s.pick l with
  | none => { s with turn := .idle }
  | some ((t, src), s) =>
    match src, t with
    | .held, .event i => { s with turn := t, held := s.held.erase i }
    | .outside, _ => { s with turn := t, inputs := s.inputs.drop 1 }
    | _, _ => { s with turn := t }

/-- The reference clock goes on (log 2). -/
def State.tick (s : State) : State := { s with now := s.now + Config.freeTicks s.free, free := s.free + 1 }

/-- What follows every step. -/
def State.after (s : State) : State :=
  s.tick.settle.settleSurge.settleResets.settleDeps.settleDues.settleSends.settleAnswers.settleBreaks.settleChans.settleDark.settleStart.settleWriters.schedule

/-! A word placed for the fetch. -/

/-- An image whose code section is one word, at device address 0x10000 of world 1. -/
def benchImage : Image where
  world := 1
  tenant := 0
  id := 1
  base := 0
  len := 131072
  verdict := 0
  state := .sealed
  code := 65536
  codeLen := 64
  blocks := []
  regions := []
  nargs := 0
  regs := 64
  threads := 32
  nearSz := 524288
  colSz := 0
  locSz := 4096
  wbuf := 524288
  accBanks := 8
  tmset := 0
  clset := 0
  producer := false
  latrev1 := false
  replayOk := true
  sites := [(0, ⟨.near, 254, false⟩), (1, ⟨.near, 254, false⟩)]
  ptrCmps := []
  prodChecks := []
  seeds := []
  pages := [1]

/-- A launch of that image: one cluster of one core, one team. -/
def benchLaunch : Launch where
  world := 1
  tenant := 0
  image := 1
  state := .running
  prio := 0
  locdev := false
  scommit := false
  sstall := false
  prodw := 0
  amax := 0
  threads := 1
  entry := 0
  cw := 1
  ch := 1
  gx := 1
  gy := 1
  gz := 1
  wdog := 0
  bin := 0
  tpc := 1
  compl := 0
  regions := []
  args := []
  deps := []
  mcast := []
  pasid := none
  locbase := 0
  part := 0
  slot := 0
  placed := 1
  released := 0
  teams := 0
  exits := 0
  stops := 0
  eclass := 0
  etime := 0
  killed := false
  order := 0
  eligible := true
  bits := none
  checked := true

/-- One group of one thread, or of a uniform pass, about to issue at offset 0 of that image; names 1 on are taken. -/
def State.bench (s : State) (uniform : Bool) : State :=
  { s with
    turn := .issue 1 0
    nextId := Nat.max s.nextId 2
    devTab := (1, 0, some 0) :: s.devTab.filter (fun e => !(e.1 == 1 && e.2.1 == 0))
    images := tset s.images 1 benchImage
    launches := tset s.launches 1 benchLaunch
    clusters := tset s.clusters 1 (Cluster.placed 1 0 0 0 0 1 1 [1])
    teams := tset s.teams 1 { Team.placed 1 1 0 [0] 1 with started := true, mres := some ⟨0, 8, 0, 524288⟩ }
    threads := tset s.threads (tkey 1 0) (Thread.start (.inPass 1))
    passes := tset s.passes 1 ⟨0, 1, 0, uniform, false, [(0, ⟨if uniform then [] else [0], 0, 0, [], 0, some 0, false⟩)]⟩
    slots := tset s.slots 0 { Slot.reset with bound := true, world := 1, state := 1 } }

/-- The state with a word at the address that the next fetch reads. -/
def State.placeWord (s : State) (h : Here) (bytes : List Byte) : State :=
  s.devRaws h.place.image.world (h.place.image.code + h.group.off) bytes

end Sys2Proof.Machine
end

