-- ==== Sys2Proof/Machine/Step.lean ====
section
/-! DEFINITION. One step of the machine: whose turn it is moves, and then `State.after`. -/

namespace Sys2Proof.Machine

/-- An outcome with what follows every step. -/
def afterStep (o : Host.Outcome State Fault Refusal) : Host.Outcome State Fault Refusal :=
  match o with
  | .next s => .next s.after
  | .fault f => .fault f
  | .refused r => .refused r

/-- One step. A group whose word lies in a tile with a wrong tag does not get it (R412). -/
def step (s : State) : Host.Outcome State Fault Refusal :=
  match s.turn with
  | .idle => .next s.after
  | .issue _ _ =>
    match s.fetched with
    | (false, s) => .next s.after
    | (true, s) =>
      match s.fetch with
      | some i => afterStep (exec i s)
      | none => .fault .noInstruction
  | .event i => afterStep (exec i s)

/-- The state with an instruction word stored where the next fetch reads it: at the issuing group's address, or, where no
group is about to issue, at that of a group made for it (log 21). -/
def State.withFetchWord (s : State) (nbits w : Nat) : State :=
  let bytes := bytesOfNat 16 (w % 2 ^ nbits)
  match s.here with
  | some h => s.placeWord h bytes
  | none =>
    let uniform := match decodeTableWord nbits w with | some i => !i.legalIn.1 | none => false
    let t := s.bench uniform
    match t.here with
    | some h => t.placeWord h bytes
    | none => t

end Sys2Proof.Machine
end

