-- ==== Sys2Proof/Safety.lean ====
section
/-! DEFINITION. What a safe run is, and the terms the statements use: when the issuing group can issue a word, which
registers hold a result, and what a word that only writes registers leaves alone. -/

namespace Sys2Proof

/-- A state's step answers a next state. -/
def Machine.State.goesOn (s : Machine.State) : Prop := ∃ t, Machine.step s = .next t

/-- The first n steps from a state all answer next states. -/
def safeFor (n : Nat) (s : Machine.State) : Prop :=
  match n with
  | 0 => True
  | n + 1 => ∃ t, Machine.step s = .next t ∧ safeFor n t

namespace Machine

/-- These parts of device memory can be used at once by a word of the launch: none of them is claimed (R333), no line that is
read may be with the host (R385), no page that is written is being moved (R325), no earlier access of its agent to the same
bytes is under way (R318), no token need be awaited (R357), and the tags of the tiles that are read are right (R412). -/
def State.devFree (s : State) (l : Launch) (uses : List DevUse) : Prop :=
  uses = [] ∨ (uses.any (s.devBusy l.world) = false ∧ (s.slotOf l).rate = 0 ∧ (s.fills l.world uses).1 = true)

/-- In the launch's world no tile is claimed (R333), no line may be with the host (R385) and no page is being moved (R325),
no bucket limits its context (R357), and no access of the agent to device memory is under way (R318). -/
def State.quiet (s : State) (l : Launch) (ag : Agent) : Prop :=
  (∀ a n, overlaps s.pends ag .dev a n = false) ∧ (∀ a n, s.claimedRange l.world a n = false ∧ s.hostMay l.world a n = false) ∧ (s.world l.world).mig.active ≠ 1 ∧
    (s.world l.world).mig.waiting = [] ∧ (s.slotOf l).rate = 0

/-- World w holds no keys, and no tile of HBM lies encrypted: memory is as it is written. -/
def State.unsealed (s : State) (w : Nat) : Prop := s.keys w = none ∧ s.seals = []

/-- The device writes its own records of world w as they arise: none waits to be written, and no page of the world is being
moved (R325). -/
def State.recordsFree (s : State) (w : Nat) : Prop :=
  s.dues = [] ∧ (s.world w).mig.active ≠ 1 ∧ (s.world w).mig.waiting = []

/-- A completion record of world w can be written as it arises: records are, the command log needs no entry of it (R417), and
no log is being replayed (R418). -/
def State.completionFree (s : State) (w : Nat) : Prop :=
  s.recordsFree w ∧ (s.world w).log = false ∧ (s.world w).replay = []

/-- No window of the world is open (R387), so that no placement is copied to a history. -/
def State.windowsClosed (s : State) (w : Nat) : Prop := ∀ i : Fin 16, (s.world w).windows[i].opened = false

/-- The slot of world w's fault ring that its next trap record is for (R246). -/
def State.trapSlot (s : State) (w : Nat) : Nat :=
  (s.world w).frbase.toNat + 64 * ((s.world w).frindex % (s.world w).frslots)

/-- World w's fault ring has a free slot for its next record, aligned and mapped, in memory that lies there as it is written,
and the record is written as it arises. -/
def State.ringFree (s : State) (w : Nat) : Prop :=
  (s.world w).frslots ≠ 0 ∧ s.trapSlot w % 64 = 0 ∧ s.devNat w (s.trapSlot w) 8 = 0 ∧
    (s.devAddr w (s.trapSlot w)).isSome = true ∧ s.windowsClosed w ∧ s.unsealed w ∧ s.recordsFree w

/-- From s to t, the fault ring's next slot has come to hold a record of this code, of a thread or of a team (R246). -/
def State.trapTold (s t : State) (w code : Nat) (team : Bool) : Prop :=
  t.devNat w (s.trapSlot w) 1 = code ∧ t.devNat w (s.trapSlot w + 1) 1 = natOfBool team

/-! What a floating-point value stands for (R48), and how a number is rounded (R51). -/

/-- The number that a finite value is; 0 stands for the others. -/
def FVal.num : FVal → ℚ
  | .fin n m e => (if n then -1 else 1) * (m : ℚ) * 2 ^ e
  | _ => 0

/-- The value is finite. -/
def FVal.finite : FVal → Bool
  | .fin .. => true
  | _ => false

/-- The greatest finite number of a format. -/
def Fmt.big (f : Fmt) : ℚ := (2 ^ (f.fb + 1) - 1) * 2 ^ (1 - f.emin - f.fb)

/-- These bits are x, which is not 0, rounded once to the format in the mode (R51): its sign; where x is within the format's
range, the finite number nearest to it, with ties to even, or the nearest one towards zero, below or above; and beyond it the
infinity or the greatest finite number that the mode gives. -/
def Fmt.Rounds (f : Fmt) (mode : Rnd) (x : ℚ) (bits : Nat) : Prop :=
  let isNum (z : ℚ) : Prop := ∃ n, n < 2 ^ (f.eb + f.fb + 1) ∧ (f.unpack n).finite = true ∧ (f.unpack n).num = z
  let y := (f.unpack bits).num
  bits < 2 ^ (f.eb + f.fb + 1) ∧ f.neg bits = decide (x < 0) ∧
    (|x| ≤ f.big → (f.unpack bits).finite = true ∧
      match mode with
      | .rn => ∀ z, isNum z → |y - x| ≤ |z - x| ∧ (z ≠ y → |z - x| = |y - x| → bits % 2 = 0)
      | .rz => |y| ≤ |x| ∧ 0 ≤ y * x ∧ ∀ z, isNum z → |z| ≤ |x| → |z| ≤ |y|
      | .rm => y ≤ x ∧ ∀ z, isNum z → z ≤ x → z ≤ y
      | .rp => x ≤ y ∧ ∀ z, isNum z → x ≤ z → y ≤ z) ∧
    (f.big < |x| → f.mag bits =
      if (match mode with
        | .rn => decide (|x| < (2 ^ (f.fb + 2) - 1) * 2 ^ (-f.emin - f.fb))
        | .rz => true
        | .rm => decide (0 < x)
        | .rp => decide (x < 0)) then f.infBits - 1 else f.infBits)

/-- This integer is x rounded in the mode (R51). -/
def RoundsToInt (mode : Rnd) (x : ℚ) (n : ℤ) : Prop :=
  match mode with
  | .rn => |(n : ℚ) - x| ≤ 1 / 2 ∧ (|(n : ℚ) - x| = 1 / 2 → n % 2 = 0)
  | .rz => |(n : ℚ)| ≤ |x| ∧ |x| < |(n : ℚ)| + 1 ∧ 0 ≤ n * x
  | .rm => n = ⌊x⌋
  | .rp => n = ⌈x⌉

/-- An outcome is a next state of which P holds. -/
def nextWith (o : Host.Outcome State Fault Refusal) (P : State → Prop) : Prop := ∃ t, o = .next t ∧ P t

/-- The group whose turn it is stands at h and can issue the word now: its form is one that an encoding writes and that is
legal in this kind of block, no register it reads or writes is pending in any lane (R83), and no strict stall is
undersized (R84). -/
structure Ready (i : Instr) (s : State) (h : Here) : Prop where
  here : s.here = some h
  wf : i.wf = true
  form : i.formOk h.pass.uniform = true
  free : h.waits i s = false
  stall : h.undersized i s = none

/-- The agent's registers hold these values. -/
def State.holds (s : State) (a : Agent) (l : List (Reg × Word)) : Prop := ∀ e ∈ l, (s.view a).reg e.1 = e.2

/-- A value is on its way to these registers of the agent (R83). -/
def State.coming (s : State) (a : Agent) (l : List (Reg × Word)) : Prop :=
  ∃ e ∈ s.pends, e.2 = ⟨a, .ready l, 0⟩

/-- A thread but for its window. -/
def Thread.sansWin (t : Thread) : Thread := { t with win := zeroWindow }

/-- A team but for the registers its uniform blocks write: s, o and y. -/
def Team.sansRegs (t : Team) : Team :=
  { t with s := Vector.replicate 1024 0, uo := Vector.replicate 8 0, uy := Vector.replicate 2 0 }

/-- From s to t, no more than registers of these agents' windows, or of their team in a uniform pass, have changed, and the
issuing group's place: all memory, every set, every other thread and team, and every other part of the state is as
before. The counters of R257 may count. -/
structure OnlyRegs (h : Here) (agents : List Agent) (s t : State) : Prop where
  rest : t = { s with threads := t.threads, teams := t.teams, passes := t.passes, perf := t.perf }
  threads : ∀ k, (tget t.threads k).map Thread.sansWin = (tget s.threads k).map Thread.sansWin
  otherThreads : ∀ k, (∀ team tid, Agent.thread team tid ∈ agents → k ≠ tkey team tid) →
    tget t.threads k = tget s.threads k
  teams : ∀ k, (tget t.teams k).map Team.sansRegs = (tget s.teams k).map Team.sansRegs
  otherTeams : ∀ k, Agent.uniform k ∉ agents → tget t.teams k = tget s.teams k
  otherPasses : ∀ k, k ≠ h.pid → tget t.passes k = tget s.passes k

/-- The same agents' registers that are not in the list are as before. -/
def keepsOthers (agents : List Agent) (regs : List Reg) (s t : State) : Prop :=
  ∀ a ∈ agents, ∀ r, r ∉ regs → (t.view a).reg r = (s.view a).reg r

/-- The issuing group stands behind a word of this form. -/
def movedOn (h : Here) (c : Ctl) (t : State) : Prop :=
  ((tget t.passes h.pid).bind (fun p => tget p.groups h.gid)).map (·.off) = some (h.group.off + c.form.bytes)

/-- From s to t, a trap of this code has stopped the agent (R244): its thread is gone, or its team has no thread left; and the
fault ring, where it is free, has the record, for a team that holds no locks to be broken. -/
def Here.stops (h : Here) (s t : State) (ag : Agent) (code : Nat) : Prop :=
  let w := h.place.launch.world
  match ag with
  | .thread team tid => t.thread team tid = none ∧ (s.ringFree w → s.trapTold t w code false)
  | .uniform team => t.liveTids team = [] ∧ (tget t.teams team).map (·.stopped) = some true ∧
      (h.place.team.locks = [] → s.ringFree w → s.trapTold t w code true)

/-- How the agent leaves its block, once its group has been written back (R156). -/
def State.leaveOf (s : State) (a : Agent) : Option Leave :=
  match a with
  | .thread team tid => (s.thread team tid).bind (·.leave)
  | .uniform team => (tget s.teams team).bind (·.uleave)

/-- The one lane of the group that takes the word. -/
structure Alone (h : Here) (c : Ctl) (s : State) (a : Agent) : Prop where
  takes : h.taking c s = [a]
  alive : s.alive a = true

/-- A thread but for the block it goes to. -/
def Thread.sansLeave (t : Thread) : Thread := { t with leave := none }

/-- A team but for the block it goes to and the mark of a task boundary. -/
def Team.sansLeave (t : Team) : Team := { t with uleave := none, boundary := false }

/-- From s to t, no more has changed than where these agents go next and the issuing group's place: every register, all
memory, every set, every other thread and team, and every other part of the state is as before. The counters of R257 may
count. -/
structure OnlyLeaves (h : Here) (agents : List Agent) (s t : State) : Prop where
  rest : t = { s with threads := t.threads, teams := t.teams, passes := t.passes, perf := t.perf }
  threads : ∀ k, (tget t.threads k).map Thread.sansLeave = (tget s.threads k).map Thread.sansLeave
  otherThreads : ∀ k, (∀ team tid, Agent.thread team tid ∈ agents → k ≠ tkey team tid) →
    tget t.threads k = tget s.threads k
  teams : ∀ k, (tget t.teams k).map Team.sansLeave = (tget s.teams k).map Team.sansLeave
  otherTeams : ∀ k, Agent.uniform k ∉ agents → tget t.teams k = tget s.teams k
  otherPasses : ∀ k, k ≠ h.pid → tget t.passes k = tget s.passes k

/-- The issuing group stands behind the word that ended its block. -/
def ended (h : Here) (t : State) : Prop :=
  ((tget t.passes h.pid).bind (fun p => tget p.groups h.gid)).map (·.done) = some true

/-- A thread but for its pending bits. -/
def Thread.sansPend (t : Thread) : Thread := { t with pendX := 0, pendK := 0 }

/-- A team but for its pending bits. -/
def Team.sansPend (t : Team) : Team := { t with sPend := 0, resPend := 0 }

/-- From s to t, no more than results on their way have been added, with the pending bits of these agents' registers and
the issuing group's place (R83): every register and every other part of the state is as before. The counters of R257 may
count. -/
structure OnlyPending (h : Here) (agents : List Agent) (s t : State) : Prop where
  rest : t = { s with threads := t.threads, teams := t.teams, passes := t.passes, perf := t.perf, pends := t.pends
                      nextId := t.nextId }
  threads : ∀ k, (tget t.threads k).map Thread.sansPend = (tget s.threads k).map Thread.sansPend
  otherThreads : ∀ k, (∀ team tid, Agent.thread team tid ∈ agents → k ≠ tkey team tid) →
    tget t.threads k = tget s.threads k
  teams : ∀ k, (tget t.teams k).map Team.sansPend = (tget s.teams k).map Team.sansPend
  otherTeams : ∀ k, (∀ a ∈ agents, a ≠ .uniform k) → tget t.teams k = tget s.teams k
  otherPasses : ∀ k, k ≠ h.pid → tget t.passes k = tget s.passes k
  earlier : ∃ l, t.pends = s.pends ++ l

/-- The same state but for what issuing an instruction keeps of its own: the groups' places, the counters of R257 and the
order in which groups wait for the copy unit (R331). -/
def State.alike (s u : State) : Prop := u = { s with passes := u.passes, perf := u.perf, copyQ := u.copyQ }

/-- From s to t, no more than world w has changed. -/
structure OnlyWorld (w : Nat) (s t : State) : Prop where
  rest : t = { s with worlds := t.worlds }
  others : ∀ k, k ≠ w → t.world k = s.world k

/-- From s to t, no more than context slot i of partition p has changed. -/
structure OnlySlot (p i : Nat) (s t : State) : Prop where
  rest : t = { s with slots := t.slots }
  others : ∀ q j, q * 16 + j ≠ p * 16 + i → t.slot q j = s.slot q j

/-- From s to t, no more than partition p's block has changed. -/
structure OnlyPart (p : Nat) (s t : State) : Prop where
  rest : t = { s with parts := t.parts }
  others : ∀ q, q ≠ p → t.part q = s.part q

/-- Whoever may issue next may do so: its pass and group stand in the machine, the group has entered a pipe (R285) and has not
ended its block, its cluster is on its cores, with the team's reservation (R341), and its context is Active, or Requested, or
Forced while its team finishes a merge that has begun (R359, R362, R366); and the machine is idle only where nothing may happen
and nothing is asked. -/
def State.turnOk (t : State) : Prop :=
  (∀ p g, t.turn = .issue p g → ∃ e ∈ t.passes, e.1 = p ∧ ∃ k ∈ e.2.groups, k.1 = g ∧ k.2.done = false ∧
    k.2.pipe.isSome = true ∧ ∃ pl, t.place e.2.team = some pl ∧ pl.cluster.saved = false ∧ pl.team.mres.isSome = true ∧
      ((t.slotOf pl.launch).state = 1 ∨ (t.slotOf pl.launch).state = 3 ∨
        ((t.slotOf pl.launch).state = 4 ∧ pl.team.dwait = true))) ∧
  (t.turn = .idle → t.turns = [] ∧ t.inputs = [] ∧ t.held = [])

/-- A word that is ready answers a next state, in which every live lane that takes it holds what f computes from its
registers as they were. -/
def Gives (i : Instr) (c : Ctl) (f : View → List (Reg × Word)) : Prop :=
  ∀ s h, Ready i s h → nextWith (exec i s) (fun t => ∀ a ∈ h.taking c s, s.alive a = true → t.holds a (f (s.view a)))

/-- The same for a result of variable latency: it is on its way, its registers are pending, and nothing else changes. -/
def GivesLater (i : Instr) (c : Ctl) (f : View → List (Reg × Word)) : Prop :=
  ∀ s h, Ready i s h → nextWith (exec i s) (fun t =>
    (∀ a ∈ h.taking c s, s.alive a = true → t.coming a (f (s.view a))) ∧ OnlyPending h h.agents s t ∧ movedOn h c t)

end Machine

/-- The words whose whole effect is a write of registers that arrives with a fixed latency. -/
def Instr.onlyRegs : Instr → Bool
  | .nop .. | .add .. | .sub .. | .addc .. | .subc .. | .mul .. | .mulh .. | .mad .. | .abs .. | .min .. | .max ..
  | .and .. | .or .. | .xor .. | .andn .. | .not .. | .shl .. | .shr .. | .sha .. | .rot .. | .fsh .. | .clz ..
  | .popc .. | .brev .. | .bfx .. | .bfi .. | .prm .. | .sel .. | .cmp .. | .kop .. | .mov .. | .movi .. | .lea ..
  | .id .. | .fadd .. | .fsub .. | .fmul .. | .ffma .. | .fmin .. | .fmax .. | .fcmp .. | .fclass .. | .frcps ..
  | .frsqs .. | .fexs .. | .flgs .. | .fscl .. | .fgex .. | .frnd .. | .cvt .. | .fdot2 .. => true
  | _ => false

end Sys2Proof
end

