-- ==== Sys2Proof/Certificates/Slice0/Obligations.lean ====
section
/-! DEFINITION. The statements for the provers. -/

open Sys2Proof Sys2Proof.Machine

/-! Integer, logic and address words. -/

/-- R112: ADD, SUB, MUL, MAD, MIN, MAX and ABS give the exact value, wrapped to W bits, or clamped to the type's limits
with .sat. R114: MULH gives the upper half of the exact product. R113: ADDC and SUBC take k[c] in and give it back in
the same event as the result, in thread blocks, which alone have k registers. R115: DIV and REM divide towards zero,
with the results of its entry where B is 0 and where MIN_W is divided by −1; they are on their way when the word has
issued (R83). -/
def Obligations.ArithmeticResults : Prop :=
  (∀ (c : Ctl) (sat : Bool) (t : Ty) (d : Dst) (a b e : Src),
     let put (v : Int) : List (Reg × Word) := dstWrites d t.wide (ofIntVal t v)
     let clamp (v : Int) : Int := if sat then max (intMin t) (min v (intMax t)) else v
     Gives (.add c sat t d a b) c (fun v => put (clamp (v.int t a + v.int t b))) ∧
     Gives (.sub c sat t d a b) c (fun v => put (clamp (v.int t a - v.int t b))) ∧
     Gives (.mul c t d a b) c (fun v => put (v.int t a * v.int t b)) ∧
     Gives (.mad c t d a b e) c (fun v => put (v.int t a * v.int t b + v.int t e)) ∧
     Gives (.min c t d a b) c (fun v => put (min (v.int t a) (v.int t b))) ∧
     Gives (.max c t d a b) c (fun v => put (max (v.int t a) (v.int t b))) ∧
     Gives (.abs c sat t d a) c (fun v => put (clamp |v.int t a|))) ∧
  (∀ (c : Ctl) (t : Ty) (d : Dst) (a b : Src),
     Gives (.mulh c t d a b) c (fun v => dstWrites d t.wide (ofIntVal t (v.int t a * v.int t b / 2 ^ t.width)))) ∧
  (∀ (c : Ctl) (t : Ty) (d : Dst) (a b : Src) (k : Fin 7),
     Gives (.addc c t d a b k) c (fun v =>
       let x := v.nat t a + v.nat t b + natOfBool (v.kreg k.val)
       dstWrites d t.wide (BitVec.ofNat 64 (x % 2 ^ t.width)) ++ [kWrite k.val (decide (2 ^ t.width ≤ x))]) ∧
     Gives (.subc c t d a b k) c (fun v =>
       let x : Int := (v.nat t a : Int) - v.nat t b - natOfBool (v.kreg k.val)
       dstWrites d t.wide (BitVec.ofInt 64 (x % 2 ^ t.width)) ++ [kWrite k.val (decide (x < 0))])) ∧
  (∀ (c : Ctl) (t : Ty) (d : Dst) (a b : Src),
     GivesLater (.div c t d a b) c (fun v => dstWrites d t.wide (ofIntVal t
       (if v.int t b = 0 then (if t.signed then -1 else 2 ^ t.width - 1)
        else if t.signed = true ∧ v.int t a = -2 ^ (t.width - 1) ∧ v.int t b = -1 then v.int t a
        else (v.int t a).tdiv (v.int t b)))) ∧
     GivesLater (.rem c t d a b) c (fun v => dstWrites d t.wide (ofIntVal t
       (if v.int t b = 0 then v.int t a
        else if t.signed = true ∧ v.int t a = -2 ^ (t.width - 1) ∧ v.int t b = -1 then 0
        else v.int t a - (v.int t a).tdiv (v.int t b) * v.int t b))))

/-- R116: AND, OR, XOR, ANDN and NOT act bit by bit on W bits. -/
def Obligations.LogicResults : Prop :=
  ∀ (c : Ctl) (t : Ty) (d : Dst) (a b : Src),
    let bits (f : Nat → Bool) : DWord := BitVec.ofFnLE (fun i : Fin 64 => decide (i.val < t.width) && f i.val)
    let A (v : View) (i : Nat) : Bool := (v.nat t a).testBit i
    let B (v : View) (i : Nat) : Bool := (v.nat t b).testBit i
    Gives (.and c t d a b) c (fun v => dstWrites d t.wide (bits (fun i => A v i && B v i))) ∧
    Gives (.or c t d a b) c (fun v => dstWrites d t.wide (bits (fun i => A v i || B v i))) ∧
    Gives (.xor c t d a b) c (fun v => dstWrites d t.wide (bits (fun i => A v i != B v i))) ∧
    Gives (.andn c t d a b) c (fun v => dstWrites d t.wide (bits (fun i => A v i && !B v i))) ∧
    Gives (.not c t d a) c (fun v => dstWrites d t.wide (bits (fun i => !A v i)))

/-- R117 and R118: SHL, SHR, SHA, ROT and FSH. -/
def Obligations.ShiftResults : Prop :=
  ∀ (c : Ctl) (t : Ty) (d : Dst) (a b n : Src) (flag : Bool),
    let put (x : Nat) : List (Reg × Word) := dstWrites d t.wide (BitVec.ofNat 64 (x % 2 ^ t.width))
    let m (v : View) (w : Nat) : Nat := (v.src32 n).toNat % w
    Gives (.shl c t d a n) c (fun v => put (v.nat t a * 2 ^ (v.src32 n).toNat)) ∧
    Gives (.shr c t d a n) c (fun v => put (v.nat t a / 2 ^ (v.src32 n).toNat)) ∧
    Gives (.sha c t d a n) c (fun v =>
      dstWrites d t.wide (ofIntVal t (v.int t a / 2 ^ min (v.src32 n).toNat (t.width - 1)))) ∧
    Gives (.rot c flag t d a n) c (fun v =>
      let k := m v t.width
      put (if flag then v.nat t a / 2 ^ k + v.nat t a * 2 ^ (t.width - k)
        else v.nat t a * 2 ^ k + v.nat t a / 2 ^ (t.width - k))) ∧
    Gives (.fsh c flag d a b n) c (fun v =>
      let j := v.nat .b32 a * 2 ^ 32 + v.nat .b32 b
      dstWrites d false (BitVec.ofNat 64
        ((if flag then j * 2 ^ m v 32 / 2 ^ 32 else j / 2 ^ m v 32) % 2 ^ 32)))

/-- R119, R120 and R121: CLZ, POPC, BREV, BFX, BFI and PRM. -/
def Obligations.BitFieldResults : Prop :=
  ∀ (c : Ctl) (t : Ty) (d : Dst) (a b n : Src),
    Gives (.clz c t d a) c (fun v => dstWrites d false (BitVec.ofNat 64
      (((List.range t.width).find? (fun i => (v.nat t a).testBit (t.width - 1 - i))).getD t.width))) ∧
    Gives (.popc c t d a) c (fun v => dstWrites d false (BitVec.ofNat 64
      ((List.range t.width).countP (fun i => (v.nat t a).testBit i)))) ∧
    Gives (.brev c t d a) c (fun v => dstWrites d t.wide (BitVec.ofFnLE (fun i : Fin 64 =>
      decide (i.val < t.width) && (v.nat t a).testBit (t.width - 1 - i.val)))) ∧
    Gives (.bfx c t d a n) c (fun v =>
      let p := (v.src32 n).toNat % 256
      let l := min ((v.src32 n).toNat / 256 % 256) t.width
      let bit (i : Nat) : Bool :=
        if p + i < t.width then (v.nat t a).testBit (p + i) else t.signed && (v.nat t a).testBit (t.width - 1)
      dstWrites d t.wide (BitVec.ofFnLE (fun i : Fin 64 =>
        if l = 0 then false else if i.val < l then bit i.val
        else t.signed && bit (l - 1) && decide (i.val < (if t.wide then 64 else 32))))) ∧
    Gives (.bfi c t d a b n) c (fun v =>
      let p := (v.src32 n).toNat % 256
      let l := (v.src32 n).toNat / 256 % 256
      dstWrites d t.wide (BitVec.ofFnLE (fun i : Fin 64 => decide (i.val < t.width) &&
        (if p ≤ i.val ∧ i.val < p + l then (v.nat t b).testBit (i.val - p) else (v.nat t a).testBit i.val)))) ∧
    Gives (.prm c d a b n) c (fun v =>
      dstWrites d false (BitVec.ofFnLE (fun j : Fin 64 =>
        let x := v.nat .b32 b * 2 ^ 32 + v.nat .b32 a
        let k := 8 * ((v.src32 n).toNat / 2 ^ (4 * (j.val / 8)) % 8)
        decide (j.val < 32) && x.testBit
          (k + if (v.src32 n).toNat.testBit (4 * (j.val / 8) + 3) then 7 else j.val % 8))))

/-- R122 to R124 and R131: SEL, CMP and KOP. A CMP of two pointers, which admission notes, compares their addresses as
unsigned numbers. -/
def Obligations.SelectCompareResults : Prop :=
  ∀ (c : Ctl) (cc : Cond) (op : KComb) (t : Ty) (d : Dst) (k : Fin 7) (a b : Src) (ka kb kc : Fin 8) (table : BitVec 8),
    Gives (.sel c t d a b kc) c (fun v => dstWrites d t.wide (moveVal t (if v.kreg kc.val then v.src t a else v.src t b))) ∧
    (∀ s h, Ready (.cmp c cc op t k a b) s h → nextWith (exec (.cmp c cc op t k a b) s) (fun u =>
      ∀ ag ∈ h.taking c s, s.alive ag = true →
        let v := s.view ag
        let ty := if h.place.image.ptrCmps.contains h.group.off then t.unsigned else t
        let x := v.int ty a
        let y := v.int ty b
        let cond := match cc with
          | .eq => decide (x = y) | .ne => decide (x ≠ y) | .lt => decide (x < y) | .le => decide (x ≤ y)
          | .gt => decide (y < x) | .ge => decide (y ≤ x)
        u.holds ag [kWrite k.val (match op with
          | .none => cond
          | .and j => cond && v.kreg j.val
          | .or j => cond || v.kreg j.val
          | .xor j => cond != v.kreg j.val)])) ∧
    Gives (.kop c k ka kb kc table) c (fun v =>
      [kWrite k.val (table.getLsbD
        (4 * (v.kreg ka.val).toNat + 2 * (v.kreg kb.val).toNat + (v.kreg kc.val).toNat))])

/-- R85, R125, R126 and R129: NOP, MOV, MOVI and LEA. R127: a MOVS read gives the uniform register that its index
names, at IDX + B, or the pair at IDX + 2 B; a MOVS write in a uniform block sets it. R32 and R130: ID gives the
identity value its selector names; where the selector is uniform, in uniform blocks too. -/
def Obligations.MoveAndIdentityResults : Prop :=
  (∀ (c : Ctl) (t : Ty) (hi : Bool) (d : Dst) (a b e : Src) (x : Word) (n : BitVec 3),
     Gives (.nop c) c (fun _ => []) ∧
     Gives (.mov c t d a) c (fun v => dstWrites d t.wide (moveVal t (v.src t a))) ∧
     Gives (.movi c hi t d x) c (fun _ => dstWrites d t.wide
       (if hi then x ++ 0#32 else if t = .i64 then x.signExtend 64 else x.setWidth 64)) ∧
     Gives (.lea c n t d a b e) c (fun v =>
       let bx : Int := if t.signed then (v.src32 b).toInt else (v.src32 b).toNat
       dstWrites d t.wide (ofIntVal t (v.nat t a + bx * 2 ^ n.toNat + (v.src32 e).toInt)))) ∧
  (∀ (c : Ctl) (t : Ty) (d : Dst) (a b : Src) (idx : BitVec 10) (s : State) (h : Here),
     let at_ (v : View) : Nat := idx.toNat + (if t.wide then 2 else 1) * (v.src32 b).toNat
     (Ready (.movs c t (.read d) idx b) s h → nextWith (exec (.movs c t (.read d) idx b) s) (fun u =>
       ∀ ag ∈ h.taking c s, s.alive ag = true →
         let v := s.view ag
         let lo : Word := (v.s[at_ v]?).getD 0
         let hi : Word := (v.s[at_ v + 1]?).getD 0
         u.holds ag (dstWrites d t.wide (if t.wide then hi ++ lo else lo.setWidth 64)))) ∧
     (Ready (.movs c t (.write a) idx b) s h → h.pass.uniform = true →
       nextWith (exec (.movs c t (.write a) idx b) s) (fun u =>
         ∀ ag ∈ h.taking c s,
           let v := s.view ag
           at_ v + (if t.wide then 1 else 0) < 1024 →
             u.holds ag ((.s (at_ v), (v.src t a).setWidth 32) ::
               (if t.wide then [(.s (at_ v + 1), (v.src t a >>> 32).setWidth 32)] else []))))) ∧
  (∀ (c : Ctl) (sel : IdSel) (d : Dst) (s : State) (h : Here), Ready (.id c sel d) s h →
     (h.pass.uniform = true → sel ∉ [IdSel.tid, .wpos, .wave, .core, .cpos]) →
     nextWith (exec (.id c sel d) s) (fun u => ∀ ag ∈ h.taking c s, s.alive ag = true →
       let tid := match ag with | .thread _ i => i | .uniform _ => 0
       let p := h.place
       u.holds ag (dstWrites d false (BitVec.ofNat 64 (match sel with
         | .tid => tid
         | .wpos => tid % 32
         | .wave => tid / 32
         | .team => p.team.index
         | .clx => p.cluster.cx
         | .cly => p.cluster.cy
         | .clz => p.cluster.cz
         | .gdx => p.launch.gx
         | .gdy => p.launch.gy
         | .gdz => p.launch.gz
         | .nthr => p.launch.threads
         | .nteam => p.launch.tpc
         | .core => h.core
         | .home => p.team.home
         | .cpos => (h.core % 128 / 16 - p.cluster.origin % 128 / 16) * p.cluster.w +
             (h.core % 16 - p.cluster.origin % 16)
         | .tcap => p.image.threads
         | .cshape => p.cluster.w + 256 * p.cluster.h)))))

/-! Floating point and conversion. -/

/-- R51, R134 to R137: FADD, FSUB, FMUL, FFMA and FDOT2 give FSUM of their terms, each element of a packed operand on
its own. FSUM of finite terms is their exact sum rounded once, in each of the three formats, or where the sum is 0 the
zero of the terms' one sign, or of the mode; a NaN or two infinities of unlike sign give the default NaN, another
infinity itself; and a product of finite terms is exact. R138 to R144: the comparisons, seeds and step words of
floating point. Of finite operands FMIN and FMAX give one with the lesser and the greater number, FCMP compares the
numbers, FCLASS tells zeros, subnormals and normals of each sign, infinities and NaNs, FSCL rounds A × 2^B once, FGEX
gives the exponent of the number's leading bit, and FRND the integer the mode rounds it to, -1 for a number in (-1, 0)
under .rm (log 90). The seeds are those that the model's seed functions compute (R62 to R64). -/
def Obligations.FloatResults : Prop :=
  (∀ (c : Ctl) (r : Rnd) (t : Ty) (d : Dst) (a b e : Src),
     let each (f : Nat → Nat) : DWord := BitVec.ofNat 64 (if t.isPacked then f 0 + 2 ^ 16 * f 1 else f 0)
     Gives (.fadd c r t d a b) c (fun v =>
       dstWrites d false (each (fun i => fsum (fmtOf t) r [v.fval t a i, v.fval t b i]))) ∧
     Gives (.fsub c r t d a b) c (fun v =>
       dstWrites d false (each (fun i => fsum (fmtOf t) r [v.fval t a i, (v.fval t b i).negate]))) ∧
     Gives (.fmul c r t d a b) c (fun v =>
       dstWrites d false (each (fun i => fsum (fmtOf t) r [(v.fval t a i).mul (v.fval t b i)]))) ∧
     Gives (.ffma c r t d a b e) c (fun v =>
       dstWrites d false (each (fun i => fsum (fmtOf t) r [(v.fval t a i).mul (v.fval t b i), v.fval t e i]))) ∧
     Gives (.fdot2 c r t d a b e) c (fun v => dstWrites d false (BitVec.ofNat 64 (fsum fp32 r
       [(v.fval t a 0).mul (v.fval t b 0), (v.fval t a 1).mul (v.fval t b 1), v.fval .f32 e 0]))) ∧
     (∀ f ∈ [fp32, fp16, bfp16], ∀ l : List FVal, (∀ v ∈ l, v.finite = true) →
       let x : ℚ := (l.map FVal.num).sum
       (x ≠ 0 → f.Rounds r x (fsum f r l)) ∧
       let zeros (n : Bool) : Prop := ∀ v ∈ l, ∃ k, v = .fin n 0 k
       (x = 0 → (zeros true → fsum f r l = f.signBit true) ∧ (l ≠ [] → zeros false → fsum f r l = 0) ∧
         (¬ zeros true → ¬ zeros false → fsum f r l = f.signBit (decide (r = .rm))))) ∧
     (∀ f : Fmt, ∀ l : List FVal,
       ((FVal.nan ∈ l ∨ (.inf false ∈ l ∧ .inf true ∈ l)) → fsum f r l = f.nanBits) ∧
       (∀ n, FVal.nan ∉ l → FVal.inf n ∈ l → FVal.inf (!n) ∉ l → fsum f r l = f.signBit n + f.infBits)) ∧
     (∀ p q : FVal, p.finite = true → q.finite = true → (p.mul q).finite = true ∧ (p.mul q).num = p.num * q.num)) ∧
  (∀ (c : Ctl) (r : Rnd) (t : Ty) (p : Bool) (cc : FCond) (op : KComb) (d : Dst) (k : Fin 7) (a b : Src),
     let each (f : Nat → Nat) : DWord := BitVec.ofNat 64 (if t.isPacked then f 0 + 2 ^ 16 * f 1 else f 0)
     let seed (f : Nat → Nat) (v : View) : List (Reg × Word) :=
       dstWrites d false (BitVec.ofNat 64 (f ((v.src .f32 a).toNat % 2 ^ 32)))
     Gives (.fmin c p t d a b) c (fun v =>
       dstWrites d false (each (fun i => (fmtOf t).minmax p false (v.elem t a i) (v.elem t b i)))) ∧
     Gives (.fmax c p t d a b) c (fun v =>
       dstWrites d false (each (fun i => (fmtOf t).minmax p true (v.elem t a i) (v.elem t b i)))) ∧
     Gives (.fcmp c cc op t k a b) c (fun v =>
       [kWrite k.val (combine op v ((fmtOf t).cmp cc (v.elem t a 0) (v.elem t b 0)))]) ∧
     Gives (.fclass c op t k a b) c (fun v =>
       [kWrite k.val (combine op v ((v.src32 b).getLsbD ((fmtOf t).cls (v.elem t a 0))))]) ∧
     Gives (.frcps c d a) c (seed frcps) ∧ Gives (.frsqs c d a) c (seed frsqs) ∧
     Gives (.fexs c d a) c (seed fexs) ∧ Gives (.flgs c d a) c (seed flgs) ∧
     Gives (.fscl c r t d a b) c (fun v =>
       dstWrites d false (each (fun i => (fmtOf t).scale r (v.elem t a i) (v.src32 b).toInt))) ∧
     Gives (.fgex c t d a) c (fun v => dstWrites d false (ofIntVal .i32 ((fmtOf t).gex (v.elem t a 0)))) ∧
     Gives (.frnd c r t d a) c (fun v => dstWrites d false (each (fun i => (fmtOf t).rndInt r (v.elem t a i)))) ∧
     (∀ f ∈ [fp32, fp16, bfp16], ∀ x y : Nat, x < 2 ^ (f.eb + f.fb + 1) → y < 2 ^ (f.eb + f.fb + 1) →
       let X := f.unpack x
       let Y := f.unpack y
       f.cls x = (match X with
         | .nan => if x.testBit (f.fb - 1) then 9 else 8
         | .inf n => if n then 0 else 7
         | .fin n m _ => if m = 0 then (if n then 3 else 4)
             else if |X.num| < 2 ^ f.emin then (if n then 2 else 5) else (if n then 1 else 6)) ∧
       (X.finite = true → X.num ≠ 0 →
         (2 ^ f.gex x ≤ |X.num| ∧ |X.num| < 2 ^ (f.gex x + 1)) ∧
         ∀ n : Int, f.Rounds r (X.num * 2 ^ n) (f.scale r x n)) ∧
       (X.finite = true → (f.unpack (f.rndInt r x)).finite = true ∧
         ∃ n : Int, RoundsToInt r X.num n ∧ (f.unpack (f.rndInt r x)).num = n) ∧
       (X.finite = true → Y.finite = true →
         (f.cmp .lt x y = true ↔ X.num < Y.num) ∧ (f.cmp .le x y = true ↔ X.num ≤ Y.num) ∧
         (f.cmp .eq x y = true ↔ X.num = Y.num) ∧ (f.cmp .ne x y = true ↔ X.num ≠ Y.num) ∧
         (f.cmp .gt x y = true ↔ Y.num < X.num) ∧ (f.cmp .ge x y = true ↔ Y.num ≤ X.num) ∧
         f.minmax p false x y ∈ [x, y] ∧ (f.unpack (f.minmax p false x y)).num = min X.num Y.num ∧
         f.minmax p true x y ∈ [x, y] ∧ (f.unpack (f.minmax p true x y)).num = max X.num Y.num)))

/-- R51 and R145 to R151: CVT between integers, between floats, between the two, and to a packed type. A finite number and an
integer are rounded once to the destination's format, and with .sat a number beyond its range is its greatest finite one; to
an integer the number is rounded by the mode and held within the type's limits. -/
def Obligations.ConversionResults : Prop :=
  ∀ (c : Ctl) (r : Rnd) (sat : Bool) (dt st : Ty) (d : Dst) (a b : Src),
    Gives (.cvt c r sat dt st d a b) c (fun v => dstWrites d dt.wide
      (if dt.isPacked then BitVec.ofNat 64 (cvtFF fp32 (fmtOf dt) r sat (v.elem .f32 a 0) +
          2 ^ 16 * cvtFF fp32 (fmtOf dt) r sat (v.elem .f32 b 0))
       else if st.isF && dt.isF then BitVec.ofNat 64 (cvtFF (fmtOf st) (fmtOf dt) r sat (v.elem st a 0))
       else if st.isF then ofIntVal dt (cvtFI (fmtOf st) (intMin dt) (intMax dt) r (v.elem st a 0))
       else if dt.isF then BitVec.ofNat 64 (cvtIF (fmtOf dt) r sat (v.int st a))
       else ofIntVal dt (if sat then max (intMin dt) (min (v.int st a) (intMax dt)) else v.int st a))) ∧
    (∀ f ∈ [fp32, fp16, bfp16], ∀ (v : Int) (g : Fmt) (x : Nat) (lo hi : Int),
      let X := g.unpack x
      let rounded (q : ℚ) (bits : Nat) : Prop := (sat = false ∨ |q| ≤ f.big → f.Rounds r q bits) ∧
        (sat = true → f.big < |q| → bits = f.signBit (decide (q < 0)) + f.infBits - 1)
      (v ≠ 0 → rounded v (cvtIF f r sat v)) ∧
      (X.finite = true → X.num ≠ 0 → rounded X.num (cvtFF g f r sat x)) ∧
      (X.finite = true → ∃ n, RoundsToInt r X.num n ∧ cvtFI g lo hi r x = max lo (min hi n)))

/-- R111, R134: a word that only writes registers leaves every other register of its lanes, every other thread and team,
all memory and every other part of the machine as they were, and its group stands behind it. -/
def Obligations.RegisterWordsFrame : Prop :=
  ∀ (i : Instr) (c : Ctl) (s t : State) (h : Here), i.onlyRegs = true → i.ctl? = some c → Ready i s h →
    exec i s = .next t → OnlyRegs h (h.taking c s) s t ∧ keepsOthers h.agents i.writesRegs s t ∧ movedOn h c t

/-! Control words. -/

/-- R70, R156, R158, R159 and R166: BR goes to its block where A is zero or not, and BRX where A is the entry of a
block with its class's annotations; where not, and in YIELD, and in lanes whose guard fails, the way is the
fall-through, the first 64-byte boundary behind the word. Nothing else changes but the mark of a task boundary. R159,
R244 and R246: a lane whose indirect target is no multiple of 64 takes trap 0x03, and one whose target is no block, or
a block of another class, takes trap 0x04: the thread is stopped, its launch has met an error of class 1, and the fault
ring, where it has room, has the record of that code. R253: SLEEP of zero goes on at once; any other sleeps until world
time has come A nanoseconds further. -/
def Obligations.LeavingABlock : Prop :=
  (∀ (c : Ctl) (z : Bool) (a : Src) (k : Blk) (s : State) (h : Here),
     let fall : Nat := (h.group.off + c.form.bytes + 63) / 64 * 64
     let goes (t : State) (f : View → Nat) : Prop := ∀ ag ∈ h.agents, s.alive ag = true →
       t.leaveOf ag = some (.goto (if ag ∈ h.taking c s then f (s.view ag) else fall))
     let is (x : Nat) (b : Block) : Prop := h.place.image.blocks.find? (fun b => b.off == x) = some b
     (∀ e, Ready (.br c z a k) s h → h.place.image.blocks[k.index]? = some e →
       nextWith (exec (.br c z a k) s) (fun t =>
         goes t (fun v => if (v.src32 a = 0) = (z = true) then e.off else fall) ∧ OnlyLeaves h h.agents s t ∧ ended h t)) ∧
     (∀ e, Ready (.brx c a k) s h → h.place.image.blocks[k.index]? = some e →
       (∀ ag ∈ h.taking c s, let x := ((s.view ag).src32 a).toNat
         x % 64 = 0 ∧ x < h.place.image.codeLen ∧ ∃ b, is x b ∧ b.ann = e.ann) →
       nextWith (exec (.brx c a k) s) (fun t =>
         goes t (fun v => (v.src32 a).toNat) ∧ OnlyLeaves h h.agents s t ∧ ended h t)) ∧
     (Ready (.yield c) s h → nextWith (exec (.yield c) s) (fun t =>
         goes t (fun _ => fall) ∧ OnlyLeaves h h.agents s t ∧ ended h t ∧
         ∀ team, .uniform team ∈ h.taking c s → s.alive (.uniform team) = true →
           (tget t.teams team).map (·.boundary) = some true))) ∧
  (∀ (c : Ctl) (a : Src) (k : Blk) (s : State) (h : Here) (team tid : Nat),
     Ready (.brx c a k) s h → Alone h c s (.thread team tid) →
     let x := ((s.view (.thread team tid)).src32 a).toNat
     let ofClass : Prop := x < h.place.image.codeLen ∧ ∃ b e, h.place.image.blocks.find? (fun b => b.off == x) = some b ∧
       h.place.image.blocks[k.index]? = some e ∧ b.ann = e.ann
     (x % 64 ≠ 0 ∨ ¬ ofClass) →
     nextWith (exec (.brx c a k) s) (fun t => h.stops s t (.thread team tid) (if x % 64 ≠ 0 then 3 else 4) ∧
       (tget t.launches h.place.team.launch).map (·.eclass) =
         some (if h.place.launch.eclass = 0 ∨ (h.place.launch.etime = s.now ∧ 1 < h.place.launch.eclass) then 1
           else h.place.launch.eclass))) ∧
  (∀ (c : Ctl) (a : Src) (s : State) (h : Here) (ag : Agent), Ready (.sleep c a) s h → Alone h c s ag →
     let n := ((s.view ag).src32 a).toNat
     let fall : Nat := (h.group.off + c.form.bytes + 63) / 64 * 64
     nextWith (exec (.sleep c a) s) (fun t => ended h t ∧ OnlyLeaves h h.agents s t ∧
       t.leaveOf ag = some (if n = 0 then .goto fall else .block fall (.sleep (s.worldTime h.place.launch.world + n)))))

/-- R160, R161 and R212: CALL pushes the fall-through address on the thread's local stack and goes to its block; RET pops the
address it goes to, and one that is no multiple of 64 takes trap 0x03, and no block or a block of another class trap 0x04. The
word on the stack has no access of the thread under way; a stack in device memory (R35) must be free to use, in no tile of a
CONF record, where the push stops the team with code 0x15, and in no read-only page, where it takes trap 0x0C; what RET pops
is then stated for a world without keys. -/
def Obligations.CallAndReturn : Prop :=
  ∀ (c : Ctl) (x : Fin 64) (k : Blk) (s : State) (h : Here) (team tid : Nat) (e : Block),
    Alone h c s (.thread team tid) → h.place.image.blocks[k.index]? = some e →
    let ag := Agent.thread team tid
    let sp := (s.view ag).reg (.x x.val)
    let fall : Nat := (h.group.off + c.form.bytes + 63) / 64 * 64
    let top := natOfBytes (s.locReads h.place team tid sp.toNat 4)
    let l := h.place.launch
    let at_ : Nat := h.place.locBase tid + (sp - 4).toNat
    let free : Prop := s.devFree l (h.place.locUse ag (sp - 4).toNat 4 true) ∧ overlaps s.pends ag .loc (sp - 4).toNat 4 = false
    let pushes : Prop := free ∧ (l.locdev = true → s.refused l.world at_ 4 = none ∧ s.sealedByte l.world at_ 4 = none)
    let pops : Prop := s.devFree l (h.place.locUse ag sp.toNat 4 false) ∧ (l.locdev = true → s.keys l.world = none) ∧
      overlaps s.pends ag .loc sp.toNat 4 = false
    let ofClass : Prop := top < h.place.image.codeLen ∧ ∃ b, h.place.image.blocks.find? (fun b => b.off == top) = some b ∧ b.ann = e.ann
    (Ready (.call c x k) s h → free → l.locdev = true → ∀ b, s.refused l.world at_ 4 = some b → h.place.team.stopped = false →
      nextWith (exec (.call c x k) s) (fun t => h.stops s t (.uniform team) 0x15)) ∧
    (Ready (.call c x k) s h → free → l.locdev = true → s.refused l.world at_ 4 = none → ∀ b, s.sealedByte l.world at_ 4 = some b →
      nextWith (exec (.call c x k) s) (fun t => h.stops s t ag 0x0C)) ∧
    (Ready (.call c x k) s h → pushes → nextWith (exec (.call c x k) s) (fun t =>
      t.leaveOf ag = some (.goto e.off) ∧ (t.view ag).reg (.x x.val) = sp - 4 ∧ ended h t ∧
      (∀ r, r ≠ .x x.val → (t.view ag).reg r = (s.view ag).reg r) ∧
      (l.locdev = false → fall < 2 ^ 32 →
        natOfBytes (t.locReads h.place team tid (sp - 4).toNat 4) = fall ∧
        (∀ o, o < (sp - 4).toNat ∨ (sp - 4).toNat + 4 ≤ o → t.locRead h.place team tid o = s.locRead h.place team tid o) ∧
        t.hbm = s.hbm ∧ t.hostMem = s.hostMem))) ∧
    (Ready (.ret c x k) s h → pops → top % 64 = 0 → ofClass → nextWith (exec (.ret c x k) s) (fun t =>
        t.leaveOf ag = some (.goto top) ∧ (t.view ag).reg (.x x.val) = sp + 4 ∧ ended h t ∧
        (∀ r, r ≠ .x x.val → (t.view ag).reg r = (s.view ag).reg r) ∧ t.hbm = s.hbm ∧ t.hostMem = s.hostMem)) ∧
    (Ready (.ret c x k) s h → pops → top % 64 ≠ 0 ∨ ¬ ofClass → nextWith (exec (.ret c x k) s) (fun t =>
      h.stops s t ag (if top % 64 ≠ 0 then 3 else 4)))

/-- R162: EXIT ends the thread, or in a uniform block every thread of the team; memory is as before, and so are the
registers of all other threads. R163 and R164: SPAWN starts a thread with the lowest free index of the team, waiting at
the block with the run of registers in its x0 on and zeros elsewhere, and gives its index; a full team gives all ones
and starts none. -/
def Obligations.ThreadsEndAndStart : Prop :=
  (∀ (c : Ctl) (s : State) (h : Here) (a : Agent), Ready (.exit c) s h → Alone h c s a →
     nextWith (exec (.exit c) s) (fun t => ended h t ∧ t.hbm = s.hbm ∧ t.hostMem = s.hostMem ∧
       match a with
       | .thread team tid => t.thread team tid = none ∧
           (∀ q i, (q, i) ≠ (team, tid) → i < 8192 → tid < 8192 → (t.thread q i).map (·.win) = (s.thread q i).map (·.win)) ∧
           (tget t.launches h.place.team.launch).map (·.exits) = some (h.place.launch.exits + 1)
       | .uniform team => t.liveTids team = [])) ∧
  (∀ (c : Ctl) (n : Fin 17) (d : Dst) (a : Fin 64) (k : Blk) (s : State) (h : Here) (tid : Nat) (e : Block),
     let ag := Agent.thread h.pass.team tid
     Ready (.spawn c n d a k) s h → Alone h c s ag → h.place.image.blocks[k.index]? = some e →
     let free (i : Nat) : Prop := i < h.place.image.threads ∧ s.thread h.pass.team i = none
     (∀ i, free i → (∀ j, free j → i ≤ j) → nextWith (exec (.spawn c n d a k) s) (fun t =>
       t.coming ag (dstWrites d false (BitVec.ofNat 64 i)) ∧ t.hbm = s.hbm ∧ t.hostMem = s.hostMem ∧ movedOn h c t ∧
       ∃ u, t.thread h.pass.team i = some u ∧ u.st = .waiting e.off ∧ u.spawned = true ∧ u.k = Vector.replicate 7 false ∧
         ∀ r (hr : r < 64), u.x[r] = if r < n.val then (s.view ag).reg (.x (a.val + r)) else 0)) ∧
     ((∀ i, ¬ free i) → nextWith (exec (.spawn c n d a k) s) (fun t =>
       t.coming ag (dstWrites d false 0xFFFFFFFF) ∧ OnlyPending h [ag] s t ∧ movedOn h c t)))

/-- R168 and R172: BINIT sets a barrier register, a phase that has begun having its GEN advanced, and CINIT a
convergence register, whose partial set is discarded. Nothing else changes, and no other team. R173: a signature
counts, and the one that completes the set gives 1, empties the set and advances SEQ; at a register whose EXP is 0 it
is ignored. No other register of the team, no other team and no register of a thread changes. -/
def Obligations.BarrierAndConvergenceRegisters : Prop :=
  (∀ (c : Ctl) (live : Bool) (i : Fin 16) (a : Src) (s : State) (h : Here),
     let ag := Agent.uniform h.pass.team
     let n : Nat := ((s.view ag).src32 a).toNat
     let m : Nat := n % 65536
     let b := s.bar h.pass.team i.val
     let bar : BarReg := ⟨if b.arr = 0 then b.gen else b.gen + 1, if live then s.liveCount h.pass.team + m else m, 0, [], false,
       live, if live then m else 0, []⟩
     let conv : ConvReg := ⟨min n 8192, 0, (h.place.team.conv[i.val]).seq, none⟩
     Alone h c s ag →
     (Ready (.binit c live i a) s h → nextWith (exec (.binit c live i a) s) (fun t =>
       t = { s with teams := t.teams, passes := t.passes, perf := t.perf } ∧ movedOn h c t ∧
       tget t.teams h.pass.team = some { h.place.team with bar := h.place.team.bar.set i.val bar i.isLt } ∧
       ∀ k, k ≠ h.pass.team → tget t.teams k = tget s.teams k)) ∧
     (Ready (.cinit c i a) s h → nextWith (exec (.cinit c i a) s) (fun t =>
       t = { s with teams := t.teams, passes := t.passes, perf := t.perf } ∧ movedOn h c t ∧
       tget t.teams h.pass.team = some { h.place.team with conv := h.place.team.conv.set i.val conv i.isLt } ∧
       ∀ k, k ≠ h.pass.team → tget t.teams k = tget s.teams k))) ∧
  (∀ (c : Ctl) (i : Fin 16) (d : KDst) (s : State) (h : Here) (tid : Nat),
     let ag := Agent.thread h.pass.team tid
     let r := s.conv h.pass.team i.val
     Ready (.csign c i d) s h → Alone h c s ag → r.set = none →
     nextWith (exec (.csign c i d) s) (fun t =>
       t.coming ag (kWrites d (decide (r.exp ≠ 0 ∧ r.exp ≤ r.sig + 1))) ∧ movedOn h c t ∧ (∀ b, t.view b = s.view b) ∧
       t = { s with threads := t.threads, teams := t.teams, passes := t.passes, perf := t.perf, pends := t.pends
                    nextId := t.nextId } ∧
       tget t.teams h.pass.team = some { h.place.team with conv := h.place.team.conv.set i.val (if r.exp = 0 then r
         else if r.sig + 1 < r.exp then { r with sig := r.sig + 1 } else { r with sig := 0, seq := r.seq + 1 }) i.isLt } ∧
       ∀ k, k ≠ h.pass.team → tget t.teams k = tget s.teams k))

/-- R169 to R171: BARV gives GEN, and unless it peeks arrives, once no access of the thread is outstanding, with the
GEN of that moment as its token (log 17); BTEST tells whether the token is old, or ERR; BWAIT goes on at once where the
token is old or ERR is set, and is blocked where not. R171: an arrival that an access of its thread still holds back
has no effect yet, and its group waits before the word: the model's reading of when the arrival takes effect (log 17). -/
def Obligations.BarrierWords : Prop :=
  (∀ (c : Ctl) (f : Bool) (i : Fin 16) (d : Dst) (kd : KDst) (a : Src) (s : State) (h : Here) (tid : Nat),
     let ag := Agent.thread h.pass.team tid
     let b := s.bar h.pass.team i.val
     let fall : Nat := (h.group.off + c.form.bytes + 63) / 64 * 64
     Alone h c s ag →
     (Ready (.barv c f i d) s h → (f = true ∨ s.outstanding ag = []) → nextWith (exec (.barv c f i d) s) (fun t =>
       t.coming ag (dstWrites d false (b.gen.setWidth 64)) ∧ t.hbm = s.hbm ∧ t.hostMem = s.hostMem ∧ movedOn h c t ∧
       let b' := t.bar h.pass.team i.val
       if f then b' = b
       else if b.exp = 0 then b' = { b with err := true }
       else (b.live = false ∨ tid ∉ b.late) →
         if b.arr + 1 = b.exp then b'.gen = b.gen + 1 ∧ b'.arr = 0 ∧
           b'.exp = if b.live then s.liveCount h.pass.team + b.extra else b.exp
         else b'.gen = b.gen ∧ b'.arr = b.arr + 1 ∧ b'.exp = b.exp)) ∧
     (Ready (.btest c f i kd a) s h → nextWith (exec (.btest c f i kd a) s) (fun t =>
       t.coming ag (kWrites kd (if f then b.err else decide (b.gen ≠ (s.view ag).src32 a))) ∧ OnlyPending h [ag] s t ∧
       movedOn h c t)) ∧
     (Ready (.bwait c i kd a) s h → nextWith (exec (.bwait c i kd a) s) (fun t => ended h t ∧
       t = { s with threads := t.threads, passes := t.passes, perf := t.perf } ∧
       if b.err = true ∨ b.gen ≠ (s.view ag).src32 a then
         t.leaveOf ag = some (.goto fall) ∧ t.holds ag (kWrites kd b.err)
       else t.leaveOf ag = some (.block fall (.barrier i.val kd ((s.view ag).src32 a)))))) ∧
  (∀ (c : Ctl) (i : Fin 16) (d : Dst) (s : State) (h : Here) (a : Agent), Ready (.barv c false i d) s h →
     a ∈ h.taking c s → s.outstanding a ≠ [] → exec (.barv c false i d) s = .next s)

/-- R174 to R176: the first lane to come to a vote or an exchange opens an instance of its wave, which awaits the
wave's live threads and holds the lane's contribution; its registers are pending. Where four are open already, it is
parked before the word. R163, R174, R188, R190 and R318: in COMMIT.w and ABORT.w a lane joins an instance of its wave,
once no access of its own to the bytes of its stores is outstanding, and with it its stores that no instance holds; in
COMMIT.w those of the wave's threads that have exited (writer 8192) too. R174 to R176 and R188 to R190: what follows
every step completes a wave's one open instance, once every live thread that it awaits has joined it. Each contributor
that is still live is given, in WVOTE, the reduction of the contributors' bits, and in WXCH the value of its source
lane where that contributed, else its own; a COMMIT.w's stores come to the team set, where they fit, and a byte that
another merger placed there counts a conflict, which under SCOMMIT is another matter; an ABORT.w's are gone. A
contribution of a thread that has since ceased to be live counts (log 91). -/
def Obligations.WaveCollectives : Prop :=
  (∀ (c : Ctl) (m : Vote) (x : Xch) (ty : Ty) (k : Fin 8) (d : Dst) (a b : Src) (s : State) (h : Here) (tid : Nat) (u : Thread),
     let team := h.pass.team
     let ag := Agent.thread team tid
     let v := s.view ag
     let n := (tget u.joins h.group.off).getD 0 + 1
     let w := s.wave team (tid / 32)
     h.agents = [ag] → Alone h c s ag → s.thread team tid = some u →
     (∀ e ∈ w.colls, e.off = h.group.off → e.num ≠ n) →
     let opens (kind : CollKind) (regs : List Reg) (j : Join) (o : Host.Outcome State Fault Refusal) : Prop :=
       (w.colls.length < 4 → nextWith o (fun t => t.hbm = s.hbm ∧ t.hostMem = s.hostMem ∧ movedOn h c t ∧
         (∀ r ∈ regs, t.pendBit ag r = true) ∧
         ∃ id, (t.wave team (tid / 32)).colls = w.colls ++ [⟨id, h.group.off, n, kind, s.waveTids team (tid / 32), [j]⟩])) ∧
       (4 ≤ w.colls.length → nextWith o (fun t =>
         (t.thread team tid).map (·.st) = some (.parked h.group.off .collective false)))
     (Ready (.wvote c m k) s h → opens (.vote m) (Vote.dstRegs m) ⟨tid, true, BitVec.ofNat 64 (natOfBool (v.kreg k.val)), 0, false⟩
       (exec (.wvote c m k) s)) ∧
     (Ready (.wxch c x ty d a b) s h → opens (.xch x ty.wide d) (Dst.regs ty.wide d) ⟨tid, true, v.src ty a, v.src32 b, false⟩
       (exec (.wxch c x ty d a b) s))) ∧
  (∀ (c : Ctl) (s : State) (h : Here) (tid : Nat) (u : Thread),
     let team := h.pass.team
     let ag := Agent.thread team tid
     let n := (tget u.joins h.group.off).getD 0 + 1
     let w := s.wave team (tid / 32)
     h.agents = [ag] → Alone h c s ag → s.thread team tid = some u → s.heldBy ag (·.data) = false →
     (∀ e ∈ w.colls, e.off = h.group.off → e.num ≠ n) → w.colls.length < 4 →
     s.meetsCells ag ((w.openCells tid).map (·.key)) = false →
     let joins (i : Instr) (kind : CollKind) (left : Bool) : Prop := Ready i s h → nextWith (exec i s) (fun t =>
       t = { s with threads := t.threads, waves := t.waves, passes := t.passes, perf := t.perf, nextId := t.nextId } ∧
       movedOn h c t ∧ (∀ b, t.view b = s.view b) ∧ ∃ id,
         (t.wave team (tid / 32)).colls =
           w.colls ++ [⟨id, h.group.off, n, kind, s.waveTids team (tid / 32), [⟨tid, true, 0, 0, false⟩]⟩] ∧
         (t.wave team (tid / 32)).cells =
           w.cells.map (fun e =>
             if (e.writer = tid ∨ (left = true ∧ e.writer = 8192)) ∧ e.inst = none then { e with inst := some id } else e))
     joins (.commit c .w) .commit true ∧ joins (.abort c .w) .abort false) ∧
  (∀ (s : State) (team wv : Nat) (w : Wave) (k : Coll) (pl : Place),
     let t := s.settleWaves
     let got := k.joined.filter (fun j => j.takes)
     let given (j : Join) (l : List (Reg × Word)) : Prop := t.coming (.thread team j.tid) l
     let left := w.cells.filter (fun c => c.inst != some k.id)
     let taken := w.cells.filter (fun c => c.inst == some k.id)
     let set := taken.foldl (fun l c => sput c.key c.byte (some (wv + 1)) l) pl.team.set
     let merged := (s.setWave team wv { w with cells := left, colls := [] }).modTeam team (fun m => { m with set := set })
     wv < 256 → s.waves = [(wkey team wv, w)] → w.colls = [k] → s.place team = some pl → pl.team.stopped = false →
     s.waveTids team wv ≠ [] → (∀ i ∈ k.awaited, ∃ j ∈ k.joined, j.tid = i ∧ j.gone = false) →
     (got.map (fun j => j.tid % 32)).Nodup →
     (∀ m, k.kind = .vote m →
       t = { s with waves := t.waves, threads := t.threads, teams := t.teams, pends := t.pends, nextId := t.nextId } ∧
       (t.wave team wv).colls = [] ∧ ∃ v : Word, (∀ j ∈ got, j.gone = false → given j ((Vote.dstRegs m).map (fun r => (r, v)))) ∧
         match m with
         | .ballot _ => ∀ i : Fin 32, v.getLsbD i.val = got.any (fun j => j.value == 1 && j.tid % 32 == i.val)
         | .any _ => v = if ∃ j ∈ got, j.value = 1 then 1 else 0
         | .all _ => v = if ∀ j ∈ got, j.value = 1 then 1 else 0
         | .uni _ => v = if (∀ j ∈ got, j.value = 1) ∨ (∀ j ∈ got, j.value ≠ 1) then 1 else 0) ∧
     (∀ x wide d, k.kind = .xch x wide d →
       t = { s with waves := t.waves, threads := t.threads, teams := t.teams, pends := t.pends, nextId := t.nextId } ∧
       (t.wave team wv).colls = [] ∧ ∀ j ∈ got, j.gone = false →
         let pos : Int := (j.tid % 32 : Nat)
         let n : Int := j.sel.toNat
         let src : Int := match x with
           | .idx => n % 32
           | .up => pos - n
           | .down => pos + n
           | .xor => ((j.tid % 32) ^^^ (j.sel.toNat % 32) : Nat)
         ∃ v, given j (dstWrites d wide v) ∧ (∀ i ∈ got, ((i.tid % 32 : Nat) : Int) = src → v = i.value) ∧
           ((∀ i ∈ got, ((i.tid % 32 : Nat) : Int) ≠ src) → v = j.value)) ∧
     (k.kind = .abort → t = { s with waves := t.waves, threads := t.threads } ∧ (t.wave team wv).cells = left ∧
       (t.wave team wv).colls = []) ∧
     (k.kind = .commit → merged.teamSectors team ≤ pl.image.teamCap → pl.launch.scommit = false →
       t = { s with waves := t.waves, threads := t.threads, teams := t.teams, perf := t.perf } ∧
       (t.wave team wv).cells = left ∧ (t.wave team wv).colls = [] ∧
       (∀ q, q ≠ team → tget t.teams q = tget s.teams q) ∧
       (tget t.teams team).map (fun m => (m.set, m.tconf)) =
         some (set, if (conflict pl.team.set (wv + 1) (taken.map WCell.pair)).isSome ∧ pl.team.tconf ≠ 0xFFFFFFFF
           then pl.team.tconf + 1 else pl.team.tconf) ∧
       (∀ c ∈ taken, (∀ c' ∈ taken, c'.key = c.key → c'.byte = c.byte) → scell set c.key = some c.byte) ∧
       ∀ key, (∀ c ∈ taken, c.key ≠ key) → scell set key = scell pl.team.set key))

/-! Memory words. -/

/-- R81, R179, R180 and R184 to R186: a load in a space other than host memory is under way from its address when the
word has issued, in every lane that takes it, and its registers are pending; nothing else changes. R373: a load of host
memory in the one lane that takes it, whose pages the device translates, is under way with its pages. R372, R373, R377
and R378: where the walk for a load of host memory fails, the thread, or the team, parks before the word on a page
request of the failing page; where the page has been answered three times and still fails, or the PASID context is
invalid, it takes trap 0x0C. -/
def Obligations.LoadsIssue : Prop :=
  (∀ (c : Ctl) (ty : Ty) (n : VCount) (d : Dst) (a disp : Src) (s : State) (h : Here) (x : Site),
     h.site = some x → x.space ≠ .host → (∀ ag ∈ h.taking c s, s.heldBy ag (·.data) = false) →
     let loads (i : Instr) (len : Nat) (t : Ty) (dst : List Reg) : Prop := Ready i s h → nextWith (exec i s) (fun u =>
       (∀ ag ∈ h.taking c s, s.alive ag = true → ∃ e ∈ u.pends, e.2 =
         ⟨ag, .load x.space ((s.view ag).addr x.pair a disp) len [] t dst [], h.group.off⟩) ∧
       OnlyPending h h.agents s u ∧ movedOn h c u)
     loads (.ld c ty d a disp) ty.bytes ty (Dst.regs ty.wide d) ∧
     loads (.lds c ty d a disp) ty.bytes ty (Dst.regs ty.wide d) ∧
     (∀ r, d = .x r → loads (.ldv c n d a disp) (4 * n.regs) .b32 (xrun r.val n.regs))) ∧
  (∀ (c : Ctl) (ty : Ty) (n : VCount) (d : Dst) (a disp : Src) (s : State) (h : Here) (x : Site) (ag : Agent),
     h.site = some x → x.space = .host → Alone h c s ag → s.heldBy ag (·.data) = false →
     let at_ : Nat := (s.view ag).addr x.pair a disp
     let l := h.place.launch
     let loads (i : Instr) (len : Nat) (t : Ty) (dst : List Reg) : Prop := ∀ xl, Ready i s h →
       (∀ u : State, s.alike u →
         ∃ v, u.translateRange (h.core / 128) l.world l.pasid at_ len false = .ok xl v) →
       nextWith (exec i s) (fun u => (∃ e ∈ u.pends, e.2 = ⟨ag, .load .host at_ len [] t dst xl, h.group.off⟩) ∧
         u.hbm = s.hbm ∧ u.hostMem = s.hostMem ∧ (∀ b, u.view b = s.view b) ∧ movedOn h c u)
     loads (.ld c ty d a disp) ty.bytes ty (Dst.regs ty.wide d) ∧
     loads (.lds c ty d a disp) ty.bytes ty (Dst.regs ty.wide d) ∧
     (∀ r, d = .x r → loads (.ldv c n d a disp) (4 * n.regs) .b32 (xrun r.val n.regs))) ∧
  (∀ (c : Ctl) (ty : Ty) (n : VCount) (d : Dst) (a disp : Src) (s : State) (h : Here) (x : Site) (ag : Agent) (page : Nat),
     let l := h.place.launch
     let parked (u : State) (id : Nat) : Prop := match ag with
       | .thread team tid => (u.thread team tid).map (·.st) = some (.parked h.group.off (.page id) false)
       | .uniform team => (tget u.teams team).map (·.upark) = some (some ⟨h.group.off, .page id, false⟩)
     let misses (i : Instr) (len : Nat) : Prop :=
       let translates (f : XRange → Prop) : Prop := ∀ u : State, s.alike u →
         f (u.translateRange (h.core / 128) l.world l.pasid ((s.view ag).addr x.pair a disp) len false)
       Ready i s h →
       (translates (fun r => ∃ v, r = .miss page v) → s.triesOf ag.waiter page < 3 → nextWith (exec i s) (fun u =>
         ∃ e ∈ u.pageReqs, parked u e.1 ∧ e.2.world = l.world ∧ e.2.page = page ∧ ∃ j ∈ e.2.joined, j.1 = ag.waiter)) ∧
       (translates (fun r => ∃ v, r = .miss page v) → 3 ≤ s.triesOf ag.waiter page →
         nextWith (exec i s) (fun u => h.stops s u ag 0x0C)) ∧
       (translates (fun r => ∃ v, r = .invalid page v) → nextWith (exec i s) (fun u => h.stops s u ag 0x0C))
     h.site = some x → x.space = .host → Alone h c s ag → s.heldBy ag (·.data) = false →
     misses (.ld c ty d a disp) ty.bytes ∧ misses (.lds c ty d a disp) ty.bytes ∧ misses (.ldv c n d a disp) (4 * n.regs))

/-- R35, R182, R185 and R373: a store enters its wave's set, byte by byte, where the set has room, and replaces the
bytes held there, one to host memory once its pages are translated; a thread-local store is written at once, to the
thread's own memory or with LOCDEV to device memory. No other home memory and no other set changes. All this happens in
the step in which the word issues: the model's choice (log 18). R95, R182 and R244: a store for which the team's sets
have no room stops the team with code 0x10, and no thread of the team is left. -/
def Obligations.StoresEnterTheWaveSet : Prop :=
  (∀ (c : Ctl) (ty : Ty) (n : VCount) (a b disp : Src) (s : State) (h : Here) (x : Site) (team tid : Nat),
     let ag := Agent.thread team tid
     let at_ : Nat := (s.view ag).addr x.pair a disp
     let w := s.wave team (tid / 32)
     let l := h.place.launch
     h.site = some x → Alone h c s ag → s.heldBy ag (·.data) = false →
     let puts (bytes : List Byte) : List WCell := bytes.zipIdx.foldl (fun l e => wput (skey x.space (at_ + e.2)) e.1 tid l) w.cells
     let room (bytes : List Byte) : Prop :=
       (s.setWave team (tid / 32) { w with cells := puts bytes }).teamSectors team ≤ h.place.image.teamCap
     let stores (i : Instr) (bytes : List Byte) : Prop := Ready i s h → overlaps s.pends ag x.space at_ bytes.length = false →
       let entered (t : State) : Prop := movedOn h c t ∧
         (∀ k, k ≠ wkey team (tid / 32) → tget t.waves k = tget s.waves k) ∧
         (∀ j (hj : j < bytes.length), wcell (t.wave team (tid / 32)).cells (skey x.space (at_ + j)) = some bytes[j]) ∧
         (∀ k, (∀ j < bytes.length, k ≠ skey x.space (at_ + j)) →
           wcell (t.wave team (tid / 32)).cells k = wcell w.cells k) ∧
         (t.wave team (tid / 32)).colls = w.colls
       (x.space ≠ .host → x.space ≠ .loc → room bytes → nextWith (exec i s) (fun t => entered t ∧
         t = { s with waves := t.waves, passes := t.passes, perf := t.perf })) ∧
       (∀ xl, x.space = .host → (∀ u : State, s.alike u →
           ∃ v, u.translateRange (h.core / 128) l.world l.pasid at_ bytes.length true = .ok xl v) →
         room bytes → nextWith (exec i s) (fun t => entered t ∧
           t = { s with waves := t.waves, passes := t.passes, perf := t.perf, free := t.free, tries := t.tries, tlb := t.tlb
                        nonLeaf := t.nonLeaf, pctx := t.pctx })) ∧
       (x.space = .loc → l.locdev = true → s.devFree l (h.place.locUse ag at_ bytes.length true) → s.recs = [] →
         s.windowsClosed l.world → s.unsealed l.world →
         (∀ j < bytes.length, s.readOnly l.world (h.place.locBase tid + at_ + j) = false ∧
           (s.devAddr l.world (h.place.locBase tid + at_ + j)).isSome = true ∧ ∀ k < bytes.length,
             s.devAddr l.world (h.place.locBase tid + at_ + j) = s.devAddr l.world (h.place.locBase tid + at_ + k) → j = k) →
         nextWith (exec i s) (fun t => movedOn h c t ∧ (∀ v, t.view v = s.view v) ∧ t.waves = s.waves ∧ t.hostMem = s.hostMem ∧
           (∀ j (hj : j < bytes.length), t.locRead h.place team tid (at_ + j) = bytes[j]) ∧
           (∀ p, (∀ j < bytes.length, s.devAddr l.world (h.place.locBase tid + at_ + j) ≠ some p) →
             t.hbm.read p = s.hbm.read p))) ∧
       (x.space = .loc → l.locdev = false → nextWith (exec i s) (fun t => t = { s with threads := t.threads, passes := t.passes, perf := t.perf } ∧ movedOn h c t ∧
           (∀ v, t.view v = s.view v) ∧
           (∀ j (hj : j < bytes.length), t.locRead h.place team tid (at_ + j) = bytes[j]) ∧
           (∀ o, o < at_ ∨ at_ + bytes.length ≤ o → t.locRead h.place team tid o = s.locRead h.place team tid o)))
     stores (.st c ty a b disp) (bytesOfNat ty.bytes ((s.view ag).src ty b).toNat) ∧
     (∀ r, b = .x r → stores (.stv c n a b disp)
       ((xrun r.val n.regs).flatMap (fun q => bytesOfNat 4 ((s.view ag).reg q).toNat)))) ∧
  (∀ (c : Ctl) (ty : Ty) (a b disp : Src) (s : State) (h : Here) (x : Site) (tid : Nat),
     let team := h.pass.team
     let ag := Agent.thread team tid
     let i := Instr.st c ty a b disp
     let at_ : Nat := (s.view ag).addr x.pair a disp
     let bytes := bytesOfNat ty.bytes ((s.view ag).src ty b).toNat
     let w := s.wave team (tid / 32)
     let full := s.setWave team (tid / 32)
       { w with cells := bytes.zipIdx.foldl (fun l e => wput (skey x.space (at_ + e.2)) e.1 tid l) w.cells }
     Ready i s h → h.site = some x → x.space ≠ .host → x.space ≠ .loc → Alone h c s ag → s.heldBy ag (·.data) = false →
     overlaps s.pends ag x.space at_ bytes.length = false → h.place.team.stopped = false →
     h.place.image.teamCap < full.teamSectors team → s.teamSectors team < full.teamSectors team →
     nextWith (exec i s) (fun t => h.stops s t (.uniform team) 0x10 ∧
       (tget t.teams team).map (·.set) = some [] ∧ ∀ e ∈ t.waves, e.1 / 256 ≠ team))

/-- R187: where CHK's relation holds in every lane that takes it, nothing changes; where it fails, the thread takes
trap 0x06, and in a uniform block the team is stopped. The offset of a pointer is taken from the start of its region or
space, and the bound as CHK names it. R192 and R200: a PREF, which no FENCE holds back, changes no more than what lies
encrypted in L2 and what the package caches of host memory and its translations, and nothing at all in a space that has
no L2 tile; it moves on, parks nothing and faults never. A FENCE issues at once: its kind .data keeps the accesses,
commits and aborts under way in a record of the agent, and .eng the accesses and commits, and while one of them is open
the agent's loads, and its MMAs, wait before the word. -/
def Obligations.ChecksAndFences : Prop :=
  (∀ (c : Ctl) (op : RelOp) (ty : Ty) (a : Src) (b : ChkB) (k : Src) (s : State) (h : Here),
     let i := Instr.chk c op ty a b k
     let region (g : Nat) : Nat × Nat := (h.place.launch.regions[g]?).getD (0, 0)
     let off (v : View) : Int := match h.site with
       | none => v.int ty a
       | some x => match x.space with
         | .loc => v.int ty a
         | .near => v.int ty a % 2 ^ 19
         | .col => v.int ty a % 2 ^ 23
         | _ => v.int ty a - (region x.region).1
     let bound (v : View) : Int := (match b with
         | .src b => v.int ty b
         | .len g => ((region g.val).2 : Int)
         | .nthr => h.place.launch.threads
         | .tcap => h.place.image.threads
         | .nearsz => h.place.image.nearSz
         | .colsz => h.place.image.colSz
         | .locsz => h.place.image.locSz) + (v.src32 k).toInt
     let ok (v : View) : Prop := match op with
       | .lt => off v < bound v
       | .le => off v ≤ bound v
       | .eq => off v = bound v
     Ready i s h →
     ((∀ ag ∈ h.taking c s, ok (s.view ag)) → nextWith (exec i s) (fun t =>
       t = { s with passes := t.passes, perf := t.perf } ∧ movedOn h c t)) ∧
     (∀ ag, Alone h c s ag → ¬ ok (s.view ag) → nextWith (exec i s) (fun t => h.stops s t ag 0x06))) ∧
  (∀ (c : Ctl) (sc : Lv) (k : FenceKinds) (ty : Ty) (d : Dst) (a disp : Src) (s : State) (h : Here) (x : Site),
     let commits (ag : Agent) : List Nat := s.underWay ag (fun q => q == .commit)
     let data (ag : Agent) : FenceRec := ⟨s.outstanding ag, ⟨true, false, false⟩⟩
     let eng (ag : Agent) : FenceRec := ⟨commits ag, ⟨false, false, true⟩⟩
     (Ready (.pref c a disp) s h → h.site = some x → nextWith (exec (.pref c a disp) s) (fun t =>
       t = { s with
         passes := t.passes, perf := t.perf, hbm := t.hbm, seals := t.seals, free := t.free, worlds := t.worlds
         slots := t.slots, tlb := t.tlb, nonLeaf := t.nonLeaf, pctx := t.pctx, hostLines := t.hostLines } ∧ movedOn h c t ∧
       (∀ b, t.view b = s.view b) ∧
       (x.space ≠ .host → (x.space = .dev → s.keys h.place.launch.world = none) →
         t = { s with passes := t.passes, perf := t.perf }))) ∧
     (∀ ag, Ready (.fence c sc k) s h → Alone h c s ag → nextWith (exec (.fence c sc k) s) (fun t =>
       t = { s with threads := t.threads, teams := t.teams, passes := t.passes, perf := t.perf } ∧ movedOn h c t ∧
       (∀ b, t.view b = s.view b) ∧
       (k.data = true → s.outstanding ag ≠ [] → data ag ∈ t.fencesOf ag) ∧
       (k.eng = true → commits ag ≠ [] → eng ag ∈ t.fencesOf ag) ∧
       ∀ f ∈ t.fencesOf ag, f ∈ s.fencesOf ag ∨ (k.data = true ∧ f = data ag) ∨ (k.eng = true ∧ f = eng ag))) ∧
     (h.taking c s ≠ [] → (∀ ag ∈ h.taking c s, s.heldBy ag (·.data) = true) → h.site = some x → Ready (.ld c ty d a disp) s h →
       exec (.ld c ty d a disp) s = .next s) ∧
     (∀ m ci p acc mh nh km1 slot nexp, h.taking c s ≠ [] → (∀ ag ∈ h.taking c s, s.heldBy ag (·.eng) = true) →
       h.site = some x → Ready (.mma c m ci p acc mh nh km1 slot nexp) s h →
       exec (.mma c m ci p acc mh nh km1 slot nexp) s = .next s))

/-- R188: COMMIT.t empties the team set: near and column bytes go to their homes, and device and host bytes to the
cluster set, if it has room for them and no other team has merged them. No other team and no other cluster changes.
R188 and R189: a COMMIT.t whose bytes do not fit the cluster set stops the team with code 0x11 and changes nothing of
its cluster; one that merges a byte another team has merged counts a conflict, and under SCOMMIT stops the team with
code 0x12. -/
def Obligations.CommitToCluster : Prop :=
  (∀ (c : Ctl) (s : State) (h : Here),
     let team := h.pass.team
     let set := h.place.team.set
     let up := set.filter (fun e => spaceOf e.key == .dev || spaceOf e.key == .host)
     let merged := up.foldl (fun l e => sput e.key e.byte (some team) l) h.place.cluster.set
     Ready (.commit c .t) s h → s.heldBy (.uniform team) (·.data) = false → h.setsBusy s .t = false →
     setSectors merged ≤ h.place.image.clusterCap h.place.launch.tpc →
     conflict h.place.cluster.set team (up.map SCell.pair) = none →
     nextWith (exec (.commit c .t) s) (fun t =>
       t = { s with clusters := t.clusters, teams := t.teams, passes := t.passes, perf := t.perf } ∧ movedOn h c t ∧
       tget t.teams team = some { h.place.team with set := [] } ∧ (∀ q, q ≠ team → tget t.teams q = tget s.teams q) ∧
       (∀ q, q ≠ h.place.team.cluster → tget t.clusters q = tget s.clusters q) ∧
       ∃ k, tget t.clusters h.place.team.cluster = some k ∧
         k = { h.place.cluster with near := k.near, col := k.col, set := merged } ∧
         (∀ e ∈ up, (∀ e' ∈ up, e'.key = e.key → e'.byte = e.byte) → scell k.set e.key = some e.byte) ∧
         (∀ e ∈ set, (∀ e' ∈ set, e'.key = e.key → e'.byte = e.byte) →
           (spaceOf e.key = .near → k.near.read (addrOf e.key) = e.byte) ∧
           (spaceOf e.key = .col → k.col.read (addrOf e.key) = e.byte)) ∧
         (∀ a, (∀ e ∈ set, spaceOf e.key = .near → addrOf e.key ≠ a) → k.near.read a = h.place.cluster.near.read a) ∧
         (∀ a, (∀ e ∈ set, spaceOf e.key = .col → addrOf e.key ≠ a) → k.col.read a = h.place.cluster.col.read a))) ∧
  (∀ (c : Ctl) (s : State) (h : Here) (key : Nat),
     let team := h.pass.team
     let up := h.place.team.set.filter (fun e => spaceOf e.key == .dev || spaceOf e.key == .host)
     let merged := up.foldl (fun l e => sput e.key e.byte (some team) l) h.place.cluster.set
     let full : Prop := h.place.image.clusterCap h.place.launch.tpc < setSectors merged
     Ready (.commit c .t) s h → s.heldBy (.uniform team) (·.data) = false → h.setsBusy s .t = false → h.place.team.stopped = false →
     h.place.team.ended = false → up ≠ [] →
     (full → h.place.team.locks = [] → nextWith (exec (.commit c .t) s) (fun t => h.stops s t (.uniform team) 0x11 ∧
       tget t.clusters h.place.team.cluster = some h.place.cluster)) ∧
     (¬ full → conflict h.place.cluster.set team (up.map SCell.pair) = some key →
       nextWith (exec (.commit c .t) s) (fun t =>
         (tget t.clusters h.place.team.cluster).map (·.cconf) =
           some (if h.place.cluster.cconf = 0xFFFFFFFF then 0xFFFFFFFF else h.place.cluster.cconf + 1) ∧
         (tget t.teams team).map (·.stopped) = some h.place.launch.scommit ∧
         (h.place.launch.scommit = true → h.stops s t (.uniform team) 0x12))))

/-- R188: COMMIT.c, and COMMIT.d where the host holds no line of it, send the cluster set home at once where no byte of
it must wait, is refused or lies in host memory: the set is empty after it, each of its device bytes is at its home,
where no two are of one key or of one place of HBM, and no other byte of HBM has changed. R190: ABORT.t discards the
team set and ABORT.c the cluster set, and nothing else. -/
def Obligations.CommitHomeAndAbort : Prop :=
  (∀ (c : Ctl) (l : Lv) (s : State) (h : Here),
     let team := h.pass.team
     let w := h.place.launch.world
     let set := h.place.cluster.set
     l = .c ∨ (l = .d ∧ h.place.team.dwait = false ∧ s.shared = []) →
     Ready (.commit c l) s h → Alone h c s (.uniform team) → s.heldBy (.uniform team) (·.data) = false →
     h.setsBusy s l = false → h.place.team.mwait = 0 → (s.slotOf h.place.launch).rate = 0 → (∀ e ∈ set, spaceOf e.key ≠ .host) →
     (∀ e ∈ set, spaceOf e.key = .dev → s.claimedRange w (addrOf e.key) 1 = false ∧ s.confTile w (addrOf e.key) = none ∧
       s.readOnly w (addrOf e.key) = false ∧ s.mayWrite w (.merge team) (addrOf e.key) 1 0 = true) →
     nextWith (exec (.commit c l) s) (fun t => movedOn h c t ∧ t.hostMem = s.hostMem ∧ (∀ b, t.view b = s.view b) ∧
       (tget t.clusters h.place.team.cluster).map (·.set) = some [] ∧
       (s.unsealed w → s.windowsClosed w →
         (∀ p, (∀ e ∈ set, spaceOf e.key = .dev → s.devAddr w (addrOf e.key) ≠ some p) → t.hbm.read p = s.hbm.read p) ∧
         ((set.map (·.key)).Nodup → (∀ e ∈ set, spaceOf e.key = .dev → (s.devAddr w (addrOf e.key)).isSome = true ∧
             ∀ e' ∈ set, spaceOf e'.key = .dev → s.devAddr w (addrOf e.key) = s.devAddr w (addrOf e'.key) → e = e') →
           ∀ e ∈ set, spaceOf e.key = .dev → t.devByte w (addrOf e.key) = e.byte)))) ∧
  (∀ (c : Ctl) (s : State) (h : Here), Alone h c s (.uniform h.pass.team) →
     s.heldBy (.uniform h.pass.team) (·.data) = false →
     (Ready (.abort c .t) s h → h.setsBusy s .t = false → nextWith (exec (.abort c .t) s) (fun t => movedOn h c t ∧
       t = { s with teams := t.teams, passes := t.passes, perf := t.perf } ∧
       tget t.teams h.pass.team = some { h.place.team with set := [] } ∧
       ∀ k, k ≠ h.pass.team → tget t.teams k = tget s.teams k)) ∧
     (Ready (.abort c .c) s h → h.setsBusy s .c = false → nextWith (exec (.abort c .c) s) (fun t => movedOn h c t ∧
       t = { s with clusters := t.clusters, passes := t.passes, perf := t.perf } ∧
       tget t.clusters h.place.team.cluster = some { h.place.cluster with set := [] } ∧
       ∀ k, k ≠ h.place.team.cluster → tget t.clusters k = tget s.clusters k)))

/-- R181, R193 to R195, R373 and R374: an atomic of one lane on an aligned place is under way when it has issued, with its
operands, and in host memory with its pages; one on a host page that bypasses the caches takes trap 0x0C, and a misaligned one
trap 0x07. -/
def Obligations.AtomicsIssue : Prop :=
  ∀ (c : Ctl) (op : AtomOp) (sc : Lv) (ty : Ty) (d : Dst) (a b e disp : Src) (s : State) (h : Here) (x : Site) (team tid : Nat),
    let ag := Agent.thread team tid
    let v := s.view ag
    let l := h.place.launch
    h.site = some x → Alone h c s ag → s.heldBy ag (·.data) = false → (∀ p ∈ s.pends, p.1 < s.nextId) →
    let goes (i : Instr) (at_ : Nat) (lane : AtomLane) : Prop := Ready i s h →
      (∀ xl, x.space = .host → at_ % ty.bytes = 0 → (∀ u : State, s.alike u →
          ∃ v, u.translateRange (h.core / 128) l.world l.pasid at_ ty.bytes true = .ok xl v) →
        ((∀ f ∈ xl, f.2.cached = true) → nextWith (exec i s) (fun t => movedOn h c t ∧ t.hbm = s.hbm ∧ t.hostMem = s.hostMem ∧
          (∀ b, t.view b = s.view b) ∧
          ∃ p ∈ t.pends, p.2 = ⟨ag, .atomic .host at_ sc op ty [lane] xl, h.group.off⟩)) ∧
        ((∃ f ∈ xl, f.2.cached = false) → nextWith (exec i s) (fun t => h.stops s t ag 0x0C))) ∧
      (x.space ≠ .host → at_ % ty.bytes = 0 → nextWith (exec i s) (fun t =>
        (∃ p ∈ t.pends, p.2 = ⟨ag, .atomic x.space at_ sc op ty [lane] [], h.group.off⟩) ∧ OnlyPending h [ag] s t ∧ movedOn h c t)) ∧
      (at_ % ty.bytes ≠ 0 → nextWith (exec i s) (fun t => h.stops s t ag 0x07))
    goes (.atom c op sc ty d a b e) (v.addr x.pair a (if op = .cas then .small 64 else e))
      ⟨ag, Dst.regs ty.wide d, v.src ty b, v.src ty e⟩ ∧
    goes (.red c op sc ty a b disp) (v.addr x.pair a disp) ⟨ag, [], v.src ty b, v.src ty (.small 64)⟩

/-- R181, R193 and R197: LKACQ takes a lock word outside host memory that is 0, which becomes 1, and gives 0; a held
word gives 1 and a broken word 2, and is left. LKREL writes 0. No memory but the word changes. A misaligned word takes
trap 0x07. The word is read and written in the step in which it issues: the model's choice (log 18). R201 to R203:
SWARM gives GEN and arms its sync word, which completes at once when enough has arrived; SWAIT goes on where the token
is old or ERR is set, and is blocked where not. A misaligned word takes trap 0x07. The word is read and written in the
step in which SWARM issues: the model's choice (log 18). -/
def Obligations.LocksAndSyncWords : Prop :=
  (∀ (c : Ctl) (sc : Lv) (d : Dst) (a : Src) (s : State) (h : Here) (x : Site) (ag : Agent),
     let team := h.pass.team
     let world := h.place.launch.world
     let at_ : Nat := (s.view ag).addr x.pair a (.small 64)
     let word (u : State) : DWord := u.levelRead team h.place sc x.space [] at_ 4
     let k : HeldLock := ⟨x.space, at_, sc⟩
     let locks (u : State) : Option (List HeldLock) := (tget u.teams team).map (·.locks)
     let home : Prop := x.space = .dev ∧ (sc = .d ∨ sc = .s)
     let same (t : State) : Prop := movedOn h c t ∧ t.hostMem = s.hostMem ∧ (∀ b, t.view b = s.view b) ∧
       ∀ p, (home → ∀ i < 4, s.devAddr world (at_ + i) ≠ some p) → t.hbm.read p = s.hbm.read p
     h.site = some x → Alone h c s ag → s.heldBy ag (·.data) = false → sc ≠ .w →
     (x.space = .near ∨ x.space = .col ∨ x.space = .dev) →
     (home → s.recs = [] ∧ s.windowsClosed world ∧ (s.devAddr world at_).isSome = true ∧
       ∀ i < 4, s.readOnly world (at_ + i) = false) →
     overlaps s.pends ag x.space at_ 4 = false →
     (x.space = .dev → s.unsealed world ∧ s.devFree h.place.launch [⟨ag, at_, 4, true, devScope x.space sc⟩]) →
     (at_ % 4 ≠ 0 →
       (Ready (.lkacq c sc d a) s h → nextWith (exec (.lkacq c sc d a) s) (fun t => h.stops s t ag 0x07)) ∧
       (Ready (.lkrel c sc a) s h → s.outstanding ag = [] → nextWith (exec (.lkrel c sc a) s) (fun t => h.stops s t ag 0x07))) ∧
     (at_ % 4 = 0 → Ready (.lkacq c sc d a) s h → nextWith (exec (.lkacq c sc d a) s) (fun t => same t ∧
       (word s = 0 → t.coming ag (dstWrites d false 0) ∧ word t = 1 ∧ (sc ≠ .t → ∃ l, locks t = some l ∧ k ∈ l)) ∧
       (word s = 0xFFFFFFFF → t.coming ag (dstWrites d false 2) ∧ word t = word s ∧ locks t = locks s) ∧
       (word s ≠ 0 → word s ≠ 0xFFFFFFFF → t.coming ag (dstWrites d false 1) ∧ word t = word s ∧ locks t = locks s))) ∧
     (at_ % 4 = 0 → Ready (.lkrel c sc a) s h → s.outstanding ag = [] → nextWith (exec (.lkrel c sc a) s) (fun t => same t ∧ word t = 0 ∧
       (sc ≠ .t → ∃ l, locks t = some l ∧ k ∉ l)))) ∧
  (∀ (c : Ctl) (d : Dst) (kd : KDst) (a b disp : Src) (s : State) (h : Here) (x : Site) (ag : Agent),
     let v := s.view ag
     let at_ : Nat := v.addr x.pair a disp
     let w := s.syncWord h.place at_
     let n : Nat := (v.src32 b).toNat
     let fall : Nat := (h.group.off + c.form.bytes + 63) / 64 * 64
     h.site = some x → Alone h c s ag → s.heldBy ag (·.data) = false → overlaps s.pends ag x.space at_ 16 = false →
     (Ready (.swarm c d a b disp) s h → at_ % 16 = 0 →
       nextWith (exec (.swarm c d a b disp) s) (fun t => movedOn h c t ∧ t.coming ag (dstWrites d false (BitVec.ofNat 64 w.gen)) ∧
         t.hbm = s.hbm ∧ t.hostMem = s.hostMem ∧ (∀ b, t.view b = s.view b) ∧
         t.syncWord h.place at_ = (if n ≠ 0 ∧ n ≤ w.count then ⟨0, w.count - n, (w.gen + 1) % 2 ^ 32, false, 0⟩
           else ⟨n, w.count, w.gen, false, 0⟩) ∧
         ∀ o, o < at_ ∨ at_ + 16 ≤ o → t.homeByte h.place .near o [] = s.homeByte h.place .near o [])) ∧
     (Ready (.swait c kd a b disp) s h → at_ % 16 = 0 → nextWith (exec (.swait c kd a b disp) s) (fun t => ended h t ∧
       t = { s with threads := t.threads, teams := t.teams, passes := t.passes, perf := t.perf } ∧
       if w.err = true ∨ w.gen ≠ n then t.leaveOf ag = some (.goto fall) ∧ t.holds ag (kWrites kd w.err)
       else t.leaveOf ag = some (.block fall (.sync at_ kd (v.src32 b))))) ∧
     (at_ % 16 ≠ 0 → (Ready (.swarm c d a b disp) s h → nextWith (exec (.swarm c d a b disp) s) (fun t => h.stops s t ag 0x07)) ∧
       (Ready (.swait c kd a b disp) s h → nextWith (exec (.swait c kd a b disp) s) (fun t => h.stops s t ag 0x07))))

/-! Engines. -/

/-- R208, R210, R218, R219, R221, R223, R226, R331 and R429: with an entry free, a copy command in one lane takes the
thread's next sequence number, once what its record's lookup reads can be had. A CPY that is not refused enters its
rows; a CPYT its tiles, each with its scale bytes where it says so; a WLD its slot from near memory, or the blocks of a
record of its format; and each its target and its members. What a record's lookup finds is stated for a world without
keys. R220 and R222: a CPY through a bounce channel that is not open fails at once with code 3: its thread keeps the
status, and its barrier has ERR set. R224: CPYQ gives 0 where no such request has been made, and the bytes moved and
the status of one that is in the copy unit, or has left it. -/
def Obligations.CopyCommands : Prop :=
  (∀ (c : Ctl) (tgt : CopyTgt) (a b tile : Src) (mcast : Fin 17) (bch : Fin 16) (lenm1 : BitVec 20) (rowsm1 : BitVec 12)
     (spitch dpitch : BitVec 14) (out : Bool) (ntm1 : BitVec 8) (tb : Fin 6) (slot : BitVec 10) (km1 : BitVec 6) (wf : WFmt)
     (flag : Bool) (s : State) (h : Here) (tid : Nat) (u : Thread),
     let team := h.pass.team
     let ag := Agent.thread team tid
     let v := s.view ag
     let l := h.place.launch
     let w := l.world
     let ra : Nat := v.addr true a (.small 64)
     let t0 : Nat := (v.src32 tile).toNat
     Alone h c s ag → s.thread team tid = some u → s.heldBy ag (·.eng) = false →
     (h.place.image.prodChecks.contains h.group.off = true → tid / 32 = l.prodw) →
     (∀ e, s.copyHead h.core = some e → e = (h.pid, h.gid)) → s.copyEntries h.core < 32 →
     (s.world w).mig.active ≠ 1 → (s.world w).mig.waiting = [] →
     let takes (i : Instr) (uses : List DevUse) (P : State → Prop) : Prop := Ready i s h → s.devFree l uses →
       nextWith (exec i s) (fun t => movedOn h c t ∧ t.hostMem = s.hostMem ∧ (∀ b, t.view b = s.view b) ∧
         (t.thread team tid).map (·.copySeq) = some (u.copySeq + 1) ∧ P t)
     let enters (rows : List Row) (members : Option (List Nat)) (t : State) : Prop := ∃ e, t.copies = s.copies ++ [e] ∧
       e.2.rows = rows ∧ e.2.members = members ∧ e.2.seq = u.copySeq ∧ e.2.state = .queued ∧ e.2.moved = 0 ∧
       e.2.team = team ∧ e.2.tid = some tid ∧ e.2.core = h.core ∧ e.2.claims = claimsOf rows ∧
       e.2.target = (match tgt with | .barrier n => .barrier n.toNat | .sync d => .sync (v.src32 d).toNat)
     let finds (read write : Bool) (tile : Option Nat) (r : TRec) : Prop := s.keys w = none ∧
       ∀ u, s.alike u → ∃ k, u.recCheck w l.tenant ra read write tile = some (r, k)
     (∀ x y, h.site = some x → h.site2 = some y → takes (.cpy c tgt a b flag mcast bch lenm1 rowsm1 spitch dpitch) [] (fun t =>
       ∀ ms, h.members mcast.val = some ms →
         let rows : List Row := (List.range (rowsm1.toNat + 1)).map (fun i =>
           ⟨.mem x.space, v.addr x.pair a (.small 64) + i * 32 * spitch.toNat, .mem y.space,
             v.addr y.pair b (.small 64) + i * 32 * dpitch.toNat, lenm1.toNat + 1, flag⟩)
         (flag = true → ∃ ch, (s.world w).chans[bch.val]? = some ch ∧ ch.opened = true) →
         s.claimRefused w (claimsOf rows) = false → enters rows ms t)) ∧
     (∀ y, h.site2 = some y → takes (.cpyt c out tgt a b tile ntm1 tb flag mcast)
       (s.lookupUses w ag ra out t0 (ntm1.toNat + 1)) (fun t => ∀ r ms, h.members mcast.val = some ms →
         finds (!out) out (some (t0 + ntm1.toNat)) r → r.tileBytes = 2 ^ (tb.val + 9) → (flag = true → scaled r.fmt = true) →
         let row (d len near : Nat) : Row :=
           if out then ⟨.mem y.space, near, .mem .dev, d, len, false⟩ else ⟨.mem .dev, d, .mem y.space, near, len, false⟩
         let rows : List Row := (List.range (ntm1.toNat + 1)).flatMap (fun i =>
           let near : Nat := (v.src32 b).toNat + i * (2 ^ (tb.val + 9) + if flag then 64 else 0)
           row (r.base + (t0 + i) * 2 ^ (tb.val + 9)) (2 ^ (tb.val + 9)) near ::
             (if flag then (r.planeRuns (t0 + i)).zipIdx.map (fun e =>
               row e.1.1 e.1.2 (near + 2 ^ (tb.val + 9) + if r.baxis then 0 else e.2)) else []))
         (out = true → r.conf = false ∧ (∀ n ∈ claimsOf rows, s.readOnly w (n * 512) = false) ∧
           ∀ i ≤ ntm1.toNat, s.readOnly w (r.febase + (t0 + i) / 4) = false) →
         enters rows ms t)) ∧
     (let bytes : Nat := match wf with | .ds8 => 65 | .ds4 => 33 | .bf16 => 128
      let k : Nat := 64 * (km1.toNat + 1)
      let home := h.place.team.home
      takes (.wld c true tgt a tile slot km1 wf) [] (fun t => ∀ m, h.place.team.mres = some m →
        enters [⟨.mem .near, (v.src32 a).toNat, .wbuf home, m.wbuf + slot.toNat * 512, bytes * k, false⟩] none t) ∧
      takes (.wld c false tgt a tile slot km1 wf) (s.lookupUses w ag ra false 0 0) (fun t => ∀ m r,
        h.place.team.mres = some m → finds true false none r →
        r.tshape = 1 ∧ (match wf with
          | .ds8 => r.fmt = 5 ∧ r.baxis = true
          | .ds4 => r.fmt = 6 ∧ r.baxis = true
          | .bf16 => r.fmt = 1) →
        t0 + km1.toNat * (r.cols / 64) < r.tiles →
        let at_ : Nat := m.wbuf + slot.toNat * 512
        enters ((List.range (km1.toNat + 1)).flatMap (fun i =>
          let n := t0 + i * (r.cols / 64)
          (⟨.mem .dev, r.base + n * r.tileBytes, .wbuf home, at_ + i * r.tileBytes, r.tileBytes, false⟩ : Row) ::
            (if wf = .bf16 then [] else
              [⟨.mem .dev, r.spbase + n / (r.cols / 64) * r.cols + n % (r.cols / 64) * 64, .wbuf home,
                at_ + (bytes - 1) * k + i * 64, 64, false⟩]))) none t))) ∧
  (∀ (c : Ctl) (b : BitVec 4) (p q : Src) (bch : Fin 16) (lenm1 : BitVec 20) (rowsm1 : BitVec 12) (spitch dpitch : BitVec 14)
     (s : State) (h : Here) (tid : Nat) (u : Thread),
     let team := h.pass.team
     let ag := Agent.thread team tid
     let i := Instr.cpy c (.barrier b) p q true 0 bch lenm1 rowsm1 spitch dpitch
     Ready i s h → Alone h c s ag → s.thread team tid = some u → s.heldBy ag (·.eng) = false →
     h.place.image.prodChecks.contains h.group.off = false → s.copyQ = [] → (∀ e ∈ u.copies, u.copySeq + 1 ≤ e.seq + 32) →
     s.copyEntries h.core < 32 → h.site.isSome = true → h.site2.isSome = true →
     h.place.team.ended = false → s.coreDown h.place.team.home = false →
     (∀ ch, (s.world h.place.launch.world).chans[bch.val]? = some ch → ch.opened = false) →
     nextWith (exec i s) (fun t => movedOn h c t ∧ t.hbm = s.hbm ∧ t.hostMem = s.hostMem ∧ (∀ b, t.view b = s.view b) ∧
       (t.thread team tid).map (·.copies) = some (u.copies ++ [⟨u.copySeq, 0x35, 0⟩]) ∧
       (t.bar team b.toNat).err = true)) ∧
  (∀ (c : Ctl) (d : Dst) (a : Src) (s : State) (h : Here) (tid : Nat) (u : Thread),
     let team := h.pass.team
     let ag := Agent.thread team tid
     let n : Nat := ((s.view ag).src32 a).toNat % 32
     Ready (.cpyq c d a) s h → Alone h c s ag → s.thread team tid = some u →
     nextWith (exec (.cpyq c d a) s) (fun t => OnlyPending h h.agents s t ∧ movedOn h c t ∧
       (u.copySeq ≤ n → t.coming ag (dstWrites d true 0)) ∧
       (∀ e, n < u.copySeq → s.copies.find? (fun k => k.2.team == team && k.2.tid == some tid && k.2.seq == u.copySeq - 1 - n) =
         some e → t.coming ag (dstWrites d true (BitVec.ofNat 64 (min e.2.done (2 ^ 32 - 1) * 2 ^ 32 + e.2.state.code e.2.ecode)))) ∧
       (∀ e, n < u.copySeq → (∀ k ∈ s.copies, ¬ (k.2.team = team ∧ k.2.tid = some tid ∧ k.2.seq = u.copySeq - 1 - n)) →
         u.copies.find? (fun e => e.seq == u.copySeq - 1 - n) = some e →
         t.coming ag (dstWrites d true (BitVec.ofNat 64 (min e.moved (2 ^ 32 - 1) * 2 ^ 32 + e.code))))))

/-- R231: a lane's MMA whose NEXP is the register's EXP signs; the one that completes the set puts the operation behind
those already in the queues of its banks, where all its signatures agree. One whose NEXP differs takes trap 0x0A, whose AUX
holds both numbers. No other context's operations are under way on the banks (R366). -/
def Obligations.MatrixSignature : Prop :=
  ∀ (c : Ctl) (m : MMode) (ci : Fin 16) (a : Src) (acc : Acc) (mh nh : Bool) (km1 : BitVec 6) (slot : BitVec 10)
    (nexp : BitVec 14) (s : State) (h : Here) (x : Site) (tid : Nat),
    let team := h.pass.team
    let ag := Agent.thread team tid
    let i := Instr.mma c m ci a acc mh nh km1 slot nexp
    let r := s.conv team ci.val
    let op : MOp := ⟨m, acc, mh, nh, 64 * (km1.toNat + 1), slot.toNat, x.space, ((s.view ag).src32 a).toNat⟩
    Ready i s h → Alone h c s ag → h.site = some x → s.heldBy ag (·.eng) = false →
    h.signWaits s ci.val 1 (some acc) = false →
    (r.exp = nexp.toNat → r.sig + 1 < r.exp → r.set = none → nextWith (exec i s) (fun t => movedOn h c t ∧
      t = { s with teams := t.teams, passes := t.passes, perf := t.perf } ∧ (∀ b, t.view b = s.view b) ∧
      t.conv team ci.val = { r with sig := r.sig + 1, set := some ⟨op, nexp.toNat, h.group.off, tid, i, false⟩ })) ∧
    (∀ res, r.exp = nexp.toNat → r.exp ≤ r.sig + 1 → r.exp ≠ 0 → h.place.team.mres = some res →
      (∀ k, r.set = some k → k.word = i ∧ k.op = op ∧ k.bad = false) → nextWith (exec i s) (fun t => movedOn h c t ∧
        t.hbm = s.hbm ∧ t.hostMem = s.hostMem ∧ t.clusters = s.clusters ∧ (∀ b, t.view b = s.view b) ∧
        (t.conv team ci.val).sig = 0 ∧ (t.conv team ci.val).set = none ∧ (t.conv team ci.val).seq = r.seq + 1 ∧
        ∃ e, t.bankOps = s.bankOps ++ [e] ∧ e.2.team = team ∧ e.2.kind = .mma op ∧ e.2.started = false ∧
          e.2.banks = (if acc.quad then [0, 1, 2, 3].map (fun j => res.bank + acc.acc.val + j) else [res.bank + acc.acc.val]))) ∧
    (r.exp ≠ nexp.toNat → nextWith (exec i s) (fun t => h.stops s t ag 0x0A ∧
      (s.ringFree h.place.launch.world →
        t.devNat h.place.launch.world (s.trapSlot h.place.launch.world + 32) 8 = (r.exp + 2 ^ 32 * nexp.toNat) % 2 ^ 64)))

/-- R233, R234 and R366: AZERO, ARD and AWR enter the queues of their banks behind what is there, once no operation of
another context is under way on them; what the banks hold changes no more than by a first use's swap, and not at all
where the context owns the bank already. An ARD's register is pending. R227: WDROP makes the whole 512-byte steps of
its range read as zero, within the team's part of the weight buffer, and changes nothing else. -/
def Obligations.BankWords : Prop :=
  (∀ (c : Ctl) (acc : Acc) (k : Fin 8) (f32 : Bool) (d : Dst) (a b : Src) (s : State) (h : Here) (res : MatrixRes) (ag : Agent),
     let v := s.view ag
     let one : List Nat := [res.bank + k.val]
     h.place.team.mres = some res → Alone h c s ag →
     let enters (i : Instr) (banks : List Nat) (kind : BankOpKind) : Prop := Ready i s h → s.bankBusy h.place banks = false →
       nextWith (exec i s) (fun t => movedOn h c t ∧
       t = { s with threads := t.threads, teams := t.teams, bankOps := t.bankOps, nextId := t.nextId, passes := t.passes
                    perf := t.perf, accs := t.accs, accSaved := t.accSaved, accOwner := t.accOwner } ∧
       (∀ b, t.view b = s.view b) ∧
       (∀ b, banks = [b] → s.owner h.place.team.home b = 128 + h.place.launch.slot ∨
           s.owner h.place.team.home b = 192 + h.place.launch.slot → h.place.launch.slot < 16 →
         t.accs = s.accs ∧ t.accSaved = s.accSaved) ∧
       ∃ n, t.bankOps = s.bankOps ++ [(n, ⟨h.pass.team, h.place.team.home, banks, h.group.off, kind, false, []⟩)])
     enters (.azero c acc) (if acc.quad then [0, 1, 2, 3].map (fun j => res.bank + acc.acc.val + j) else [res.bank + acc.acc.val])
       .azero ∧
     (∀ team tid, ag = .thread team tid →
       enters (.ard c k d a) one (.ard (some tid) (Dst.regs false d) ((v.src32 a).toNat % 1024)) ∧
       ∀ t, exec (.ard c k d a) s = .next t → Ready (.ard c k d a) s h → s.bankBusy h.place one = false →
         ∀ r, d = .x r → t.pendBit ag (.x r.val) = true) ∧
     enters (.awr c k f32 a b) one (.awr ((v.src32 b).toNat % 1024) ((v.src (if f32 then .f32 else .b32) a).setWidth 32))) ∧
  (∀ (c : Ctl) (a b : Src) (s : State) (h : Here) (m : MatrixRes),
     let v := s.view (.uniform h.pass.team)
     let x : Nat := (v.src32 a).toNat
     let lo : Nat := m.wbuf + min (x / 512 * 512) m.wbufLen
     let hi : Nat := m.wbuf + min ((x + (v.src32 b).toNat) / 512 * 512) m.wbufLen
     Ready (.wdrop c a b) s h → h.place.team.mres = some m → s.wbufUses = [] →
     nextWith (exec (.wdrop c a b) s) (fun t => movedOn h c t ∧
       t = { s with wbufs := t.wbufs, passes := t.passes, perf := t.perf } ∧
       (∀ o, lo ≤ o → o < hi → (t.wbuf h.place.team.home).read o = 0) ∧
       (∀ o, o < lo ∨ hi ≤ o → (t.wbuf h.place.team.home).read o = (s.wbuf h.place.team.home).read o) ∧
       ∀ k, k ≠ h.place.team.home → t.wbuf k = s.wbuf k))

/-- R213, R226, R235, R237 and R366: in a quiet world without keys, a QST whose record passes the check, in the named format and
tile shape, and whose tile it may write, enters the queue of its banks with its operands as they are; one whose record fails
the check, or is of another format or shape, stops the team with code 0x13. -/
def Obligations.DrainIssues : Prop :=
  ∀ (c : Ctl) (acc : Acc) (axisM : Bool) (a post tile : Src) (fmt : QFmt) (blk rin rout : Bool) (hslot : Fin 17)
    (sreg : BitVec 10) (s : State) (h : Here) (r : TRec),
    let i := Instr.qst c acc axisM a post tile fmt blk rin rout hslot sreg
    let v := s.view (.uniform h.pass.team)
    let l := h.place.launch
    let check (u : State) : Option (TRec × State) :=
      u.recCheck l.world l.tenant (v.addr true a (.small 64)) false true (some (v.src32 tile).toNat)
    let rows : List (Nat × Nat) := (r.tileAddr (v.src32 tile).toNat, r.tileBytes) ::
      (if fmt == .bx8 || fmt == .bx4 then r.planeRuns (v.src32 tile).toNat else [])
    Ready i s h → s.heldBy (.uniform h.pass.team) (fun k => k.eng || k.record) = false → s.quiet l (.uniform h.pass.team) →
    s.keys l.world = none → s.bankBusy h.place (h.banks acc) = false →
    (r.fmt = (match fmt with | .f32 => 0 | .bf16 => 1 | .bx8 => 3 | .bx4 => 4) → r.tshape = (if acc.quad then 1 else 0) →
      r.conf = false → (∀ u, s.alike u → ∃ k, check u = some (r, k)) →
      (∀ n ∈ claimsOf (rows.map (fun e => ⟨.zeros, 0, .mem .dev, e.1, e.2, false⟩)), s.readOnly l.world (n * 512) = false) →
      s.readOnly l.world (r.febase + (v.src32 tile).toNat / 4) = false →
      nextWith (exec i s) (fun t => movedOn h c t ∧ t.hostMem = s.hostMem ∧ (∀ b, t.view b = s.view b) ∧
        ∃ e dr, t.bankOps = s.bankOps ++ [e] ∧ e.2.team = h.pass.team ∧ e.2.kind = .qst dr ∧ dr.base = r.base ∧
          e.2.banks = h.banks acc ∧ e.2.core = h.place.team.home ∧ e.2.started = false ∧ dr.axisM = axisM ∧ dr.blk = blk ∧
          dr.code = (v.reg (.s sreg.toNat)).setWidth 8 ∧ dr.spbase = r.spbase ∧ dr.febase = r.febase ∧ dr.cols = r.cols ∧
          dr.baxis = r.baxis ∧ dr.tile = (v.src32 tile).toNat ∧ dr.fmt = fmt ∧ dr.post = (v.src .f32 post).setWidth 32 ∧ dr.rin = rin ∧
          dr.rout = rout ∧ dr.hslot = hslot.val)) ∧
    (h.place.team.stopped = false → ((∀ u, s.alike u → check u = none) ∨
        (∀ u, s.alike u → ∃ k, check u = some (r, k)) ∧
          (r.fmt ≠ (match fmt with | .f32 => 0 | .bf16 => 1 | .bx8 => 3 | .bx4 => 4) ∨ r.tshape ≠ (if acc.quad then 1 else 0))) →
      nextWith (exec i s) (fun t => h.stops s t (.uniform h.pass.team) 0x13))

/-- R189 and R238: with no drain of residues queued, RESLD's load into its residue registers is under way, and RESST's
bytes, which fit and meet no other merger, enter the team set. R241: with no drain of the slot queued, HCLR gives it a
base and clears its counts, and HRD reads a count. -/
def Obligations.ResiduesAndHistograms : Prop :=
  (∀ (c : Ctl) (e0 nm1 : Fin 64) (a d : Src) (s : State) (h : Here) (x : Site),
     let team := h.pass.team
     let ag := Agent.uniform team
     let at_ : Nat := (s.view ag).addr x.pair a d
     let n := nm1.val + 1
     let cells : List (Nat × Byte) := (((List.range n).flatMap (fun i =>
       bytesOfNat 4 ((h.place.team.res[e0.val + i]?).getD 0).toNat)).zipIdx).map (fun e => (skey x.space (at_ + e.2), e.1))
     let set := cells.foldl (fun l e => sput e.1 e.2 (some 0) l) h.place.team.set
     h.site = some x → x.space ≠ .host → Alone h c s ag → s.heldBy ag (·.data) = false →
     s.draining team (fun k => k.rin || k.rout) = false →
     (Ready (.resld c e0 a nm1 d) s h → nextWith (exec (.resld c e0 a nm1 d) s) (fun t => movedOn h c t ∧
       OnlyPending h h.agents s t ∧ ∃ e ∈ t.pends, e.2 = ⟨ag, .load x.space at_ (4 * n) [] .b32 (erun e0.val n) [], h.group.off⟩)) ∧
     (Ready (.resst c e0 a nm1 d) s h → overlaps s.pends ag x.space at_ (4 * n) = false →
       (s.modTeam team (fun t => { t with set := set })).teamSectors team ≤ h.place.image.teamCap →
       conflict h.place.team.set 0 cells = none → nextWith (exec (.resst c e0 a nm1 d) s) (fun t => movedOn h c t ∧
         t = { s with teams := t.teams, passes := t.passes, perf := t.perf } ∧
         tget t.teams team = some { h.place.team with set := set } ∧
         ∀ k < n, ∀ j < 4, scell set (skey x.space (at_ + 4 * k + j)) =
           some ((bytesOfNat 4 ((h.place.team.res[e0.val + k]?).getD 0).toNat).getD j 0)))) ∧
  (∀ (c : Ctl) (slot : Fin 16) (d : Dst) (a : Src) (s : State) (h : Here),
     let clear : HistSlot := ⟨(s.view (.uniform h.pass.team)).src32 a, Vector.replicate 32 0⟩
     let count (n : Nat) : Word := (h.place.team.hist[slot.val].count)[n % 32]'(Nat.mod_lt _ (by decide))
     s.draining h.pass.team (fun k => k.hslot == slot.val + 1) = false →
     (Ready (.hclr c slot a) s h → nextWith (exec (.hclr c slot a) s) (fun t => movedOn h c t ∧
       t = { s with teams := t.teams, passes := t.passes, perf := t.perf } ∧
       tget t.teams h.pass.team = some { h.place.team with hist := h.place.team.hist.set slot.val clear slot.isLt })) ∧
     (Ready (.hrd c slot d a) s h → nextWith (exec (.hrd c slot d a) s) (fun t => movedOn h c t ∧ OnlyPending h h.agents s t ∧
       ∀ ag ∈ h.taking c s, s.alive ag = true → t.coming ag (dstWrites d false ((count ((s.view ag).src32 a).toNat).setWidth 64)))))

/-- R209 and R215: TREC writes a field of a record that is not open, in device memory its tenant may write, and gives
1; an open record gives 0, and an address that is no such memory, or no multiple of 64, all ones, and nothing is
written. The world is quiet and holds no keys. R213, R216 and R217: where the record passes the check, TOPEN opens it,
with the next VERSION, if it is closed, and TCLOSE closes it if it is open, each giving 1, and 0 where not; TFE gives F
and W of the tile. In memory that lies as it is written, and shows in no window, TOPEN leaves F and W of every tile 0,
where the record does not lie among them, and TFE F as its operation says, and W as it was. A record that fails the
check gives all ones and nothing changes. The world is quiet and holds no keys. -/
def Obligations.TensorRecords : Prop :=
  (∀ (c : Ctl) (fld : RecFld) (d : Dst) (a b : Src) (s : State) (h : Here) (ag : Agent),
     let i := Instr.trec c fld d a b
     let v := s.view ag
     let w := h.place.launch.world
     let ra : Nat := v.addr true a (.small 64)
     let x : Nat := (v.src (if fld.wide then .b64 else .b32) b).toNat
     let may : Prop := ra % 64 = 0 ∧ s.devCovered w h.place.launch.tenant ra 64 false true = true
     Ready i s h → Alone h c s ag → s.heldBy ag (·.record) = false → s.quiet h.place.launch ag → s.keys w = none →
     (∀ j < 64, s.readOnly w (ra + j) = false) →
     (may → (s.readRec w ra).opened = false → nextWith (exec i s) (fun t => movedOn h c t ∧ t.coming ag (dstWrites d false 1) ∧
       t.hostMem = s.hostMem ∧ (∀ b, t.view b = s.view b) ∧
       (s.windowsClosed w → s.seals = [] → match fld with
         | .base => t.devNat w (ra + 8) 8 = x
         | .spbase => t.devNat w (ra + 16) 8 = x
         | .rows => t.devNat w (ra + 24) 4 = x % 2 ^ 32
         | .cols => t.devNat w (ra + 28) 4 = x % 2 ^ 32
         | .febase => t.devNat w (ra + 32) 8 = x
         | .fmt => t.devNat w ra 2 = s.devNat w ra 2 / 2048 * 2048 + x % 2048
         | .tid => t.devNat w (ra + 2) 2 = x % 2 ^ 16) ∧
       (s.windowsClosed w → s.seals = [] → ∀ x, (∀ j < 64, s.devAddr w (ra + j) ≠ some x) → t.hbm.read x = s.hbm.read x))) ∧
     (may → (s.readRec w ra).opened = true → nextWith (exec i s) (fun t => movedOn h c t ∧ t.coming ag (dstWrites d false 0) ∧
       OnlyPending h [ag] s t)) ∧
     (¬ may → nextWith (exec i s) (fun t => movedOn h c t ∧ t.coming ag (dstWrites d false 0xFFFFFFFF) ∧
       OnlyPending h [ag] s t))) ∧
  (∀ (c : Ctl) (op : TfeOp) (d : Dst) (a tile : Src) (s : State) (h : Here) (ag : Agent) (r : TRec),
     let v := s.view ag
     let l := h.place.launch
     let ra : Nat := v.addr true a (.small 64)
     let n : Nat := (v.src32 tile).toNat
     let passes (tile : Option Nat) (P : State → Prop) : Prop :=
       ∀ u, s.alike u → ∃ k, u.recCheck l.world l.tenant ra false true tile = some (r, k) ∧ P k
     let fails (tile : Option Nat) : Prop := ∀ u, s.alike u → u.recCheck l.world l.tenant ra false true tile = none
     let cached (t : State) (ver : Word) (o : Bool) : Prop :=
       ∃ k ∈ t.recs, k.world = l.world ∧ k.addr = ra ∧ k.version = ver ∧ k.opened = o
     let same (t : State) : Prop := movedOn h c t ∧ t.hostMem = s.hostMem ∧ (∀ b, t.view b = s.view b)
     let q := s.readRec l.world ra
     let plain : Prop := s.windowsClosed l.world ∧ s.seals = []
     Alone h c s ag → s.heldBy ag (·.record) = false → s.quiet l ag → s.keys l.world = none →
     (∀ e ∈ [(ra, 64), (q.febase, (q.tiles + 3) / 4), (q.febase + n / 4, 1)], ∀ j < e.2, s.readOnly l.world (e.1 + j) = false) →
     (Ready (.topen c d a) s h → passes none (fun _ => True) → nextWith (exec (.topen c d a) s) (fun t => same t ∧
       (r.opened = false → t.coming ag (dstWrites d false 1) ∧ cached t (r.version + 1) true ∧
         (plain → (∀ j < 64, ∀ n < (r.tiles + 3) / 4, s.devAddr l.world (ra + j) ≠ s.devAddr l.world (r.febase + n)) →
           ∀ n < 2 * r.tiles, t.tileBit l.world r.febase n = false)) ∧
       (r.opened = true → t.coming ag (dstWrites d false 0) ∧ cached t r.version true))) ∧
     (Ready (.tclose c d a) s h → passes none (fun _ => True) → s.engineWrites l.world ra = false →
       nextWith (exec (.tclose c d a) s) (fun t => same t ∧ cached t r.version false ∧
         t.coming ag (dstWrites d false (if r.opened then 1 else 0)))) ∧
     (∀ f g, Ready (.tfe c op d a tile) s h → passes (some n) (fun k => k.tileBit l.world r.febase (2 * n) = f ∧
         k.tileBit l.world r.febase (2 * n + 1) = g) → nextWith (exec (.tfe c op d a tile) s) (fun t => same t ∧
       t.coming ag (dstWrites d false (BitVec.ofNat 64 (f.toNat + 2 * g.toNat))) ∧ cached t r.version r.opened ∧
       (plain → t.tileBit l.world r.febase (2 * n + 1) = g ∧ t.tileBit l.world r.febase (2 * n) =
         (match op with | .test => f | .fill => true | .empty => false)))) ∧
     (fails none → (Ready (.topen c d a) s h → nextWith (exec (.topen c d a) s) (fun t =>
         t.coming ag (dstWrites d false 0xFFFFFFFF) ∧ OnlyPending h [ag] s t)) ∧
       (Ready (.tclose c d a) s h → nextWith (exec (.tclose c d a) s) (fun t =>
         t.coming ag (dstWrites d false 0xFFFFFFFF) ∧ OnlyPending h [ag] s t))) ∧
     (fails (some n) → Ready (.tfe c op d a tile) s h → nextWith (exec (.tfe c op d a tile) s) (fun t =>
       t.coming ag (dstWrites d false 0xFFFFFFFF) ∧ OnlyPending h [ag] s t)))

/-! What the engines and the return path do of themselves. -/

/-- R83: a result that has come is in its registers, whose pending bits are clear, and is no longer on its way. Memory
is as before. R184 to R186, R315 and R318: the next part of a load, up to the end of a 32-byte sector, that no earlier
access of its agent touches, gives the bytes of the first set of its path that holds them, a thread's wave's, its
team's, and for device and host memory its cluster's, or of home; a thread's local area has no sets. With the last
part, its value, as its type says, or its run of words is in its registers. That it performs in the step of its arrival
is the model's reading (log 44). Of device memory this is stated for a world without keys, tiles and lines that neither
an engine nor the host holds, and a context without a bucket. R193 to R195: an atomic of one lane on near memory at
cluster scope gives the old value and leaves the new one, as its operation says. That it performs in the step of its
arrival is the model's reading (log 44). R194: what each atomic operation makes of an old value: .fadd rounds the exact
sum once to nearest, element by element, and of finite operands .fmin and .fmax give one with the lesser and the
greater number. -/
def Obligations.ResultsArrive : Prop :=
  (∀ (s : State) (id : Nat) (p : Pend) (d : Dst) (w : Bool) (v : DWord),
     tget s.pends id = some p → p.kind = .ready (dstWrites d w v) → s.alive p.agent = true → d.pairOk w = true →
     (match p.agent with | .thread _ _ => ∃ r, d = .x r | .uniform _ => ∃ r, d = .s r) →
     nextWith (exec (.resultArrival id) s) (fun t => tget t.pends id = none ∧ t.holds p.agent (dstWrites d w v) ∧
       (∀ r ∈ Dst.regs w d, t.pendBit p.agent r = false) ∧ t = { s with threads := t.threads, teams := t.teams, pends := t.pends })) ∧
  (∀ (s : State) (id : Nat) (p : Pend) (pl : Place) (a n : Nat) (sp : Space) (got : List Byte) (ty : Ty) (dst : List Reg)
     (xl : Frames),
     let ag := p.agent
     let team := ag.team
     let w := pl.launch.world
     let lo := a + got.length
     let k := min (a + n) ((lo / 32 + 1) * 32) - lo
     let home (x : Nat) : Byte := match sp with
       | .near => pl.cluster.near.read x
       | .col => pl.cluster.col.read x
       | .dev => s.devRead w x
       | .host => ((xl.phys x).map (s.hostMem.read ·)).getD 0
       | .loc => match ag with
         | .thread team tid => if pl.launch.locdev then s.devRead w (pl.locBase tid + x)
             else ((s.thread team tid).map (·.loc.read x)).getD 0
         | .uniform _ => 0
     let wave (x : Nat) : Option Byte := match ag with
       | .thread team tid => wcell (s.wave team (tid / 32)).cells (skey sp x)
       | .uniform _ => none
     let cset (x : Nat) : Option Byte := if sp = .dev ∨ sp = .host then scell pl.cluster.set (skey sp x) else none
     let byte (x : Nat) : Byte := if sp = .loc then home x else
       (((wave x).orElse fun _ => scell pl.team.set (skey sp x)).orElse fun _ => cset x).getD (home x)
     let all := got ++ (List.range k).map (fun i => byte (lo + i))
     tget s.pends id = some p → p.kind = .load sp a n got ty dst xl → s.place team = some pl → s.alive ag = true → got.length < n →
     (sp = .loc → ∃ team tid, ag = .thread team tid) → (sp ≠ .host → xl = []) →
     overlaps (s.before id) ag sp lo k = false → (s.slotOf pl.launch).rate = 0 → s.keys w = none →
     (∀ x, pl.devHome ag sp lo = some x → s.claimedRange w x k = false ∧ s.hostMay w x k = false) →
     nextWith (exec (.resultArrival id) s) (fun t =>
       t = { s with threads := t.threads, teams := t.teams, pends := t.pends, hostLines := t.hostLines } ∧
       (sp ≠ .host → t.hostLines = s.hostLines) ∧
       (lo + k < a + n → t.pends = tset s.pends id { p with kind := .load sp a n all ty dst xl } ∧ ∀ b, t.view b = s.view b) ∧
       (lo + k = a + n → tget t.pends id = none ∧
         (∀ d, dst = Dst.regs ty.wide d → n = ty.bytes → d.pairOk ty.wide = true →
           (match ag with | .thread _ _ => ∃ r, d = .x r | .uniform _ => ∃ r, d = .s r) →
           t.holds ag (dstWrites d ty.wide (ofIntVal ty (natOfBytes all)))) ∧
         (∀ r m, dst = xrun r m → 2 ≤ m → r + m ≤ 64 → n = 4 * m → (∃ team tid, ag = .thread team tid) →
           ∀ i < m, (t.view ag).reg (.x (r + i)) = BitVec.ofNat 32 (natOfBytes ((all.drop (4 * i)).take 4)))))) ∧
  (∀ (s : State) (id : Nat) (p : Pend) (pl : Place) (team tid a : Nat) (op : AtomOp) (ty : Ty) (r : Fin 64) (b c : DWord),
     let ag := Agent.thread team tid
     let n := ty.bytes
     let old : DWord := BitVec.ofNat 64 (natOfBytes ((List.range n).map (fun i => pl.cluster.near.read (a + i))))
     tget s.pends id = some p → p = ⟨ag, .atomic .near a .c op ty [⟨ag, Dst.regs ty.wide (.x r), b, c⟩] [], p.off⟩ →
     s.place team = some pl → s.alive ag = true → (ty.wide = true → r.val % 2 = 0) →
     overlaps (s.before id) ag .near a n = false → op.types ty = true →
     Writer.pend id ∉ (s.world pl.launch.world).mig.waiting →
     nextWith (exec (.resultArrival id) s) (fun t => tget t.pends id = none ∧ t.holds ag (dstWrites (.x r) ty.wide old) ∧
       t = { s with threads := t.threads, pends := t.pends, clusters := t.clusters } ∧
       ∃ k, tget t.clusters pl.team.cluster = some k ∧ k.set = pl.cluster.set ∧ k.col = pl.cluster.col ∧
         (∀ o, o < a ∨ a + n ≤ o → k.near.read o = pl.cluster.near.read o) ∧
         natOfBytes ((List.range n).map (fun i => k.near.read (a + i))) = (atomNew op ty old b c).toNat % 2 ^ (8 * n))) ∧
  (∀ (ty : Ty) (x b c : DWord),
     let X : Int := intVal ty x
     let B : Int := intVal ty b
     atomNew .add ty x b c = ofIntVal ty (X + B) ∧ atomNew .min ty x b c = ofIntVal ty (if B < X then B else X) ∧
     atomNew .max ty x b c = ofIntVal ty (if X < B then B else X) ∧ atomNew .and ty x b c = x &&& b ∧
     atomNew .or ty x b c = x ||| b ∧ atomNew .xor ty x b c = x ^^^ b ∧ atomNew .exch ty x b c = b ∧
     (ty.width = 64 → atomNew .cas ty x b c = if x = c then b else x) ∧
     (ty.width = 32 → atomNew .cas ty x b c = if x.setWidth 32 = c.setWidth 32 then b else x) ∧
     (let sums (f : Fmt) (x b y : Nat) : Prop := let X := f.unpack x; let B := f.unpack b
        (X.finite = true → B.finite = true → X.num + B.num ≠ 0 → f.Rounds .rn (X.num + B.num) y) ∧
        (X.finite = true → B.finite = true → X.num + B.num = 0 → (f.unpack y).num = 0 ∧ (f.unpack y).finite = true) ∧
        (X = .nan ∨ B = .nan → y = f.nanBits)
      (ty = .f32 → sums fp32 (x.toNat % 2 ^ 32) (b.toNat % 2 ^ 32) (atomNew .fadd ty x b c).toNat) ∧
      (ty = .f16x2 ∨ ty = .bf16x2 → ∀ i < 2, sums (fmtOf ty) (x.toNat / 65536 ^ i % 65536) (b.toNat / 65536 ^ i % 65536)
        ((atomNew .fadd ty x b c).toNat / 65536 ^ i % 65536))) ∧
     (ty = .f32 → let X := fp32.unpack (x.toNat % 2 ^ 32); let B := fp32.unpack (b.toNat % 2 ^ 32)
       let y (op : AtomOp) : Nat := (atomNew op ty x b c).toNat
       X.finite = true → B.finite = true → (fp32.unpack (y .fmin)).num = min X.num B.num ∧ (fp32.unpack (y .fmax)).num = max X.num B.num ∧
         y .fmin ∈ [x.toNat % 2 ^ 32, b.toNat % 2 ^ 32] ∧ y .fmax ∈ [x.toNat % 2 ^ 32, b.toNat % 2 ^ 32]) ∧
     (ty = .n32 → x.toNat < 2 ^ 32 → b.toNat < 2 ^ 32 →
       (atomNew .incw ty x b c).toNat = (if b.toNat ≤ x.toNat then 0 else x.toNat + 1) ∧
       (atomNew .decw ty x b c).toNat = (if x.toNat = 0 ∨ b.toNat < x.toNat then b.toNat else x.toNat - 1)))

/-- R169, R202, R218, R219 and R224: a request whose one row, of one 32-byte part, lies in near or column memory and
goes there is delivered: the bytes are at the destination and nowhere else. With a barrier for its target it has left
the unit as complete, and the barrier has its arrival; with a sync word, that word is still to count the bytes. R202
and R224: a sync word that is still to count a request's last bytes counts them, saturating, and completes a phase
whose target they reach; the request has left the unit as complete. No other byte of near memory changes. R218, R224,
R333 and R334: a part that goes to device memory is gathered, and nothing else changes; once a request's last tile is
gathered whole, and no earlier claim holds it, nothing being moved holds it back, R212 and R19 do not refuse it and no
bucket limits it, its bytes are in device memory, and, in a world without keys, no window and no tile in cipher, no
others of HBM change; the request has left the unit as complete. -/
def Obligations.CopyDelivers : Prop :=
  (∀ (s : State) (id : Nat) (r : CopyReq) (pl : Place) (sa da len tid : Nat) (u : Thread) (sp sq : Space),
     let rd (k : Cluster) (sp : Space) (a : Nat) : Byte := if sp = .col then k.col.read a else k.near.read a
     let size : Nat := if sq = .col then 2 ^ 23 else 2 ^ 19
     tget s.copies id = some r → r.rows = [⟨.mem sp, sa, .mem sq, da, len, false⟩] → (sp = .near ∨ sp = .col) →
     (sq = .near ∨ sq = .col) → r.pos = 0 → r.claims = [] → r.marks = [] → r.members = none → r.state = .queued → r.lost = false →
     r.cluster = pl.team.cluster → s.place r.team = some pl → r.flights = [] → r.owed = [] → r.buf = [] → r.ecode = 0 →
     r.cancel = false → pl.cluster.saved = false → s.memberDown r.cluster (da / size) = false → pl.team.ended = false →
     s.coreDown pl.team.home = false → 0 < len → da % 32 + len ≤ 32 →
     nextWith (exec (.copyDelivery id) s) (fun t => t.hbm = s.hbm ∧ t.hostMem = s.hostMem ∧ (∀ a, t.view a = s.view a) ∧
       (∃ k, tget t.clusters r.cluster = some k ∧
         (∀ i < len, rd k sq (da + i) = rd pl.cluster sp (sa + i)) ∧
         ∀ sp' o, sp' = .near ∨ sp' = .col → sp' ≠ sq ∨ o < da ∨ da + len ≤ o → rd k sp' o = rd pl.cluster sp' o) ∧
       (∀ b, r.target = .barrier b → b < 16 → r.tid = some tid → s.thread r.team tid = some u →
         (∀ e ∈ u.copies, u.copySeq ≤ e.seq + 32) → let x := s.bar r.team b
         tget t.copies id = none ∧ (t.thread r.team tid).map (·.copies) = some (u.copies ++ [⟨r.seq, 4, r.moved + len⟩]) ∧
         (t.bar r.team b).err = (x.err || x.exp == 0) ∧
         (t.bar r.team b).gen = (if x.exp ≠ 0 ∧ x.arr + 1 = x.exp then x.gen + 1 else x.gen) ∧
         (t.bar r.team b).arr = (if x.exp = 0 then x.arr else if x.arr + 1 = x.exp then 0 else x.arr + 1)) ∧
       (∀ a, r.target = .sync a → ∃ q, tget t.copies id = some q ∧ q.rows = [] ∧ q.owed = [(a, len)] ∧ q.moved = r.moved + len))) ∧
  (∀ (s : State) (id : Nat) (r : CopyReq) (pl : Place) (a n tid : Nat) (u : Thread),
     let w := s.syncWord pl a
     let c : Nat := min (w.count + n) (2 ^ 32 - 1)
     tget s.copies id = some r → s.place r.team = some pl → r.cluster = pl.team.cluster → pl.cluster.saved = false →
     r.rows = [] → r.claims = [] → r.flights = [] → r.owed = [(a, n)] → r.target = .sync a → r.ecode = 0 → r.cancel = false →
     s.memberDown r.cluster (a / 2 ^ 19) = false → r.tid = some tid → s.thread r.team tid = some u →
     (∀ e ∈ u.copies, u.copySeq ≤ e.seq + 32) →
     nextWith (exec (.copyDelivery id) s) (fun t => tget t.copies id = none ∧
       (t.thread r.team tid).map (·.copies) = some (u.copies ++ [⟨r.seq, 4, r.moved⟩]) ∧
       t.syncWord pl a = (if w.target ≠ 0 ∧ w.target ≤ c then ⟨0, c - w.target, (w.gen + 1) % 2 ^ 32, w.err, w.ecode⟩
         else { w with count := c }) ∧
       (∀ o, o < a ∨ a + 16 ≤ o → t.homeByte pl .near o [] = s.homeByte pl .near o []) ∧
       t.hbm = s.hbm ∧ t.hostMem = s.hostMem ∧ ∀ b, t.view b = s.view b)) ∧
  (∀ (s : State) (id : Nat) (r : CopyReq) (pl : Place) (da : Nat) (b : List Byte) (bar tid : Nat) (u : Thread),
     let w := r.world
     let tile := da / 512
     let bytes : List (Nat × Byte) := b.zipIdx.map (fun e => (da + e.2, e.1))
     tget s.copies id = some r → s.place r.team = some pl → r.cluster = pl.team.cluster → pl.cluster.saved = false →
     r.claims = [tile] → b ≠ [] → da % 512 + b.length ≤ 512 → r.members = none → r.marks = [] → r.flights = [] → r.owed = [] →
     r.ecode = 0 → r.cancel = false → r.lost = false →
     (∀ sa, r.rows = [⟨.mem .near, sa, .mem .dev, da, b.length, false⟩] → r.pos = 0 → r.buf = [] → r.staging = [] →
       da % 32 + b.length ≤ 32 → r.state = .queued → (∀ i (hi : i < b.length), pl.cluster.near.read (sa + i) = b[i]) →
       nextWith (exec (.copyDelivery id) s) (fun t => t = { s with copies := t.copies } ∧
         ∃ q, tget t.copies id = some q ∧ q.rows = [] ∧ q.staging = bytes ∧ q.claims = [tile] ∧ q.moved = r.moved)) ∧
     (r.rows = [] → r.staging = bytes → r.target = .barrier bar → bar < 16 → r.tid = some tid → s.thread r.team tid = some u →
       (∀ e ∈ u.copies, u.copySeq ≤ e.seq + 32) → pl.team.ended = false → s.coreDown pl.team.home = false →
       s.claimedBy w tile id true = false → s.mayWrite w (.copy id tile) (tile * 512) 512 r.record = true →
       s.copyRefused w (tile * 512) = false → (∀ i < b.length, s.readOnly w (da + i) = false) → s.readOnly w (tile * 512) = false →
       (s.slotOf pl.launch).rate = 0 → nextWith (exec (.copyDelivery id) s) (fun t => tget t.copies id = none ∧
         (t.thread r.team tid).map (·.copies) = some (u.copies ++ [⟨r.seq, 4, r.moved + b.length⟩]) ∧
         (t.bar r.team bar).arr = (let x := s.bar r.team bar; if x.exp = 0 then x.arr else if x.arr + 1 = x.exp then 0 else x.arr + 1) ∧
         t.hostMem = s.hostMem ∧ (∀ a, t.view a = s.view a) ∧
         (s.windowsClosed w → s.unsealed w → (s.devAddr w da).isSome = true →
           (∀ i (hi : i < b.length), t.devByte w (da + i) = b[i]) ∧
           ∀ x, (∀ i < b.length, s.devAddr w (da + i) ≠ some x) → t.hbm.read x = s.hbm.read x))))

/-- R232 and R355: an operation that may start, of a team that has passed the surge arbiter, starts; an arbiter that
has teams of running contexts to choose from lets the first that asked pass, or of those the one on the lowest core. No
register and no memory changes. What an operation will leave in its banks is, element by element, what R59 and R60 make
of the bank, the panel and the weight slot as they are when it starts. R59 and R60: an element takes its terms one by
one in ascending K. The term of a block of 64 in an integer mode is the exact sum of products, times both scales; that
of one k in a BF16 mode is the exact product, where finite. ACCADD rounds the exact sum once to nearest, leaves an
element as it is where an exact zero is added, and gives the NaN or infinity of its table. R234 and R237: when its turn
at its banks has come, AZERO leaves them zero, AWR writes its element, ARD's value is on its way, and none touches
another bank. A drain that is not refused leaves the banks as they are; its tile, its residue registers and its counts
come from the elements line by line: each value is the element times the factor plus the line's residue, rounded once,
with its format's code and residue. R60 and R232: an operation that is done has left the queue, and each of its banks
holds what it computed. R212, R237, R325, R326, R333 and R357: a drain whose tile no earlier claim holds, that nothing
being moved holds back, that R212 does not refuse and no bucket limits, is done: no bank and no register has changed.
Where device memory lies as it is written and shows in no window, and the bytes lie apart, they are there, and F and W
of its tile are 1. R58: a finite magnitude's covering code is the least scale code whose limit is not below it. R55 and
R236: a quantised element lies within the limit of its format; it is the quotient by the scale rounded to nearest,
where that lies within the limit, and the limit, with the sign, where it does not. A NaN and a scale of 0 give 0. -/
def Obligations.MatrixOperationsRun : Prop :=
  (∀ (s : State) (id q : Nat) (o : BankOp) (m : MOp) (pl : Place) (res : MatrixRes),
     (tget s.bankOps id = some o → o.kind = .mma m → s.place o.team = some pl → pl.team.mres = some res →
       s.mmaReady id o = true → pl.team.surge = true → nextWith (exec (.matrixStart id) s) (fun t =>
         (∀ a, t.view a = s.view a) ∧ t.hbm = s.hbm ∧ t.clusters = s.clusters ∧ t.wbufs = s.wbufs ∧
         ∃ o', tget t.bankOps id = some o' ∧ o'.started = true ∧ o'.kind = o.kind ∧ o'.banks = o.banks ∧
           o'.result.length = o.banks.length ∧
           let panel (i : Nat) : Nat := (s.clusterByte pl.team.cluster m.space (m.panel + i)).toNat
           let slot (i : Nat) : Nat := ((s.wbuf o.core).read (res.wbuf + m.slot * 512 + i)).toNat
           ∀ j (hj : j < o.banks.length), ∀ e < 1024, (s.bank o.core o.banks[j]).length = 1024 →
             (o'.result[j]?).bind (·[e]?) = some (BitVec.ofNat 32 (mmaElem m.mode panel slot m.k
               (32 * (if m.acc.quad then j / 2 else if m.mh then 1 else 0) + e / 32)
               (32 * (if m.acc.quad then j % 2 else if m.nh then 1 else 0) + e % 32)
               (((s.bank o.core o.banks[j])[e]?).getD 0).toNat)))) ∧
     (let asks (team at_ home : Nat) : Prop := ∃ e ∈ s.bankOps, ∃ u, e.2.team = team ∧ s.place team = some u ∧
       u.team.surge = false ∧ ((s.slotOf u.launch).state = 1 ∨ (s.slotOf u.launch).state = 3) ∧ s.mmaReady e.1 e.2 = true ∧
       u.team.surgeAsk = some at_ ∧ u.team.home = home ∧ home / 128 * 4 + home % 128 / 64 * 2 + home % 16 / 8 = q
     nextWith (exec (.surgeGrant q) s) (fun t =>
       ((∀ k n c, ¬ asks k n c) → t = s) ∧
       ((∃ k n c, asks k n c) → (∀ k n c, asks k n c → c < 512) → ∃ k n c, asks k n c ∧
         (∀ k' n' c', asks k' n' c' → n < n' ∨ (n = n' ∧ c ≤ c')) ∧ (tget t.teams k).map (·.surge) = some true ∧
         t = { s with teams := t.teams } ∧ ∀ j, j ≠ k → tget t.teams j = tget s.teams j)))) ∧
  (∀ (panel slot : Nat → Nat) (kk m n c : Nat),
     let scale (e : Nat × Int) : ℚ := (e.1 : ℚ) * 2 ^ e.2
     (∀ mode, mode = .ds8 ∨ mode = .ds4 → ∃ f : Nat → FVal, (∀ b, (f b).finite = true ∧
         (f b).num = ((List.range 64).map (fun k => (sByte (panel (b * 4160 + m * 64 + k)) : ℚ) * weight mode slot (b * 64 + k) n)).sum *
           scale (sc8 (panel (b * 4160 + 4096 + m))) *
           scale (sc8 (slot ((if mode = .ds4 then kk * 32 else kk * 64) + b * 64 + n))) / 2 ^ 7) ∧
       mmaElem mode panel slot kk m n c = (List.range (kk / 64)).foldl (fun c b => accAdd c (f b)) c) ∧
     (let av (k : Nat) : FVal :=
        let a := k / 64 * 8192 + m * 128 + k % 64 * 2
        bfp16.unpack (panel a + 256 * panel (a + 1))
      ∀ mode, mode = .bfds8 ∨ mode = .bfbf → ∃ f : Nat → FVal, (∀ k, (av k).finite = true →
         (mode = .bfds8 → (f k).finite = true ∧ (f k).num =
           (av k).num * (weight .bfds8 slot k n * scale (sc8 (slot (kk * 64 + k / 64 * 64 + n)))) / 2 ^ 7) ∧
         (mode = .bfbf → let w := bfp16.unpack (slot (2 * (k * 64 + n)) + 256 * slot (2 * (k * 64 + n) + 1))
           w.finite = true → (f k).finite = true ∧ (f k).num = (av k).num * w.num)) ∧
       mmaElem mode panel slot kk m n c = (List.range kk).foldl (fun c k => accAdd c (f k)) c) ∧
     (∀ t : FVal, let C := fp32.unpack c
       (t = .nan ∨ fp32.isNan c = true → accAdd c t = fp32.nanBits) ∧
       (fp32.isNan c = false → t.finite = true → t.num = 0 → accAdd c t = c) ∧
       (C.finite = true → t.finite = true → t.num ≠ 0 → (C.num + t.num ≠ 0 → fp32.Rounds .rn (C.num + t.num) (accAdd c t)) ∧
         (C.num + t.num = 0 → accAdd c t = 0)) ∧
       (∀ x, C = .inf x → t = .inf (!x) → accAdd c t = fp32.nanBits) ∧
       (∀ x, C = .inf x → (t.finite = true ∧ t.num ≠ 0) ∨ t = .inf x → accAdd c t = fp32.signBit x + fp32.infBits) ∧
       (∀ x, C.finite = true → t = .inf x → accAdd c t = fp32.signBit x + fp32.infBits))) ∧
  (∀ (s : State) (id : Nat) (o : BankOp) (pl : Place),
     let t := s.quickBank id o
     tget s.bankOps id = some o → s.bankTurn id o.core o.banks = true → s.place o.team = some pl →
     (o.kind = .azero → t = { s with bankOps := tdel s.bankOps id, accs := t.accs } ∧
       (∀ b ∈ o.banks, t.bank o.core b = List.replicate 1024 0) ∧
       ∀ k, (∀ b ∈ o.banks, k ≠ o.core * 8 + b) → tget t.accs k = tget s.accs k) ∧
     (∀ b e v, o.kind = .awr e v → o.banks = [b] → t = { s with bankOps := tdel s.bankOps id, accs := t.accs } ∧
       t.bank o.core b = (s.bank o.core b).set e v ∧ ∀ k, k ≠ o.core * 8 + b → tget t.accs k = tget s.accs k) ∧
     (∀ b tid dst e, o.kind = .ard (some tid) dst e → o.banks = [b] → tget t.bankOps id = none ∧ t.accs = s.accs ∧
       t.coming (.thread o.team tid) (dst.map (fun r => (r, ((s.bank o.core b)[e]?).getD 0)))) ∧
     (∀ d, o.kind = .qst d → s.resTurn id o d pl = true → s.drainUnsure pl.launch.world id d = false →
       s.drainRefused pl.launch.world d = false →
       let banks := o.banks.map (s.bank o.core ·)
       let D : Nat := if o.banks.length = 1 then 32 else 64
       let codes := drainCodes d.fmt d.blk d.code.toNat d.baxis banks d.post.toNat
       tget t.bankOps id = none ∧ t.accs = s.accs ∧ t.hbm = s.hbm ∧
       ∃ (v q e : Nat → Nat → Nat) (k : TileWrite), t.drains = s.drains ++ [(id, k)] ∧ k.drain = d ∧ k.team = o.team ∧
         (∀ r < D, e r 0 = (if d.rin then ((pl.team.res[r]?).getD 0).toNat else 0) ∧ ∀ j < D,
           let (m, n) := if d.axisM then (j, r) else (r, j)
           v r j = fsum fp32 .rn [(fp32.unpack (accElem banks m n)).mul (fp32.unpack d.post.toNat), fp32.unpack (e r j)] ∧
           (q r j, e r (j + 1)) = drainElem d.fmt ((codes[if d.baxis then n else m]?).getD 0) (v r j)) ∧
         (∃ l, k.runs = (d.base + d.tile * l.length, l) :: k.runs.tail ∧
           l = tileBytesOf d.fmt d.baxis D (fun m n => if d.axisM then q n m else q m n)) ∧
         (d.fmt = .bx8 ∨ d.fmt = .bx4 → let n := d.cols / 64
           (d.baxis = true → (d.spbase + d.tile / n * d.cols + d.tile % n * 64, codes.map (BitVec.ofNat 8)) ∈ k.runs) ∧
           (d.baxis = false → ∀ m < 64, (d.spbase + (d.tile / n * 64 + m) * n + d.tile % n, [BitVec.ofNat 8 (codes.getD m 0)]) ∈ k.runs)) ∧
         (∀ r < 64, ((tget t.teams o.team).bind (·.res[r]?)) =
           some (if d.rout ∧ r < D then BitVec.ofNat 32 (e r D) else (pl.team.res[r]?).getD 0)) ∧
         ∀ x, d.hslot ≠ 0 → pl.team.hist[d.hslot - 1]? = some x → ((tget t.teams o.team).bind (·.hist[d.hslot - 1]?)) =
           some (((List.range D).flatMap (fun r => (List.range D).map (v r))).foldl HistSlot.add x))) ∧
  (∀ (s : State) (id : Nat) (o : BankOp), tget s.bankOps id = some o → o.started = true → o.banks.Nodup →
     o.result.length = o.banks.length → (∀ b ∈ o.banks, b < 8) →
     nextWith (exec (.matrixDone id) s) (fun t => tget t.bankOps id = none ∧
       t = { s with bankOps := t.bankOps, accs := t.accs } ∧
       (∀ i (hi : i < o.banks.length), tget t.accs (o.core * 8 + o.banks[i]) = o.result[i]?) ∧
       ∀ k, (∀ b ∈ o.banks, k ≠ o.core * 8 + b) → tget t.accs k = tget s.accs k)) ∧
  (∀ (s : State) (id : Nat) (d : TileWrite) (pl : Place),
     let w := pl.launch.world
     let bit (t : State) (k : Nat) : Bool := t.tileBit w d.drain.febase (2 * d.drain.tile + k)
     tget s.drains id = some d → s.place d.team = some pl → (∀ n ∈ d.drain.claims, s.claimedBy w n id true = false) →
     (∀ e ∈ d.ranges, s.mayWrite w (.drain id) e.1 e.2 d.drain.record = true) → s.drainRefused w d.drain = false →
     (s.slotOf pl.launch).rate = 0 →
     nextWith (exec (.drainComplete id) s) (fun t => tget t.drains id = none ∧ t.hostMem = s.hostMem ∧ t.accs = s.accs ∧
       (∀ a, t.view a = s.view a) ∧
       (s.windowsClosed w → s.unsealed w → (s.devAddr w (d.drain.febase + d.drain.tile / 4)).isSome = true →
         bit t 0 = true ∧ bit t 1 = true ∧
         let places := d.runs.flatMap (fun e => (List.range e.2.length).map (fun i => s.devAddr w (e.1 + i)))
         (places ++ [s.devAddr w (d.drain.febase + d.drain.tile / 4)]).Nodup → (∀ x ∈ places, x.isSome = true) →
         (∀ e ∈ d.runs, ∀ i < e.2.length, s.readOnly w (e.1 + i) = false) →
         ∀ e ∈ d.runs, ∀ i (hi : i < e.2.length), t.devByte w (e.1 + i) = e.2[i]))) ∧
  (∀ (l m : Nat) (e : Int), 0 < m →
     let covers (c : Nat) : Prop := dyLe m e (l * (sc8 c).1) (sc8 c).2 = true
     let c := coverCode l (.fin false m e)
     (∀ k, 0 < k → k < c → ¬ covers k) ∧ (0 < c ∧ c ≤ 255) ∧ (covers c ∨ c = 255)) ∧
  (∀ (l code v : Nat),
     let q := (quantise l code v).1
     let σ : ℚ := ((sc8 code).1 : ℚ) * 2 ^ (sc8 code).2
     let x := fp32.unpack v
     q.natAbs ≤ l ∧
     (x = .nan ∨ (sc8 code).1 = 0 → quantise l code v = (0, 0)) ∧
     (x.finite = true → (sc8 code).1 ≠ 0 → ∃ n, RoundsToInt .rn (x.num / σ) n ∧ q = max (-(l : Int)) (min l n)))

/-! System words. -/

/-- R244 to R247: TRAP in a thread stops it, counts it among its launch's stopped threads with an error of class 1, and
writes a record of code 1 to the next free slot of its world's fault ring, with the word's offset and n and A. In a
uniform block it stops the team. R246 and R248: BKPT writes a record of code 2 to a free slot of the fault ring, or,
where records can be written and the ring has none, counts a dropped one, and its thread goes on: no register, thread
or set changes. -/
def Obligations.TrapsAndBreakpoints : Prop :=
  (∀ (c : Ctl) (n : BitVec 7) (a : Src) (s : State) (h : Here),
     let i := Instr.trap c n a
     let w := h.place.launch.world
     let x := s.world w
     let slot := s.trapSlot w
     let aux (ag : Agent) : Nat := n.toNat + 2 ^ 32 * ((s.view ag).src32 a).toNat
     let record (ag : Agent) (kind : Nat) (t : State) : Prop :=
       s.ringFree w → h.place.team.locks = [] → t.devNat w slot 1 = 1 ∧ t.devNat w (slot + 1) 1 = kind ∧
         t.devNat w (slot + 8) 4 = h.group.off % 2 ^ 32 ∧ t.devNat w (slot + 32) 8 = aux ag ∧
         (t.world w).frindex = x.frindex + 1 ∧ (t.world w).frdrop = 0
     Ready i s h →
     (∀ team tid, Alone h c s (.thread team tid) → nextWith (exec i s) (fun t => t.thread team tid = none ∧
       (tget t.launches h.place.team.launch).map (fun l => (l.stops, l.eclass)) =
         some (h.place.launch.stops + 1,
           if h.place.launch.eclass = 0 ∨ (h.place.launch.etime = s.now ∧ 1 < h.place.launch.eclass) then 1
           else h.place.launch.eclass) ∧
       record (.thread team tid) 0 t)) ∧
     (∀ team, Alone h c s (.uniform team) → nextWith (exec i s) (fun t => t.liveTids team = [] ∧
       (tget t.teams team).map (·.stopped) = some true ∧ record (.uniform team) 1 t))) ∧
  (∀ (c : Ctl) (n : BitVec 7) (s : State) (h : Here) (ag : Agent),
     let w := h.place.launch.world
     let x := s.world w
     let slot := s.trapSlot w
     Ready (.bkpt c n) s h → Alone h c s ag → nextWith (exec (.bkpt c n) s) (fun t => movedOn h c t ∧
       t.threads = s.threads ∧ t.teams = s.teams ∧ t.waves = s.waves ∧ t.clusters = s.clusters ∧ t.hostMem = s.hostMem ∧
       (s.recordsFree w → x.frslots = 0 ∨ s.devNat w slot 8 ≠ 0 → t.hbm = s.hbm ∧ (t.world w).frdrop = min (x.frdrop + 1) 0xFFFF) ∧
       (s.ringFree w → t.devNat w slot 1 = 2 ∧ t.devNat w (slot + 8) 4 = h.group.off % 2 ^ 32 ∧
         t.devNat w (slot + 32) 8 = n.toNat ∧ (t.world w).frindex = x.frindex + 1)))

/-- R249 to R251: SRD gives the special register it names, and SWR sets TCONF or CCONF. Nothing else changes. R252,
R257, R401 and R419: TIME gives world time, which is not below any value given before and becomes the least the next
read may give; where its guard is true in no lane it reads no time. PERF gives a counter of its context on its core.
The model counts 1 to 3, 7 and 10 to 15 itself; counters 5 and 6 may have gained up to the cycles that the operations
since the last read take, and the others any number (log 13). -/
def Obligations.SpecialRegistersAndTime : Prop :=
  (∀ (c : Ctl) (r : SReg) (d : Dst) (a : Src) (s : State) (h : Here),
     let team := h.pass.team
     let l := h.place.launch
     let value (ag : Agent) : DWord := match r with
       | .tconf => h.place.team.tconf.setWidth 64
       | .cconf => h.place.cluster.cconf.setWidth 64
       | .wdcnt => match ag with | .thread q i => ((s.thread q i).map (fun t => t.wdcnt.setWidth 64)).getD 0 | .uniform _ => 0
       | .wdlim => BitVec.ofNat 64 l.wdog
       | .accOwner => (tget s.accOwner h.pass.core).getD 0
       | .ctxid => BitVec.ofNat 64 (l.world * 2 ^ 16 + l.slot * 2 ^ 8 + l.tenant)
       | .ctemp => ((tget s.ctemp h.pass.core).getD 0).setWidth 64
       | .throt => ((tget s.throt h.pass.core).getD 0).setWidth 64
       | .tmode => if (s.world l.world).hidden then 1 else 0
     let v : Word := (s.view (.uniform team)).src32 a
     (Ready (.srd c r d) s h → (r = .wdcnt → h.pass.uniform = false) → nextWith (exec (.srd c r d) s) (fun t =>
       movedOn h c t ∧ OnlyPending h h.agents s t ∧
       ∀ ag ∈ h.taking c s, s.alive ag = true → t.coming ag (dstWrites d r.wide (value ag)))) ∧
     (Ready (.swr c .tconf a) s h → nextWith (exec (.swr c .tconf a) s) (fun t => movedOn h c t ∧
       t = { s with teams := t.teams, passes := t.passes, perf := t.perf } ∧
       tget t.teams team = some { h.place.team with tconf := v } ∧ ∀ k, k ≠ team → tget t.teams k = tget s.teams k)) ∧
     (Ready (.swr c .cconf a) s h → nextWith (exec (.swr c .cconf a) s) (fun t => movedOn h c t ∧
       t = { s with clusters := t.clusters, passes := t.passes, perf := t.perf } ∧
       tget t.clusters h.place.team.cluster = some { h.place.cluster with cconf := v } ∧
       ∀ k, k ≠ h.place.team.cluster → tget t.clusters k = tget s.clusters k))) ∧
  (∀ (c : Ctl) (ctr : Fin 16) (d : Dst) (s : State) (h : Here),
     let w := h.place.launch.world
     let x := s.world w
     let now : Nat := max (x.toff + BitVec.ofNat 64 s.now).toNat x.tlast.toNat
     (∀ ag ∈ h.taking c s, s.heldAny ag = false) →
     (Ready (.time c d) s h → nextWith (exec (.time c d) s) (fun t => movedOn h c t ∧ t.hbm = s.hbm ∧ t.hostMem = s.hostMem ∧
       (∀ b, t.view b = s.view b) ∧ (h.taking c s ≠ [] → (t.world w).tlast = BitVec.ofNat 64 now) ∧
       (h.taking c s = [] → t.worlds = s.worlds) ∧ (∀ k, k ≠ w → t.world k = s.world k) ∧
       ∀ ag ∈ h.taking c s, s.alive ag = true → t.coming ag (dstWrites d true (BitVec.ofNat 64 now)))) ∧
     (Ready (.perf c ctr d) s h → nextWith (exec (.perf c ctr d) s) (fun t => movedOn h c t ∧ t.hbm = s.hbm ∧
       t.hostMem = s.hostMem ∧ (∀ b, t.view b = s.view b) ∧
       let k : Nat := ((h.place.launch.part * 16 + h.place.launch.slot) * 512 + h.pass.core) * 16 + ctr.val
       let old : Nat := (tget s.perf k).getD 0
       ∃ n, (∀ ag ∈ h.taking c s, s.alive ag = true →
         t.coming ag (dstWrites d true (BitVec.ofNat 64 n))) ∧
       (ctr.val ∉ [0, 4, 5, 6, 8, 9] → n = old) ∧ (ctr = 5 ∨ ctr = 6 → n = old ∨
         ∃ g ≤ (tget s.cycles k).getD 0, n = (old + g) % 2 ^ 64))))

/-- R254 and R388: PUBLISH of an open window writes the next cairn value to host memory and gives it, and every tile of the
window is read directly again; of a closed one it gives 0 and does nothing. -/
def Obligations.PublishAdvances : Prop :=
  ∀ (c : Ctl) (i : Fin 16) (d : Dst) (s : State) (h : Here),
    let w := h.place.launch.world
    let ag := Agent.uniform h.pass.team
    let x := (s.world w).windows[i]
    Ready (.publish c i d) s h → Alone h c s ag → s.heldAny ag = false → s.outstanding ag = [] →
    (x.opened = true → nextWith (exec (.publish c i d) s) (fun t => movedOn h c t ∧ t.hbm = s.hbm ∧
      t.coming ag (dstWrites d true (x.cval + 1)) ∧ (t.world w).windows[i].cval = x.cval + 1 ∧
      (∀ j, j ∈ (t.world w).hist ↔ j ∈ (s.world w).hist ∧ j.1 ≠ i.val) ∧
      natOfBytes (t.hostMem.readN x.cairn.toNat 8) = (x.cval + 1).toNat ∧
      ∀ a, a < x.cairn.toNat ∨ x.cairn.toNat + 8 ≤ a → t.hostMem.read a = s.hostMem.read a)) ∧
    (x.opened = false → nextWith (exec (.publish c i d) s) (fun t => movedOn h c t ∧ t.coming ag (dstWrites d true 0) ∧
      OnlyPending h [ag] s t))

/-- R36, R40 to R42 and R255: LAUNCH of a packet at no multiple of 64 gives 2, whether the queue is full or not (log
40), and of one for which the world's queue is full gives 1, and nothing else happens; any other is captured, once the
log has room and its bytes can be read, and gives 0: with its fields as the packet has them, and the issuer's tenant, a
launch in good form that passes its checks, or whose image is under admission, is in the world's queue. R256 and R405:
SVC of a number that is no service of the tenant, or of more than 4096 bytes, gives 1; of a service whose ring has no
free record, 2; any other writes its call record and waits for the reply, which its registers await. -/
def Obligations.LaunchAndServiceWords : Prop :=
  (∀ (c : Ctl) (d : Dst) (a : Src) (s : State) (h : Here),
     let ag := Agent.uniform h.pass.team
     let w := h.place.launch.world
     let p : Nat := (s.view ag).addr true a (.small 64)
     Ready (.launch c d a) s h → Alone h c s ag → s.heldAny ag = false → s.outstanding ag = [] →
     (p % 64 ≠ 0 → nextWith (exec (.launch c d a) s) (fun t => movedOn h c t ∧ t.coming ag (dstWrites d false 2) ∧
       OnlyPending h [ag] s t)) ∧
     (p % 64 = 0 → 64 ≤ s.queued w → nextWith (exec (.launch c d a) s) (fun t => movedOn h c t ∧
       t.coming ag (dstWrites d false 1) ∧ OnlyPending h [ag] s t)) ∧
     (p % 64 = 0 → s.queued w < 64 → s.devFree h.place.launch [⟨ag, p, 64, true, false⟩] → (s.world w).log = false →
       nextWith (exec (.launch c d a) s) (fun t => movedOn h c t ∧ t.coming ag (dstWrites d false 0) ∧ t.hostMem = s.hostMem ∧
         (∀ b, t.view b = s.view b) ∧
         let b := s.devReads w p 64
         let r := readPacket w b h.place.launch.tenant [] false s.now
         let part := (s.world w).part
         ∀ i, s.keys w = none → bitOf (natAt b 0 8) 18 = false → r.2 = true → r.1.compl % 32 = 0 →
           s.devRange w r.1.compl 32 = true → (∀ e ∈ s.launches, e.1 < s.nextId) → s.imageNamed r.1 = some i →
           (i.state = .submitted ∨ ((s.world w).migen = false ∧ s.checkImage { r.1 with part := part } i = none)) →
           t.launches = s.launches ++ [(s.nextId, { r.1 with
             part := part, state := .held, checked := decide (i.state ≠ .submitted) })])) ∧
     (∀ (b : List Byte) (k n : Nat), b.length = 64 → let r := (readPacket w b k [] false n).1
       r.world = w ∧ r.tenant = k ∧ r.image.toNat = natAt b 4 4 ∧ r.compl = natAt b 32 8 ∧ r.entry = natAt b 8 2 ∧
       r.threads = natAt b 10 2 ∧ r.gx = natAt b 16 2 ∧ r.gy = natAt b 18 2 ∧ r.gz = natAt b 20 2 ∧ r.cw = natAt b 22 1 ∧
       r.ch = natAt b 23 1 ∧ r.tpc = natAt b 24 2 ∧ r.bin = natAt b 26 1 ∧ r.wdog = natAt b 28 4)) ∧
  (∀ (c : Ctl) (n : BitVec 7) (d : Dst) (a b : Src) (s : State) (h : Here),
     let ag := Agent.uniform h.pass.team
     let l := h.place.launch
     let i := Instr.svc c n d a b
     let len : Nat := ((s.view ag).src32 b).toNat
     Ready i s h → Alone h c s ag → s.heldAny ag = false → s.outstanding ag = [] →
     let gives (v : DWord) : Prop := nextWith (exec i s) (fun t => movedOn h c t ∧ t.coming ag (dstWrites d true v) ∧
       OnlyPending h [ag] s t)
     (s.service l.world l.tenant n.toNat = none → gives 1) ∧
     (∀ ring slots, s.service l.world l.tenant n.toNat = some (ring, slots) →
       let seq := (tget s.svcSeq ring).getD 0
       let at_ : Nat := ring + 32 * (seq % slots)
       (4096 < len → gives 1) ∧
       (len ≤ 4096 → slots = 0 ∨ s.hbmNat at_ 8 ≠ 0 → gives 2) ∧
       (len ≤ 4096 → slots ≠ 0 → s.hbmNat at_ 8 = 0 → (∀ k, s.windowsClosed k) → s.seals = [] → at_ + 32 ≤ hbmSize →
         nextWith (exec i s) (fun t => movedOn h c t ∧
         t.hostMem = s.hostMem ∧ (∀ b, t.view b = s.view b) ∧ tget t.svcSeq ring = some (seq + 1) ∧
         t.hbmNat at_ 1 = 1 ∧ t.hbmNat (at_ + 1) 1 = n.toNat ∧ t.hbmNat (at_ + 8) 8 = (s.view ag).addr true a (.small 64) ∧
         t.hbmNat (at_ + 16) 4 = len ∧ t.hbmNat (at_ + 20) 4 = seq % 2 ^ 32 ∧
         (∀ o, o < at_ ∨ at_ + 32 ≤ o → t.hbm.read o = s.hbm.read o) ∧
         ∃ k, t.calls = s.calls ++ [(k, ⟨h.pass.team, l.world, at_, (dstWrites d true 0).map (·.1)⟩)]))))

/-! Worlds, partitions, context slots and registers. -/

/-- R371, R401, R407, R416, R417, R419 and R420: LOGTAIL, TOFF, TLAST, MIGEN, HALTED, PART and VALID, and PAUSE are set as
their entries say, and nothing else changes: TOFF so that world time passes TLAST, TLAST in a pause and upwards, MIGEN
while the world holds no sealed image that is not replay-safe, PART while VALID is 0. A pause asks the world's active
contexts to halt, and its end lets no context go on that it did not stop. That VALID, and not PART alone, advances GEN is the
model's reading (log 52). -/
def Obligations.WorldWrites : Prop :=
  ∀ (w : Nat) (v : DWord) (n : Word) (b : Bool) (s : State),
    let x := s.world w
    let sets (i : Instr) (y : World) : Prop := nextWith (exec i s) (fun t => t.world w = y ∧ OnlyWorld w s t)
    let unsafe_ : Prop := ∃ e ∈ s.images, e.2.world = w ∧ e.2.replayOk = false ∧ (e.2.state = .sealed ∨ e.2.state = .revoking)
    sets (.logtailWrite w n) { x with logtail := n } ∧
    sets (.prstatHaltedClear w) { x with prHalted := false } ∧
    sets (.toffWrite w v) { x with
      toff := if (x.tlast.toNat : Int) < v.toInt + s.now then v else BitVec.ofInt 64 (x.tlast.toNat + 1 - s.now) } ∧
    (x.pause = true → x.tlast.toNat ≤ v.toNat → sets (.tlastWrite w v) { x with tlast := v }) ∧
    (x.pause = false ∨ v.toNat < x.tlast.toNat → exec (.tlastWrite w v) s = .next s) ∧
    (b = false ∨ ¬ unsafe_ → sets (.migenWrite w b) { x with migen := b }) ∧
    (b = true → unsafe_ → exec (.migenWrite w b) s = .next s) ∧
    (v.getLsbD 10 = x.valid → sets (.worldPartWrite w v) { x with part := if x.valid then x.part else v.toNat % 64 }) ∧
    (let p := if x.valid then x.part else v.toNat % 64
     v.getLsbD 10 ≠ x.valid → (∀ e ∈ s.worlds, ¬ (e.2.part = p ∧ e.2.valid = true ∧ e.2.state = 3)) →
      nextWith (exec (.worldPartWrite w v) s) (fun t => t.world w = { x with part := p, valid := v.getLsbD 10 } ∧
        (t.part p).gen = (s.part p).gen + 1 ∧ t = { s with worlds := t.worlds, parts := t.parts })) ∧
    (b = x.pause → exec (.worldPause w b) s = .next s) ∧
    (x.pause = false → nextWith (exec (.worldPause w true) s) (fun t =>
      t = { s with worlds := t.worlds, slots := t.slots } ∧ t.world w = { x with pause := true, pausedAt := s.now } ∧
      ∀ p i, i < 16 → (s.slot p i).bound = true → (s.slot p i).world = w → (s.slot p i).state = 1 →
        (t.slot p i).flying = true ∧ (t.slot p i).paused = true)) ∧
    (x.pause = true → nextWith (exec (.worldPause w false) s) (fun t => (t.world w).pause = false ∧
      ((∀ e ∈ s.slots, e.2.paused = false) → t = { s with worlds := t.worlds })))

/-- R349, R350, R357, R358 and R407: a partition's block and a context's way mask are written, a limited write sets
LERR alone, a way sweep ends, a bucket gains RATE hundredths of a token up to its depth, and borrowing starts anew.
That a limited write leaves its whole doubleword (log 25), that the pool gains token by token (log 48) and that an
OCTETS write ends the marks of the octets it gives away (log 24) are the model's readings. R356: where one partition is
short of its target and waits, and one is long, and both may change, the long one marks for the short one the octet
with the fewest of its clusters, which moves at a later completion of a team. A target of 0 is read as the number 0
(log 24). -/
def Obligations.PartitionsAndBuckets : Prop :=
  (∀ (p i : Nat) (v : DWord) (s : State),
     let b := s.part p
     let n := v.toNat
     let c := s.slot p i
     let block (off : Nat) (y : Part) : Prop := s.limited p off v = false →
       nextWith (exec (.partitionWrite p off v) s) (fun t => t.part p = y ∧ OnlyPart p s t)
     let ways (m : BitVec 16) : BitVec 16 := if m &&& b.pways = 0 then b.pways else m &&& b.pways
     (p < 64 →
       block 0 { b with haltlim := n / 2 ^ 40 % 256, tplace := n / 2 ^ 32 % 256, minoct := n / 2 ^ 24 % 256,
                        target := n / 2 ^ 16 % 256, pways := v.setWidth 16
                        gen := if (v.setWidth 16 : BitVec 16) = b.pways then b.gen else b.gen + 1 } ∧
       block 8 { b with poold := n / 2 ^ 32, blim := n % 2 ^ 32 } ∧
       block 0x10 { b with octets := v, marks := b.marks.filter (fun m => v.getLsbD m.1), gen := if v = b.octets then b.gen else b.gen + 1 } ∧
       block 0x18 { b with hbmsh := n / 2 ^ 16 % 256, stss := n % 8,
                           gen := if n / 2 ^ 16 % 256 = b.hbmsh then b.gen else b.gen + 1 } ∧
       (∀ off, off ∉ [0, 8, 0x10, 0x18] → exec (.partitionWrite p off v) s = .next s) ∧
       ∀ off ∈ [0, 8, 0x10, 0x18], s.limited p off v = true →
         nextWith (exec (.partitionWrite p off v) s) (fun t => t.part p = { b with lerr := true } ∧ OnlyPart p s t)) ∧
     (c.sweep = 0 → nextWith (exec (.waymaskWrite p i v) s) (fun t => OnlySlot p i s t ∧ t.slot p i =
       { c with tsg := n / 2 ^ 16 % 16, waymask := v.setWidth 16 &&& b.pways, queued := none
                sweep := if c.bound then ways c.waymask &&& ~~~(ways (v.setWidth 16 &&& b.pways)) else 0 })) ∧
     (c.sweep ≠ 0 → nextWith (exec (.waymaskWrite p i v) s) (fun t => OnlySlot p i s t ∧
       t.slot p i = { c with tsg := n / 2 ^ 16 % 16, queued := some (v.setWidth 16) })) ∧
     (c.sweep ≠ 0 → c.queued = none → nextWith (exec (.sweepComplete p i) s) (fun t => OnlySlot p i s t ∧
       t.slot p i = { c with sweep := 0 })) ∧
     nextWith (exec .borrowReset s) (fun t => t = { s with buckets := t.buckets } ∧
       ∀ k, tget t.buckets k = (tget s.buckets k).map (fun e => { e with borrowed := 0 })) ∧
     (i < 16 → s.slots = [(p * 16 + i, c)] → c.bound = true → c.rate ≠ 0 →
       nextWith (exec .tokenCredit s) (fun t => t = { s with buckets := t.buckets, pools := t.pools } ∧
         ∀ port ∈ s.portsOf p i,
           let old := (tget s.buckets ((p * 16 + i) * 64 + port)).getD ⟨0, 0, 0, []⟩
           let gain := old.tokens + (old.frac + c.rate) / 100
           tget t.buckets ((p * 16 + i) * 64 + port) =
             some { old with tokens := min gain (max c.depth 16), frac := (old.frac + c.rate) % 100 } ∧
           tget t.pools (p * 64 + port) =
             some (min b.poold ((tget s.pools (p * 64 + port)).getD 0 + (gain - max c.depth 16)))))) ∧
  (∀ (s : State) (p q : Nat),
     let short (k : Nat) : Prop := (s.part k).octetList.length < (s.part k).target ∧ s.waiting k = true
     let long (k : Nat) : Prop := (s.part k).target < (s.part k).octetList.length ∧
       (s.part k).minoct < (s.part k).octetList.length
     p < 64 → q < 64 → (∀ k, k < 64 → s.frozen k = false) → (∀ k, k < 64 → (short k ↔ k = p)) →
     (∀ k, k < 64 → (long k ↔ k = q)) → (∀ e ∈ s.parts, e.2.marks = []) →
     nextWith (exec .serviceTargetEvaluation s) (fun t => OnlyPart q s t ∧
       ∃ k ∈ (s.part q).octetList, (∀ j ∈ (s.part q).octetList, s.octetClusters q k ≤ s.octetClusters q j) ∧
         t.part q = { s.part q with marks := [(k, p)] }))

/-- R9, R17, R246, R371, R377, R389, R401, R402, R417 and R421: registers are written at their offsets; an offset that is not
listed is ignored. The page of NODE is the model's own (log 55). -/
def Obligations.RegisterWrites : Prop :=
  ∀ (w t : Nat) (v : DWord) (off : Nat) (s : State),
    let x := s.world w
    let sets (page : RegPage) (off : Nat) (y : World) : Prop :=
      nextWith (exec (.registerWrite page off v) s) (fun t => t.world w = y ∧ OnlyWorld w s t)
    sets (.bar0 w) 0x10 { x with qerr := x.qerr &&& ~~~(v.setWidth 4) } ∧
    sets (.bar0 w) 0x1000 { x with pasidtab := v &&& ~~~(0xFC0#64) } ∧
    sets (.bar0 w) 0x2008 { x with fqerr := x.fqerr &&& ~~~(v.setWidth 2) } ∧
    (w < 256 → sets .control (0x40008 + 0x40 * w) { x with frbase := v, frindex := 0 } ∧
      sets .control (0x40010 + 0x40 * w) { x with
        logsize := BitVec.ofNat 32 (v.toNat / 2 ^ 32), frslots := v.toNat % 2 ^ 16, frindex := 0 } ∧
      sets .control (0x40028 + 0x40 * w) { x with logbase := v }) ∧
    (w < 256 → t < 64 → nextWith (exec (.registerWrite .control (0x80000 + 0x400 * w + 0x10 * t) v) s) (fun u =>
      u.tenant w t = { s.tenant w t with capBase := v &&& ~~~(0x1F#64) } ∧ u = { s with tenants := u.tenants })) ∧
    (w < 256 → t < 64 → nextWith (exec (.registerWrite .control (0x80008 + 0x400 * w + 0x10 * t) v) s) (fun u =>
      u.tenant w t = { s.tenant w t with valid := v.getLsbD 9, ncap := v.toNat % 512 } ∧ u = { s with tenants := u.tenants })) ∧
    (∀ i, i < 16 → (s.window w i).opened = false →
      nextWith (exec (.registerWrite (.bar0 w) (0x1108 + 0x40 * i) v) s) (fun u =>
        u.window w i = { s.window w i with base := v } ∧ OnlyWorld w s u)) ∧
    exec (.registerWrite (.bar0 0) 0x4018 v) s = .next { s with power := { s.power with
      tcrit := (v >>> 8).setWidth 8, ttrot := v.setWidth 8 } } ∧
    exec (.registerWrite .node off v) s = .next { s with node := v.setWidth 16 } ∧
    sets (.config w) 0xC { x with prAlloc := v.toNat % 2 ^ 32 } ∧
    (off ≠ 0xC → exec (.registerWrite (.config w) off v) s = .next s) ∧
    (¬ (off ∈ [0, 8, 0x10, 0x1000, 0x1008, 0x2000, 0x2008] ∨
        (0x1100 ≤ off ∧ off < 0x1500 ∧ off % 0x40 ∈ [0, 8, 0x10, 0x18, 0x20]) ∨ (w = 0 ∧ off ∈ [0x4008, 0x4010, 0x4018])) →
      exec (.registerWrite (.bar0 w) off v) s = .next s) ∧
    (let within (lo hi step : Nat) (l : List Nat) : Prop := lo ≤ off ∧ off < hi ∧ off % step ∈ l
     ¬ (within 0x10000 0x11000 0x40 [0, 8, 0x10, 0x18] ∨ within 0x11000 0x11200 8 [0] ∨ within 0x20000 0x22000 0x20 [0, 8, 0x10] ∨
        within 0x30000 0x40000 0x40 [0, 8, 0x10] ∨
        within 0x40000 0x44000 0x40 [0, 8, 0x10, 0x18, 0x20, 0x28, 0x30, 0x38] ∨ within 0x80000 0xC0000 0x10 [0, 8]) →
      exec (.registerWrite .control off v) s = .next s)

/-! The pre-emption ladder, starts, heat and power. -/

/-- R350, R359, R360, R362, R364, R365 and R415: a soft request comes to an Active context, which is then Requested with its
times running; at the end of G it is Forced, and its groups that have entered a pipe stop at their instruction boundaries;
its halt is complete when no merge and no access is under way, no later than K ends; CMD 2 sends it on, in a world that runs;
where the world does not run it waits for that; CMD 3 and the end of K kill it, but for a halt that is complete in the same ns;
and when what it has issued has performed,
and its tenant's reductions have failed, its clusters are gone and its slot is empty. -/
def Obligations.LadderSteps : Prop :=
  ∀ (p i : Nat) (s : State), i < 16 →
    let c := s.slot p i
    let now := s.worldTime c.world
    let goes : Prop := (s.world c.world).dark = 0 ∧ (s.world c.world).pause = false
    (c.state = 1 → nextWith (exec (.softRequest p i) s) (fun t => OnlySlot p i s t ∧ t.slot p i = { c with flying := true })) ∧
    (c.flying = true → c.state = 1 → nextWith (exec (.requestArrival p i) s) (fun t =>
      t = { s with slots := t.slots, worlds := t.worlds } ∧ t.slot p i = { c with
        flying := false, state := 3, reqt := BitVec.ofNat 64 now
        gAt := s.now + (if c.dark then 0 else c.gtime * 1000)
        kAt := s.now + (if c.ktime = 0 then 50 else c.ktime) * 1000 })) ∧
    (c.state = 3 → c.gAt ≤ s.now → nextWith (exec (.graceExpiry p i) s) (fun t => (t.slot p i).state = 4 ∧
      t.hbm = s.hbm ∧ t.hostMem = s.hostMem ∧
      ∀ team tid pid gid ps g pl u, s.ctxTeams p i = [team] → s.passes = [(pid, ps)] → ps.team = team → ps.uniform = false →
        ps.groups = [(gid, g)] → g.lanes = [tid] → g.done = false → g.pipe.isSome = true → s.place team = some pl →
        pl.team.dwait = false → s.thread team tid = some u →
        t.passes = [] ∧ (t.thread team tid).map (·.st) = some (.parked g.off .halt false))) ∧
    (c.state = 4 → s.merging p i = false → s.underWayOf (s.ctxTeams p i) = false → s.now ≤ c.kAt → c.dark = false → (∀ j, j < 16 → (s.slot p j).resume = false) →
      nextWith (exec (.haltComplete p i) s) (fun t => (t.slot p i).haltt = BitVec.ofNat 64 now ∧ t.hbm = s.hbm ∧
        (t.slot p i).state = if c.held = true ∧ s.goes c.world = true then 1 else 5)) ∧
    (c.state = 3 → goes → nextWith (exec (.resume p i) s) (fun t => OnlySlot p i s t ∧ t.slot p i = { c with state := 1 })) ∧
    (c.state = 4 → goes → nextWith (exec (.resume p i) s) (fun t => OnlySlot p i s t ∧ t.slot p i = { c with held := true })) ∧
    (c.state = 6 → goes → nextWith (exec (.resume p i) s) (fun t => OnlySlot p i s t ∧ t.slot p i = { c with resume := true })) ∧
    (c.state = 2 ∨ c.state = 5 → (s.world c.world).dark = 0 → s.goes c.world = false → nextWith (exec (.resume p i) s) (fun t =>
      OnlySlot p i s t ∧ t.slot p i = { c with paused := true })) ∧
    (c.state = 2 ∨ c.state = 5 → s.goes c.world = true → s.rivals p i [1, 3, 4] (s.coresOf p i) = [] →
      nextWith (exec (.resume p i) s) (fun t => (t.slot p i).state = 1 ∧ t.hbm = s.hbm)) ∧
    (let killed (e : Instr) : Prop := nextWith (exec e s) (fun t => (t.slot p i).state = 7 ∧
        ∀ team pl, s.ctxTeams p i = [team] → s.place team = some pl → t.liveTids team = [] ∧
          (tget t.teams team).map (·.ended) = some true)
     (c.state ≠ 0 → c.state ≠ 7 → killed (.kill p i)) ∧
     (c.state = 3 ∨ c.state = 4 → c.kAt < s.now ∨ (c.kAt = s.now ∧ s.haltReady p i = false) → killed (.killTimerExpiry p i))) ∧
    (c.state = 7 → c.bound = true → s.underWayOf (s.ctxTeams p i) = false →
      (∀ e ∈ s.fabric, ¬ (e.2.reduction = true ∧ e.2.world = c.world ∧ e.2.tenant = c.tenant)) →
      nextWith (exec (.killComplete p i) s) (fun t => (t.slot p i).state = 0 ∧ (t.slot p i).bound = false ∧
        ∀ e ∈ s.ctxClusters p i, tget t.clusters e.1 = none))

/-- R340, R421 to R424: a cold start leaves everything as after reset but for host memory, what is the outside's and, without a
power-on, the start page's counts, the staging window and the heat; it measures the monitor's image and waits for the monitor, or
names its failed step; a reload is one of the image in the staging window, in recovery; a ready monitor ends the start, and one
that is not in time leaves nothing running; a warm start sends bound and keyed worlds dark, and then zeroes every frame that a
world but world 0 maps; a soft error resets its column's core, and within 2 µs the kill reaches the context that stands on it. That
FAILS and STEPFAIL outlive a start, and that the failing step comes from outside, are the model's readings (log 56). -/
def Obligations.Starts : Prop :=
  ∀ (f : Option (Fin 5)) (col : Nat) (s : State),
    let q := s.power
    let started (on : Bool) (p : Power) : State := { State.reset with
      inputs := s.inputs, free := s.free, nextId := s.nextId, now := s.now, hostMem := s.hostMem, outbox := s.outbox
      ctemp := if on then State.reset.ctemp else s.ctemp
      throt := if on then State.reset.throt else if q.trip then (List.range 512).map (fun c => (c, 15)) else []
      power := { p with trip := if on then false else q.trip } }
    let failed (p : Power) (step : Nat) : Power :=
      let n := min 3 (p.fails + 1)
      { p with stepfail := step, fails := n, state := if n = 3 then 4 else 1, starting := .none }
    let cold (e : Instr) (powerOn window : Bool) : Prop :=
      let on := powerOn || q.removed
      let base : Power := { Power.reset (if on then 0 else q.stepfail) (if on then 0 else q.fails) with
        staging := if on then .empty else q.staging }
      let measured : Power := { base with
        fromWindow := window
        digest := sha384 (if window then base.staging.readN 0 Config.stagedLength else Config.flashImage) }
      exec e s = .next (started on (match f with
        | none => { measured with
            identity := Config.identityKey, state := 1, starting := .ready (s.now + 2000000000) false }
        | some k => failed (if k.val = 4 then measured else base) (k.val + 1)))
    (∀ on, cold (.coldStart ⟨on, f⟩) on false) ∧
    (q.state = 4 → cold (.reload f) false true) ∧ (q.state ≠ 4 → exec (.reload f) s = .next s) ∧
    (∀ d warm, q.starting = .ready d warm →
      (s.now ≤ d → exec (.monitorReady true) s = .next { s with power := { q with state := 3, fails := 0, starting := .none } }) ∧
      (d ≤ s.now → exec (.monitorReady false) s = .next (started false (failed q 6)))) ∧
    (q.state = 3 → (∀ e ∈ s.slots, e.2.bound = false) → nextWith (exec (.warmStart f) s) (fun t =>
      t.power = { q with state := 2, starting := .ending (if f = some 1 ∨ f = some 3 then f else none) } ∧ t.hbm = s.hbm ∧
      ∀ w, (s.world w).state = 2 ∨ (s.world w).state = 3 → (t.world w).dark ≠ 0 ∧
        ((s.world w).dark = 0 → (t.world w).cause = 3))) ∧
    (∀ g, q.starting = .ending g → (∀ e ∈ s.worlds, e.2.dark = 0) → (∀ e ∈ s.slots, e.2.bound = false) →
      let t := s.settleStart
      t.teams = [] ∧ t.threads = [] ∧ t.clusters = [] ∧ t.launches = [] ∧ t.images = [] ∧ t.worlds = State.reset.worlds ∧
      t.hostMem = s.hostMem ∧
      (∀ a, t.hbm.read a = if (∃ e ∈ s.worlds, e.1 ≠ 0 ∧ s.mapsByte e.1 a = true) then 0 else s.hbm.read a) ∧
      (match g with
        | none => t.power.state = 2 ∧ t.power.starting = .ready (s.now + 2000000000) true ∧ t.power.fails = q.fails
        | some k => t.power.stepfail = k.val + 1 ∧ t.power.fails = min 3 (q.fails + 1) ∧ t.power.starting = .none)) ∧
    (∀ p i k team u, i < 16 → s.slots = [(p * 16 + i, k)] → k.bound = true → k.state ≠ 0 → k.state ≠ 7 →
      (∃ e ∈ s.ctxClusters p i, e.2.saved = false ∧ team ∈ e.2.teams) → tget s.teams team = some u → col ∈ u.cores →
      ∀ n, n ≤ s.now → s.resets = [(col, n)] → (s.settleResets.slot p i).state = 7 ∧ s.settleResets.resets = []) ∧
    nextWith (exec (.softErrorReset col) s) (fun t => t = { s with free := t.free, resets := t.resets } ∧
      ∃ n, n ≤ s.now + 2000 ∧ s.now ≤ n ∧ t.resets = (col, n) :: s.resets.filter (fun e => e.1 != col))

/-- R250, R425 to R427: a sample is the column's temperature, and one above TCRIT trips the device, every core then at
step 15; the throttle steps follow from temperature and power; the power term moves by one step; a module removes its
power above TCRIT + 10 or on an input fault. When the trip comes and goes (log 62), and that PLIM 0 takes the power term out of
the step (log 57), are the model's readings. -/
def Obligations.HeatAndPower : Prop :=
  ∀ (core : Nat) (v : BitVec 16) (s : State),
    let q := s.power
    let lim := q.plim.toNat
    (core < 512 → nextWith (exec (.sensorSample [(core, v)]) s) (fun t =>
      tget t.ctemp core = some v ∧ (∀ k, k ≠ core → tget t.ctemp k = tget s.ctemp k) ∧ t.hbm = s.hbm ∧ t.threads = s.threads ∧
      ((q.tcrit.toNat : Int) * 16 < v.toInt → t.power.trip = true ∧ (∀ k, k < 512 → tget t.throt k = some 15) ∧
        (q.trip = false → t.outbox = s.outbox ++ [.msix 0])) ∧
      (s.ctemp = [] → v.toInt ≤ ((q.tcrit.toNat : Int) - 5) * 16 → t.power.trip = false))) ∧
    nextWith (exec .throttleUpdate s) (fun t => t = { s with throt := t.throt } ∧ ∀ k, k < 512 →
      let excess : Int := ((tget s.ctemp k).getD 0).toInt - (q.ttrot.toNat : Int) * 16
      let heat : Nat := if excess ≤ 0 then 0 else min 15 (1 + (excess / 16).toNat)
      ((tget t.throt k).getD 0) = if q.trip then 15 else BitVec.ofNat 4 (max heat (if q.plim = 0 then 0 else q.sp))) ∧
    exec (.powerTermUpdate v) s = .next { s with power := { q with
      pwr := v
      sp := if lim = 0 then q.sp else if lim < v.toNat then min 15 (q.sp + 1)
        else if 100 * v.toNat ≤ 95 * lim then q.sp - 1 else q.sp } } ∧
    (∀ b, exec (.modulePowerRemoval b) s =
      if Config.moduleForm = true ∧ (b = true ∨ ∃ e ∈ s.ctemp, ((q.tcrit.toNat + 10 : Nat) : Int) * 16 < e.2.toInt) then
        .next (s.wipe .empty [] { Power.reset 0 0 with state := 1, removed := true })
      else .next s)

/-! Trust and going dark. -/

/-- R397 to R399, R406, R409, R410 and R413: the requests of SPDM answer as their entries say, a secured one only in a session
that has not expired, which it keeps alive: KEY_EXCHANGE and FINISH begin a session, END_SESSION ends it, KEY_RELEASE keys a
bound world, channels open and close, and a VENDOR_DEFINED_REQUEST is read as the operation that it names. The signature and
the session's export master secret are free values (log 10). That FINISH without a KEY_EXCHANGE is unexpected, the order of
KEY_RELEASE's statuses, another world's number as status 3 and the first deadline are the model's choices (log 51). -/
def Obligations.SessionMessages : Prop :=
  ∀ (w v : Nat) (block : Byte) (nonce : List Byte) (g : Word) (wrapped key payload : List Byte) (ch : Nat) (iv : BitVec 96)
    (ms : Nat) (s : State),
    let x := s.world w
    let gen := (s.part x.part).gen
    let tells (i : Instr) (r : SpdmReply) : Prop := exec i s = .next (s.say (.spdm w r))
    let alive := { x with hbDeadline := s.worldTime w + 2 * x.hbPeriod * 1000000 }
    let changes (i : Instr) (r : SpdmReply) (y : World) : Prop := nextWith (exec i s) (fun t =>
      t = { s with worlds := t.worlds, outbox := s.outbox ++ [.spdm w r] } ∧ t.world w = y ∧ ∀ k, k ≠ w → t.world k = s.world k)
    let live : Prop := x.session = true ∧ x.dark = 0 ∧ s.worldTime w ≤ x.hbDeadline
    let byte (i : Nat) : Nat := natAt payload i 1
    let blocks : List (Byte × List Byte) := [(0xF1, sha384 (s.layout x.part)), (0xF2, bytesOfNat 4 gen.toNat)]
    tells (.getVersion w) (.version 1 3) ∧
    tells (.getCapabilities w) (.capabilities [.cert, .chal, .measSigned, .keyEx, .hbeat, .encrypt, .mac]) ∧
    tells (.negotiateAlgorithms w) (.algorithms [.sha384, .brainpoolP384r1 Config.vendorId, .secp384r1, .aes256Gcm]) ∧
    tells (.getCertificate w) .certificate ∧
    (exec (.getMeasurements w ⟨block, true, nonce⟩) s = .next (State.say { s with free := s.free + 1 } (.spdm w (.measurements
        (blocks.filter (fun e => block == 0xFF || e.1 == block)) nonce (some (Config.signature s.free)))))) ∧
    tells (.getMeasurements w ⟨block, false, nonce⟩) (.measurements [] [] none) ∧
    (x.session = false → x.dark = 0 → x.state ≠ 4 →
      changes (.keyExchange w ms) .keyExchange { x with exchanging := true, hbPeriod := ms }) ∧
    (x.session = true ∨ x.dark ≠ 0 ∨ x.state = 4 → tells (.keyExchange w ms) .unexpected) ∧
    (x.exchanging = true → x.dark = 0 → x.state ≠ 4 → nextWith (exec (.finish w) s) (fun t =>
      t = { s with worlds := t.worlds, free := s.free + 1, outbox := s.outbox ++ [.spdm w .finished] } ∧
      t.world w = { alive with exchanging := false, session := true, secret := Config.exportSecret s.free } ∧
      ∀ k, k ≠ w → t.world k = s.world k)) ∧
    (x.exchanging = false ∨ x.dark ≠ 0 ∨ x.state = 4 → tells (.finish w) .unexpected) ∧
    (¬ live → tells (.heartbeat w) .sessionRequired ∧ tells (.endSession w) .sessionRequired ∧
      tells (.keyRelease w v g wrapped) .sessionRequired ∧ tells (.chanOpen w ch key iv) .sessionRequired ∧
      tells (.chanClose w ch) .sessionRequired ∧ tells (.vendorDefinedRequest w payload) .sessionRequired) ∧
    (byte 0 = 1 → payload.length = 46 → exec (.vendorDefinedRequest w payload) s =
      exec (.keyRelease w (byte 1) (BitVec.ofNat 32 (natAt payload 2 4)) (payload.drop 6)) s) ∧
    (byte 0 = 2 → payload.length = 46 → exec (.vendorDefinedRequest w payload) s =
      exec (.chanOpen w (byte 1) ((payload.drop 2).take 32) (BitVec.ofNat 96 (natAt payload 34 12))) s) ∧
    (byte 0 = 3 → payload.length = 2 → exec (.vendorDefinedRequest w payload) s = exec (.chanClose w (byte 1)) s) ∧
    (live → changes (.heartbeat w) .alive alive ∧
      (¬ (byte 0 = 1 ∧ payload.length = 46) → ¬ (byte 0 = 2 ∧ payload.length = 46) → ¬ (byte 0 = 3 ∧ payload.length = 2) →
        changes (.vendorDefinedRequest w payload) .invalidRequest alive) ∧
      nextWith (exec (.endSession w) s) (fun t => (t.world w).session = false ∧ t.hbm = s.hbm ∧ t.seals = s.seals ∧
        (x.state = 1 ∨ x.state = 2 ∨ x.state = 3 → (t.world w).dark = 1 ∧ (t.world w).cause = 4)) ∧
      (wrapped.length = 40 → g = gen →
        match unwrapKey (wrapKey x.secret) wrapped with
        | some k =>
          (v = w → x.state = 2 →
            changes (.keyRelease w v g wrapped) (.status 0) { alive with state := 3, key := some (WorldKeys.derive k) }) ∧
          (v ≠ w ∨ x.state ≠ 2 → changes (.keyRelease w v g wrapped) (.status 3) alive)
        | none => changes (.keyRelease w v g wrapped) (.status 2) alive) ∧
      (wrapped.length = 40 → g ≠ gen → changes (.keyRelease w v g wrapped) (.status 1) alive) ∧
      (∀ i : Fin 16, key.length = 32 → x.state = 3 → x.chans[i].opened = false →
        changes (.chanOpen w i.val key iv) (.status 0) { alive with chans := x.chans.set i.val ⟨true, key, iv, 0⟩ i.isLt }) ∧
      (∀ i : Fin 16, key.length = 32 → x.state = 3 → x.chans[i].opened = true →
        changes (.chanOpen w i.val key iv) (.status 2) alive) ∧
      (16 ≤ ch → key.length = 32 → x.state = 3 → changes (.chanOpen w ch key iv) (.status 3) alive) ∧
      (key.length = 32 → x.state ≠ 3 → changes (.chanOpen w ch key iv) (.status 1) alive) ∧
      (∀ i : Fin 16, s.onChan w i.val = [] → (∀ e ∈ s.worlds, e.2.closing = []) →
        changes (.chanClose w i.val) (.status 0) { alive with chans := x.chans.set i.val ⟨false, [], 0, 0⟩ i.isLt }))

/-- R399, R409 and R414: a world is locked, started and stopped as TDISP says, its start being a secured message of the session;
a bound or keyed one goes dark when it is stopped or its heartbeat is overdue; when all its contexts have halted it is dark, its
keys erased, its images and its session gone. -/
def Obligations.InterfaceStates : Prop :=
  ∀ (w n : Nat) (s : State),
    let x := s.world w
    let tells (i : Instr) (r : TdispReply) : Prop := exec i s = .next (s.say (.tdisp w r))
    let live : Prop := x.session = true ∧ x.dark = 0 ∧ s.worldTime w ≤ x.hbDeadline
    let starts (y : World) (r : TdispReply) : Prop := nextWith (exec (.startInterface w n) s) (fun t =>
      t = { s with worlds := t.worlds, outbox := s.outbox ++ [.tdisp w r] } ∧
      t.world w = { y with hbDeadline := s.worldTime w + 2 * x.hbPeriod * 1000000 })
    (x.conf = true → x.state = 0 → nextWith (exec (.lockInterface w) s) (fun t =>
      (t.world w).state = 1 ∧ t.outbox = s.outbox ++ [.tdisp w (.locked (t.world w).nonce)] ∧
      t = { s with worlds := t.worlds, free := s.free + 1, outbox := t.outbox })) ∧
    (x.conf = false ∨ x.state ≠ 0 → tells (.lockInterface w) .error) ∧
    (live → x.state = 1 → x.nonce = n → starts { x with state := 2 } .started) ∧
    (live → x.state ≠ 1 ∨ x.nonce ≠ n → starts x .error) ∧
    (¬ live → exec (.startInterface w n) s = .next (s.say (.spdm w .sessionRequired))) ∧
    (x.dark = 0 → x.state = 2 ∨ x.state = 3 → nextWith (exec (.stopInterface w) s) (fun t =>
      (t.world w).dark = 1 ∧ (t.world w).cause = 5 ∧ t.outbox = s.outbox ++ [.tdisp w .stopped])) ∧
    (x.dark = 0 → x.state ≠ 2 → x.state ≠ 3 → nextWith (exec (.stopInterface w) s) (fun t =>
      t.world w = { x with state := 0 } ∧ t = { s with worlds := t.worlds, outbox := s.outbox ++ [.tdisp w .stopped] })) ∧
    (x.dark ≠ 0 → tells (.stopInterface w) .error) ∧
    tells (.getDeviceInterfaceReport w) (.report x.state [(0, 0x0000, 0x3FFF)]) ∧
    (x.session = true → x.dark = 0 → x.hbDeadline < s.worldTime w → nextWith (exec (.heartbeatDeadline w) s) (fun t =>
      (t.world w).session = false ∧
      (x.state = 1 ∨ x.state = 2 ∨ x.state = 3 → (t.world w).dark = 1 ∧ (t.world w).cause = 1))) ∧
    (s.worldTime w ≤ x.hbDeadline → exec (.heartbeatDeadline w) s = .next s) ∧
    (x.dark ≠ 0 → (∀ e ∈ s.worldSlots w, (s.slot e.1 e.2).state = 2 ∨ (s.slot e.1 e.2).state = 5 ∨
        (s.slot e.1 e.2).state = 6) → x.log = false → (∀ e ∈ s.dues, e.2.world ≠ w) → nextWith (exec (.goDark w) s) (fun t =>
      (t.world w).state = 4 ∧ (t.world w).dark = 0 ∧ (t.world w).session = false ∧
      (∀ e ∈ t.images, e.2.world ≠ w) ∧
      (s.slots = [] → s.launches = [] → s.images = [] → s.fabric = [] → s.unmaps = [] → (t.world w).key = none ∧ (t.world w).secret = [] ∧
        (∀ i : Fin 16, ((t.world w).chans[i]).opened = false) ∧
        ∀ q iv k, s.seals = [(q, .live w iv)] → x.key = some k → t.seals = [(q, .dead (iv.tag k (s.rawBytes (q * 512) 512)))])))

/-! The host and its harts. -/

/-- R16, R19, R274, R314, R382, R383, R385, R411 and R412: an access of a hart or of the host outside the world's memory, or that writes
a read-only page, faults and does nothing; a load gives the bytes, out of tiles that are filled, a store writes them, an AMO does
both; what a keyed world stores lies in HBM as its AES-XTS ciphertext, and a tile with a wrong tag gives no byte and sends the
world dark; a line the host may hold is asked back before a hart reads it. A snoop is told whether a slice holds the line, with the
bytes of a dirty one, by the filter of its port, and one that invalidates takes the line away, and is the host's store to it
(log 72); a response frees the lines that were asked back. A store succeeds in a CONF tile as in any other (log 49); a hart's
aligned doubleword in a register window reads or writes the register (log 80); and a cluster that is held in reset does nothing. -/
def Obligations.HostAccesses : Prop :=
  ∀ (w port : Nat) (a : DWord) (op : HartOp) (b : Byte) (line : DWord) (kind : Snoop) (s : State),
    let at_ := a.toNat
    let n := hartLen op
    let here : Prop := s.power.held = false ∧ hartPage w at_ = none
    let mine := if port = (if Config.hostPort line.toNat then 1 else 0) then s.hostLines.find? (fun e => e.line == line.toNat) else none
    let free (i : Instr) (op : HartOp) : Prop :=
      s.accessFaults w at_ op = false ∧ s.accessWaits w at_ op i = false ∧ (s.fill w at_ (hartLen op)).1 = true
    let calm : Prop := s.unsealed w ∧ s.windowsClosed w ∧ (s.world w).log = false
    let hart (op : HartOp) : Instr := .hartAccess w a op
    let host (op : HartOp) : Instr := .hostCxlAccess w a op
    let full := (s.fill w at_ n).2
    (s.power.held = true → exec (hart op) s = .next s) ∧
    (n ≠ 0 → s.accessFaults w at_ op = true → exec (host op) s = .next (s.say (.accessFault w at_)) ∧
      (here → exec (hart op) s = .next (s.say (.accessFault w at_)))) ∧
    (s.devRange w at_ n = false → s.accessFaults w at_ op = true) ∧
    (hartWrites op = true → n ≠ 0 → s.readOnly w at_ = true → s.accessFaults w at_ op = true) ∧
    (here → hartWrites op = false → n ≠ 0 → free (hart op) op → s.hostMay w at_ n = false → exec (hart op) s =
      .next (full.say (.value w ((List.range n).map (fun i => full.devRead w (at_ + i)))))) ∧
    (here → hartReads op = true → n ≠ 0 → free (hart op) op → s.hostMay w at_ n = true →
      nextWith (exec (hart op) s) (fun t => t.hbm = s.hbm ∧ t.hostMay w at_ n = true ∧
        ∀ l ∈ t.shared, l.world = w → at_ / 64 ≤ l.line → l.line ≤ (at_ + (n - 1)) / 64 → l.snooped = true)) ∧
    (here → free (hart (.store [b])) (.store [b]) → calm →
      nextWith (exec (hart (.store [b])) s) (fun t => t.devByte w at_ = b ∧ t.hostMem = s.hostMem ∧
        t.threads = s.threads ∧ t.teams = s.teams ∧
        ∀ p, s.devAddr w at_ ≠ some p → t.hbm.read p = s.hbm.read p)) ∧
    (∀ k p, let iv := Iv.xts (at_ / 512 * 512)
      s.keys w = some k → s.devAddr w at_ = some p → s.recs = [] → here → s.windowsClosed w → (s.world w).log = false →
      (s.sealedBy w iv p = true → free (hart (.store [b])) (.store [b]) →
        nextWith (exec (hart (.store [b])) s) (fun t => t.devByte w at_ = b ∧
          t.rawByte p = (iv.block true k (p % 512 / 16) ((s.hbm.write p b).readN (p / 16 * 16) 16)).getD (p % 16) 0)) ∧
      (∀ tag, tget s.seals (p / 512) = some (.dead tag) → iv.tag k (s.rawBytes (p / 512 * 512) 512) ≠ tag → op = .load 1 →
        s.accessFaults w at_ op = false → s.accessWaits w at_ op (hart op) = false → s.hostMay w at_ 1 = false →
        nextWith (exec (hart op) s) (fun t => t.outbox = s.outbox ∧ t.hbm = s.hbm ∧
          ((s.world w).dark = 0 → (s.world w).state ≠ 0 → (s.world w).state ≠ 4 →
            (t.world w).dark = 1 ∧ (t.world w).cause = 2)))) ∧
    (∀ o v, op = .amo o 1 v → here → free (hart op) op → s.hostMay w at_ n = false → calm →
      nextWith (exec (hart op) s) (fun t => t.outbox.getLast? = some (.value w [s.devRead w at_]) ∧
        t.devByte w at_ = BitVec.ofNat 8 (amoNew o 1 (s.devRead w at_).toNat v.toNat))) ∧
    (∀ page off, s.power.held = false → hartPage w at_ = some (page, off) → off % 8 = 0 →
      exec (hart (.load 8)) s = .next (s.say (.value w (bytesOfNat 8 (s.readReg page off).toNat))) ∧
      (op = .store (bytesOfNat 8 line.toNat) → exec (hart op) s = exec (.registerWrite page off line) s)) ∧
    (op = .load 1 → free (host op) op → s.unsealed w → s.shared = [] → nextWith (exec (host op) s) (fun t =>
      t.outbox = s.outbox ++ [.value w [s.devRead w at_]] ∧ t.hbm = s.hbm ∧
      ∃ l, t.shared = [l] ∧ l.world = w ∧ l.line = at_ / 64 ∧ l.snooped = false ∧
        l.bytes = (List.range 64).map (fun j => s.devRead w (64 * (at_ / 64) + j)))) ∧
    (free (host (.store [b])) (.store [b]) → calm →
      nextWith (exec (host (.store [b])) s) (fun t => t.devByte w at_ = b ∧ t.hostMem = s.hostMem ∧
        t.outbox = s.outbox)) ∧
    nextWith (exec (.birsp w line) s) (fun t => t = { s with shared := t.shared } ∧ ∀ l, l ∈ t.shared ↔
      l ∈ s.shared ∧ ¬ (l.world = w ∧ l.line = line.toNat ∧ l.snooped = true)) ∧
    nextWith (exec (.hostSnoop port line kind) s) (fun t =>
      (t = { s with
        hostLines := t.hostLines
        hostMem := t.hostMem
        outbox := s.outbox ++ [match mine with
          | some e => .snoop port line true (if e.dirty then some (s.hostMem.readN (line.toNat * 64) 64) else none)
          | none => .snoop port line false none] }) ∧
      (∀ st, kind = .invalidate st → (∀ l, l ∈ t.hostLines ↔ l ∈ s.hostLines ∧ (mine.isSome = true → l.line ≠ line.toNat)) ∧
        (∀ p, p / 64 ≠ line.toNat → t.hostMem.read p = s.hostMem.read p) ∧
        (∀ j : Fin 64, st = [(j.val, b)] → t.hostMem.read (line.toNat * 64 + j.val) = b)) ∧
      (kind = .share → t.hostMem = s.hostMem ∧ t.hostLines.map (·.line) = s.hostLines.map (·.line) ∧
        (mine.isSome = true → ∀ l ∈ t.hostLines, l.line = line.toNat → l.dirty = false) ∧
        (mine = none → t.hostLines = s.hostLines) ∧
        ∀ l, l.line ≠ line.toNat → (l ∈ t.hostLines ↔ l ∈ s.hostLines)))

/-- R387, R388, R412 and R423: a window opens where its registers allow it, with the cairn value read, and closes; BAR2 shows its
memory, out of tiles that are filled and that no engine claims, a tile in its history where it has been copied there, and all ones
elsewhere; a write to it is refused but in
recovery, where it is the staging memory of the physical function. -/
def Obligations.BarWindows : Prop :=
  ∀ (w off : Nat) (i : Fin 16) (bytes : List Byte) (s : State),
    let x := (s.world w).windows[i]
    let put (y : Window64) (t : State) : Prop := OnlyWorld w s t ∧
      t.world w = { s.world w with windows := (s.world w).windows.set i.val y i.isLt }
    let reads (o : Nat) (b : State → Byte) : Prop := ∀ t, s.windowClaimed w o 1 = false → s.windowFill w o 1 = (true, t) →
      exec (.windowRead w o 1) s = .next (t.say (.value w [b t]))
    ((s.keys w = none → ∀ o, s.windowFill w o 1 = (true, s)) ∧ (s.staging w = true → ∀ o, s.windowFill w o 1 = (true, s))) ∧
    (∀ o n, s.windowClaimed w o n = true → exec (.windowRead w o n) s = .next (s.retry (.windowRead w o n))) ∧
    (s.staging w = true → ∀ o n, s.windowClaimed w o n = false) ∧
    (s.staging w = false → off < 2 ^ 30 →
      ((x.opened = false ∨ x.len.toNat ≤ off) → reads (i.val * 2 ^ 30 + off) (fun _ => 0xFF)) ∧
      (x.opened = true → off < x.len.toNat → (i.val, off / 512) ∉ (s.world w).hist →
        reads (i.val * 2 ^ 30 + off) (fun t => t.devRead w (x.base.toNat + off))) ∧
      (x.opened = true → off < x.len.toNat → (i.val, off / 512) ∈ (s.world w).hist →
        reads (i.val * 2 ^ 30 + off) (fun t => t.devByte w (x.hist.toNat + off))) ∧
      nextWith (exec (.windowWrite w (i.val * 2 ^ 30 + off) bytes) s) (put { x with werr := true })) ∧
    (s.staging w = true → off < 67108864 → reads off (fun _ => s.power.staging.read off) ∧
      nextWith (exec (.windowWrite w off bytes) s) (fun t => t = { s with power := { s.power with staging := t.power.staging } } ∧
        (off + bytes.length ≤ 67108864 →
          ∀ j (hj : j < bytes.length), t.power.staging.read (off + j) = bytes[j]))) ∧
    (x.opened = true ∨ s.power.state = 4 → exec (.windowOpen w i.val) s = .next s) ∧
    (x.opened = false → s.power.state ≠ 4 → s.windowOk w x = false → nextWith (exec (.windowOpen w i.val) s) (put { x with bad := true })) ∧
    (x.opened = false → s.power.state ≠ 4 → s.windowOk w x = true → nextWith (exec (.windowOpen w i.val) s) (fun t =>
      (t.world w).windows[i] = { x with
        opened := true, bad := false, cval := BitVec.ofNat 64 (natOfBytes (s.hostMem.readN x.cairn.toNat 8)) } ∧
      (∀ j, j ∈ (t.world w).hist ↔ j ∈ (s.world w).hist ∧ j.1 ≠ i.val) ∧ t.hbm = s.hbm ∧ t.hostMem = s.hostMem)) ∧
    nextWith (exec (.windowClose w i.val) s) (put { x with opened := false })

/-- R377, R378, R380 and R381: a function's first page request that waits is sent with a free index; an answer of
success lets its access go on, and any other stops it; an invalidation takes the translations of its range, leaves and
non-leaf entries, with the context where it is global, and completes when the accesses it found under way have
performed. R275, R276, R381, R401 and R415: a page that no image of the world has code in is unmapped at once, with the
device's own invalidation; an image with code in it begins to be revoked, which keeps the page till the last launch of
it has gone; a new root of a world's tables makes its frames the world's, and one that was another's reads zero. That a
revoking works on the 2 MiB page of its address (log 54), and what the tables map and a page unmapped from them is (log
8), are the model's readings. -/
def Obligations.PagesInvalidationsRevocation : Prop :=
  (∀ (s : State) (id : Nat) (r : PageReq) (w pasid : Nat) (base : DWord) (size prg : Nat) (glob : Bool),
     let x := s.world r.world
     let b := base.toNat
     let touched (a n : Nat) : Prop := glob = true ∨ (a < b + size ∧ b < a + n)
     let hit (e : Tlb) : Prop := e.world = w ∧ e.pasid = pasid ∧ touched (e.range * 2097152) 2097152
     let above (e : NonLeaf) : Prop :=
       e.world = w ∧ e.pasid = pasid ∧ touched (e.tag * 2 ^ (12 + 9 * e.level)) (2 ^ (12 + 9 * e.level))
     (tget s.pageReqs id = some r → r.sent = false → (∀ e ∈ s.pageReqs, e.1 ≠ id → e.2.world = r.world → e.2.sent = true) →
       x.prHalted = false → x.prOut < x.prAlloc → s.freePrgs r.world ≠ [] → nextWith (exec (.pageRequest id) s) (fun t =>
         (t.world r.world).prOut = x.prOut + 1 ∧ t.hbm = s.hbm ∧ t.threads = s.threads ∧
         ∃ n ∈ s.freePrgs r.world, tget t.pageReqs id = some { r with sent := true, prg := n } ∧
           t.outbox = s.outbox ++ [.pageRequest r.world r.pasid r.page r.read r.write true n])) ∧
     (∀ team tid off u pl a, s.pageReqs = [(id, r)] → r.sent = true → r.answer = none → r.joined = [(.thread team tid, a)] →
       s.thread team tid = some u → u.st = .parked off (.page id) false → s.place team = some pl → pl.cluster.saved = false →
       nextWith (exec (.pageRequestGroupResponse r.world r.prg .success) s) (fun t => t.pageReqs = [] ∧
         (t.thread team tid).map (·.st) = some (.parked off (.page id) true) ∧ (t.world r.world).prOut = x.prOut - 1) ∧
       nextWith (exec (.pageRequestGroupResponse r.world r.prg .invalid) s) (fun t => t.pageReqs = [] ∧
         t.thread team tid = none) ∧
       nextWith (exec (.pageRequestGroupResponse r.world r.prg .failure) s) (fun t => t.pageReqs = [] ∧
         t.thread team tid = none ∧ (t.world r.world).prHalted = true)) ∧
     ((∀ e ∈ s.pageReqs, e.2.world = w → e.2.prg ≠ prg) →
       ∀ a, exec (.pageRequestGroupResponse w prg a) s = .next s) ∧
     ((s.invals.filter (fun e => e.world == w && !e.internal)).length < 32 →
       nextWith (exec (.atsInvalidationRequest w pasid base size glob) s) (fun t =>
         t = { s with tlb := t.tlb, nonLeaf := t.nonLeaf, pctx := t.pctx, invals := t.invals } ∧
         (∀ e, e ∈ t.tlb ↔ e ∈ s.tlb ∧ ¬ hit e) ∧ (∀ e, e ∈ t.nonLeaf ↔ e ∈ s.nonLeaf ∧ ¬ above e) ∧
         (glob = true ∨ (b = 0 ∧ 2 ^ 64 ≤ size) → ∀ c ∈ t.pctx, ¬ (c.world = w ∧ c.pasid = pasid)) ∧
         ∃ v, t.invals = s.invals ++ [v] ∧ v.world = w ∧ v.internal = false)) ∧
     (∀ v l, s.invals = v :: l → v.world = w → (∀ k ∈ v.pends, ∀ e ∈ s.pends, e.1 ≠ k) →
       exec (.invalidationCompletion w) s =
         .next { s with invals := l, outbox := s.outbox ++ [.invalidationComplete w v.internal] }) ∧
     (∀ v l, s.invals = v :: l → v.world = w → (∃ k ∈ v.pends, ∃ e ∈ s.pends, e.1 = k) →
       exec (.invalidationCompletion w) s = .next s)) ∧
  (∀ (w id : Nat) (page : DWord) (im : Image) (s : State),
     let pg := page.toNat / 2097152
     let invalidated (t : State) : Prop := t.pends.map (·.1) = s.pends.map (·.1) ∧
       ∃ v, t.invals = s.invals ++ [v] ∧ v.world = w ∧ v.internal = true
     (s.world w).log = false → (∀ e ∈ s.images, e.2.state ≠ .submitted) →
     ((∀ e ∈ s.images, e.2.world ≠ w ∨ e.2.codeIn pg = false) → nextWith (exec (.revoking w page) s) (fun t =>
       t = { s with devTab := t.devTab, pends := t.pends, invals := t.invals } ∧ invalidated t ∧
       (∀ a, a / 2097152 = pg → t.devAddr w a = none) ∧
       ∀ k a, k ≠ w ∨ a / 2097152 ≠ pg → t.devAddr k a = s.devAddr k a)) ∧
     (s.images = [(id, im)] → im.world = w → im.codeIn pg = true → im.state = .sealed → s.launches = [] →
       nextWith (exec (.revoking w page) s) (fun t =>
         t = { s with images := [(id, { im with state := .revoking })], unmaps := t.unmaps } ∧ (w, pg, false) ∈ t.unmaps)) ∧
     (s.images = [(id, im)] → im.world = w → im.codeIn pg = true → im.state = .revoking → s.launches = [] →
       s.unmaps = [(w, pg, false)] → nextWith (exec (.revoked id) s) (fun t =>
         t = { s with images := [], unmaps := [], devTab := t.devTab, pends := t.pends, invals := t.invals } ∧ invalidated t ∧
         ∀ a, a / 2097152 = pg → t.devAddr w a = none)) ∧
     (let root := page &&& ~~~(0xFFF#64)
      w < 256 → s.images = [] → root ≠ 0 → nextWith (exec (.registerWrite .control (0x40038 + 0x40 * w) page) s) (fun t =>
       (t.world w).devtab = root ∧ invalidated t ∧
       (∀ e ∈ Config.devPages root.toNat, tget t.owners e.2 = some w ∧ ∀ a, a / 2097152 = e.2 →
         t.hbm.read a = match tget s.owners e.2 with
           | some v => if v = w then s.hbm.read a else 0
           | none => s.hbm.read a) ∧
       ∀ a, (∀ e ∈ Config.devPages root.toNat, a / 2097152 ≠ e.2) → t.hbm.read a = s.hbm.read a)))

/-! Queues, admission, the fabric and migration. -/

/-- R17, R18, R41, R105 and R393: a notify write of a bad address sets its bit of QERR, and one for a full queue the next bit;
any other captures its record: a submission whose image is then under admission, or a launch, with its parameter block, whose image
is, which is held. A request from the fabric answers with its code. That a write which is misaligned and finds its queue full sets
the address bit alone (log 79), and the order of an inbound request's answers (log 50), are the model's choices. -/
def Obligations.QueueWrites : Prop :=
  ∀ (w : Nat) (a : DWord) (node sw st tenant : Nat) (packet : List Byte) (s : State),
    let x := s.world w
    let at_ := a.toNat
    let sets (i : Instr) (y : World) : Prop := nextWith (exec i s) (fun t => t.world w = y ∧ OnlyWorld w s t)
    let rec_ (n : Nat) : List Byte := s.devReads w at_ n
    let refuses (code : Nat) : Prop := exec (.inboundLaunchRequest node sw st w tenant packet) s =
      .next (s.say (.launchAnswer node sw st code))
    (x.takes = false → exec (.admNotify w a) s = .next s ∧ exec (.lqNotify w a) s = .next s) ∧
    (x.takes = true → at_ % 32 ≠ 0 ∨ s.devRange w at_ 32 = false →
      sets (.admNotify w a) { x with admNotify := a, qerr := x.qerr ||| 1 }) ∧
    (x.takes = true → at_ % 64 ≠ 0 ∨ s.devRange w at_ 64 = false →
      sets (.lqNotify w a) { x with lqNotify := a, qerr := x.qerr ||| 4 }) ∧
    (x.takes = true → at_ % 32 = 0 → s.devRange w at_ 32 = true → 8 ≤ (s.subs.filter (fun e => e.world == w)).length →
      sets (.admNotify w a) { x with admNotify := a, qerr := x.qerr ||| 2 }) ∧
    (x.takes = true → at_ % 64 = 0 → s.devRange w at_ 64 = true → 64 ≤ s.queued w →
      sets (.lqNotify w a) { x with lqNotify := a, qerr := x.qerr ||| 8 }) ∧
    (let base := natAt (rec_ 32) 0 8
     let d := natAt (rec_ 32) 8 8
     let verdict := natAt (rec_ 32) 16 8
     let id := BitVec.ofNat 32 (s.readNat w (base + 8) 4)
     x.takes = true → at_ % 32 = 0 → s.devRange w at_ 32 = true → (s.subs.filter (fun e => e.world == w)).length < 8 →
      s.claimedRange w at_ 32 = false → x.log = false → s.keys w = none → verdict % 64 = 0 → s.devRange w verdict 64 = true → d < 2 ^ 38 →
      natAt (rec_ 32) 24 8 = 0 → base % 65536 = 0 → s.devRange w base (d % 2 ^ 32) = true →
      s.imageClash w base (d % 2 ^ 32) = false → s.idHeld w (d / 2 ^ 32) id = false →
      nextWith (exec (.admNotify w a) s) (fun t => t.hbm = s.hbm ∧ (t.world w).admNotify = a ∧
        t.subs = s.subs ++ [⟨w, base, d % 2 ^ 32, verdict, d / 2 ^ 32, id, s.nextId⟩] ∧
        t.images = s.images ++ [(s.nextId, Image.submitted w (d / 2 ^ 32) id base (d % 2 ^ 32) verdict)])) ∧
    (let at2 := s.paramBlock w (rec_ 64)
     let block := match at2 with | some (pa, n) => s.devReads w pa n | none => []
     let p := readPacket w (rec_ 64) (natAt (rec_ 64) 1 1) block at2.isSome s.now
     x.takes = true → at_ % 64 = 0 → s.devRange w at_ 64 = true → s.queued w < 64 → s.claimedRange w at_ 64 = false →
      x.log = false → s.keys w = none → p.2 = true → p.1.compl % 32 = 0 → s.devRange w p.1.compl 32 = true →
      tget s.launches s.nextId = none → (∃ i, s.imageNamed p.1 = some i ∧ i.state = .submitted) →
      nextWith (exec (.lqNotify w a) s) (fun t => t.hbm = s.hbm ∧ (t.world w).lqNotify = a ∧
        t.launches = s.launches ++ [(s.nextId, { p.1 with part := x.part, state := .held })] ∧ t.queued w = s.queued w + 1)) ∧
    (let ok : Prop := x.takes = true ∧ s.inboundOk node sw st w tenant packet = true
     (¬ ok → refuses 2) ∧ (ok → natAt packet 0 1 ≠ 1 → refuses 3) ∧ (ok → natAt packet 0 1 = 1 → 64 ≤ s.queued w → refuses 1) ∧
     (ok → natAt packet 0 1 = 1 → s.queued w < 64 → x.log = false →
       nextWith (exec (.inboundLaunchRequest node sw st w tenant packet) s) (fun t =>
         t.outbox.getLast? = some (.launchAnswer node sw st 0) ∧ t.threads = s.threads ∧ t.hostMem = s.hostMem)))

/-- R20, R106, R274 and R277: the admission unit examines its next submission: the image is sealed and its verdict says
ADMITTED, or is forgotten and its verdict says REJECTED with the rule. -/
def Obligations.AdmissionVerdict : Prop :=
  ∀ (s : State) (e : Submission) (im : Image),
    let u : State := { s with subs := s.subs.filter (fun x => x.order != e.order), admLast := e.world }
    let v := e.verdict
    let said (status : Nat) (t : State) : Prop :=
      s.unsealed e.world → s.windowsClosed e.world → s.recordsFree e.world → v % 64 = 0 → (s.devAddr e.world v).isSome = true →
        t.devNat e.world v 1 = status ∧
          ∀ f, u.examine im = .error f → f.off < 2 ^ 32 → f.rule < 256 → t.devNat e.world (v + 44) 1 = f.rule
    s.nextSub = some e → tget s.images e.order = some im → s.awaiting im = [] → s.keys e.world = none →
    (∀ i', u.examine im = .ok i' → nextWith (exec .admission s) (fun t => tget t.images e.order = some i' ∧
      t.subs = u.subs ∧ t.threads = s.threads ∧ said 1 t)) ∧
    (∀ f, u.examine im = .error f → nextWith (exec .admission s) (fun t => tget t.images e.order = none ∧
      t.subs = u.subs ∧ t.threads = s.threads ∧ said 2 t))

/-- R389 to R393: a launch descriptor is sent with its packet, one for a reduction waits to be sent with its data, and
a launch's answer is recorded with its code; a peer's loss ends its launch requests with STATUS 2. That an FQ_NOTIFY
which is misaligned and finds the queue full sets the address bit alone (log 79), and when a request leaves (log 81),
are the model's choices. R394 and R395: the first contribution of a reduction opens its instance, and the outcome kept
of the one before it in its group goes; the last gives the sum in member order, which is delivered to each member's
destination; one that disagrees, or comes after the instance's time, makes the instance fail, as do the end of that
time and the loss of a member's node. Who counts in an instance, and what a contribution finds after its time, are the
model's readings (log 81); so is the STATUS 2 of a member whose destination has come to be read-only (log 14). -/
def Obligations.FabricSteps : Prop :=
  (∀ (w : Nat) (a : DWord) (req : Nat) (code : DWord) (d : FabDesc) (node : Nat) (s : State),
     let x := s.world w
     let at_ := a.toNat
     let b := s.devReads w at_ 64
     let tenant : Nat := natAt b 1 1
     let src := natAt b 16 8
     let errs (bit : BitVec 2) : Prop := nextWith (exec (.fqNotify w a) s) (fun t => OnlyWorld w s t ∧
       t.world w = { x with fqNotify := a, fqerr := x.fqerr ||| bit })
     let told (d : FabDesc) (status mask : Nat) (t : State) : Prop := d.compl % 32 = 0 →
       (s.devAddr d.world d.compl).isSome = true → s.unsealed d.world → s.windowsClosed d.world → s.completionFree d.world →
         t.devNat d.world d.compl 8 = status ∧ t.devNat d.world (d.compl + 8) 8 = mask
     (x.takes = false → exec (.fqNotify w a) s = .next s) ∧
     (x.takes = true → at_ % 64 ≠ 0 ∨ s.devRange w at_ 64 = false → errs 1) ∧
     (x.takes = true → at_ % 64 = 0 → s.devRange w at_ 64 = true → 64 ≤ (s.fabric.filter (fun e => e.2.world == w)).length →
       errs 2) ∧
     (∀ p : Peer, s.peer w tenant (natAt b 4 2) = some p → x.takes = true → at_ % 64 = 0 → s.devRange w at_ 64 = true →
       s.claimedRange w at_ 64 = false → (s.fabric.filter (fun e => e.2.world == w)).length < 64 → s.keys w = none →
       let r := readDesc w b (some p)
       descOk b r = true → natAt b 40 8 % 32 = 0 → s.devRange w (natAt b 40 8) 32 = true →
       (r.reduction = false → p.launch = true → s.devCovered w tenant src 64 true false = true → s.claimedRange w src 64 = false →
         s.sendTurn s.nextId r = true →
         nextWith (exec (.fqNotify w a) s) (fun t => t.hbm = s.hbm ∧
           t.outbox = s.outbox ++ [.launchRequest s.nextId p.node p.world p.remote (s.devReads w src 64)] ∧
           t.fabric = s.fabric ++ [(s.nextId, { r with data := s.devReads w src 64, sent := true })])) ∧
       (r.reduction = true → p.reduce = true → s.devCovered w tenant src (4 * r.count) true false = true →
         s.devCovered w tenant r.dst (4 * r.count) false true = true → s.claimedRange w src (4 * r.count) = false →
         nextWith (exec (.fqNotify w a) s) (fun t => t.hbm = s.hbm ∧ t.outbox = s.outbox ∧
           t.fabric = s.fabric ++ [(s.nextId, { r with data := s.devReads w src (4 * r.count), sent := false })]))) ∧
     (tget s.fabric req = some d → d.reduction = false → d.sent = true →
       nextWith (exec (.launchRequestAcknowledgement req code) s) (fun t => tget t.fabric req = none ∧ told d 1 code.toNat t)) ∧
     (tget s.fabric req = some d → d.reduction = false → d.sent = false →
       exec (.launchRequestAcknowledgement req code) s = .next s) ∧
     (s.fabric = [(req, d)] → d.node = node → d.reduction = false →
       (∀ e ∈ s.reductions, ∀ c ∈ e.2.contribs, c.node ≠ node ∨ c.request.isSome = true) →
       nextWith (exec (.peerUnreachable node) s) (fun t => t.fabric = [] ∧ t.reductions = s.reductions ∧ told d 2 0 t))) ∧
  (∀ (k : Contribution) (inst node req : Nat) (d : FabDesc) (r : Reduction) (s : State),
     let told (d : FabDesc) (status mask : Nat) (t : State) : Prop := d.compl % 32 = 0 →
       (s.devAddr d.world d.compl).isSome = true → s.unsealed d.world → s.windowsClosed d.world → s.completionFree d.world →
         t.devNat d.world d.compl 8 = status ∧ t.devNat d.world (d.compl + 8) 8 = mask
     let fails (status mask : Nat) (t : State) : Prop := (tget t.reductions inst).map (·.outcome) = some (some (status, mask))
     let arrives : Prop := ∀ id, k.request = some id → ∃ d, tget s.fabric id = some d ∧ d.sent = false ∧
       k = d.contribution id s.node.toNat ∧ s.sendTurn id d = true
     let sent : Table FabDesc := match k.request with
       | some id => tmod s.fabric id (fun d => { d with sent := true })
       | none => s.fabric
     let agrees : Prop := ∀ c ∈ r.contribs,
       c.op = k.op ∧ c.fmt = k.fmt ∧ c.count = k.count ∧ c.nmemb = k.nmemb ∧ c.midx ≠ k.midx
     let all := r.contribs ++ [k]
     let bytes := 4 * r.result.length
     (∀ id, k.request = some id → tget s.fabric id = none → exec (.reductionContribution k) s = .next s) ∧
     (arrives → s.reduction? k.world k.tenant k.group k.seq = none →
       nextWith (exec (.reductionContribution k) s) (fun t =>
         t = { s with nextId := s.nextId + 1, fabric := sent, reductions := t.reductions } ∧
         ∀ e, e ∈ t.reductions ↔ e = (s.nextId, ⟨k.world, k.tenant, k.group, k.seq, [k], s.now, none, [], []⟩) ∨
           (e ∈ s.reductions ∧ ¬ (e.2.group = k.group ∧ (e.2.seq + 1) % 2 ^ 32 = k.seq ∧ e.2.outcome.isSome = true ∧
             s.joins k.world k.tenant e.2 = true)))) ∧
     (arrives → s.reduction? k.world k.tenant k.group k.seq = some (inst, r) → r.outcome = none → r.result = [] →
       (s.now ≤ r.start + r.limit → agrees → all.length < k.nmemb → nextWith (exec (.reductionContribution k) s) (fun t =>
         t = { s with fabric := sent, reductions := tset s.reductions inst { r with contribs := all } })) ∧
       (s.now ≤ r.start + r.limit → agrees → all.length = k.nmemb → ∀ c l, (c :: l).Perm all →
         (c :: l).map (·.midx) = List.range k.nmemb → nextWith (exec (.reductionContribution k) s) (fun t =>
           let owed := (all.filter (fun c => c.request.isSome)).map (·.midx)
           let sum := (List.range k.count).map (fun i =>
             l.foldl (fun v c => reduceStep k.fmt k.op v (c.data.getD i 0)) (c.data.getD i 0))
           t = { s with fabric := sent, reductions := if owed = [] then tdel s.reductions inst
                   else tset s.reductions inst { r with contribs := all, result := sum, owed := owed } })) ∧
       (s.now ≤ r.start + r.limit → ¬ agrees → nextWith (exec (.reductionContribution k) s)
         (fails 6 { r with contribs := all }.mask)) ∧
       (r.start + r.limit < s.now → nextWith (exec (.reductionContribution k) s) (fails 3 r.mask))) ∧
     (tget s.reductions inst = some r → r.member k.midx = some k → k.request = some req → tget s.fabric req = some d →
       k.midx ∈ r.owed → k.nmemb ≤ 64 →
       (s.sealedByte d.world d.dst bytes = none → s.claimedRange d.world d.dst bytes = false →
         (s.world d.world).log = false → (s.world d.world).mig.active ≠ 1 → (s.world d.world).mig.waiting = [] →
         nextWith (exec (.reductionDelivery inst k.midx) s) (fun t => tget t.fabric req = none ∧ t.hostMem = s.hostMem ∧
           (r.owed = [k.midx] → tget t.reductions inst = none) ∧
           (r.owed.erase k.midx ≠ [] → tget t.reductions inst = some { r with owed := r.owed.erase k.midx }) ∧
           (s.unsealed d.world → s.windowsClosed d.world →
             (∀ i < bytes, (s.devAddr d.world (d.dst + i)).isSome = true ∧
               (∀ j < bytes, s.devAddr d.world (d.dst + i) = s.devAddr d.world (d.dst + j) → i = j) ∧
               ∀ j < 32, s.devAddr d.world (d.dst + i) ≠ s.devAddr d.world (d.compl + j)) →
             (∀ i (hi : i < r.result.length), t.devNat d.world (d.dst + 4 * i) 4 = r.result[i].toNat) ∧
             told d 1 (2 ^ k.nmemb - 1) t))) ∧
       ((s.sealedByte d.world d.dst bytes).isSome = true → nextWith (exec (.reductionDelivery inst k.midx) s) (fun t =>
         tget t.fabric req = none ∧ told d 2 r.mask t))) ∧
     (tget s.reductions inst = some r → r.outcome = none → r.result = [] → r.start + r.limit ≤ s.now →
       nextWith (exec (.reductionTimeout inst) s) (fun t => fails 3 r.mask t ∧
         ∀ c ∈ r.contribs, ∀ q, c.request = some q → tget t.fabric q = none)) ∧
     (tget s.reductions inst = some r → s.now < r.start + r.limit → exec (.reductionTimeout inst) s = .next s) ∧
     (s.fabric = [] → s.reductions = [(inst, r)] → r.outcome = none → r.result = [] →
       (∃ c ∈ r.contribs, c.request = none ∧ c.node = node) → nextWith (exec (.peerUnreachable node) s) (fails 2 r.mask)))

/-- R324 to R326 and R411: a write to MDST starts a mode-0 migration of a mapped page to an aligned frame, and is refused where it may
not; the switch moves the page's bytes to the frame, encrypted as they were, and the world reads there what it read before; a
migration is done when the writes that waited have been made and the last request that used the old tiles has finished. What a
frame must be (log 47), and that a write while a migration runs is refused (log 53), are the model's readings. -/
def Obligations.PageMigration : Prop :=
  ∀ (w f : Nat) (dst : DWord) (s : State),
    let x := s.world w
    let m := x.mig
    let goes (i : Instr) (y : Migration) : Prop := nextWith (exec i s) (fun t => t.world w = { x with mig := y } ∧ OnlyWorld w s t)
    let refused : Prop := goes (.migrationStart w dst) { m with dst := dst, state := 3 }
    let apart (a b : Nat) : Prop := a + 2097152 ≤ b ∨ b + 2097152 ≤ a
    (m.state = 1 ∨ m.active ≠ 0 → refused) ∧
    (m.state ≠ 1 → m.active = 0 → m.mode = false → s.devAddr w m.src.toNat = none → refused) ∧
    (m.state ≠ 1 → m.active = 0 → m.mode = true → s.migRecord w m.src.toNat = none → refused) ∧
    (m.state ≠ 1 → m.active = 0 → m.mode = false → s.devAddr w m.src.toNat = some f →
      (m.src.toNat % 2097152 = 0 → dst.toNat % 2097152 = 0 → dst.toNat + 2097152 ≤ 2 ^ 39 → apart f dst.toNat →
        s.othersFrame w dst.toNat = false → goes (.migrationStart w dst)
        { m with dst := dst, state := 1, active := 1, amode := false, asrc := m.src.toNat, adst := dst.toNat, readers := [] }) ∧
      (m.src.toNat % 2097152 ≠ 0 ∨ dst.toNat % 2097152 ≠ 0 ∨ 2 ^ 39 < dst.toNat + 2097152 ∨ ¬ apart f dst.toNat ∨
        s.othersFrame w dst.toNat = true → refused)) ∧
    (m.active = 1 → m.amode = false → m.asrc % 2097152 = 0 → s.devAddr w m.asrc = some f → f % 512 = 0 → m.adst % 512 = 0 →
      m.adst + 2097152 ≤ 2 ^ 39 → apart f m.adst →
      nextWith (exec (.migrationSwitch w) s) (fun t =>
        (t.world w).mig = { m with state := if m.waiting = [] then 2 else 1, active := if m.waiting = [] then 0 else 2 } ∧
        t = { s with worlds := t.worlds, hbm := t.hbm, seals := t.seals, devTab := t.devTab, owners := t.owners } ∧
        tget t.owners (m.adst / 2097152) = some w ∧
        (∀ a, a / 2097152 = m.asrc / 2097152 → t.devByte w a = s.devByte w a ∧
          t.devAddr w a = some (m.adst + a % 2097152)) ∧
        (∀ v a, v ≠ w ∨ a / 2097152 ≠ m.asrc / 2097152 → t.devAddr v a = s.devAddr v a) ∧
        (∀ p, p < m.adst ∨ m.adst + 2097152 ≤ p → t.hbm.read p = s.hbm.read p))) ∧
    (let used : Prop := m.waiting ≠ [] ∨ (∃ e ∈ s.copies, e.1 ∈ m.readers) ∨ (∃ e ∈ s.bankOps, e.1 ∈ m.readers) ∨
       (∃ e ∈ s.drains, e.1 ∈ m.readers)
     (m.active = 2 → ¬ used → goes (.migrationDone w) { m with state := 2, active := 0, readers := [] }) ∧
     (m.active ≠ 2 ∨ used → exec (.migrationDone w) s = .next s))

/-! The dispatcher and the selector. -/

/-- R31, R37, R341, R351 and R354: the first waiting launch that fits has its next cluster placed, with its teams; a team
that waits on its core starts, with its argument words, its threads at the entry block and its whole reservation. -/
def Obligations.PlacementAndStart : Prop :=
  ∀ (s : State) (p w id slot core team : Nat) (l : Launch) (rest : List (Nat × Launch)) (i : Image) (cores : List Nat)
    (units : List (List Nat)) (s' : State) (u : Team) (pl : Place) (b : Block),
    ((∀ j < 16, (s.slot p j).state ≠ 6) → s.roundRobin p = [w] → s.dispatchOrder w = (id, l) :: rest → s.imageOf l = some i →
      s.findRoom l i = some (cores, units) → s.findSlot l = some (slot, s') → s'.slotTakes l.part slot cores = true →
      nextWith (exec (.placement p) s) (fun t => t.hbm = s.hbm ∧ t.hostMem = s.hostMem ∧ t.threads.length = s.threads.length ∧
        (∃ c, t.clusters = s.clusters ++ [(s.nextId, c)] ∧ c.launch = id ∧ c.cx = l.placed % l.gx ∧
          c.cy = l.placed / l.gx % l.gy ∧ c.cz = l.placed / l.gx / l.gy ∧ c.origin = cores.headD 0 ∧ c.near = .empty ∧ c.col = .empty ∧
          c.set = [] ∧ c.teams = (List.range l.tpc).map (fun k => s.nextId + 1 + k)) ∧
        t.nextId = s.nextId + 1 + l.tpc ∧ (tget t.launches id).map (fun m => (m.placed, m.slot)) = some (l.placed + 1, slot) ∧
        (t.slot l.part slot).bound = true ∧ (t.slot l.part slot).world = l.world)) ∧
    ((∀ j < 16, (s.slot p j).state ≠ 6) → (∀ k ∈ s.roundRobin p, s.dispatchOrder k = []) →
      exec (.placement p) s = .next s) ∧
    (s.teams = [(team, u)] → s.place team = some pl → u.home = core → u.mres = none → u.ended = false → u.stopped = false →
      u.started = false → pl.cluster.saved = false → s.bankBases pl ≠ [] →
      s.wbufBases pl ≠ [] → pl.image.blocks[pl.launch.entry]? = some b →
      nextWith (exec (.teamStart core) s) (fun t => t.hbm = s.hbm ∧ t.hostMem = s.hostMem ∧ t.clusters = s.clusters ∧
        t.threads = s.threads ++ (List.range pl.launch.threads).map (fun k => (tkey team k, Thread.start (.waiting b.off))) ∧
        ∃ v x y, x ∈ s.bankBases pl ∧ y ∈ s.wbufBases pl ∧ t.teams = [(team, v)] ∧
          v = { u with started := true, mres := some ⟨x, pl.image.accBanks, y, pl.image.wbuf⟩, s := v.s } ∧
          ∀ k (hk : k < 1024), v.s[k] = pl.launch.args.getD k 0))

/-- R279 to R281, R285, R287 and R307: a core with a free slot and one candidate opens a pass of its waiters, which enter the
block with their registers and have their watchdog counted; a group that has ended its block is written back: what the
block wrote and its successor lists enters the store, and its threads wait at the successor. -/
def Obligations.SelectionAndWriteBack : Prop :=
  ∀ (s : State) (core team tid off o pid gid : Nat) (c : Choice) (u : Thread) (pl : Place) (b : Block) (ps : Pass) (g : Group),
    (s.choices core = ([], [c]) → (s.passes.filter (fun e => e.2.core == core)).length < 4 → c.uniform = false →
      c.resume = false → c.team = team → c.tids = [tid] → c.place.launch.wdog = 0 → s.thread team tid = some u →
      nextWith (exec (.selection core) s) (fun t => t.hbm = s.hbm ∧ t.hostMem = s.hostMem ∧
        t.passes = s.passes ++ [(s.nextId, ⟨core, team, c.off, false, false, [(0, Group.formed [tid] c.off)]⟩)] ∧
        ∃ v, t.thread team tid = some v ∧ v.st = .inPass s.nextId ∧ v.win.x = u.x ∧ v.win.k = u.k ∧
          v.win.o = Vector.replicate 8 0 ∧ v.wdcnt = (if u.wdcnt = 0xFFFFFFFF then u.wdcnt else u.wdcnt + 1))) ∧
    (s.choices core = ([c], []) → (s.passes.filter (fun e => e.2.core == core)).length < 4 → c.uniform = true →
      c.resume = false → nextWith (exec (.selection core) s) (fun t => t.hbm = s.hbm ∧ t.hostMem = s.hostMem ∧
        t.passes = s.passes ++ [(s.nextId, ⟨core, c.team, c.off, true, false, [(0, Group.formed [] c.off)]⟩)])) ∧
    (s.choices core = ([], []) → exec (.selection core) s = .next s) ∧
    (4 ≤ (s.passes.filter (fun e => e.2.core == core)).length → exec (.selection core) s = .next s) ∧
    (s.passes = [(pid, ps)] → ps.team = team → ps.uniform = false → ps.groups = [(gid, g)] → g.lanes = [tid] → g.done = true →
      s.place team = some pl → s.thread team tid = some u → u.leave = some (.goto o) → pl.image.entryAt o = some b →
      nextWith (exec (.writeBack pid gid) s) (fun t => t.passes = [] ∧ t.hbm = s.hbm ∧ t.hostMem = s.hostMem ∧
        t.waves = s.waves ∧ t.teams = s.teams ∧ ∃ v, t.thread team tid = some v ∧ v.st = .waiting o ∧ v.leave = none ∧
          ∀ r (hr : r < 64), v.x[r] = if u.win.wroteX.getLsbD r = true ∧
            (∃ e ∈ b.live, e.reg = .x r ∨ (e.type.pair = true ∧ 0 < r ∧ e.reg = .x (r - 1))) then u.win.x[r] else u.x[r]))

/-- R22, R43, R163, R302, R339, R366 and R405: a team whose threads are gone and whose work is done ends and gives up its
reservation; a cluster whose teams have ended leaves, and the launch's last has its completion record written; a bin that
expires makes its candidate due; a sleeper of a context that runs wakes when its time has come; a service's reply reaches the
registers that wait for it, and one with a reserved bit is refused (log 78). -/
def Obligations.EndsAndWakes : Prop :=
  ∀ (s : State) (core team tid off wake cl call r : Nat) (p : Place) (u : Thread) (c : Cluster) (l : Launch) (m : Team)
    (k : SvcCall) (age : Nat) (vec : Bool),
    (s.place team = some p → p.team.started = true → p.team.ended = false → p.cluster.saved = false → p.launch.killed = false →
      s.liveCount team = 0 → s.teamBusy team = false → p.team.set = [] → nextWith (exec (.teamEnd team) s) (fun t =>
        t.hbm = s.hbm ∧ t.hostMem = s.hostMem ∧
        (tget t.teams team).map (fun m => (m.ended, m.mres)) = some (true, none) ∧
        (tget t.launches p.team.launch).map (·.teams) = some (p.launch.teams + 1) ∧ ∀ e ∈ t.waves, e.1 / 256 ≠ team)) ∧
    (tget s.clusters cl = some c → tget s.teams c.emptied = some m → m.cluster = cl → m.mwait = 0 →
      tget s.launches c.launch = some l → c.saved = false → l.killed = false →
      (∀ q ∈ c.teams, ∃ m', tget s.teams q = some m' ∧ m'.ended = true) → s.pends = [] → s.copies = [] → s.drains = [] →
      c.set = [] → nextWith (exec (.clusterRelease cl) s) (fun t =>
        tget t.clusters cl = none ∧ (∀ q ∈ c.teams, tget t.teams q = none) ∧ t.hostMem = s.hostMem ∧
        (l.gx * l.gy * l.gz ≠ l.placed ∨ l.placed ≠ l.released + 1 → t.hbm = s.hbm ∧
          (tget t.launches c.launch).map (·.released) = some (l.released + 1)) ∧
        (l.gx * l.gy * l.gz = l.placed → l.placed = l.released + 1 → tget t.launches c.launch = none ∧
          (s.unsealed l.world → s.windowsClosed l.world → s.completionFree l.world → l.compl % 32 = 0 →
            (s.devAddr l.world l.compl).isSome = true → t.devNat l.world l.compl 1 = if l.stops = 0 ∧ l.eclass = 0 then 1 else 2)))) ∧
    (s.place team = some p → p.onCores = true → s.cands = [⟨core, team, off, false, age, true, vec⟩] → exec (.binExpiry core team off) s =
      .next { s with cands := [⟨core, team, off, false, max age (if p.launch.amax = 0 then 16 else p.launch.amax), false, vec⟩] }) ∧
    (s.thread team tid = some u → s.place team = some p → u.st = .blocked off (.sleep wake) → p.cluster.saved = false →
      (wake ≤ s.worldTime p.launch.world → (s.slotOf p.launch).runs = true → s.goes p.launch.world = true →
        nextWith (exec (.sleepWake team tid) s) (fun t => t.hbm = s.hbm ∧ t.teams = s.teams ∧ (t.thread team tid).map (·.st) = some (.waiting off))) ∧
      (s.worldTime p.launch.world < wake → exec (.sleepWake team tid) s = .next s)) ∧
    (let v := s.hbmNat (k.record + 24) 8
     tget s.calls call = some k → k.dst = [.s r, .s (r + 1)] → r + 1 < 1024 → tget s.teams k.team = some m →
      (∀ q, s.place k.team = some q → q.cluster.saved = false) → (∀ w, s.windowsClosed w) → s.seals = [] →
      k.record + 32 ≤ 2 ^ 39 → (v = 0 ∨ 2 ^ 40 ≤ v → exec (.serviceReply call) s = .next s) ∧
      (v ≠ 0 → v < 2 ^ 40 → nextWith (exec (.serviceReply call) s) (fun t => tget t.calls call = none ∧ t.hostMem = s.hostMem ∧
        (∀ o, k.record ≤ o → o < k.record + 32 → t.hbm.read o = 0) ∧
        (∀ o, o < k.record ∨ k.record + 32 ≤ o → t.hbm.read o = s.hbm.read o) ∧
        t.holds (.uniform k.team) [(.s r, 0), (.s (r + 1), BitVec.ofNat 32 v)] ∧
        t.pendBit (.uniform k.team) (.s r) = false ∧ t.pendBit (.uniform k.team) (.s (r + 1)) = false)))

/-! The whole machine: fetching, decoding, issuing, and what every step keeps. -/

/-- R66, R71 and R412: a step moves what its turn names. Where a group is about to issue, and the 16 bytes at its address of the
image's code section start with the encoding of an instruction, the step is that instruction's effect and then what follows
every step: the clock goes on, what waits is settled, and the next turn is chosen (log 3). Its tiles are filled before; one with a
wrong tag gives no instruction (R412). -/
def Obligations.StepRunsTheDecodedWord : Prop :=
  ∀ (s : State),
    let runs (u : State) (i : Instr) : Prop := (∀ t, exec i u = .next t → step s = .next t.after) ∧
      (∀ f, exec i u = .fault f → step s = .fault f) ∧ (∀ r, exec i u = .refused r → step s = .refused r)
    (∀ h i rest u, s.here = some h → h.group.off < h.place.image.codeLen → s.fetched = (true, u) →
      decode ((List.range 16).map (fun k => u.devByte h.place.image.world (h.place.image.code + h.group.off + k))) =
        .ok (i, rest) → runs u i) ∧
    (∀ h, s.here = some h → s.keys h.place.image.world = none → s.fetched = (true, s)) ∧
    (∀ p g u, s.turn = .issue p g → s.fetched = (false, u) → step s = .next u.after) ∧
    (∀ i, s.turn = .event i → runs s i) ∧
    (s.turn = .idle → step s = .next s.after) ∧
    (∀ p g u, s.turn = .issue p g → s.fetched = (true, u) → u.fetch = none → step s = .fault .noInstruction) ∧
    s.after = s.tick.settle.settleSurge.settleResets.settleDeps.settleDues.settleSends.settleAnswers.settleBreaks.settleChans.settleDark.settleStart.settleWriters.schedule

/-- R72 to R80, R205: the words that the spec writes out field by field decode to the instructions they stand for, and those
instructions encode to them: at least one of every family. -/
def Obligations.WordsOfTheSpec : Prop :=
  let c : Ctl := ⟨.w64, .always, 0⟩
  let is (m : Form) (w : Nat) (i : Instr) : Prop :=
    decode (bytesOfNat m.bytes w) = .ok (i, []) ∧ encode i = some (bytesOfNat m.bytes w)
  is .w64 0x0004A2512894E000 (.nop c) ∧
  is .w64 0x0024A0281006E404 (.add ⟨.w64, .always, 1⟩ false .i32 (.x 3) (.x 4) (.x 5)) ∧
  is .w96 0x000000000004A6100C0CE449 (.shl ⟨.w96, .always, 1⟩ .b32 (.x 6) (.x 3) (.small 66)) ∧
  is .w96 0x000100000024AFF8180EE405 (.add ⟨.w96, .always, 1⟩ false .i32 (.x 7) (.x 6) (.imm 0x00010000)) ∧
  is .w64 0x046E00240010E88C (.lea ⟨.w64, .always, 2⟩ 2 .i64 (.x 8) (.s 0) (.x 4) (.small 96)) ∧
  is .w64 0x144010401002E478 (.cmp ⟨.w64, .always, 1⟩ .lt (.and 1) .n32 1 (.x 4) (.x 8)) ∧
  is .w64 0x5904A018080AF0FC (.cvt ⟨.w64, .always, 4⟩ .rn true .f16x2 .f32 (.x 5) (.x 2) (.x 3)) ∧
  is .w64 0x0204A63128952140 (.br ⟨.w64, .k 1 true, 0⟩ true .zero (.small 6)) ∧
  is .w64 0x0604A2501404E164 (.bwait c 3 (some 2) (.x 5)) ∧
  is .w64 0x0004A2512894E150 (.exit c) ∧
  is .w64 0x004C0250300EE180 (.ld c .n32 (.x 7) (.x 12) (.small 64)) ∧
  is .w64 0x002D062C0094E184 (.st c .i32 (.s 0) (.small 69) (.small 80)) ∧
  is .w64 0x0A4BC0002094E194 (.chk c .le .n32 (.x 8) (.len 0) (.small 60)) ∧
  is .w64 0x062C060C0094E1A8 (.red c .add .d .i32 (.s 0) (.small 65) (.small 64)) ∧
  is .w64 0x0004A2512894E198 (.commit c .w) ∧
  is .w64 0x0404A2512894E198 (.commit c .c) ∧
  is .w64 0x0604A2541214E1AC (.lkacq c .d (.s 10) (.s 4)) ∧
  is .w128 0x00000000000080C310AC060C1094E226
    (.qst ⟨.w128, .always, 0⟩ ⟨0, true⟩ false (.s 4) (.small 65) (.small 64) .bx8 false false true 1 8) ∧
  is .w64 0x01C4A2512808E290 (.time c (.x 4)) ∧
  is .w96 0x000003E80004A257FC94E2A5 (.sleep ⟨.w96, .always, 0⟩ (.imm 1000)) ∧
  is .w64 0x01C4A2512A14E294 (.publish c 0 (.s 10))

/-- R72 to R80, R110, R127, R132, R153, R177, R204, R205 and R242: every well-formed instruction word has an encoding as long
as its form, which decodes to it, whatever bytes follow. -/
def Obligations.EncodedWordsDecode : Prop :=
  ∀ (i : Instr) (c : Ctl), i.ctl? = some c → i.wf = true →
    ∃ l, encode i = some l ∧ l.length = c.form.bytes ∧ ∀ rest, decode (l ++ rest) = .ok (i, rest)

/-- R66, R72 and R88: what the decoder reads is an instruction word that is well formed, and its encoding is the bytes it was
read from: no two instructions share a word, and no bit of a word is dropped. -/
def Obligations.DecodedWordsEncode : Prop :=
  ∀ (l rest : List Byte) (i : Instr), decode l = .ok (i, rest) →
    i.wf = true ∧ i.ctl?.isSome = true ∧ ∃ m, encode i = some m ∧ l = m ++ rest

/-- R77, R78, R83, R84, R127 and R428: a word waits, with no effect, while a register it reads or writes is pending in any lane of
its group; a word of a form that is not legal in its kind of block is never run (log 11); and under strict stalls on a
revision-1 image a word too close behind a producer takes trap 0x05, with the producer's offset. -/
def Obligations.PendingAndUndersizedWords : Prop :=
  ∀ (i : Instr) (c : Ctl) (s : State) (h : Here), i.ctl? = some c → s.here = some h →
    let regs := Instr.readsRegs h.pair h.pair2 i ++ i.writesRegs ++ h.indexed i s true
    let w := h.place.launch.world
    let slot := s.trapSlot w
    (i.formOk h.pass.uniform = false → exec i s = .fault .notAdmitted) ∧
    (i.formOk h.pass.uniform = true → ∀ a ∈ h.agents, ∀ r ∈ regs, s.pendBit a r = true → exec i s = .next s) ∧
    (i.formOk h.pass.uniform = true → h.waits i s = false → h.place.launch.sstall = true →
      h.place.image.latrev1 = true → ∀ p team tid, h.group.prods = [p] → p.reg ∈ regs → h.group.dist < p.dist + p.lat →
      Alone h c s (.thread team tid) → h.group.lanes = [tid] → nextWith (exec i s) (fun t => t.thread team tid = none ∧
        (s.ringFree w → h.place.team.locks = [] → p.off < 2 ^ 64 →
          t.devNat w slot 1 = 5 ∧ t.devNat w (slot + 8) 4 = h.group.off % 2 ^ 32 ∧ t.devNat w (slot + 32) 8 = p.off)))

/-- R287, R359, R362 and R366: after every step, a group whose turn it is to issue stands in a pass of the machine, has not
ended its block, and belongs to a cluster that is on its cores and to a context that is Active, or Requested, or is Forced
while its team finishes a merge that has begun: halted, saved, killed and empty contexts never issue. That the machine is idle only
where nothing may happen and nothing is asked is the model's own choice of turns (log 3). And every memory, of HBM, of the host, of
each cluster and of each thread, keeps its canonical form: addresses rise, and no byte that is listed is what an unlisted one reads. -/
def Obligations.OnlyRunningContextsIssue : Prop :=
  ∀ s t, s.turnOk → step s = .next t → t.turnOk ∧ Memory.wf t.hbm.val = true ∧ Memory.wf t.hostMem.val = true ∧
    (∀ e ∈ t.clusters, Memory.wf e.2.near.val = true ∧ Memory.wf e.2.col.val = true) ∧
    ∀ e ∈ t.threads, Memory.wf e.2.loc.val = true

/-- R359, R421 and R422: the state after reset. Nothing runs, no memory byte is listed, and every byte reads 0; no context
slot is bound; no image is admitted; no core is throttled; the limits of temperature are 115 and 100 degrees; and what
OnlyRunningContextsIssue keeps holds. That the machine comes out of reset with its start done (log 1), and that host memory lists
nothing (log 7), are the model's choices. -/
def Obligations.ResetState : Prop :=
  let s := State.reset
  s.turnOk ∧ s.turn = .idle ∧ s.turns = [] ∧ s.inputs = [] ∧ s.held = [] ∧ s.hbm = .empty ∧ s.seals = [] ∧ s.hostMem = .empty ∧ (∀ a, s.hbm.read a = 0) ∧
  s.threads = [] ∧ s.teams = [] ∧ s.images = [] ∧ s.launches = [] ∧ s.pends = [] ∧
  (∀ p i, (s.slot p i).bound = false ∧ (s.slot p i).state = 0) ∧ (∀ w, (s.world w).valid = false ∧ (s.world w).state = 0) ∧
  s.throt = [] ∧ s.power.tcrit = 115 ∧ s.power.ttrot = 100 ∧ s.power.trip = false ∧ s.power.fails = 0
end

