-- ==== Sys2Proof/Laws/Alike.lean ====
section
/-! SUPPORT. States that differ in no more than what an instruction's issue keeps of its own (State.alike) read device memory
and tensor records alike, and a record check leaves them alike. -/

namespace Sys2Proof.Machine

theorem readRec_alike {s u : State} (h : s.alike u) (w a : Nat) : u.readRec w a = s.readRec w a := by rw [h]; rfl

theorem devByte_alike {s u : State} (h : s.alike u) (w a : Nat) : u.devByte w a = s.devByte w a := by rw [h]; rfl

theorem devNat_alike {s u : State} (h : s.alike u) (w a n : Nat) : u.devNat w a n = s.devNat w a n := by rw [h]; rfl

theorem devRange_alike {s u : State} (h : s.alike u) (w a n : Nat) : u.devRange w a n = s.devRange w a n := by rw [h]; rfl

theorem devCovered_alike {s u : State} (h : s.alike u) (w t a n : Nat) (rd wr : Bool) :
    u.devCovered w t a n rd wr = s.devCovered w t a n rd wr := by rw [h]; rfl

theorem tileBit_alike {s u : State} (h : s.alike u) (w febase i : Nat) : u.tileBit w febase i = s.tileBit w febase i := by
  rw [h]; rfl

theorem recs_alike {s u : State} (h : s.alike u) : u.recs = s.recs := by rw [h]

/-- A change of the records alone keeps states alike. -/
theorem withRecs_alike {s u : State} (h : s.alike u) (l : List RecCache) :
    State.alike { s with recs := l } { u with recs := l } := by rw [h]; rfl

theorem keys_alike {s u : State} (h : s.alike u) (w : Nat) : u.keys w = s.keys w := by rw [h]; rfl

theorem seals_alike {s u : State} (h : s.alike u) : u.seals = s.seals := by rw [h]

theorem free_alike {s u : State} (h : s.alike u) : u.free = s.free := by rw [h]

theorem devAddr_alike {s u : State} (h : s.alike u) (w a : Nat) : u.devAddr w a = s.devAddr w a := by rw [h]; rfl

theorem ivOf_alike {s u : State} (h : s.alike u) (w a : Nat) : u.ivOf w a = s.ivOf w a := by rw [h]; rfl

theorem sealedBy_alike {s u : State} (h : s.alike u) (w : Nat) (iv : Iv) (p : Nat) :
    u.sealedBy w iv p = s.sealedBy w iv p := by rw [h]; rfl

theorem rawBytes_alike {s u : State} (h : s.alike u) (p n : Nat) : u.rawBytes p n = s.rawBytes p n := by rw [h]; rfl

theorem world_alike {s u : State} (h : s.alike u) (w : Nat) : u.world w = s.world w := by rw [h]; rfl

theorem hbm_alike {s u : State} (h : s.alike u) : u.hbm = s.hbm := by rw [h]

theorem openByte_alike {s u : State} (h : s.alike u) (w : Nat) (iv : Iv) (p : Nat) :
    u.openByte w iv p = s.openByte w iv p := by rw [h]; rfl

/-- A change of HBM and its seals alone keeps states alike. -/
theorem withTile_alike {s u : State} (h : s.alike u) (m : Mem) (l : List (Nat × Seal)) :
    State.alike { s with hbm := m, seals := l } { u with hbm := m, seals := l } := by rw [h]; rfl

/-- The tile that a world takes over is the same one in states alike. -/
theorem takeTile_alike {s u : State} (h : s.alike u) (w : Nat) (iv : Iv) (p : Nat) :
    (s.takeTile w iv p).alike (u.takeTile w iv p) := by
  simp only [State.takeTile, keys_alike h, sealedBy_alike h, seals_alike h, hbm_alike h, openByte_alike h]
  split <;> split
  · exact h
  · exact withTile_alike h ..
  · exact h
  · exact withTile_alike h ..

theorem startDark_alike {s u : State} (h : s.alike u) (w c : Nat) : (s.startDark w c).alike (u.startDark w c) := by
  simp only [State.startDark, world_alike h]
  split
  · exact h
  · rw [h]; rfl

/-- The same verdict, and states alike. -/
def sameFill (e e' : Bool × State) : Prop := e'.1 = e.1 ∧ e.2.alike e'.2

theorem sameFill_ite {p : Prop} [Decidable p] {a b a' b' : Bool × State} (h : sameFill a a') (h' : sameFill b b') :
    sameFill (if p then a else b) (if p then a' else b') := by
  split
  · exact h
  · exact h'

theorem tagFits_alike {s u : State} (h : s.alike u) (k : WorldKeys) (w : Nat) (iv : Iv) (p : Nat) :
    sameFill (s.tagFits k w iv p) (u.tagFits k w iv p) := by
  simp only [State.tagFits, keys_alike h, seals_alike h, rawBytes_alike h, free_alike h]
  split
  · exact ⟨rfl, by rw [h]; rfl⟩
  · exact sameFill_ite ⟨rfl, h⟩ ⟨rfl, by rw [h]; rfl⟩
  · exact ⟨rfl, h⟩
  · exact ⟨rfl, h⟩

theorem foundWrong_alike {s u : State} (h : s.alike u) (w : Nat) (iv : Iv) (p : Nat) :
    (s.foundWrong w iv p).alike (u.foundWrong w iv p) := by
  simp only [State.foundWrong, seals_alike h]
  split
  · rw [h]; rfl
  · rw [h]; rfl
  · exact h

/-- A tile's tag is judged alike in states alike, which stay alike. -/
theorem fillTile_alike {s u : State} (h : s.alike u) (w : Nat) (iv : Iv) (p : Nat) :
    sameFill (s.fillTile w iv p) (u.fillTile w iv p) := by
  simp only [State.fillTile, keys_alike h, sealedBy_alike h]
  split
  · exact ⟨rfl, h⟩
  · rename_i k _
    refine sameFill_ite ⟨rfl, h⟩ ?_
    obtain ⟨h1, h2⟩ := tagFits_alike h k w iv p
    rcases hs : s.tagFits k w iv p with ⟨b, s1⟩
    rcases hu : u.tagFits k w iv p with ⟨b', u1⟩
    rw [hs, hu] at h1 h2
    cases h1
    cases b
    · exact ⟨rfl, startDark_alike (foundWrong_alike h2 ..) ..⟩
    · exact ⟨rfl, takeTile_alike h2 ..⟩

theorem devPut_alike {s u : State} (h : s.alike u) (w : Nat) (iv : Iv) (full : Bool) (a : Nat) (b : Byte) :
    (s.devPut w iv full a b).alike (u.devPut w iv full a b) := by
  have put {s u : State} (h : s.alike u) (p : Nat) :
      State.alike { s.takeTile w iv p with hbm := (s.takeTile w iv p).hbm.write p b }
        { u.takeTile w iv p with hbm := (u.takeTile w iv p).hbm.write p b } := by
    simp only [hbm_alike (takeTile_alike h w iv p)]
    rw [takeTile_alike h w iv p]
    rfl
  unfold State.devPut
  rw [devAddr_alike h]
  cases s.devAddr w a with
  | none => exact h
  | some p =>
    cases full with
    | false => exact put h p
    | true =>
      obtain ⟨h1, h2⟩ := fillTile_alike h w iv p
      rcases hs : s.fillTile w iv p with ⟨b1, s1⟩
      rcases hu : u.fillTile w iv p with ⟨b2, u1⟩
      rw [hs, hu] at h1 h2
      cases h1
      simp only [↓reduceIte, hs, hu]
      cases b1
      · exact h2
      · exact put h2 p

theorem devRaw_alike {s u : State} (h : s.alike u) (w a : Nat) (b : Byte) : (s.devRaw w a b).alike (u.devRaw w a b) := by
  unfold State.devRaw
  rw [ivOf_alike h]
  exact devPut_alike h ..

theorem devRaws_alike {w : Nat} : ∀ (l : List Byte) {s u : State} (a : Nat), s.alike u →
    (s.devRaws w a l).alike (u.devRaws w a l)
  | [], _, _, _, h => h
  | _ :: l, _, _, _, h => devRaws_alike l _ (devRaw_alike h ..)

theorem setWorld_alike {s u : State} (h : s.alike u) (w : Nat) (f : World → World) :
    (s.setWorld w f).alike (u.setWorld w f) := by rw [h]; rfl

theorem devRead_alike {s u : State} (h : s.alike u) (w a : Nat) : u.devRead w a = s.devRead w a := by rw [h]; rfl

/-- A fold of changes that keep states alike does. -/
theorem foldl_alike {α : Type} {f : State → α → State} (hf : ∀ {s u : State} x, s.alike u → (f s x).alike (f u x)) :
    ∀ (l : List α) {s u : State}, s.alike u → (l.foldl f s).alike (l.foldl f u)
  | [], _, _, h => h
  | x :: l, _, _, h => foldl_alike hf l (hf x h)

/-- Tiles are filled alike in states alike, which stay alike. -/
theorem fillBy_alike {s u : State} (h : s.alike u) (w : Nat) (f : Nat → Iv × Bool) (a n : Nat) :
    sameFill (s.fillBy w f a n) (u.fillBy w f a n) := by
  unfold State.fillBy
  rw [keys_alike h]
  refine sameFill_ite ⟨rfl, h⟩ ?_
  generalize List.range ((a + (n - 1)) / 512 - a / 512 + 1) = l
  suffices H : ∀ (l : List Nat) (e e' : Bool × State), sameFill e e' → sameFill
      (l.foldl (fun (e : Bool × State) i =>
        let b := (a / 512 + i) * 512
        match e.2.devAddr w b with
        | some p => if e.1 && (f b).2 then e.2.fillTile w (f b).1 p else e
        | none => e) e)
      (l.foldl (fun (e : Bool × State) i =>
        let b := (a / 512 + i) * 512
        match e.2.devAddr w b with
        | some p => if e.1 && (f b).2 then e.2.fillTile w (f b).1 p else e
        | none => e) e') from H _ _ _ ⟨rfl, h⟩
  intro l
  induction l with
  | nil => exact fun _ _ h => h
  | cons i l ih =>
    intro e e' he
    refine ih _ _ ?_
    obtain ⟨h1, h2⟩ := he
    simp only [h1, devAddr_alike h2]
    split
    · exact sameFill_ite (fillTile_alike h2 ..) ⟨h1, h2⟩
    · exact ⟨h1, h2⟩

theorem fill_alike {s u : State} (h : s.alike u) (w a n : Nat) : sameFill (s.fill w a n) (u.fill w a n) := by
  unfold State.fill
  rw [show u.ivOf w = s.ivOf w from funext (ivOf_alike h w)]
  exact fillBy_alike h ..

theorem devLay_alike {s u : State} (h : s.alike u) (w a : Nat) (b : Byte) : (s.devLay w a b).alike (u.devLay w a b) := by
  have h' := devRaw_alike h w a b
  have hs : (u.devRaw w a b).shared = (s.devRaw w a b).shared := by rw [h']
  unfold State.devLay
  simp only [hs]
  split
  · rw [h']; rfl
  · exact h'

theorem devLays_alike {w : Nat} : ∀ (l : List Byte) {s u : State} (a : Nat), s.alike u →
    (s.devLays w a l).alike (u.devLays w a l)
  | [], _, _, _, h => h
  | _ :: l, _, _, _, h => devLays_alike l _ (devLay_alike h ..)

theorem histCopy_alike {s u : State} (h : s.alike u) (w a : Nat) : (s.histCopy w a).alike (u.histCopy w a) := by
  unfold State.histCopy
  rw [world_alike h]
  split
  · refine foldl_alike ?_ _ h
    intro s u i h
    simp only [world_alike h]
    split
    · obtain ⟨h1, h2⟩ := fill_alike h w ((((s.world w).windows[i]?).getD Window64.reset).base.toNat +
        512 * ((a - (((s.world w).windows[i]?).getD Window64.reset).base.toNat) / 512)) 512
      revert h1 h2
      generalize s.fill w _ 512 = e
      generalize u.fill w _ 512 = e'
      obtain ⟨b, s1⟩ := e
      obtain ⟨b', u1⟩ := e'
      rintro rfl h2
      cases b'
      · exact h2
      · simp only [devRead_alike h2]
        exact setWorld_alike (devLays_alike _ _ h2) ..
    · exact h
  · exact h

theorem devPoke_alike {s u : State} (h : s.alike u) (w a : Nat) (b : Byte) : (s.devPoke w a b).alike (u.devPoke w a b) :=
  devLay_alike (histCopy_alike h w a) w a b

theorem devPokes_alike {w : Nat} : ∀ (l : List Byte) {s u : State} (a : Nat), s.alike u →
    (s.devPokes w a l).alike (u.devPokes w a l)
  | [], _, _, _, h => h
  | _ :: l, _, _, _, h => devPokes_alike l _ (devPoke_alike h ..)

theorem writeBackRec_alike {s u : State} (h : s.alike u) (w a : Nat) (r : TRec) :
    (s.writeBackRec w a r).alike (u.writeBackRec w a r) := by
  unfold State.writeBackRec
  rw [devNat_alike h, show u.recHead w a r = s.recHead w a r by rw [h]; rfl]
  split
  · exact h
  · exact devPokes_alike _ _ h

/-- The same record, and states alike. -/
def sameRec (o o' : Option (TRec × State)) : Prop :=
  match o with
  | none => o' = none
  | some (r, k) => ∃ k', o' = some (r, k') ∧ k.alike k'

theorem sameRec_ite {p : Prop} [Decidable p] {o o' : Option (TRec × State)} (h : sameRec o o') :
    sameRec (if p then none else o) (if p then none else o') := by
  split
  · rfl
  · exact h

/-- A record check answers the same record in states alike, and leaves them alike. -/
theorem recCheck_alike {s u : State} (h : s.alike u) (w t a : Nat) (rd wr : Bool) (tile : Option Nat) :
    sameRec (s.recCheck w t a rd wr tile) (u.recCheck w t a rd wr tile) := by
  simp only [State.recCheck, readRec_alike h, devRange_alike h, devCovered_alike h, recs_alike h]
  exact sameRec_ite (sameRec_ite (sameRec_ite (sameRec_ite ⟨_, rfl, writeBackRec_alike (withRecs_alike h _) ..⟩)))

end Sys2Proof.Machine
end

