-- ==== Sys2Proof/Laws/Memory.lean ====
section
/-! SUPPORT. Tables and memory: what a read gives after a write, and that every memory operation keeps the canonical
form. -/

namespace Sys2Proof.Machine

/-! Tables. -/

@[simp] theorem tget_tset_self {α : Type} (t : Table α) (k : Nat) (a : α) : tget (tset t k a) k = some a := by
  induction t with
  | nil => simp [tset, tget]
  | cons e r ih =>
    obtain ⟨j, b⟩ := e
    by_cases h : j = k <;> simp [tset, tget, h, ih]

theorem tget_tset_ne {α : Type} (t : Table α) {k j : Nat} (a : α) (h : j ≠ k) : tget (tset t k a) j = tget t j := by
  induction t with
  | nil => simp [tset, tget, Ne.symm h]
  | cons e r ih =>
    obtain ⟨i, b⟩ := e
    by_cases hi : i = k
    · subst hi; simp [tset, tget, Ne.symm h]
    · by_cases hj : i = j
      · subst hj; simp [tset, tget, hi]
      · simp [tset, tget, hi, hj, ih]

theorem tget_tset {α : Type} (t : Table α) (k j : Nat) (a : α) :
    tget (tset t k a) j = if j = k then some a else tget t j := by
  by_cases h : j = k
  · subst h; simp
  · simp [tget_tset_ne t a h, h]

theorem tget_tmod {α : Type} (t : Table α) (k j : Nat) (f : α → α) :
    tget (tmod t k f) j = if j = k then (tget t k).map f else tget t j := by
  unfold tmod
  split
  · next a ha => rw [tget_tset]; simp [ha]
  · next hn => by_cases h : j = k <;> simp [h, hn]

@[simp] theorem tget_tmod_self {α : Type} (t : Table α) (k : Nat) (f : α → α) :
    tget (tmod t k f) k = (tget t k).map f := by simp [tget_tmod]

theorem tget_tmod_ne {α : Type} (t : Table α) {k j : Nat} (f : α → α) (h : j ≠ k) :
    tget (tmod t k f) j = tget t j := by simp [tget_tmod, h]

theorem tget_tdel_ne {α : Type} (t : Table α) {k j : Nat} (h : j ≠ k) : tget (tdel t k) j = tget t j := by
  induction t with
  | nil => rfl
  | cons e r ih =>
    obtain ⟨i, b⟩ := e
    by_cases hi : i = k
    · subst hi; simp [tdel, tget, Ne.symm h, ih]
    · by_cases hj : i = j
      · subst hj; simp [tdel, tget, hi]
      · simp [tdel, tget, hi, hj, ih]

@[simp] theorem tget_tdel_self {α : Type} (t : Table α) (k : Nat) : tget (tdel t k) k = none := by
  induction t with
  | nil => rfl
  | cons e r ih =>
    obtain ⟨i, b⟩ := e
    by_cases hi : i = k <;> simp [tdel, tget, hi, ih]

/-! Bytes of memory. -/

/-- Where every address lies above `a`, nothing is listed at `a`. -/
theorem Cells.read_below {m : List Host.Cell} {a : Nat} (h : ∀ e ∈ m, a < e.1) : Cells.read m a = 0 := by
  induction m with
  | nil => rfl
  | cons e r ih =>
    obtain ⟨c, d⟩ := e
    have hc : a < c := h (c, d) (List.mem_cons_self ..)
    simp only [Cells.read, if_neg (Nat.ne_of_gt hc)]
    exact ih (fun e he => h e (List.mem_cons_of_mem _ he))

theorem Cells.read_write_self {m : List Host.Cell} (a : Nat) (b : Byte) (h : Memory.wf m = true) :
    Cells.read (Cells.write m a b) a = b := by
  induction m with
  | nil =>
    simp only [Cells.write]
    split
    · next hb => simp [Cells.read, hb]
    · simp [Cells.read]
  | cons e r ih =>
    obtain ⟨c, d⟩ := e
    obtain ⟨-, hr, hlt⟩ := Memory.wf_cons.mp h
    simp only [Cells.write]
    split
    · next hac =>
      split
      · next hb =>
        rw [hb]
        refine Cells.read_below (fun e he => ?_)
        rcases List.mem_cons.mp he with rfl | he
        · exact hac
        · exact lt_trans hac (hlt e he)
      · simp [Cells.read]
    · split
      · next hc =>
        subst hc
        split
        · next hb => rw [hb]; exact Cells.read_below hlt
        · simp [Cells.read]
      · next hac hc => simp [Cells.read, Ne.symm hc, ih hr]

theorem Cells.read_write_ne {m : List Host.Cell} {a c : Nat} (b : Byte) (h : c ≠ a) :
    Cells.read (Cells.write m a b) c = Cells.read m c := by
  induction m with
  | nil =>
    simp only [Cells.write]
    split
    · rfl
    · simp [Cells.read, Ne.symm h]
  | cons e r ih =>
    obtain ⟨k, d⟩ := e
    simp only [Cells.write]
    split
    · split
      · rfl
      · simp [Cells.read, Ne.symm h]
    · split
      · next hk =>
        subst hk
        split
        · simp [Cells.read, Ne.symm h]
        · simp [Cells.read, Ne.symm h]
      · simp only [Cells.read]
        rw [ih]

@[simp] theorem Mem.read_empty (a : Nat) : Mem.empty.read a = 0 := rfl

@[simp] theorem Mem.writeN_nil (m : Mem) (a : Nat) : m.writeN a [] = m := rfl

theorem Mem.writeN_cons (m : Mem) (a : Nat) (b : Byte) (l : List Byte) :
    m.writeN a (b :: l) = (m.write a b).writeN (a + 1) l := rfl

/-- A byte read after it was written. -/
@[simp] theorem Mem.read_write_self (m : Mem) (a : Nat) (b : Byte) : (m.write a b).read a = b :=
  Cells.read_write_self a b m.property

/-- A byte read after another one was written. -/
theorem Mem.read_write_ne {m : Mem} {a c : Nat} (b : Byte) (h : c ≠ a) : (m.write a b).read c = m.read c :=
  Cells.read_write_ne b h

theorem Mem.read_write (m : Mem) (a c : Nat) (b : Byte) : (m.write a b).read c = if c = a then b else m.read c := by
  by_cases hc : c = a
  · subst hc; simp
  · simp [Mem.read_write_ne b hc, hc]

/-- Several bytes: an address outside them is as before. -/
theorem Mem.read_writeN_outside {m : Mem} {a c : Nat} {l : List Byte} (h : c < a ∨ a + l.length ≤ c) :
    (m.writeN a l).read c = m.read c := by
  induction l generalizing m a with
  | nil => rfl
  | cons b l ih =>
    simp only [List.length_cons] at h
    rw [Mem.writeN_cons, ih (by omega), Mem.read_write_ne b (by omega)]

/-- Several bytes: an address among them holds its byte. -/
theorem Mem.read_writeN_inside {m : Mem} {a i : Nat} {l : List Byte} (hi : i < l.length) :
    (m.writeN a l).read (a + i) = l[i] := by
  induction l generalizing m a i with
  | nil => simp at hi
  | cons b l ih =>
    cases i with
    | zero =>
      rw [Mem.writeN_cons, Mem.read_writeN_outside (by omega)]
      simp
    | succ i =>
      have hl : i < l.length := by simpa using hi
      have := ih (m := m.write a b) (a := a + 1) (i := i) hl
      rw [Mem.writeN_cons, show a + (i + 1) = a + 1 + i from by omega, this]
      simp

/-- Every memory of a state is canonical: its type says so. -/
theorem Memory.wf_all (m : Mem) : Memory.wf m.val = true := m.property

/-! Numbers and bytes (R6). -/

@[simp] theorem bytesOfNat_length (n v : Nat) : (bytesOfNat n v).length = n := by
  induction n generalizing v with
  | zero => rfl
  | succ n ih => simp [bytesOfNat, ih]

theorem natOfBytes_bytesOfNat (n v : Nat) : natOfBytes (bytesOfNat n v) = v % 256 ^ n := by
  induction n generalizing v with
  | zero => simp [bytesOfNat, natOfBytes, Nat.mod_one]
  | succ n ih =>
    simp only [bytesOfNat, natOfBytes, ih, BitVec.toNat_ofNat]
    rw [show (256 : Nat) ^ (n + 1) = 256 * 256 ^ n from by ring, Nat.mod_mul]

theorem natOfBytes_append (l m : List Byte) : natOfBytes (l ++ m) = natOfBytes l + 256 ^ l.length * natOfBytes m := by
  induction l with
  | nil => simp [natOfBytes]
  | cons b l ih => simp only [List.cons_append, natOfBytes, ih, List.length_cons, Nat.pow_succ]; ring

end Sys2Proof.Machine
end

