-- ==== Sys2Proof/Laws/State.lean ====
section
/-! SUPPORT. The fields of the state after each of its named updates: one lemma a field and update. -/

namespace Sys2Proof.Machine

@[simp] theorem State.setWorld_turn (s : State) (w : Nat) (f : World → World) : (s.setWorld w f).turn = s.turn := rfl
@[simp] theorem State.setWorld_inputs (s : State) (w : Nat) (f : World → World) : (s.setWorld w f).inputs = s.inputs := rfl
@[simp] theorem State.setWorld_held (s : State) (w : Nat) (f : World → World) : (s.setWorld w f).held = s.held := rfl
@[simp] theorem State.setWorld_free (s : State) (w : Nat) (f : World → World) : (s.setWorld w f).free = s.free := rfl
@[simp] theorem State.setWorld_nextId (s : State) (w : Nat) (f : World → World) : (s.setWorld w f).nextId = s.nextId := rfl
@[simp] theorem State.setWorld_now (s : State) (w : Nat) (f : World → World) : (s.setWorld w f).now = s.now := rfl
@[simp] theorem State.setWorld_hbm (s : State) (w : Nat) (f : World → World) : (s.setWorld w f).hbm = s.hbm := rfl
@[simp] theorem State.setWorld_seals (s : State) (w : Nat) (f : World → World) : (s.setWorld w f).seals = s.seals := rfl
@[simp] theorem State.setWorld_hostMem (s : State) (w : Nat) (f : World → World) : (s.setWorld w f).hostMem = s.hostMem := rfl
@[simp] theorem State.setWorld_devTab (s : State) (w : Nat) (f : World → World) : (s.setWorld w f).devTab = s.devTab := rfl
@[simp] theorem State.setWorld_owners (s : State) (w : Nat) (f : World → World) : (s.setWorld w f).owners = s.owners := rfl
@[simp] theorem State.setWorld_unmaps (s : State) (w : Nat) (f : World → World) : (s.setWorld w f).unmaps = s.unmaps := rfl
@[simp] theorem State.setWorld_threads (s : State) (w : Nat) (f : World → World) : (s.setWorld w f).threads = s.threads := rfl
@[simp] theorem State.setWorld_waves (s : State) (w : Nat) (f : World → World) : (s.setWorld w f).waves = s.waves := rfl
@[simp] theorem State.setWorld_teams (s : State) (w : Nat) (f : World → World) : (s.setWorld w f).teams = s.teams := rfl
@[simp] theorem State.setWorld_clusters (s : State) (w : Nat) (f : World → World) : (s.setWorld w f).clusters = s.clusters := rfl
@[simp] theorem State.setWorld_launches (s : State) (w : Nat) (f : World → World) : (s.setWorld w f).launches = s.launches := rfl
@[simp] theorem State.setWorld_images (s : State) (w : Nat) (f : World → World) : (s.setWorld w f).images = s.images := rfl
@[simp] theorem State.setWorld_passes (s : State) (w : Nat) (f : World → World) : (s.setWorld w f).passes = s.passes := rfl
@[simp] theorem State.setWorld_cands (s : State) (w : Nat) (f : World → World) : (s.setWorld w f).cands = s.cands := rfl
@[simp] theorem State.setWorld_lastRow1 (s : State) (w : Nat) (f : World → World) : (s.setWorld w f).lastRow1 = s.lastRow1 := rfl
@[simp] theorem State.setWorld_pends (s : State) (w : Nat) (f : World → World) : (s.setWorld w f).pends = s.pends := rfl
@[simp] theorem State.setWorld_copies (s : State) (w : Nat) (f : World → World) : (s.setWorld w f).copies = s.copies := rfl
@[simp] theorem State.setWorld_bankOps (s : State) (w : Nat) (f : World → World) : (s.setWorld w f).bankOps = s.bankOps := rfl
@[simp] theorem State.setWorld_drains (s : State) (w : Nat) (f : World → World) : (s.setWorld w f).drains = s.drains := rfl
@[simp] theorem State.setWorld_wbufUses (s : State) (w : Nat) (f : World → World) : (s.setWorld w f).wbufUses = s.wbufUses := rfl
@[simp] theorem State.setWorld_calls (s : State) (w : Nat) (f : World → World) : (s.setWorld w f).calls = s.calls := rfl
@[simp] theorem State.setWorld_dues (s : State) (w : Nat) (f : World → World) : (s.setWorld w f).dues = s.dues := rfl
@[simp] theorem State.setWorld_svcSeq (s : State) (w : Nat) (f : World → World) : (s.setWorld w f).svcSeq = s.svcSeq := rfl
@[simp] theorem State.setWorld_recs (s : State) (w : Nat) (f : World → World) : (s.setWorld w f).recs = s.recs := rfl
@[simp] theorem State.setWorld_accs (s : State) (w : Nat) (f : World → World) : (s.setWorld w f).accs = s.accs := rfl
@[simp] theorem State.setWorld_accSaved (s : State) (w : Nat) (f : World → World) : (s.setWorld w f).accSaved = s.accSaved := rfl
@[simp] theorem State.setWorld_copyQ (s : State) (w : Nat) (f : World → World) : (s.setWorld w f).copyQ = s.copyQ := rfl
@[simp] theorem State.setWorld_wbufs (s : State) (w : Nat) (f : World → World) : (s.setWorld w f).wbufs = s.wbufs := rfl
@[simp] theorem State.setWorld_accOwner (s : State) (w : Nat) (f : World → World) : (s.setWorld w f).accOwner = s.accOwner := rfl
@[simp] theorem State.setWorld_ctemp (s : State) (w : Nat) (f : World → World) : (s.setWorld w f).ctemp = s.ctemp := rfl
@[simp] theorem State.setWorld_throt (s : State) (w : Nat) (f : World → World) : (s.setWorld w f).throt = s.throt := rfl
@[simp] theorem State.setWorld_resets (s : State) (w : Nat) (f : World → World) : (s.setWorld w f).resets = s.resets := rfl
@[simp] theorem State.setWorld_tenants (s : State) (w : Nat) (f : World → World) : (s.setWorld w f).tenants = s.tenants := rfl
@[simp] theorem State.setWorld_tlb (s : State) (w : Nat) (f : World → World) : (s.setWorld w f).tlb = s.tlb := rfl
@[simp] theorem State.setWorld_nonLeaf (s : State) (w : Nat) (f : World → World) : (s.setWorld w f).nonLeaf = s.nonLeaf := rfl
@[simp] theorem State.setWorld_pctx (s : State) (w : Nat) (f : World → World) : (s.setWorld w f).pctx = s.pctx := rfl
@[simp] theorem State.setWorld_pageReqs (s : State) (w : Nat) (f : World → World) : (s.setWorld w f).pageReqs = s.pageReqs := rfl
@[simp] theorem State.setWorld_tries (s : State) (w : Nat) (f : World → World) : (s.setWorld w f).tries = s.tries := rfl
@[simp] theorem State.setWorld_breaks (s : State) (w : Nat) (f : World → World) : (s.setWorld w f).breaks = s.breaks := rfl
@[simp] theorem State.setWorld_shared (s : State) (w : Nat) (f : World → World) : (s.setWorld w f).shared = s.shared := rfl
@[simp] theorem State.setWorld_perf (s : State) (w : Nat) (f : World → World) : (s.setWorld w f).perf = s.perf := rfl
@[simp] theorem State.setWorld_cycles (s : State) (w : Nat) (f : World → World) : (s.setWorld w f).cycles = s.cycles := rfl
@[simp] theorem State.setWorld_parts (s : State) (w : Nat) (f : World → World) : (s.setWorld w f).parts = s.parts := rfl
@[simp] theorem State.setWorld_slots (s : State) (w : Nat) (f : World → World) : (s.setWorld w f).slots = s.slots := rfl
@[simp] theorem State.setWorld_buckets (s : State) (w : Nat) (f : World → World) : (s.setWorld w f).buckets = s.buckets := rfl
@[simp] theorem State.setWorld_pools (s : State) (w : Nat) (f : World → World) : (s.setWorld w f).pools = s.pools := rfl
@[simp] theorem State.setWorld_subs (s : State) (w : Nat) (f : World → World) : (s.setWorld w f).subs = s.subs := rfl
@[simp] theorem State.setWorld_admLast (s : State) (w : Nat) (f : World → World) : (s.setWorld w f).admLast = s.admLast := rfl
@[simp] theorem State.setWorld_fabric (s : State) (w : Nat) (f : World → World) : (s.setWorld w f).fabric = s.fabric := rfl
@[simp] theorem State.setWorld_reductions (s : State) (w : Nat) (f : World → World) : (s.setWorld w f).reductions = s.reductions := rfl
@[simp] theorem State.setWorld_node (s : State) (w : Nat) (f : World → World) : (s.setWorld w f).node = s.node := rfl
@[simp] theorem State.setWorld_hostLines (s : State) (w : Nat) (f : World → World) : (s.setWorld w f).hostLines = s.hostLines := rfl
@[simp] theorem State.setWorld_invals (s : State) (w : Nat) (f : World → World) : (s.setWorld w f).invals = s.invals := rfl
@[simp] theorem State.setWorld_power (s : State) (w : Nat) (f : World → World) : (s.setWorld w f).power = s.power := rfl
@[simp] theorem State.setWorld_outbox (s : State) (w : Nat) (f : World → World) : (s.setWorld w f).outbox = s.outbox := rfl

@[simp] theorem State.setPart_turn (s : State) (p : Nat) (f : Part → Part) : (s.setPart p f).turn = s.turn := rfl
@[simp] theorem State.setPart_inputs (s : State) (p : Nat) (f : Part → Part) : (s.setPart p f).inputs = s.inputs := rfl
@[simp] theorem State.setPart_held (s : State) (p : Nat) (f : Part → Part) : (s.setPart p f).held = s.held := rfl
@[simp] theorem State.setPart_free (s : State) (p : Nat) (f : Part → Part) : (s.setPart p f).free = s.free := rfl
@[simp] theorem State.setPart_nextId (s : State) (p : Nat) (f : Part → Part) : (s.setPart p f).nextId = s.nextId := rfl
@[simp] theorem State.setPart_now (s : State) (p : Nat) (f : Part → Part) : (s.setPart p f).now = s.now := rfl
@[simp] theorem State.setPart_hbm (s : State) (p : Nat) (f : Part → Part) : (s.setPart p f).hbm = s.hbm := rfl
@[simp] theorem State.setPart_seals (s : State) (p : Nat) (f : Part → Part) : (s.setPart p f).seals = s.seals := rfl
@[simp] theorem State.setPart_hostMem (s : State) (p : Nat) (f : Part → Part) : (s.setPart p f).hostMem = s.hostMem := rfl
@[simp] theorem State.setPart_devTab (s : State) (p : Nat) (f : Part → Part) : (s.setPart p f).devTab = s.devTab := rfl
@[simp] theorem State.setPart_owners (s : State) (p : Nat) (f : Part → Part) : (s.setPart p f).owners = s.owners := rfl
@[simp] theorem State.setPart_unmaps (s : State) (p : Nat) (f : Part → Part) : (s.setPart p f).unmaps = s.unmaps := rfl
@[simp] theorem State.setPart_threads (s : State) (p : Nat) (f : Part → Part) : (s.setPart p f).threads = s.threads := rfl
@[simp] theorem State.setPart_waves (s : State) (p : Nat) (f : Part → Part) : (s.setPart p f).waves = s.waves := rfl
@[simp] theorem State.setPart_teams (s : State) (p : Nat) (f : Part → Part) : (s.setPart p f).teams = s.teams := rfl
@[simp] theorem State.setPart_clusters (s : State) (p : Nat) (f : Part → Part) : (s.setPart p f).clusters = s.clusters := rfl
@[simp] theorem State.setPart_launches (s : State) (p : Nat) (f : Part → Part) : (s.setPart p f).launches = s.launches := rfl
@[simp] theorem State.setPart_images (s : State) (p : Nat) (f : Part → Part) : (s.setPart p f).images = s.images := rfl
@[simp] theorem State.setPart_passes (s : State) (p : Nat) (f : Part → Part) : (s.setPart p f).passes = s.passes := rfl
@[simp] theorem State.setPart_cands (s : State) (p : Nat) (f : Part → Part) : (s.setPart p f).cands = s.cands := rfl
@[simp] theorem State.setPart_lastRow1 (s : State) (p : Nat) (f : Part → Part) : (s.setPart p f).lastRow1 = s.lastRow1 := rfl
@[simp] theorem State.setPart_pends (s : State) (p : Nat) (f : Part → Part) : (s.setPart p f).pends = s.pends := rfl
@[simp] theorem State.setPart_copies (s : State) (p : Nat) (f : Part → Part) : (s.setPart p f).copies = s.copies := rfl
@[simp] theorem State.setPart_bankOps (s : State) (p : Nat) (f : Part → Part) : (s.setPart p f).bankOps = s.bankOps := rfl
@[simp] theorem State.setPart_drains (s : State) (p : Nat) (f : Part → Part) : (s.setPart p f).drains = s.drains := rfl
@[simp] theorem State.setPart_wbufUses (s : State) (p : Nat) (f : Part → Part) : (s.setPart p f).wbufUses = s.wbufUses := rfl
@[simp] theorem State.setPart_calls (s : State) (p : Nat) (f : Part → Part) : (s.setPart p f).calls = s.calls := rfl
@[simp] theorem State.setPart_dues (s : State) (p : Nat) (f : Part → Part) : (s.setPart p f).dues = s.dues := rfl
@[simp] theorem State.setPart_svcSeq (s : State) (p : Nat) (f : Part → Part) : (s.setPart p f).svcSeq = s.svcSeq := rfl
@[simp] theorem State.setPart_recs (s : State) (p : Nat) (f : Part → Part) : (s.setPart p f).recs = s.recs := rfl
@[simp] theorem State.setPart_accs (s : State) (p : Nat) (f : Part → Part) : (s.setPart p f).accs = s.accs := rfl
@[simp] theorem State.setPart_accSaved (s : State) (p : Nat) (f : Part → Part) : (s.setPart p f).accSaved = s.accSaved := rfl
@[simp] theorem State.setPart_copyQ (s : State) (p : Nat) (f : Part → Part) : (s.setPart p f).copyQ = s.copyQ := rfl
@[simp] theorem State.setPart_wbufs (s : State) (p : Nat) (f : Part → Part) : (s.setPart p f).wbufs = s.wbufs := rfl
@[simp] theorem State.setPart_accOwner (s : State) (p : Nat) (f : Part → Part) : (s.setPart p f).accOwner = s.accOwner := rfl
@[simp] theorem State.setPart_ctemp (s : State) (p : Nat) (f : Part → Part) : (s.setPart p f).ctemp = s.ctemp := rfl
@[simp] theorem State.setPart_throt (s : State) (p : Nat) (f : Part → Part) : (s.setPart p f).throt = s.throt := rfl
@[simp] theorem State.setPart_resets (s : State) (p : Nat) (f : Part → Part) : (s.setPart p f).resets = s.resets := rfl
@[simp] theorem State.setPart_worlds (s : State) (p : Nat) (f : Part → Part) : (s.setPart p f).worlds = s.worlds := rfl
@[simp] theorem State.setPart_tenants (s : State) (p : Nat) (f : Part → Part) : (s.setPart p f).tenants = s.tenants := rfl
@[simp] theorem State.setPart_tlb (s : State) (p : Nat) (f : Part → Part) : (s.setPart p f).tlb = s.tlb := rfl
@[simp] theorem State.setPart_nonLeaf (s : State) (p : Nat) (f : Part → Part) : (s.setPart p f).nonLeaf = s.nonLeaf := rfl
@[simp] theorem State.setPart_pctx (s : State) (p : Nat) (f : Part → Part) : (s.setPart p f).pctx = s.pctx := rfl
@[simp] theorem State.setPart_pageReqs (s : State) (p : Nat) (f : Part → Part) : (s.setPart p f).pageReqs = s.pageReqs := rfl
@[simp] theorem State.setPart_tries (s : State) (p : Nat) (f : Part → Part) : (s.setPart p f).tries = s.tries := rfl
@[simp] theorem State.setPart_breaks (s : State) (p : Nat) (f : Part → Part) : (s.setPart p f).breaks = s.breaks := rfl
@[simp] theorem State.setPart_shared (s : State) (p : Nat) (f : Part → Part) : (s.setPart p f).shared = s.shared := rfl
@[simp] theorem State.setPart_perf (s : State) (p : Nat) (f : Part → Part) : (s.setPart p f).perf = s.perf := rfl
@[simp] theorem State.setPart_cycles (s : State) (p : Nat) (f : Part → Part) : (s.setPart p f).cycles = s.cycles := rfl
@[simp] theorem State.setPart_slots (s : State) (p : Nat) (f : Part → Part) : (s.setPart p f).slots = s.slots := rfl
@[simp] theorem State.setPart_buckets (s : State) (p : Nat) (f : Part → Part) : (s.setPart p f).buckets = s.buckets := rfl
@[simp] theorem State.setPart_pools (s : State) (p : Nat) (f : Part → Part) : (s.setPart p f).pools = s.pools := rfl
@[simp] theorem State.setPart_subs (s : State) (p : Nat) (f : Part → Part) : (s.setPart p f).subs = s.subs := rfl
@[simp] theorem State.setPart_admLast (s : State) (p : Nat) (f : Part → Part) : (s.setPart p f).admLast = s.admLast := rfl
@[simp] theorem State.setPart_fabric (s : State) (p : Nat) (f : Part → Part) : (s.setPart p f).fabric = s.fabric := rfl
@[simp] theorem State.setPart_reductions (s : State) (p : Nat) (f : Part → Part) : (s.setPart p f).reductions = s.reductions := rfl
@[simp] theorem State.setPart_node (s : State) (p : Nat) (f : Part → Part) : (s.setPart p f).node = s.node := rfl
@[simp] theorem State.setPart_hostLines (s : State) (p : Nat) (f : Part → Part) : (s.setPart p f).hostLines = s.hostLines := rfl
@[simp] theorem State.setPart_invals (s : State) (p : Nat) (f : Part → Part) : (s.setPart p f).invals = s.invals := rfl
@[simp] theorem State.setPart_power (s : State) (p : Nat) (f : Part → Part) : (s.setPart p f).power = s.power := rfl
@[simp] theorem State.setPart_outbox (s : State) (p : Nat) (f : Part → Part) : (s.setPart p f).outbox = s.outbox := rfl

@[simp] theorem State.setSlot_turn (s : State) (p i : Nat) (f : Slot → Slot) : (s.setSlot p i f).turn = s.turn := rfl
@[simp] theorem State.setSlot_inputs (s : State) (p i : Nat) (f : Slot → Slot) : (s.setSlot p i f).inputs = s.inputs := rfl
@[simp] theorem State.setSlot_held (s : State) (p i : Nat) (f : Slot → Slot) : (s.setSlot p i f).held = s.held := rfl
@[simp] theorem State.setSlot_free (s : State) (p i : Nat) (f : Slot → Slot) : (s.setSlot p i f).free = s.free := rfl
@[simp] theorem State.setSlot_nextId (s : State) (p i : Nat) (f : Slot → Slot) : (s.setSlot p i f).nextId = s.nextId := rfl
@[simp] theorem State.setSlot_now (s : State) (p i : Nat) (f : Slot → Slot) : (s.setSlot p i f).now = s.now := rfl
@[simp] theorem State.setSlot_hbm (s : State) (p i : Nat) (f : Slot → Slot) : (s.setSlot p i f).hbm = s.hbm := rfl
@[simp] theorem State.setSlot_seals (s : State) (p i : Nat) (f : Slot → Slot) : (s.setSlot p i f).seals = s.seals := rfl
@[simp] theorem State.setSlot_hostMem (s : State) (p i : Nat) (f : Slot → Slot) : (s.setSlot p i f).hostMem = s.hostMem := rfl
@[simp] theorem State.setSlot_devTab (s : State) (p i : Nat) (f : Slot → Slot) : (s.setSlot p i f).devTab = s.devTab := rfl
@[simp] theorem State.setSlot_owners (s : State) (p i : Nat) (f : Slot → Slot) : (s.setSlot p i f).owners = s.owners := rfl
@[simp] theorem State.setSlot_unmaps (s : State) (p i : Nat) (f : Slot → Slot) : (s.setSlot p i f).unmaps = s.unmaps := rfl
@[simp] theorem State.setSlot_threads (s : State) (p i : Nat) (f : Slot → Slot) : (s.setSlot p i f).threads = s.threads := rfl
@[simp] theorem State.setSlot_waves (s : State) (p i : Nat) (f : Slot → Slot) : (s.setSlot p i f).waves = s.waves := rfl
@[simp] theorem State.setSlot_teams (s : State) (p i : Nat) (f : Slot → Slot) : (s.setSlot p i f).teams = s.teams := rfl
@[simp] theorem State.setSlot_clusters (s : State) (p i : Nat) (f : Slot → Slot) : (s.setSlot p i f).clusters = s.clusters := rfl
@[simp] theorem State.setSlot_launches (s : State) (p i : Nat) (f : Slot → Slot) : (s.setSlot p i f).launches = s.launches := rfl
@[simp] theorem State.setSlot_images (s : State) (p i : Nat) (f : Slot → Slot) : (s.setSlot p i f).images = s.images := rfl
@[simp] theorem State.setSlot_passes (s : State) (p i : Nat) (f : Slot → Slot) : (s.setSlot p i f).passes = s.passes := rfl
@[simp] theorem State.setSlot_cands (s : State) (p i : Nat) (f : Slot → Slot) : (s.setSlot p i f).cands = s.cands := rfl
@[simp] theorem State.setSlot_lastRow1 (s : State) (p i : Nat) (f : Slot → Slot) : (s.setSlot p i f).lastRow1 = s.lastRow1 := rfl
@[simp] theorem State.setSlot_pends (s : State) (p i : Nat) (f : Slot → Slot) : (s.setSlot p i f).pends = s.pends := rfl
@[simp] theorem State.setSlot_copies (s : State) (p i : Nat) (f : Slot → Slot) : (s.setSlot p i f).copies = s.copies := rfl
@[simp] theorem State.setSlot_bankOps (s : State) (p i : Nat) (f : Slot → Slot) : (s.setSlot p i f).bankOps = s.bankOps := rfl
@[simp] theorem State.setSlot_drains (s : State) (p i : Nat) (f : Slot → Slot) : (s.setSlot p i f).drains = s.drains := rfl
@[simp] theorem State.setSlot_wbufUses (s : State) (p i : Nat) (f : Slot → Slot) : (s.setSlot p i f).wbufUses = s.wbufUses := rfl
@[simp] theorem State.setSlot_calls (s : State) (p i : Nat) (f : Slot → Slot) : (s.setSlot p i f).calls = s.calls := rfl
@[simp] theorem State.setSlot_dues (s : State) (p i : Nat) (f : Slot → Slot) : (s.setSlot p i f).dues = s.dues := rfl
@[simp] theorem State.setSlot_svcSeq (s : State) (p i : Nat) (f : Slot → Slot) : (s.setSlot p i f).svcSeq = s.svcSeq := rfl
@[simp] theorem State.setSlot_recs (s : State) (p i : Nat) (f : Slot → Slot) : (s.setSlot p i f).recs = s.recs := rfl
@[simp] theorem State.setSlot_accs (s : State) (p i : Nat) (f : Slot → Slot) : (s.setSlot p i f).accs = s.accs := rfl
@[simp] theorem State.setSlot_accSaved (s : State) (p i : Nat) (f : Slot → Slot) : (s.setSlot p i f).accSaved = s.accSaved := rfl
@[simp] theorem State.setSlot_copyQ (s : State) (p i : Nat) (f : Slot → Slot) : (s.setSlot p i f).copyQ = s.copyQ := rfl
@[simp] theorem State.setSlot_wbufs (s : State) (p i : Nat) (f : Slot → Slot) : (s.setSlot p i f).wbufs = s.wbufs := rfl
@[simp] theorem State.setSlot_accOwner (s : State) (p i : Nat) (f : Slot → Slot) : (s.setSlot p i f).accOwner = s.accOwner := rfl
@[simp] theorem State.setSlot_ctemp (s : State) (p i : Nat) (f : Slot → Slot) : (s.setSlot p i f).ctemp = s.ctemp := rfl
@[simp] theorem State.setSlot_throt (s : State) (p i : Nat) (f : Slot → Slot) : (s.setSlot p i f).throt = s.throt := rfl
@[simp] theorem State.setSlot_resets (s : State) (p i : Nat) (f : Slot → Slot) : (s.setSlot p i f).resets = s.resets := rfl
@[simp] theorem State.setSlot_worlds (s : State) (p i : Nat) (f : Slot → Slot) : (s.setSlot p i f).worlds = s.worlds := rfl
@[simp] theorem State.setSlot_tenants (s : State) (p i : Nat) (f : Slot → Slot) : (s.setSlot p i f).tenants = s.tenants := rfl
@[simp] theorem State.setSlot_tlb (s : State) (p i : Nat) (f : Slot → Slot) : (s.setSlot p i f).tlb = s.tlb := rfl
@[simp] theorem State.setSlot_nonLeaf (s : State) (p i : Nat) (f : Slot → Slot) : (s.setSlot p i f).nonLeaf = s.nonLeaf := rfl
@[simp] theorem State.setSlot_pctx (s : State) (p i : Nat) (f : Slot → Slot) : (s.setSlot p i f).pctx = s.pctx := rfl
@[simp] theorem State.setSlot_pageReqs (s : State) (p i : Nat) (f : Slot → Slot) : (s.setSlot p i f).pageReqs = s.pageReqs := rfl
@[simp] theorem State.setSlot_tries (s : State) (p i : Nat) (f : Slot → Slot) : (s.setSlot p i f).tries = s.tries := rfl
@[simp] theorem State.setSlot_breaks (s : State) (p i : Nat) (f : Slot → Slot) : (s.setSlot p i f).breaks = s.breaks := rfl
@[simp] theorem State.setSlot_shared (s : State) (p i : Nat) (f : Slot → Slot) : (s.setSlot p i f).shared = s.shared := rfl
@[simp] theorem State.setSlot_perf (s : State) (p i : Nat) (f : Slot → Slot) : (s.setSlot p i f).perf = s.perf := rfl
@[simp] theorem State.setSlot_cycles (s : State) (p i : Nat) (f : Slot → Slot) : (s.setSlot p i f).cycles = s.cycles := rfl
@[simp] theorem State.setSlot_parts (s : State) (p i : Nat) (f : Slot → Slot) : (s.setSlot p i f).parts = s.parts := rfl
@[simp] theorem State.setSlot_buckets (s : State) (p i : Nat) (f : Slot → Slot) : (s.setSlot p i f).buckets = s.buckets := rfl
@[simp] theorem State.setSlot_pools (s : State) (p i : Nat) (f : Slot → Slot) : (s.setSlot p i f).pools = s.pools := rfl
@[simp] theorem State.setSlot_subs (s : State) (p i : Nat) (f : Slot → Slot) : (s.setSlot p i f).subs = s.subs := rfl
@[simp] theorem State.setSlot_admLast (s : State) (p i : Nat) (f : Slot → Slot) : (s.setSlot p i f).admLast = s.admLast := rfl
@[simp] theorem State.setSlot_fabric (s : State) (p i : Nat) (f : Slot → Slot) : (s.setSlot p i f).fabric = s.fabric := rfl
@[simp] theorem State.setSlot_reductions (s : State) (p i : Nat) (f : Slot → Slot) : (s.setSlot p i f).reductions = s.reductions := rfl
@[simp] theorem State.setSlot_node (s : State) (p i : Nat) (f : Slot → Slot) : (s.setSlot p i f).node = s.node := rfl
@[simp] theorem State.setSlot_hostLines (s : State) (p i : Nat) (f : Slot → Slot) : (s.setSlot p i f).hostLines = s.hostLines := rfl
@[simp] theorem State.setSlot_invals (s : State) (p i : Nat) (f : Slot → Slot) : (s.setSlot p i f).invals = s.invals := rfl
@[simp] theorem State.setSlot_power (s : State) (p i : Nat) (f : Slot → Slot) : (s.setSlot p i f).power = s.power := rfl
@[simp] theorem State.setSlot_outbox (s : State) (p i : Nat) (f : Slot → Slot) : (s.setSlot p i f).outbox = s.outbox := rfl

@[simp] theorem State.setWave_turn (s : State) (t i : Nat) (v : Wave) : (s.setWave t i v).turn = s.turn := rfl
@[simp] theorem State.setWave_inputs (s : State) (t i : Nat) (v : Wave) : (s.setWave t i v).inputs = s.inputs := rfl
@[simp] theorem State.setWave_held (s : State) (t i : Nat) (v : Wave) : (s.setWave t i v).held = s.held := rfl
@[simp] theorem State.setWave_free (s : State) (t i : Nat) (v : Wave) : (s.setWave t i v).free = s.free := rfl
@[simp] theorem State.setWave_nextId (s : State) (t i : Nat) (v : Wave) : (s.setWave t i v).nextId = s.nextId := rfl
@[simp] theorem State.setWave_now (s : State) (t i : Nat) (v : Wave) : (s.setWave t i v).now = s.now := rfl
@[simp] theorem State.setWave_hbm (s : State) (t i : Nat) (v : Wave) : (s.setWave t i v).hbm = s.hbm := rfl
@[simp] theorem State.setWave_seals (s : State) (t i : Nat) (v : Wave) : (s.setWave t i v).seals = s.seals := rfl
@[simp] theorem State.setWave_hostMem (s : State) (t i : Nat) (v : Wave) : (s.setWave t i v).hostMem = s.hostMem := rfl
@[simp] theorem State.setWave_devTab (s : State) (t i : Nat) (v : Wave) : (s.setWave t i v).devTab = s.devTab := rfl
@[simp] theorem State.setWave_owners (s : State) (t i : Nat) (v : Wave) : (s.setWave t i v).owners = s.owners := rfl
@[simp] theorem State.setWave_unmaps (s : State) (t i : Nat) (v : Wave) : (s.setWave t i v).unmaps = s.unmaps := rfl
@[simp] theorem State.setWave_threads (s : State) (t i : Nat) (v : Wave) : (s.setWave t i v).threads = s.threads := rfl
@[simp] theorem State.setWave_teams (s : State) (t i : Nat) (v : Wave) : (s.setWave t i v).teams = s.teams := rfl
@[simp] theorem State.setWave_clusters (s : State) (t i : Nat) (v : Wave) : (s.setWave t i v).clusters = s.clusters := rfl
@[simp] theorem State.setWave_launches (s : State) (t i : Nat) (v : Wave) : (s.setWave t i v).launches = s.launches := rfl
@[simp] theorem State.setWave_images (s : State) (t i : Nat) (v : Wave) : (s.setWave t i v).images = s.images := rfl
@[simp] theorem State.setWave_passes (s : State) (t i : Nat) (v : Wave) : (s.setWave t i v).passes = s.passes := rfl
@[simp] theorem State.setWave_cands (s : State) (t i : Nat) (v : Wave) : (s.setWave t i v).cands = s.cands := rfl
@[simp] theorem State.setWave_lastRow1 (s : State) (t i : Nat) (v : Wave) : (s.setWave t i v).lastRow1 = s.lastRow1 := rfl
@[simp] theorem State.setWave_pends (s : State) (t i : Nat) (v : Wave) : (s.setWave t i v).pends = s.pends := rfl
@[simp] theorem State.setWave_copies (s : State) (t i : Nat) (v : Wave) : (s.setWave t i v).copies = s.copies := rfl
@[simp] theorem State.setWave_bankOps (s : State) (t i : Nat) (v : Wave) : (s.setWave t i v).bankOps = s.bankOps := rfl
@[simp] theorem State.setWave_drains (s : State) (t i : Nat) (v : Wave) : (s.setWave t i v).drains = s.drains := rfl
@[simp] theorem State.setWave_wbufUses (s : State) (t i : Nat) (v : Wave) : (s.setWave t i v).wbufUses = s.wbufUses := rfl
@[simp] theorem State.setWave_calls (s : State) (t i : Nat) (v : Wave) : (s.setWave t i v).calls = s.calls := rfl
@[simp] theorem State.setWave_dues (s : State) (t i : Nat) (v : Wave) : (s.setWave t i v).dues = s.dues := rfl
@[simp] theorem State.setWave_svcSeq (s : State) (t i : Nat) (v : Wave) : (s.setWave t i v).svcSeq = s.svcSeq := rfl
@[simp] theorem State.setWave_recs (s : State) (t i : Nat) (v : Wave) : (s.setWave t i v).recs = s.recs := rfl
@[simp] theorem State.setWave_accs (s : State) (t i : Nat) (v : Wave) : (s.setWave t i v).accs = s.accs := rfl
@[simp] theorem State.setWave_accSaved (s : State) (t i : Nat) (v : Wave) : (s.setWave t i v).accSaved = s.accSaved := rfl
@[simp] theorem State.setWave_copyQ (s : State) (t i : Nat) (v : Wave) : (s.setWave t i v).copyQ = s.copyQ := rfl
@[simp] theorem State.setWave_wbufs (s : State) (t i : Nat) (v : Wave) : (s.setWave t i v).wbufs = s.wbufs := rfl
@[simp] theorem State.setWave_accOwner (s : State) (t i : Nat) (v : Wave) : (s.setWave t i v).accOwner = s.accOwner := rfl
@[simp] theorem State.setWave_ctemp (s : State) (t i : Nat) (v : Wave) : (s.setWave t i v).ctemp = s.ctemp := rfl
@[simp] theorem State.setWave_throt (s : State) (t i : Nat) (v : Wave) : (s.setWave t i v).throt = s.throt := rfl
@[simp] theorem State.setWave_resets (s : State) (t i : Nat) (v : Wave) : (s.setWave t i v).resets = s.resets := rfl
@[simp] theorem State.setWave_worlds (s : State) (t i : Nat) (v : Wave) : (s.setWave t i v).worlds = s.worlds := rfl
@[simp] theorem State.setWave_tenants (s : State) (t i : Nat) (v : Wave) : (s.setWave t i v).tenants = s.tenants := rfl
@[simp] theorem State.setWave_tlb (s : State) (t i : Nat) (v : Wave) : (s.setWave t i v).tlb = s.tlb := rfl
@[simp] theorem State.setWave_nonLeaf (s : State) (t i : Nat) (v : Wave) : (s.setWave t i v).nonLeaf = s.nonLeaf := rfl
@[simp] theorem State.setWave_pctx (s : State) (t i : Nat) (v : Wave) : (s.setWave t i v).pctx = s.pctx := rfl
@[simp] theorem State.setWave_pageReqs (s : State) (t i : Nat) (v : Wave) : (s.setWave t i v).pageReqs = s.pageReqs := rfl
@[simp] theorem State.setWave_tries (s : State) (t i : Nat) (v : Wave) : (s.setWave t i v).tries = s.tries := rfl
@[simp] theorem State.setWave_breaks (s : State) (t i : Nat) (v : Wave) : (s.setWave t i v).breaks = s.breaks := rfl
@[simp] theorem State.setWave_shared (s : State) (t i : Nat) (v : Wave) : (s.setWave t i v).shared = s.shared := rfl
@[simp] theorem State.setWave_perf (s : State) (t i : Nat) (v : Wave) : (s.setWave t i v).perf = s.perf := rfl
@[simp] theorem State.setWave_cycles (s : State) (t i : Nat) (v : Wave) : (s.setWave t i v).cycles = s.cycles := rfl
@[simp] theorem State.setWave_parts (s : State) (t i : Nat) (v : Wave) : (s.setWave t i v).parts = s.parts := rfl
@[simp] theorem State.setWave_slots (s : State) (t i : Nat) (v : Wave) : (s.setWave t i v).slots = s.slots := rfl
@[simp] theorem State.setWave_buckets (s : State) (t i : Nat) (v : Wave) : (s.setWave t i v).buckets = s.buckets := rfl
@[simp] theorem State.setWave_pools (s : State) (t i : Nat) (v : Wave) : (s.setWave t i v).pools = s.pools := rfl
@[simp] theorem State.setWave_subs (s : State) (t i : Nat) (v : Wave) : (s.setWave t i v).subs = s.subs := rfl
@[simp] theorem State.setWave_admLast (s : State) (t i : Nat) (v : Wave) : (s.setWave t i v).admLast = s.admLast := rfl
@[simp] theorem State.setWave_fabric (s : State) (t i : Nat) (v : Wave) : (s.setWave t i v).fabric = s.fabric := rfl
@[simp] theorem State.setWave_reductions (s : State) (t i : Nat) (v : Wave) : (s.setWave t i v).reductions = s.reductions := rfl
@[simp] theorem State.setWave_node (s : State) (t i : Nat) (v : Wave) : (s.setWave t i v).node = s.node := rfl
@[simp] theorem State.setWave_hostLines (s : State) (t i : Nat) (v : Wave) : (s.setWave t i v).hostLines = s.hostLines := rfl
@[simp] theorem State.setWave_invals (s : State) (t i : Nat) (v : Wave) : (s.setWave t i v).invals = s.invals := rfl
@[simp] theorem State.setWave_power (s : State) (t i : Nat) (v : Wave) : (s.setWave t i v).power = s.power := rfl
@[simp] theorem State.setWave_outbox (s : State) (t i : Nat) (v : Wave) : (s.setWave t i v).outbox = s.outbox := rfl

@[simp] theorem State.modThread_turn (s : State) (t i : Nat) (f : Thread → Thread) : (s.modThread t i f).turn = s.turn := rfl
@[simp] theorem State.modThread_inputs (s : State) (t i : Nat) (f : Thread → Thread) : (s.modThread t i f).inputs = s.inputs := rfl
@[simp] theorem State.modThread_held (s : State) (t i : Nat) (f : Thread → Thread) : (s.modThread t i f).held = s.held := rfl
@[simp] theorem State.modThread_free (s : State) (t i : Nat) (f : Thread → Thread) : (s.modThread t i f).free = s.free := rfl
@[simp] theorem State.modThread_nextId (s : State) (t i : Nat) (f : Thread → Thread) : (s.modThread t i f).nextId = s.nextId := rfl
@[simp] theorem State.modThread_now (s : State) (t i : Nat) (f : Thread → Thread) : (s.modThread t i f).now = s.now := rfl
@[simp] theorem State.modThread_hbm (s : State) (t i : Nat) (f : Thread → Thread) : (s.modThread t i f).hbm = s.hbm := rfl
@[simp] theorem State.modThread_seals (s : State) (t i : Nat) (f : Thread → Thread) : (s.modThread t i f).seals = s.seals := rfl
@[simp] theorem State.modThread_hostMem (s : State) (t i : Nat) (f : Thread → Thread) : (s.modThread t i f).hostMem = s.hostMem := rfl
@[simp] theorem State.modThread_devTab (s : State) (t i : Nat) (f : Thread → Thread) : (s.modThread t i f).devTab = s.devTab := rfl
@[simp] theorem State.modThread_owners (s : State) (t i : Nat) (f : Thread → Thread) : (s.modThread t i f).owners = s.owners := rfl
@[simp] theorem State.modThread_unmaps (s : State) (t i : Nat) (f : Thread → Thread) : (s.modThread t i f).unmaps = s.unmaps := rfl
@[simp] theorem State.modThread_waves (s : State) (t i : Nat) (f : Thread → Thread) : (s.modThread t i f).waves = s.waves := rfl
@[simp] theorem State.modThread_teams (s : State) (t i : Nat) (f : Thread → Thread) : (s.modThread t i f).teams = s.teams := rfl
@[simp] theorem State.modThread_clusters (s : State) (t i : Nat) (f : Thread → Thread) : (s.modThread t i f).clusters = s.clusters := rfl
@[simp] theorem State.modThread_launches (s : State) (t i : Nat) (f : Thread → Thread) : (s.modThread t i f).launches = s.launches := rfl
@[simp] theorem State.modThread_images (s : State) (t i : Nat) (f : Thread → Thread) : (s.modThread t i f).images = s.images := rfl
@[simp] theorem State.modThread_passes (s : State) (t i : Nat) (f : Thread → Thread) : (s.modThread t i f).passes = s.passes := rfl
@[simp] theorem State.modThread_cands (s : State) (t i : Nat) (f : Thread → Thread) : (s.modThread t i f).cands = s.cands := rfl
@[simp] theorem State.modThread_lastRow1 (s : State) (t i : Nat) (f : Thread → Thread) : (s.modThread t i f).lastRow1 = s.lastRow1 := rfl
@[simp] theorem State.modThread_pends (s : State) (t i : Nat) (f : Thread → Thread) : (s.modThread t i f).pends = s.pends := rfl
@[simp] theorem State.modThread_copies (s : State) (t i : Nat) (f : Thread → Thread) : (s.modThread t i f).copies = s.copies := rfl
@[simp] theorem State.modThread_bankOps (s : State) (t i : Nat) (f : Thread → Thread) : (s.modThread t i f).bankOps = s.bankOps := rfl
@[simp] theorem State.modThread_drains (s : State) (t i : Nat) (f : Thread → Thread) : (s.modThread t i f).drains = s.drains := rfl
@[simp] theorem State.modThread_wbufUses (s : State) (t i : Nat) (f : Thread → Thread) : (s.modThread t i f).wbufUses = s.wbufUses := rfl
@[simp] theorem State.modThread_calls (s : State) (t i : Nat) (f : Thread → Thread) : (s.modThread t i f).calls = s.calls := rfl
@[simp] theorem State.modThread_dues (s : State) (t i : Nat) (f : Thread → Thread) : (s.modThread t i f).dues = s.dues := rfl
@[simp] theorem State.modThread_svcSeq (s : State) (t i : Nat) (f : Thread → Thread) : (s.modThread t i f).svcSeq = s.svcSeq := rfl
@[simp] theorem State.modThread_recs (s : State) (t i : Nat) (f : Thread → Thread) : (s.modThread t i f).recs = s.recs := rfl
@[simp] theorem State.modThread_accs (s : State) (t i : Nat) (f : Thread → Thread) : (s.modThread t i f).accs = s.accs := rfl
@[simp] theorem State.modThread_accSaved (s : State) (t i : Nat) (f : Thread → Thread) : (s.modThread t i f).accSaved = s.accSaved := rfl
@[simp] theorem State.modThread_copyQ (s : State) (t i : Nat) (f : Thread → Thread) : (s.modThread t i f).copyQ = s.copyQ := rfl
@[simp] theorem State.modThread_wbufs (s : State) (t i : Nat) (f : Thread → Thread) : (s.modThread t i f).wbufs = s.wbufs := rfl
@[simp] theorem State.modThread_accOwner (s : State) (t i : Nat) (f : Thread → Thread) : (s.modThread t i f).accOwner = s.accOwner := rfl
@[simp] theorem State.modThread_ctemp (s : State) (t i : Nat) (f : Thread → Thread) : (s.modThread t i f).ctemp = s.ctemp := rfl
@[simp] theorem State.modThread_throt (s : State) (t i : Nat) (f : Thread → Thread) : (s.modThread t i f).throt = s.throt := rfl
@[simp] theorem State.modThread_resets (s : State) (t i : Nat) (f : Thread → Thread) : (s.modThread t i f).resets = s.resets := rfl
@[simp] theorem State.modThread_worlds (s : State) (t i : Nat) (f : Thread → Thread) : (s.modThread t i f).worlds = s.worlds := rfl
@[simp] theorem State.modThread_tenants (s : State) (t i : Nat) (f : Thread → Thread) : (s.modThread t i f).tenants = s.tenants := rfl
@[simp] theorem State.modThread_tlb (s : State) (t i : Nat) (f : Thread → Thread) : (s.modThread t i f).tlb = s.tlb := rfl
@[simp] theorem State.modThread_nonLeaf (s : State) (t i : Nat) (f : Thread → Thread) : (s.modThread t i f).nonLeaf = s.nonLeaf := rfl
@[simp] theorem State.modThread_pctx (s : State) (t i : Nat) (f : Thread → Thread) : (s.modThread t i f).pctx = s.pctx := rfl
@[simp] theorem State.modThread_pageReqs (s : State) (t i : Nat) (f : Thread → Thread) : (s.modThread t i f).pageReqs = s.pageReqs := rfl
@[simp] theorem State.modThread_tries (s : State) (t i : Nat) (f : Thread → Thread) : (s.modThread t i f).tries = s.tries := rfl
@[simp] theorem State.modThread_breaks (s : State) (t i : Nat) (f : Thread → Thread) : (s.modThread t i f).breaks = s.breaks := rfl
@[simp] theorem State.modThread_shared (s : State) (t i : Nat) (f : Thread → Thread) : (s.modThread t i f).shared = s.shared := rfl
@[simp] theorem State.modThread_perf (s : State) (t i : Nat) (f : Thread → Thread) : (s.modThread t i f).perf = s.perf := rfl
@[simp] theorem State.modThread_cycles (s : State) (t i : Nat) (f : Thread → Thread) : (s.modThread t i f).cycles = s.cycles := rfl
@[simp] theorem State.modThread_parts (s : State) (t i : Nat) (f : Thread → Thread) : (s.modThread t i f).parts = s.parts := rfl
@[simp] theorem State.modThread_slots (s : State) (t i : Nat) (f : Thread → Thread) : (s.modThread t i f).slots = s.slots := rfl
@[simp] theorem State.modThread_buckets (s : State) (t i : Nat) (f : Thread → Thread) : (s.modThread t i f).buckets = s.buckets := rfl
@[simp] theorem State.modThread_pools (s : State) (t i : Nat) (f : Thread → Thread) : (s.modThread t i f).pools = s.pools := rfl
@[simp] theorem State.modThread_subs (s : State) (t i : Nat) (f : Thread → Thread) : (s.modThread t i f).subs = s.subs := rfl
@[simp] theorem State.modThread_admLast (s : State) (t i : Nat) (f : Thread → Thread) : (s.modThread t i f).admLast = s.admLast := rfl
@[simp] theorem State.modThread_fabric (s : State) (t i : Nat) (f : Thread → Thread) : (s.modThread t i f).fabric = s.fabric := rfl
@[simp] theorem State.modThread_reductions (s : State) (t i : Nat) (f : Thread → Thread) : (s.modThread t i f).reductions = s.reductions := rfl
@[simp] theorem State.modThread_node (s : State) (t i : Nat) (f : Thread → Thread) : (s.modThread t i f).node = s.node := rfl
@[simp] theorem State.modThread_hostLines (s : State) (t i : Nat) (f : Thread → Thread) : (s.modThread t i f).hostLines = s.hostLines := rfl
@[simp] theorem State.modThread_invals (s : State) (t i : Nat) (f : Thread → Thread) : (s.modThread t i f).invals = s.invals := rfl
@[simp] theorem State.modThread_power (s : State) (t i : Nat) (f : Thread → Thread) : (s.modThread t i f).power = s.power := rfl
@[simp] theorem State.modThread_outbox (s : State) (t i : Nat) (f : Thread → Thread) : (s.modThread t i f).outbox = s.outbox := rfl

@[simp] theorem State.modTeam_turn (s : State) (t : Nat) (f : Team → Team) : (s.modTeam t f).turn = s.turn := rfl
@[simp] theorem State.modTeam_inputs (s : State) (t : Nat) (f : Team → Team) : (s.modTeam t f).inputs = s.inputs := rfl
@[simp] theorem State.modTeam_held (s : State) (t : Nat) (f : Team → Team) : (s.modTeam t f).held = s.held := rfl
@[simp] theorem State.modTeam_free (s : State) (t : Nat) (f : Team → Team) : (s.modTeam t f).free = s.free := rfl
@[simp] theorem State.modTeam_nextId (s : State) (t : Nat) (f : Team → Team) : (s.modTeam t f).nextId = s.nextId := rfl
@[simp] theorem State.modTeam_now (s : State) (t : Nat) (f : Team → Team) : (s.modTeam t f).now = s.now := rfl
@[simp] theorem State.modTeam_hbm (s : State) (t : Nat) (f : Team → Team) : (s.modTeam t f).hbm = s.hbm := rfl
@[simp] theorem State.modTeam_seals (s : State) (t : Nat) (f : Team → Team) : (s.modTeam t f).seals = s.seals := rfl
@[simp] theorem State.modTeam_hostMem (s : State) (t : Nat) (f : Team → Team) : (s.modTeam t f).hostMem = s.hostMem := rfl
@[simp] theorem State.modTeam_devTab (s : State) (t : Nat) (f : Team → Team) : (s.modTeam t f).devTab = s.devTab := rfl
@[simp] theorem State.modTeam_owners (s : State) (t : Nat) (f : Team → Team) : (s.modTeam t f).owners = s.owners := rfl
@[simp] theorem State.modTeam_unmaps (s : State) (t : Nat) (f : Team → Team) : (s.modTeam t f).unmaps = s.unmaps := rfl
@[simp] theorem State.modTeam_threads (s : State) (t : Nat) (f : Team → Team) : (s.modTeam t f).threads = s.threads := rfl
@[simp] theorem State.modTeam_waves (s : State) (t : Nat) (f : Team → Team) : (s.modTeam t f).waves = s.waves := rfl
@[simp] theorem State.modTeam_clusters (s : State) (t : Nat) (f : Team → Team) : (s.modTeam t f).clusters = s.clusters := rfl
@[simp] theorem State.modTeam_launches (s : State) (t : Nat) (f : Team → Team) : (s.modTeam t f).launches = s.launches := rfl
@[simp] theorem State.modTeam_images (s : State) (t : Nat) (f : Team → Team) : (s.modTeam t f).images = s.images := rfl
@[simp] theorem State.modTeam_passes (s : State) (t : Nat) (f : Team → Team) : (s.modTeam t f).passes = s.passes := rfl
@[simp] theorem State.modTeam_cands (s : State) (t : Nat) (f : Team → Team) : (s.modTeam t f).cands = s.cands := rfl
@[simp] theorem State.modTeam_lastRow1 (s : State) (t : Nat) (f : Team → Team) : (s.modTeam t f).lastRow1 = s.lastRow1 := rfl
@[simp] theorem State.modTeam_pends (s : State) (t : Nat) (f : Team → Team) : (s.modTeam t f).pends = s.pends := rfl
@[simp] theorem State.modTeam_copies (s : State) (t : Nat) (f : Team → Team) : (s.modTeam t f).copies = s.copies := rfl
@[simp] theorem State.modTeam_bankOps (s : State) (t : Nat) (f : Team → Team) : (s.modTeam t f).bankOps = s.bankOps := rfl
@[simp] theorem State.modTeam_drains (s : State) (t : Nat) (f : Team → Team) : (s.modTeam t f).drains = s.drains := rfl
@[simp] theorem State.modTeam_wbufUses (s : State) (t : Nat) (f : Team → Team) : (s.modTeam t f).wbufUses = s.wbufUses := rfl
@[simp] theorem State.modTeam_calls (s : State) (t : Nat) (f : Team → Team) : (s.modTeam t f).calls = s.calls := rfl
@[simp] theorem State.modTeam_dues (s : State) (t : Nat) (f : Team → Team) : (s.modTeam t f).dues = s.dues := rfl
@[simp] theorem State.modTeam_svcSeq (s : State) (t : Nat) (f : Team → Team) : (s.modTeam t f).svcSeq = s.svcSeq := rfl
@[simp] theorem State.modTeam_recs (s : State) (t : Nat) (f : Team → Team) : (s.modTeam t f).recs = s.recs := rfl
@[simp] theorem State.modTeam_accs (s : State) (t : Nat) (f : Team → Team) : (s.modTeam t f).accs = s.accs := rfl
@[simp] theorem State.modTeam_accSaved (s : State) (t : Nat) (f : Team → Team) : (s.modTeam t f).accSaved = s.accSaved := rfl
@[simp] theorem State.modTeam_copyQ (s : State) (t : Nat) (f : Team → Team) : (s.modTeam t f).copyQ = s.copyQ := rfl
@[simp] theorem State.modTeam_wbufs (s : State) (t : Nat) (f : Team → Team) : (s.modTeam t f).wbufs = s.wbufs := rfl
@[simp] theorem State.modTeam_accOwner (s : State) (t : Nat) (f : Team → Team) : (s.modTeam t f).accOwner = s.accOwner := rfl
@[simp] theorem State.modTeam_ctemp (s : State) (t : Nat) (f : Team → Team) : (s.modTeam t f).ctemp = s.ctemp := rfl
@[simp] theorem State.modTeam_throt (s : State) (t : Nat) (f : Team → Team) : (s.modTeam t f).throt = s.throt := rfl
@[simp] theorem State.modTeam_resets (s : State) (t : Nat) (f : Team → Team) : (s.modTeam t f).resets = s.resets := rfl
@[simp] theorem State.modTeam_worlds (s : State) (t : Nat) (f : Team → Team) : (s.modTeam t f).worlds = s.worlds := rfl
@[simp] theorem State.modTeam_tenants (s : State) (t : Nat) (f : Team → Team) : (s.modTeam t f).tenants = s.tenants := rfl
@[simp] theorem State.modTeam_tlb (s : State) (t : Nat) (f : Team → Team) : (s.modTeam t f).tlb = s.tlb := rfl
@[simp] theorem State.modTeam_nonLeaf (s : State) (t : Nat) (f : Team → Team) : (s.modTeam t f).nonLeaf = s.nonLeaf := rfl
@[simp] theorem State.modTeam_pctx (s : State) (t : Nat) (f : Team → Team) : (s.modTeam t f).pctx = s.pctx := rfl
@[simp] theorem State.modTeam_pageReqs (s : State) (t : Nat) (f : Team → Team) : (s.modTeam t f).pageReqs = s.pageReqs := rfl
@[simp] theorem State.modTeam_tries (s : State) (t : Nat) (f : Team → Team) : (s.modTeam t f).tries = s.tries := rfl
@[simp] theorem State.modTeam_breaks (s : State) (t : Nat) (f : Team → Team) : (s.modTeam t f).breaks = s.breaks := rfl
@[simp] theorem State.modTeam_shared (s : State) (t : Nat) (f : Team → Team) : (s.modTeam t f).shared = s.shared := rfl
@[simp] theorem State.modTeam_perf (s : State) (t : Nat) (f : Team → Team) : (s.modTeam t f).perf = s.perf := rfl
@[simp] theorem State.modTeam_cycles (s : State) (t : Nat) (f : Team → Team) : (s.modTeam t f).cycles = s.cycles := rfl
@[simp] theorem State.modTeam_parts (s : State) (t : Nat) (f : Team → Team) : (s.modTeam t f).parts = s.parts := rfl
@[simp] theorem State.modTeam_slots (s : State) (t : Nat) (f : Team → Team) : (s.modTeam t f).slots = s.slots := rfl
@[simp] theorem State.modTeam_buckets (s : State) (t : Nat) (f : Team → Team) : (s.modTeam t f).buckets = s.buckets := rfl
@[simp] theorem State.modTeam_pools (s : State) (t : Nat) (f : Team → Team) : (s.modTeam t f).pools = s.pools := rfl
@[simp] theorem State.modTeam_subs (s : State) (t : Nat) (f : Team → Team) : (s.modTeam t f).subs = s.subs := rfl
@[simp] theorem State.modTeam_admLast (s : State) (t : Nat) (f : Team → Team) : (s.modTeam t f).admLast = s.admLast := rfl
@[simp] theorem State.modTeam_fabric (s : State) (t : Nat) (f : Team → Team) : (s.modTeam t f).fabric = s.fabric := rfl
@[simp] theorem State.modTeam_reductions (s : State) (t : Nat) (f : Team → Team) : (s.modTeam t f).reductions = s.reductions := rfl
@[simp] theorem State.modTeam_node (s : State) (t : Nat) (f : Team → Team) : (s.modTeam t f).node = s.node := rfl
@[simp] theorem State.modTeam_hostLines (s : State) (t : Nat) (f : Team → Team) : (s.modTeam t f).hostLines = s.hostLines := rfl
@[simp] theorem State.modTeam_invals (s : State) (t : Nat) (f : Team → Team) : (s.modTeam t f).invals = s.invals := rfl
@[simp] theorem State.modTeam_power (s : State) (t : Nat) (f : Team → Team) : (s.modTeam t f).power = s.power := rfl
@[simp] theorem State.modTeam_outbox (s : State) (t : Nat) (f : Team → Team) : (s.modTeam t f).outbox = s.outbox := rfl

@[simp] theorem State.modCluster_turn (s : State) (c : Nat) (f : Cluster → Cluster) : (s.modCluster c f).turn = s.turn := rfl
@[simp] theorem State.modCluster_inputs (s : State) (c : Nat) (f : Cluster → Cluster) : (s.modCluster c f).inputs = s.inputs := rfl
@[simp] theorem State.modCluster_held (s : State) (c : Nat) (f : Cluster → Cluster) : (s.modCluster c f).held = s.held := rfl
@[simp] theorem State.modCluster_free (s : State) (c : Nat) (f : Cluster → Cluster) : (s.modCluster c f).free = s.free := rfl
@[simp] theorem State.modCluster_nextId (s : State) (c : Nat) (f : Cluster → Cluster) : (s.modCluster c f).nextId = s.nextId := rfl
@[simp] theorem State.modCluster_now (s : State) (c : Nat) (f : Cluster → Cluster) : (s.modCluster c f).now = s.now := rfl
@[simp] theorem State.modCluster_hbm (s : State) (c : Nat) (f : Cluster → Cluster) : (s.modCluster c f).hbm = s.hbm := rfl
@[simp] theorem State.modCluster_seals (s : State) (c : Nat) (f : Cluster → Cluster) : (s.modCluster c f).seals = s.seals := rfl
@[simp] theorem State.modCluster_hostMem (s : State) (c : Nat) (f : Cluster → Cluster) : (s.modCluster c f).hostMem = s.hostMem := rfl
@[simp] theorem State.modCluster_devTab (s : State) (c : Nat) (f : Cluster → Cluster) : (s.modCluster c f).devTab = s.devTab := rfl
@[simp] theorem State.modCluster_owners (s : State) (c : Nat) (f : Cluster → Cluster) : (s.modCluster c f).owners = s.owners := rfl
@[simp] theorem State.modCluster_unmaps (s : State) (c : Nat) (f : Cluster → Cluster) : (s.modCluster c f).unmaps = s.unmaps := rfl
@[simp] theorem State.modCluster_threads (s : State) (c : Nat) (f : Cluster → Cluster) : (s.modCluster c f).threads = s.threads := rfl
@[simp] theorem State.modCluster_waves (s : State) (c : Nat) (f : Cluster → Cluster) : (s.modCluster c f).waves = s.waves := rfl
@[simp] theorem State.modCluster_teams (s : State) (c : Nat) (f : Cluster → Cluster) : (s.modCluster c f).teams = s.teams := rfl
@[simp] theorem State.modCluster_launches (s : State) (c : Nat) (f : Cluster → Cluster) : (s.modCluster c f).launches = s.launches := rfl
@[simp] theorem State.modCluster_images (s : State) (c : Nat) (f : Cluster → Cluster) : (s.modCluster c f).images = s.images := rfl
@[simp] theorem State.modCluster_passes (s : State) (c : Nat) (f : Cluster → Cluster) : (s.modCluster c f).passes = s.passes := rfl
@[simp] theorem State.modCluster_cands (s : State) (c : Nat) (f : Cluster → Cluster) : (s.modCluster c f).cands = s.cands := rfl
@[simp] theorem State.modCluster_lastRow1 (s : State) (c : Nat) (f : Cluster → Cluster) : (s.modCluster c f).lastRow1 = s.lastRow1 := rfl
@[simp] theorem State.modCluster_pends (s : State) (c : Nat) (f : Cluster → Cluster) : (s.modCluster c f).pends = s.pends := rfl
@[simp] theorem State.modCluster_copies (s : State) (c : Nat) (f : Cluster → Cluster) : (s.modCluster c f).copies = s.copies := rfl
@[simp] theorem State.modCluster_bankOps (s : State) (c : Nat) (f : Cluster → Cluster) : (s.modCluster c f).bankOps = s.bankOps := rfl
@[simp] theorem State.modCluster_drains (s : State) (c : Nat) (f : Cluster → Cluster) : (s.modCluster c f).drains = s.drains := rfl
@[simp] theorem State.modCluster_wbufUses (s : State) (c : Nat) (f : Cluster → Cluster) : (s.modCluster c f).wbufUses = s.wbufUses := rfl
@[simp] theorem State.modCluster_calls (s : State) (c : Nat) (f : Cluster → Cluster) : (s.modCluster c f).calls = s.calls := rfl
@[simp] theorem State.modCluster_dues (s : State) (c : Nat) (f : Cluster → Cluster) : (s.modCluster c f).dues = s.dues := rfl
@[simp] theorem State.modCluster_svcSeq (s : State) (c : Nat) (f : Cluster → Cluster) : (s.modCluster c f).svcSeq = s.svcSeq := rfl
@[simp] theorem State.modCluster_recs (s : State) (c : Nat) (f : Cluster → Cluster) : (s.modCluster c f).recs = s.recs := rfl
@[simp] theorem State.modCluster_accs (s : State) (c : Nat) (f : Cluster → Cluster) : (s.modCluster c f).accs = s.accs := rfl
@[simp] theorem State.modCluster_accSaved (s : State) (c : Nat) (f : Cluster → Cluster) : (s.modCluster c f).accSaved = s.accSaved := rfl
@[simp] theorem State.modCluster_copyQ (s : State) (c : Nat) (f : Cluster → Cluster) : (s.modCluster c f).copyQ = s.copyQ := rfl
@[simp] theorem State.modCluster_wbufs (s : State) (c : Nat) (f : Cluster → Cluster) : (s.modCluster c f).wbufs = s.wbufs := rfl
@[simp] theorem State.modCluster_accOwner (s : State) (c : Nat) (f : Cluster → Cluster) : (s.modCluster c f).accOwner = s.accOwner := rfl
@[simp] theorem State.modCluster_ctemp (s : State) (c : Nat) (f : Cluster → Cluster) : (s.modCluster c f).ctemp = s.ctemp := rfl
@[simp] theorem State.modCluster_throt (s : State) (c : Nat) (f : Cluster → Cluster) : (s.modCluster c f).throt = s.throt := rfl
@[simp] theorem State.modCluster_resets (s : State) (c : Nat) (f : Cluster → Cluster) : (s.modCluster c f).resets = s.resets := rfl
@[simp] theorem State.modCluster_worlds (s : State) (c : Nat) (f : Cluster → Cluster) : (s.modCluster c f).worlds = s.worlds := rfl
@[simp] theorem State.modCluster_tenants (s : State) (c : Nat) (f : Cluster → Cluster) : (s.modCluster c f).tenants = s.tenants := rfl
@[simp] theorem State.modCluster_tlb (s : State) (c : Nat) (f : Cluster → Cluster) : (s.modCluster c f).tlb = s.tlb := rfl
@[simp] theorem State.modCluster_nonLeaf (s : State) (c : Nat) (f : Cluster → Cluster) : (s.modCluster c f).nonLeaf = s.nonLeaf := rfl
@[simp] theorem State.modCluster_pctx (s : State) (c : Nat) (f : Cluster → Cluster) : (s.modCluster c f).pctx = s.pctx := rfl
@[simp] theorem State.modCluster_pageReqs (s : State) (c : Nat) (f : Cluster → Cluster) : (s.modCluster c f).pageReqs = s.pageReqs := rfl
@[simp] theorem State.modCluster_tries (s : State) (c : Nat) (f : Cluster → Cluster) : (s.modCluster c f).tries = s.tries := rfl
@[simp] theorem State.modCluster_breaks (s : State) (c : Nat) (f : Cluster → Cluster) : (s.modCluster c f).breaks = s.breaks := rfl
@[simp] theorem State.modCluster_shared (s : State) (c : Nat) (f : Cluster → Cluster) : (s.modCluster c f).shared = s.shared := rfl
@[simp] theorem State.modCluster_perf (s : State) (c : Nat) (f : Cluster → Cluster) : (s.modCluster c f).perf = s.perf := rfl
@[simp] theorem State.modCluster_cycles (s : State) (c : Nat) (f : Cluster → Cluster) : (s.modCluster c f).cycles = s.cycles := rfl
@[simp] theorem State.modCluster_parts (s : State) (c : Nat) (f : Cluster → Cluster) : (s.modCluster c f).parts = s.parts := rfl
@[simp] theorem State.modCluster_slots (s : State) (c : Nat) (f : Cluster → Cluster) : (s.modCluster c f).slots = s.slots := rfl
@[simp] theorem State.modCluster_buckets (s : State) (c : Nat) (f : Cluster → Cluster) : (s.modCluster c f).buckets = s.buckets := rfl
@[simp] theorem State.modCluster_pools (s : State) (c : Nat) (f : Cluster → Cluster) : (s.modCluster c f).pools = s.pools := rfl
@[simp] theorem State.modCluster_subs (s : State) (c : Nat) (f : Cluster → Cluster) : (s.modCluster c f).subs = s.subs := rfl
@[simp] theorem State.modCluster_admLast (s : State) (c : Nat) (f : Cluster → Cluster) : (s.modCluster c f).admLast = s.admLast := rfl
@[simp] theorem State.modCluster_fabric (s : State) (c : Nat) (f : Cluster → Cluster) : (s.modCluster c f).fabric = s.fabric := rfl
@[simp] theorem State.modCluster_reductions (s : State) (c : Nat) (f : Cluster → Cluster) : (s.modCluster c f).reductions = s.reductions := rfl
@[simp] theorem State.modCluster_node (s : State) (c : Nat) (f : Cluster → Cluster) : (s.modCluster c f).node = s.node := rfl
@[simp] theorem State.modCluster_hostLines (s : State) (c : Nat) (f : Cluster → Cluster) : (s.modCluster c f).hostLines = s.hostLines := rfl
@[simp] theorem State.modCluster_invals (s : State) (c : Nat) (f : Cluster → Cluster) : (s.modCluster c f).invals = s.invals := rfl
@[simp] theorem State.modCluster_power (s : State) (c : Nat) (f : Cluster → Cluster) : (s.modCluster c f).power = s.power := rfl
@[simp] theorem State.modCluster_outbox (s : State) (c : Nat) (f : Cluster → Cluster) : (s.modCluster c f).outbox = s.outbox := rfl

@[simp] theorem State.modLaunch_turn (s : State) (l : Nat) (f : Launch → Launch) : (s.modLaunch l f).turn = s.turn := rfl
@[simp] theorem State.modLaunch_inputs (s : State) (l : Nat) (f : Launch → Launch) : (s.modLaunch l f).inputs = s.inputs := rfl
@[simp] theorem State.modLaunch_held (s : State) (l : Nat) (f : Launch → Launch) : (s.modLaunch l f).held = s.held := rfl
@[simp] theorem State.modLaunch_free (s : State) (l : Nat) (f : Launch → Launch) : (s.modLaunch l f).free = s.free := rfl
@[simp] theorem State.modLaunch_nextId (s : State) (l : Nat) (f : Launch → Launch) : (s.modLaunch l f).nextId = s.nextId := rfl
@[simp] theorem State.modLaunch_now (s : State) (l : Nat) (f : Launch → Launch) : (s.modLaunch l f).now = s.now := rfl
@[simp] theorem State.modLaunch_hbm (s : State) (l : Nat) (f : Launch → Launch) : (s.modLaunch l f).hbm = s.hbm := rfl
@[simp] theorem State.modLaunch_seals (s : State) (l : Nat) (f : Launch → Launch) : (s.modLaunch l f).seals = s.seals := rfl
@[simp] theorem State.modLaunch_hostMem (s : State) (l : Nat) (f : Launch → Launch) : (s.modLaunch l f).hostMem = s.hostMem := rfl
@[simp] theorem State.modLaunch_devTab (s : State) (l : Nat) (f : Launch → Launch) : (s.modLaunch l f).devTab = s.devTab := rfl
@[simp] theorem State.modLaunch_owners (s : State) (l : Nat) (f : Launch → Launch) : (s.modLaunch l f).owners = s.owners := rfl
@[simp] theorem State.modLaunch_unmaps (s : State) (l : Nat) (f : Launch → Launch) : (s.modLaunch l f).unmaps = s.unmaps := rfl
@[simp] theorem State.modLaunch_threads (s : State) (l : Nat) (f : Launch → Launch) : (s.modLaunch l f).threads = s.threads := rfl
@[simp] theorem State.modLaunch_waves (s : State) (l : Nat) (f : Launch → Launch) : (s.modLaunch l f).waves = s.waves := rfl
@[simp] theorem State.modLaunch_teams (s : State) (l : Nat) (f : Launch → Launch) : (s.modLaunch l f).teams = s.teams := rfl
@[simp] theorem State.modLaunch_clusters (s : State) (l : Nat) (f : Launch → Launch) : (s.modLaunch l f).clusters = s.clusters := rfl
@[simp] theorem State.modLaunch_images (s : State) (l : Nat) (f : Launch → Launch) : (s.modLaunch l f).images = s.images := rfl
@[simp] theorem State.modLaunch_passes (s : State) (l : Nat) (f : Launch → Launch) : (s.modLaunch l f).passes = s.passes := rfl
@[simp] theorem State.modLaunch_cands (s : State) (l : Nat) (f : Launch → Launch) : (s.modLaunch l f).cands = s.cands := rfl
@[simp] theorem State.modLaunch_lastRow1 (s : State) (l : Nat) (f : Launch → Launch) : (s.modLaunch l f).lastRow1 = s.lastRow1 := rfl
@[simp] theorem State.modLaunch_pends (s : State) (l : Nat) (f : Launch → Launch) : (s.modLaunch l f).pends = s.pends := rfl
@[simp] theorem State.modLaunch_copies (s : State) (l : Nat) (f : Launch → Launch) : (s.modLaunch l f).copies = s.copies := rfl
@[simp] theorem State.modLaunch_bankOps (s : State) (l : Nat) (f : Launch → Launch) : (s.modLaunch l f).bankOps = s.bankOps := rfl
@[simp] theorem State.modLaunch_drains (s : State) (l : Nat) (f : Launch → Launch) : (s.modLaunch l f).drains = s.drains := rfl
@[simp] theorem State.modLaunch_wbufUses (s : State) (l : Nat) (f : Launch → Launch) : (s.modLaunch l f).wbufUses = s.wbufUses := rfl
@[simp] theorem State.modLaunch_calls (s : State) (l : Nat) (f : Launch → Launch) : (s.modLaunch l f).calls = s.calls := rfl
@[simp] theorem State.modLaunch_dues (s : State) (l : Nat) (f : Launch → Launch) : (s.modLaunch l f).dues = s.dues := rfl
@[simp] theorem State.modLaunch_svcSeq (s : State) (l : Nat) (f : Launch → Launch) : (s.modLaunch l f).svcSeq = s.svcSeq := rfl
@[simp] theorem State.modLaunch_recs (s : State) (l : Nat) (f : Launch → Launch) : (s.modLaunch l f).recs = s.recs := rfl
@[simp] theorem State.modLaunch_accs (s : State) (l : Nat) (f : Launch → Launch) : (s.modLaunch l f).accs = s.accs := rfl
@[simp] theorem State.modLaunch_accSaved (s : State) (l : Nat) (f : Launch → Launch) : (s.modLaunch l f).accSaved = s.accSaved := rfl
@[simp] theorem State.modLaunch_copyQ (s : State) (l : Nat) (f : Launch → Launch) : (s.modLaunch l f).copyQ = s.copyQ := rfl
@[simp] theorem State.modLaunch_wbufs (s : State) (l : Nat) (f : Launch → Launch) : (s.modLaunch l f).wbufs = s.wbufs := rfl
@[simp] theorem State.modLaunch_accOwner (s : State) (l : Nat) (f : Launch → Launch) : (s.modLaunch l f).accOwner = s.accOwner := rfl
@[simp] theorem State.modLaunch_ctemp (s : State) (l : Nat) (f : Launch → Launch) : (s.modLaunch l f).ctemp = s.ctemp := rfl
@[simp] theorem State.modLaunch_throt (s : State) (l : Nat) (f : Launch → Launch) : (s.modLaunch l f).throt = s.throt := rfl
@[simp] theorem State.modLaunch_resets (s : State) (l : Nat) (f : Launch → Launch) : (s.modLaunch l f).resets = s.resets := rfl
@[simp] theorem State.modLaunch_worlds (s : State) (l : Nat) (f : Launch → Launch) : (s.modLaunch l f).worlds = s.worlds := rfl
@[simp] theorem State.modLaunch_tenants (s : State) (l : Nat) (f : Launch → Launch) : (s.modLaunch l f).tenants = s.tenants := rfl
@[simp] theorem State.modLaunch_tlb (s : State) (l : Nat) (f : Launch → Launch) : (s.modLaunch l f).tlb = s.tlb := rfl
@[simp] theorem State.modLaunch_nonLeaf (s : State) (l : Nat) (f : Launch → Launch) : (s.modLaunch l f).nonLeaf = s.nonLeaf := rfl
@[simp] theorem State.modLaunch_pctx (s : State) (l : Nat) (f : Launch → Launch) : (s.modLaunch l f).pctx = s.pctx := rfl
@[simp] theorem State.modLaunch_pageReqs (s : State) (l : Nat) (f : Launch → Launch) : (s.modLaunch l f).pageReqs = s.pageReqs := rfl
@[simp] theorem State.modLaunch_tries (s : State) (l : Nat) (f : Launch → Launch) : (s.modLaunch l f).tries = s.tries := rfl
@[simp] theorem State.modLaunch_breaks (s : State) (l : Nat) (f : Launch → Launch) : (s.modLaunch l f).breaks = s.breaks := rfl
@[simp] theorem State.modLaunch_shared (s : State) (l : Nat) (f : Launch → Launch) : (s.modLaunch l f).shared = s.shared := rfl
@[simp] theorem State.modLaunch_perf (s : State) (l : Nat) (f : Launch → Launch) : (s.modLaunch l f).perf = s.perf := rfl
@[simp] theorem State.modLaunch_cycles (s : State) (l : Nat) (f : Launch → Launch) : (s.modLaunch l f).cycles = s.cycles := rfl
@[simp] theorem State.modLaunch_parts (s : State) (l : Nat) (f : Launch → Launch) : (s.modLaunch l f).parts = s.parts := rfl
@[simp] theorem State.modLaunch_slots (s : State) (l : Nat) (f : Launch → Launch) : (s.modLaunch l f).slots = s.slots := rfl
@[simp] theorem State.modLaunch_buckets (s : State) (l : Nat) (f : Launch → Launch) : (s.modLaunch l f).buckets = s.buckets := rfl
@[simp] theorem State.modLaunch_pools (s : State) (l : Nat) (f : Launch → Launch) : (s.modLaunch l f).pools = s.pools := rfl
@[simp] theorem State.modLaunch_subs (s : State) (l : Nat) (f : Launch → Launch) : (s.modLaunch l f).subs = s.subs := rfl
@[simp] theorem State.modLaunch_admLast (s : State) (l : Nat) (f : Launch → Launch) : (s.modLaunch l f).admLast = s.admLast := rfl
@[simp] theorem State.modLaunch_fabric (s : State) (l : Nat) (f : Launch → Launch) : (s.modLaunch l f).fabric = s.fabric := rfl
@[simp] theorem State.modLaunch_reductions (s : State) (l : Nat) (f : Launch → Launch) : (s.modLaunch l f).reductions = s.reductions := rfl
@[simp] theorem State.modLaunch_node (s : State) (l : Nat) (f : Launch → Launch) : (s.modLaunch l f).node = s.node := rfl
@[simp] theorem State.modLaunch_hostLines (s : State) (l : Nat) (f : Launch → Launch) : (s.modLaunch l f).hostLines = s.hostLines := rfl
@[simp] theorem State.modLaunch_invals (s : State) (l : Nat) (f : Launch → Launch) : (s.modLaunch l f).invals = s.invals := rfl
@[simp] theorem State.modLaunch_power (s : State) (l : Nat) (f : Launch → Launch) : (s.modLaunch l f).power = s.power := rfl
@[simp] theorem State.modLaunch_outbox (s : State) (l : Nat) (f : Launch → Launch) : (s.modLaunch l f).outbox = s.outbox := rfl

@[simp] theorem State.modGroup_turn (s : State) (p g : Nat) (f : Group → Group) : (s.modGroup p g f).turn = s.turn := rfl
@[simp] theorem State.modGroup_inputs (s : State) (p g : Nat) (f : Group → Group) : (s.modGroup p g f).inputs = s.inputs := rfl
@[simp] theorem State.modGroup_held (s : State) (p g : Nat) (f : Group → Group) : (s.modGroup p g f).held = s.held := rfl
@[simp] theorem State.modGroup_free (s : State) (p g : Nat) (f : Group → Group) : (s.modGroup p g f).free = s.free := rfl
@[simp] theorem State.modGroup_nextId (s : State) (p g : Nat) (f : Group → Group) : (s.modGroup p g f).nextId = s.nextId := rfl
@[simp] theorem State.modGroup_now (s : State) (p g : Nat) (f : Group → Group) : (s.modGroup p g f).now = s.now := rfl
@[simp] theorem State.modGroup_hbm (s : State) (p g : Nat) (f : Group → Group) : (s.modGroup p g f).hbm = s.hbm := rfl
@[simp] theorem State.modGroup_seals (s : State) (p g : Nat) (f : Group → Group) : (s.modGroup p g f).seals = s.seals := rfl
@[simp] theorem State.modGroup_hostMem (s : State) (p g : Nat) (f : Group → Group) : (s.modGroup p g f).hostMem = s.hostMem := rfl
@[simp] theorem State.modGroup_devTab (s : State) (p g : Nat) (f : Group → Group) : (s.modGroup p g f).devTab = s.devTab := rfl
@[simp] theorem State.modGroup_owners (s : State) (p g : Nat) (f : Group → Group) : (s.modGroup p g f).owners = s.owners := rfl
@[simp] theorem State.modGroup_unmaps (s : State) (p g : Nat) (f : Group → Group) : (s.modGroup p g f).unmaps = s.unmaps := rfl
@[simp] theorem State.modGroup_threads (s : State) (p g : Nat) (f : Group → Group) : (s.modGroup p g f).threads = s.threads := rfl
@[simp] theorem State.modGroup_waves (s : State) (p g : Nat) (f : Group → Group) : (s.modGroup p g f).waves = s.waves := rfl
@[simp] theorem State.modGroup_teams (s : State) (p g : Nat) (f : Group → Group) : (s.modGroup p g f).teams = s.teams := rfl
@[simp] theorem State.modGroup_clusters (s : State) (p g : Nat) (f : Group → Group) : (s.modGroup p g f).clusters = s.clusters := rfl
@[simp] theorem State.modGroup_launches (s : State) (p g : Nat) (f : Group → Group) : (s.modGroup p g f).launches = s.launches := rfl
@[simp] theorem State.modGroup_images (s : State) (p g : Nat) (f : Group → Group) : (s.modGroup p g f).images = s.images := rfl
@[simp] theorem State.modGroup_cands (s : State) (p g : Nat) (f : Group → Group) : (s.modGroup p g f).cands = s.cands := rfl
@[simp] theorem State.modGroup_lastRow1 (s : State) (p g : Nat) (f : Group → Group) : (s.modGroup p g f).lastRow1 = s.lastRow1 := rfl
@[simp] theorem State.modGroup_pends (s : State) (p g : Nat) (f : Group → Group) : (s.modGroup p g f).pends = s.pends := rfl
@[simp] theorem State.modGroup_copies (s : State) (p g : Nat) (f : Group → Group) : (s.modGroup p g f).copies = s.copies := rfl
@[simp] theorem State.modGroup_bankOps (s : State) (p g : Nat) (f : Group → Group) : (s.modGroup p g f).bankOps = s.bankOps := rfl
@[simp] theorem State.modGroup_drains (s : State) (p g : Nat) (f : Group → Group) : (s.modGroup p g f).drains = s.drains := rfl
@[simp] theorem State.modGroup_wbufUses (s : State) (p g : Nat) (f : Group → Group) : (s.modGroup p g f).wbufUses = s.wbufUses := rfl
@[simp] theorem State.modGroup_calls (s : State) (p g : Nat) (f : Group → Group) : (s.modGroup p g f).calls = s.calls := rfl
@[simp] theorem State.modGroup_dues (s : State) (p g : Nat) (f : Group → Group) : (s.modGroup p g f).dues = s.dues := rfl
@[simp] theorem State.modGroup_svcSeq (s : State) (p g : Nat) (f : Group → Group) : (s.modGroup p g f).svcSeq = s.svcSeq := rfl
@[simp] theorem State.modGroup_recs (s : State) (p g : Nat) (f : Group → Group) : (s.modGroup p g f).recs = s.recs := rfl
@[simp] theorem State.modGroup_accs (s : State) (p g : Nat) (f : Group → Group) : (s.modGroup p g f).accs = s.accs := rfl
@[simp] theorem State.modGroup_accSaved (s : State) (p g : Nat) (f : Group → Group) : (s.modGroup p g f).accSaved = s.accSaved := rfl
@[simp] theorem State.modGroup_copyQ (s : State) (p g : Nat) (f : Group → Group) : (s.modGroup p g f).copyQ = s.copyQ := rfl
@[simp] theorem State.modGroup_wbufs (s : State) (p g : Nat) (f : Group → Group) : (s.modGroup p g f).wbufs = s.wbufs := rfl
@[simp] theorem State.modGroup_accOwner (s : State) (p g : Nat) (f : Group → Group) : (s.modGroup p g f).accOwner = s.accOwner := rfl
@[simp] theorem State.modGroup_ctemp (s : State) (p g : Nat) (f : Group → Group) : (s.modGroup p g f).ctemp = s.ctemp := rfl
@[simp] theorem State.modGroup_throt (s : State) (p g : Nat) (f : Group → Group) : (s.modGroup p g f).throt = s.throt := rfl
@[simp] theorem State.modGroup_resets (s : State) (p g : Nat) (f : Group → Group) : (s.modGroup p g f).resets = s.resets := rfl
@[simp] theorem State.modGroup_worlds (s : State) (p g : Nat) (f : Group → Group) : (s.modGroup p g f).worlds = s.worlds := rfl
@[simp] theorem State.modGroup_tenants (s : State) (p g : Nat) (f : Group → Group) : (s.modGroup p g f).tenants = s.tenants := rfl
@[simp] theorem State.modGroup_tlb (s : State) (p g : Nat) (f : Group → Group) : (s.modGroup p g f).tlb = s.tlb := rfl
@[simp] theorem State.modGroup_nonLeaf (s : State) (p g : Nat) (f : Group → Group) : (s.modGroup p g f).nonLeaf = s.nonLeaf := rfl
@[simp] theorem State.modGroup_pctx (s : State) (p g : Nat) (f : Group → Group) : (s.modGroup p g f).pctx = s.pctx := rfl
@[simp] theorem State.modGroup_pageReqs (s : State) (p g : Nat) (f : Group → Group) : (s.modGroup p g f).pageReqs = s.pageReqs := rfl
@[simp] theorem State.modGroup_tries (s : State) (p g : Nat) (f : Group → Group) : (s.modGroup p g f).tries = s.tries := rfl
@[simp] theorem State.modGroup_breaks (s : State) (p g : Nat) (f : Group → Group) : (s.modGroup p g f).breaks = s.breaks := rfl
@[simp] theorem State.modGroup_shared (s : State) (p g : Nat) (f : Group → Group) : (s.modGroup p g f).shared = s.shared := rfl
@[simp] theorem State.modGroup_perf (s : State) (p g : Nat) (f : Group → Group) : (s.modGroup p g f).perf = s.perf := rfl
@[simp] theorem State.modGroup_cycles (s : State) (p g : Nat) (f : Group → Group) : (s.modGroup p g f).cycles = s.cycles := rfl
@[simp] theorem State.modGroup_parts (s : State) (p g : Nat) (f : Group → Group) : (s.modGroup p g f).parts = s.parts := rfl
@[simp] theorem State.modGroup_slots (s : State) (p g : Nat) (f : Group → Group) : (s.modGroup p g f).slots = s.slots := rfl
@[simp] theorem State.modGroup_buckets (s : State) (p g : Nat) (f : Group → Group) : (s.modGroup p g f).buckets = s.buckets := rfl
@[simp] theorem State.modGroup_pools (s : State) (p g : Nat) (f : Group → Group) : (s.modGroup p g f).pools = s.pools := rfl
@[simp] theorem State.modGroup_subs (s : State) (p g : Nat) (f : Group → Group) : (s.modGroup p g f).subs = s.subs := rfl
@[simp] theorem State.modGroup_admLast (s : State) (p g : Nat) (f : Group → Group) : (s.modGroup p g f).admLast = s.admLast := rfl
@[simp] theorem State.modGroup_fabric (s : State) (p g : Nat) (f : Group → Group) : (s.modGroup p g f).fabric = s.fabric := rfl
@[simp] theorem State.modGroup_reductions (s : State) (p g : Nat) (f : Group → Group) : (s.modGroup p g f).reductions = s.reductions := rfl
@[simp] theorem State.modGroup_node (s : State) (p g : Nat) (f : Group → Group) : (s.modGroup p g f).node = s.node := rfl
@[simp] theorem State.modGroup_hostLines (s : State) (p g : Nat) (f : Group → Group) : (s.modGroup p g f).hostLines = s.hostLines := rfl
@[simp] theorem State.modGroup_invals (s : State) (p g : Nat) (f : Group → Group) : (s.modGroup p g f).invals = s.invals := rfl
@[simp] theorem State.modGroup_power (s : State) (p g : Nat) (f : Group → Group) : (s.modGroup p g f).power = s.power := rfl
@[simp] theorem State.modGroup_outbox (s : State) (p g : Nat) (f : Group → Group) : (s.modGroup p g f).outbox = s.outbox := rfl

@[simp] theorem State.count_turn (s : State) (h : Place) (c k n : Nat) : (s.count h c k n).turn = s.turn := rfl
@[simp] theorem State.count_inputs (s : State) (h : Place) (c k n : Nat) : (s.count h c k n).inputs = s.inputs := rfl
@[simp] theorem State.count_held (s : State) (h : Place) (c k n : Nat) : (s.count h c k n).held = s.held := rfl
@[simp] theorem State.count_free (s : State) (h : Place) (c k n : Nat) : (s.count h c k n).free = s.free := rfl
@[simp] theorem State.count_nextId (s : State) (h : Place) (c k n : Nat) : (s.count h c k n).nextId = s.nextId := rfl
@[simp] theorem State.count_now (s : State) (h : Place) (c k n : Nat) : (s.count h c k n).now = s.now := rfl
@[simp] theorem State.count_hbm (s : State) (h : Place) (c k n : Nat) : (s.count h c k n).hbm = s.hbm := rfl
@[simp] theorem State.count_seals (s : State) (h : Place) (c k n : Nat) : (s.count h c k n).seals = s.seals := rfl
@[simp] theorem State.count_hostMem (s : State) (h : Place) (c k n : Nat) : (s.count h c k n).hostMem = s.hostMem := rfl
@[simp] theorem State.count_devTab (s : State) (h : Place) (c k n : Nat) : (s.count h c k n).devTab = s.devTab := rfl
@[simp] theorem State.count_owners (s : State) (h : Place) (c k n : Nat) : (s.count h c k n).owners = s.owners := rfl
@[simp] theorem State.count_unmaps (s : State) (h : Place) (c k n : Nat) : (s.count h c k n).unmaps = s.unmaps := rfl
@[simp] theorem State.count_threads (s : State) (h : Place) (c k n : Nat) : (s.count h c k n).threads = s.threads := rfl
@[simp] theorem State.count_waves (s : State) (h : Place) (c k n : Nat) : (s.count h c k n).waves = s.waves := rfl
@[simp] theorem State.count_teams (s : State) (h : Place) (c k n : Nat) : (s.count h c k n).teams = s.teams := rfl
@[simp] theorem State.count_clusters (s : State) (h : Place) (c k n : Nat) : (s.count h c k n).clusters = s.clusters := rfl
@[simp] theorem State.count_launches (s : State) (h : Place) (c k n : Nat) : (s.count h c k n).launches = s.launches := rfl
@[simp] theorem State.count_images (s : State) (h : Place) (c k n : Nat) : (s.count h c k n).images = s.images := rfl
@[simp] theorem State.count_passes (s : State) (h : Place) (c k n : Nat) : (s.count h c k n).passes = s.passes := rfl
@[simp] theorem State.count_cands (s : State) (h : Place) (c k n : Nat) : (s.count h c k n).cands = s.cands := rfl
@[simp] theorem State.count_lastRow1 (s : State) (h : Place) (c k n : Nat) : (s.count h c k n).lastRow1 = s.lastRow1 := rfl
@[simp] theorem State.count_pends (s : State) (h : Place) (c k n : Nat) : (s.count h c k n).pends = s.pends := rfl
@[simp] theorem State.count_copies (s : State) (h : Place) (c k n : Nat) : (s.count h c k n).copies = s.copies := rfl
@[simp] theorem State.count_bankOps (s : State) (h : Place) (c k n : Nat) : (s.count h c k n).bankOps = s.bankOps := rfl
@[simp] theorem State.count_drains (s : State) (h : Place) (c k n : Nat) : (s.count h c k n).drains = s.drains := rfl
@[simp] theorem State.count_wbufUses (s : State) (h : Place) (c k n : Nat) : (s.count h c k n).wbufUses = s.wbufUses := rfl
@[simp] theorem State.count_calls (s : State) (h : Place) (c k n : Nat) : (s.count h c k n).calls = s.calls := rfl
@[simp] theorem State.count_dues (s : State) (h : Place) (c k n : Nat) : (s.count h c k n).dues = s.dues := rfl
@[simp] theorem State.count_svcSeq (s : State) (h : Place) (c k n : Nat) : (s.count h c k n).svcSeq = s.svcSeq := rfl
@[simp] theorem State.count_recs (s : State) (h : Place) (c k n : Nat) : (s.count h c k n).recs = s.recs := rfl
@[simp] theorem State.count_accs (s : State) (h : Place) (c k n : Nat) : (s.count h c k n).accs = s.accs := rfl
@[simp] theorem State.count_accSaved (s : State) (h : Place) (c k n : Nat) : (s.count h c k n).accSaved = s.accSaved := rfl
@[simp] theorem State.count_copyQ (s : State) (h : Place) (c k n : Nat) : (s.count h c k n).copyQ = s.copyQ := rfl
@[simp] theorem State.count_wbufs (s : State) (h : Place) (c k n : Nat) : (s.count h c k n).wbufs = s.wbufs := rfl
@[simp] theorem State.count_accOwner (s : State) (h : Place) (c k n : Nat) : (s.count h c k n).accOwner = s.accOwner := rfl
@[simp] theorem State.count_ctemp (s : State) (h : Place) (c k n : Nat) : (s.count h c k n).ctemp = s.ctemp := rfl
@[simp] theorem State.count_throt (s : State) (h : Place) (c k n : Nat) : (s.count h c k n).throt = s.throt := rfl
@[simp] theorem State.count_resets (s : State) (h : Place) (c k n : Nat) : (s.count h c k n).resets = s.resets := rfl
@[simp] theorem State.count_worlds (s : State) (h : Place) (c k n : Nat) : (s.count h c k n).worlds = s.worlds := rfl
@[simp] theorem State.count_tenants (s : State) (h : Place) (c k n : Nat) : (s.count h c k n).tenants = s.tenants := rfl
@[simp] theorem State.count_tlb (s : State) (h : Place) (c k n : Nat) : (s.count h c k n).tlb = s.tlb := rfl
@[simp] theorem State.count_nonLeaf (s : State) (h : Place) (c k n : Nat) : (s.count h c k n).nonLeaf = s.nonLeaf := rfl
@[simp] theorem State.count_pctx (s : State) (h : Place) (c k n : Nat) : (s.count h c k n).pctx = s.pctx := rfl
@[simp] theorem State.count_pageReqs (s : State) (h : Place) (c k n : Nat) : (s.count h c k n).pageReqs = s.pageReqs := rfl
@[simp] theorem State.count_tries (s : State) (h : Place) (c k n : Nat) : (s.count h c k n).tries = s.tries := rfl
@[simp] theorem State.count_breaks (s : State) (h : Place) (c k n : Nat) : (s.count h c k n).breaks = s.breaks := rfl
@[simp] theorem State.count_shared (s : State) (h : Place) (c k n : Nat) : (s.count h c k n).shared = s.shared := rfl
@[simp] theorem State.count_cycles (s : State) (h : Place) (c k n : Nat) : (s.count h c k n).cycles = s.cycles := rfl
@[simp] theorem State.count_parts (s : State) (h : Place) (c k n : Nat) : (s.count h c k n).parts = s.parts := rfl
@[simp] theorem State.count_slots (s : State) (h : Place) (c k n : Nat) : (s.count h c k n).slots = s.slots := rfl
@[simp] theorem State.count_buckets (s : State) (h : Place) (c k n : Nat) : (s.count h c k n).buckets = s.buckets := rfl
@[simp] theorem State.count_pools (s : State) (h : Place) (c k n : Nat) : (s.count h c k n).pools = s.pools := rfl
@[simp] theorem State.count_subs (s : State) (h : Place) (c k n : Nat) : (s.count h c k n).subs = s.subs := rfl
@[simp] theorem State.count_admLast (s : State) (h : Place) (c k n : Nat) : (s.count h c k n).admLast = s.admLast := rfl
@[simp] theorem State.count_fabric (s : State) (h : Place) (c k n : Nat) : (s.count h c k n).fabric = s.fabric := rfl
@[simp] theorem State.count_reductions (s : State) (h : Place) (c k n : Nat) : (s.count h c k n).reductions = s.reductions := rfl
@[simp] theorem State.count_node (s : State) (h : Place) (c k n : Nat) : (s.count h c k n).node = s.node := rfl
@[simp] theorem State.count_hostLines (s : State) (h : Place) (c k n : Nat) : (s.count h c k n).hostLines = s.hostLines := rfl
@[simp] theorem State.count_invals (s : State) (h : Place) (c k n : Nat) : (s.count h c k n).invals = s.invals := rfl
@[simp] theorem State.count_power (s : State) (h : Place) (c k n : Nat) : (s.count h c k n).power = s.power := rfl
@[simp] theorem State.count_outbox (s : State) (h : Place) (c k n : Nat) : (s.count h c k n).outbox = s.outbox := rfl

@[simp] theorem State.leaveGroups_turn (s : State) (t i : Nat) : (s.leaveGroups t i).turn = s.turn := rfl
@[simp] theorem State.leaveGroups_inputs (s : State) (t i : Nat) : (s.leaveGroups t i).inputs = s.inputs := rfl
@[simp] theorem State.leaveGroups_held (s : State) (t i : Nat) : (s.leaveGroups t i).held = s.held := rfl
@[simp] theorem State.leaveGroups_free (s : State) (t i : Nat) : (s.leaveGroups t i).free = s.free := rfl
@[simp] theorem State.leaveGroups_nextId (s : State) (t i : Nat) : (s.leaveGroups t i).nextId = s.nextId := rfl
@[simp] theorem State.leaveGroups_now (s : State) (t i : Nat) : (s.leaveGroups t i).now = s.now := rfl
@[simp] theorem State.leaveGroups_hbm (s : State) (t i : Nat) : (s.leaveGroups t i).hbm = s.hbm := rfl
@[simp] theorem State.leaveGroups_seals (s : State) (t i : Nat) : (s.leaveGroups t i).seals = s.seals := rfl
@[simp] theorem State.leaveGroups_hostMem (s : State) (t i : Nat) : (s.leaveGroups t i).hostMem = s.hostMem := rfl
@[simp] theorem State.leaveGroups_devTab (s : State) (t i : Nat) : (s.leaveGroups t i).devTab = s.devTab := rfl
@[simp] theorem State.leaveGroups_owners (s : State) (t i : Nat) : (s.leaveGroups t i).owners = s.owners := rfl
@[simp] theorem State.leaveGroups_unmaps (s : State) (t i : Nat) : (s.leaveGroups t i).unmaps = s.unmaps := rfl
@[simp] theorem State.leaveGroups_threads (s : State) (t i : Nat) : (s.leaveGroups t i).threads = s.threads := rfl
@[simp] theorem State.leaveGroups_waves (s : State) (t i : Nat) : (s.leaveGroups t i).waves = s.waves := rfl
@[simp] theorem State.leaveGroups_teams (s : State) (t i : Nat) : (s.leaveGroups t i).teams = s.teams := rfl
@[simp] theorem State.leaveGroups_clusters (s : State) (t i : Nat) : (s.leaveGroups t i).clusters = s.clusters := rfl
@[simp] theorem State.leaveGroups_launches (s : State) (t i : Nat) : (s.leaveGroups t i).launches = s.launches := rfl
@[simp] theorem State.leaveGroups_images (s : State) (t i : Nat) : (s.leaveGroups t i).images = s.images := rfl
@[simp] theorem State.leaveGroups_cands (s : State) (t i : Nat) : (s.leaveGroups t i).cands = s.cands := rfl
@[simp] theorem State.leaveGroups_lastRow1 (s : State) (t i : Nat) : (s.leaveGroups t i).lastRow1 = s.lastRow1 := rfl
@[simp] theorem State.leaveGroups_pends (s : State) (t i : Nat) : (s.leaveGroups t i).pends = s.pends := rfl
@[simp] theorem State.leaveGroups_copies (s : State) (t i : Nat) : (s.leaveGroups t i).copies = s.copies := rfl
@[simp] theorem State.leaveGroups_bankOps (s : State) (t i : Nat) : (s.leaveGroups t i).bankOps = s.bankOps := rfl
@[simp] theorem State.leaveGroups_drains (s : State) (t i : Nat) : (s.leaveGroups t i).drains = s.drains := rfl
@[simp] theorem State.leaveGroups_wbufUses (s : State) (t i : Nat) : (s.leaveGroups t i).wbufUses = s.wbufUses := rfl
@[simp] theorem State.leaveGroups_calls (s : State) (t i : Nat) : (s.leaveGroups t i).calls = s.calls := rfl
@[simp] theorem State.leaveGroups_dues (s : State) (t i : Nat) : (s.leaveGroups t i).dues = s.dues := rfl
@[simp] theorem State.leaveGroups_svcSeq (s : State) (t i : Nat) : (s.leaveGroups t i).svcSeq = s.svcSeq := rfl
@[simp] theorem State.leaveGroups_recs (s : State) (t i : Nat) : (s.leaveGroups t i).recs = s.recs := rfl
@[simp] theorem State.leaveGroups_accs (s : State) (t i : Nat) : (s.leaveGroups t i).accs = s.accs := rfl
@[simp] theorem State.leaveGroups_accSaved (s : State) (t i : Nat) : (s.leaveGroups t i).accSaved = s.accSaved := rfl
@[simp] theorem State.leaveGroups_copyQ (s : State) (t i : Nat) : (s.leaveGroups t i).copyQ = s.copyQ := rfl
@[simp] theorem State.leaveGroups_wbufs (s : State) (t i : Nat) : (s.leaveGroups t i).wbufs = s.wbufs := rfl
@[simp] theorem State.leaveGroups_accOwner (s : State) (t i : Nat) : (s.leaveGroups t i).accOwner = s.accOwner := rfl
@[simp] theorem State.leaveGroups_ctemp (s : State) (t i : Nat) : (s.leaveGroups t i).ctemp = s.ctemp := rfl
@[simp] theorem State.leaveGroups_throt (s : State) (t i : Nat) : (s.leaveGroups t i).throt = s.throt := rfl
@[simp] theorem State.leaveGroups_resets (s : State) (t i : Nat) : (s.leaveGroups t i).resets = s.resets := rfl
@[simp] theorem State.leaveGroups_worlds (s : State) (t i : Nat) : (s.leaveGroups t i).worlds = s.worlds := rfl
@[simp] theorem State.leaveGroups_tenants (s : State) (t i : Nat) : (s.leaveGroups t i).tenants = s.tenants := rfl
@[simp] theorem State.leaveGroups_tlb (s : State) (t i : Nat) : (s.leaveGroups t i).tlb = s.tlb := rfl
@[simp] theorem State.leaveGroups_nonLeaf (s : State) (t i : Nat) : (s.leaveGroups t i).nonLeaf = s.nonLeaf := rfl
@[simp] theorem State.leaveGroups_pctx (s : State) (t i : Nat) : (s.leaveGroups t i).pctx = s.pctx := rfl
@[simp] theorem State.leaveGroups_pageReqs (s : State) (t i : Nat) : (s.leaveGroups t i).pageReqs = s.pageReqs := rfl
@[simp] theorem State.leaveGroups_tries (s : State) (t i : Nat) : (s.leaveGroups t i).tries = s.tries := rfl
@[simp] theorem State.leaveGroups_breaks (s : State) (t i : Nat) : (s.leaveGroups t i).breaks = s.breaks := rfl
@[simp] theorem State.leaveGroups_shared (s : State) (t i : Nat) : (s.leaveGroups t i).shared = s.shared := rfl
@[simp] theorem State.leaveGroups_perf (s : State) (t i : Nat) : (s.leaveGroups t i).perf = s.perf := rfl
@[simp] theorem State.leaveGroups_cycles (s : State) (t i : Nat) : (s.leaveGroups t i).cycles = s.cycles := rfl
@[simp] theorem State.leaveGroups_parts (s : State) (t i : Nat) : (s.leaveGroups t i).parts = s.parts := rfl
@[simp] theorem State.leaveGroups_slots (s : State) (t i : Nat) : (s.leaveGroups t i).slots = s.slots := rfl
@[simp] theorem State.leaveGroups_buckets (s : State) (t i : Nat) : (s.leaveGroups t i).buckets = s.buckets := rfl
@[simp] theorem State.leaveGroups_pools (s : State) (t i : Nat) : (s.leaveGroups t i).pools = s.pools := rfl
@[simp] theorem State.leaveGroups_subs (s : State) (t i : Nat) : (s.leaveGroups t i).subs = s.subs := rfl
@[simp] theorem State.leaveGroups_admLast (s : State) (t i : Nat) : (s.leaveGroups t i).admLast = s.admLast := rfl
@[simp] theorem State.leaveGroups_fabric (s : State) (t i : Nat) : (s.leaveGroups t i).fabric = s.fabric := rfl
@[simp] theorem State.leaveGroups_reductions (s : State) (t i : Nat) : (s.leaveGroups t i).reductions = s.reductions := rfl
@[simp] theorem State.leaveGroups_node (s : State) (t i : Nat) : (s.leaveGroups t i).node = s.node := rfl
@[simp] theorem State.leaveGroups_hostLines (s : State) (t i : Nat) : (s.leaveGroups t i).hostLines = s.hostLines := rfl
@[simp] theorem State.leaveGroups_invals (s : State) (t i : Nat) : (s.leaveGroups t i).invals = s.invals := rfl
@[simp] theorem State.leaveGroups_power (s : State) (t i : Nat) : (s.leaveGroups t i).power = s.power := rfl
@[simp] theorem State.leaveGroups_outbox (s : State) (t i : Nat) : (s.leaveGroups t i).outbox = s.outbox := rfl

@[simp] theorem State.placedBy_turn (s : State) (w c a : Nat) : (s.placedBy w c a).turn = s.turn := rfl
@[simp] theorem State.placedBy_inputs (s : State) (w c a : Nat) : (s.placedBy w c a).inputs = s.inputs := rfl
@[simp] theorem State.placedBy_held (s : State) (w c a : Nat) : (s.placedBy w c a).held = s.held := rfl
@[simp] theorem State.placedBy_free (s : State) (w c a : Nat) : (s.placedBy w c a).free = s.free := rfl
@[simp] theorem State.placedBy_nextId (s : State) (w c a : Nat) : (s.placedBy w c a).nextId = s.nextId := rfl
@[simp] theorem State.placedBy_now (s : State) (w c a : Nat) : (s.placedBy w c a).now = s.now := rfl
@[simp] theorem State.placedBy_hbm (s : State) (w c a : Nat) : (s.placedBy w c a).hbm = s.hbm := rfl
@[simp] theorem State.placedBy_seals (s : State) (w c a : Nat) : (s.placedBy w c a).seals = s.seals := rfl
@[simp] theorem State.placedBy_hostMem (s : State) (w c a : Nat) : (s.placedBy w c a).hostMem = s.hostMem := rfl
@[simp] theorem State.placedBy_devTab (s : State) (w c a : Nat) : (s.placedBy w c a).devTab = s.devTab := rfl
@[simp] theorem State.placedBy_owners (s : State) (w c a : Nat) : (s.placedBy w c a).owners = s.owners := rfl
@[simp] theorem State.placedBy_unmaps (s : State) (w c a : Nat) : (s.placedBy w c a).unmaps = s.unmaps := rfl
@[simp] theorem State.placedBy_threads (s : State) (w c a : Nat) : (s.placedBy w c a).threads = s.threads := rfl
@[simp] theorem State.placedBy_waves (s : State) (w c a : Nat) : (s.placedBy w c a).waves = s.waves := rfl
@[simp] theorem State.placedBy_teams (s : State) (w c a : Nat) : (s.placedBy w c a).teams = s.teams := rfl
@[simp] theorem State.placedBy_clusters (s : State) (w c a : Nat) : (s.placedBy w c a).clusters = s.clusters := rfl
@[simp] theorem State.placedBy_launches (s : State) (w c a : Nat) : (s.placedBy w c a).launches = s.launches := rfl
@[simp] theorem State.placedBy_images (s : State) (w c a : Nat) : (s.placedBy w c a).images = s.images := rfl
@[simp] theorem State.placedBy_passes (s : State) (w c a : Nat) : (s.placedBy w c a).passes = s.passes := rfl
@[simp] theorem State.placedBy_cands (s : State) (w c a : Nat) : (s.placedBy w c a).cands = s.cands := rfl
@[simp] theorem State.placedBy_lastRow1 (s : State) (w c a : Nat) : (s.placedBy w c a).lastRow1 = s.lastRow1 := rfl
@[simp] theorem State.placedBy_pends (s : State) (w c a : Nat) : (s.placedBy w c a).pends = s.pends := rfl
@[simp] theorem State.placedBy_copies (s : State) (w c a : Nat) : (s.placedBy w c a).copies = s.copies := rfl
@[simp] theorem State.placedBy_bankOps (s : State) (w c a : Nat) : (s.placedBy w c a).bankOps = s.bankOps := rfl
@[simp] theorem State.placedBy_drains (s : State) (w c a : Nat) : (s.placedBy w c a).drains = s.drains := rfl
@[simp] theorem State.placedBy_wbufUses (s : State) (w c a : Nat) : (s.placedBy w c a).wbufUses = s.wbufUses := rfl
@[simp] theorem State.placedBy_calls (s : State) (w c a : Nat) : (s.placedBy w c a).calls = s.calls := rfl
@[simp] theorem State.placedBy_dues (s : State) (w c a : Nat) : (s.placedBy w c a).dues = s.dues := rfl
@[simp] theorem State.placedBy_svcSeq (s : State) (w c a : Nat) : (s.placedBy w c a).svcSeq = s.svcSeq := rfl
@[simp] theorem State.placedBy_recs (s : State) (w c a : Nat) : (s.placedBy w c a).recs = s.recs := rfl
@[simp] theorem State.placedBy_accs (s : State) (w c a : Nat) : (s.placedBy w c a).accs = s.accs := rfl
@[simp] theorem State.placedBy_accSaved (s : State) (w c a : Nat) : (s.placedBy w c a).accSaved = s.accSaved := rfl
@[simp] theorem State.placedBy_copyQ (s : State) (w c a : Nat) : (s.placedBy w c a).copyQ = s.copyQ := rfl
@[simp] theorem State.placedBy_wbufs (s : State) (w c a : Nat) : (s.placedBy w c a).wbufs = s.wbufs := rfl
@[simp] theorem State.placedBy_accOwner (s : State) (w c a : Nat) : (s.placedBy w c a).accOwner = s.accOwner := rfl
@[simp] theorem State.placedBy_ctemp (s : State) (w c a : Nat) : (s.placedBy w c a).ctemp = s.ctemp := rfl
@[simp] theorem State.placedBy_throt (s : State) (w c a : Nat) : (s.placedBy w c a).throt = s.throt := rfl
@[simp] theorem State.placedBy_resets (s : State) (w c a : Nat) : (s.placedBy w c a).resets = s.resets := rfl
@[simp] theorem State.placedBy_worlds (s : State) (w c a : Nat) : (s.placedBy w c a).worlds = s.worlds := rfl
@[simp] theorem State.placedBy_tenants (s : State) (w c a : Nat) : (s.placedBy w c a).tenants = s.tenants := rfl
@[simp] theorem State.placedBy_tlb (s : State) (w c a : Nat) : (s.placedBy w c a).tlb = s.tlb := rfl
@[simp] theorem State.placedBy_nonLeaf (s : State) (w c a : Nat) : (s.placedBy w c a).nonLeaf = s.nonLeaf := rfl
@[simp] theorem State.placedBy_pctx (s : State) (w c a : Nat) : (s.placedBy w c a).pctx = s.pctx := rfl
@[simp] theorem State.placedBy_pageReqs (s : State) (w c a : Nat) : (s.placedBy w c a).pageReqs = s.pageReqs := rfl
@[simp] theorem State.placedBy_tries (s : State) (w c a : Nat) : (s.placedBy w c a).tries = s.tries := rfl
@[simp] theorem State.placedBy_breaks (s : State) (w c a : Nat) : (s.placedBy w c a).breaks = s.breaks := rfl
@[simp] theorem State.placedBy_perf (s : State) (w c a : Nat) : (s.placedBy w c a).perf = s.perf := rfl
@[simp] theorem State.placedBy_cycles (s : State) (w c a : Nat) : (s.placedBy w c a).cycles = s.cycles := rfl
@[simp] theorem State.placedBy_parts (s : State) (w c a : Nat) : (s.placedBy w c a).parts = s.parts := rfl
@[simp] theorem State.placedBy_slots (s : State) (w c a : Nat) : (s.placedBy w c a).slots = s.slots := rfl
@[simp] theorem State.placedBy_buckets (s : State) (w c a : Nat) : (s.placedBy w c a).buckets = s.buckets := rfl
@[simp] theorem State.placedBy_pools (s : State) (w c a : Nat) : (s.placedBy w c a).pools = s.pools := rfl
@[simp] theorem State.placedBy_subs (s : State) (w c a : Nat) : (s.placedBy w c a).subs = s.subs := rfl
@[simp] theorem State.placedBy_admLast (s : State) (w c a : Nat) : (s.placedBy w c a).admLast = s.admLast := rfl
@[simp] theorem State.placedBy_fabric (s : State) (w c a : Nat) : (s.placedBy w c a).fabric = s.fabric := rfl
@[simp] theorem State.placedBy_reductions (s : State) (w c a : Nat) : (s.placedBy w c a).reductions = s.reductions := rfl
@[simp] theorem State.placedBy_node (s : State) (w c a : Nat) : (s.placedBy w c a).node = s.node := rfl
@[simp] theorem State.placedBy_hostLines (s : State) (w c a : Nat) : (s.placedBy w c a).hostLines = s.hostLines := rfl
@[simp] theorem State.placedBy_invals (s : State) (w c a : Nat) : (s.placedBy w c a).invals = s.invals := rfl
@[simp] theorem State.placedBy_power (s : State) (w c a : Nat) : (s.placedBy w c a).power = s.power := rfl
@[simp] theorem State.placedBy_outbox (s : State) (w c a : Nat) : (s.placedBy w c a).outbox = s.outbox := rfl

@[simp] theorem State.retry_turn (s : State) (i : Instr) : (s.retry i).turn = s.turn := rfl
@[simp] theorem State.retry_inputs (s : State) (i : Instr) : (s.retry i).inputs = s.inputs := rfl
@[simp] theorem State.retry_free (s : State) (i : Instr) : (s.retry i).free = s.free := rfl
@[simp] theorem State.retry_nextId (s : State) (i : Instr) : (s.retry i).nextId = s.nextId := rfl
@[simp] theorem State.retry_now (s : State) (i : Instr) : (s.retry i).now = s.now := rfl
@[simp] theorem State.retry_hbm (s : State) (i : Instr) : (s.retry i).hbm = s.hbm := rfl
@[simp] theorem State.retry_seals (s : State) (i : Instr) : (s.retry i).seals = s.seals := rfl
@[simp] theorem State.retry_hostMem (s : State) (i : Instr) : (s.retry i).hostMem = s.hostMem := rfl
@[simp] theorem State.retry_devTab (s : State) (i : Instr) : (s.retry i).devTab = s.devTab := rfl
@[simp] theorem State.retry_owners (s : State) (i : Instr) : (s.retry i).owners = s.owners := rfl
@[simp] theorem State.retry_unmaps (s : State) (i : Instr) : (s.retry i).unmaps = s.unmaps := rfl
@[simp] theorem State.retry_threads (s : State) (i : Instr) : (s.retry i).threads = s.threads := rfl
@[simp] theorem State.retry_waves (s : State) (i : Instr) : (s.retry i).waves = s.waves := rfl
@[simp] theorem State.retry_teams (s : State) (i : Instr) : (s.retry i).teams = s.teams := rfl
@[simp] theorem State.retry_clusters (s : State) (i : Instr) : (s.retry i).clusters = s.clusters := rfl
@[simp] theorem State.retry_launches (s : State) (i : Instr) : (s.retry i).launches = s.launches := rfl
@[simp] theorem State.retry_images (s : State) (i : Instr) : (s.retry i).images = s.images := rfl
@[simp] theorem State.retry_passes (s : State) (i : Instr) : (s.retry i).passes = s.passes := rfl
@[simp] theorem State.retry_cands (s : State) (i : Instr) : (s.retry i).cands = s.cands := rfl
@[simp] theorem State.retry_lastRow1 (s : State) (i : Instr) : (s.retry i).lastRow1 = s.lastRow1 := rfl
@[simp] theorem State.retry_pends (s : State) (i : Instr) : (s.retry i).pends = s.pends := rfl
@[simp] theorem State.retry_copies (s : State) (i : Instr) : (s.retry i).copies = s.copies := rfl
@[simp] theorem State.retry_bankOps (s : State) (i : Instr) : (s.retry i).bankOps = s.bankOps := rfl
@[simp] theorem State.retry_drains (s : State) (i : Instr) : (s.retry i).drains = s.drains := rfl
@[simp] theorem State.retry_wbufUses (s : State) (i : Instr) : (s.retry i).wbufUses = s.wbufUses := rfl
@[simp] theorem State.retry_calls (s : State) (i : Instr) : (s.retry i).calls = s.calls := rfl
@[simp] theorem State.retry_dues (s : State) (i : Instr) : (s.retry i).dues = s.dues := rfl
@[simp] theorem State.retry_svcSeq (s : State) (i : Instr) : (s.retry i).svcSeq = s.svcSeq := rfl
@[simp] theorem State.retry_recs (s : State) (i : Instr) : (s.retry i).recs = s.recs := rfl
@[simp] theorem State.retry_accs (s : State) (i : Instr) : (s.retry i).accs = s.accs := rfl
@[simp] theorem State.retry_accSaved (s : State) (i : Instr) : (s.retry i).accSaved = s.accSaved := rfl
@[simp] theorem State.retry_copyQ (s : State) (i : Instr) : (s.retry i).copyQ = s.copyQ := rfl
@[simp] theorem State.retry_wbufs (s : State) (i : Instr) : (s.retry i).wbufs = s.wbufs := rfl
@[simp] theorem State.retry_accOwner (s : State) (i : Instr) : (s.retry i).accOwner = s.accOwner := rfl
@[simp] theorem State.retry_ctemp (s : State) (i : Instr) : (s.retry i).ctemp = s.ctemp := rfl
@[simp] theorem State.retry_throt (s : State) (i : Instr) : (s.retry i).throt = s.throt := rfl
@[simp] theorem State.retry_resets (s : State) (i : Instr) : (s.retry i).resets = s.resets := rfl
@[simp] theorem State.retry_worlds (s : State) (i : Instr) : (s.retry i).worlds = s.worlds := rfl
@[simp] theorem State.retry_tenants (s : State) (i : Instr) : (s.retry i).tenants = s.tenants := rfl
@[simp] theorem State.retry_tlb (s : State) (i : Instr) : (s.retry i).tlb = s.tlb := rfl
@[simp] theorem State.retry_nonLeaf (s : State) (i : Instr) : (s.retry i).nonLeaf = s.nonLeaf := rfl
@[simp] theorem State.retry_pctx (s : State) (i : Instr) : (s.retry i).pctx = s.pctx := rfl
@[simp] theorem State.retry_pageReqs (s : State) (i : Instr) : (s.retry i).pageReqs = s.pageReqs := rfl
@[simp] theorem State.retry_tries (s : State) (i : Instr) : (s.retry i).tries = s.tries := rfl
@[simp] theorem State.retry_breaks (s : State) (i : Instr) : (s.retry i).breaks = s.breaks := rfl
@[simp] theorem State.retry_shared (s : State) (i : Instr) : (s.retry i).shared = s.shared := rfl
@[simp] theorem State.retry_perf (s : State) (i : Instr) : (s.retry i).perf = s.perf := rfl
@[simp] theorem State.retry_cycles (s : State) (i : Instr) : (s.retry i).cycles = s.cycles := rfl
@[simp] theorem State.retry_parts (s : State) (i : Instr) : (s.retry i).parts = s.parts := rfl
@[simp] theorem State.retry_slots (s : State) (i : Instr) : (s.retry i).slots = s.slots := rfl
@[simp] theorem State.retry_buckets (s : State) (i : Instr) : (s.retry i).buckets = s.buckets := rfl
@[simp] theorem State.retry_pools (s : State) (i : Instr) : (s.retry i).pools = s.pools := rfl
@[simp] theorem State.retry_subs (s : State) (i : Instr) : (s.retry i).subs = s.subs := rfl
@[simp] theorem State.retry_admLast (s : State) (i : Instr) : (s.retry i).admLast = s.admLast := rfl
@[simp] theorem State.retry_fabric (s : State) (i : Instr) : (s.retry i).fabric = s.fabric := rfl
@[simp] theorem State.retry_reductions (s : State) (i : Instr) : (s.retry i).reductions = s.reductions := rfl
@[simp] theorem State.retry_node (s : State) (i : Instr) : (s.retry i).node = s.node := rfl
@[simp] theorem State.retry_hostLines (s : State) (i : Instr) : (s.retry i).hostLines = s.hostLines := rfl
@[simp] theorem State.retry_invals (s : State) (i : Instr) : (s.retry i).invals = s.invals := rfl
@[simp] theorem State.retry_power (s : State) (i : Instr) : (s.retry i).power = s.power := rfl
@[simp] theorem State.retry_outbox (s : State) (i : Instr) : (s.retry i).outbox = s.outbox := rfl

@[simp] theorem State.say_turn (s : State) (o : Output) : (s.say o).turn = s.turn := rfl
@[simp] theorem State.say_inputs (s : State) (o : Output) : (s.say o).inputs = s.inputs := rfl
@[simp] theorem State.say_held (s : State) (o : Output) : (s.say o).held = s.held := rfl
@[simp] theorem State.say_free (s : State) (o : Output) : (s.say o).free = s.free := rfl
@[simp] theorem State.say_nextId (s : State) (o : Output) : (s.say o).nextId = s.nextId := rfl
@[simp] theorem State.say_now (s : State) (o : Output) : (s.say o).now = s.now := rfl
@[simp] theorem State.say_hbm (s : State) (o : Output) : (s.say o).hbm = s.hbm := rfl
@[simp] theorem State.say_seals (s : State) (o : Output) : (s.say o).seals = s.seals := rfl
@[simp] theorem State.say_hostMem (s : State) (o : Output) : (s.say o).hostMem = s.hostMem := rfl
@[simp] theorem State.say_devTab (s : State) (o : Output) : (s.say o).devTab = s.devTab := rfl
@[simp] theorem State.say_owners (s : State) (o : Output) : (s.say o).owners = s.owners := rfl
@[simp] theorem State.say_unmaps (s : State) (o : Output) : (s.say o).unmaps = s.unmaps := rfl
@[simp] theorem State.say_threads (s : State) (o : Output) : (s.say o).threads = s.threads := rfl
@[simp] theorem State.say_waves (s : State) (o : Output) : (s.say o).waves = s.waves := rfl
@[simp] theorem State.say_teams (s : State) (o : Output) : (s.say o).teams = s.teams := rfl
@[simp] theorem State.say_clusters (s : State) (o : Output) : (s.say o).clusters = s.clusters := rfl
@[simp] theorem State.say_launches (s : State) (o : Output) : (s.say o).launches = s.launches := rfl
@[simp] theorem State.say_images (s : State) (o : Output) : (s.say o).images = s.images := rfl
@[simp] theorem State.say_passes (s : State) (o : Output) : (s.say o).passes = s.passes := rfl
@[simp] theorem State.say_cands (s : State) (o : Output) : (s.say o).cands = s.cands := rfl
@[simp] theorem State.say_lastRow1 (s : State) (o : Output) : (s.say o).lastRow1 = s.lastRow1 := rfl
@[simp] theorem State.say_pends (s : State) (o : Output) : (s.say o).pends = s.pends := rfl
@[simp] theorem State.say_copies (s : State) (o : Output) : (s.say o).copies = s.copies := rfl
@[simp] theorem State.say_bankOps (s : State) (o : Output) : (s.say o).bankOps = s.bankOps := rfl
@[simp] theorem State.say_drains (s : State) (o : Output) : (s.say o).drains = s.drains := rfl
@[simp] theorem State.say_wbufUses (s : State) (o : Output) : (s.say o).wbufUses = s.wbufUses := rfl
@[simp] theorem State.say_calls (s : State) (o : Output) : (s.say o).calls = s.calls := rfl
@[simp] theorem State.say_dues (s : State) (o : Output) : (s.say o).dues = s.dues := rfl
@[simp] theorem State.say_svcSeq (s : State) (o : Output) : (s.say o).svcSeq = s.svcSeq := rfl
@[simp] theorem State.say_recs (s : State) (o : Output) : (s.say o).recs = s.recs := rfl
@[simp] theorem State.say_accs (s : State) (o : Output) : (s.say o).accs = s.accs := rfl
@[simp] theorem State.say_accSaved (s : State) (o : Output) : (s.say o).accSaved = s.accSaved := rfl
@[simp] theorem State.say_copyQ (s : State) (o : Output) : (s.say o).copyQ = s.copyQ := rfl
@[simp] theorem State.say_wbufs (s : State) (o : Output) : (s.say o).wbufs = s.wbufs := rfl
@[simp] theorem State.say_accOwner (s : State) (o : Output) : (s.say o).accOwner = s.accOwner := rfl
@[simp] theorem State.say_ctemp (s : State) (o : Output) : (s.say o).ctemp = s.ctemp := rfl
@[simp] theorem State.say_throt (s : State) (o : Output) : (s.say o).throt = s.throt := rfl
@[simp] theorem State.say_resets (s : State) (o : Output) : (s.say o).resets = s.resets := rfl
@[simp] theorem State.say_worlds (s : State) (o : Output) : (s.say o).worlds = s.worlds := rfl
@[simp] theorem State.say_tenants (s : State) (o : Output) : (s.say o).tenants = s.tenants := rfl
@[simp] theorem State.say_tlb (s : State) (o : Output) : (s.say o).tlb = s.tlb := rfl
@[simp] theorem State.say_nonLeaf (s : State) (o : Output) : (s.say o).nonLeaf = s.nonLeaf := rfl
@[simp] theorem State.say_pctx (s : State) (o : Output) : (s.say o).pctx = s.pctx := rfl
@[simp] theorem State.say_pageReqs (s : State) (o : Output) : (s.say o).pageReqs = s.pageReqs := rfl
@[simp] theorem State.say_tries (s : State) (o : Output) : (s.say o).tries = s.tries := rfl
@[simp] theorem State.say_breaks (s : State) (o : Output) : (s.say o).breaks = s.breaks := rfl
@[simp] theorem State.say_shared (s : State) (o : Output) : (s.say o).shared = s.shared := rfl
@[simp] theorem State.say_perf (s : State) (o : Output) : (s.say o).perf = s.perf := rfl
@[simp] theorem State.say_cycles (s : State) (o : Output) : (s.say o).cycles = s.cycles := rfl
@[simp] theorem State.say_parts (s : State) (o : Output) : (s.say o).parts = s.parts := rfl
@[simp] theorem State.say_slots (s : State) (o : Output) : (s.say o).slots = s.slots := rfl
@[simp] theorem State.say_buckets (s : State) (o : Output) : (s.say o).buckets = s.buckets := rfl
@[simp] theorem State.say_pools (s : State) (o : Output) : (s.say o).pools = s.pools := rfl
@[simp] theorem State.say_subs (s : State) (o : Output) : (s.say o).subs = s.subs := rfl
@[simp] theorem State.say_admLast (s : State) (o : Output) : (s.say o).admLast = s.admLast := rfl
@[simp] theorem State.say_fabric (s : State) (o : Output) : (s.say o).fabric = s.fabric := rfl
@[simp] theorem State.say_reductions (s : State) (o : Output) : (s.say o).reductions = s.reductions := rfl
@[simp] theorem State.say_node (s : State) (o : Output) : (s.say o).node = s.node := rfl
@[simp] theorem State.say_hostLines (s : State) (o : Output) : (s.say o).hostLines = s.hostLines := rfl
@[simp] theorem State.say_invals (s : State) (o : Output) : (s.say o).invals = s.invals := rfl
@[simp] theorem State.say_power (s : State) (o : Output) : (s.say o).power = s.power := rfl

end Sys2Proof.Machine
end

