-- ==== Sys2Proof/Laws/Lanes.lean ====
section
/-! SUPPORT. What the shared operations of an issue do: writing registers of the lanes, and `issue`, `alu` and `aluVar`
themselves. -/

namespace Sys2Proof.Machine

/-! Views. -/

theorem view_congr {s t : State} (h : t.threads = s.threads) (h' : t.teams = s.teams) (a : Agent) : t.view a = s.view a := by
  cases a <;> simp [State.view, State.thread, h, h']

theorem taking_congr {s t : State} (h : Here) (c : Ctl) (ht : t.threads = s.threads) (hm : t.teams = s.teams) :
    h.taking c t = h.taking c s := by
  simp [Here.taking, view_congr ht hm]

theorem alive_congr {s t : State} (h : t.threads = s.threads) (h' : t.teams = s.teams) (a : Agent) : t.alive a = s.alive a := by
  cases a <;> simp [State.alive, State.thread, h, h']

/-! Windows. -/

/-- Several writes to a window. -/
def Window.puts (w : Window) (l : List (Reg × Word)) : Window := l.foldl (fun w e => w.put e.1 e.2) w

/-- Several writes to a team's registers. -/
def Team.puts (t : Team) (l : List (Reg × Word)) : Team := l.foldl (fun t e => t.put e.1 e.2) t

theorem tmod_tmod {α : Type} (t : Table α) (k : Nat) (f g : α → α) : tmod (tmod t k f) k g = tmod t k (g ∘ f) := by
  cases h : tget t k with
  | none => simp [tmod, h]
  | some a =>
    simp only [tmod, h, tget_tset_self, Function.comp]
    induction t with
    | nil => simp [tget] at h
    | cons e r ih =>
      obtain ⟨j, b⟩ := e
      by_cases hj : j = k
      · simp [tset, hj]
      · simp only [tget, hj, if_false] at h
        simp [tset, hj, ih h]

theorem tmod_id {α : Type} (t : Table α) (k : Nat) : tmod t k id = t := by
  cases h : tget t k with
  | none => simp [tmod, h]
  | some a =>
    simp only [tmod, h, id]
    induction t with
    | nil => simp [tget] at h
    | cons e r ih =>
      obtain ⟨j, b⟩ := e
      by_cases hj : j = k
      · simp only [tget, hj, if_true, Option.some.injEq] at h
        simp [tset, hj, h]
      · simp only [tget, hj, if_false] at h
        simp [tset, hj, ih h]

theorem putRegs_thread (s : State) (team tid : Nat) (l : List (Reg × Word)) :
    s.putRegs (.thread team tid) l = s.modThread team tid (fun t => { t with win := t.win.puts l }) := by
  unfold State.putRegs Window.puts
  induction l generalizing s with
  | nil =>
    simp only [List.foldl_nil, State.modThread]
    rw [show (fun t : Thread => { t with win := t.win }) = id from rfl, tmod_id]
  | cons e l ih =>
    rw [List.foldl_cons]
    exact (ih _).trans (by simp only [State.putReg, State.modThread, tmod_tmod]; rfl)

theorem putRegs_uniform (s : State) (team : Nat) (l : List (Reg × Word)) :
    s.putRegs (.uniform team) l = s.modTeam team (fun t => t.puts l) := by
  unfold State.putRegs
  induction l generalizing s with
  | nil =>
    simp only [List.foldl_nil, State.modTeam, Team.puts]
    rw [show (fun t : Team => t) = id from rfl, tmod_id]
  | cons e l ih =>
    rw [List.foldl_cons]
    exact (ih _).trans (by simp only [State.putReg, State.modTeam, tmod_tmod]; rfl)

/-! What a window or a team holds after several writes. -/

/-- A thread's registers, as its window gives them. -/
def Window.reg (w : Window) : Reg → Word
  | .x r => (w.x[r]?).getD 0
  | .k r => BitVec.ofNat 32 (natOfBool ((w.k[r]?).getD true))
  | .o r => (w.o[r]?).getD 0
  | .y r => (w.y[r]?).getD 0
  | _ => 0

/-- A team's registers, as its uniform passes see them. -/
def Team.reg (t : Team) : Reg → Word
  | .o r => (t.uo[r]?).getD 0
  | .y r => (t.uy[r]?).getD 0
  | .s r => (t.s[r]?).getD 0
  | _ => 0

/-- A register that a window can hold, with a value it can hold. -/
def windowTakes (e : Reg × Word) : Prop :=
  match e.1 with
  | .x r => r < 64
  | .k r => r < 7 ∧ (e.2 = 0 ∨ e.2 = 1)
  | .o r => r < 8
  | .y r => r < 2
  | _ => False

/-- The same of a team's registers in a uniform pass. -/
def teamTakes (e : Reg × Word) : Prop :=
  match e.1 with
  | .o r => r < 8
  | .y r => r < 2
  | .s r => r < 1024
  | _ => False

theorem Window.put_other (w : Window) {r q : Reg} (v : Word) (h : q ≠ r) : (w.put r v).reg q = w.reg q := by
  cases r <;> cases q <;> simp_all [Window.put, Window.reg, Vector.getElem?_setIfInBounds]
  all_goals rw [if_neg (Ne.symm h)]

theorem Window.put_self (w : Window) {e : Reg × Word} (h : windowTakes e) : (w.put e.1 e.2).reg e.1 = e.2 := by
  obtain ⟨r, v⟩ := e
  cases r <;> simp_all [windowTakes, Window.put, Window.reg]
  rcases h.2 with h | h <;> subst h <;> decide

theorem Team.put_other (t : Team) {r q : Reg} (v : Word) (h : q ≠ r) : (t.put r v).reg q = t.reg q := by
  cases r <;> cases q <;> simp_all [Team.put, Team.reg, Vector.getElem?_setIfInBounds]
  all_goals rw [if_neg (Ne.symm h)]

theorem Team.put_self (t : Team) {e : Reg × Word} (h : teamTakes e) : (t.put e.1 e.2).reg e.1 = e.2 := by
  obtain ⟨r, v⟩ := e
  cases r <;> simp_all [teamTakes, Team.put, Team.reg]

theorem Window.puts_other (w : Window) (l : List (Reg × Word)) {q : Reg} (h : q ∉ l.map (·.1)) :
    (w.puts l).reg q = w.reg q := by
  induction l generalizing w with
  | nil => rfl
  | cons e l ih =>
    simp only [List.map_cons, List.mem_cons, not_or] at h
    exact (ih (w.put e.1 e.2) h.2).trans (w.put_other e.2 h.1)

theorem Team.puts_other (t : Team) (l : List (Reg × Word)) {q : Reg} (h : q ∉ l.map (·.1)) :
    (t.puts l).reg q = t.reg q := by
  induction l generalizing t with
  | nil => rfl
  | cons e l ih =>
    simp only [List.map_cons, List.mem_cons, not_or] at h
    exact (ih (t.put e.1 e.2) h.2).trans (t.put_other e.2 h.1)

theorem Window.puts_self (w : Window) {l : List (Reg × Word)} (hl : ∀ e ∈ l, windowTakes e) (hn : (l.map (·.1)).Nodup) :
    ∀ e ∈ l, (w.puts l).reg e.1 = e.2 := by
  induction l generalizing w with
  | nil => simp
  | cons a l ih =>
    simp only [List.map_cons, List.nodup_cons] at hn
    intro e he
    rcases List.mem_cons.mp he with rfl | he
    · exact (Window.puts_other _ l hn.1).trans (w.put_self (hl e (List.mem_cons_self ..)))
    · exact ih (w.put a.1 a.2) (fun e h => hl e (List.mem_cons_of_mem _ h)) hn.2 e he

theorem Team.puts_self (t : Team) {l : List (Reg × Word)} (hl : ∀ e ∈ l, teamTakes e) (hn : (l.map (·.1)).Nodup) :
    ∀ e ∈ l, (t.puts l).reg e.1 = e.2 := by
  induction l generalizing t with
  | nil => simp
  | cons a l ih =>
    simp only [List.map_cons, List.nodup_cons] at hn
    intro e he
    rcases List.mem_cons.mp he with rfl | he
    · exact (Team.puts_other _ l hn.1).trans (t.put_self (hl e (List.mem_cons_self ..)))
    · exact ih (t.put a.1 a.2) (fun e h => hl e (List.mem_cons_of_mem _ h)) hn.2 e he

/-! Writes in every lane. -/

theorem tkey_inj {team i j : Nat} (h : tkey team i = tkey team j) : i = j := by unfold tkey at h; omega

/-- The lanes of a pass each have their writes made. -/
def State.lanePuts (s : State) (team : Nat) (tids : List Nat) (f : Nat → List (Reg × Word)) : State :=
  tids.foldl (fun t i => t.putRegs (.thread team i) (f i)) s

theorem lanePuts_rest (s : State) (team : Nat) (tids : List Nat) (f : Nat → List (Reg × Word)) :
    s.lanePuts team tids f = { s with threads := (s.lanePuts team tids f).threads } := by
  unfold State.lanePuts
  induction tids generalizing s with
  | nil => rfl
  | cons i r ih =>
    rw [List.foldl_cons, ih, putRegs_thread]
    rfl

theorem lanePuts_thread (s : State) (team : Nat) (tids : List Nat) (f : Nat → List (Reg × Word)) (k : Nat) :
    tget (s.lanePuts team tids f).threads k = (tget s.threads k).map (fun t =>
      { t with win := (tids.filter (fun i => tkey team i == k)).foldl (fun w i => w.puts (f i)) t.win }) := by
  unfold State.lanePuts
  induction tids generalizing s with
  | nil => simp
  | cons i r ih =>
    rw [List.foldl_cons, ih, putRegs_thread]
    simp only [State.modThread, tget_tmod, List.filter_cons, beq_iff_eq]
    by_cases h : tkey team i = k
    · subst h
      cases tget s.threads (tkey team i) <;> simp
    · simp [h, Ne.symm h]

/-- A thread's registers in its view. -/
theorem view_thread_reg (s : State) (team tid : Nat) (r : Reg) :
    (s.view (.thread team tid)).reg r =
      match r with
      | .s i => (match tget s.teams team with | some t => (t.s[i]?).getD 0 | none => 0)
      | r => (match s.thread team tid with | some t => t.win.reg r | none => zeroWindow.reg r) := by
  cases r <;> simp only [State.view, View.reg, Window.reg] <;> split <;>
    (simp_all [Vector.getElem?_replicate]; try split) <;> simp_all

theorem replicate_getD (n r : Nat) : ((Vector.replicate n 0#32)[r]?).getD 0#32 = 0#32 := by
  rw [Vector.getElem?_replicate]; split <;> rfl

/-- A team's registers in its view, but for k. -/
theorem view_uniform_reg {s : State} {team : Nat} {t : Team} (h : tget s.teams team = some t) (r : Reg) :
    (s.view (.uniform team)).reg r = match r with | .k i => zeroWindow.reg (.k i) | r => t.reg r := by
  cases r <;> simp [State.view, View.reg, Team.reg, Window.reg, h, zeroWindow, replicate_getD]

/-- Each live lane holds what was written. -/
theorem lanePuts_holds (s : State) (team : Nat) {tids : List Nat} (f : Nat → List (Reg × Word)) {i : Nat} (hi : i ∈ tids)
    (hl : (s.thread team i).isSome) (ht : ∀ e ∈ f i, windowTakes e) (hn : ((f i).map (·.1)).Nodup) :
    (s.lanePuts team tids f).holds (.thread team i) (f i) := by
  intro e he
  obtain ⟨t, h⟩ := Option.isSome_iff_exists.mp hl
  have hs : ∀ l : List Nat, l ≠ [] → (∀ j ∈ l, j = i) → ∀ w : Window,
      (l.foldl (fun w j => w.puts (f j)) w).reg e.1 = e.2 := by
    intro l
    induction l using List.reverseRecOn with
    | nil => simp
    | append_singleton l j _ =>
      intro _ hj w
      rw [List.foldl_append, List.foldl_cons, List.foldl_nil, hj j (by simp)]
      exact Window.puts_self _ ht hn e he
  have ht' := ht e he
  rw [view_thread_reg]
  have hw : (s.lanePuts team tids f).thread team i = some { t with
      win := (tids.filter (fun j => tkey team j == tkey team i)).foldl (fun w j => w.puts (f j)) t.win } := by
    unfold State.thread at h ⊢
    rw [lanePuts_thread, h]; rfl
  rw [hw]
  have key := hs (tids.filter (fun j => tkey team j == tkey team i))
    (List.ne_nil_of_mem (List.mem_filter.mpr ⟨hi, by simp⟩))
    (fun j hj => tkey_inj (by simpa using (List.mem_filter.mp hj).2)) t.win
  obtain ⟨r, v⟩ := e
  cases r <;> simp_all [windowTakes]

/-- A lane's register that is not written is as it was. -/
theorem lanePuts_keeps (s : State) (team : Nat) (tids : List Nat) (f : Nat → List (Reg × Word)) (i : Nat) {r : Reg}
    (hr : ∀ j ∈ tids, r ∉ (f j).map (·.1)) :
    ((s.lanePuts team tids f).view (.thread team i)).reg r = (s.view (.thread team i)).reg r := by
  have hs : ∀ l : List Nat, (∀ j ∈ l, j ∈ tids) → ∀ w : Window, (l.foldl (fun w j => w.puts (f j)) w).reg r = w.reg r := by
    intro l
    induction l with
    | nil => simp
    | cons j l ih =>
      intro hj w
      rw [List.foldl_cons, ih (fun j h => hj j (List.mem_cons_of_mem _ h)),
        Window.puts_other _ _ (hr j (hj j (List.mem_cons_self ..)))]
  have ht : (s.lanePuts team tids f).teams = s.teams := by rw [lanePuts_rest]
  rw [view_thread_reg, view_thread_reg, ht]
  have hw := lanePuts_thread s team tids f (tkey team i)
  unfold State.thread
  rw [hw]
  cases r with
  | s j => rfl
  | _ =>
    cases tget s.threads (tkey team i) with
    | none => rfl
    | some t => exact hs _ (fun j h => (List.mem_filter.mp h).1) t.win

end Sys2Proof.Machine
end

