-- ==== Sys2Proof/Laws/Issue.lean ====
section
/-! SUPPORT. What `issue` does with a word that is ready, and what `alu` and `aluVar` come to: one lemma each says it
all. -/

namespace Sys2Proof.Machine

/-! Where the issuing group stands. -/

theorem here_spec {s : State} {h : Here} (hh : s.here = some h) :
    s.turn = .issue h.pid h.gid ∧ tget s.passes h.pid = some h.pass ∧ tget h.pass.groups h.gid = some h.group ∧
      s.place h.pass.team = some h.place ∧ h.group.done = false := by
  unfold State.here at hh
  split at hh
  · next pid gid ht =>
    simp only [Option.bind_eq_bind, Option.bind_eq_some_iff] at hh
    obtain ⟨p, hp, g, hg, pl, hpl, h4⟩ := hh
    split at h4
    · exact absurd h4 (by simp)
    · next hd =>
      cases h4
      exact ⟨ht, hp, hg, hpl, by simpa using hd⟩
  · exact absurd hh (by simp)

theorem place_spec {s : State} {team : Nat} {p : Place} (hp : s.place team = some p) :
    tget s.teams team = some p.team ∧ tget s.clusters p.team.cluster = some p.cluster ∧
      tget s.launches p.team.launch = some p.launch ∧ s.imageOf p.launch = some p.image := by
  unfold State.place at hp
  simp only [Option.bind_eq_bind, Option.bind_eq_some_iff] at hp
  obtain ⟨t, ht, c, hc, l, hl, i, hi, h⟩ := hp
  cases h
  exact ⟨ht, hc, hl, hi⟩

/-- The state in which a word's effect takes place: the group has moved on, and two counters count (R257). -/
def State.issued (s : State) (h : Here) (i : Instr) (c : Ctl) : State :=
  ((s.advance h i c).count h.place h.core 2 1).count h.place h.core 3 (h.taking c s).length

theorem issued_rest (s : State) (h : Here) (i : Instr) (c : Ctl) :
    s.issued h i c = { s with passes := (s.issued h i c).passes, perf := (s.issued h i c).perf } := rfl

@[simp] theorem issued_threads (s : State) (h : Here) (i : Instr) (c : Ctl) : (s.issued h i c).threads = s.threads := rfl
@[simp] theorem issued_teams (s : State) (h : Here) (i : Instr) (c : Ctl) : (s.issued h i c).teams = s.teams := rfl

@[simp] theorem issued_view (s : State) (h : Here) (i : Instr) (c : Ctl) (a : Agent) :
    (s.issued h i c).view a = s.view a := view_congr rfl rfl a

@[simp] theorem issued_taking (s : State) (h : Here) (i : Instr) (c c' : Ctl) :
    h.taking c' (s.issued h i c) = h.taking c' s := taking_congr h c' rfl rfl

@[simp] theorem issued_alive (s : State) (h : Here) (i : Instr) (c : Ctl) (a : Agent) :
    (s.issued h i c).alive a = s.alive a := alive_congr rfl rfl a

theorem issued_otherPasses (s : State) (h : Here) (i : Instr) (c : Ctl) {k : Nat} (hk : k ≠ h.pid) :
    tget (s.issued h i c).passes k = tget s.passes k := by
  show tget (tmod s.passes h.pid _) k = _
  exact tget_tmod_ne _ _ hk

/-- The group stands behind the word. -/
theorem issued_moves {s : State} {h : Here} (hh : s.here = some h) (i : Instr) (c : Ctl) :
    ((tget (s.issued h i c).passes h.pid).bind (fun p => tget p.groups h.gid)).map (·.off) =
      some (h.group.off + c.form.bytes) := by
  obtain ⟨-, hp, hg, -, -⟩ := here_spec hh
  show ((tget (tmod s.passes h.pid _) h.pid).bind _).map _ = _
  rw [tget_tmod_self, hp]
  show (tget (tmod h.pass.groups h.gid _) h.gid).map _ = _
  rw [tget_tmod_self, hg]
  rfl

/-- A word that is ready issues: its body takes effect on the issued state. -/
theorem issue_ready {i : Instr} {c : Ctl} {s : State} {h : Here} (hr : Ready i s h) (body : Here → State → Body) :
    issue i c s body =
      match body h (s.issued h i c) with
      | .done t => .next t
      | .wait => .next s
      | .hold f => .next (f s)
      | .bad => .fault .notAdmitted := by
  unfold issue
  rw [hr.here]
  simp only [hr.form, hr.free, hr.stall, Bool.not_true, Bool.false_eq_true, if_false]
  rfl

theorem issue_done {i : Instr} {c : Ctl} {s t : State} {h : Here} (hr : Ready i s h) {body : Here → State → Body}
    (hb : body h (s.issued h i c) = .done t) : issue i c s body = .next t := by
  rw [issue_ready hr, hb]

/-! Register writes in the taking lanes. -/

/-- The agents that take an instruction, in a thread pass. -/
theorem taking_threads {h : Here} (c : Ctl) (s : State) (hu : h.pass.uniform = false) :
    h.taking c s = ((h.group.lanes.filter (fun t => c.guard.holds (s.view (.thread h.pass.team t)))).map
      (fun t => .thread h.pass.team t)) := by
  unfold Here.taking Here.agents
  simp only [hu, Bool.false_eq_true, if_false, List.filter_map]
  rfl

theorem taking_uniform {h : Here} (c : Ctl) (s : State) (hu : h.pass.uniform = true) :
    h.taking c s = [] ∨ h.taking c s = [.uniform h.pass.team] := by
  unfold Here.taking Here.agents
  simp only [hu, if_true, List.filter_cons, List.filter_nil]
  split <;> simp

theorem taking_subset (h : Here) (c : Ctl) (s : State) : ∀ a ∈ h.taking c s, a ∈ h.agents :=
  fun _ ha => (List.mem_filter.mp ha).1

theorem Team.puts_sansRegs (t : Team) {l : List (Reg × Word)} (hl : ∀ e ∈ l, teamTakes e) :
    (t.puts l).sansRegs = t.sansRegs := by
  induction l generalizing t with
  | nil => rfl
  | cons e l ih =>
    refine (ih (t.put e.1 e.2) (fun e h => hl e (List.mem_cons_of_mem _ h))).trans ?_
    have := hl e (List.mem_cons_self ..)
    obtain ⟨r, v⟩ := e
    cases r <;> first | rfl | exact absurd this (by simp [teamTakes])

/-- What a write to every taking agent of the issuing group comes to, in a state that differs from s in its passes and
counters alone. -/
theorem putRegs_lanes {s u : State} {h : Here} {c : Ctl} (hh : s.here = some h) (f : Agent → List (Reg × Word))
    (regs : List Reg) (hu : u = { s with passes := u.passes, perf := u.perf })
    (hp : ∀ k, k ≠ h.pid → tget u.passes k = tget s.passes k)
    (ht : ∀ a, ∀ e ∈ f a, if h.pass.uniform then teamTakes e else windowTakes e)
    (hn : ∀ a, ((f a).map (·.1)).Nodup) (hs : ∀ a, ∀ e ∈ f a, e.1 ∈ regs) :
    let t := (h.taking c s).foldl (fun t a => t.putRegs a (f a)) u
    (∀ a ∈ h.taking c s, s.alive a → t.holds a (f a)) ∧ OnlyRegs h (h.taking c s) s t ∧ keepsOthers h.agents regs s t ∧
      t.passes = u.passes ∧ t.perf = u.perf := by
  obtain ⟨-, -, -, hpl, -⟩ := here_spec hh
  have hteam := (place_spec hpl).1
  have hthr : u.threads = s.threads := by rw [hu]
  have htm : u.teams = s.teams := by rw [hu]
  cases hun : h.pass.uniform with
  | false =>
    simp only [hun, Bool.false_eq_true, if_false] at ht
    have htk := taking_threads c s hun
    generalize (h.group.lanes.filter (fun t => c.guard.holds (s.view (.thread h.pass.team t)))) = tids at htk
    have hfold : (h.taking c s).foldl (fun t a => t.putRegs a (f a)) u =
        u.lanePuts h.pass.team tids (fun i => f (.thread h.pass.team i)) := by
      rw [htk, List.foldl_map]; rfl
    simp only [hfold]
    have hrest := lanePuts_rest u h.pass.team tids (fun i => f (.thread h.pass.team i))
    have hth := lanePuts_thread u h.pass.team tids (fun i => f (.thread h.pass.team i))
    generalize hg : u.lanePuts h.pass.team tids (fun i => f (.thread h.pass.team i)) = t at hrest hth
    refine ⟨?_, ⟨?_, ?_, ?_, ?_, ?_, ?_⟩, ?_, ?_, ?_⟩
    · intro a ha hl
      rw [htk] at ha
      obtain ⟨i, hi, rfl⟩ := List.mem_map.mp ha
      rw [← hg]
      refine lanePuts_holds u h.pass.team (fun i => f (.thread h.pass.team i)) hi ?_ (ht _) (hn _)
      simpa [State.thread, hthr, State.alive] using hl
    · rw [hrest, hu]
    · intro k
      rw [hth k, hthr]
      cases tget s.threads k <;> rfl
    · intro k hk
      have : tids.filter (fun i => tkey h.pass.team i == k) = [] := by
        rw [List.filter_eq_nil_iff]
        intro i hi
        have := hk h.pass.team i (by rw [htk]; exact List.mem_map.mpr ⟨i, hi, rfl⟩)
        simpa using Ne.symm this
      rw [hth k, this, hthr]
      cases tget s.threads k <;> rfl
    · intro k; rw [show t.teams = s.teams from by rw [hrest]; exact htm]
    · intro k _; rw [show t.teams = s.teams from by rw [hrest]; exact htm]
    · intro k hk; rw [show t.passes = u.passes from by rw [hrest]]; exact hp k hk
    · intro a ha r hr
      unfold Here.agents at ha
      simp only [hun, Bool.false_eq_true, if_false, List.mem_map] at ha
      obtain ⟨i, -, rfl⟩ := ha
      rw [← hg, lanePuts_keeps u h.pass.team tids (fun i => f (.thread h.pass.team i)) i
        (fun j _ hj => by
          obtain ⟨e, he, rfl⟩ := List.mem_map.mp hj
          exact hr (hs _ e he)), view_congr hthr htm]
    · rw [hrest]
    · rw [hrest]
  | true =>
    simp only [hun, if_true] at ht
    rcases taking_uniform c s hun with htk | htk
    · simp only [htk, List.foldl_nil]
      refine ⟨by simp, ⟨?_, ?_, ?_, ?_, ?_, hp⟩, ?_, by simp, by simp⟩
      · rw [hthr, htm]; exact hu
      · intro k; rw [hthr]
      · intro k _; rw [hthr]
      · intro k; rw [htm]
      · intro k _; rw [htm]
      · intro a _ r _; rw [view_congr hthr htm]
    · simp only [htk, List.foldl_cons, List.foldl_nil, putRegs_uniform, State.modTeam]
      have hget : tget (tmod u.teams h.pass.team (fun t => t.puts (f (.uniform h.pass.team)))) h.pass.team =
          some (h.place.team.puts (f (.uniform h.pass.team))) := by
        rw [tget_tmod_self, htm, hteam]; rfl
      refine ⟨?_, ⟨?_, ?_, ?_, ?_, ?_, hp⟩, ?_, by simp, by simp⟩
      · intro a ha _
        rw [List.mem_singleton.mp ha]
        intro e he
        rw [view_uniform_reg (t := h.place.team.puts (f (.uniform h.pass.team))) hget]
        have h1 := ht _ e he
        have h2 := Team.puts_self h.place.team (ht _) (hn _) e he
        obtain ⟨r, v⟩ := e
        clear hu hp
        cases r <;> simp_all [teamTakes]
      · simp only [hthr]; rw [hu]
      · intro k; simp only [hthr]
      · intro k _; simp only [hthr]
      · intro k
        simp only [tget_tmod, htm]
        by_cases hk : k = h.pass.team
        · subst hk
          rw [if_pos rfl, hteam]
          simp only [Option.map_some, Option.some.injEq]
          exact Team.puts_sansRegs _ (ht _)
        · rw [if_neg hk]
      · intro k hk
        simp only [tget_tmod, htm]
        rw [if_neg (by simpa using hk)]
      · intro a ha r hr
        unfold Here.agents at ha
        simp only [hun, if_true, List.mem_singleton] at ha
        subst ha
        rw [view_uniform_reg (t := h.place.team.puts (f (.uniform h.pass.team))) hget, view_uniform_reg hteam]
        cases r with
        | k j => rfl
        | _ =>
          exact Team.puts_other _ _ (fun hj => by
            obtain ⟨e, he, h'⟩ := List.mem_map.mp hj
            exact hr (h' ▸ hs _ e he))

end Sys2Proof.Machine
end

