-- ==== Sys2Proof/Laws/Alu.lean ====
section
/-! SUPPORT. The words whose effect is a write of registers: results, and what they leave alone. -/

namespace Sys2Proof.Machine

/-- A list of writes suits the agents of a pass: each register once, and one that they have. -/
def writesFit (uniform : Bool) (l : List (Reg × Word)) : Prop :=
  (∀ e ∈ l, if uniform then teamTakes e else windowTakes e) ∧ (l.map (·.1)).Nodup

theorem onlyRegs_congr {h : Here} {l : List Agent} {s u t : State} (hu : u = { s with passes := u.passes, perf := u.perf })
    (ho : OnlyRegs h l u t) (hp : ∀ k, k ≠ h.pid → tget u.passes k = tget s.passes k) : OnlyRegs h l s t := by
  have hthr : u.threads = s.threads := by rw [hu]
  have htm : u.teams = s.teams := by rw [hu]
  refine ⟨?_, fun k => hthr ▸ ho.threads k, fun k hk => hthr ▸ ho.otherThreads k hk, fun k => htm ▸ ho.teams k,
    fun k hk => htm ▸ ho.otherTeams k hk, fun k hk => (ho.otherPasses k hk).trans (hp k hk)⟩
  have := ho.rest
  rw [hu] at this
  exact this

/-- What `alu` comes to. -/
theorem alu_spec {i : Instr} {c : Ctl} {s : State} {h : Here} {f : View → List (Reg × Word)} (hr : Ready i s h)
    (hf : ∀ v, writesFit h.pass.uniform (f v)) (regs : List Reg) (hs : ∀ v, ∀ e ∈ f v, e.1 ∈ regs) :
    nextWith (alu i c f s) (fun t => (∀ a ∈ h.taking c s, s.alive a = true → t.holds a (f (s.view a))) ∧
      OnlyRegs h (h.taking c s) s t ∧ keepsOthers h.agents regs s t ∧ movedOn h c t) := by
  have hp := putRegs_lanes (c := c) (u := s.issued h i c) hr.here (fun a => f (s.view a)) regs (issued_rest s h i c)
    (fun k hk => issued_otherPasses s h i c hk) (fun a => (hf _).1) (fun a => (hf _).2) (fun a => hs _)
  refine ⟨_, issue_done hr rfl, ?_⟩
  simp only [issued_taking, issued_view]
  refine ⟨hp.1, hp.2.1, hp.2.2.1, ?_⟩
  unfold movedOn
  rw [hp.2.2.2.1]
  exact issued_moves hr.here i c

/-! Destinations. -/

theorem dstWrites_regs (d : Dst) (w : Bool) (v : DWord) : ∀ e ∈ dstWrites d w v, e.1 ∈ Dst.regs w d := by
  cases d <;> cases w <;> simp [dstWrites, Dst.regs]

theorem dstWrites_nodup (d : Dst) (w : Bool) (v : DWord) : ((dstWrites d w v).map (·.1)).Nodup := by
  cases d <;> cases w <;> simp [dstWrites, Dst.regs]

/-- A destination that the form allows names registers the agents have. -/
theorem dstWrites_fit {i : Instr} {u : Bool} {d : Dst} {w : Bool} (hd : i.dst? = some d) (hf : i.formOk u = true)
    (hp : d.pairOk w = true) (v : DWord) : writesFit u (dstWrites d w v) := by
  refine ⟨?_, dstWrites_nodup d w v⟩
  unfold Instr.formOk at hf
  simp only [hd, Bool.and_eq_true] at hf
  have hf := hf.1.2
  cases d with
  | x r =>
    simp only [Bool.and_eq_true, Bool.not_eq_true'] at hf
    have := r.isLt
    cases w <;> simp_all [dstWrites, Dst.regs, windowTakes, Dst.pairOk]
    omega
  | o r =>
    have := r.isLt
    cases w <;> cases u <;> simp_all [dstWrites, Dst.regs, windowTakes, teamTakes, Dst.pairOk] <;> omega
  | y r =>
    have := r.isLt
    cases w <;> cases u <;> simp_all [dstWrites, Dst.regs, windowTakes, teamTakes, Dst.pairOk] <;> omega
  | s r =>
    simp only [Bool.and_eq_true] at hf
    have := r.isLt
    cases w <;> simp_all [dstWrites, Dst.regs, teamTakes, Dst.pairOk] <;> omega
  | zero => simp [dstWrites, Dst.regs]

/-- A word that writes a condition register is legal in thread blocks alone. -/
theorem kWrite_thread {i : Instr} {u : Bool} {k : Fin 7} (hk : Reg.k k.val ∈ i.writesRegs) (hf : i.formOk u = true) :
    u = false := by
  cases u with
  | false => rfl
  | true =>
    unfold Instr.formOk at hf
    simp only [Bool.and_eq_true, Bool.not_true, Bool.false_or, List.all_eq_true, List.mem_append] at hf
    have := hf.2.1 (.k k.val) (.inr hk)
    have hlt := k.isLt
    simp at this
    omega

theorem kWrite_fit {i : Instr} {u : Bool} {k : Fin 7} (hk : Reg.k k.val ∈ i.writesRegs) (hf : i.formOk u = true) (b : Bool) :
    writesFit u [kWrite k.val b] := by
  rw [kWrite_thread hk hf]
  have := k.isLt
  cases b <;> simp [writesFit, kWrite, windowTakes, natOfBool, this]

/-- A word whose meaning writes one destination gives its result. -/
theorem gives_dst {i : Instr} {c : Ctl} {d : Dst} {w : Bool} {f : View → List (Reg × Word)} {g : View → DWord}
    (he : ∀ s, exec i s = alu i c f s) (hd : i.dst? = some d) (hp : i.wf = true → d.pairOk w = true)
    (hg : ∀ v, f v = dstWrites d w (g v)) : Gives i c (fun v => dstWrites d w (g v)) := by
  obtain rfl : f = fun v => dstWrites d w (g v) := funext hg
  intro s h hr
  rw [he]
  obtain ⟨t, ht, hh, -⟩ := alu_spec (c := c) (f := fun v => dstWrites d w (g v)) hr
    (fun v => dstWrites_fit hd hr.form (hp hr.wf) _) (Dst.regs w d) (fun v => dstWrites_regs d w _)
  exact ⟨t, ht, hh⟩

/-- A word whose meaning writes one condition register gives its result. -/
theorem gives_k {i : Instr} {c : Ctl} {k : Fin 7} {f : View → List (Reg × Word)} {g : View → Bool}
    (he : ∀ s, exec i s = alu i c f s) (hk : Reg.k k.val ∈ i.writesRegs) (hg : ∀ v, f v = [kWrite k.val (g v)]) :
    Gives i c (fun v => [kWrite k.val (g v)]) := by
  obtain rfl : f = fun v => [kWrite k.val (g v)] := funext hg
  intro s h hr
  rw [he]
  obtain ⟨t, ht, hh, -⟩ := alu_spec (c := c) (f := fun v => [kWrite k.val (g v)]) hr
    (fun v => kWrite_fit hk hr.form _) [.k k.val] (by simp [kWrite])
  exact ⟨t, ht, hh⟩

/-- What such a word leaves alone. -/
theorem frame_alu {i : Instr} {c : Ctl} {f : View → List (Reg × Word)} {s t : State} {h : Here} (hr : Ready i s h)
    (hf : ∀ v, writesFit h.pass.uniform (f v)) (hs : ∀ v, ∀ e ∈ f v, e.1 ∈ i.writesRegs) (ht : alu i c f s = .next t) :
    OnlyRegs h (h.taking c s) s t ∧ keepsOthers h.agents i.writesRegs s t ∧ movedOn h c t := by
  obtain ⟨u, hu, -, h1, h2, h3⟩ := alu_spec (c := c) hr hf i.writesRegs hs
  rw [hu] at ht
  cases ht
  exact ⟨h1, h2, h3⟩

end Sys2Proof.Machine
end

