-- ==== Sys2Proof/Laws/Pending.lean ====
section
/-! SUPPORT. Pending bits, results on their way, and effects on one lane after another. -/

namespace Sys2Proof.Machine

/-- No more than the pending bits of an agent's registers have changed. -/
structure BitsOnly (a : Agent) (s t : State) : Prop where
  rest : t = { s with threads := t.threads, teams := t.teams }
  threads : ∀ k, (tget t.threads k).map Thread.sansPend = (tget s.threads k).map Thread.sansPend
  otherThreads : ∀ k, (∀ team tid, a = .thread team tid → k ≠ tkey team tid) → tget t.threads k = tget s.threads k
  teams : ∀ k, (tget t.teams k).map Team.sansPend = (tget s.teams k).map Team.sansPend
  otherTeams : ∀ k, a ≠ .uniform k → tget t.teams k = tget s.teams k

theorem BitsOnly.refl (a : Agent) (s : State) : BitsOnly a s s := ⟨rfl, fun _ => rfl, fun _ _ => rfl, fun _ => rfl, fun _ _ => rfl⟩

theorem BitsOnly.trans {a : Agent} {s t u : State} (h : BitsOnly a s t) (g : BitsOnly a t u) : BitsOnly a s u :=
  ⟨by rw [g.rest, h.rest], fun k => (g.threads k).trans (h.threads k), fun k x => (g.otherThreads k x).trans (h.otherThreads k x),
    fun k => (g.teams k).trans (h.teams k), fun k x => (g.otherTeams k x).trans (h.otherTeams k x)⟩

theorem BitsOnly.modThread (s : State) (team tid : Nat) {f : Thread → Thread} (hf : ∀ t, (f t).sansPend = t.sansPend) :
    BitsOnly (.thread team tid) s (s.modThread team tid f) := by
  refine ⟨rfl, fun k => ?_, fun k h => tget_tmod_ne _ _ (h _ _ rfl), fun _ => rfl, fun _ _ => rfl⟩
  simp only [State.modThread, tget_tmod]
  split
  · subst k; cases tget s.threads (tkey team tid) <;> simp [hf]
  · rfl

theorem BitsOnly.modTeam (s : State) (team : Nat) {f : Team → Team} (hf : ∀ t, (f t).sansPend = t.sansPend) :
    BitsOnly (.uniform team) s (s.modTeam team f) := by
  refine ⟨rfl, fun _ => rfl, fun _ _ => rfl, fun k => ?_, fun k h => tget_tmod_ne _ _ (by simpa using Ne.symm h)⟩
  simp only [State.modTeam, tget_tmod]
  split
  · subst k; cases tget s.teams team <;> simp [hf]
  · rfl

theorem setPend_only (s : State) (a : Agent) (r : Reg) (b : Bool) : BitsOnly a s (s.setPend a r b) := by
  cases a with
  | thread team tid =>
    cases r <;> first
      | exact BitsOnly.modThread s team tid (fun _ => rfl)
      | exact BitsOnly.refl _ _
  | uniform team =>
    cases r <;> first
      | exact BitsOnly.modTeam s team (fun _ => rfl)
      | exact BitsOnly.refl _ _

theorem setPends_only (s : State) (a : Agent) (l : List Reg) (b : Bool) : BitsOnly a s (s.setPends a l b) := by
  unfold State.setPends
  induction l generalizing s with
  | nil => exact BitsOnly.refl _ _
  | cons r l ih => exact (setPend_only s a r b).trans (ih _)

/-- Pending bits are no register. -/
theorem BitsOnly.view {a : Agent} {s t : State} (h : BitsOnly a s t) (b : Agent) : t.view b = s.view b := by
  have hs (k : Nat) : (tget t.teams k).map (fun x => (x.s, x.uo, x.uy)) = (tget s.teams k).map (fun x => (x.s, x.uo, x.uy)) := by
    have := congrArg (Option.map (fun x : Team => (x.s, x.uo, x.uy))) (h.teams k)
    simpa [Option.map_map, Function.comp_def, Team.sansPend] using this
  have hw (k : Nat) : (tget t.threads k).map (·.win) = (tget s.threads k).map (·.win) := by
    have := congrArg (Option.map (fun x : Thread => x.win)) (h.threads k)
    simpa [Option.map_map, Function.comp_def, Thread.sansPend] using this
  cases b with
  | thread team tid =>
    have h1 := hs team
    have h2 := hw (tkey team tid)
    simp only [State.view, State.thread]
    cases e1 : tget t.teams team <;> cases e2 : tget s.teams team <;> cases e3 : tget t.threads (tkey team tid) <;>
      cases e4 : tget s.threads (tkey team tid) <;> simp_all
  | uniform team =>
    have h1 := hs team
    simp only [State.view]
    cases e1 : tget t.teams team <;> cases e2 : tget s.teams team <;> simp_all

theorem BitsOnly.live {a : Agent} {s t : State} (h : BitsOnly a s t) (b : Agent) : t.alive b = s.alive b := by
  cases b with
  | thread team tid =>
    have := congrArg Option.isSome (h.threads (tkey team tid))
    simpa [State.alive, State.thread] using this
  | uniform team =>
    have := congrArg (Option.map (fun x : Team => x.stopped)) (h.teams team)
    simp only [Option.map_map, Function.comp_def, Team.sansPend] at this
    simp only [State.alive]
    cases e1 : tget t.teams team <;> cases e2 : tget s.teams team <;> simp_all

/-- What a result on its way comes to. -/
theorem pend_spec (s : State) (a : Agent) (k : PendKind) (regs : List Reg) (off : Nat) :
    BitsOnly a s (s.setPends a regs true) ∧ s.pend a k regs off =
      { s with threads := (s.setPends a regs true).threads, teams := (s.setPends a regs true).teams
               pends := s.pends ++ [(s.nextId, ⟨a, k, off⟩)], nextId := s.nextId + 1 } := by
  have h := setPends_only s a regs true
  refine ⟨h, ?_⟩
  simp only [State.pend]
  rw [h.rest]

theorem pend_view (s : State) (a b : Agent) (k : PendKind) (regs : List Reg) (off : Nat) :
    (s.pend a k regs off).view b = s.view b := by
  obtain ⟨h, he⟩ := pend_spec s a k regs off
  rw [he]
  exact (view_congr rfl rfl b).trans (h.view b)

theorem pend_alive (s : State) (a b : Agent) (k : PendKind) (regs : List Reg) (off : Nat) :
    (s.pend a k regs off).alive b = s.alive b := by
  obtain ⟨h, he⟩ := pend_spec s a k regs off
  rw [he]
  exact (alive_congr rfl rfl b).trans (h.live b)

theorem OnlyPending.refl {h : Here} {l : List Agent} {s u : State} (hu : u = { s with passes := u.passes, perf := u.perf })
    (hp : ∀ k, k ≠ h.pid → tget u.passes k = tget s.passes k) : OnlyPending h l s u := by
  have hthr : u.threads = s.threads := by rw [hu]
  have htm : u.teams = s.teams := by rw [hu]
  have hpe : u.pends = s.pends := by rw [hu]
  have hn : u.nextId = s.nextId := by rw [hu]
  exact ⟨by rw [hthr, htm, hpe, hn]; exact hu, fun k => by rw [hthr], fun k _ => by rw [hthr], fun k => by rw [htm],
    fun k _ => by rw [htm], hp, [], by rw [hpe]; simp⟩

theorem OnlyPending.pend {h : Here} {l : List Agent} {s t : State} (ho : OnlyPending h l s t) {a : Agent} (ha : a ∈ l)
    (k : PendKind) (regs : List Reg) (off : Nat) : OnlyPending h l s (t.pend a k regs off) := by
  obtain ⟨hb, he⟩ := pend_spec t a k regs off
  obtain ⟨m, hm⟩ := ho.earlier
  rw [he]
  refine ⟨?_, fun i => (hb.threads i).trans (ho.threads i), fun i hi => (hb.otherThreads i ?_).trans (ho.otherThreads i hi),
    fun i => (hb.teams i).trans (ho.teams i), fun i hi => (hb.otherTeams i (hi a ha)).trans (ho.otherTeams i hi), ho.otherPasses,
    m ++ [(t.nextId, ⟨a, k, off⟩)], by simp [hm]⟩
  · have := ho.rest
    rw [this]
  · rintro team tid rfl
    exact hi team tid ha

theorem OnlyPending.view {h : Here} {l : List Agent} {s t : State} (ho : OnlyPending h l s t) (b : Agent) :
    t.view b = s.view b := by
  have hs (k : Nat) : (tget t.teams k).map (fun x => (x.s, x.uo, x.uy)) = (tget s.teams k).map (fun x => (x.s, x.uo, x.uy)) := by
    have := congrArg (Option.map (fun x : Team => (x.s, x.uo, x.uy))) (ho.teams k)
    simpa [Option.map_map, Function.comp_def, Team.sansPend] using this
  have hw (k : Nat) : (tget t.threads k).map (·.win) = (tget s.threads k).map (·.win) := by
    have := congrArg (Option.map (fun x : Thread => x.win)) (ho.threads k)
    simpa [Option.map_map, Function.comp_def, Thread.sansPend] using this
  cases b with
  | thread team tid =>
    have h1 := hs team
    have h2 := hw (tkey team tid)
    simp only [State.view, State.thread]
    cases e1 : tget t.teams team <;> cases e2 : tget s.teams team <;> cases e3 : tget t.threads (tkey team tid) <;>
      cases e4 : tget s.threads (tkey team tid) <;> simp_all
  | uniform team =>
    have h1 := hs team
    simp only [State.view]
    cases e1 : tget t.teams team <;> cases e2 : tget s.teams team <;> simp_all

/-- Results entered for several agents: each is on its way, and nothing else has changed. -/
theorem later_lanes {h : Here} {l : List Agent} {s u : State} (f : Agent → List (Reg × Word)) (m : List Agent)
    (hm : ∀ a ∈ m, a ∈ l) (ho : OnlyPending h l s u) :
    let t := m.foldl (fun t a => t.later a (f a)) u
    (∀ a ∈ m, t.coming a (f a)) ∧ (∀ e ∈ u.pends, e ∈ t.pends) ∧ OnlyPending h l s t ∧ t.passes = u.passes := by
  induction m generalizing u with
  | nil => exact ⟨by simp, fun _ h => h, ho, rfl⟩
  | cons a m ih =>
    have h1 := ho.pend (hm a (List.mem_cons_self ..)) (.ready (f a)) ((f a).map (·.1)) 0
    obtain ⟨i1, i2, i3, i4⟩ := ih (u := u.later a (f a)) (fun b hb => hm b (List.mem_cons_of_mem _ hb)) h1
    obtain ⟨-, he⟩ := pend_spec u a (.ready (f a)) ((f a).map (·.1)) 0
    have hp : (u.later a (f a)).pends = u.pends ++ [(u.nextId, ⟨a, .ready (f a), 0⟩)] := by
      unfold State.later; rw [he]
    refine ⟨?_, fun e he' => i2 e (by rw [hp]; exact List.mem_append_left _ he'), i3, ?_⟩
    · intro b hb
      rcases List.mem_cons.mp hb with rfl | hb
      · exact ⟨_, i2 (u.nextId, ⟨b, .ready (f b), 0⟩) (by rw [hp]; simp), rfl⟩
      · exact i1 b hb
    · refine i4.trans ?_
      unfold State.later; rw [he]

/-- What `aluVar` comes to. -/
theorem aluVar_spec {i : Instr} {c : Ctl} {s : State} {h : Here} (f : View → List (Reg × Word)) (hr : Ready i s h) :
    nextWith (aluVar i c f s) (fun t => (∀ a ∈ h.taking c s, t.coming a (f (s.view a))) ∧
      OnlyPending h h.agents s t ∧ movedOn h c t) := by
  have key (m : List Agent) (hm : ∀ a ∈ m, a ∈ h.agents) :
      let t := m.foldl (fun t a => t.later a (f ((s.issued h i c).view a))) (s.issued h i c)
      (∀ a ∈ m, t.coming a (f (s.view a))) ∧ OnlyPending h h.agents s t ∧ t.passes = (s.issued h i c).passes := by
    have := later_lanes (fun a => f ((s.issued h i c).view a)) m hm
      (OnlyPending.refl (issued_rest s h i c) (fun k hk => issued_otherPasses s h i c hk))
    exact ⟨fun a ha => by have := this.1 a ha; simpa using this, this.2.2.1, this.2.2.2⟩
  have hk := key (h.taking c s) (taking_subset h c s)
  refine ⟨_, issue_done hr rfl, ?_⟩
  simp only [issued_taking]
  obtain ⟨k1, k2, k3⟩ := hk
  refine ⟨k1, k2, ?_⟩
  unfold movedOn
  rw [k3]
  exact issued_moves hr.here i c

/-! One lane after another. -/

theorem eachLane_nil (f : Agent → State → State) (s : State) : eachLane [] f s = s := rfl

theorem eachLane_one {a : Agent} (f : Agent → State → State) {s : State} (h : s.alive a = true) : eachLane [a] f s = f a s := by
  simp [eachLane, h]

end Sys2Proof.Machine
end

