-- ==== Sys2Proof/Laws/Block.lean ====
section
/-! SUPPORT. How lanes leave their block. -/

namespace Sys2Proof.Machine

/-- No more than where an agent goes next has changed. -/
structure LeaveOnly (a : Agent) (s t : State) : Prop where
  rest : t = { s with threads := t.threads, teams := t.teams }
  threads : ∀ k, (tget t.threads k).map Thread.sansLeave = (tget s.threads k).map Thread.sansLeave
  otherThreads : ∀ k, (∀ team tid, a = .thread team tid → k ≠ tkey team tid) → tget t.threads k = tget s.threads k
  teams : ∀ k, (tget t.teams k).map Team.sansLeave = (tget s.teams k).map Team.sansLeave
  otherTeams : ∀ k, a ≠ .uniform k → tget t.teams k = tget s.teams k

theorem LeaveOnly.refl (a : Agent) (s : State) : LeaveOnly a s s :=
  ⟨rfl, fun _ => rfl, fun _ _ => rfl, fun _ => rfl, fun _ _ => rfl⟩

theorem LeaveOnly.trans {a : Agent} {s t u : State} (h : LeaveOnly a s t) (g : LeaveOnly a t u) : LeaveOnly a s u :=
  ⟨by rw [g.rest, h.rest], fun k => (g.threads k).trans (h.threads k), fun k x => (g.otherThreads k x).trans (h.otherThreads k x),
    fun k => (g.teams k).trans (h.teams k), fun k x => (g.otherTeams k x).trans (h.otherTeams k x)⟩

theorem LeaveOnly.modThread (s : State) (team tid : Nat) {f : Thread → Thread} (hf : ∀ t, (f t).sansLeave = t.sansLeave) :
    LeaveOnly (.thread team tid) s (s.modThread team tid f) := by
  refine ⟨rfl, fun k => ?_, fun k h => tget_tmod_ne _ _ (h _ _ rfl), fun _ => rfl, fun _ _ => rfl⟩
  simp only [State.modThread, tget_tmod]
  split
  · subst k; cases tget s.threads (tkey team tid) <;> simp [hf]
  · rfl

theorem LeaveOnly.modTeam (s : State) (team : Nat) {f : Team → Team} (hf : ∀ t, (f t).sansLeave = t.sansLeave) :
    LeaveOnly (.uniform team) s (s.modTeam team f) := by
  refine ⟨rfl, fun _ => rfl, fun _ _ => rfl, fun k => ?_, fun k h => tget_tmod_ne _ _ (by simpa using Ne.symm h)⟩
  simp only [State.modTeam, tget_tmod]
  split
  · subst k; cases tget s.teams team <;> simp [hf]
  · rfl

theorem setLeave_only (s : State) (a : Agent) (l : Leave) : LeaveOnly a s (s.setLeave a l) := by
  cases a with
  | thread team tid => exact LeaveOnly.modThread s team tid (fun _ => rfl)
  | uniform team => exact LeaveOnly.modTeam s team (fun _ => rfl)

theorem setLeave_leaveOf (s : State) {a : Agent} (l : Leave) (h : s.alive a = true) : (s.setLeave a l).leaveOf a = some l := by
  cases a with
  | thread team tid =>
    simp only [State.alive, State.thread] at h
    simp only [State.setLeave, State.leaveOf, State.thread, State.modThread, tget_tmod_self]
    cases e : tget s.threads (tkey team tid) <;> simp_all
  | uniform team =>
    simp only [State.alive] at h
    simp only [State.setLeave, State.leaveOf, State.modTeam, tget_tmod_self]
    cases e : tget s.teams team <;> simp_all

theorem LeaveOnly.view {a : Agent} {s t : State} (h : LeaveOnly a s t) (b : Agent) : t.view b = s.view b := by
  have hs (k : Nat) : (tget t.teams k).map (fun x => (x.s, x.uo, x.uy)) = (tget s.teams k).map (fun x => (x.s, x.uo, x.uy)) := by
    have := congrArg (Option.map (fun x : Team => (x.s, x.uo, x.uy))) (h.teams k)
    simpa [Option.map_map, Function.comp_def, Team.sansLeave] using this
  have hw (k : Nat) : (tget t.threads k).map (·.win) = (tget s.threads k).map (·.win) := by
    have := congrArg (Option.map (fun x : Thread => x.win)) (h.threads k)
    simpa [Option.map_map, Function.comp_def, Thread.sansLeave] using this
  cases b with
  | thread team tid =>
    have h1 := hs team
    have h2 := hw (tkey team tid)
    simp only [State.view, State.thread]
    cases e1 : tget t.teams team <;> cases e2 : tget s.teams team <;> cases e3 : tget t.threads (tkey team tid) <;>
      cases e4 : tget s.threads (tkey team tid) <;> simp_all
  | uniform team =>
    have h1 := hs team
    simp only [State.view]
    cases e1 : tget t.teams team <;> cases e2 : tget s.teams team <;> simp_all

theorem LeaveOnly.live {a : Agent} {s t : State} (h : LeaveOnly a s t) (b : Agent) : t.alive b = s.alive b := by
  cases b with
  | thread team tid =>
    have := congrArg Option.isSome (h.threads (tkey team tid))
    simpa [State.alive, State.thread] using this
  | uniform team =>
    have := congrArg (Option.map (fun x : Team => x.stopped)) (h.teams team)
    simp only [Option.map_map, Function.comp_def, Team.sansLeave] at this
    simp only [State.alive]
    cases e1 : tget t.teams team <;> cases e2 : tget s.teams team <;> simp_all

/-- The agents of one pass have keys of their own. -/
theorem LeaveOnly.leaveOf_other {h : Here} {a b : Agent} {s t : State} (ho : LeaveOnly a s t) (ha : a ∈ h.agents)
    (hb : b ∈ h.agents) (hne : b ≠ a) : t.leaveOf b = s.leaveOf b := by
  unfold Here.agents at ha hb
  cases hu : h.pass.uniform with
  | true => simp_all
  | false =>
    simp only [hu, Bool.false_eq_true, if_false, List.mem_map] at ha hb
    obtain ⟨i, -, rfl⟩ := ha
    obtain ⟨j, -, rfl⟩ := hb
    simp only [State.leaveOf, State.thread]
    rw [ho.otherThreads]
    intro team tid e
    cases e
    exact fun e => hne (by rw [tkey_inj e])

/-- What ending a block comes to, where each lane's own part only says where it goes. -/
theorem endBlock_spec {s u : State} {h : Here} (c : Ctl) (F : Agent → View → State → State)
    (L : Agent → View → Leave) (hu : u = { s with passes := u.passes, perf := u.perf })
    (hp : ∀ k, k ≠ h.pid → tget u.passes k = tget s.passes k) (hg : ∃ p g, tget u.passes h.pid = some p ∧ tget p.groups h.gid = some g)
    (hF : ∀ a t, t.alive a = true → a ∈ h.taking c s →
      LeaveOnly a t (F a (s.view a) t) ∧ (F a (s.view a) t).leaveOf a = some (L a (s.view a))) :
    let t := u.endBlock h c F
    (∀ a ∈ h.agents, s.alive a = true →
      t.leaveOf a = some (if a ∈ h.taking c s then L a (s.view a) else .goto (h.fallThrough c))) ∧
    OnlyLeaves h h.agents s t ∧ ended h t := by
  have hthr : u.threads = s.threads := by rw [hu]
  have htm : u.teams = s.teams := by rw [hu]
  obtain ⟨p, g, hp1, hg1⟩ := hg
  let u' := u.modGroup h.pid h.gid (fun g => { g with done := true })
  let G : Agent → State → State := fun a s =>
    let v := s.view a
    if c.guard.holds v then F a v s else s.setLeave a (.goto (h.fallThrough c))
  have hG : ∀ a t, t.alive a = true → a ∈ h.agents → t.view a = s.view a → LeaveOnly a t (G a t) ∧
      (G a t).leaveOf a = some (if c.guard.holds (s.view a) then L a (s.view a) else .goto (h.fallThrough c)) := by
    intro a t hl ha hv
    simp only [G, hv]
    by_cases hc : c.guard.holds (s.view a) = true
    · simp only [hc, if_true]
      exact hF a t hl (List.mem_filter.mpr ⟨ha, hc⟩)
    · simp only [hc, Bool.false_eq_true, if_false]
      exact ⟨setLeave_only _ _ _, setLeave_leaveOf _ _ hl⟩
  have main : ∀ m : List Agent, (∀ a ∈ m, a ∈ h.agents) → ∀ t : State, (∀ b, t.view b = s.view b) → (∀ b, t.alive b = s.alive b) →
      let r := eachLane m G t
      (∀ a ∈ m, s.alive a = true → r.leaveOf a =
        some (if c.guard.holds (s.view a) then L a (s.view a) else .goto (h.fallThrough c))) ∧
      (∀ a ∈ h.agents, a ∉ m → r.leaveOf a = t.leaveOf a) ∧
      r = { t with threads := r.threads, teams := r.teams } ∧
      (∀ k, (tget r.threads k).map Thread.sansLeave = (tget t.threads k).map Thread.sansLeave) ∧
      (∀ k, (∀ team tid, Agent.thread team tid ∈ m → k ≠ tkey team tid) → tget r.threads k = tget t.threads k) ∧
      (∀ k, (tget r.teams k).map Team.sansLeave = (tget t.teams k).map Team.sansLeave) ∧
      (∀ k, Agent.uniform k ∉ m → tget r.teams k = tget t.teams k) := by
    intro m
    induction m with
    | nil => intro _ t _ _; exact ⟨by simp, fun _ _ _ => rfl, rfl, fun _ => rfl, fun _ _ => rfl, fun _ => rfl, fun _ _ => rfl⟩
    | cons a m ih =>
      intro hm t hv ha
      have ham := hm a (List.mem_cons_self ..)
      by_cases hl : t.alive a = true
      · obtain ⟨g1, g2⟩ := hG a t hl ham (hv a)
        have hstep : eachLane (a :: m) G t = eachLane m G (G a t) := by simp [eachLane, hl]
        obtain ⟨i1, i2, i3, i4, i5, i6, i7⟩ := ih (fun b hb => hm b (List.mem_cons_of_mem _ hb)) (G a t)
          (fun b => (g1.view b).trans (hv b)) (fun b => (g1.live b).trans (ha b))
        simp only [hstep]
        refine ⟨?_, ?_, ?_, fun k => (i4 k).trans (g1.threads k), ?_, fun k => (i6 k).trans (g1.teams k), ?_⟩
        · intro b hb hbl
          by_cases hbm : b ∈ m
          · exact i1 b hbm hbl
          · obtain rfl : b = a := by simpa [hbm] using hb
            rw [i2 b ham hbm]
            exact g2
        · intro b hb hbm
          simp only [List.mem_cons, not_or] at hbm
          rw [i2 b hb hbm.2]
          exact g1.leaveOf_other ham hb hbm.1
        · rw [i3, g1.rest]
        · intro k hk
          refine (i5 k (fun team tid e => hk team tid (List.mem_cons_of_mem _ e))).trans (g1.otherThreads k ?_)
          rintro team tid rfl
          exact hk team tid (List.mem_cons_self ..)
        · intro k hk
          simp only [List.mem_cons, not_or] at hk
          exact (i7 k hk.2).trans (g1.otherTeams k (Ne.symm hk.1))
      · have hstep : eachLane (a :: m) G t = eachLane m G t := by simp [eachLane, hl]
        obtain ⟨i1, i2, i3, i4, i5, i6, i7⟩ := ih (fun b hb => hm b (List.mem_cons_of_mem _ hb)) t hv ha
        simp only [hstep]
        refine ⟨?_, ?_, i3, i4, ?_, i6, ?_⟩
        · intro b hb hbl
          rcases List.mem_cons.mp hb with rfl | hb
          · exact absurd ((ha b).trans hbl) hl
          · exact i1 b hb hbl
        · intro b hb hbm
          exact i2 b hb (fun e => hbm (List.mem_cons_of_mem _ e))
        · intro k hk
          exact i5 k (fun team tid e => hk team tid (List.mem_cons_of_mem _ e))
        · intro k hk
          exact i7 k (fun e => hk (List.mem_cons_of_mem _ e))
  obtain ⟨m1, -, m3, m4, m5, m6, m7⟩ := main h.agents (fun _ h => h) u' (view_congr hthr htm) (alive_congr hthr htm)
  have hut : u'.threads = s.threads := hthr
  have hum : u'.teams = s.teams := htm
  have hpass : (eachLane h.agents G u').passes = u'.passes := by rw [m3]
  show (∀ a ∈ h.agents, s.alive a = true → (eachLane h.agents G u').leaveOf a = _) ∧ OnlyLeaves h h.agents s (eachLane h.agents G u') ∧
    ended h (eachLane h.agents G u')
  refine ⟨?_, ⟨?_, fun k => by rw [m4, hut], fun k hk => by rw [m5 k hk, hut], fun k => by rw [m6, hum],
    fun k hk => by rw [m7 k hk, hum], ?_⟩, ?_⟩
  · intro a ha hl
    rw [m1 a ha hl]
    simp [Here.taking, ha]
  · have hu' : u' = { s with passes := u'.passes, perf := u'.perf } :=
      congrArg (fun v : State => { v with passes := u'.passes }) hu
    have hperf : (eachLane h.agents G u').perf = u'.perf := by rw [m3]
    rw [m3]
    exact congrArg (fun v : State => { v with threads := (eachLane h.agents G u').threads, teams := (eachLane h.agents G u').teams }) hu'
  · intro k hk
    rw [hpass]
    show tget (tmod u.passes h.pid _) k = _
    rw [tget_tmod_ne _ _ hk, hp k hk]
  · unfold ended
    rw [hpass]
    show ((tget (tmod u.passes h.pid _) h.pid).bind _).map _ = _
    rw [tget_tmod_self, hp1]
    show (tget (tmod p.groups h.gid _) h.gid).map _ = _
    rw [tget_tmod_self, hg1]
    rfl

/-- The issued state still has the group. -/
theorem issued_group {s : State} {h : Here} (hh : s.here = some h) (i : Instr) (c : Ctl) :
    ∃ p g, tget (s.issued h i c).passes h.pid = some p ∧ tget p.groups h.gid = some g := by
  have := issued_moves hh i c
  cases hp : tget (s.issued h i c).passes h.pid with
  | none => simp [hp] at this
  | some p =>
    cases hg : tget p.groups h.gid with
    | none => simp [hp, hg] at this
    | some g => exact ⟨p, g, rfl, hg⟩

/-- A word that ends its block and only says where the lanes go. -/
theorem leaves_spec {i : Instr} {c : Ctl} {s : State} {h : Here} (hr : Ready i s h) {body : Here → State → Body}
    (F : Agent → View → State → State) (L : Agent → View → Leave)
    (hb : body h (s.issued h i c) = .done ((s.issued h i c).endBlock h c F))
    (hF : ∀ a t, t.alive a = true → a ∈ h.taking c s →
      LeaveOnly a t (F a (s.view a) t) ∧ (F a (s.view a) t).leaveOf a = some (L a (s.view a))) :
    nextWith (issue i c s body) (fun t => (∀ a ∈ h.agents, s.alive a = true →
      t.leaveOf a = some (if a ∈ h.taking c s then L a (s.view a) else .goto (h.fallThrough c))) ∧
      OnlyLeaves h h.agents s t ∧ ended h t) :=
  ⟨_, issue_done hr hb, endBlock_spec c F L (issued_rest s h i c) (fun _ hk => issued_otherPasses s h i c hk)
    (issued_group hr.here i c) hF⟩

end Sys2Proof.Machine
end

