-- ==== Sys2Proof/Laws/Decode.lean ====
section
/-! SUPPORT. The decoder undoes the encoder field by field: words and bytes, and each operand specifier. -/

namespace Sys2Proof

/-! Words and bytes. -/

theorem bytesOfNat_length (n v : Nat) : (bytesOfNat n v).length = n := by
  induction n generalizing v with
  | zero => rfl
  | succ n ih => simp [bytesOfNat, ih]

theorem natOfBytes_bytesOfNat (n v : Nat) : natOfBytes (bytesOfNat n v) = v % 256 ^ n := by
  induction n generalizing v with
  | zero => simp [bytesOfNat, natOfBytes, Nat.mod_one]
  | succ n ih =>
    simp only [bytesOfNat, natOfBytes, ih, BitVec.toNat_ofNat, Nat.reducePow]
    rw [Nat.pow_succ', Nat.mod_mul]

/-- Every field of a word is in its range. -/
structure Fields.InRange (f : Fields) : Prop where
  op : f.op < 256
  d : f.d < 512
  a : f.a < 512
  b : f.b < 512
  c : f.c < 512
  ext : f.ext < 256 ^ (f.form.bytes - 8)

theorem Form.bytes_ge (m : Form) : 8 ≤ m.bytes := by cases m <;> decide

theorem Form.ofCode_code (m : Form) : Form.ofCode m.code = some m := by cases m <;> rfl

theorem Form.code_lt (m : Form) : m.code < 4 := by cases m <;> decide

/-- The word of fields in range fits its bytes. -/
theorem Fields.word_lt {f : Fields} (h : f.InRange) : f.word < 256 ^ f.form.bytes := by
  obtain ⟨h1, h2, h3, h4, h5, h6⟩ := h
  have h7 := f.form.code_lt
  have h8 := f.stall.isLt
  have h9 := f.guard.isLt
  have h10 := f.ty.isLt
  have h11 := f.minor.isLt
  have h12 : natOfBool f.neg < 2 := by unfold natOfBool; split <;> decide
  unfold Fields.word
  cases hf : f.form <;> rw [hf] at h6 h7 <;> simp only [Form.bytes, Form.code] at h6 h7 ⊢ <;> omega

/-- The fields of a word of fields are those fields. -/
theorem Fields.ofWord_word {f : Fields} (h : f.InRange) : Fields.ofWord f.form f.word = f := by
  have hw := Fields.word_lt h
  obtain ⟨h1, h2, h3, h4, h5, h6⟩ := h
  have h7 := f.form.code_lt
  obtain ⟨form, op, stall, guard, neg, d, a, b, c, ty, minor, ext⟩ := f
  have h8 := stall.isLt
  have h9 := guard.isLt
  have h10 := ty.isLt
  have h11 := minor.isLt
  have h12 : natOfBool neg < 2 := by unfold natOfBool; split <;> decide
  simp only [Fields.ofWord, Fields.word, bitsOf, bitOf, Fields.mk.injEq, true_and] at *
  have he : ext < 2 ^ (form.bytes * 8 - 1 - 64 + 1) := by
    cases form <;> simp only [Form.bytes] at h6 ⊢ <;> omega
  refine ⟨by omega, ?_, ?_, ?_, by omega, by omega, by omega, by omega, ?_, ?_, ?_⟩
  · apply BitVec.eq_of_toNat_eq; simp only [BitVec.toNat_ofNat]; omega
  · apply BitVec.eq_of_toNat_eq; simp only [BitVec.toNat_ofNat]; omega
  · cases neg <;> simp [natOfBool] <;> omega
  · apply BitVec.eq_of_toNat_eq; simp only [BitVec.toNat_ofNat]; omega
  · apply BitVec.eq_of_toNat_eq; simp only [BitVec.toNat_ofNat]; omega
  · have : (form.code + 2 ^ 2 * op + 2 ^ 10 * stall.toNat + 2 ^ 13 * guard.toNat + 2 ^ 16 * natOfBool neg +
        2 ^ 17 * d + 2 ^ 26 * a + 2 ^ 35 * b + 2 ^ 44 * c + 2 ^ 53 * ty.toNat + 2 ^ 57 * minor.toNat +
        2 ^ 64 * ext) / 2 ^ 64 = ext := by omega
    rw [this, Nat.mod_eq_of_lt he]

/-- Decoding the bytes of fields in range comes to decoding the fields. -/
theorem decode_word {f : Fields} (h : f.InRange) (rest : List Byte) :
    decode (bytesOfNat f.form.bytes f.word ++ rest) = (decodeFields f).map (fun i => (i, rest)) := by
  have hlen := bytesOfNat_length f.form.bytes f.word
  have hform : formOf (bytesOfNat f.form.bytes f.word ++ rest) = .ok f.form := by
    obtain ⟨n, hn⟩ : ∃ n, f.form.bytes = n + 1 := ⟨f.form.bytes - 1, by have := f.form.bytes_ge; omega⟩
    have hm : f.word % 256 % 4 = f.form.code := by
      have := f.form.code_lt
      unfold Fields.word
      omega
    rw [hn]
    simp [bytesOfNat, formOf, hm, Form.ofCode_code, orErr]
  unfold decode
  simp only [bind, Except.bind, pure, Except.pure, hform, need, List.length_append, hlen, Nat.le_add_right, decide_true,
    if_true]
  rw [List.take_left' hlen, List.drop_left' hlen, natOfBytes_bytesOfNat, Nat.mod_eq_of_lt (Fields.word_lt h),
    Fields.ofWord_word h]
  cases decodeFields f <;> rfl

/-! Operands. -/

theorem Src.spec_lt (v : Src) : v.spec < 512 := by
  cases v <;> simp only [Src.spec] <;> omega

theorem Dst.spec_lt (v : Dst) : v.spec < 512 := by
  cases v <;> simp only [Dst.spec] <;> omega

theorem Src.spec_imm (v : Src) : v.spec = 0x1FF ↔ v.isImm = true := by
  cases v <;> simp [Src.spec, Src.isImm] <;> omega

theorem Src.ext_lt (v : Src) : v.ext < 2 ^ 32 := by
  cases v <;> simp only [Src.ext] <;> omega

theorem Src.ext_zero {v : Src} (h : v.isImm = false) : v.ext = 0 := by
  cases v <;> simp_all [Src.ext, Src.isImm]

theorem Dst.ofSpec_spec (v : Dst) : Dst.ofSpec v.spec = some v := by
  cases v with
  | x r => revert r; decide
  | o r => revert r; decide
  | y r => revert r; decide
  | zero => rfl
  | s r =>
    have hr := r.isLt
    have h : (256 + r.val - 256) % 255 = r.val := by omega
    simp only [Dst.ofSpec, Dst.spec, Fin.ofNat, h]
    split_ifs <;> first | rfl | omega

/-- The extension counts in the specifier 0x1FF alone. -/
theorem Src.ofSpec_none (imm : Option Word) (v : Nat) :
    Src.ofSpec imm v = if v = 0x1FF then imm.map .imm else Src.ofSpec none v := by
  unfold Src.ofSpec
  split
  · rw [if_neg (by omega)]
  · split
    · rw [if_neg (by omega)]
    · split
      · rw [if_neg (by omega)]
      · split
        · rw [if_neg (by omega)]
        · split
          · rw [if_neg (by omega)]
          · split
            · rw [if_neg (by omega)]
            · split
              · rw [if_neg (by omega)]
              · simp

/-- A source's specifier decodes to it, the extension being its immediate where it has one. -/
theorem Src.ofSpec_spec (v : Src) (imm : Option Word) (h : ∀ w, v = .imm w → imm = some w) :
    Src.ofSpec imm v.spec = some v := by
  rw [Src.ofSpec_none]
  cases v with
  | x r => clear h; rw [if_neg (by simp only [Src.spec]; omega)]; revert r; decide
  | o r => clear h; rw [if_neg (by simp only [Src.spec]; omega)]; revert r; decide
  | y r => clear h; rw [if_neg (by simp only [Src.spec]; omega)]; revert r; decide
  | zero => rfl
  | small w =>
    have hr := w.isLt
    have hw : BitVec.ofNat 7 (128 + w.toNat - 128) = w := by
      apply BitVec.eq_of_toNat_eq; simp only [BitVec.toNat_ofNat]; omega
    simp only [Src.ofSpec, Src.spec, hw]
    split_ifs <;> first | rfl | omega
  | s r =>
    have hr := r.isLt
    have hw : (256 + r.val - 256) % 255 = r.val := by omega
    simp only [Src.ofSpec, Src.spec, Fin.ofNat, hw]
    split_ifs <;> first | rfl | omega
  | imm w => simp [Src.spec, h w rfl]

theorem Ty.ofCode_code (t : Ty) : Ty.ofCode t.code = some t := by cases t <;> rfl

/-! The stages of decoding on fields that an encoding writes. -/

theorem need_true {b : Bool} {e : DecodeErr} (h : b = true) : need b e = .ok () := by simp [need, h]

theorem Fields.dst_spec {f : Fields} {d : Dst} {w : Bool} (h : f.d = d.spec) (hp : d.pairOk w = true) : f.dst w = .ok d := by
  simp [Fields.dst, h, Dst.ofSpec_spec, orErr, need, hp, bind, Except.bind, pure, Except.pure]

theorem Fields.srcA_spec {f : Fields} {v : Src} {w : Bool} (h : f.a = v.spec) (hp : v.pairOk w = true)
    (hi : v.isImm = true → f.form = .w96 ∧ f.ext = v.ext) : f.srcA w = .ok v := by
  unfold Fields.srcA
  rw [h, Src.ofSpec_spec]
  · simp [orErr, need, hp, bind, Except.bind, pure, Except.pure]
  · rintro x rfl
    obtain ⟨h1, h2⟩ := hi rfl
    simp [Fields.immUnless, h1, h2, Src.ext]

theorem Src.spec_ne_imm {v : Src} (h : v.isImm = false) : v.spec ≠ 0x1FF := fun e => by
  rw [(Src.spec_imm v).mp e] at h; cases h

theorem Fields.srcB_spec {f : Fields} {u v : Src} {w : Bool} (hu : f.a = u.spec) (h : f.b = v.spec)
    (hp : v.pairOk w = true) (hi : v.isImm = true → f.form = .w96 ∧ u.isImm = false ∧ f.ext = v.ext) :
    f.srcB w = .ok v := by
  unfold Fields.srcB
  rw [h, Src.ofSpec_spec]
  · simp [orErr, need, hp, bind, Except.bind, pure, Except.pure]
  · rintro x rfl
    obtain ⟨h1, h3, h2⟩ := hi rfl
    simp [Fields.immUnless, h1, h2, Src.ext, hu, Src.spec_ne_imm h3]

theorem Fields.srcC_spec {f : Fields} {t u v : Src} {w : Bool} (ht : f.a = t.spec) (hu : f.b = u.spec) (h : f.c = v.spec)
    (hp : v.pairOk w = true)
    (hi : v.isImm = true → f.form = .w96 ∧ t.isImm = false ∧ u.isImm = false ∧ f.ext = v.ext) : f.srcC w = .ok v := by
  unfold Fields.srcC
  rw [h, Src.ofSpec_spec]
  · simp [orErr, need, hp, bind, Except.bind, pure, Except.pure]
  · rintro x rfl
    obtain ⟨h1, h3, h4, h2⟩ := hi rfl
    simp [Fields.immUnless, h1, h2, Src.ext, ht, hu, Src.spec_ne_imm h3, Src.spec_ne_imm h4]

theorem Fields.type_code {f : Fields} {t : Ty} {p : Ty → Bool} (h : f.ty = t.code) (hp : p t = true) : f.type p = .ok t := by
  simp [Fields.type, h, Ty.ofCode_code, orErr, need, hp, bind, Except.bind, pure, Except.pure]

theorem Fields.wide_code {f : Fields} {t : Ty} (h : f.ty = t.code) : f.wide = t.wide := by
  unfold Fields.wide; rw [h]; cases t <;> rfl

/-- The guard that an encoding writes is read back. -/
theorem Fields.guardOf_ctl {f : Fields} {c : Ctl} (hg : f.guard = (c.fields 0).guard) (hn : f.neg = (c.fields 0).neg) :
    f.guardOf = .ok c.guard := by
  obtain ⟨m, g, s⟩ := c
  unfold Fields.guardOf
  rw [hg, hn]
  clear hg hn
  cases g with
  | always => rfl
  | k r n =>
    have : ∀ r : Fin 7, BitVec.ofNat 3 r.val ≠ 7#3 ∧ Fin.ofNat 7 (BitVec.ofNat 3 r.val).toNat = r := by decide
    obtain ⟨h1, h2⟩ := this r
    refine (if_neg h1).trans ?_
    show Except.ok (Guard.k (Fin.ofNat 7 (BitVec.ofNat 3 r.val).toNat) n) = _
    rw [h2]

/-- What the extension of a W64 or W96 word is: zero, or the immediate of its one operand that takes it. -/
structure ShortExt (c : Ctl) (a b e : Src) (x : Nat) : Prop where
  first : a.isImm = true → c.form = .w96 ∧ x = a.ext
  second : b.isImm = true → c.form = .w96 ∧ a.isImm = false ∧ x = b.ext
  third : e.isImm = true → c.form = .w96 ∧ a.isImm = false ∧ b.isImm = false ∧ x = e.ext
  zero : a.isImm = false → b.isImm = false → e.isImm = false → x = 0
  lt : x < 256 ^ (c.form.bytes - 8)
  form : c.form ≠ .w128

theorem shortExt {c : Ctl} {a b e : Src} (h : c.short (immCount [a, b, e]) = true) :
    ShortExt c a b e (a.ext + b.ext + e.ext) := by
  have ha := Src.ext_lt a
  have hb := Src.ext_lt b
  have he := Src.ext_lt e
  have za := @Src.ext_zero a
  have zb := @Src.ext_zero b
  have ze := @Src.ext_zero e
  unfold Ctl.short at h
  generalize hxa : a.ext = xa at *
  generalize hxb : b.ext = xb at *
  generalize hxe : e.ext = xe at *
  cases hA : a.isImm <;> cases hB : b.isImm <;> cases hE : e.isImm <;> cases hf : c.form <;>
    simp [immCount, hA, hB, hE, hf] at h za zb ze <;>
    constructor <;> simp_all [Form.bytes]

/-- The same for two operands. -/
theorem shortExt2 {c : Ctl} {a b : Src} (h : c.short (immCount [a, b]) = true) : ShortExt c a b .zero (a.ext + b.ext) :=
  shortExt (e := .zero) (by
    have hz : Src.zero.isImm = false := rfl
    simpa [immCount, List.filter_cons, hz] using h)

end Sys2Proof
end

