-- ==== Sys2Proof/Laws/Turns.lean ====
section
/-! SUPPORT. What choosing the next turn can do: it changes the turn, the inputs, the requests held and the
counter of free values alone. -/

namespace Sys2Proof.Machine

theorem pick_cases {α : Type} (s : State) (l : List α) :
    (l = [] ∧ s.pick l = none) ∨ ∃ a ∈ l, ∃ n, s.pick l = some (a, { s with free := n }) := by
  match l with
  | [] => exact .inl ⟨rfl, rfl⟩
  | [a] => exact .inr ⟨a, List.mem_singleton.mpr rfl, s.free, rfl⟩
  | a :: b :: r =>
    refine .inr ⟨_, ?_, s.free + 1, rfl⟩
    have h : Config.freeChoice s.free % (a :: b :: r).length < (a :: b :: r).length := Nat.mod_lt _ (Nat.succ_pos _)
    rw [List.getElem?_eq_getElem h]
    exact List.getElem_mem _

/-- What the outside asks for changes the inputs and what is held alone. -/
theorem intake_cases (u : State) : ∃ i k, u.intake = { u with inputs := i, held := k } := by
  unfold State.intake
  split <;> exact ⟨_, _, rfl⟩

/-- Of requests that are held, the first one has its turn. -/
theorem heldTurns_nil {s : State} (h : s.heldTurns = []) : s.held = [] := by
  unfold State.heldTurns at h
  cases hh : s.held with
  | nil => rfl
  | cons i l => simp [hh, List.zipIdx_cons, sameChannel] at h

/-- The next turn is one of those that may be, or what the outside asks or has asked, or, where there is none of either,
idle. -/
theorem schedule_cases (u : State) : ∃ t i k n, u.schedule = { u with turn := t, inputs := i, held := k, free := n } ∧
    (t ∈ u.turns ∨ (∃ x, t = .event x) ∨ (t = .idle ∧ u.turns = [] ∧ i = [] ∧ k = [])) := by
  obtain ⟨i, k, hu⟩ := intake_cases u
  have ht : u.intake.turns = u.turns := by rw [hu]; rfl
  unfold State.schedule
  simp only [ht]
  generalize hl : u.turns.map (fun t => (t, Origin.device)) ++ u.intake.heldTurns.map (fun i => (Turn.event i, Origin.held)) ++
    (u.intake.inputs.take 1).map (fun i => (Turn.event i, Origin.outside)) = l
  rcases pick_cases u.intake l with ⟨h1, h2⟩ | ⟨⟨t, src⟩, hm, n, h2⟩
  · rw [h2]
    subst h1
    simp only [List.append_eq_nil_iff, List.map_eq_nil_iff] at hl
    refine ⟨.idle, u.intake.inputs, u.intake.held, u.intake.free, by rw [hu], .inr (.inr ⟨rfl, hl.1.1, ?_, heldTurns_nil hl.1.2⟩)⟩
    simpa using hl.2
  · rw [h2]
    subst hl
    simp only [List.mem_append, List.mem_map, Prod.mk.injEq] at hm
    rcases hm with (⟨t', h3, rfl, rfl⟩ | ⟨x, -, rfl, rfl⟩) | ⟨x, -, rfl, rfl⟩
    · exact ⟨t', u.intake.inputs, u.intake.held, n, by rw [hu], .inl h3⟩
    · exact ⟨.event x, u.intake.inputs, u.intake.held.erase x, n, by rw [hu], .inr (.inl ⟨x, rfl⟩)⟩
    · exact ⟨.event x, u.intake.inputs.drop 1, u.intake.held, n, by rw [hu], .inr (.inl ⟨x, rfl⟩)⟩

end Sys2Proof.Machine
end

