-- ==== Sys2Proof/Laws/Words.lean ====
section
/-! SUPPORT. Every instruction word takes effect through `issue`. -/

namespace Sys2Proof.Machine

/-- What an instruction word does is what `issue` makes of some effect. -/
theorem exec_issue {i : Instr} {c : Ctl} (s : State) (hc : i.ctl? = some c) : ∃ body, exec i s = issue i c s body := by
  cases i <;> simp only [Instr.ctl?, Option.some.injEq, reduceCtorEq] at hc <;> subst hc
  case nop => exact ⟨_, show execNop _ s = _ from by unfold execNop alu; rfl⟩
  case add => exact ⟨_, show execAdd _ _ _ _ _ _ s = _ from by unfold execAdd alu; rfl⟩
  case sub => exact ⟨_, show execSub _ _ _ _ _ _ s = _ from by unfold execSub alu; rfl⟩
  case addc => exact ⟨_, show execAddc _ _ _ _ _ _ s = _ from by unfold execAddc alu; rfl⟩
  case subc => exact ⟨_, show execSubc _ _ _ _ _ _ s = _ from by unfold execSubc alu; rfl⟩
  case mul => exact ⟨_, show execMul _ _ _ _ _ s = _ from by unfold execMul alu; rfl⟩
  case mulh => exact ⟨_, show execMulh _ _ _ _ _ s = _ from by unfold execMulh alu; rfl⟩
  case mad => exact ⟨_, show execMad _ _ _ _ _ _ s = _ from by unfold execMad alu; rfl⟩
  case div => exact ⟨_, show execDiv _ _ _ _ _ s = _ from by unfold execDiv aluVar; rfl⟩
  case rem => exact ⟨_, show execRem _ _ _ _ _ s = _ from by unfold execRem aluVar; rfl⟩
  case abs => exact ⟨_, show execAbs _ _ _ _ _ s = _ from by unfold execAbs alu; rfl⟩
  case min => exact ⟨_, show execMin _ _ _ _ _ s = _ from by unfold execMin alu; rfl⟩
  case max => exact ⟨_, show execMax _ _ _ _ _ s = _ from by unfold execMax alu; rfl⟩
  case and => exact ⟨_, show execAnd _ _ _ _ _ s = _ from by unfold execAnd alu; rfl⟩
  case or => exact ⟨_, show execOr _ _ _ _ _ s = _ from by unfold execOr alu; rfl⟩
  case xor => exact ⟨_, show execXor _ _ _ _ _ s = _ from by unfold execXor alu; rfl⟩
  case andn => exact ⟨_, show execAndn _ _ _ _ _ s = _ from by unfold execAndn alu; rfl⟩
  case not => exact ⟨_, show execNot _ _ _ _ s = _ from by unfold execNot alu; rfl⟩
  case shl => exact ⟨_, show execShl _ _ _ _ _ s = _ from by unfold execShl alu; rfl⟩
  case shr => exact ⟨_, show execShr _ _ _ _ _ s = _ from by unfold execShr alu; rfl⟩
  case sha => exact ⟨_, show execSha _ _ _ _ _ s = _ from by unfold execSha alu; rfl⟩
  case rot => exact ⟨_, show execRot _ _ _ _ _ _ s = _ from by unfold execRot alu; rfl⟩
  case fsh => exact ⟨_, show execFsh _ _ _ _ _ _ s = _ from by unfold execFsh alu; rfl⟩
  case clz => exact ⟨_, show execClz _ _ _ _ s = _ from by unfold execClz alu; rfl⟩
  case popc => exact ⟨_, show execPopc _ _ _ _ s = _ from by unfold execPopc alu; rfl⟩
  case brev => exact ⟨_, show execBrev _ _ _ _ s = _ from by unfold execBrev alu; rfl⟩
  case bfx => exact ⟨_, show execBfx _ _ _ _ _ s = _ from by unfold execBfx alu; rfl⟩
  case bfi => exact ⟨_, show execBfi _ _ _ _ _ _ s = _ from by unfold execBfi alu; rfl⟩
  case prm => exact ⟨_, show execPrm _ _ _ _ _ s = _ from by unfold execPrm alu; rfl⟩
  case sel => exact ⟨_, show execSel _ _ _ _ _ _ s = _ from by unfold execSel alu; rfl⟩
  case cmp => exact ⟨_, show execCmp _ _ _ _ _ _ _ s = _ from by unfold execCmp aluAt; rfl⟩
  case kop => exact ⟨_, show execKop _ _ _ _ _ _ s = _ from by unfold execKop alu; rfl⟩
  case mov => exact ⟨_, show execMov _ _ _ _ s = _ from by unfold execMov alu; rfl⟩
  case movi => exact ⟨_, show execMovi _ _ _ _ _ s = _ from by unfold execMovi alu; rfl⟩
  case movs => exact ⟨_, show execMovs _ _ _ _ _ s = _ from by unfold execMovs ; rfl⟩
  case lea => exact ⟨_, show execLea _ _ _ _ _ _ _ s = _ from by unfold execLea alu; rfl⟩
  case id => exact ⟨_, show execId _ _ _ s = _ from by unfold execId ; rfl⟩
  case fadd => exact ⟨_, show execFadd _ _ _ _ _ _ s = _ from by unfold execFadd alu; rfl⟩
  case fsub => exact ⟨_, show execFsub _ _ _ _ _ _ s = _ from by unfold execFsub alu; rfl⟩
  case fmul => exact ⟨_, show execFmul _ _ _ _ _ _ s = _ from by unfold execFmul alu; rfl⟩
  case ffma => exact ⟨_, show execFfma _ _ _ _ _ _ _ s = _ from by unfold execFfma alu; rfl⟩
  case fmin => exact ⟨_, show execFmin _ _ _ _ _ _ s = _ from by unfold execFmin alu; rfl⟩
  case fmax => exact ⟨_, show execFmax _ _ _ _ _ _ s = _ from by unfold execFmax alu; rfl⟩
  case fcmp => exact ⟨_, show execFcmp _ _ _ _ _ _ _ s = _ from by unfold execFcmp alu; rfl⟩
  case fclass => exact ⟨_, show execFclass _ _ _ _ _ _ s = _ from by unfold execFclass alu; rfl⟩
  case frcps => exact ⟨_, show execFrcps _ _ _ s = _ from by unfold execFrcps alu; rfl⟩
  case frsqs => exact ⟨_, show execFrsqs _ _ _ s = _ from by unfold execFrsqs alu; rfl⟩
  case fexs => exact ⟨_, show execFexs _ _ _ s = _ from by unfold execFexs alu; rfl⟩
  case flgs => exact ⟨_, show execFlgs _ _ _ s = _ from by unfold execFlgs alu; rfl⟩
  case fscl => exact ⟨_, show execFscl _ _ _ _ _ _ s = _ from by unfold execFscl alu; rfl⟩
  case fgex => exact ⟨_, show execFgex _ _ _ _ s = _ from by unfold execFgex alu; rfl⟩
  case frnd => exact ⟨_, show execFrnd _ _ _ _ _ s = _ from by unfold execFrnd alu; rfl⟩
  case cvt => exact ⟨_, show execCvt _ _ _ _ _ _ _ _ s = _ from by unfold execCvt alu; rfl⟩
  case fdot2 => exact ⟨_, show execFdot2 _ _ _ _ _ _ _ s = _ from by unfold execFdot2 alu; rfl⟩
  case br => exact ⟨_, show execBr _ _ _ _ s = _ from by unfold execBr ; rfl⟩
  case brx => exact ⟨_, show execBrx _ _ _ s = _ from by unfold execBrx ; rfl⟩
  case call => exact ⟨_, show execCall _ _ _ s = _ from by unfold execCall ; rfl⟩
  case ret => exact ⟨_, show execRet _ _ _ s = _ from by unfold execRet ; rfl⟩
  case exit => exact ⟨_, show execExit _ s = _ from by unfold execExit ; rfl⟩
  case spawn => exact ⟨_, show execSpawn _ _ _ _ _ s = _ from by unfold execSpawn ; rfl⟩
  case yield => exact ⟨_, show execYield _ s = _ from by unfold execYield ; rfl⟩
  case binit => exact ⟨_, show execBinit _ _ _ _ s = _ from by unfold execBinit ; rfl⟩
  case barv => exact ⟨_, show execBarv _ _ _ _ s = _ from by unfold execBarv ; rfl⟩
  case bwait => exact ⟨_, show execBwait _ _ _ _ s = _ from by unfold execBwait ; rfl⟩
  case btest => exact ⟨_, show execBtest _ _ _ _ _ s = _ from by unfold execBtest ; rfl⟩
  case cinit => exact ⟨_, show execCinit _ _ _ s = _ from by unfold execCinit ; rfl⟩
  case csign => exact ⟨_, show execCsign _ _ _ s = _ from by unfold execCsign ; rfl⟩
  case wvote => exact ⟨_, show execWvote _ _ _ s = _ from by unfold execWvote ; rfl⟩
  case wxch => exact ⟨_, show execWxch _ _ _ _ _ _ s = _ from by unfold execWxch ; rfl⟩
  case ld => exact ⟨_, show execLd _ _ _ _ _ s = _ from by unfold execLd access; rfl⟩
  case st => exact ⟨_, show execSt _ _ _ _ _ s = _ from by unfold execSt access; rfl⟩
  case ldv => exact ⟨_, show execLdv _ _ _ _ _ s = _ from by unfold execLdv access; rfl⟩
  case stv => exact ⟨_, show execStv _ _ _ _ _ s = _ from by unfold execStv access; rfl⟩
  case lds => exact ⟨_, show execLds _ _ _ _ _ s = _ from by unfold execLds access; rfl⟩
  case chk => exact ⟨_, show execChk _ _ _ _ _ _ s = _ from by unfold execChk ; rfl⟩
  case commit => exact ⟨_, show execCommit _ _ s = _ from by unfold execCommit ; rfl⟩
  case abort => exact ⟨_, show execAbort _ _ s = _ from by unfold execAbort ; rfl⟩
  case fence => exact ⟨_, show execFence _ _ _ s = _ from by unfold execFence ; rfl⟩
  case atom => exact ⟨_, show execAtom _ _ _ _ _ _ _ _ s = _ from by unfold execAtom access; rfl⟩
  case red => exact ⟨_, show execRed _ _ _ _ _ _ _ s = _ from by unfold execRed access; rfl⟩
  case lkacq => exact ⟨_, show execLkacq _ _ _ _ s = _ from by unfold execLkacq access; rfl⟩
  case lkrel => exact ⟨_, show execLkrel _ _ _ s = _ from by unfold execLkrel access; rfl⟩
  case pref => exact ⟨_, show execPref _ _ _ s = _ from by unfold execPref sited; rfl⟩
  case swarm => exact ⟨_, show execSwarm _ _ _ _ _ s = _ from by unfold execSwarm access; rfl⟩
  case swait => exact ⟨_, show execSwait _ _ _ _ _ s = _ from by unfold execSwait access; rfl⟩
  case cpy => exact ⟨_, show execCpy _ _ _ _ _ _ _ _ _ _ _ s = _ from by unfold execCpy copyCmd; rfl⟩
  case cpyt => exact ⟨_, show execCpyt _ _ _ _ _ _ _ _ _ _ s = _ from by unfold execCpyt copyCmd; rfl⟩
  case cpyq => exact ⟨_, show execCpyq _ _ _ s = _ from by unfold execCpyq ; rfl⟩
  case wld => exact ⟨_, show execWld _ _ _ _ _ _ _ _ s = _ from by unfold execWld copyCmd; rfl⟩
  case wdrop => exact ⟨_, show execWdrop _ _ _ s = _ from by unfold execWdrop ; rfl⟩
  case mma => exact ⟨_, show execMma _ _ _ _ _ _ _ _ _ _ s = _ from by unfold execMma ; rfl⟩
  case azero => exact ⟨_, show execAzero _ _ s = _ from by unfold execAzero ; rfl⟩
  case ard => exact ⟨_, show execArd _ _ _ _ s = _ from by unfold execArd ; rfl⟩
  case awr => exact ⟨_, show execAwr _ _ _ _ _ s = _ from by unfold execAwr ; rfl⟩
  case qst => exact ⟨_, show execQst _ _ _ _ _ _ _ _ _ _ _ _ s = _ from by unfold execQst ; rfl⟩
  case resld => exact ⟨_, show execResld _ _ _ _ _ s = _ from by unfold execResld access; rfl⟩
  case resst => exact ⟨_, show execResst _ _ _ _ _ s = _ from by unfold execResst access; rfl⟩
  case hclr => exact ⟨_, show execHclr _ _ _ s = _ from by unfold execHclr ; rfl⟩
  case hrd => exact ⟨_, show execHrd _ _ _ _ s = _ from by unfold execHrd ; rfl⟩
  case trec => exact ⟨_, show execTrec _ _ _ _ _ s = _ from by unfold execTrec recordOp; rfl⟩
  case topen => exact ⟨_, show execTopen _ _ _ s = _ from by unfold execTopen recordOp; rfl⟩
  case tclose => exact ⟨_, show execTclose _ _ _ s = _ from by unfold execTclose recordOp; rfl⟩
  case tfe => exact ⟨_, show execTfe _ _ _ _ _ s = _ from by unfold execTfe recordOp; rfl⟩
  case trap => exact ⟨_, show execTrap _ _ _ s = _ from by unfold execTrap ; rfl⟩
  case bkpt => exact ⟨_, show execBkpt _ _ s = _ from by unfold execBkpt ; rfl⟩
  case srd => exact ⟨_, show execSrd _ _ _ s = _ from by unfold execSrd ; rfl⟩
  case swr => exact ⟨_, show execSwr _ _ _ s = _ from by unfold execSwr ; rfl⟩
  case time => exact ⟨_, show execTime _ _ s = _ from by unfold execTime fenced; rfl⟩
  case publish => exact ⟨_, show execPublish _ _ _ s = _ from by unfold execPublish settled fenced; rfl⟩
  case launch => exact ⟨_, show execLaunch _ _ _ s = _ from by unfold execLaunch settled fenced; rfl⟩
  case svc => exact ⟨_, show execSvc _ _ _ _ _ s = _ from by unfold execSvc settled fenced; rfl⟩
  case perf => exact ⟨_, show execPerf _ _ _ s = _ from by unfold execPerf fenced; rfl⟩
  case sleep => exact ⟨_, show execSleep _ _ s = _ from by unfold execSleep ; rfl⟩

end Sys2Proof.Machine
end

