-- ==== Sys2Proof/Laws/Worlds.lean ====
section
/-! SUPPORT. Worlds, partitions and context slots: what a change of one of them leaves. -/

namespace Sys2Proof.Machine

@[simp] theorem State.world_setWorld (s : State) (w : Nat) (f : World → World) :
    (s.setWorld w f).world w = f (s.world w) := by
  simp [State.world, State.setWorld]

theorem State.world_setWorld_ne (s : State) {w k : Nat} (f : World → World) (h : k ≠ w) :
    (s.setWorld w f).world k = s.world k := by
  simp [State.world, State.setWorld, tget_tset_ne _ _ h]

@[simp] theorem State.part_setPart (s : State) (p : Nat) (f : Part → Part) : (s.setPart p f).part p = f (s.part p) := by
  simp [State.part, State.setPart]

theorem State.part_setPart_ne (s : State) {p q : Nat} (f : Part → Part) (h : q ≠ p) :
    (s.setPart p f).part q = s.part q := by
  simp [State.part, State.setPart, tget_tset_ne _ _ h]

@[simp] theorem State.slot_setSlot (s : State) (p i : Nat) (f : Slot → Slot) :
    (s.setSlot p i f).slot p i = f (s.slot p i) := by
  simp [State.slot, State.setSlot]

theorem State.slot_setSlot_ne (s : State) {p i q j : Nat} (f : Slot → Slot) (h : q * 16 + j ≠ p * 16 + i) :
    (s.setSlot p i f).slot q j = s.slot q j := by
  simp [State.slot, State.setSlot, tget_tset_ne _ _ h]

/-- Two changes of one world are one. -/
theorem State.setWorld_setWorld (s : State) (w : Nat) (f g : World → World) :
    (s.setWorld w f).setWorld w g = s.setWorld w (fun x => g (f x)) := by
  simp only [State.setWorld, State.world, tget_tset_self, Option.getD_some]
  congr 1
  generalize f ((tget s.worlds w).getD World.reset) = a
  generalize hb : g a = b
  clear hb
  induction s.worlds with
  | nil => simp [tset]
  | cons e r ih =>
    obtain ⟨j, y⟩ := e
    by_cases hj : j = w <;> simp [tset, hj, ih]

theorem OnlyWorld.setWorld (s : State) (w : Nat) (f : World → World) : OnlyWorld w s (s.setWorld w f) :=
  ⟨rfl, fun _ h => s.world_setWorld_ne f h⟩

theorem OnlyWorld.refl (w : Nat) (s : State) : OnlyWorld w s s := ⟨rfl, fun _ _ => rfl⟩

theorem OnlyPart.setPart (s : State) (p : Nat) (f : Part → Part) : OnlyPart p s (s.setPart p f) :=
  ⟨rfl, fun _ h => s.part_setPart_ne f h⟩

theorem OnlySlot.setSlot (s : State) (p i : Nat) (f : Slot → Slot) : OnlySlot p i s (s.setSlot p i f) :=
  ⟨rfl, fun _ _ h => s.slot_setSlot_ne f h⟩

theorem OnlySlot.trans {p i : Nat} {s t u : State} (h : OnlySlot p i s t) (k : OnlySlot p i t u) : OnlySlot p i s u :=
  ⟨by rw [k.rest, h.rest], fun q j n => (k.others q j n).trans (h.others q j n)⟩

/-- Reading world time changes its world alone (R419). -/
theorem State.readTime_fst (s : State) (w : Nat) : (s.readTime w).1 = s.worldTime w := rfl

theorem State.readTime_only (s : State) (w : Nat) : OnlyWorld w s (s.readTime w).2 := by
  simp only [State.readTime]
  exact OnlyWorld.setWorld s w _

/-- A state's worlds are what its table of worlds says. -/
theorem State.world_congr {s t : State} (h : t.worlds = s.worlds) (w : Nat) : t.world w = s.world w := by
  simp [State.world, h]

theorem State.part_congr {s t : State} (h : t.parts = s.parts) (p : Nat) : t.part p = s.part p := by simp [State.part, h]

theorem State.slot_congr {s t : State} (h : t.slots = s.slots) (p i : Nat) : t.slot p i = s.slot p i := by
  simp [State.slot, h]

@[simp] theorem State.world_say (s : State) (o : Output) (w : Nat) : (s.say o).world w = s.world w := rfl

@[simp] theorem State.world_setSlot (s : State) (p i : Nat) (f : Slot → Slot) (w : Nat) :
    (s.setSlot p i f).world w = s.world w := rfl

@[simp] theorem State.world_setPart (s : State) (p : Nat) (f : Part → Part) (w : Nat) :
    (s.setPart p f).world w = s.world w := rfl

@[simp] theorem State.slot_setWorld (s : State) (w : Nat) (f : World → World) (p i : Nat) :
    (s.setWorld w f).slot p i = s.slot p i := rfl

@[simp] theorem State.part_setWorld (s : State) (w : Nat) (f : World → World) (p : Nat) :
    (s.setWorld w f).part p = s.part p := rfl

end Sys2Proof.Machine
end

