-- ==== Sys2Proof/Tests/Slice0.lean ====
section
/-! SUPPORT. Tests: ill-formed terms, words that the spec writes out, single steps with results worked out in the spec, and
for every statement of Certificates/Slice0/Obligations.lean a witness that meets its hypotheses. -/

namespace Sys2Proof.Tests
open Sys2Proof Sys2Proof.Machine

-- one test at a time, for the memory they take together
set_option Elab.async false

/-- An unguarded W64 word with stall 0, and the same in W96 and W128. -/
def c64 : Ctl := ⟨.w64, .always, 0⟩
@[inherit_doc c64] def c96 : Ctl := ⟨.w96, .always, 0⟩
@[inherit_doc c64] def c128 : Ctl := ⟨.w128, .always, 0⟩

/-! Ill-formed terms, one for each check of WellFormed. -/

/-- Widths, forms and immediates: a guarded NOP (R85), an odd pair (R75), an immediate in a W64, two immediates, a W128 of a
short opcode, MOVI in W64, W96 of a W128 opcode, an immediate in a W128. -/
theorem test_wf_forms : (List.map Instr.wf
    [.nop ⟨.w64, .k 0 false, 0⟩, .add c64 false .i64 (.x 3) (.x 4) (.x 6), .add c64 false .i64 (.x 2) (.x 5) (.x 6),
     .add c64 false .i64 (.x 2) (.x 4) (.x 7), .add c64 false .i32 (.x 3) (.x 4) (.imm 7),
     .add c96 false .i32 (.x 3) (.imm 4) (.imm 7), .add c128 false .i32 (.x 3) (.x 4) (.x 5), .movi c64 false .b32 (.x 3) 7,
     .cpyt c96 false (.barrier 0) (.x 4) (.x 5) .zero 0 0 false 0, .wdrop c128 (.x 4) (.x 5),
     .cpy c128 (.barrier 0) (.imm 4) (.x 5) false 0 0 0 0 0 0]).all (· == false) = true := by decide +kernel

/-- Types outside an entry's set (R79, R110, R132, R177, R194, R242). -/
theorem test_wf_types : (List.map Instr.wf
    [.add c64 false .b32 (.x 3) (.x 4) (.x 5), .addc c64 .i32 (.x 3) (.x 4) (.x 5) 0, .mul c64 .f32 (.x 3) (.x 4) (.x 5),
     .mulh c64 .i16 (.x 3) (.x 4) (.x 5), .div c64 .n8 (.x 3) (.x 4) (.x 5), .mad c64 .b32 (.x 3) (.x 4) (.x 5) (.x 6),
     .abs c64 false .n32 (.x 3) (.x 4), .and c64 .i32 (.x 3) (.x 4) (.x 5), .not c64 .n32 (.x 3) (.x 4),
     .shl c64 .i32 (.x 3) (.x 4) (.x 5), .sha c64 .b32 (.x 3) (.x 4) (.x 5), .clz c64 .i32 (.x 3) (.x 4),
     .bfx c64 .b32 (.x 3) (.x 4) (.x 5), .bfi c64 .i32 (.x 3) (.x 4) (.x 5) (.x 6), .cmp c64 .lt .none .b32 0 (.x 4) (.x 5),
     .cmp c64 .eq .none .f32 0 (.x 4) (.x 5), .movi c96 false .f32 (.x 3) 7, .movi c96 true .b32 (.x 3) 7,
     .lea c64 0 .f32 (.x 3) (.x 4) (.x 5) (.x 6), .fadd c64 .rn .i32 (.x 3) (.x 4) (.x 5),
     .ffma c64 .rn .b32 (.x 3) (.x 4) (.x 5) (.x 6), .fcmp c64 .eq .none .f16x2 0 (.x 4) (.x 5),
     .fclass c64 .none .bf16x2 0 (.x 4) (.x 5), .fgex c64 .f16x2 (.x 3) (.x 4), .frnd c64 .rn .i32 (.x 3) (.x 4),
     .cvt c64 .rn false .f32 .f32 (.x 3) (.x 4) .zero, .fdot2 c64 .rn .f32 (.x 3) (.x 4) (.x 5) (.x 6),
     .wxch c64 .up .f32 (.x 3) (.x 4) (.x 5), .lds c64 .f16 (.x 3) (.x 4) .zero, .chk c64 .lt .i8 (.x 4) .nthr (.small 64),
     .atom c64 .add .d .f32 (.x 3) (.x 4) (.x 5) .zero, .red c64 .incw .d .i32 (.x 4) (.x 5) .zero]).all (· == false) = true := by
  decide +kernel

/-- Operands and modifiers outside their stated use. -/
theorem test_wf_operands : (List.map Instr.wf
    [.movs c96 .b64 (.read (.x 2)) 3 .zero, .movs c96 .b32 (.write (.imm 4)) 2 .zero, .movs c96 .b32 (.read (.x 2)) 2 (.imm 4),
     .cvt c64 .rn false .f32 .i32 (.x 3) (.x 4) (.x 5), .spawn c64 0 (.x 3) 4 (.small 1), .spawn c64 16 (.x 3) 50 (.small 1),
     .br c96 false (.imm 4) (.imm 5), .ldv c64 .v8 (.x 60) (.x 4) .zero, .stv c64 .v2 (.x 4) (.s 6) .zero,
     .stv c64 .v4 (.x 4) (.x 62) .zero, .chk c64 .lt .n32 .zero .nthr (.small 64), .chk c64 .lt .n32 (.x 4) .nthr (.x 5),
     .chk c64 .lt .n64 (.x 4) (.src (.x 5)) (.small 64), .commit c64 .s, .abort c64 .d, .fence c64 .d ⟨false, false, false⟩,
     .atom c64 .add .w .i32 (.x 3) (.x 4) (.x 5) .zero, .atom c64 .cas .d .b64 (.x 2) (.x 4) (.x 6) (.x 7),
     .red c64 .exch .d .b32 (.x 4) (.x 5) .zero, .lkacq c64 .w (.x 3) (.x 4), .lkrel c64 .w (.x 4),
     .cpy c128 (.barrier 0) (.x 4) (.x 5) false 0 1 0 0 0 0, .cpyt c128 false (.barrier 0) (.x 5) (.x 6) .zero 0 0 false 0,
     .wld c128 true (.barrier 0) (.x 4) (.x 5) 0 0 .ds8, .wld c128 false (.barrier 0) (.x 5) .zero 0 0 .ds8,
     .mma c128 .ds8 0 (.x 4) ⟨1, true⟩ false false 0 0 1, .mma c128 .ds8 0 (.x 4) ⟨0, true⟩ true false 0 0 1,
     .mma c128 .ds8 0 (.x 4) ⟨0, false⟩ false false 0 0 0, .mma c128 .ds8 0 (.x 4) ⟨0, false⟩ false false 0 0 8193,
     .azero c64 ⟨2, true⟩, .qst c128 ⟨0, false⟩ false (.s 4) .zero .zero .bx8 false false false 0 0,
     .qst c128 ⟨0, true⟩ false (.s 4) .zero .zero .f32 true false false 0 0, .resld c64 60 (.x 4) 9 .zero,
     .resst c64 60 (.x 4) 9 .zero, .trec c64 .base (.x 3) (.x 4) (.x 5), .swr c64 .wdcnt (.x 4), .srd c64 .accOwner (.x 3),
     .time c64 (.x 3), .launch c64 (.x 3) (.x 5), .svc c64 0 (.x 3) (.x 4) (.x 5), .cpyq c64 (.x 3) (.x 4),
     .topen c64 (.x 3) (.x 5), .tfe c64 .test (.x 3) (.x 5) .zero]).all (· == false) = true := by decide +kernel

/-! Words that the spec writes out field by field (first_image.md, words.md, integer.md, float.md, control.md, memory_ops.md,
engine_ops.md, system_ops.md and the program chapters), and reserved encodings. -/

/-- ADD.i32 x3, x4, x5 ~1. -/
theorem test_decode_add : decodeTableWord 64 0x0024A0281006E404 =
    some (.add ⟨.w64, .always, 1⟩ false .i32 (.x 3) (.x 4) (.x 5)) := by decide +kernel

/-- CVT.sat.f16x2.f32 x5, x2, x3 ~4. -/
theorem test_decode_cvt : decodeTableWord 64 0x5904A018080AF0FC =
    some (.cvt ⟨.w64, .always, 4⟩ .rn true .f16x2 .f32 (.x 5) (.x 2) (.x 3)) := by decide +kernel

/-- ?!k1 BR.z blk6. -/
theorem test_decode_br : decodeTableWord 64 0x0204A63128952140 =
    some (.br ⟨.w64, .k 1 true, 0⟩ true .zero (.small 6)) := by decide +kernel

/-- CHK.le.n32 x8, len(0), −4. -/
theorem test_decode_chk : decodeTableWord 64 0x0A4BC0002094E194 =
    some (.chk c64 .le .n32 (.x 8) (.len 0) (.small 60)) := by decide +kernel

/-- The drain of engine_ops.md: BX8, four banks, HSLOT 1, SREG 8, ROUT. -/
theorem test_decode_qst : decodeTableWord 128 0x00000000000080C310AC060C1094E226 =
    some (.qst c128 ⟨0, true⟩ false (.s 4) (.small 65) (.small 64) .bx8 false false true 1 8) := by decide +kernel

/-- SLEEP 1000. -/
theorem test_decode_sleep : decodeTableWord 96 0x000003E80004A257FC94E2A5 = some (.sleep c96 (.imm 1000)) := by decide +kernel

/-- Rejected: length code 11 (R66); an all-zero doubleword (R85); the reserved opcode 0x25 (R88); guard 7 negated (R80); type
code 0xF (R79); a set bit of a field not in use (R72). -/
theorem test_decode_rejects : [0x0004A2512894E003, 0, 0x0004A2512894E094, 0x0024A0281007E404, 0x01E4A0281006E404,
    0x0224A0281006E404 + 2 ^ 60].all (fun w => decodeTableWord 64 w == none) = true := by decide +kernel

/-! One step each, on one thread or one uniform block. -/

/-- One thread, thread 0 of team 1, about to issue, with these registers. -/
def one (l : List (Reg × Word)) : State := (State.reset.bench false).putRegs (.thread 1 0) l
/-- A uniform pass of team 1 about to issue, with these registers. -/
def uni (l : List (Reg × Word)) : State := (State.reset.bench true).putRegs (.uniform 1) l

/-- What the thread's registers hold after the word; none unless the word answers a next state. -/
def after (i : Instr) (s : State) (l : List Reg) : Option (List Word) :=
  match exec i s with
  | .next t => some (l.map (t.view (.thread 1 0)).reg)
  | _ => none

/-- The value on its way to the agent's registers. -/
def coming (i : Instr) (s : State) : Option (List PendKind) :=
  match exec i s with
  | .next t => some (t.pends.map (fun e => e.2.kind))
  | _ => none

/-- A fact about the next state. -/
def next (i : Instr) (s : State) (f : State → Bool) : Bool :=
  match exec i s with
  | .next t => f t
  | _ => false

/-- R112: 0x7FFF_FFFF + 1 wraps to the most negative number, and saturates to the most positive. -/
theorem test_add : after (.add c64 false .i32 (.x 3) (.x 4) (.small 65)) (one [(.x 4, 0x7FFFFFFF)]) [.x 3] = some [0x80000000] ∧
    after (.add c64 true .i32 (.x 3) (.x 4) (.small 65)) (one [(.x 4, 0x7FFFFFFF)]) [.x 3] = some [0x7FFFFFFF] := by decide +kernel

/-- R113: a subtraction that borrows, with its source also its destination. -/
theorem test_subc : after (.subc c64 .n32 (.x 4) (.x 4) (.x 5) 1) (one [(.x 4, 3), (.x 5, 4)]) [.x 4, .k 1] =
    some [0xFFFFFFFF, 1] := by decide +kernel

/-- R114: the upper half of (−1) × (−1) is 0 signed and 0xFFFF_FFFE unsigned. -/
theorem test_mulh : after (.mulh c64 .i32 (.x 3) (.x 4) (.x 4)) (one [(.x 4, 0xFFFFFFFF)]) [.x 3] = some [0] ∧
    after (.mulh c64 .n32 (.x 3) (.x 4) (.x 4)) (one [(.x 4, 0xFFFFFFFF)]) [.x 3] = some [0xFFFFFFFE] := by decide +kernel

/-- R115: MIN_W / −1 gives MIN_W, and −7 rem 2 gives −1. -/
theorem test_div : coming (.div c64 .i32 (.x 3) (.x 4) (.small 63)) (one [(.x 4, 0x80000000)]) =
      some [.ready [(.x 3, 0x80000000)]] ∧
    coming (.rem c64 .i32 (.x 3) (.x 4) (.small 66)) (one [(.x 4, 0xFFFFFFF9)]) = some [.ready [(.x 3, 0xFFFFFFFF)]] := by decide +kernel

/-- R117: a shift by 32 gives 0, and an arithmetic one all sign bits. -/
theorem test_shifts : after (.shl c64 .b32 (.x 3) (.x 4) (.x 5)) (one [(.x 4, 0xFFFFFFFF), (.x 5, 32)]) [.x 3] = some [0] ∧
    after (.sha c64 .i32 (.x 3) (.x 4) (.x 5)) (one [(.x 4, 0x80000000), (.x 5, 40)]) [.x 3] = some [0xFFFFFFFF] := by decide +kernel

/-- R120: bits 7 to 4 of 0x80, signed, from bit 4 on, are −8. -/
theorem test_bfx : after (.bfx c64 .i32 (.x 3) (.x 4) (.x 5)) (one [(.x 4, 0x80), (.x 5, 0x0404)]) [.x 3] =
    some [0xFFFFFFF8] := by decide +kernel

/-- R121: bytes 3, 2, 1 and 0 reversed, the last replaced by the sign of byte 7. -/
theorem test_prm : after (.prm c64 (.x 3) (.x 4) (.x 5) (.x 6))
    (one [(.x 4, 0x44332211), (.x 5, 0x80000000), (.x 6, 0xF123)]) [.x 3] = some [0xFF223344] := by decide +kernel

/-- R124: k[a] AND NOT k[b] is table 0x30. -/
theorem test_kop : after (.kop c64 0 1 2 3 0x30) (one [(.k 1, 1)]) [.k 0] = some [1] ∧
    after (.kop c64 0 1 2 3 0x30) (one [(.k 1, 1), (.k 2, 1)]) [.k 0] = some [0] := by decide +kernel

/-- R129, the example of integer.md: LEA.sh2.i64 x8:x9, s0:s1, x4, 0x20. -/
theorem test_lea : after (.lea c64 2 .i64 (.x 8) (.s 0) (.x 4) (.small 96))
    ((one [(.x 4, 5)]).putRegs (.uniform 1) [(.s 0, 0x00020000), (.s 1, 0x20)]) [.x 8, .x 9] =
    some [0x00020034, 0x00000020] := by decide +kernel

/-- R147, R150, the example of float.md: 65,520 saturates to 65,504, and 2⁻²⁴ is the least subnormal of FP16. -/
theorem test_cvt : after (.cvt c64 .rn true .f16x2 .f32 (.x 5) (.x 2) (.x 3)) (one [(.x 2, 0x477FF000), (.x 3, 0x33800000)])
    [.x 5] = some [0x00017BFF] := by decide +kernel

/-- R134, R136, the worked difference of float.md: the product rounds to even, and the fused form keeps 2⁻²⁴. -/
theorem test_float : after (.fmul c64 .rn .f32 (.x 4) (.x 2) (.x 2)) (one [(.x 2, 0x3F800800)]) [.x 4] = some [0x3F801000] ∧
    after (.ffma c64 .rn .f32 (.x 6) (.x 2) (.x 2) (.x 3)) (one [(.x 2, 0x3F800800), (.x 3, 0xBF801000)]) [.x 6] =
      some [0x33800000] := by decide +kernel

/-- R156: BR.z of zero goes to its block; the fall-through of a word at 0 is 64. -/
theorem test_br :
    let s : State := { one [] with images := [(1, { benchImage with blocks := [⟨0, 0, false, 0, [], [], [], 0⟩,
      ⟨192, 0, false, 0, [], [], [], 0⟩] })] }
    next (.br c64 true (.x 4) (.small 1)) s (fun t => t.leaveOf (.thread 1 0) == some (.goto 192)) = true ∧
      next (.br c64 false (.x 4) (.small 1)) s (fun t => t.leaveOf (.thread 1 0) == some (.goto 64)) = true := by decide +kernel

/-- R182: a store puts its bytes into the wave set, the least significant first, and home is as before. -/
theorem test_st : next (.st c64 .n16 (.x 4) (.x 5) (.small 66)) (one [(.x 4, 0x100), (.x 5, 0xABCD)]) (fun t =>
    (t.wave 1 0).cells.map (fun e => (e.key, e.byte)) == [(skey .near 0x102, 0xCD), (skey .near 0x103, 0xAB)] &&
      t.hbm == .empty) = true := by decide +kernel

/-- R187: a relation that holds changes nothing, and one that fails stops the thread. -/
theorem test_chk :
    let s : State := { one [(.x 4, 31)] with images := [(1, { benchImage with sites := [] })] }
    next (.chk c64 .lt .n32 (.x 4) .tcap (.small 64)) s (fun t => (t.thread 1 0).isSome) = true ∧
      next (.chk c64 .le .n32 (.x 4) .tcap (.small 62)) s (fun t => (t.thread 1 0).isNone) = true := by decide +kernel

/-- R168: BINIT at a register with arrivals closes the phase: GEN goes on. -/
theorem test_binit : next (.binit c64 false 3 (.small 69)) (uni []) (fun t => (t.bar 1 3).exp == 5 && (t.bar 1 3).gen == 0) = true := by
  decide +kernel

/-- R190: ABORT.t discards the team set. -/
theorem test_abort : next (.abort c64 .t) ((uni []).modTeam 1 (fun t => { t with set := [⟨skey .dev 64, 7, []⟩] }))
    (fun t => (tget t.teams 1).any (fun t => t.set == [])) = true := by decide +kernel

/-- R197: a held lock word gives 1, and stays. -/
theorem test_lkacq : coming (.lkacq c64 .c (.s 3) (.s 4)) { uni [(.s 4, 0x40)] with
      clusters := [(1, { Cluster.placed 1 0 0 0 0 1 1 [1] with near := Mem.empty.write 0x40 1 })] } = some [.ready [(.s 3, 1)]] := by decide +kernel

/-- R244: TRAP stops the thread and counts it. -/
theorem test_trap : next (.trap c64 9 .zero) (one []) (fun t => (t.thread 1 0).isNone &&
    (tget t.launches 1).any (fun l => l.stops == 1 && l.eclass == 1)) = true := by decide +kernel

/-- R253: SLEEP of 1000 waits until world time has come 1000 ns further. -/
theorem test_sleep : next (.sleep c96 (.imm 1000)) { one [] with now := 5 } (fun t =>
    t.leaveOf (.thread 1 0) == some (.block 64 (.sleep 1005))) = true := by decide +kernel

/-- R255: a packet at no multiple of 64 gives 2. -/
theorem test_launch : coming (.launch c64 (.s 8) (.s 4)) (uni [(.s 4, 0x20)]) = some [.ready [(.s 8, 2)]] := by decide +kernel

/-- R421: the start page's thresholds. -/
theorem test_registers : next (.registerWrite (.bar0 0) 0x4018 0x5A46) State.reset
    (fun t => t.power.tcrit == 0x5A && t.power.ttrot == 0x46) = true := by decide +kernel

/-- A step fetches, decodes and runs the placed word: EXIT, the word of words.md. -/
theorem test_step : (match exec (.exit c64) ((State.reset.withFetchWord 64 0x0004A2512894E150)) with
    | .next t => (t.thread 1 0).isNone
    | _ => false) = true ∧ (State.reset.withFetchWord 64 0x0004A2512894E150).fetch = some (.exit c64) := by decide +kernel

/-! Witnesses: for each statement, states and operands that meet its hypotheses together, clause by clause. -/

/-- The word is ready in the state, and the rest of a statement's hypotheses hold of the issuing group. -/
def meets (i : Instr) (s : State) (P : Here → Bool) : Bool :=
  match s.here with
  | some h => i.wf && i.formOk h.pass.uniform && !h.waits i s && (h.undersized i s).isNone && P h
  | none => false

theorem ready_of_meets {i : Instr} {s : State} {P : Here → Bool} (h : meets i s P = true) : ∃ k, Ready i s k ∧ P k = true := by
  unfold meets at h
  split at h
  · next k hk =>
    simp only [Bool.and_eq_true, Bool.not_eq_true', Option.isNone_iff_eq_none] at h
    exact ⟨k, ⟨hk, h.1.1.1.1, h.1.1.1.2, h.1.1.2, h.1.2⟩, h.2⟩
  · exact absurd h (by simp)

/-- Ready, with one live lane that takes it. -/
def alone (i : Instr) (s : State) (P : Here → Bool := fun _ => true) : Bool :=
  meets i s (fun h => match i.ctl? with
    | some c => h.agents.length == 1 && h.taking c s == h.agents && h.agents.all s.alive && P h
    | none => false)

/-- The bench with its parts changed. -/
def img (f : Image → Image) (s : State) : State := { s with images := tmod s.images 1 f }
@[inherit_doc img] def lau (f : Launch → Launch) (s : State) : State := { s with launches := tmod s.launches 1 f }
@[inherit_doc img] def clu (f : Cluster → Cluster) (s : State) : State := { s with clusters := tmod s.clusters 1 f }
@[inherit_doc img] def tea (f : Team → Team) (s : State) : State := { s with teams := tmod s.teams 1 f }
@[inherit_doc img] def thr (f : Thread → Thread) (s : State) : State := { s with threads := tmod s.threads (tkey 1 0) f }
@[inherit_doc img] def wor (f : World → World) (s : State) : State := s.setWorld 1 f

/-- Bytes of device memory of world 1, and two blocks of the bench image. -/
def put (a : Nat) (l : List Byte) (s : State) : State := s.devRaws 1 a l
def blocks (s : State) : State := img (fun i => { i with blocks := [⟨0, 0, false, 0, [], [], [], 0⟩, ⟨64, 0, false, 0, [], [], [], 0⟩]
                                                         codeLen := 128 }) s
/-- A site of a space at the word. -/
def at_ (sp : Space) (s : State) : State := img (fun i => { i with sites := [(0, ⟨sp, 254, false⟩), (1, ⟨sp, 254, false⟩)] }) s

theorem witness_ArithmeticResults : [.add c64 true .i32 (.x 3) (.x 4) (.x 5), .sub c64 false .i64 (.x 2) (.x 4) (.x 6),
    .mul c64 .n8 (.x 3) (.x 4) (.x 5), .mad c64 .i32 (.x 3) (.x 4) (.x 5) .zero, .min c64 .i32 (.x 3) (.x 4) (.x 5),
    .max c64 .i32 (.x 3) (.x 4) (.x 5), .abs c64 false .i32 (.x 3) (.x 4), .mulh c64 .n64 (.x 2) (.x 4) (.x 6),
    .addc c64 .n32 (.x 3) (.x 4) (.x 5) 6, .subc c64 .n32 (.x 3) (.x 4) (.x 5) 0, .div c64 .i32 .zero (.x 4) (.x 5),
    .rem c64 .i64 (.x 62) (.x 4) (.x 6)].all (fun i => alone i (one [(.x 4, 0x80000000), (.x 5, 0xFFFFFFFF)])) = true := by
  decide +kernel

theorem witness_LogicResults : [.and c64 .b32 (.x 3) (.x 4) (.x 5), .or c64 .b64 (.x 2) (.x 4) (.x 6),
    .xor c64 .b32 (.x 3) (.x 3) (.x 3), .andn c64 .b32 .zero (.x 4) (.x 5), .not c64 .b32 (.x 63) (.x 4)].all
    (fun i => alone i (one [])) = true := by decide +kernel

theorem witness_ShiftResults : [.shl c64 .b64 (.x 2) (.x 4) (.x 5), .shr c64 .b32 (.x 3) (.x 4) (.x 5),
    .sha c64 .i64 (.x 2) (.x 4) (.x 5), .rot c64 true .b32 (.x 3) (.x 4) (.x 5), .fsh c64 false (.x 3) (.x 4) (.x 5) (.x 6)].all
    (fun i => alone i (one [(.x 5, 0xFFFFFFFF)])) = true := by decide +kernel

theorem witness_BitFieldResults : [.clz c64 .b64 (.x 3) (.x 4), .popc c64 .b32 (.x 3) (.x 4), .brev c64 .b64 (.x 2) (.x 4),
    .bfx c64 .i64 (.x 2) (.x 4) (.x 6), .bfi c64 .b32 (.x 3) (.x 4) (.x 5) (.x 6), .prm c64 (.x 3) (.x 4) (.x 5) (.x 6)].all
    (fun i => alone i (one [(.x 6, 0xFFFF)])) = true := by decide +kernel

theorem witness_SelectCompareResults : [.sel c64 .f16 (.x 3) (.x 4) (.x 5) 7, .cmp c64 .lt (.xor 7) .i64 6 (.x 4) (.x 6),
    .kop c64 0 7 0 6 0xFF].all (fun i => alone i (one [])) = true := by decide +kernel

theorem witness_MoveAndIdentityResults : [.nop c64, .mov c64 .b64 (.x 2) (.x 4), .movi c96 true .i64 (.x 2) 7,
    .movs c96 .b64 (.read (.x 2)) 1022 (.x 4), .lea c64 7 .i64 (.x 2) (.x 4) (.x 5) (.x 6), .id c64 .tid (.x 3)].all
    (fun i => alone i (one [])) = true ∧
    [.movs c96 .b64 (.write (.s 4)) 1022 .zero, .id c64 .nteam (.s 3)].all (fun i => alone i (uni [])) = true := by decide +kernel

theorem witness_FloatResults : [.fadd c64 .rn .f16x2 (.x 3) (.x 4) (.x 5), .fsub c64 .rz .bf16 (.x 3) (.x 4) (.x 5),
    .fmul c64 .rm .f32 (.x 3) (.x 4) (.x 5), .ffma c64 .rp .f16 (.x 3) (.x 4) (.x 5) (.x 6),
    .fdot2 c64 .rn .bf16x2 (.x 3) (.x 4) (.x 5) (.x 6), .fmin c64 true .f32 (.x 3) (.x 4) (.x 5),
    .fmax c64 false .f16x2 (.x 3) (.x 4) (.x 5), .fcmp c64 .un (.or 1) .f32 0 (.x 4) (.x 5), .fclass c64 .none .f16 0 (.x 4) (.x 5),
    .frcps c64 (.x 3) (.x 4), .frsqs c64 (.x 3) (.x 4), .fexs c64 (.x 3) (.x 4), .flgs c64 (.x 3) (.x 4),
    .fscl c64 .rn .f32 (.x 3) (.x 4) (.x 5), .fgex c64 .bf16 (.x 3) (.x 4), .frnd c64 .rn .f16x2 (.x 3) (.x 4)].all
    (fun i => alone i (one [])) = true ∧
    [FVal.fin false 1 0, .fin true 3 (-2), .fin true 0 0].all FVal.finite = true ∧ (fp32.unpack 0x3F800000).finite = true ∧
    FVal.nan ∈ [FVal.nan] ∧ FVal.inf true ∈ [FVal.inf true] ∧ FVal.inf false ∉ [FVal.inf true] := by decide +kernel

theorem witness_ConversionResults : [.cvt c64 .rn true .f16x2 .f32 (.x 3) (.x 4) (.x 5), .cvt c64 .rz false .i64 .f32 (.x 2) (.x 4) .zero,
    .cvt c64 .rn true .i8 .i64 (.x 3) (.x 4) .zero, .cvt c64 .rn false .bf16 .n64 (.x 3) (.x 4) .zero].all
    (fun i => alone i (one [])) = true := by decide +kernel

theorem witness_RegisterWordsFrame : [.add c64 true .i32 (.x 3) (.x 4) (.x 5), .fexs c64 (.x 3) (.x 4), .kop c64 0 7 0 6 0xFF].all
    (fun i => i.onlyRegs && alone i (one []) && next i (one []) (fun _ => true)) = true := by decide +kernel

/-- What devFree asks, of these uses. -/
def idle (s : State) (l : Launch) (uses : List DevUse) : Bool :=
  uses.isEmpty || (!uses.any (s.devBusy l.world) && (s.slotOf l).rate == 0 && (s.fills l.world uses).1)

theorem devFree_of_idle {s : State} {l : Launch} {uses : List DevUse} (h : idle s l uses = true) : s.devFree l uses := by
  simp only [idle, Bool.or_eq_true, Bool.and_eq_true, List.isEmpty_iff, Bool.not_eq_true', beq_iff_eq] at h
  exact h.imp id (fun h => ⟨h.1.1, h.1.2, h.2⟩)

/-- The fault ring of world 1 can take a record. -/
def ringReady (s : State) : Bool :=
  (s.world 1).frslots != 0 && s.trapSlot 1 % 64 == 0 && s.devNat 1 (s.trapSlot 1) 8 == 0 && (s.devAddr 1 (s.trapSlot 1)).isSome &&
    (List.finRange 16).all (fun i => !(s.world 1).windows[i].opened) && (s.keys 1).isNone && s.seals.isEmpty && s.dues.isEmpty &&
    (s.world 1).mig.active != 1 && (s.world 1).mig.waiting.isEmpty

theorem ringFree_of_ready {s : State} (h : ringReady s = true) : s.ringFree 1 := by
  simp only [ringReady, Bool.and_eq_true, List.isEmpty_iff, bne_iff_ne, beq_iff_eq, Option.isNone_iff_eq_none, List.all_eq_true,
    Bool.not_eq_true'] at h
  obtain ⟨⟨⟨⟨⟨⟨⟨⟨⟨h1, h2⟩, h3⟩, h4⟩, h5⟩, h6⟩, h7⟩, h8⟩, h9⟩, h10⟩ := h
  exact ⟨h1, h2, h3, h4, fun i => h5 i (List.mem_finRange i), ⟨h6, h7⟩, h8, h9, h10⟩

/-- A fault ring of four slots at 0x20000, that can take a record. -/
def ring (s : State) : State := wor (fun x => { x with frbase := 0x20000, frslots := 4, frindex := 7, frdrop := 2 }) s

theorem witness_ringFree : (ring (one [])).ringFree 1 ∧ (ring (uni [])).ringFree 1 :=
  ⟨ringFree_of_ready (by decide +kernel), ringFree_of_ready (by decide +kernel)⟩

/-- A block of another class at 64. -/
def otherClass (s : State) : State := img (fun i => { i with blocks := [⟨0, 0, false, 0, [], [], [], 0⟩, ⟨64, 9, false, 0, [], [], [], 0⟩]
                                                             codeLen := 128 }) s

theorem witness_LeavingABlock : alone (.br c64 true (.x 4) (.small 1)) (blocks (one [])) (fun h => h.place.image.blocks[1]?.isSome) = true ∧
    alone (.brx c64 (.x 4) (.small 0)) (blocks (one [(.x 4, 64)])) (fun h =>
      (h.place.image.blocks.find? (fun b => b.off == 64)).any (fun b => b.ann == 0)) = true ∧
    alone (.yield c64) (uni []) (fun h => h.pass.uniform) = true ∧
    [4, 128, 256].all (fun x => alone (.brx c64 (.x 4) (.small 0)) (blocks (one [(.x 4, x)])) (fun h =>
      x % 64 != 0 || decide (h.place.image.codeLen ≤ x.toNat))) = true ∧
    alone (.brx c64 (.x 4) (.small 0)) (img (fun i => { i with codeLen := 192 }) (blocks (one [(.x 4, 128)]))) (fun h =>
      h.place.image.blocks.all (fun b => b.off != 128)) = true ∧
    alone (.brx c64 (.x 4) (.small 0)) (otherClass (ring (one [(.x 4, 64)]))) (fun h =>
      (h.place.image.blocks.find? (fun b => b.off == 64)).any (fun b => b.ann == 9) && h.place.image.blocks[0]?.any (fun b => b.ann == 0)) = true ∧
    alone (.sleep c64 (.small 64)) (one []) = true ∧ alone (.sleep c64 (.small 65)) (uni []) = true := by decide +kernel

/-- The stack pointer x9 of thread 0 is 0x100, and its local memory holds this byte there. -/
def stack (b : Byte) (s : State) : State := thr (fun t => { t with loc := Mem.empty.write 0x100 b }) (blocks (s.putRegs (.thread 1 0) [(.x 9, 0x100)]))

/-- Its local memory lies in device memory from an address on. -/
def locdev (a : Nat) (s : State) : State := lau (fun l => { l with locdev := true, locbase := a }) s

/-- A record with CONF = 1 at 0x34000, whose tiles lie from 0x50000 on. -/
def confRec (s : State) : State :=
  { put 0x34000 (bytesOfNat 8 0x50401 ++ bytesOfNat 8 0x50000 ++ bytesOfNat 8 0 ++ bytesOfNat 8 (32 + 64 * 2 ^ 32) ++ bytesOfNat 8 0x38000) s with
    recs := [⟨1, 0x34000, 0, false, false⟩] }

theorem witness_CallAndReturn : alone (.call c64 9 (.small 1)) (stack 0 (one [])) (fun h =>
      h.place.image.blocks[1]?.isSome && !h.place.launch.locdev && idle (stack 0 (one [])) h.place.launch (h.place.locUse (.thread 1 0) 0xFC 4 true) &&
        !overlaps (stack 0 (one [])).pends (.thread 1 0) .loc 0xFC 4) = true ∧
    [(0x20000, false, false), (0x10000, false, true), (0x50000, true, false)].all (fun e =>
      let s := locdev e.1 (confRec (stack 0 (one [])))
      alone (.call c64 9 (.small 1)) s (fun h => h.place.locBase 0 == e.1 && idle s h.place.launch (h.place.locUse (.thread 1 0) 0xFC 4 true) &&
        !overlaps s.pends (.thread 1 0) .loc 0xFC 4 && (s.refused 1 (e.1 + 0xFC) 4).isSome == e.2.1 &&
        (s.sealedByte 1 (e.1 + 0xFC) 4).isSome == e.2.2 && !h.place.team.stopped)) = true ∧
    [(0, true), (1, false)].all (fun e => let s := stack e.1 (one [])
      alone (.ret c64 9 (.small 1)) s (fun h => idle s h.place.launch (h.place.locUse (.thread 1 0) 0x100 4 false) &&
        !overlaps s.pends (.thread 1 0) .loc 0x100 4 && (natOfBytes (s.locReads h.place 1 0 0x100 4) % 64 == 0) == e.2 &&
        h.place.image.blocks[0]?.any (fun b => b.off == 0 && b.ann == 0))) = true ∧
    (let s := otherClass (stack 64 (one []))
     alone (.ret c64 9 (.small 0)) { s with images := (otherClass s).images } (fun h =>
       natOfBytes (s.locReads h.place 1 0 0x100 4) == 64 && h.place.image.blocks[0]?.any (fun b => b.ann == 0) &&
         (h.place.image.blocks.find? (fun b => b.off == 64)).any (fun b => b.ann == 9))) = true := by decide +kernel

theorem witness_ThreadsEndAndStart : alone (.exit c64) (one []) = true ∧ alone (.exit c64) (uni []) = true ∧
    alone (.spawn c64 16 (.x 3) 48 (.small 1)) (blocks (one [])) (fun h => h.place.image.blocks[1]?.isSome &&
      decide (1 < h.place.image.threads) && ((one []).thread 1 1).isNone && ((one []).thread 1 0).isSome) = true ∧
    alone (.spawn c64 0 (.x 3) 0 (.small 1)) (img (fun i => { i with threads := 1 }) (blocks (one []))) (fun h =>
      h.place.image.blocks[1]?.isSome && h.place.image.threads == 1 && ((one []).thread 1 0).isSome) = true := by decide +kernel

theorem witness_BarrierAndConvergenceRegisters : alone (.binit c64 true 15 (.s 4)) (uni [(.s 4, 0x1FFFF)]) = true ∧
    alone (.cinit c64 0 (.s 4)) (uni [(.s 4, 0xFFFFFFFF)]) = true ∧
    alone (.csign c64 15 none) (one []) (fun h => ((one []).conv h.pass.team 15).set == none) = true := by decide +kernel

/-- A load of the thread under way. -/
def loading (s : State) : State :=
  { s with pends := [(2, ⟨.thread 1 0, .load .near 0x200 4 [] .b32 [] [], 0⟩)], nextId := 3 }

theorem witness_BarrierWords : alone (.barv c64 true 0 (.x 3)) (loading (one [])) = true ∧
    alone (.barv c64 false 15 .zero) (one []) (fun _ => ((one []).outstanding (.thread 1 0)).isEmpty) = true ∧
    alone (.btest c64 true 3 (some 6) (.x 4)) (one []) = true ∧ alone (.bwait c64 3 none (.x 4)) (one [(.x 4, 1)]) = true ∧
    alone (.barv c64 false 0 (.x 3)) (loading (one [])) (fun _ => !((loading (one [])).outstanding (.thread 1 0)).isEmpty) = true := by
  decide +kernel

/-- The wave has four open instances, all at other words. -/
def full (s : State) : State := s.setWave 1 0 { s.wave 1 0 with
  colls := [8, 16, 24, 32].map (fun o => ⟨o, o, 1, .commit, [0], []⟩) }

theorem witness_WaveCollectives : [.wvote c64 (.ballot (.x 3)) 7, .wxch c64 .idx .b64 (.x 2) (.x 4) (.x 6)].all (fun i =>
      alone i (one []) && alone i (full (one [])) (fun _ => ((full (one [])).wave 1 0).colls.length == 4)) = true ∧
    [.commit c64 .w, .abort c64 .w].all (fun i => alone i (one []) (fun _ => ((one []).wave 1 0).colls.isEmpty &&
      !(one []).heldBy (.thread 1 0) (·.data) &&
      !(one []).meetsCells (.thread 1 0) ((((one []).wave 1 0).openCells 0).map (·.key)))) = true := by decide +kernel

/-- The wave's one open instance, which its one live thread has joined, with two open stores of its own and one that stays. -/
def ripe (kind : CollKind) (sc : Bool) : State := lau (fun l => { l with scommit := sc }) (tea (fun t => { t with set := [⟨skey .dev 64, 7, [9]⟩] })
  ((one []).setWave 1 0 ⟨[⟨skey .dev 64, 1, 0, some 4⟩, ⟨skey .near 0, 2, 0, some 4⟩, ⟨skey .near 9, 3, 0, none⟩],
    [⟨4, 0, 1, kind, [0], [⟨0, true, 1, 0, false⟩]⟩], []⟩))

theorem witness_CollectiveCompletes : [CollKind.vote (.ballot (.x 3)), .xch .idx true (.x 2), .abort, .commit].all (fun k =>
    let s := ripe k false
    s.waves.map (·.1) == [wkey 1 0] && ((s.wave 1 0).colls.map (·.kind)) == [k] && (s.place 1).any (fun p => !p.team.stopped && !p.launch.scommit) &&
      s.waveTids 1 0 == [0] && (s.wave 1 0).colls.all (fun k => k.awaited == [0] && k.joined.all (fun j => j.tid == 0 && !j.gone && j.takes))) = true ∧
    (let s := ripe .commit false
     let w := s.wave 1 0
     let set := (w.cells.filter (fun c => c.inst == some 4)).foldl (fun l c => sput c.key c.byte (some 1) l) [⟨skey .dev 64, 7, [9]⟩]
     (s.place 1).any (fun p => decide (((s.setWave 1 0 { w with cells := w.cells.filter (fun c => c.inst != some 4), colls := [] }).modTeam 1
       (fun m => { m with set := set })).teamSectors 1 ≤ p.image.teamCap))) = true := by decide +kernel

/-- A PASID context of world 1 whose first table holds one leaf for all addresses. -/
def paged (pte : Byte) (s : State) : State :=
  { lau (fun l => { l with pasid := some 0 }) (at_ .host s) with pctx := [⟨0, 1, 0, 0x1000, none⟩], hostMem := Mem.empty.write 0x1000 pte }

theorem witness_LoadsIssue : [.ld c64 .i8 (.x 3) (.x 4) .zero, .ldv c64 .v8 (.x 56) (.x 4) .zero].all
      (fun i => alone i (one [(.x 4, 0x1F)]) (fun h => h.site == some ⟨.near, 254, false⟩ && !(one []).heldBy (.thread 1 0) (·.data)) &&
        alone i (paged 0xD7 (one [])) (fun h => h.site == some ⟨.host, 254, false⟩)) = true ∧
    alone (.lds c64 .b64 (.s 2) (.s 4) .zero) (uni []) (fun h => h.site == some ⟨.near, 254, false⟩) = true ∧
    alone (.lds c64 .b64 (.s 2) (.s 4) .zero) (paged 0xD7 (uni [])) (fun h => h.site == some ⟨.host, 254, false⟩) = true ∧
    alone (.ld c64 .i8 (.x 3) (.x 4) .zero) (paged 2 (one [])) (fun h => (match
        (paged 2 (one [])).translateRange (h.core / 128) h.place.launch.world h.place.launch.pasid 0 1 false with
        | .miss _ _ => true | _ => false) && decide ((paged 2 (one [])).triesOf (.thread 1 0) 0 < 3)) = true ∧
    (({ paged 2 (one []) with tries := [((.thread 1 0, 0), 3)] } : State).triesOf (.thread 1 0) 0 = 3) ∧
    alone (.ld c64 .i8 (.x 3) (.x 4) .zero) (at_ .host (one [])) (fun h => match
        (at_ .host (one [])).translateRange (h.core / 128) h.place.launch.world h.place.launch.pasid 0 1 false with
        | .invalid _ _ => true | _ => false) = true := by decide +kernel

/-- What a translation answers, but for the state it leaves. -/
def pagesOf : XRange → Option Frames
  | .ok xl _ => some xl
  | _ => none

/-- The host access's pages translate in every state with such tables. -/
theorem pages_of (v : State) (pb : Nat) (h1 : v.tlb = []) (h0 : v.nonLeaf = []) (h2 : v.pctx = [⟨0, 1, 0, 0x1000, none⟩])
    (h5 : Pte.of (v.hostNat 0x1000 8) 4 true = .leaf ⟨0, 48, true, pb⟩) (write : Bool) :
    pagesOf (v.translateRange 0 1 (some 0) 0 32 write) = some [(0, ⟨0, pb == 0⟩)] := by
  have h6 : v.walkPage 0x1000 none none 0 write = ⟨some ⟨0, 48, true, pb⟩, []⟩ := by
    unfold State.walkPage walk
    simp [State.guest, entryAddr, h5]
  have h8 : v.walkCached 0 1 0 0x1000 none 0 write = (some ⟨0, 21, true, pb⟩, (v.cacheSeen 0 1 0 0 []).cacheLeaf 0 1 0 0 ⟨0, 21, true, pb⟩) := by
    unfold State.walkCached
    simp [h0, State.pick, h6, Leaf.piece]
  have h9 : v.cached 0 1 0 0 = none := by unfold State.cached; rw [h1]; rfl
  have h7 : v.context 0 1 0 = (some (0x1000, none), v) := by
    unfold State.context
    rw [h2]; rfl
  simp [State.translateRange, State.translatePages, State.translatePage, h9, h7, h8, pagesOf]

/-- The host access's pages translate in every state alike, cached or not as the leaf says. -/
theorem witness_HostLoadsIssue (u : State) (write : Bool) :
    ((paged 0xD7 (one [])).alike u → pagesOf (u.translateRange 0 1 (some 0) 0 32 write) = some [(0, ⟨0, true⟩)]) ∧
    (({ paged 0xD7 (one []) with hostMem := Mem.empty.writeN 0x1000 [0xD7, 0, 0, 0, 0, 0, 0, 0x20] } : State).alike u →
      pagesOf (u.translateRange 0 1 (some 0) 0 32 write) = some [(0, ⟨0, false⟩)]) := by
  refine ⟨fun hu => pages_of u 0 (hu ▸ rfl) (hu ▸ rfl) (hu ▸ rfl) ?_ write, fun hu => pages_of u 1 (hu ▸ rfl) (hu ▸ rfl) (hu ▸ rfl) ?_ write⟩
  · rw [show u.hostNat 0x1000 8 = (paged 0xD7 (one [])).hostNat 0x1000 8 by rw [hu]; rfl]; decide +kernel
  · rw [show u.hostNat 0x1000 8 = natOfBytes ((Mem.empty.writeN 0x1000 [0xD7, 0, 0, 0, 0, 0, 0, 0x20]).readN 0x1000 8) by rw [hu]; rfl]
    decide +kernel

theorem witness_StoresEnterTheWaveSet : [.st c64 .b64 (.x 4) (.x 6) .zero, .stv c64 .v8 (.x 4) (.x 56) .zero].all (fun i =>
      alone i (one [(.x 4, 0x1F)]) (fun h => h.site == some ⟨.near, 254, false⟩ && !(one []).heldBy (.thread 1 0) (·.data) &&
        !overlaps (one []).pends (.thread 1 0) .near 0x1F 32 && h.place.image.teamCap == 64) &&
      alone i (at_ .loc (one [(.x 4, 0x1F)])) (fun h => !h.place.launch.locdev) &&
      (let s := locdev 0x20000 (at_ .loc (one [(.x 4, 0x1F)]))
       alone i s (fun h => h.place.launch.locdev && idle s h.place.launch (h.place.locUse (.thread 1 0) 0x1F 32 true) && s.recs.isEmpty &&
         h.place.locBase 0 == 0x20000 && (s.keys 1).isNone && s.seals.isEmpty && (List.finRange 16).all (fun i => !(s.world 1).windows[i].opened) &&
         (List.range 32).all (fun j => !s.readOnly 1 (0x2001F + j) && s.devAddr 1 (0x2001F + j) == some (0x2001F + j))))) = true ∧
    (let s := img (fun i => { i with tmset := 32 }) ((one [(.x 4, 0x100)]).setWave 1 0 ⟨[⟨skey .near 0x200, 1, 0, none⟩], [], []⟩)
     alone (.st c64 .b32 (.x 4) (.x 6) .zero) s (fun h => h.place.image.teamCap == 1 && s.teamSectors 1 == 1 && !h.place.team.stopped &&
       (s.setWave 1 0 ⟨wput (skey .near 0x100) 0 0 [⟨skey .near 0x200, 1, 0, none⟩], [], []⟩).teamSectors 1 == 2)) = true := by
  decide +kernel

/-- A FENCE of data whose load is still under way. -/
def fencing (s : State) : State := thr (fun t => { t with fences := [⟨[2], ⟨true, false, false⟩⟩] }) (loading s)

theorem witness_ChecksAndFences : alone (.chk c64 .le .n32 (.x 4) (.len 0) (.small 64)) (lau (fun l => { l with regions := [(0x100, 8)] })
      (at_ .dev (one [(.x 4, 8)]))) = true ∧
    alone (.chk c64 .lt .n32 (.x 4) .tcap (.small 64)) (img (fun i => { i with sites := [] }) (one [(.x 4, 32)])) (fun h =>
      h.site == none && h.place.image.threads == 32 && !decide (((32 : Nat) : Int) < h.place.image.threads)) = true ∧
    alone (.chk c64 .lt .n32 (.s 4) .tcap (.small 64)) (img (fun i => { i with sites := [] }) (uni [(.s 4, 33)])) (fun h =>
      h.site == none && h.place.image.threads == 32) = true ∧
    alone (.chk c64 .eq .n32 (.x 4) .nthr (.small 64)) (at_ .near (one [(.x 4, 0x80000)])) (fun h =>
      h.site == some ⟨.near, 254, false⟩) = true ∧
    alone (.pref c64 (.x 4) .zero) (one []) (fun h => h.site.isSome) = true ∧
    alone (.pref c64 (.x 4) .zero) (at_ .dev (one [])) (fun h => h.site.isSome) = true ∧
    alone (.fence c64 .d ⟨true, false, true⟩) (loading (one [])) (fun _ => !((loading (one [])).outstanding (.thread 1 0)).isEmpty) = true ∧
    alone (.ld c64 .i32 (.x 8) (.x 4) .zero) (fencing (one [])) (fun h => h.site.isSome &&
      (fencing (one [])).heldBy (.thread 1 0) (·.data)) = true ∧
    !((ripe .commit false).underWay (.thread 1 0) (· == .commit)).isEmpty = true ∧
    (let s := thr (fun t => { t with fences := [⟨[2], ⟨false, false, true⟩⟩] }) (loading (one []))
     alone (.mma c128 .ds8 2 (.x 4) ⟨0, true⟩ false false 0 0 2) s (fun h => h.site.isSome && s.heldBy (.thread 1 0) (·.eng))) = true := by
  decide +kernel

/-- A team set with a byte of each space, and a cluster set with a byte of another team. -/
def sets (s : State) : State := tea (fun t => { t with set := [⟨skey .dev 64, 7, []⟩, ⟨skey .near 32, 8, []⟩, ⟨skey .col 0, 9, []⟩] })
  (clu (fun c => { c with set := [⟨skey .dev 65, 1, [9]⟩] }) s)

theorem witness_CommitToCluster : alone (.commit c64 .t) (sets (uni [])) (fun h => !(sets (uni [])).heldBy (.uniform 1) (·.data) && !h.setsBusy (sets (uni [])) .t &&
      decide (setSectors (sput (skey .dev 64) 7 (some 1) h.place.cluster.set) ≤ h.place.image.clusterCap h.place.launch.tpc) &&
      conflict h.place.cluster.set 1 [(skey .dev 64, 7)] == none) = true ∧
    (let s := img (fun i => { i with clset := 32 }) (clu (fun c => { c with set := [⟨skey .dev 256, 1, [9]⟩] }) (sets (uni [])))
     alone (.commit c64 .t) s (fun h => decide (h.place.image.clusterCap h.place.launch.tpc <
       setSectors (sput (skey .dev 64) 7 (some 1) h.place.cluster.set)) && h.place.team.locks == [] && !h.place.team.stopped &&
       !h.place.team.ended)) = true ∧
    (let s := clu (fun c => { c with set := [⟨skey .dev 64, 1, [9]⟩] }) (sets (uni []))
     alone (.commit c64 .t) s (fun h => conflict h.place.cluster.set 1 [(skey .dev 64, 7)] == some (skey .dev 64) &&
       !decide (h.place.image.clusterCap h.place.launch.tpc <
         setSectors (sput (skey .dev 64) 7 (some 1) h.place.cluster.set)))) = true := by decide +kernel

theorem witness_CommitHomeAndAbort : [Lv.c, .d].all (fun l => alone (.commit c64 l) (sets (uni [])) (fun h =>
      !(sets (uni [])).heldBy (.uniform 1) (·.data) && h.place.team.mwait == 0 && !h.place.team.dwait && (sets (uni [])).shared.isEmpty &&
      !h.setsBusy (sets (uni [])) l && ((sets (uni [])).slotOf h.place.launch).rate == 0 &&
      ((sets (uni [])).keys 1).isNone && (sets (uni [])).seals.isEmpty && h.place.cluster.set.length == 1 &&
      h.place.cluster.set.all (fun e => spaceOf e.key == .dev && !(sets (uni [])).claimedRange 1 (addrOf e.key) 1 &&
        (sets (uni [])).mayWrite 1 (.merge 1) (addrOf e.key) 1 0 && (sets (uni [])).confTile 1 (addrOf e.key) == none && !(sets (uni [])).readOnly 1 (addrOf e.key) &&
        ((sets (uni [])).devAddr 1 (addrOf e.key)).isSome))) = true ∧
    [Lv.t, .c].all (fun l => alone (.abort c64 l) (sets (uni [])) (fun h => !h.setsBusy (sets (uni [])) l)) = true := by decide +kernel

theorem witness_AtomicsIssue : [.atom c64 .cas .c .b64 (.x 2) (.x 4) (.x 6) (.x 8), .atom c64 .add .c .i32 (.x 2) (.x 4) (.x 6) .zero,
      .red c64 .add .c .n32 (.x 4) (.x 6) .zero].all (fun i => [0x40, 0x42].all (fun (a : Word) => alone i (one [(.x 4, a)]) (fun h =>
      h.site.isSome && (one []).pends.isEmpty))) = true := by decide +kernel

theorem witness_LocksAndSyncWords : [Instr.lkacq c64 .c (.s 3) (.s 4), .lkrel c64 .c (.s 4)].all (fun i => alone i (uni [(.s 4, 0x42)]) (fun h =>
      h.site.any (fun x => x.space == .near) && !overlaps (uni []).pends (.uniform 1) .near 0x42 4)) = true ∧
    [Space.near, .col].all (fun sp => [0, 1, 0xFF].all (fun b =>
      alone (.lkacq c64 .c (.s 3) (.s 4)) (clu (fun c => { c with near := c.near.writeN 0x40 [b, 0, 0, 0] }) (at_ sp (uni [(.s 4, 0x40)]))))) = true ∧
    (let s := at_ .dev (put 0x20040 [0xFF, 0xFF, 0xFF, 0xFF] (uni [(.s 4, 0x20040)]))
     [.lkacq c64 .d (.s 3) (.s 4), .lkrel c64 .d (.s 4)].all (fun i => alone i s (fun h => s.recs.isEmpty &&
       (List.finRange 16).all (fun i => !(s.world 1).windows[i].opened) && (s.devAddr 1 0x20040).isSome && !s.readOnly 1 0x20040 &&
       !overlaps s.pends (.uniform 1) .dev 0x20040 4 && (s.keys 1).isNone && s.seals.isEmpty &&
       !s.devBusy 1 ⟨.uniform 1, 0x20040, 4, true, devScope .dev .d⟩ && (s.slotOf h.place.launch).rate == 0 &&
       (s.fills 1 [⟨.uniform 1, 0x20040, 4, true, devScope .dev .d⟩]).1 &&
       (s.outstanding (.uniform 1)).isEmpty))) = true ∧
    [0x40, 0x44].all (fun (a : Word) => [.swarm c64 (.x 3) (.x 4) (.x 5) .zero, .swait c64 (some 1) (.x 4) (.x 5) .zero].all (fun i =>
      alone i (one [(.x 4, a), (.x 5, 1)]) (fun h => h.site.isSome && !overlaps (one []).pends (.thread 1 0) .near 0x40 16))) = true := by decide +kernel

/-- Tenant 0 of world 1 may read and write device memory below 2 MiB, and a tensor record of two BF16 tiles stands at 0x30000. -/
def recd (opened : Bool) (s : State) : State :=
  put 0x30000 (bytesOfNat 8 (0x50001 + 2048 * natOfBool opened) ++ bytesOfNat 8 0x50000 ++ bytesOfNat 8 0 ++
      bytesOfNat 8 (32 + 64 * 2 ^ 32) ++ bytesOfNat 8 0x38000)
    (put 0x40000 (bytesOfNat 8 0x331 ++ bytesOfNat 8 0 ++ bytesOfNat 8 0x200000) { s with tenants := [(64, ⟨0x40000, true, 1⟩)] })

/-- A record of one 64 x 64 block of 8-bit elements with scales down its columns, of format 5 or 3. -/
def blockRec (ds : Bool) (s : State) : State :=
  put 0x30000 (bytesOfNat 8 (0x50100 + (if ds then 5 else 3) + 16) ++ bytesOfNat 8 0x50000 ++ bytesOfNat 8 0x60000 ++
      bytesOfNat 8 (64 + 64 * 2 ^ 32) ++ bytesOfNat 8 0x38000) (recd false s)

/-- What a record check answers, with bits 2n and 2n + 1 of the tile-state array after it. -/
def recOf (o : Option (TRec × State)) (n : Nat) : Option (TRec × Bool × Bool) :=
  o.map (fun e => (e.1, e.2.tileBit 1 e.1.febase (2 * n), e.2.tileBit 1 e.1.febase (2 * n + 1)))

/-- A check that passes in the state passes in every state alike, with the same bits. -/
theorem passes_of {s u : State} {w t a n : Nat} {rd wr f g : Bool} {tile : Option Nat} {r : TRec}
    (h : recOf (s.recCheck w t a rd wr tile) n = some (r, f, g)) (hu : s.alike u) :
    ∃ k, u.recCheck w t a rd wr tile = some (r, k) ∧ k.tileBit 1 r.febase (2 * n) = f ∧
      k.tileBit 1 r.febase (2 * n + 1) = g := by
  have h' := recCheck_alike hu w t a rd wr tile
  cases hs : s.recCheck w t a rd wr tile with
  | none => rw [hs] at h; exact absurd h (by simp [recOf])
  | some e =>
    rw [hs] at h h'
    obtain ⟨k, hk, ha⟩ := h'
    simp only [recOf, Option.map_some, Option.some.injEq, Prod.mk.injEq] at h
    obtain ⟨rfl, h1, h2⟩ := h
    exact ⟨k, hk, by rw [tileBit_alike ha, h1], by rw [tileBit_alike ha, h2]⟩

/-- One that fails fails in every state alike. -/
theorem fails_of {s u : State} {w t a : Nat} {rd wr : Bool} {tile : Option Nat}
    (h : (s.recCheck w t a rd wr tile).isNone = true) (hu : s.alike u) : u.recCheck w t a rd wr tile = none := by
  have h' := recCheck_alike hu w t a rd wr tile
  cases hs : s.recCheck w t a rd wr tile with
  | none => rw [hs] at h'; exact h'
  | some e => rw [hs] at h; exact absurd h (by simp)

/-- Nothing is claimed, shared, moved or limited in the launch's world, which holds no keys. -/
def still (s : State) (l : Launch) : Bool :=
  s.pends.isEmpty && s.copies.isEmpty && s.bankOps.isEmpty && s.drains.isEmpty && s.shared.isEmpty && (s.world l.world).mig.active != 1 &&
    (s.world l.world).mig.waiting.isEmpty && (s.slotOf l).rate == 0 && (s.keys l.world).isNone && s.seals.isEmpty

theorem quiet_of_still {s : State} {l : Launch} (ag : Agent) (h : still s l = true) : s.quiet l ag ∧ s.unsealed l.world := by
  simp only [still, Bool.and_eq_true, List.isEmpty_iff, bne_iff_ne, beq_iff_eq, Option.isNone_iff_eq_none] at h
  obtain ⟨⟨⟨⟨⟨⟨⟨⟨⟨h0, h1⟩, h2⟩, h3⟩, h4⟩, h5⟩, h6⟩, h7⟩, h8⟩, h9⟩ := h
  exact ⟨⟨fun a n => by simp [overlaps, h0], fun a n => ⟨by simp [State.claimedRange, State.claimed, State.claimedIf, h1, h2, h3], by simp [State.hostMay, h4]⟩, h5, h6, h7⟩, h8, h9⟩

/-- The word's only site is the second, as admission notes for CPYT, or it has none, as for WLD. -/
def sites (n : Nat) (s : State) : State := img (fun i => { i with sites := i.sites.drop n }) s

theorem witness_CopyCommands : (let s := one [(.x 4, 0x100), (.x 5, 0x200), (.x 6, 0x30000)]
      [(0, Instr.cpy c128 (.barrier 3) (.x 4) (.x 5) false 0 0 63 1 3 4, [(0, false)]),
       (1, .cpyt c128 false (.barrier 3) (.x 6) (.x 5) .zero 0 2 false 0, [(0, false)]),
       (1, .cpyt c128 true (.barrier 3) (.x 6) (.x 5) .zero 0 2 false 0, [(0, true)]),
       (2, .wld c128 true (.sync (.x 4)) (.x 4) .zero 8 0 .ds8, []), (2, .wld c128 false (.barrier 3) (.x 6) .zero 8 0 .bf16, [(0, false)])].all
      (fun (n, i, looks) => let s := sites n (recd false s)
        alone i s (fun h => !s.heldBy (.thread 1 0) (·.eng) && (n == 2 || h.site2.isSome) && (n != 0 || h.site.isSome) &&
          !h.place.image.prodChecks.contains h.group.off && (s.copyHead h.core).isNone && s.copyEntries h.core == 0 &&
          h.place.team.mres == some ⟨0, 8, 0, 524288⟩ && (h.members 0).isSome && still s h.place.launch &&
          looks.all (fun e => idle s h.place.launch (s.lookupUses 1 (.thread 1 0) 0x30000 e.2 e.1 1)) &&
          !s.claimRefused 1 (claimsOf [⟨.mem .near, 0x100, .mem .near, 0x200, 64, false⟩]) &&
          (claimsOf [⟨.mem .near, 0x200, .mem .dev, 0x50000, 2048, false⟩]).all (fun n => !s.readOnly 1 (n * 512)) && !s.readOnly 1 0x38000))) = true ∧
    [(true, false, some 0), (false, true, some 0)].all (fun (r, w, t) =>
      (recOf ((recd false (one [])).recCheck 1 0 0x30000 r w t) 0).any (fun e => e.1.tileBytes == 2 ^ 11 && !e.1.conf)) = true ∧
    (recOf ((blockRec false (one [])).recCheck 1 0 0x30000 true false (some 0)) 0).any (fun e => e.1.tileBytes == 2 ^ 12 && scaled e.1.fmt &&
      e.1.planeRuns 0 == [(0x60000, 64)]) = true ∧
    (recOf ((blockRec true (one [])).recCheck 1 0 0x30000 true false none) 0).any (fun e => e.1.tshape == 1 && e.1.fmt == 5 && e.1.baxis &&
      decide (0 < e.1.tiles)) = true ∧
    alone (.cpy c128 (.barrier 3) (.x 4) (.x 5) true 0 2 31 0 1 1) (one []) (fun h => (((one []).world 1).chans[2]).opened == false &&
      !(one []).coreDown h.place.team.home && !h.place.team.ended) = true ∧
    alone (.cpy c128 (.barrier 3) (.x 4) (.x 5) true 0 2 31 0 1 1) (wor (fun x => { x with chans := x.chans.set 2 ⟨true, [], 0, 0⟩ }) (one [])) = true ∧
    alone (.cpyq c64 (.x 2) .zero) (one []) = true ∧
    alone (.cpyq c64 (.x 2) .zero) (thr (fun t => { t with copySeq := 1, copies := [⟨0, 4, 64⟩] }) (one [])) = true := by decide +kernel

/-- A convergence register of a thread's team. -/
def conv (r : ConvReg) (s : State) : State := tea (fun t => { t with conv := t.conv.set 2 r }) s

theorem witness_MatrixSignature : (let i := Instr.mma c128 .ds8 2 (.x 4) ⟨0, true⟩ false false 0 0 2
     let op : MOp := ⟨.ds8, ⟨0, true⟩, false, false, 64, 0, .near, 0⟩
     alone i (conv ⟨2, 0, 0, none⟩ (one [])) (fun h => h.site.isSome && !(one []).heldBy (.thread 1 0) (·.eng) &&
       !h.signWaits (conv ⟨2, 0, 0, none⟩ (one [])) 2 1 (some ⟨0, true⟩)) = true ∧
     alone i (conv ⟨2, 1, 0, some ⟨op, 2, 0, 1, i, false⟩⟩ (one [])) (fun h => h.place.team.mres.isSome &&
       !h.signWaits (conv ⟨2, 1, 0, some ⟨op, 2, 0, 1, i, false⟩⟩ (one [])) 2 1 (some ⟨0, true⟩)) = true ∧
     alone i (conv ⟨3, 0, 0, none⟩ (one [])) = true) := by decide +kernel

theorem witness_BankWords : [.azero c64 ⟨7, false⟩, .azero c64 ⟨4, true⟩].all
      (fun i => alone i (uni [(.s 4, 1023)]) (fun h => h.place.team.mres == some ⟨0, 8, 0, 524288⟩ &&
        !(uni []).bankBusy h.place [4, 5, 6, 7])) = true ∧
    [.ard c64 7 (.x 3) (.x 4), .awr c64 0 true (.x 3) (.x 4)].all
      (fun i => alone i (one [(.x 4, 1023)]) (fun h => h.place.team.mres == some ⟨0, 8, 0, 524288⟩ &&
        !(one []).bankBusy h.place [7])) = true ∧
    [0, 512, 1024].all (fun x => alone (.wdrop c64 (.s 4) (.s 5)) (uni [(.s 4, x), (.s 5, 524288)]) (fun h => h.place.team.mres.isSome &&
      (uni []).wbufUses.isEmpty)) = true := by decide +kernel

theorem witness_DrainIssues : alone (.qst c128 ⟨0, false⟩ false (.s 4) .zero (.small 65) .f32 false true false 16 0)
      (recd false (uni [(.s 4, 0x30000)])) (fun h => !h.place.team.stopped && !(recd false (uni [])).readOnly 1 0x38000) = true ∧
    alone (.qst c128 ⟨0, false⟩ false (.s 4) .zero (.small 65) .bf16 false true false 16 0)
      (recd false (uni [(.s 4, 0x30000)])) (fun h => !(recd false (uni [])).heldBy (.uniform 1) (fun k => k.eng || k.record) &&
        !h.place.team.stopped && still (recd false (uni [])) h.place.launch && !(recd false (uni [])).bankBusy h.place (h.banks ⟨0, false⟩) &&
        (claimsOf [⟨.zeros, 0, .mem .dev, 0x50800, 2048, false⟩]).all (fun n => !(recd false (uni [])).readOnly 1 (n * 512))) = true ∧
    (recOf ((recd false (uni [(.s 4, 0x30000)])).recCheck 1 0 0x30000 false true (some 1)) 0).any (fun e => e.1.fmt == 1 && e.1.tshape == 0 &&
      !e.1.conf) = true ∧
    ((recd false (uni [(.s 4, 0x30000)])).recCheck 1 0 0x30000 false true (some 2)).isNone = true := by decide +kernel

theorem witness_ResiduesAndHistograms : alone (.resld c64 60 (.s 4) 3 .zero) (uni []) (fun h => h.site.isSome &&
      !(uni []).heldBy (.uniform 1) (·.data) && !(uni []).draining 1 (fun k => k.rin || k.rout)) = true ∧
    alone (.resst c64 60 (.s 4) 3 .zero) (uni []) (fun h => h.site.isSome && decide (1 ≤ h.place.image.teamCap) &&
      !overlaps (uni []).pends (.uniform 1) .near 0 16) = true ∧
    [.hclr c64 15 (.s 4), .hrd c64 15 (.s 3) (.s 4)].all (fun i => alone i (uni []) (fun _ =>
      !(uni []).draining 1 (fun k => k.hslot == 16))) = true := by decide +kernel

theorem witness_TensorRecords : [RecFld.base, .spbase, .rows, .cols, .febase, .fmt, .tid].all (fun f => [0x30000, 0x30020, 0x400000].all
      (fun (a : Word) => alone (.trec c64 f (.x 3) (.x 6) (.x 8)) (recd false (one [(.x 6, a)])) (fun h =>
        !(recd false (one [])).heldBy (.thread 1 0) (·.record) && still (recd false (one [])) h.place.launch &&
        (List.range 64).all (fun j => !(recd false (one [])).readOnly 1 (a.toNat + j))))) = true ∧
    (recd false (one [])).devCovered 1 0 0x30000 64 false true = true ∧ (recd false (one [])).devCovered 1 0 0x400000 64 false true = false ∧
    ((recd false (one [])).readRec 1 0x30000).opened = false ∧ ((recd true (one [])).readRec 1 0x30000).opened = true ∧
    [.topen c64 (.s 3) (.s 6), .tclose c64 (.s 3) (.s 6)].all (fun i =>
      [false, true].all (fun o => [0x30000, 0x30020].all (fun (a : Word) => alone i (recd o (uni [(.s 6, a)])) (fun _ =>
        !(recd o (uni [])).engineWrites 1 a.toNat && (recd o (uni [])).images.all (fun e => e.2.pages == [1]))))) = true ∧
    [0x30000, 0x30020].all (fun (a : Word) => alone (.tfe c64 .test (.x 3) (.x 6) (.small 65)) (recd true (put 0x38000 [8] (one [(.x 6, a)])))) = true ∧
    [false, true].all (fun o => ((recd o (uni [(.s 6, 0x30000)])).recCheck 1 0 0x30000 false true none).any (fun e => e.1.opened == o)) = true ∧
    [none, some 1].all (fun t => ((recd true (uni [(.s 6, 0x30020)])).recCheck 1 0 0x30020 false true t).isNone) = true ∧
    (recOf ((recd true (put 0x38000 [8] (one [(.x 6, 0x30000)]))).recCheck 1 0 0x30000 false true (some 1)) 1).any
      (fun e => !e.2.1 && e.2.2) = true := by decide +kernel

/-- A state with these accesses under way. -/
def pending (l : List (Nat × Pend)) (s : State) : State := { s with pends := l, nextId := 9 }

theorem witness_ResultsArrive : (let s := pending [(2, ⟨.thread 1 0, .ready (dstWrites (.x 62) true 7), 0⟩), (3, ⟨.uniform 1, .ready (dstWrites (.s 5) false 7), 0⟩)] (one [])
     [Agent.thread 1 0, .uniform 1].all s.alive && (tget s.pends 2).isSome && (Dst.x 62).pairOk true) = true ∧
    [Space.near, .col, .dev, .host, .loc].all (fun sp => let s := pending [(2, ⟨.thread 1 0, .load sp 24 8 [] .b64 [.x 62, .x 63] [], 0⟩)] (one [])
      (s.place 1).any (fun pl => (s.slotOf pl.launch).rate == 0 && (s.keys 1).isNone && match pl.devHome (.thread 1 0) sp 24 with
        | some x => !s.claimedRange 1 x 8 && !s.hostMay 1 x 8
        | none => true) && s.alive (.thread 1 0) && !overlaps (s.before 2) (.thread 1 0) sp 24 8 && Dst.regs (Ty.b64).wide (.x 62) == [.x 62, .x 63] &&
        next (.resultArrival 2) s (fun t => (tget t.pends 2).isNone)) = true ∧
    (let s := pending [(2, ⟨.thread 1 0, .load .dev 0x2001C 8 [] .b32 (xrun 62 2) [], 0⟩)] (put 0x20020 [7] (one []))
     next (.resultArrival 2) s (fun t => (tget t.pends 2).map (·.kind) == some (.load .dev 0x2001C 8 [0, 0, 0, 0] .b32 (xrun 62 2) []) &&
       next (.resultArrival 2) t (fun t => (t.view (.thread 1 0)).reg (.x 63) == 7))) = true ∧
    [AtomOp.cas, .add, .exch].all (fun op => let s := pending [(2, ⟨.thread 1 0, .atomic .near 0x40 .c op .b64 [⟨.thread 1 0, [.x 62, .x 63], 5, 0⟩] [], 0⟩)] (one [])
      tget s.pends 2 == some ⟨.thread 1 0, .atomic .near 0x40 .c op .b64 [⟨.thread 1 0, Dst.regs (Ty.b64).wide (.x 62), 5, 0⟩] [], 0⟩ &&
        (s.place 1).isSome && !overlaps (s.before 2) (.thread 1 0) .near 0x40 8 &&
        op.types .b64 == (op != .add) && (s.world 1).mig.waiting.isEmpty) = true ∧
    (Ty.n32).width = 32 ∧ (Ty.b64).width = 64 ∧ (fp16.unpack 0x3C00).finite = true ∧ bfp16.unpack 0x7FC0 = .nan := by decide +kernel

/-- A copy of one row from near memory, queued, and one whose last row has gone, with what is still owed and gathered. -/
def copying (target : CTarget) (rows : List Row) (owed : List (Nat × Nat)) (claims : List Nat) (staging : List (Nat × Byte)) (s : State) : State :=
  { s with copies := [(2, ⟨0, 1, some 0, 1, 1, 0, rows, 0, none, target, .queued, 0, false, 0,
    [], [], owed, claims, staging, [], [], 0, none, none, false, 0, [], 0, false⟩)] }

/-- The thread and the team of the request are there, on a core that runs. -/
def stays (s : State) : Bool := (s.place 1).any (fun pl => !pl.team.ended && pl.team.cluster == 1 && !pl.cluster.saved &&
  !s.coreDown pl.team.home && (s.slotOf pl.launch).rate == 0) && !s.memberDown 1 0 && (s.thread 1 0).any (fun u => u.copies.isEmpty)

theorem witness_CopyDelivers : [(0, 32), (31, 1)].all (fun e => [CTarget.barrier 15, .sync 0x400].all (fun g =>
      let s := copying g [⟨.mem .near, 0x100, .mem .near, e.1, e.2, false⟩] [] [] [] (one [])
      stays s && next (.copyDelivery 2) s (fun t => match g with
        | .barrier _ => t.copies.isEmpty && (t.bar 1 15).err
        | .sync _ => (tget t.copies 2).any (fun q => q.owed == [(0x400, e.2)])))) = true ∧
    (let s := clu (fun c => { c with near := c.near.writeN 0x400 [5, 0, 0, 0] }) (copying (.sync 0x400) [] [(0x400, 8)] [] [] (one []))
     stays s && (s.place 1).any (fun pl => (s.syncWord pl 0x400).target == 5 && next (.copyDelivery 2) s (fun t => t.copies.isEmpty &&
       t.syncWord pl 0x400 == ⟨0, 3, 1, false, 0⟩))) = true ∧
    (let s := copying (.barrier 0) [⟨.mem .near, 0x100, .mem .dev, 0x50000, 2, false⟩] [] [0x280] []
       (clu (fun c => { c with near := c.near.writeN 0x100 [8, 9] }) (one []))
     stays s && next (.copyDelivery 2) s (fun t => (tget t.copies 2).any (fun q => q.rows.isEmpty && q.staging == [(0x50000, 8), (0x50001, 9)] &&
       q.claims == [0x280]))) = true ∧
    (let s := copying (.barrier 0) [] [] [0x280] [(0x50000, 8), (0x50001, 9)] (one [])
     stays s && !s.claimedBy 1 0x280 2 true && s.mayWrite 1 (.copy 2 0x280) 0x50000 512 0 && !s.copyRefused 1 0x50000 &&
       [0, 1].all (fun i => !s.readOnly 1 (0x50000 + i)) && (s.devAddr 1 0x50000).isSome && (s.keys 1).isNone && s.seals.isEmpty &&
       (List.finRange 16).all (fun i => !(s.world 1).windows[i].opened) &&
       next (.copyDelivery 2) s (fun t => t.copies.isEmpty && t.devByte 1 0x50001 == 9 && (t.thread 1 0).any (fun u => u.copies == [⟨0, 4, 2⟩]))) = true := by
  decide +kernel

/-- An operation in the queue of the first bank. -/
def queued (kind : BankOpKind) (started : Bool) (s : State) : State :=
  { s with bankOps := [(2, ⟨1, 0, [0], 0, kind, started, if started then [[1]] else []⟩)] }

/-- An operation and a drain. -/
def mop : MOp := ⟨.ds8, ⟨0, false⟩, false, false, 64, 0, .near, 0⟩
@[inherit_doc mop] def drain : Drain := ⟨false, 0, 1, .bf16, false, false, false, 0, 0, 0x30000, 0x50000, 0, 0x38000, 64, false, false, [0x280]⟩

theorem witness_MatrixOperationsRun : (let s := tea (fun t => { t with surge := true }) (queued (.mma mop) false (one []))
     s.bankOps.all (fun e => s.mmaReady e.1 e.2) && (s.place 1).any (fun p => p.team.mres.isSome && p.team.surge) && (s.bank 0 0).length == 1024) = true ∧
    (let s := tea (fun t => { t with surge := false, surgeAsk := some 3 }) (queued (.mma mop) false (one []))
     s.bankOps.all (fun e => s.mmaReady e.1 e.2 && e.2.team == 1 && (e.2.core / 128 * 4 + e.2.core % 128 / 64 * 2 + e.2.core % 16 / 8) == 0) &&
       (s.place 1).any (fun t => !t.team.surge && t.team.surgeAsk == some 3 && t.team.home == 0 && (s.slotOf t.launch).state == 1)) = true ∧
    (one []).bankOps = [] ∧ (bfp16.unpack 0x3F80).finite = true ∧ (fp32.unpack 0x7F800000) = .inf false ∧
    [BankOpKind.azero, .awr 1023 7, .ard (some 0) [.x 3] 1023].all (fun k => let s := queued k false (one [])
      s.bankTurn 2 0 [0] && (s.place 1).isSome && next (.resultArrival 9) s (fun _ => (tget (s.quickBank 2 ⟨1, 0, [0], 0, k, false, []⟩).bankOps 2).isNone)) = true ∧
    (let s := queued (.qst drain) false (recd true (one []))
     s.bankTurn 2 0 [0] && (s.place 1).any (fun pl => s.resTurn 2 ⟨1, 0, [0], 0, .qst drain, false, []⟩ drain pl) && !s.drainUnsure 1 2 drain &&
       !s.drainRefused 1 drain) = true ∧
    (queued (.mma mop) true (one [])).bankOps.all (fun e => e.2.started && e.2.banks == [0] && e.2.result.length == 1) = true ∧
    (let s := { recd true (one []) with drains := [(2, ⟨1, 0, 0, drain, [(0x50000, [7])], 0⟩)] }
     (s.place 1).any (fun p => s.drains.all (fun e => e.2.drain.claims.all (fun n => !s.claimedBy 1 n 2 true) &&
         e.2.ranges.all (fun r => s.mayWrite 1 (.drain 2) r.1 r.2 0x30000)) && (s.slotOf p.launch).rate == 0) &&
       !s.drainRefused 1 drain && (s.keys 1).isNone && s.seals.isEmpty && !s.readOnly 1 0x50000 && s.devAddr 1 0x50000 != s.devAddr 1 0x38000 &&
       (List.finRange 16).all (fun i => !(s.world 1).windows[i].opened) && (s.devAddr 1 0x38000).isSome) = true ∧
    (sc8 7).1 ≠ 0 ∧ (fp32.unpack 0x40000000).finite = true := by decide +kernel

theorem witness_TrapsAndBreakpoints : [ring (one []), ring (uni [])].all (fun s => [Instr.trap c64 127 (.small 65), .bkpt c64 127].all (fun i =>
      alone i s (fun h => h.place.launch.world == 1 && h.place.team.locks.isEmpty && ringReady s))) = true ∧
    alone (.bkpt c64 0) (one []) (fun _ => ((one []).world 1).frslots == 0 && (one []).dues.isEmpty && ((one []).world 1).mig.active != 1 &&
      ((one []).world 1).mig.waiting.isEmpty) = true ∧
    alone (.bkpt c64 0) (put 0x200C0 [1] (ring (one []))) (fun _ => (put 0x200C0 [1] (ring (one []))).devNat 1 0x200C0 8 != 0) = true := by
  decide +kernel

theorem witness_SpecialRegistersAndTime : [SReg.tconf, .cconf, .wdcnt, .wdlim, .accOwner, .ctxid, .ctemp, .throt, .tmode].all (fun r =>
      alone (.srd c64 r (.x 2)) (one [])) = true ∧
    [SReg.tconf, .cconf].all (fun r => alone (.srd c64 r (.s 2)) (uni []) && alone (.swr c64 r (.s 2)) (uni [])) = true ∧
    [Instr.time c64 (.x 2), .perf c64 0 (.x 2), .perf c64 1 (.x 2), .perf c64 15 (.x 2)].all (fun i => alone i (one []) (fun h =>
      h.agents.all (fun a => !(one []).heldAny a))) = true ∧
    meets (.time ⟨.w64, .k 0 false, 0⟩ (.x 2)) (one []) (fun h => (h.taking ⟨.w64, .k 0 false, 0⟩ (one [])).isEmpty) = true := by decide +kernel

/-- Window 15 of world 1 is open on 512 bytes at 0x20000, with its history at 0x21000. -/
def window (s : State) : State := wor (fun x => { x with windows := x.windows.set 15 ⟨false, false, true, 0x20000, 512, 0x1000, 0x21000, 4⟩ }) s

theorem witness_PublishAdvances : [uni [], window (uni [])].all (fun s => alone (.publish c64 15 (.s 2)) s (fun _ =>
      !s.heldAny (.uniform 1) && (s.outstanding (.uniform 1)).isEmpty)) = true ∧
    ((window (uni [])).world 1).windows[15].opened = true ∧ ((uni []).world 1).windows[15].opened = false := by decide +kernel

/-- Tenant 0 of world 1 has service 2, whose ring of the given number of records stands at package address 0x50000. -/
def served (n : Nat) (s : State) : State :=
  put 0x40040 (bytesOfNat 8 2 ++ bytesOfNat 8 0x50000 ++ bytesOfNat 8 n) { s with tenants := [(64, ⟨0x40000, true, 3⟩)] }

theorem witness_LaunchAndServiceWords : [0x20020, 0x20040].all (fun (a : Word) => alone (.launch c64 (.s 3) (.s 4)) (uni [(.s 4, a)]) (fun h =>
      let s := uni [(.s 4, a)]
      !s.heldAny (.uniform 1) && (s.outstanding (.uniform 1)).isEmpty && decide (s.queued 1 < 64) && !s.devBusy 1 ⟨.uniform 1, a.toNat, 64, true, false⟩ &&
        (s.fills 1 [⟨.uniform 1, a.toNat, 64, true, false⟩]).1 && (s.slotOf h.place.launch).rate == 0 &&
        !(s.world 1).log)) = true ∧
    (let s := { uni [] with launches := (uni []).launches ++ (List.range 64).map (fun i => (i + 2, { benchLaunch with placed := 0 })) }
     alone (.launch c64 (.s 3) .zero) s (fun _ => decide (64 ≤ s.queued 1))) = true ∧
    [0, 4096, 4097].all (fun (n : Word) => [served 0 (uni [(.s 5, n)]), served 1 (uni [(.s 5, n)])].all (fun s =>
      alone (.svc c64 2 (.s 2) (.s 4) (.s 5)) s (fun _ => !s.heldAny (.uniform 1) && (s.outstanding (.uniform 1)).isEmpty &&
        (s.service 1 0 2).any (fun e => e.1 == 0x50000) && s.hbmNat 0x50000 8 == 0 && s.seals.isEmpty &&
        (s.service 1 0 3).isNone))) = true ∧
    (let s := put 0x50000 [1] (served 1 (uni []))
     alone (.svc c64 2 (.s 2) (.s 4) (.s 5)) s (fun _ => s.hbmNat 0x50000 8 != 0)) = true := by decide +kernel

/-! Events. -/

/-- The bench with world 1 placed in partition 0. -/
def here : State := wor (fun x => { x with valid := true }) (one [])

theorem witness_WorldWrites : ((wor (fun x => { x with pause := true, tlast := 5 }) (one [])).world 1).pause = true ∧
    [4, 5].map (fun v => decide (((wor (fun x => { x with tlast := 5 }) (one [])).world 1).tlast.toNat ≤ v)) = [false, true] ∧
    [false, true].all (fun b => (img (fun i => { i with replayOk := b }) (one [])).images.any (fun e => e.2.world == 1 && !e.2.replayOk &&
      e.2.state == .sealed) == !b) = true ∧
    (here.world 1).valid = true ∧ ((one []).world 1).valid = false ∧ (0x400 : DWord).getLsbD 10 = true ∧ (0x3F : DWord).getLsbD 10 = false ∧
    here.worlds.all (fun e => !(e.2.part == 0 && e.2.valid && e.2.state == 3)) = true ∧
    ((one []).slot 0 0).state = 1 ∧ ((one []).slot 0 0).world = 1 ∧ ((one []).world 1).pause = false := by decide +kernel

/-- Partition 1 has octet 1, and partition 0 has octets 0 and 2. -/
def octets (s : State) : State :=
  { s with parts := [(0, { Part.reset 0 with octets := 5, target := 1 }), (1, { Part.reset 1 with octets := 2, target := 2 })] }

/-- Partition 0 is long, partition 1 short with a waiting launch, and a cluster stands in every octet of partition 0. -/
def uneven (s : State) : State :=
  { octets s with
    launches := (s.launches).map (fun e => (e.1, { e.2 with part := 0 })) ++ [(5, { benchLaunch with part := 1, state := .placing })]
    clusters := [(1, Cluster.placed 1 0 0 0 0 16 8 [1])] }

theorem witness_PartitionsAndBuckets : [0, 8, 0x10, 0x18].all (fun off => !(one []).limited 1 off 0 && !(octets (one [])).limited 1 off 0) = true ∧
    (octets (one [])).limited 0 0x10 2 = true ∧ (octets (one [])).limited 1 0x10 1 = true ∧
    ((one []).slot 0 0).sweep = 0 ∧ ((one []).slot 0 0).bound = true ∧
    (((one []).setSlot 0 0 (fun c => { c with sweep := 3, queued := none })).slot 0 0).sweep = 3 ∧
    (State.slots ((one []).setSlot 0 0 (fun c => { c with rate := 250, depth := 20 }))).map (·.1) = [0] ∧
    (uneven (one [])).waiting 1 = true ∧
    [0, 1].map (fun k => let s := uneven (one []); ((s.part k).octetList.length, (s.part k).target, (s.part k).minoct, s.waiting k)) =
      [(2, 1, 0, false), (1, 2, 0, true)] ∧
    (List.range 64).all (fun k => let s := uneven (one [])
      !s.frozen k && (k == 1 || !(decide ((s.part k).octetList.length < (s.part k).target) && s.waiting k)) &&
        (k == 0 || !(decide ((s.part k).target < (s.part k).octetList.length) && decide ((s.part k).minoct < (s.part k).octetList.length)))) = true ∧
    (uneven (one [])).parts.all (fun e => e.2.marks.isEmpty) = true := by decide +kernel

theorem witness_RegisterWrites : [0, 255].all (fun w => decide (w < 256)) = true ∧ [0, 63].all (fun t => decide (t < 64)) = true ∧
    [0, 15].all (fun i => !((one []).window 1 i).opened) = true := by decide +kernel

/-- A context's slot in a state of the ladder, of a world that is valid. -/
def ladder (n : Nat) (s : State) : State := s.setSlot 0 0 (fun c => { c with state := n })

/-- Its one group stands behind its first word. -/
def begun : State := { ladder 3 (one []) with passes := [(1, ⟨0, 1, 0, false, false, [(0, ⟨[0], 8, 1, [], 0, some 0, false⟩)]⟩)] }

theorem witness_LadderSteps : (((ladder 1 (one [])).setSlot 0 0 (fun c => { c with flying := true })).slot 0 0).flying = true ∧
    (begun.slot 0 0).state = 3 ∧ (begun.slot 0 0).gAt ≤ begun.now ∧ begun.ctxTeams 0 0 = [1] ∧
    (begun.place 1).any (fun p => !p.team.dwait) = true ∧ (begun.thread 1 0).isSome = true ∧
    (ladder 4 (one [])).merging 0 0 = false ∧ ((ladder 4 (one [])).slot 0 0).dark = false ∧
    (List.range 16).all (fun j => !((ladder 4 (one [])).slot 0 j).resume) = true ∧ ((ladder 4 (one [])).slot 0 0).kAt = (one []).now ∧
    (let s := { ladder 4 (one []) with now := 1 }
     (s.slot 0 0).kAt < s.now) ∧ (ladder 3 (one [])).haltReady 0 0 = false ∧ ((ladder 3 (one [])).slot 0 0).kAt = (one []).now ∧
    ((one []).world 1).dark = 0 ∧ ((one []).world 1).pause = false ∧ (one []).fabric = [] ∧
    [2, 5].all (fun n => ((ladder n here).world 1).runs && ((ladder n here).rivals 0 0 [1, 3, 4] ((ladder n here).coresOf 0 0)).isEmpty) = true ∧
    (ladder 4 (one [])).underWayOf ((ladder 4 (one [])).ctxTeams 0 0) = false ∧ here.goes 1 = true ∧
    (let s := ladder 2 (wor (fun x => { x with pause := true }) here)
     (s.world 1).dark = 0 ∧ s.goes 1 = false ∧ (s.slot 0 0).world = 1) ∧
    ((ladder 7 (one [])).slot 0 0).bound = true ∧ (one []).pends.isEmpty = true ∧ ((one []).world 1).log = false := by decide +kernel

/-- A start page. -/
def pow (f : Power → Power) (s : State) : State := { s with power := f s.power }

theorem witness_Starts : (pow (fun p => { p with state := 4, fails := 3 }) (one [])).power.state = 4 ∧
    (pow (fun p => { p with starting := .ready 7 false }) (one [])).power.starting = .ready 7 false ∧ (one []).power.state = 3 ∧
    (let s := pow (fun p => { p with starting := .ending none }) (wor (fun x => { x with state := 2 }) State.reset)
     s.power.starting = .ending none ∧ s.slots = [] ∧ s.worlds.all (fun e => e.2.dark == 0) = true) ∧
    State.reset.slots = [] ∧ [2, 3].all (fun n => (wor (fun x => { x with state := n }) (one [])).worlds.any (fun e => e.1 == 1 && e.2.state == n)) = true ∧
    (let s := one []
     s.slots.length = 1 ∧ (s.slot 0 0).bound = true ∧ (s.slot 0 0).state = 1 ∧ (s.ctxClusters 0 0).any (fun e => !e.2.saved && e.2.teams.contains 1) = true ∧
       (tget s.teams 1).any (fun t => t.cores.contains 0) = true ∧ ({ s with resets := [(0, 0)] } : State).resets = [(0, s.now)]) := by decide +kernel

theorem witness_HeatAndPower : ((State.reset.power.tcrit.toNat : Int) * 16 < (0x731 : BitVec 16).toInt) ∧
    ((0x6E0 : BitVec 16).toInt ≤ ((State.reset.power.tcrit.toNat : Int) - 5) * 16) ∧ State.reset.ctemp = [] ∧
    State.reset.power.trip = false ∧ 511 < 512 := by decide +kernel

/-- World 1 with a session that lasts to time 5. -/
def session (f : World → World) : State := wor (fun x => f { x with session := true, hbDeadline := 5 }) (one [])

theorem witness_SessionMessages : [0, 5].all (fun n => let s := { session id with now := n }
      (s.world 1).session && (s.world 1).dark == 0 && decide (s.worldTime 1 ≤ (s.world 1).hbDeadline)) = true ∧
    ({ session id with now := 6 } : State).worldTime 1 = 6 ∧ ((one []).world 1).session = false ∧ ((one []).world 1).state = 0 ∧
    [2, 3].all (fun n => ((session (fun x => { x with state := n })).world 1).state == n &&
      (List.finRange 16).all (fun i => !((session (fun x => { x with state := n })).world 1).chans[i].opened)) = true ∧
    ((session (fun x => { x with state := 3, chans := x.chans.set 15 ⟨true, [], 0, 0⟩ })).world 1).chans[15].opened = true ∧
    (List.replicate 40 (0 : Byte)).length = 40 ∧ (List.replicate 32 (0 : Byte)).length = 32 ∧ ((one []).part 0).gen = 0 ∧
    [1, 2].all (fun (b : Byte) => (b :: List.replicate 45 0).length == 46 && natAt (b :: List.replicate 45 0) 0 1 == b.toNat) = true ∧
    ([3, 0] : List Byte).length = 2 ∧ natAt [3, 0] 0 1 = 3 ∧ natAt [4] 0 1 = 4 ∧
    [0, 15].all (fun i => ((session id).onChan 1 i).isEmpty && (session id).worlds.all (fun e => e.2.closing.isEmpty)) = true ∧
    ((wor (fun x => { x with exchanging := true }) (one [])).world 1).exchanging = true := by
  decide +kernel

/-- Keys of a world. -/
def keys : WorldKeys := ⟨List.replicate 32 0, List.replicate 64 0, List.replicate 32 0⟩

theorem witness_InterfaceStates : ((wor (fun x => { x with conf := true }) (one [])).world 1).conf = true ∧
    [0, 1, 2, 3].all (fun n => let s := session (fun x => { x with state := n, nonce := 7 })
      (s.world 1).state == n && (s.world 1).session && (s.world 1).dark == 0 && decide (s.worldTime 1 ≤ 5)) = true ∧
    ({ session id with now := 6 } : State).worldTime 1 = 6 ∧ ((session id).world 1).hbDeadline = 5 ∧
    (let s := wor (fun x => { x with dark := 1, state := 3 }) (ladder 5 (one []))
     (s.world 1).dark ≠ 0 ∧ s.worldSlots 1 = [(0, 0)] ∧ (s.slot 0 0).state = 5 ∧ (s.world 1).log = false) ∧
    (let s : State := { wor (fun x => { x with dark := 1, state := 3, key := some keys }) State.reset with seals := [(3, .live 1 (.xts 0x600))] }
     s.worldSlots 1 = [] ∧ s.slots = [] ∧ s.launches = [] ∧ s.images = [] ∧ s.fabric = [] ∧ (s.world 1).key = some keys) := by decide +kernel

theorem witness_HostAccesses : [HartOp.load 1, .store [7], .amo .add 1 3].all (fun op => !(one []).accessFaults 1 0x30000 op &&
      [Instr.hartAccess 1 0x30000 op, .hostCxlAccess 1 0x30000 op].all (fun i => !(one []).accessWaits 1 0x30000 op i) &&
      ((one []).fill 1 0x30000 1).1 && hartLen op == 1) = true ∧
    (one []).devRange 1 0x1FFFFF 1 = true ∧ (one []).devRange 1 0x1FFFFF 2 = false ∧ (one []).devRange 1 0x200000 1 = false ∧
    (one []).readOnly 1 0x10000 = true ∧ ((one []).keys 1).isNone = true ∧ (one []).seals = [] ∧ (one []).recs = [] ∧
    (List.finRange 16).all (fun i => !((one []).world 1).windows[i].opened) = true ∧ (one []).shared = [] ∧ (one []).power.held = false ∧ (pow (fun p => { p with state := 4 }) (one [])).power.held = true ∧
    ((one []).world 1).log = false ∧ hartPage 1 0x30000 = none ∧ hartPage 1 0x40000000 = some (.bar0 1, 0) ∧
    hartPage 0 0x50000008 = some (.control, 8) ∧
    (let s : State := { one [] with shared := [⟨1, 0xC00, [], false, []⟩] }
     s.hostMay 1 0x30000 1 = true ∧ s.accessFaults 1 0x30000 (.load 1) = false ∧
       s.accessWaits 1 0x30000 (.load 1) (.hartAccess 1 0x30000 (.load 1)) = false ∧ (s.fill 1 0x30000 1).1 = true) := by decide +kernel

/-- World 1 holds keys, and the tile of its byte 0x30000 lies as the seal says. -/
def keyed (q : Seal) : State := { wor (fun x => { x with key := some keys, state := 3 }) (one []) with seals := [(0x180, q)] }

theorem witness_HostAccesses_keyed : (let s := keyed (.live 1 (.xts 0x30000))
     s.keys 1 = some keys ∧ s.devAddr 1 0x30000 = some 0x30000 ∧ s.sealedBy 1 (.xts 0x30000) 0x30000 = true ∧
       (s.fill 1 0x30000 1).1 = true ∧ s.accessFaults 1 0x30000 (.store [7]) = false ∧
       s.accessWaits 1 0x30000 (.store [7]) (.hartAccess 1 0x30000 (.store [7])) = false) ∧
    ∃ tag, (Iv.xts 0x30000).tag keys ((keyed (.dead tag)).rawBytes 0x30000 512) ≠ tag ∧
      tget (keyed (.dead tag)).seals (0x30000 / 512) = some (.dead tag) := by
  refine ⟨by decide +kernel, ?_⟩
  obtain ⟨l, h⟩ : ∃ l, ∀ tag, (keyed (.dead tag)).rawBytes 0x30000 512 = l := by
    refine ⟨(List.range 512).map (fun i => (one []).hbm.read (0x30000 + i)), fun tag => ?_⟩
    refine List.map_congr_left (fun i hi => ?_)
    have hi : i < 512 := List.mem_range.1 hi
    have h1 : ¬ hbmSize ≤ 0x30000 + i := by unfold hbmSize; omega
    have h2 : (0x30000 + i) / 512 = 0x180 := by omega
    simp [State.rawByte, h1, h2, keyed, tget, wor]
  refine ⟨(Iv.xts 0x30000).tag keys l + 1, ?_, by simp [keyed, tget]⟩
  rw [h]
  generalize (Iv.xts 0x30000).tag keys l = x
  intro e
  simp at e

theorem witness_HostSnoop : [true, false].all (fun d => (({ one [] with hostLines := [⟨5, d, none, 1, []⟩] } : State).hostLines.find?
    (fun e => e.line == (5 : DWord).toNat)).isSome) = true := by decide +kernel

theorem witness_BarWindows : (one []).staging 1 = false ∧ (window (one [])).staging 1 = false ∧
    ((window (one [])).windowFill 1 (15 * 2 ^ 30) 1).1 = true ∧ (one []).keys 1 = none ∧
    ((window (one [])).world 1).windows[15].opened = true ∧ ((window (one [])).world 1).windows[15].len.toNat = 512 ∧
    (15, 0) ∉ ((window (one [])).world 1).hist ∧ (15, 0) ∈ ((wor (fun x => { x with hist := [(15, 0)] }) (window (one []))).world 1).hist ∧
    ((one []).world 1).windows[15].opened = false ∧ (pow (fun p => { p with state := 4 }) (one [])).staging 0 = true ∧
    (one []).windowClaimed 1 0 1 = false ∧ (one []).windowOk 1 ⟨false, false, false, 0x20001, 512, 0, 0x30000, 0⟩ = false ∧
    (one []).windowOk 1 ⟨false, false, false, 0x20000, 0x1000, 0, 0x30000, 0⟩ = true := by decide +kernel

/-- A page request of thread 0 for page 3. -/
def asking (sent : Bool) (s : State) : State :=
  { thr (fun t => { t with st := .parked 8 (.page 2) false }) (wor (fun x => { x with prAlloc := 1, prOut := natOfBool sent }) s) with
    pageReqs := [(2, ⟨1, 0, 3, true, false, sent, 511, [(.thread 1 0, 0x3000)], none⟩)] }

theorem witness_PagesAndInvalidations : (let s := asking false (one [])
     tget s.pageReqs 2 = some ⟨1, 0, 3, true, false, false, 511, [(.thread 1 0, 0x3000)], none⟩ ∧ s.pageReqs.length = 1 ∧
       (s.world 1).prHalted = false ∧ (s.world 1).prOut < (s.world 1).prAlloc ∧ (s.freePrgs 1).isEmpty = false) ∧
    (let s := asking true (one [])
     s.pageReqs = [(2, ⟨1, 0, 3, true, false, true, 511, [(.thread 1 0, 0x3000)], none⟩)] ∧
       (s.thread 1 0).any (fun t => t.st == .parked 8 (.page 2) false) = true ∧ (s.place 1).any (fun p => !p.cluster.saved) = true) ∧
    (one []).pageReqs = [] ∧ ((one []).invals.filter (fun e => e.world == 1 && !e.internal)).length < 32 ∧
    (let s : State := { loading (one []) with invals := [⟨1, [2], false⟩] }
     s.invals = [⟨1, [2], false⟩] ∧ s.pends.all (fun e => e.1 == 2) = true) ∧
    (let s : State := { one [] with invals := [⟨1, [2], true⟩] }
     s.invals = [⟨1, [2], true⟩] ∧ s.pends = []) := by decide +kernel

theorem witness_Revocation : (one []).images.all (fun e => e.2.state != .submitted && e.2.codeIn 0 && !e.2.codeIn 1 && e.2.world == 1 &&
      e.2.state == .sealed) = true ∧ ((one []).world 1).log = false ∧
    (let s : State := { img (fun i => { i with state := .revoking }) (one []) with launches := [], unmaps := [(1, 0, false)] }
     s.images.length = 1 ∧ s.images.all (fun e => e.1 == 1 && e.2.state == .revoking && e.2.codeIn 0) = true ∧ s.launches = []) ∧
    (0x3FF000#64 &&& ~~~(0xFFF#64)) ≠ 0 ∧ State.reset.images = [] := by
  decide +kernel

/-- FIPS 180-4 and FIPS 197, whose algorithms R406 and R411 name: SHA-384 of "abc"; the S-box at 0x53, with its inverse; and a
column of the worked cipher example mixed and mixed back. -/
theorem test_crypto : sha384 (asciiBytes ['a', 'b', 'c']) = beBytes 48
      0xCB00753F45A35E8BB5A03D699AC65007272C32AB0EDED1631A8B605A43FF5BED8086072BA1E7CC2358BAECA134C825A7 ∧
    aesSub 0x53 = 0xED ∧ aesUnsub 0xED = 0x53 ∧
    (aesMix [2, 3, 1, 1] [0xD4, 0xBF, 0x5D, 0x30, 0, 0, 0, 0, 0, 0, 0, 0, 0, 0, 0, 0]).take 4 = [0x04, 0x66, 0x81, 0xE5] ∧
    (aesMix [14, 11, 13, 9] [0x04, 0x66, 0x81, 0xE5, 0, 0, 0, 0, 0, 0, 0, 0, 0, 0, 0, 0]).take 4 = [0xD4, 0xBF, 0x5D, 0x30] := by
  decide +kernel

/-- A list of doublewords as bytes. -/
def dwords (l : List Nat) : List Byte := l.flatMap (bytesOfNat 8)

/-- The first image (01_first_image.md), at 0x100000 of world 1, with its capability 5 in the table of tenant 1. -/
def firstImage : State :=
  put 0x100000 (dwords [0x000000014D495A4B, 0x0001000100000031, 0x0000006000000040, 0x0000001800000080, 0x0000001000010000,
      0x0000000200080020, 0, 0, 0x0000003300000040, 5, 0, 0, 0, 0, 0, 0, 0x0000000001010000, 0x0000000003004100, 0x0000000000BFF900])
    (put 0x110000 (dwords [0x062C060C0094E1A8, 0x0004A2512894E150]) (put 0x400A0 (dwords [0x331, 0, 0x200000])
      { here with tenants := [(65, ⟨0x40000, true, 6⟩)], launches := [] }))

/-- The same with its submission captured. -/
def captured : State :=
  { firstImage with
    images := [(7, Image.submitted 1 1 0x31 0x100000 0x10010 0x30080)], subs := [⟨1, 0x100000, 0x10010, 0x30080, 1, 0x31, 7⟩] }

/-- R106, R205 to R207: the first image is admitted as the spec says: replay-safe, one code page, its counter in device memory. -/
theorem test_first_image : (match captured.examine (Image.submitted 1 1 0x31 0x100000 0x10010 0x30080) with
    | .ok i => i.replayOk && i.pages == [0x11] && i.code == 0x110000 && i.sites == [(0, ⟨.dev, 0, true⟩)]
    | .error _ => false) = true := by decide +kernel

/-- Completion records of world 1 can be written as they arise, in memory that lies as it is written, to no window. -/
def completes (s : State) : Bool :=
  (s.keys 1).isNone && s.seals.isEmpty && (List.finRange 16).all (fun i => !(s.world 1).windows[i].opened) && s.dues.isEmpty &&
    (s.world 1).mig.active != 1 && (s.world 1).mig.waiting.isEmpty && !(s.world 1).log && (s.world 1).replay.isEmpty

theorem completionFree_of_completes {s : State} (h : completes s = true) : s.unsealed 1 ∧ s.windowsClosed 1 ∧ s.completionFree 1 := by
  simp only [completes, Bool.and_eq_true, List.isEmpty_iff, bne_iff_ne, Option.isNone_iff_eq_none, List.all_eq_true,
    Bool.not_eq_true'] at h
  obtain ⟨⟨⟨⟨⟨⟨⟨h1, h2⟩, h3⟩, h4⟩, h5⟩, h6⟩, h7⟩, h8⟩ := h
  exact ⟨⟨h1, h2⟩, fun i => h3 i (List.mem_finRange i), ⟨h4, h5, h6⟩, h7, h8⟩

theorem witness_AdmissionVerdict : captured.nextSub = some ⟨1, 0x100000, 0x10010, 0x30080, 1, 0x31, 7⟩ ∧
    tget captured.images 7 = some (Image.submitted 1 1 0x31 0x100000 0x10010 0x30080) ∧ completes captured = true ∧
    captured.awaiting (Image.submitted 1 1 0x31 0x100000 0x10010 0x30080) = [] ∧ (captured.devAddr 1 0x30080).isSome = true ∧
    captured.images.length = 1 ∧
    (match (put 0x100000 [0] captured).examine (Image.submitted 1 1 0x31 0x100000 0x10010 0x30080) with
     | .error f => decide (f.off < 2 ^ 32) && decide (f.rule < 256)
     | .ok _ => false) = true := by decide +kernel

/-- A submission record of the first image and a launch packet of it. -/
def records (s : State) : State :=
  put 0x30040 (dwords [0x100000, 0x0000000100010010, 0x30080, 0]) (put 0x300C0 (dwords [0x0000003100000101, 0x0102001000200000,
    0x0101000100010001, 0x0000010000000001, 0x30100, 0x20000, 0x40, 0x20000]) s)

theorem witness_QueueWrites : ((one []).world 1).takes = true ∧ ((wor (fun x => { x with state := 4 }) (one [])).world 1).takes = false ∧
    (let s : State := { one [] with subs := (List.range 8).map (fun i => ⟨1, 0, 0, 0, 0, 0, i⟩) }
     8 ≤ (s.subs.filter (fun e => e.world == 1)).length) ∧
    (let s : State := { one [] with launches := (List.range 64).map (fun i => (i, benchLaunch)) }
     64 ≤ s.queued 1) ∧
    (let s := records firstImage
     let b := s.devReads 1 0x30040 32
     s.devRange 1 0x30040 32 && s.subs.isEmpty && !s.claimedRange 1 0x30040 32 && !(s.world 1).log && natAt b 16 8 == 0x30080 &&
       s.devRange 1 0x30080 64 && natAt b 24 8 == 0 && natAt b 0 8 == 0x100000 && s.devRange 1 0x100000 0x10010 &&
       !s.imageClash 1 0x100000 0x10010 && (s.keys 1).isNone && natAt b 8 8 / 2 ^ 32 == 1 && s.readNat 1 0x100008 4 == 0x31 && !s.idHeld 1 1 0x31) = true ∧
    (let s := records captured
     let b := s.devReads 1 0x300C0 64
     let at2 := s.paramBlock 1 b
     let block := match at2 with | some (pa, n) => s.devReads 1 pa n | none => []
     let p := readPacket 1 b (natAt b 1 1) block at2.isSome s.now
     s.devRange 1 0x300C0 64 && decide (s.queued 1 < 64) && !s.claimedRange 1 0x300C0 64 && at2.isNone && p.2 && (s.keys 1).isNone &&
       p.1.compl % 32 == 0 && s.devRange 1 p.1.compl 32 && (tget s.launches s.nextId).isNone &&
       (s.imageNamed p.1).any (fun i => i.state == .submitted)) = true ∧
    (let s := put 0x40020 (dwords [0x43, 0x000000000002_0105, 0]) { recd false (one []) with tenants := [(64, ⟨0x40000, true, 2⟩)] }
     s.inboundOk 0x105 2 0 1 0 (dwords [1]) = true ∧ s.inboundOk 0x105 2 0 1 0 (dwords [2]) = true ∧ s.inboundOk 0x105 2 1 1 0 (dwords [1]) = false ∧
       s.queued 1 < 64) := by decide +kernel

/-- A descriptor of a peer on node 9, and a contribution of member m, from that node. -/
def desc (reduction sent : Bool) : FabDesc := ⟨1, 0, reduction, 3, 4, 0, 7, 0, 2, 1, 0x50000, 1, 0x30080, 9, 2, 0, bytesOfNat 4 5, sent⟩
@[inherit_doc desc] def part (m : Nat) (request : Option Nat) : Contribution := ⟨9, 1, 0, request, 3, 4, 0, 7, 1, 2, m, 0, [5]⟩

/-- A descriptor at 0x30040, of a launch request or of a reduction of one element, and node 0x105 as a peer for that alone. -/
def described (reduction : Bool) : State :=
  put 0x30040 (dwords (if reduction then [0x0003000170000002, 0x0000020000000004, 0x30000, 0x50000, 1, 0x30080, 0, 0]
      else [1 + 2 ^ 32, 0, 0x30000, 0, 0, 0x30080, 0, 0])) (put 0x40020 (dwords [if reduction then 0x83 else 0x43, 0x20105, 0])
    { recd false (one []) with tenants := [(64, ⟨0x40000, true, 2⟩)] })

theorem witness_FabricSteps :
    [false, true].all (fun red =>
      let s := described red
      let b := s.devReads 1 0x30040 64
      let n := if red then 4 else 64
      (s.peer 1 (natAt b 1 1) (natAt b 4 2)).any (fun p => p.launch == !red && p.reduce == red && (readDesc 1 b (some p)).reduction == red &&
          descOk b (readDesc 1 b (some p)) && s.sendTurn s.nextId (readDesc 1 b (some p))) &&
        (s.world 1).takes && s.devRange 1 0x30040 64 && s.fabric.isEmpty && !s.claimedRange 1 0x30040 64 && completes s &&
        s.devRange 1 0x30080 32 && s.devCovered 1 0 0x30000 n true false && s.devCovered 1 0 0x50000 n false true &&
        !s.claimedRange 1 0x30000 n && natAt b 40 8 == 0x30080 && natAt b 16 8 == 0x30000) = true ∧
    (desc false true).compl % 32 = 0 ∧ ((one []).devAddr 1 0x30080).isSome = true ∧ completes (one []) = true ∧
    (let s : State := { one [] with fabric := [(7, desc false true)] }
     tget s.fabric 7 = some (desc false true) ∧ s.fabric = [(7, desc false true)] ∧ (desc false true).node = 9 ∧ s.reductions = []) ∧
    (let s : State := { one [] with fabric := (List.range 64).map (fun i => (i, desc true false)) }
     64 ≤ (s.fabric.filter (fun e => e.2.world == 1)).length) ∧
    ((one []).reduction? 1 0 3 4).isNone = true ∧ (part 0 none).request = none ∧
    (let k := (desc true false).contribution 7 (one []).node.toNat
     let r : Reduction := ⟨1, 0, 3, 4, [part 0 none], 0, none, [], []⟩
     let s : State := { one [] with reductions := [(5, r)], fabric := [(7, desc true false)] }
     k.request = some 7 ∧ tget s.fabric 7 = some (desc true false) ∧ s.sendTurn 7 (desc true false) = true ∧
       s.reduction? k.world k.tenant k.group k.seq = some (5, r) ∧ s.now ≤ r.start + r.limit ∧
       (r.contribs.all (fun c => c.op == k.op && c.fmt == k.fmt && c.count == k.count && c.nmemb == k.nmemb && c.midx != k.midx)) = true ∧
       (r.contribs ++ [k]).length = k.nmemb ∧ (r.contribs ++ [k]).map (·.midx) = List.range k.nmemb ∧
       s.reduction? 1 0 3 4 = some (5, r) ∧ (part 0 (some 8)).midx = (part 0 none).midx ∧
       r.start + r.limit < ({ s with now := 1000001 } : State).now ∧ { part 1 none with nmemb := 3 }.nmemb = 3) ∧
    [false, true].all (fun locked =>
      let k := part 1 (some 7)
      let r : Reduction := ⟨1, 0, 3, 4, [part 0 none, k], 0, none, [10], [1]⟩
      let s : State := { one [] with
        reductions := [(5, r)], fabric := [(7, desc true true)]
        images := if locked then (one []).images.map (fun e => (e.1, { e.2 with state := .sealed, pages := [5] })) else (one []).images }
      r.member 1 == some k && k.nmemb == 2 && tget s.fabric 7 == some (desc true true) && r.owed == [1] && completes s &&
        (s.sealedByte 1 0x50000 4).isSome == locked && !s.claimedRange 1 0x50000 4 &&
        (List.range 4).all (fun i => (s.devAddr 1 (0x50000 + i)).isSome &&
          (List.range 4).all (fun j => s.devAddr 1 (0x50000 + i) != s.devAddr 1 (0x50000 + j) || i == j) &&
          (List.range 32).all (fun j => s.devAddr 1 (0x50000 + i) != s.devAddr 1 (0x30080 + j)))) = true ∧
    (let r : Reduction := ⟨1, 0, 3, 4, [part 0 (some 7)], 0, none, [], []⟩
     r.start + r.limit ≤ 1000000 ∧ 0 < r.start + r.limit ∧ ((one []).now < r.start + r.limit)) ∧
    (part 0 none).node = 9 := by decide +kernel

/-- A launch of the first image whose packet lies at 0x300C0 is taken at LAUNCH of a uniform block (O35). -/
theorem witness_CapturedLaunch :
    let s := records captured
    let u := uni [(.s 4, 0x300C0)]
    let s : State := { u with
      hbm := s.hbm, tenants := s.tenants, worlds := s.worlds
      images := tmod u.images 1 (fun i => { i with tenant := 1 }) ++ [(7, Image.submitted 1 1 0x31 0x100000 0x10010 0x30080)]
      launches := tmod u.launches 1 (fun l => { l with tenant := 1 }) }
    alone (.launch c64 (.s 8) (.s 4)) s (fun h =>
      let b := s.devReads 1 0x300C0 64
      let r := readPacket 1 b h.place.launch.tenant [] false s.now
      idle s h.place.launch [⟨.uniform 1, 0x300C0, 64, true, false⟩] && (s.view (.uniform 1)).addr true (.s 4) (.small 64) == 0x300C0 &&
        decide (s.queued 1 < 64) && !(s.world 1).log && (s.keys 1).isNone && !bitOf (natAt b 0 8) 18 && r.2 && r.1.compl % 32 == 0 &&
        s.devRange 1 r.1.compl 32 && s.launches.all (fun e => decide (e.1 < s.nextId)) &&
        (s.imageNamed r.1).any (fun i => i.state == .submitted)) = true := by decide +kernel

theorem witness_PageMigration : (let m := fun (f : Migration → Migration) => wor (fun x => { x with mig := f x.mig }) (one [])
    (((m (fun x => { x with active := 1 })).world 1).mig.active = 1) ∧ ((m id).world 1).mig.state ≠ 1 ∧ ((m id).world 1).mig.active = 0 ∧
      ((m id).world 1).mig.mode = false ∧ (m id).devAddr 1 ((m id).world 1).mig.src.toNat = some 0 ∧ ((m id).world 1).mig.src.toNat % 2097152 = 0 ∧
      (m (fun x => { x with src := 0x200000 })).devAddr 1 0x200000 = none ∧
      ((m (fun x => { x with src := 0x200000, mode := true })).migRecord 1 0x200000).isNone = true ∧
      (0x200000 : DWord).toNat % 2097152 = 0 ∧ (m id).othersFrame 1 0x200000 = false ∧
      ({ m id with devTab := (2, 0, some 0x200000) :: (m id).devTab, worlds := tset (m id).worlds 2 (World.reset) } : State).othersFrame 1 0x200000 = true ∧
      0 + 2097152 ≤ (0x200000 : DWord).toNat ∧ (0x200000 : DWord).toNat + 2097152 ≤ 2 ^ 39 ∧ 2 ^ 39 < (0x8000000000 : DWord).toNat + 2097152 ∧
      ((m (fun x => { x with active := 1, amode := false, asrc := 0, adst := 0x200000 })).world 1).mig.adst = 0 + 2097152 ∧
      ((m (fun x => { x with active := 1, amode := false, asrc := 0, adst := 0x200000 })).devAddr 1 0) = some 0 ∧
      ((m (fun x => { x with active := 2, readers := [4] })).world 1).mig.readers = [4] ∧
      ((m (fun x => { x with active := 2, readers := [2] })).world 1).mig.waiting = []) ∧
    (copying (.barrier 0) [] [] [] [] (one [])).copies.all (fun e => e.1 == 2) = true := by decide +kernel

/-- World 1's first launch waits for its cluster, and nothing is placed. -/
def vacant : State := { here with
  launches := [(1, { benchLaunch with state := .placing, placed := 0 })], clusters := [], teams := [], threads := [], passes := [], slots := [] }

/-- The bench's team, placed on core 0 and not started; its image has one block. -/
def placed : State := img (fun i => { i with blocks := [⟨0, 0, false, 0, [], [], [], 0⟩] }) { here with
  teams := [(1, Team.placed 1 1 0 [0] 1)], threads := [], passes := [] }

theorem witness_PlacementAndStart : (List.range 16).all (fun j => (vacant.slot 0 j).state != 6) = true ∧ vacant.roundRobin 0 = [1] ∧
    (vacant.dispatchOrder 1).map (·.1) = [1] ∧
    (vacant.dispatchOrder 1).all (fun e => (vacant.imageOf e.2).any (fun i => (vacant.findRoom e.2 i).any (fun r =>
      (vacant.findSlot e.2).any (fun k => k.2.slotTakes 0 k.1 r.1)))) = true ∧
    here.roundRobin 0 = [1] ∧ (here.dispatchOrder 1).length = 0 ∧
    placed.teams.length = 1 ∧ (placed.place 1).any (fun p => !p.team.ended && !p.team.stopped && !p.team.started && p.team.mres.isNone &&
      p.team.home == 0 && !p.cluster.saved && !(placed.bankBases p).isEmpty && !(placed.wbufBases p).isEmpty &&
      p.image.blocks[p.launch.entry]?.isSome) = true := by decide +kernel

/-- Thread 0 waits at block 0 of the bench's image, and no pass is open. -/
def waiter (uniform : Bool) : State :=
  img (fun i => { i with blocks := [⟨0, 0, uniform, 0, [], [], [], 0⟩], threads := 1 }) (thr (fun t => { t with st := .waiting 0 })
    { here with passes := [], cands := [⟨0, 1, 0, false, 0, false, true⟩] })

/-- Its group has ended its block, bound for block 64, which lists x5. -/
def leaving : State :=
  img (fun i => { i with blocks := [⟨64, 0, false, 0, [⟨.x 5, ⟨0, 5, false, false⟩, none⟩], [], [], 0⟩] })
    (thr (fun t => { t with leave := some (.goto 64) }) { here with
      passes := [(1, ⟨0, 1, 0, false, false, [(0, ⟨[0], 8, 1, [], 0, none, true⟩)]⟩)] })

theorem witness_SelectionAndWriteBack : ((waiter false).choices 0).1.isEmpty = true ∧ ((waiter false).choices 0).2.map (fun c =>
      c.team == 1 && c.off == 0 && !c.uniform && !c.resume && c.tids == [0] && c.place.launch.wdog == 0) = [true] ∧
    ((waiter true).choices 0).2.isEmpty = true ∧ ((waiter true).choices 0).1.map (fun c => c.uniform && !c.resume) = [true] ∧
    ((waiter false).passes.filter (fun e => e.2.core == 0)).length = 0 ∧
    ((one []).choices 0).1.isEmpty = true ∧ ((one []).choices 0).2.isEmpty = true ∧
    (((List.range 4).map (fun i => (i, (⟨0, 1, 0, false, false, []⟩ : Pass)))).filter (fun e => e.2.core == 0)).length = 4 ∧
    leaving.passes = [(1, ⟨0, 1, 0, false, false, [(0, ⟨[0], 8, 1, [], 0, none, true⟩)]⟩)] ∧ (leaving.thread 1 0).any (fun u => u.leave == some (.goto 64)) = true ∧
    (leaving.place 1).any (fun p => (p.image.entryAt 64).isSome) = true := by decide +kernel

/-- The bench once its thread is gone. -/
def done : State := { here with threads := [], passes := [] }

theorem witness_EndsAndWakes : (done.place 1).any (fun p => p.team.started && !p.team.ended && !p.cluster.saved && !p.launch.killed &&
      p.team.set.isEmpty) = true ∧ done.liveCount 1 = 0 ∧ done.teamBusy 1 = false ∧
    (let s := clu (fun c => { c with emptied := 1 }) (tea (fun t => { t with ended := true }) done)
     (tget s.clusters 1).any (fun c => c.teams == [1] && c.launch == 1 && c.emptied == 1 && !c.saved && c.set.isEmpty) = true ∧
       (tget s.teams 1).any (fun m => m.cluster == 1 && m.mwait == 0 && m.ended) = true ∧ (tget s.launches 1).any (fun l => !l.killed &&
         l.gx * l.gy * l.gz == l.placed && l.placed == l.released + 1 && l.compl % 32 == 0) = true ∧ s.pends.length = 0 ∧ s.copies.length = 0 ∧ s.drains = [] ∧
       completes s = true ∧ (s.devAddr 1 0).isSome = true) ∧
    ({ here with cands := [⟨0, 1, 64, false, 3, true, true⟩] } : State).cands = [⟨0, 1, 64, false, 3, true, true⟩] ∧ (here.place 1).any (·.onCores) = true ∧
    (let s := thr (fun t => { t with st := .blocked 64 (.sleep 7) }) here
     (s.thread 1 0).any (fun t => t.st == .blocked 64 (.sleep 7)) = true ∧ s.worldTime 1 < 7 ∧ (s.place 1).any (fun p => (s.slotOf p.launch).runs && !p.cluster.saved) = true ∧ s.goes 1 = true ∧ 7 ≤ ({ s with now := 7 } : State).worldTime 1) ∧
    [0, 0x100000007, 7, 0x10000000000].map (fun v => let s : State := put 0x50018 (bytesOfNat 8 v) here
      (s.hbmNat 0x50018 8 == 0, decide (s.hbmNat 0x50018 8 < 2 ^ 40))) = [(true, true), (false, true), (false, true), (false, false)] ∧
    (let s : State := put 0x50018 (bytesOfNat 8 0x100000007) { here with calls := [(4, ⟨1, 1, 0x50000, [.s 1022, .s 1023]⟩)] }
     tget s.calls 4 = some ⟨1, 1, 0x50000, [.s 1022, .s 1023]⟩ ∧ s.seals = [] ∧
       s.worlds.all (fun e => (List.finRange 16).all (fun i => !e.2.windows[i].opened)) = true ∧ 0x50000 + 32 ≤ 2 ^ 39 ∧
       (s.place 1).any (fun q => !q.cluster.saved) = true) := by decide +kernel

theorem witness_StepRunsTheDecodedWord : (let s := State.reset.withFetchWord 64 0x0004A2512894E150
    s.here.any (fun h => decide (h.group.off < h.place.image.codeLen) && s.fetched.1 && (s.keys h.place.image.world).isNone &&
      (match decode ((List.range 16).map (fun k => s.devByte h.place.image.world (h.place.image.code + h.group.off + k))) with
       | .ok (i, _) => i == .exit c64
       | _ => false))) = true ∧
    State.reset.turn = .idle ∧ ({ State.reset with turn := .event .tokenCredit } : State).turn = .event .tokenCredit ∧
    ({ State.reset with turn := .issue 1 0 } : State).fetch = none ∧ ({ State.reset with turn := .issue 1 0 } : State).fetched.1 = true := by decide +kernel

theorem witness_EncodedWordsDecode : [Instr.exit c64, .movi c96 true .i64 (.x 2) 7, .qst c128 ⟨0, true⟩ false (.s 4) .zero .zero .bx8 false false
    false 16 1023].all (fun i => i.wf && i.ctl?.isSome) = true := by decide +kernel

theorem witness_DecodedWordsEncode : decode (bytesOfNat 8 0x0004A2512894E150 ++ [1]) = .ok (.exit c64, [1]) := by decide +kernel

/-- A word with a pending source, a word of the other kind of block, and a word one place behind a producer of latency 4. -/
theorem witness_PendingAndUndersizedWords : (let s := thr (fun t => { t with pendX := 16 }) (one [])
      let i := Instr.mov c64 .b32 (.x 3) (.x 4)
      s.here.any (fun h => i.formOk h.pass.uniform && h.agents.any (fun a => (Instr.readsRegs h.pair h.pair2 i).any (fun r => s.pendBit a r)))) = true ∧
    (one []).here.any (fun h => !(Instr.publish c64 0 (.s 2)).formOk h.pass.uniform) = true ∧
    (let s : State := { lau (fun l => { l with sstall := true }) (img (fun i => { i with latrev1 := true }) (ring (one []))) with
        passes := [(1, ⟨0, 1, 0, false, false, [(0, ⟨[0], 8, 1, [⟨.x 4, 0, 4, 0⟩], 0, some 0, false⟩)]⟩)] }
      let i := Instr.mov c64 .b32 (.x 3) (.x 4)
      s.here.any (fun h => i.formOk h.pass.uniform && !h.waits i s && h.place.launch.sstall && h.place.image.latrev1 &&
        h.group.prods == [⟨.x 4, 0, 4, 0⟩] && (Instr.readsRegs h.pair h.pair2 i).contains (.x 4) && decide (h.group.dist < 0 + 4) &&
        h.taking c64 s == [.thread 1 0] && h.group.lanes == [0] && ringReady s && h.place.team.locks.isEmpty)) = true := by decide +kernel

theorem witness_OnlyRunningContextsIssue : State.reset.turnOk ∧ step State.reset = .next State.reset.after := by
  refine ⟨⟨fun _ _ h => ?_, fun _ => ⟨?_, rfl, rfl⟩⟩, rfl⟩
  · exact absurd h (by simp [State.reset])
  · unfold State.turns State.packageTurns
    generalize Config.moduleForm = m
    cases m <;> decide +kernel

end Sys2Proof.Tests
end

section
/-! PROOF. Register writes (R9): where a page's offset leads, what stands at it, and that an offset outside the lists of
R17, R371, R387, R389, R421 and R400 leads nowhere. -/

namespace Sys2Proof.Machine

/-! What one register's write leaves. -/

/-- A register that lies in a world's block is the whole of what its write changes. -/
theorem nextWith_of_setWorld {o : Host.Outcome State Fault Refusal} {s : State} {w : Nat} {f : World → World}
    (h : o = .next (s.setWorld w f)) : nextWith o (fun t => t.world w = f (s.world w) ∧ OnlyWorld w s t) :=
  ⟨_, h, s.world_setWorld w f, OnlyWorld.setWorld s w f⟩

theorem State.window_setWindow (s : State) (w : Nat) {i : Nat} (hi : i < 16) (f : Window64 → Window64) :
    (s.setWindow w i f).window w i = f (s.window w i) := by
  simp [State.setWindow, State.window, hi]

theorem OnlyWorld.setWindow (s : State) (w i : Nat) (f : Window64 → Window64) : OnlyWorld w s (s.setWindow w i f) :=
  OnlyWorld.setWorld s w _

/-- A tenant's block is the whole of what a write to it changes (R402). -/
theorem nextWith_of_setTenant {o : Host.Outcome State Fault Refusal} {s : State} {w t : Nat} {b : Tenant}
    (h : o = .next { s with tenants := tset s.tenants (w * 64 + t) b }) :
    nextWith o (fun u => u.tenant w t = b ∧ u = { s with tenants := u.tenants }) :=
  ⟨_, h, by simp [State.tenant], rfl⟩

/-! Where an offset leads. -/

theorem exec_registerWrite (page : RegPage) (off : Nat) (v : DWord) (s : State) :
    exec (.registerWrite page off v) s = execRegisterWrite page off v s := rfl

theorem writeCoupling_window (w : Nat) {i o off : Nat} (v : DWord) (s : State) (hi : i < 16) (ho : o < 0x40)
    (h : off = 0x100 + 0x40 * i + o) : writeCoupling w off v s = writeWindow w i o v s := by
  have hplace : (off - 0x100) / 0x40 = i ∧ off % 0x40 = o := by omega
  have hrange : off ≠ 0 ∧ off ≠ 8 ∧ 0x100 ≤ off ∧ off < 0x500 := by omega
  simp [writeCoupling, hplace, hrange]

/-- A window's registers in BAR0 (R387). -/
theorem exec_registerWrite_window (w : Nat) {i o off : Nat} (v : DWord) (s : State) (hi : i < 16) (ho : o < 0x40)
    (h : off = 0x1100 + 0x40 * i + o) : exec (.registerWrite (.bar0 w) off v) s = writeWindow w i o v s := by
  have hpage : ¬ off < 0x1000 ∧ off < 0x2000 := by omega
  rw [exec_registerWrite, ← writeCoupling_window w v s hi ho (off := off - 0x1000) (by omega)]
  simp [execRegisterWrite, hpage]

/-- A world's block in the control window (R400, R401). -/
theorem exec_registerWrite_world {w o off : Nat} (v : DWord) (s : State) (hw : w < 256) (ho : o < 0x40)
    (h : off = 0x40000 + 0x40 * w + o) : exec (.registerWrite .control off v) s = writeWorld w o v s := by
  have hplace : (off - 0x40000) / 0x40 = w ∧ off % 0x40 = o := by omega
  have hblock : ¬ off < 0x11000 ∧ ¬ off < 0x11200 ∧ ¬ off < 0x22000 ∧ ¬ off < 0x40000 ∧ 0x40000 ≤ off ∧ off < 0x44000 := by
    omega
  simp [exec_registerWrite, execRegisterWrite, writeControl, hplace, hblock]

/-- A tenant's block in the control window (R400, R402). -/
theorem exec_registerWrite_tenant {w t o off : Nat} (v : DWord) (s : State) (hw : w < 256) (ht : t < 64) (ho : o < 0x10)
    (h : off = 0x80000 + 0x400 * w + 0x10 * t + o) : exec (.registerWrite .control off v) s = writeTenant w t o v s := by
  have hplace : (off - 0x80000) / 0x400 = w ∧ off % 0x400 / 0x10 = t ∧ off % 0x10 = o := by omega
  have hblock : ¬ off < 0x11000 ∧ ¬ off < 0x11200 ∧ ¬ off < 0x22000 ∧ ¬ off < 0x40000 ∧ ¬ off < 0x44000 ∧
      0x80000 ≤ off ∧ off < 0xC0000 := by omega
  simp [exec_registerWrite, execRegisterWrite, writeControl, hplace, hblock]

/-! A block's offsets that are not listed. -/

theorem writeQueue_unlisted (w : Nat) {off : Nat} (v : DWord) (s : State) (h : off ∉ [0, 8, 0x10]) :
    writeQueue w off v s = .next s := by
  unfold writeQueue
  split <;> simp at h ⊢

theorem writeWindow_unlisted (w i : Nat) {off : Nat} (v : DWord) (s : State) (h : off ∉ [0, 8, 0x10, 0x18, 0x20]) :
    writeWindow w i off v s = .next s := by
  unfold writeWindow
  split <;> simp at h ⊢

theorem writeFabric_unlisted (w : Nat) {off : Nat} (v : DWord) (s : State) (h : off ∉ [0, 8]) :
    writeFabric w off v s = .next s := by
  unfold writeFabric
  split <;> simp at h ⊢

theorem writeMigration_unlisted (w : Nat) {off : Nat} (v : DWord) (s : State) (h : off ∉ [0, 8, 0x10]) :
    writeMigration w off v s = .next s := by
  unfold writeMigration
  split <;> simp at h ⊢

theorem writeSlot_unlisted (p i : Nat) {off : Nat} (v : DWord) (s : State) (h : off ∉ [0, 8, 0x10]) :
    writeSlot p i off v s = .next s := by
  unfold writeSlot
  split <;> simp at h ⊢

theorem writeWorld_unlisted (w : Nat) {off : Nat} (v : DWord) (s : State)
    (h : off ∉ [0, 8, 0x10, 0x18, 0x20, 0x28, 0x30, 0x38]) : writeWorld w off v s = .next s := by
  unfold writeWorld
  split <;> simp at h ⊢

theorem writeTenant_unlisted (w t : Nat) {off : Nat} (v : DWord) (s : State) (h : off ∉ [0, 8]) :
    writeTenant w t off v s = .next s := by
  unfold writeTenant
  split <;> simp at h ⊢

/-- The start and power page is the physical function's alone (R421). -/
theorem writePower_unlisted {w off : Nat} (v : DWord) (s : State) (h : ¬ (w = 0 ∧ off ∈ [8, 0x10, 0x18])) :
    writePower w off v s = .next s := by
  by_cases hw : w = 0
  · unfold writePower
    rw [if_neg (not_not.mpr hw)]
    split <;> simp [hw] at h ⊢
  · simp [writePower, hw]

theorem writeCoupling_unlisted (w : Nat) {off : Nat} (v : DWord) (s : State) (h : off ∉ [0, 8])
    (hw : ¬ (0x100 ≤ off ∧ off < 0x500 ∧ off % 0x40 ∈ [0, 8, 0x10, 0x18, 0x20])) : writeCoupling w off v s = .next s := by
  obtain ⟨h0, h8⟩ : off ≠ 0 ∧ off ≠ 8 := by simpa using h
  by_cases hr : 0x100 ≤ off ∧ off < 0x500
  · simpa [writeCoupling, h0, h8, hr] using writeWindow_unlisted w _ v s (fun hm => hw ⟨hr.1, hr.2, hm⟩)
  · simp [writeCoupling, h0, h8, hr]

theorem execPartitionWrite_unlisted (p : Nat) {off : Nat} (v : DWord) (s : State) (h : off ∉ [0, 8, 0x10, 0x18]) :
    execPartitionWrite p off v s = .next s := by
  have hne : off ≠ 0 ∧ off ≠ 8 ∧ off ≠ 0x10 ∧ off ≠ 0x18 := by simpa using h
  have hoff : off % 8 ≠ 0 ∨ 0x20 ≤ off := by omega
  rcases hoff with hoff | hoff <;> simp [execPartitionWrite, hoff]

/-! The whole pages. -/

/-- The registers of world w's BAR0 (R17, R371, R387, R389, R421). -/
def barListed (w off : Nat) : Prop :=
  off ∈ [0, 8, 0x10, 0x1000, 0x1008, 0x2000, 0x2008] ∨
  (0x1100 ≤ off ∧ off < 0x1500 ∧ off % 0x40 ∈ [0, 8, 0x10, 0x18, 0x20]) ∨ (w = 0 ∧ off ∈ [0x4008, 0x4010, 0x4018])

theorem exec_registerWrite_bar0_unlisted {w off : Nat} (v : DWord) (s : State) (h : ¬ barListed w off) :
    exec (.registerWrite (.bar0 w) off v) s = .next s := by
  simp only [barListed, List.mem_cons, List.not_mem_nil] at h
  rw [exec_registerWrite]
  unfold execRegisterWrite
  dsimp only
  split_ifs
  · exact writeQueue_unlisted w v s (by simp; omega)
  · exact writeCoupling_unlisted w v s (by simp; omega) (by simp; omega)
  · exact writeFabric_unlisted w v s (by simp; omega)
  · rfl
  · exact writePower_unlisted v s (by simp; omega)
  · rfl

/-- The range from lo to hi lays blocks of step bytes side by side, and off is one of the offsets l of a block. -/
def offsetIn (off lo hi step : Nat) (l : List Nat) : Prop := lo ≤ off ∧ off < hi ∧ off % step ∈ l

/-- The registers of the control window (R400). -/
def controlListed (off : Nat) : Prop :=
  offsetIn off 0x10000 0x11000 0x40 [0, 8, 0x10, 0x18] ∨ offsetIn off 0x11000 0x11200 8 [0] ∨
  offsetIn off 0x20000 0x22000 0x20 [0, 8, 0x10] ∨ offsetIn off 0x30000 0x40000 0x40 [0, 8, 0x10] ∨
  offsetIn off 0x40000 0x44000 0x40 [0, 8, 0x10, 0x18, 0x20, 0x28, 0x30, 0x38] ∨ offsetIn off 0x80000 0xC0000 0x10 [0, 8]

theorem exec_registerWrite_control_unlisted {off : Nat} (v : DWord) (s : State) (h : ¬ controlListed off) :
    exec (.registerWrite .control off v) s = .next s := by
  simp only [controlListed, offsetIn, not_or, not_and] at h
  obtain ⟨hpart, hlerr, hmig, hslot, hworld, htenant⟩ := h
  rw [exec_registerWrite]
  unfold execRegisterWrite writeControl
  dsimp only
  split_ifs with inPart inLerr lerrWrite inMig inSlot inWorld inTenant
  · exact execPartitionWrite_unlisted _ v s (hpart inPart.1 inPart.2)
  · exact absurd lerrWrite.1 (by simpa using hlerr inLerr.1 inLerr.2)
  · rfl
  · exact writeMigration_unlisted _ v s (hmig inMig.1 inMig.2)
  · exact writeSlot_unlisted _ _ v s (hslot inSlot.1 inSlot.2)
  · exact writeWorld_unlisted _ v s (hworld inWorld.1 inWorld.2)
  · exact writeTenant_unlisted _ _ v s (htenant inTenant.1 inTenant.2)
  · rfl

/-- BASE of a window that is not open (R387). -/
theorem exec_registerWrite_windowBase (w : Nat) {i : Nat} (v : DWord) (s : State) (hi : i < 16)
    (hclosed : (s.window w i).opened = false) :
    nextWith (exec (.registerWrite (.bar0 w) (0x1108 + 0x40 * i) v) s) (fun u =>
      u.window w i = { s.window w i with base := v } ∧ OnlyWorld w s u) := by
  rw [exec_registerWrite_window w (o := 8) v s hi (by omega) (by omega)]
  refine ⟨_, rfl, ?_, OnlyWorld.setWindow s w i _⟩
  simp [State.window_setWindow s w hi, hclosed]

end Sys2Proof.Machine

namespace Sys2Proof
open Machine

/-- Settles O38: each listed offset leads to its block's register, and an unlisted one to none. -/
theorem registerWrites : Obligations.RegisterWrites := by
  intro w t v off s
  exact ⟨nextWith_of_setWorld rfl, nextWith_of_setWorld rfl, nextWith_of_setWorld rfl,
    fun hw => ⟨nextWith_of_setWorld (exec_registerWrite_world (o := 8) v s hw (by omega) (by omega)),
      nextWith_of_setWorld (exec_registerWrite_world (o := 0x10) v s hw (by omega) (by omega)),
      nextWith_of_setWorld (exec_registerWrite_world (o := 0x28) v s hw (by omega) (by omega))⟩,
    fun hw ht => nextWith_of_setTenant (exec_registerWrite_tenant (o := 0) v s hw ht (by omega) (by omega)),
    fun hw ht => nextWith_of_setTenant (exec_registerWrite_tenant (o := 8) v s hw ht (by omega) (by omega)),
    fun i hi hclosed => exec_registerWrite_windowBase w v s hi hclosed,
    rfl, rfl, nextWith_of_setWorld rfl, fun hoff => if_neg hoff,
    fun h => exec_registerWrite_bar0_unlisted v s h, fun h => exec_registerWrite_control_unlisted v s h⟩

end Sys2Proof
end

section
/-! PROOF. Device memory: what a read of it depends on, what a placement in it makes of the state where no tile lies
encrypted and no window is open, and what placements, fills and the log leave alone. -/

namespace Sys2Proof.Machine

/-! What a read depends on. -/

/-- The states agree in all that a read of device memory depends on. -/
structure SameDevice (s t : State) : Prop where
  hbm : t.hbm = s.hbm
  seals : t.seals = s.seals
  devTab : t.devTab = s.devTab
  recs : t.recs = s.recs
  root : ∀ w, (t.world w).devtab = (s.world w).devtab
  key : ∀ w, (t.world w).key = (s.world w).key

namespace SameDevice

variable {s t : State}

theorem devAddr (h : SameDevice s t) (w a : Nat) : t.devAddr w a = s.devAddr w a := by
  simp only [State.devAddr, h.devTab, h.root]

theorem devRange (h : SameDevice s t) (w a n : Nat) : t.devRange w a n = s.devRange w a n := by
  simp only [State.devRange, h.devAddr]

theorem keys (h : SameDevice s t) (w : Nat) : t.keys w = s.keys w := h.key w

theorem rawByte (h : SameDevice s t) (p : Nat) : t.rawByte p = s.rawByte p := by
  simp only [State.rawByte, h.hbm, h.seals, h.keys]

theorem openByte (h : SameDevice s t) (w : Nat) (iv : Iv) (p : Nat) : t.openByte w iv p = s.openByte w iv p := by
  simp only [State.openByte, State.sealedBy, State.rawBytes, h.hbm, h.seals, h.keys, h.rawByte]
  rfl

theorem devByte (h : SameDevice s t) (w a : Nat) : t.devByte w a = s.devByte w a := by
  simp only [State.devByte, h.devAddr, h.openByte]

theorem devNat (h : SameDevice s t) (w a n : Nat) : t.devNat w a n = s.devNat w a n := by
  simp only [State.devNat, State.devBytes, h.devByte]

theorem confTile (h : SameDevice s t) (w a : Nat) : t.confTile w a = s.confTile w a := by
  simp only [State.confTile, State.readRec, h.recs, h.devNat]
  rfl

theorem devRead (h : SameDevice s t) (w a : Nat) : t.devRead w a = s.devRead w a := by
  simp only [State.devRead, State.readBy, State.ivOf, State.tileBit, h.confTile, h.devAddr, h.openByte, h.devByte]
  rfl

theorem devReads (h : SameDevice s t) (w a n : Nat) : t.devReads w a n = s.devReads w a n := by
  simp only [State.devReads, h.devRead]

theorem readNat (h : SameDevice s t) (w a n : Nat) : t.readNat w a n = s.readNat w a n := by
  simp only [State.readNat, h.devReads]

theorem paramBlock (h : SameDevice s t) (w : Nat) (b : List Byte) : t.paramBlock w b = s.paramBlock w b := by
  simp only [State.paramBlock, h.devRange, h.readNat]

theorem trans {u : State} (h : SameDevice s t) (k : SameDevice t u) : SameDevice s u :=
  ⟨k.hbm.trans h.hbm, k.seals.trans h.seals, k.devTab.trans h.devTab, k.recs.trans h.recs,
    fun w => (k.root w).trans (h.root w), fun w => (k.key w).trans (h.key w)⟩

/-- A world's own registers, but for its tables' root and its keys, are not read. -/
theorem setWorld (s : State) (w : Nat) {f : World → World} (hroot : ∀ x, (f x).devtab = x.devtab)
    (hkey : ∀ x, (f x).key = x.key) : SameDevice s (s.setWorld w f) := by
  refine ⟨rfl, rfl, rfl, rfl, fun k => ?_, fun k => ?_⟩ <;> by_cases hk : k = w
  · rw [hk, State.world_setWorld, hroot]
  · rw [State.world_setWorld_ne s f hk]
  · rw [hk, State.world_setWorld, hkey]
  · rw [State.world_setWorld_ne s f hk]

end SameDevice

/-! Addresses. -/

/-- A page's bytes lie in HBM in a row. -/
theorem devAddr_add {s : State} {w a p n : Nat} (ha : s.devAddr w a = some p) (hn : a % 2097152 + n < 2097152) :
    s.devAddr w (a + n) = some (p + n) := by
  have page : (a + n) / bigPage = a / bigPage := by unfold bigPage; omega
  have place : (a + n) % bigPage = a % bigPage + n := by unfold bigPage; omega
  simp only [State.devAddr, Option.map_eq_some_iff, page, place] at ha ⊢
  obtain ⟨f, hf, rfl⟩ := ha
  exact ⟨f, hf, by omega⟩

/-- What is mapped lies in HBM. -/
theorem devAddr_inside {s : State} {w a p : Nat} (ha : s.devAddr w a = some p) : p < hbmSize := by
  simp only [State.devAddr, Option.map_eq_some_iff, Option.filter_eq_some_iff, decide_eq_true_eq] at ha
  obtain ⟨f, ⟨-, hf⟩, rfl⟩ := ha
  have : a % bigPage < bigPage := Nat.mod_lt _ (by unfold bigPage; omega)
  omega

/-! Memory in the clear. -/

theorem logRecord_off {s : State} {w : Nat} (h : (s.world w).log = false) (kind : Nat) (b : List Byte) :
    s.logRecord w kind b = s := by simp [State.logRecord, h]

theorem logRoom_off {s : State} {w : Nat} (h : (s.world w).log = false) (n : Nat) : s.logRoom w n = true := by
  simp [State.logRoom, h]

theorem fill_clear {s : State} {w : Nat} (h : s.keys w = none) (a n : Nat) : s.fill w a n = (true, s) := by
  simp [State.fill, State.fillBy, h]

theorem captured_clear {s : State} {w : Nat} (h : s.keys w = none) (a n : Nat) (f : State → State) :
    s.captured w a n f = .next (f s) := by
  simp [State.captured, fill_clear h]

theorem histCopy_closed {s : State} {w : Nat} (h : s.windowsClosed w) (a : Nat) : s.histCopy w a = s := by
  have none : (s.world w).windows.any (fun x => x.opened) = false := by
    rw [Vector.any_eq_false]
    intro i hi
    simpa using h ⟨i, hi⟩
  simp [State.histCopy, none]

theorem devRaw_unsealed {s : State} {w a p : Nat} (hu : s.unsealed w) (ha : s.devAddr w a = some p) (b : Byte) :
    s.devRaw w a b = { s with hbm := s.hbm.write p b } := by
  obtain ⟨hk, hs⟩ := hu
  have fills (iv : Iv) : s.fillTile w iv p = (true, s) := by simp [State.fillTile, hk]
  have takes (iv : Iv) : s.takeTile w iv p = s := by simp [State.takeTile, hk, hs, tget]
  simp [State.devRaw, State.devPut, ha, fills, takes]

/-- A placement writes its byte, and a line the host may hold is asked back (R385). -/
theorem devPoke_clear {s : State} {w a p : Nat} (hu : s.unsealed w) (hc : s.windowsClosed w) (ha : s.devAddr w a = some p)
    (b : Byte) : ∃ l o, s.devPoke w a b = { s with hbm := s.hbm.write p b, shared := l, outbox := o } := by
  rw [State.devPoke, histCopy_closed hc, State.devLay, devRaw_unsealed hu ha]
  dsimp only
  split <;> exact ⟨_, _, rfl⟩

theorem devPokes_clear {s : State} {w a p : Nat} {b : List Byte} (hu : s.unsealed w) (hc : s.windowsClosed w)
    (ha : s.devAddr w a = some p) (hb : a % 2097152 + b.length ≤ 2097152) :
    ∃ l o, s.devPokes w a b = { s with hbm := s.hbm.writeN p b, shared := l, outbox := o } := by
  induction b generalizing s a p with
  | nil => exact ⟨_, _, rfl⟩
  | cons c b ih =>
    simp only [List.length_cons] at hb
    obtain ⟨l, o, hpoke⟩ := devPoke_clear hu hc ha c
    rw [State.devPokes, hpoke]
    cases b with
    | nil => exact ⟨l, o, rfl⟩
    | cons d b =>
      simp only [List.length_cons] at hb
      have next : s.devAddr w (a + 1) = some (p + 1) := devAddr_add ha (by omega)
      exact ih (s := { s with hbm := s.hbm.write p c, shared := l, outbox := o }) hu hc next
        (by simp only [List.length_cons]; omega)

theorem devByte_unsealed {s : State} {w a p : Nat} (hu : s.unsealed w) (ha : s.devAddr w a = some p) :
    s.devByte w a = s.hbm.read p := by
  obtain ⟨hk, hs⟩ := hu
  have inside : ¬ hbmSize ≤ p := not_le.mpr (devAddr_inside ha)
  simp [State.devByte, ha, State.openByte, hk, State.rawByte, hs, inside, tget]

/-- With nothing encrypted, the device's own writes come to lie as they are. -/
theorem rawWrites_unsealed {s : State} (hs : s.seals = []) {p : Nat} {b : List Byte} (hp : p + b.length ≤ hbmSize) :
    s.rawWrites p b = { s with hbm := s.hbm.writeN p b } := by
  induction b generalizing s p with
  | nil => rfl
  | cons c b ih =>
    simp only [List.length_cons] at hp
    have inside : ¬ hbmSize ≤ p := by omega
    have bare : (tget s.seals (p / 512)).isNone = true := by simp [hs, tget]
    rw [State.rawWrites, if_neg inside]
    simp only [bare, if_true]
    exact ih (s := { s with hbm := s.hbm.write p c }) hs (by omega)

theorem shownAt_closed {s : State} {w : Nat} (h : s.windowsClosed w) (p : Nat) : s.shownAt w p = [] := by
  have none : (s.world w).windows.toList.filter (fun x => x.opened) = [] := by
    rw [List.filter_eq_nil_iff]
    intro x hx
    obtain ⟨i, hi, rfl⟩ := Vector.mem_iff_getElem.mp (Vector.mem_toList_iff.mp hx)
    simpa using h ⟨i, hi⟩
  simp [State.shownAt, none]

/-- With no window open, they copy nothing to a history. -/
theorem ownRaws_clear {s : State} (hc : ∀ w, s.windowsClosed w) (hs : s.seals = []) {p : Nat} {b : List Byte}
    (hp : p + b.length ≤ hbmSize) : s.ownRaws p b = { s with hbm := s.hbm.writeN p b } := by
  induction b generalizing s p with
  | nil => rfl
  | cons c b ih =>
    simp only [List.length_cons] at hp
    have copies : s.worlds.foldl (fun s e => (s.shownAt e.1 p).foldl (fun s a => s.histCopy e.1 a) s) s = s :=
      List.foldlRecOn s.worlds _ (motive := fun u => u = s) rfl
        (fun u hu e _ => by rw [hu, shownAt_closed (hc e.1)]; rfl)
    rw [State.ownRaws, copies, rawWrites_unsealed hs (by simpa using (by omega : p + 1 ≤ hbmSize))]
    exact ih (s := { s with hbm := s.hbm.writeN p [c] }) hc hs (by omega)

end Sys2Proof.Machine
end

section
/-! PROOF. What the device's own writing leaves alone: fills, placements, the log, and records as they arise or wait. -/

namespace Sys2Proof.Machine

/-- From s to t, no more has changed than what fills of tiles and placements change (R323, R388, R412, R414), records and
the log (R20, R417), and launches: HBM with its seals, worlds, the slots of a world that goes dark, the lines the host may
hold, launches, records that wait, what has been said, and the counters of free values and of names. -/
def PlacesOnly (s t : State) : Prop :=
  t = { s with
    free := t.free, nextId := t.nextId, hbm := t.hbm, seals := t.seals, worlds := t.worlds, slots := t.slots
    shared := t.shared, launches := t.launches, dues := t.dues, outbox := t.outbox }

namespace PlacesOnly

theorem refl (s : State) : PlacesOnly s s := rfl

theorem trans {s t u : State} (h : PlacesOnly s t) (k : PlacesOnly t u) : PlacesOnly s u := by
  unfold PlacesOnly at *
  rw [k, h]

section Rest

variable {s t : State} (h : PlacesOnly s t)
include h

theorem threads : t.threads = s.threads := by rw [h]

theorem teams : t.teams = s.teams := by rw [h]

theorem clusters : t.clusters = s.clusters := by rw [h]

theorem hostMem : t.hostMem = s.hostMem := by rw [h]

end Rest

theorem foldl {α : Type} {f : State → α → State} (hf : ∀ s x, PlacesOnly s (f s x)) (l : List α) (s : State) :
    PlacesOnly s (l.foldl f s) :=
  List.foldlRecOn l f (motive := PlacesOnly s) (refl s) (fun _ h x _ => h.trans (hf _ x))

theorem setWorld (s : State) (w : Nat) (f : World → World) : PlacesOnly s (s.setWorld w f) := rfl

theorem startDark (s : State) (w cause : Nat) : PlacesOnly s (s.startDark w cause) := by
  unfold State.startDark
  dsimp only
  split <;> rfl

theorem takeTile (s : State) (w : Nat) (iv : Iv) (p : Nat) : PlacesOnly s (s.takeTile w iv p) := by
  unfold State.takeTile
  dsimp only
  split <;> split <;> rfl

theorem tagFits (s : State) (k : WorldKeys) (w : Nat) (iv : Iv) (p : Nat) : PlacesOnly s (s.tagFits k w iv p).2 := by
  unfold State.tagFits
  dsimp only
  split
  · rfl
  · split <;> rfl
  · rfl
  · rfl

theorem foundWrong (s : State) (w : Nat) (iv : Iv) (p : Nat) : PlacesOnly s (s.foundWrong w iv p) := by
  unfold State.foundWrong
  split <;> rfl

theorem fillTile (s : State) (w : Nat) (iv : Iv) (p : Nat) : PlacesOnly s (s.fillTile w iv p).2 := by
  unfold State.fillTile
  split
  · rfl
  · next k _ =>
    split
    · rfl
    · have tags := tagFits s k w iv p
      split
      · next u hu => rw [hu] at tags; exact tags.trans (takeTile u w iv p)
      · next u hu => rw [hu] at tags; exact tags.trans ((foundWrong u w iv p).trans (startDark _ w 2))

theorem fill (s : State) (w a n : Nat) : PlacesOnly s (s.fill w a n).2 := by
  unfold State.fill State.fillBy
  split
  · rfl
  · refine List.foldlRecOn _ _ (motive := fun (e : Bool × State) => PlacesOnly s e.2) (refl s) (fun e he i _ => ?_)
    dsimp only
    split
    · split
      · exact he.trans (fillTile ..)
      · exact he
    · exact he

theorem devPut (s : State) (w : Nat) (iv : Iv) (full : Bool) (a : Nat) (b : Byte) : PlacesOnly s (s.devPut w iv full a b) := by
  have writes (s : State) (p : Nat) :
      PlacesOnly s { s.takeTile w iv p with hbm := (s.takeTile w iv p).hbm.write p b } :=
    (takeTile s w iv p).trans rfl
  unfold State.devPut
  split
  · next p _ =>
    cases full
    · exact writes s p
    · have tags := fillTile s w iv p
      simp only [if_true]
      split
      · next u hu => rw [hu] at tags; exact tags.trans (writes u p)
      · next u hu => rw [hu] at tags; exact tags
  · rfl

theorem devLay (s : State) (w a : Nat) (b : Byte) : PlacesOnly s (s.devLay w a b) := by
  have lays : PlacesOnly s (s.devRaw w a b) := devPut ..
  unfold State.devLay
  dsimp only
  split
  · exact lays.trans rfl
  · exact lays

theorem devLays (s : State) (w a : Nat) (b : List Byte) : PlacesOnly s (s.devLays w a b) := by
  induction b generalizing s a with
  | nil => rfl
  | cons c b ih => exact (devLay s w a c).trans (ih ..)

theorem histCopy (s : State) (w a : Nat) : PlacesOnly s (s.histCopy w a) := by
  unfold State.histCopy
  split
  · refine foldl (fun s i => ?_) _ s
    dsimp only
    split
    · have fills := fill s w ((((s.world w).windows[i]?).getD Window64.reset).base.toNat +
        512 * ((a - (((s.world w).windows[i]?).getD Window64.reset).base.toNat) / 512)) 512
      split
      · next u hu => rw [hu] at fills; exact fills.trans ((devLays ..).trans (setWorld ..))
      · next u hu => rw [hu] at fills; exact fills
    · rfl
  · rfl

theorem devPokes (s : State) (w a : Nat) (b : List Byte) : PlacesOnly s (s.devPokes w a b) := by
  induction b generalizing s a with
  | nil => rfl
  | cons c b ih => exact ((histCopy s w a).trans (devLay ..)).trans (ih ..)

theorem rawWrites (s : State) (p : Nat) (b : List Byte) : PlacesOnly s (s.rawWrites p b) := by
  induction b generalizing s p with
  | nil => rfl
  | cons c b ih =>
    unfold State.rawWrites
    split
    · rfl
    · refine trans ?_ (ih ..)
      split <;> rfl

theorem ownRaws (s : State) (p : Nat) (b : List Byte) : PlacesOnly s (s.ownRaws p b) := by
  induction b generalizing s p with
  | nil => rfl
  | cons c b ih =>
    rw [State.ownRaws]
    refine trans ?_ (trans (rawWrites _ p [c]) (ih ..))
    exact foldl (fun s (e : Nat × World) => foldl (fun s a => histCopy s e.1 a) (s.shownAt e.1 p) s) s.worlds s

theorem logUnit (s : State) (w : Nat) (b : List Byte) : PlacesOnly s (s.logUnit w b) := by
  unfold State.logUnit
  dsimp only
  split
  · rfl
  · exact (ownRaws ..).trans (setWorld ..)

theorem logRecord (s : State) (w kind : Nat) (b : List Byte) : PlacesOnly s (s.logRecord w kind b) := by
  unfold State.logRecord
  split
  · rfl
  · exact (logUnit ..).trans (foldl (fun s i => logUnit ..) _ _)

theorem statusLast (s : State) (w a : Nat) (b : List Byte) : PlacesOnly s (s.statusLast w a b) :=
  (devPokes ..).trans (devPokes ..)

theorem recordTime (s : State) (w : Nat) : PlacesOnly s (s.recordTime w).2 := by
  unfold State.recordTime
  split <;> rfl

theorem writeOwn (s : State) (w : Nat) (r : OwnRecord) : PlacesOnly s (s.writeOwn w r) := by
  cases r with
  | completion a head tail => exact (recordTime s w).trans ((statusLast ..).trans (logRecord ..))
  | verdict a b => exact statusLast ..
  | trap b =>
    simp only [State.writeOwn]
    split
    · exact setWorld ..
    · exact (devPokes ..).trans (setWorld ..)

theorem queueWriter (s : State) (w : Nat) (who : Writer) : PlacesOnly s (s.queueWriter w who) := by
  unfold State.queueWriter
  split <;> rfl

theorem own (s : State) (w : Nat) (r : OwnRecord) : PlacesOnly s (s.own w r) := by
  unfold State.own State.queueOwn
  dsimp only
  split
  · exact writeOwn ..
  · split
    · exact trans (t := { s with nextId := s.nextId + 1, dues := s.dues ++ [(s.nextId, ⟨w, r⟩)] }) rfl (queueWriter ..)
    · rfl

theorem report (s : State) (id status : Nat) : PlacesOnly s (s.report id status) := by
  unfold State.report
  split
  · rfl
  · exact own ..

theorem finishLaunch (s : State) (id status : Nat) : PlacesOnly s (s.finishLaunch id status) :=
  (report s id status).trans rfl

theorem checkLaunch (s : State) (id : Nat) : PlacesOnly s (s.checkLaunch id) := by
  unfold State.checkLaunch
  split
  · rfl
  · dsimp only
    split
    · exact finishLaunch ..
    · split
      · rfl
      · split
        · exact finishLaunch ..
        · split
          · exact finishLaunch ..
          · rfl

end PlacesOnly

end Sys2Proof.Machine
end

section
/-! PROOF. Notify writes (R17, R18, R41, R105) and inbound launch requests (R393): what a write that is refused sets, and
what a captured record enters. -/

namespace Sys2Proof.Machine

/-! Tables and bytes. -/

theorem tget_append_new {α : Type} {l : Table α} {k : Nat} (h : tget l k = none) (a : α) :
    tget (l ++ [(k, a)]) k = some a := by
  induction l with
  | nil => simp [tget]
  | cons e l ih =>
    obtain ⟨j, b⟩ := e
    by_cases hj : j = k
    · simp [tget, hj] at h
    · simp only [tget, hj, if_false] at h
      simp [tget, hj, ih h]

theorem tset_append_new {α : Type} {l : Table α} {k : Nat} (h : tget l k = none) (a b : α) :
    tset (l ++ [(k, a)]) k b = l ++ [(k, b)] := by
  induction l with
  | nil => simp [tset]
  | cons e l ih =>
    obtain ⟨j, c⟩ := e
    by_cases hj : j = k
    · simp [tget, hj] at h
    · simp only [tget, hj, if_false] at h
      simp [tset, hj, ih h]

/-- Byte 1 of a packet is bits [15:8] of its first doubleword (R6). -/
theorem natAt_byte1 (b : List Byte) : bitsOf (natAt b 0 8) 15 8 = natAt b 1 1 := by
  match b with
  | [] => rfl
  | [x] =>
    have := x.isLt
    simp [natAt, natOfBytes, bitsOf]
    omega
  | x :: y :: r =>
    have := x.isLt
    have := y.isLt
    simp [natAt, natOfBytes, bitsOf]
    omega

/-! Notify writes. -/

/-- A dark world takes none (R409). -/
theorem execAdmNotify_dark {w : Nat} {a : DWord} {s : State} (ht : (s.world w).takes = false) :
    execAdmNotify w a s = .next s := by simp [execAdmNotify, ht]

theorem execLqNotify_dark {w : Nat} {a : DWord} {s : State} (ht : (s.world w).takes = false) :
    execLqNotify w a s = .next s := by simp [execLqNotify, ht]

theorem execAdmNotify_badAddress {w : Nat} {a : DWord} {s : State} (ht : (s.world w).takes = true)
    (hbad : a.toNat % 32 ≠ 0 ∨ s.devRange w a.toNat 32 = false) :
    execAdmNotify w a s = .next (s.setWorld w (fun x => { x with admNotify := a, qerr := x.qerr ||| 1 })) := by
  unfold execAdmNotify
  dsimp only
  rw [if_neg (by simp [ht]), if_pos (by simpa using hbad), State.qerrBit, State.setWorld_setWorld]
  rfl

theorem execLqNotify_badAddress {w : Nat} {a : DWord} {s : State} (ht : (s.world w).takes = true)
    (hbad : a.toNat % 64 ≠ 0 ∨ s.devRange w a.toNat 64 = false) :
    execLqNotify w a s = .next (s.setWorld w (fun x => { x with lqNotify := a, qerr := x.qerr ||| 4 })) := by
  unfold execLqNotify
  dsimp only
  rw [if_neg (by simp [ht]), if_pos (by simpa using hbad), State.qerrBit, State.setWorld_setWorld]
  rfl

theorem execAdmNotify_full {w : Nat} {a : DWord} {s : State} (ht : (s.world w).takes = true) (ha : a.toNat % 32 = 0)
    (hr : s.devRange w a.toNat 32 = true) (hfull : 8 ≤ (s.subs.filter (fun e => e.world == w)).length) :
    execAdmNotify w a s = .next (s.setWorld w (fun x => { x with admNotify := a, qerr := x.qerr ||| 2 })) := by
  unfold execAdmNotify
  dsimp only
  rw [if_neg (by simp [ht]), if_neg (by simp [ha, hr]), if_pos hfull, State.qerrBit, State.setWorld_setWorld]
  rfl

theorem execLqNotify_full {w : Nat} {a : DWord} {s : State} (ht : (s.world w).takes = true) (ha : a.toNat % 64 = 0)
    (hr : s.devRange w a.toNat 64 = true) (hfull : 64 ≤ s.queued w) :
    execLqNotify w a s = .next (s.setWorld w (fun x => { x with lqNotify := a, qerr := x.qerr ||| 8 })) := by
  unfold execLqNotify
  dsimp only
  rw [if_neg (by simp [ht]), if_neg (by simp [ha, hr]), if_pos hfull, State.qerrBit, State.setWorld_setWorld]
  rfl

/-- Where its queue has room, and nothing makes it wait, a notify write captures what memory in the clear holds. -/
theorem execAdmNotify_captures {w : Nat} {a : DWord} {s : State} (ht : (s.world w).takes = true) (ha : a.toNat % 32 = 0)
    (hr : s.devRange w a.toNat 32 = true) (hroom : (s.subs.filter (fun e => e.world == w)).length < 8)
    (hclaim : s.claimedRange w a.toNat 32 = false) (hlog : (s.world w).log = false) (hkeys : s.keys w = none) :
    let t := s.setWorld w (fun x => { x with admNotify := a })
    execAdmNotify w a s = .next (t.captureSubmission w (s.devReads w a.toNat 32)) := by
  intro t
  have same : SameDevice s t := SameDevice.setWorld s w (fun _ => rfl) (fun _ => rfl)
  have tlog : (t.world w).log = false := by simpa [t] using hlog
  unfold execAdmNotify
  dsimp only
  rw [if_neg (by simp [ht]), if_neg (by simp [ha, hr]), if_neg (by omega), if_neg (by simp [hclaim, logRoom_off hlog]),
    captured_clear ((same.keys w).trans hkeys), logRecord_off tlog, same.devReads]

theorem execLqNotify_captures {w : Nat} {a : DWord} {s : State} (ht : (s.world w).takes = true) (ha : a.toNat % 64 = 0)
    (hr : s.devRange w a.toNat 64 = true) (hroom : s.queued w < 64)
    (hclaim : s.claimedRange w a.toNat 64 = false) (hlog : (s.world w).log = false) (hkeys : s.keys w = none) :
    let t := s.setWorld w (fun x => { x with lqNotify := a })
    execLqNotify w a s = .next (t.captureLaunch w (s.devReads w a.toNat 64) none 2) := by
  intro t
  have same : SameDevice s t := SameDevice.setWorld s w (fun _ => rfl) (fun _ => rfl)
  unfold execLqNotify
  dsimp only
  rw [if_neg (by simp [ht]), if_neg (by simp [ha, hr]), if_neg (by omega), if_neg (by simp [hclaim, logRoom_off hlog]),
    captured_clear ((same.keys w).trans hkeys), same.devReads]

/-! What is captured. -/

/-- A submission record in order enters the queue, and its image is under admission (R105). -/
theorem captureSubmission_enters {s : State} {w : Nat} {b : List Byte} (hv : natAt b 16 8 % 64 = 0)
    (hvr : s.devRange w (natAt b 16 8) 64 = true) (hd : natAt b 8 8 < 2 ^ 38) (hz : natAt b 24 8 = 0)
    (hb : natAt b 0 8 % 65536 = 0) (hr : s.devRange w (natAt b 0 8) (natAt b 8 8 % 2 ^ 32) = true)
    (hclash : s.imageClash w (natAt b 0 8) (natAt b 8 8 % 2 ^ 32) = false) :
    let id := BitVec.ofNat 32 (s.readNat w (natAt b 0 8 + 8) 4)
    let tenant := natAt b 8 8 / 2 ^ 32
    s.idHeld w tenant id = false → s.captureSubmission w b = { s with
      nextId := s.nextId + 1
      images := s.images ++ [(s.nextId, Image.submitted w tenant id (natAt b 0 8) (natAt b 8 8 % 2 ^ 32) (natAt b 16 8))]
      subs := s.subs ++ [⟨w, natAt b 0 8, natAt b 8 8 % 2 ^ 32, natAt b 16 8, tenant, id, s.nextId⟩] } := by
  intro id tenant hid
  have htenant : bitsOf (natAt b 8 8) 39 32 = tenant := by simp only [bitsOf, tenant]; omega
  have hsmall : tenant ≤ 63 := by omega
  have htop : natAt b 8 8 < 1099511627776 := by omega
  unfold State.captureSubmission
  dsimp only
  generalize natAt b 8 8 % 2 ^ 32 = len at hr hclash ⊢
  rw [htenant, if_neg (by simp [hv, hvr]), if_neg (by simp [htop, hz, hsmall, hb, hr, hclash]),
    if_neg (by simpa [id] using hid)]

/-- A launch whose image is under admission is held (R41, R42). -/
theorem checkLaunch_holds {s : State} {id : Nat} {l : Launch} {i : Image} (hl : tget s.launches id = some l)
    (hi : s.imageNamed l = some i) (hs : i.state = .submitted) :
    s.checkLaunch id = { s with
      launches := tset s.launches id { l with part := (s.world l.world).part, state := .held } } := by
  have named : s.imageNamed { l with part := (s.world l.world).part } = some i := hi
  simp [State.checkLaunch, hl, named, hs]

/-- The parameter block of a packet, as far as there is one that can be read (R38). -/
def State.paramBytes (s : State) (w : Nat) (b : List Byte) : List Byte :=
  match s.paramBlock w b with | some (pa, n) => s.devReads w pa n | none => []

/-- What a packet says (R36 to R38), its tenant by its own byte. -/
def State.packet (s : State) (w : Nat) (b : List Byte) : Launch × Bool :=
  readPacket w b (natAt b 1 1) (s.paramBytes w b) (s.paramBlock w b).isSome s.now

theorem SameDevice.packet {s t : State} (h : SameDevice s t) (hnow : t.now = s.now) (w : Nat) (b : List Byte) :
    t.packet w b = s.packet w b := by
  have bytes : t.paramBytes w b = s.paramBytes w b := by simp only [State.paramBytes, h.paramBlock, h.devReads]
  rw [State.packet, State.packet, bytes, h.paramBlock, hnow]

/-- A packet in order enters its world's launch queue, and is checked (R18, R42). -/
theorem captureLaunch_enters {s : State} {w kind : Nat} {b : List Byte} {l : Launch} (hkeys : s.keys w = none)
    (hlog : (s.world w).log = false) (hp : s.packet w b = (l, true)) (hal : l.compl % 32 = 0)
    (hr : s.devRange w l.compl 32 = true) :
    s.captureLaunch w b none kind = State.checkLaunch { s with
      nextId := s.nextId + 1
      launches := s.launches ++ [(s.nextId, { l with part := (s.world w).part })] } s.nextId := by
  have hread : readPacket w b (bitsOf (natAt b 0 8) 15 8) (s.paramBytes w b) (s.paramBlock w b).isSome s.now = (l, true) := by
    rw [natAt_byte1]; exact hp
  unfold State.captureLaunch
  dsimp only [Option.getD_none]
  split
  · next u hu => split at hu <;> simp [fill_clear hkeys] at hu
  · next u hu =>
    obtain rfl : s = u := by split at hu <;> simpa [fill_clear hkeys] using hu
    generalize hq : readPacket w b _ _ _ _ = q
    obtain rfl : (l, true) = q := hread.symm.trans hq
    simp [logRecord_off hlog, hal, hr]

/-- It is held while its image is under admission (R41). -/
theorem captureLaunch_holds {s : State} {w kind : Nat} {b : List Byte} {l : Launch} {i : Image} (hkeys : s.keys w = none)
    (hlog : (s.world w).log = false) (hp : s.packet w b = (l, true)) (hal : l.compl % 32 = 0)
    (hr : s.devRange w l.compl 32 = true) (hid : tget s.launches s.nextId = none) (hi : s.imageNamed l = some i)
    (hs : i.state = .submitted) :
    s.captureLaunch w b none kind = { s with
      nextId := s.nextId + 1
      launches := s.launches ++ [(s.nextId, { l with part := (s.world w).part, state := .held })] } := by
  obtain rfl : l.world = w := congrArg (fun e => e.1.world) hp.symm
  have held := checkLaunch_holds (tget_append_new hid { l with part := (s.world l.world).part }) hi hs (s := { s with
    nextId := s.nextId + 1, launches := s.launches ++ [(s.nextId, { l with part := (s.world l.world).part })] })
  rw [captureLaunch_enters hkeys hlog hp hal hr, held, tset_append_new hid]
  rfl

theorem PlacesOnly.captureLaunch (s : State) (w : Nat) (b : List Byte) (tenant : Option Nat) (kind : Nat) :
    PlacesOnly s (s.captureLaunch w b tenant kind) := by
  have filled {e : Bool × State}
      (h : (match s.paramBlock w b with | some (pa, n) => s.fill w pa n | none => (true, s)) = e) : PlacesOnly s e.2 := by
    rw [← h]
    split
    · exact fill ..
    · exact refl s
  unfold State.captureLaunch
  dsimp only
  split
  · next u hu => exact filled hu
  · next u hu =>
    refine (filled hu).trans ?_
    generalize readPacket w b _ _ _ _ = q
    generalize hv : u.logRecord w kind _ = v
    have logged : PlacesOnly u v := hv ▸ logRecord ..
    refine logged.trans ?_
    split
    · exact refl v
    · split
      · refine trans ?_ (finishLaunch ..)
        rfl
      · refine trans ?_ (checkLaunch ..)
        rfl

theorem queued_enters (s : State) {l : Launch} {w : Nat} (hw : l.world = w) (hl : l.state = .held) (k : Nat) :
    State.queued { s with launches := s.launches ++ [(k, l)] } w = s.queued w + 1 := by
  simp [State.queued, hw, hl]

/-! Requests from the fabric (R393). -/

section Inbound

variable {node sw st w tenant : Nat} {packet : List Byte} {s : State}

/-- The sender is one that the tenant's table lets in, and the world is not dark. -/
def State.letsIn (s : State) (node sw st w tenant : Nat) (packet : List Byte) : Prop :=
  (s.world w).takes = true ∧ s.inboundOk node sw st w tenant packet = true

theorem execInbound_stranger (h : ¬ s.letsIn node sw st w tenant packet) :
    execInboundLaunchRequest node sw st w tenant packet s = .next (s.say (.launchAnswer node sw st 2)) := by
  have stranger : (!(s.world w).takes || !s.inboundOk node sw st w tenant packet) = true := by
    simpa [State.letsIn, imp_iff_not_or] using h
  simp only [execInboundLaunchRequest, stranger, if_true]

variable (h : s.letsIn node sw st w tenant packet)
include h

theorem execInbound_noPacket (hp : natAt packet 0 1 ≠ 1) :
    execInboundLaunchRequest node sw st w tenant packet s = .next (s.say (.launchAnswer node sw st 3)) := by
  simp [execInboundLaunchRequest, h.1, h.2, hp]

theorem execInbound_full (hp : natAt packet 0 1 = 1) (hq : 64 ≤ s.queued w) :
    execInboundLaunchRequest node sw st w tenant packet s = .next (s.say (.launchAnswer node sw st 1)) := by
  simp [execInboundLaunchRequest, h.1, h.2, hp, hq]

theorem execInbound_captures (hp : natAt packet 0 1 = 1) (hq : s.queued w < 64) (hlog : (s.world w).log = false) :
    execInboundLaunchRequest node sw st w tenant packet s =
      .next ((s.captureLaunch w (packet.take 64) none 4).say (.launchAnswer node sw st 0)) := by
  simp [execInboundLaunchRequest, h.1, h.2, hp, not_le.mpr hq, logRoom_off hlog]

end Inbound

end Sys2Proof.Machine

namespace Sys2Proof
open Machine

/-- Settles O47: each way a write or a request is refused or captured, by the lemma that says what it does. -/
theorem queueWrites : Obligations.QueueWrites := by
  intro w a node sw st tenant packet s
  refine ⟨fun ht => ⟨execAdmNotify_dark ht, execLqNotify_dark ht⟩,
    fun ht hbad => nextWith_of_setWorld (execAdmNotify_badAddress ht hbad),
    fun ht hbad => nextWith_of_setWorld (execLqNotify_badAddress ht hbad),
    fun ht ha hr hfull => nextWith_of_setWorld (execAdmNotify_full ht ha hr hfull),
    fun ht ha hr hfull => nextWith_of_setWorld (execLqNotify_full ht ha hr hfull), ?_, ?_, ?_⟩
  · intro base d verdict id ht ha hr hroom hclaim hlog hkeys hv hvr hd hz hb hlen hclash hid
    let t := s.setWorld w (fun x => { x with admNotify := a })
    have same : SameDevice s t := SameDevice.setWorld s w (fun _ => rfl) (fun _ => rfl)
    have tworld : t.world w = { s.world w with admNotify := a } := State.world_setWorld ..
    have enters := captureSubmission_enters hv ((same.devRange ..).trans hvr) hd hz hb ((same.devRange ..).trans hlen) hclash
    rw [same.readNat] at enters
    refine ⟨_, (execAdmNotify_captures ht ha hr hroom hclaim hlog hkeys).trans (congrArg _ (enters hid)), rfl, ?_, rfl, rfl⟩
    exact congrArg World.admNotify tworld
  · intro at2 block p ht ha hr hroom hclaim hlog hkeys hok hal hcr hid ⟨i, hi, hs⟩
    let t := s.setWorld w (fun x => { x with lqNotify := a })
    have same : SameDevice s t := SameDevice.setWorld s w (fun _ => rfl) (fun _ => rfl)
    have tworld : t.world w = { s.world w with lqNotify := a } := State.world_setWorld ..
    have packet : t.packet w (s.devReads w a.toNat 64) = (p.1, true) :=
      (same.packet rfl ..).trans (Prod.ext rfl hok)
    have holds := captureLaunch_holds (kind := 2) ((same.keys w).trans hkeys) (by rw [tworld]; exact hlog) packet hal
      ((same.devRange ..).trans hcr) hid hi hs
    refine ⟨_, (execLqNotify_captures ht ha hr hroom hclaim hlog hkeys).trans (congrArg _ holds), rfl, ?_, ?_, ?_⟩
    · exact congrArg World.lqNotify tworld
    · rw [tworld]; rfl
    · exact queued_enters t (l := { p.1 with part := (t.world w).part, state := .held }) rfl rfl _
  · refine ⟨fun h => execInbound_stranger h, fun h hp => execInbound_noPacket h hp,
      fun h hp hq => execInbound_full h hp hq, fun h hp hq hlog => ⟨_, execInbound_captures h hp hq hlog, ?_⟩⟩
    have places := PlacesOnly.captureLaunch s w (packet.take 64) none 4
    exact ⟨by simp [State.say], places.threads, places.hostMem⟩

end Sys2Proof
end

section
/-! PROOF. Teams end and clusters leave (R22, R43, R163, R339): what is given up with them, and the completion record of a
launch's last cluster. -/

namespace Sys2Proof.Machine

/-! What the releases leave alone. -/

/-- Free octets that move change partitions' blocks alone (R356). -/
theorem moveOctets_parts (s : State) : s.moveOctets = { s with parts := s.moveOctets.parts } := by
  refine List.foldlRecOn s.parts _ (motive := fun (t : State) => t = { s with parts := t.parts }) rfl (fun t ht e _ => ?_)
  refine List.foldlRecOn e.2.marks _ (motive := fun (t : State) => t = { s with parts := t.parts }) ht (fun t ht m _ => ?_)
  dsimp only
  split
  · rw [ht]; rfl
  · split
    · exact ht
    · rw [ht]; rfl

section
variable (s : State)

@[simp] theorem State.moveOctets_hbm : s.moveOctets.hbm = s.hbm := by rw [moveOctets_parts]
@[simp] theorem State.moveOctets_hostMem : s.moveOctets.hostMem = s.hostMem := by rw [moveOctets_parts]
@[simp] theorem State.moveOctets_teams : s.moveOctets.teams = s.teams := by rw [moveOctets_parts]
@[simp] theorem State.moveOctets_waves : s.moveOctets.waves = s.waves := by rw [moveOctets_parts]
@[simp] theorem State.moveOctets_clusters : s.moveOctets.clusters = s.clusters := by rw [moveOctets_parts]
@[simp] theorem State.moveOctets_launches : s.moveOctets.launches = s.launches := by rw [moveOctets_parts]

end

/-- A place whose team has changed, but not in what it belongs to. -/
theorem place_modTeam {s : State} {team : Nat} {p : Place} {f : Team → Team} (hp : s.place team = some p)
    (hc : (f p.team).cluster = p.team.cluster) (hl : (f p.team).launch = p.team.launch) :
    (s.modTeam team f).place team = some { p with team := f p.team } := by
  obtain ⟨ht, hcl, hla, him⟩ := place_spec hp
  have him' : (s.modTeam team f).imageOf p.launch = some p.image := him
  have ht' : tget (s.modTeam team f).teams team = some (f p.team) := by simp [State.modTeam, ht]
  simp [State.place, ht', hc, hl, hcl, hla, him']

/-- COMMIT.t of an empty set (R188). -/
theorem commitT_empty {s : State} {team : Nat} {p : Place} (hp : s.place team = some p) (hset : p.team.set = []) (off : Nat) :
    s.commitT team off = (s.modCluster p.team.cluster (fun c => { c with set := p.cluster.set })).modTeam team
      (fun t => { t with set := [] }) := by
  simp [State.commitT, hp, hset, conflict]

/-- A team's reservation is given up, with the values of its banks and of its range of the weight buffer (R341, R366). -/
theorem releaseMatrix_rest (s : State) (p : Place) (team : Nat) :
    let t := s.releaseMatrix p team
    t = { s with accs := t.accs, accSaved := t.accSaved, accOwner := t.accOwner, wbufs := t.wbufs, teams := t.teams } := by
  intro t
  unfold t State.releaseMatrix
  split
  · rfl
  · dsimp only
    generalize hu : List.foldl _ s _ = u
    have banks : u = { s with accs := u.accs, accSaved := u.accSaved, accOwner := u.accOwner } := by
      rw [← hu]
      refine List.foldlRecOn _ _ (motive := fun (t : State) =>
        t = { s with accs := t.accs, accSaved := t.accSaved, accOwner := t.accOwner }) rfl (fun t ht i _ => ?_)
      split <;> rw [ht]
    rw [banks]
    rfl

theorem releaseMatrix_team (s : State) {p : Place} {team : Nat} {b : Bool}
    (h : (tget s.teams team).map (fun m => (m.ended, m.mres)) = some (b, p.team.mres)) :
    (tget (s.releaseMatrix p team).teams team).map (fun m => (m.ended, m.mres)) = some (b, none) := by
  unfold State.releaseMatrix
  split
  · next hn => rw [h, hn]
  · dsimp only
    generalize hu : List.foldl _ s _ = u
    have banks : u.teams = s.teams := by
      rw [← hu]
      refine List.foldlRecOn _ _ (motive := fun (t : State) => t.teams = s.teams) rfl (fun t ht i _ => ?_)
      split <;> exact ht
    obtain ⟨m, hm, hb⟩ := Option.map_eq_some_iff.mp h
    simp [State.modTeam, banks, hm, (Prod.mk.inj hb).1]

/-! TEAM_END. -/

/-- A team that ends with an empty set: no more than it, and its cluster, changes. -/
theorem ends_empty {s : State} {team : Nat} {p : Place} (hp : s.place team = some p) (hset : p.team.set = []) :
    let e := s.modTeam team (fun t => { t with ended := true, upark := none })
    let u := if p.team.stopped then e else e.commitT team p.team.lastOff
    u = { s with clusters := u.clusters, teams := u.teams } ∧
      (tget u.teams team).map (fun m => (m.ended, m.mres)) = some (true, p.team.mres) := by
  intro e u
  obtain ⟨ht, -⟩ := place_spec hp
  have hplace : e.place team = some { p with team := { p.team with ended := true, upark := none } } :=
    place_modTeam hp rfl rfl
  unfold u
  split
  · exact ⟨rfl, by simp [e, State.modTeam, ht]⟩
  · rw [commitT_empty hplace hset]
    exact ⟨rfl, by simp [e, State.modTeam, State.modCluster, ht]⟩

/-- A team without threads and work ends: it gives up its reservation, its launch counts it, and its waves go (R163). -/
theorem execTeamEnd_ends {s : State} {team : Nat} {p : Place} (hp : s.place team = some p) (hs : p.team.started = true)
    (he : p.team.ended = false) (hsaved : p.cluster.saved = false) (hk : p.launch.killed = false)
    (hlive : s.liveCount team = 0) (hbusy : s.teamBusy team = false) (hset : p.team.set = []) :
    nextWith (execTeamEnd team s) (fun t => t.hbm = s.hbm ∧ t.hostMem = s.hostMem ∧
      (tget t.teams team).map (fun m => (m.ended, m.mres)) = some (true, none) ∧
      (tget t.launches p.team.launch).map (·.teams) = some (p.launch.teams + 1) ∧ ∀ e ∈ t.waves, e.1 / 256 ≠ team) := by
  obtain ⟨-, -, hl, -⟩ := place_spec hp
  obtain ⟨hu, hteam⟩ := ends_empty hp hset
  unfold execTeamEnd
  simp only [hp]
  rw [if_neg (by simp [hs, he, hsaved, hk, hlive, hbusy])]
  revert hu hteam
  generalize (if p.team.stopped = true then _ else _) = u
  intro hu hteam
  have released := releaseMatrix_rest u p team
  have hteam := releaseMatrix_team u hteam
  revert released hteam
  generalize u.releaseMatrix p team = v
  intro hv hteam
  refine ⟨_, rfl, ?_, ?_, ?_, ?_, ?_⟩
  · simp only [State.moveOctets_hbm, State.modCluster_hbm, State.modLaunch_hbm]
    rw [hv, hu]
  · simp only [State.moveOctets_hostMem, State.modCluster_hostMem, State.modLaunch_hostMem]
    rw [hv, hu]
  · simpa using hteam
  · have : v.launches = s.launches := by rw [hv, hu]
    simp [State.modLaunch, this, hl]
  · simp

end Sys2Proof.Machine
end

section
/-! PROOF. CLUSTER_RELEASE (R22, R43, R163, R339): the merge of an empty cluster set, what leaves with a cluster, and the
completion record that the launch's last one writes. -/

namespace Sys2Proof.Machine

/-! COMMIT.c of an empty set. -/

/-- What a merge of an empty cluster set may change: the team's counts of its waiting, the cluster's set, and who waits to
write. -/
structure MergedOnly (s t : State) : Prop where
  rest : t = { s with tries := t.tries, worlds := t.worlds, teams := t.teams, clusters := t.clusters }
  quiet : ∀ w, (s.world w).mig.waiting = [] → t.world w = s.world w

theorem MergedOnly.trans {s t u : State} (h : MergedOnly s t) (k : MergedOnly t u) : MergedOnly s u :=
  ⟨by rw [k.rest, h.rest], fun w hw => (k.quiet w (by rw [h.quiet w hw, hw])).trans (h.quiet w hw)⟩

/-- Who has written waits no more; where nobody waits nothing changes (R325). -/
theorem wrote_merges (s : State) (v : Nat) (who : Writer) : MergedOnly s (s.wrote v who) := by
  unfold State.wrote
  split
  · next hin =>
    refine ⟨rfl, fun w hw => State.world_setWorld_ne s _ ?_⟩
    rintro rfl
    simp [hw] at hin
  · exact ⟨rfl, fun _ _ => rfl⟩

/-- A merge of an empty set never waits but for a page that it has asked for, and writes nothing (R188). -/
theorem commitC_empty {s : State} {team off : Nat} {m : Team} {c : Cluster} (ht : tget s.teams team = some m)
    (hc : tget s.clusters m.cluster = some c) (hwait : m.mwait = 0) (hset : c.set = []) :
    ∃ t, s.commitC team off = .done t ∧ MergedOnly s t := by
  cases hp : s.place team with
  | none => exact ⟨s, by simp [State.commitC, hp], rfl, fun _ _ => rfl⟩
  | some p =>
    obtain ⟨ht', hc', -⟩ := place_spec hp
    obtain rfl : p.team = m := Option.some.inj (ht'.symm.trans ht)
    obtain rfl : p.cluster = c := Option.some.inj (hc'.symm.trans hc)
    have tries : MergedOnly s (s.clearTries (.merge team)) := ⟨rfl, fun _ _ => rfl⟩
    have writes := tries.trans (wrote_merges _ p.launch.world (.merge team))
    have counts := writes.trans (u := State.modTeam _ team (fun t => { t with mwait := 0, mtok := 0 })) ⟨rfl, fun _ _ => rfl⟩
    have sets := counts.trans (u := State.modCluster _ p.team.cluster (fun c => { c with set := [] })) ⟨rfl, fun _ _ => rfl⟩
    exact ⟨_, by simp [State.commitC, hp, hset, hwait, State.translateCells, setAccesses, State.gatherTokens], sets⟩

/-! What leaves with a cluster. -/

/-- From s to t, contexts have become empty or active (R359, R365, R432), and no team has come to be. -/
structure ContextsOnly (s t : State) : Prop where
  rest : t = { s with
    slots := t.slots, threads := t.threads, teams := t.teams, perf := t.perf, accSaved := t.accSaved
    buckets := t.buckets, parts := t.parts }
  gone : ∀ q, tget s.teams q = none → tget t.teams q = none

namespace ContextsOnly

theorem refl (s : State) : ContextsOnly s s := ⟨rfl, fun _ h => h⟩

theorem trans {s t u : State} (h : ContextsOnly s t) (k : ContextsOnly t u) : ContextsOnly s u :=
  ⟨by rw [k.rest, h.rest], fun q hq => k.gone q (h.gone q hq)⟩

theorem foldl {α : Type} {f : State → α → State} (hf : ∀ s x, ContextsOnly s (f s x)) (l : List α) (s : State) :
    ContextsOnly s (l.foldl f s) :=
  List.foldlRecOn l f (motive := ContextsOnly s) (refl s) (fun _ h x _ => h.trans (hf _ x))

theorem setSlot (s : State) (p i : Nat) (f : Slot → Slot) : ContextsOnly s (s.setSlot p i f) := ⟨rfl, fun _ h => h⟩

theorem modTeam (s : State) (team : Nat) (f : Team → Team) : ContextsOnly s (s.modTeam team f) := by
  refine ⟨rfl, fun q hq => ?_⟩
  rw [State.modTeam, tget_tmod]
  split
  · next h => rw [← h, hq]; rfl
  · exact hq

theorem unhalt (s : State) (teams : List Nat) : ContextsOnly s (s.unhalt teams) := by
  unfold State.unhalt
  refine trans ?_ (foldl (fun s t => modTeam s t _) teams _)
  exact ⟨rfl, fun _ h => h⟩

theorem makeActive (s : State) (p i : Nat) : ContextsOnly s (s.makeActive p i) := by
  unfold State.makeActive
  dsimp only
  refine trans (foldl (fun s j => ?_) _ s) (trans (unhalt ..) (setSlot ..))
  split
  · exact setSlot ..
  · exact refl s

theorem activate (s : State) (p tsg : Nat) (asked : Bool) : ContextsOnly s (s.activate p tsg asked) := by
  refine foldl (fun s i => ?_) _ s
  dsimp only
  split
  · exact refl s
  · split
    · exact makeActive ..
    · split
      · exact setSlot ..
      · exact refl s

theorem emptySlot (s : State) (p i : Nat) : ContextsOnly s (s.emptySlot p i) := by
  unfold State.emptySlot
  dsimp only
  split
  · exact refl s
  · refine trans ?_ (activate ..)
    exact ⟨rfl, fun _ h => h⟩

theorem moveOctets (s : State) : ContextsOnly s s.moveOctets :=
  ⟨by rw [moveOctets_parts], fun q h => by rwa [State.moveOctets_teams]⟩

section Rest

variable {s t : State} (h : ContextsOnly s t)
include h

theorem hbm : t.hbm = s.hbm := by rw [h.rest]

theorem hostMem : t.hostMem = s.hostMem := by rw [h.rest]

theorem clusters : t.clusters = s.clusters := by rw [h.rest]

theorem launches : t.launches = s.launches := by rw [h.rest]

theorem sameDevice : SameDevice s t := by
  have hw : t.worlds = s.worlds := by rw [h.rest]
  exact ⟨h.hbm, by rw [h.rest], by rw [h.rest], by rw [h.rest], fun w => by rw [State.world_congr hw],
    fun w => by rw [State.world_congr hw]⟩

end Rest

end ContextsOnly

/-- A table without the entries that f names has none of theirs. -/
theorem tget_filter_none {α : Type} {l : Table α} {f : Nat → Bool} {q : Nat} (hq : f q = true) :
    tget (l.filter (fun e => !f e.1)) q = none := by
  induction l with
  | nil => rfl
  | cons e l ih =>
    obtain ⟨j, a⟩ := e
    by_cases hj : f j = true
    · simpa [hj] using ih
    · have hne : j ≠ q := by rintro rfl; exact hj hq
      simpa [hj, tget, hne] using ih

/-! The completion record (R20, R43). -/

/-- A record written in memory in the clear lies there, its first doubleword written last (R20). -/
theorem statusLast_clear {s : State} {w a p : Nat} {b : List Byte} (hu : s.unsealed w) (hc : s.windowsClosed w)
    (hp : s.devAddr w a = some p) (hb : a % 2097152 + b.length ≤ 2097152) (hlen : 8 < b.length) :
    ∃ l o, s.statusLast w a b =
      { s with hbm := (s.hbm.writeN (p + 8) (b.drop 8)).writeN p (b.take 8), shared := l, outbox := o } := by
  have hp8 : s.devAddr w (a + 8) = some (p + 8) := devAddr_add hp (by omega)
  obtain ⟨l, o, rest⟩ := devPokes_clear hu hc hp8 (b := b.drop 8) (by rw [List.length_drop]; omega)
  rw [State.statusLast, rest]
  exact devPokes_clear (s := { s with hbm := s.hbm.writeN (p + 8) (b.drop 8), shared := l, outbox := o }) hu hc hp
    (by rw [List.length_take]; omega)

/-- A completion record that can be written as it arises lies at its address, with the first byte of its head. -/
theorem own_completion {s : State} {w a p : Nat} {h : Byte} {head tail : List Byte} (hu : s.unsealed w)
    (hc : s.windowsClosed w) (hf : s.completionFree w) (ha : a % 32 = 0) (hp : s.devAddr w a = some p)
    (hhead : head.length = 7) (htail : tail.length = 16) :
    (s.own w (.completion a (h :: head) tail)).devNat w a 1 = h.toNat := by
  obtain ⟨⟨hdues, hactive, hwaiting⟩, hlog, hreplay⟩ := hf
  have turn : s.ownTurn w s.nextId (.completion a (h :: head) tail) = true := by
    simp [State.ownTurn, hdues, logRoom_off hlog]
  have free : s.ownFree w s.nextId (.completion a (h :: head) tail) = true := by
    simp [State.ownFree, State.mayWrite, hactive, hwaiting]
  have time : s.recordTime w = s.readTime w := by simp [State.recordTime, hreplay]
  let b := h :: head ++ bytesOfNat 8 (s.readTime w).1 ++ tail
  let u := (s.readTime w).2
  have owns : s.own w (.completion a (h :: head) tail) = (u.statusLast w a b).logRecord w 5 b := by
    simp only [State.own, turn, free, Bool.and_self, if_true, State.writeOwn, State.ownAt, time]
    rfl
  have same : SameDevice s u := by
    unfold u State.readTime
    dsimp only
    exact SameDevice.setWorld s w (fun _ => rfl) (fun _ => rfl)
  have unsealed : u.unsealed w := ⟨(same.keys w).trans hu.1, same.seals.trans hu.2⟩
  have closed : u.windowsClosed w := fun i => by simpa [u, State.readTime] using hc i
  have log : (u.world w).log = false := by simpa [u, State.readTime] using hlog
  have length : b.length = 32 := by simp [b, hhead, htail]
  have mapped : u.devAddr w a = some p := (same.devAddr ..).trans hp
  obtain ⟨l, o, lies⟩ := statusLast_clear unsealed closed mapped (b := b) (by omega) (by omega)
  let v : State := { u with hbm := (u.hbm.writeN (p + 8) (b.drop 8)).writeN p (b.take 8), shared := l, outbox := o }
  have first : v.devByte w a = v.hbm.read p := devByte_unsealed unsealed mapped
  rw [owns, lies, logRecord_off (s := v) log]
  have read := Mem.read_writeN_inside (m := u.hbm.writeN (p + 8) (b.drop 8)) (a := p) (i := 0) (l := b.take 8) (by simp [length])
  have low : v.hbm.read p = h := read.trans (by simp [b])
  simp only [State.devNat, State.devBytes, List.range_one, List.map_cons, List.map_nil, Nat.add_zero, natOfBytes, first, low]
  omega

/-- A launch that completes as it can has its status in its completion record (R43, R44). -/
theorem finishLaunch_status {s : State} {id status p : Nat} {l : Launch} (hl : tget s.launches id = some l)
    (hu : s.unsealed l.world) (hc : s.windowsClosed l.world) (hf : s.completionFree l.world) (ha : l.compl % 32 = 0)
    (hp : s.devAddr l.world l.compl = some p) : (s.finishLaunch id status).devNat l.world l.compl 1 = status % 256 := by
  have gone : SameDevice (s.report id status) (s.finishLaunch id status) :=
    ⟨rfl, rfl, rfl, rfl, fun _ => rfl, fun _ => rfl⟩
  rw [gone.devNat]
  simp only [State.report, hl]
  rw [bytesOfNat, own_completion hu hc hf ha hp (by simp) (by simp), BitVec.toNat_ofNat]
  omega

/-! CLUSTER_RELEASE. -/

/-- A launch with one more cluster released. -/
def Launch.counted (l : Launch) : Launch := { l with released := l.released + 1 }

/-- It is done when that was the last one of its grid (R43). -/
theorem counted_complete (l : Launch) :
    l.counted.complete = true ↔ l.gx * l.gy * l.gz = l.placed ∧ l.placed = l.released + 1 := by
  simp [Launch.complete, Launch.counted]

theorem status_byte (l : Launch) : l.status % 256 = l.status := by
  unfold Launch.status
  split <;> rfl

/-- From s to t, a cluster has left with its teams and what they left, its launch has counted it, and no more has changed
but who waits to write and how often a merge has been told Success for a page. -/
structure LeftOnly (s t : State) (cl : Nat) (c : Cluster) (l : Launch) : Prop where
  rest : t = { s with
    tries := t.tries, worlds := t.worlds, threads := t.threads, waves := t.waves, teams := t.teams
    clusters := t.clusters, launches := t.launches, passes := t.passes, cands := t.cands, pends := t.pends }
  quiet : ∀ w, (s.world w).mig.waiting = [] → t.world w = s.world w
  cluster : tget t.clusters cl = none
  teams : ∀ q ∈ c.teams, tget t.teams q = none
  launch : tget t.launches c.launch = some l.counted

theorem dropCluster_leaves {s u : State} {c : Cluster} {l : Launch} (hu : MergedOnly s u)
    (hl : tget s.launches c.launch = some l) (cl : Nat) :
    LeftOnly s ((u.dropCluster cl c).modLaunch c.launch Launch.counted) cl c l := by
  have hl' : tget u.launches c.launch = some l := by rw [hu.rest]; exact hl
  refine ⟨?_, hu.quiet, tget_tdel_self .., fun q hq => ?_, ?_⟩
  · unfold State.dropCluster State.modLaunch
    rw [hu.rest]
  · exact tget_filter_none (f := fun k => c.teams.contains k) (by simpa using hq)
  · simp [State.modLaunch, State.dropCluster, hl']

/-- A completion record that can be written as it arises still can once a cluster has left. -/
theorem LeftOnly.writable {s t : State} {cl : Nat} {c : Cluster} {l : Launch} (h : LeftOnly s t cl c l) {w a p : Nat}
    (hu : s.unsealed w) (hc : s.windowsClosed w) (hf : s.completionFree w) (hp : s.devAddr w a = some p) :
    t.unsealed w ∧ t.windowsClosed w ∧ t.completionFree w ∧ t.devAddr w a = some p := by
  have world : t.world w = s.world w := h.quiet w hf.1.2.2
  have rest : t.seals = s.seals ∧ t.dues = s.dues ∧ t.devTab = s.devTab := by rw [h.rest]; exact ⟨rfl, rfl, rfl⟩
  obtain ⟨seals, dues, devTab⟩ := rest
  unfold State.unsealed State.windowsClosed State.completionFree State.recordsFree State.keys State.devAddr at *
  rw [world, seals, dues, devTab]
  exact ⟨hu, hc, hf, hp⟩

section Release

variable {s : State} {cl : Nat} {c : Cluster} {l : Launch} {m : Team}

/-- A cluster whose teams have ended, with nothing under way and an empty set. -/
structure Empties (s : State) (cl : Nat) (c : Cluster) (l : Launch) (m : Team) : Prop where
  cluster : tget s.clusters cl = some c
  team : tget s.teams c.emptied = some m
  member : m.cluster = cl
  waits : m.mwait = 0
  launch : tget s.launches c.launch = some l
  saved : c.saved = false
  killed : l.killed = false
  ended : ∀ q ∈ c.teams, ∃ m', tget s.teams q = some m' ∧ m'.ended = true
  pends : s.pends = []
  copies : s.copies = []
  drains : s.drains = []
  set : c.set = []

/-- It leaves, and with the launch's last one the launch is done. -/
theorem execClusterRelease_leaves (h : Empties s cl c l m) : ∃ v x, LeftOnly s v cl c l ∧
    execClusterRelease cl s = .next (x.emptySlot l.part l.slot).moveOctets ∧
    x = if l.counted.complete then v.finishLaunch c.launch l.counted.status else v := by
  obtain ⟨u, hmerge, hu⟩ := commitC_empty (off := m.lastOff) h.team (h.member ▸ h.cluster) h.waits h.set
  have left := dropCluster_leaves hu h.launch cl
  have ended : s.allEnded c = true := by
    refine List.all_eq_true.mpr (fun q hq => ?_)
    obtain ⟨m', hm, he⟩ := h.ended q hq
    simp [hm, he]
  refine ⟨_, _, left, ?_, rfl⟩
  simp only [execClusterRelease, h.cluster, h.launch, h.team, hmerge]
  rw [if_neg (by simp [h.saved, h.killed, ended, h.pends, h.copies, h.drains])]
  have counted := left.launch
  unfold Launch.counted at *
  simp only [counted]

/-- What the launch's counts and its completion record come to (R43). -/
structure LaunchCounts (s t : State) (c : Cluster) (l : Launch) : Prop where
  more : ¬ (l.gx * l.gy * l.gz = l.placed ∧ l.placed = l.released + 1) →
    t.hbm = s.hbm ∧ (tget t.launches c.launch).map (·.released) = some (l.released + 1)
  last : l.gx * l.gy * l.gz = l.placed ∧ l.placed = l.released + 1 → tget t.launches c.launch = none
  record : l.gx * l.gy * l.gz = l.placed ∧ l.placed = l.released + 1 → s.unsealed l.world → s.windowsClosed l.world →
    s.completionFree l.world → l.compl % 32 = 0 → (s.devAddr l.world l.compl).isSome = true →
    t.devNat l.world l.compl 1 = l.status

/-- No cluster and no teams are left of it, and host memory is as it was. -/
theorem execClusterRelease_gone (h : Empties s cl c l m) : nextWith (execClusterRelease cl s) (fun t =>
    tget t.clusters cl = none ∧ (∀ q ∈ c.teams, tget t.teams q = none) ∧ t.hostMem = s.hostMem ∧ LaunchCounts s t c l) := by
  obtain ⟨v, x, left, release, hx⟩ := execClusterRelease_leaves h
  have vmem : v.hbm = s.hbm ∧ v.hostMem = s.hostMem := by rw [left.rest]; exact ⟨rfl, rfl⟩
  have places : PlacesOnly v x := by
    rw [hx]
    split
    · exact PlacesOnly.finishLaunch ..
    · exact PlacesOnly.refl v
  have after : ContextsOnly x (x.emptySlot l.part l.slot).moveOctets :=
    (ContextsOnly.emptySlot ..).trans (ContextsOnly.moveOctets _)
  refine ⟨_, release, ?_, fun q hq => after.gone q ?_, ?_, fun more => ?_, fun last => ?_, fun last hu hc hf ha hp => ?_⟩
  · rw [after.clusters, places.clusters, left.cluster]
  · rw [places.teams, left.teams q hq]
  · rw [after.hostMem, places.hostMem, vmem.2]
  · rw [if_neg (mt (counted_complete l).mp more)] at hx
    rw [after.hbm, after.launches, hx, vmem.1, left.launch]
    exact ⟨rfl, rfl⟩
  · rw [if_pos ((counted_complete l).mpr last)] at hx
    rw [after.launches, hx]
    exact tget_tdel_self ..
  · rw [if_pos ((counted_complete l).mpr last)] at hx
    obtain ⟨p, hp⟩ := Option.isSome_iff_exists.mp hp
    obtain ⟨vu, vc, vf, vp⟩ := left.writable hu hc hf hp
    have status := finishLaunch_status (status := l.counted.status) left.launch vu vc vf ha vp
    rw [after.sameDevice.devNat, hx]
    exact status.trans (status_byte l.counted)

end Release

end Sys2Proof.Machine
end

section
/-! PROOF. Bins that expire (R302), sleepers that wake (R253), and service replies (R256, R405). -/

namespace Sys2Proof.Machine

/-! Timers. -/

/-- An open bin's candidate becomes due: it has the age of the launch's A_max at least (R302). -/
theorem execBinExpiry_due {s : State} {core team off age : Nat} {vec : Bool} {p : Place} (hp : s.place team = some p)
    (hon : p.onCores = true) (hc : s.cands = [⟨core, team, off, false, age, true, vec⟩]) :
    execBinExpiry core team off s =
      .next { s with cands := [⟨core, team, off, false, max age p.launch.aMax, false, vec⟩] } := by
  simp [execBinExpiry, hp, hon, hc, State.modCand]

/-- A thread that moves on to a block's entry becomes its waiter, and a candidate's entry is all else that changes. -/
theorem moveThread_goto {s : State} {p : Place} {team tid off : Nat} {u : Thread} (hu : s.thread team tid = some u) :
    let t := s.moveThread p team tid (.goto off)
    t = { s with threads := t.threads, cands := t.cands } ∧ (t.thread team tid).map (·.st) = some (.waiting off) := by
  have hu' : tget s.threads (tkey team tid) = some u := hu
  unfold State.moveThread State.addWaiter State.modCand
  dsimp only
  split
  · exact ⟨rfl, by simp [State.thread, State.modThread, hu']⟩
  · exact ⟨rfl, by simp [State.thread, State.modThread, hu']⟩

section Sleeper

variable {s : State} {team tid off wake : Nat} {u : Thread} {p : Place} (hu : s.thread team tid = some u)
  (hp : s.place team = some p) (hst : u.st = .blocked off (.sleep wake))
include hu hp hst

/-- A sleeper of a context that runs goes on at its block once its time has come. -/
theorem execSleepWake_wakes (hsaved : p.cluster.saved = false) (htime : wake ≤ s.worldTime p.launch.world)
    (hruns : (s.slotOf p.launch).runs = true) (hgoes : s.goes p.launch.world = true) :
    nextWith (execSleepWake team tid s) (fun t =>
      t.hbm = s.hbm ∧ t.teams = s.teams ∧ (t.thread team tid).map (·.st) = some (.waiting off)) := by
  obtain ⟨rest, waits⟩ := moveThread_goto (p := p) (off := off) hu
  refine ⟨(s.moveThread p team tid (.goto off)).count p (p.team.coreOf p.image.threads tid) 14 1, ?_, ?_, ?_, waits⟩
  · simp [execSleepWake, hu, hp, hst, htime, hsaved, hruns, hgoes]
  · rw [State.count_hbm, rest]
  · rw [State.count_teams, rest]

theorem execSleepWake_early (htime : s.worldTime p.launch.world < wake) : execSleepWake team tid s = .next s := by
  simp [execSleepWake, hu, hp, hst, not_le.mpr htime]

end Sleeper

/-! Service replies. -/

/-- No reply yet, or one with a reserved bit, changes nothing (R11; log 78). -/
theorem execServiceReply_refused {s : State} {call : Nat} {k : SvcCall} (hk : tget s.calls call = some k)
    (hv : s.hbmNat (k.record + 24) 8 = 0 ∨ 2 ^ 40 ≤ s.hbmNat (k.record + 24) 8) : execServiceReply call s = .next s := by
  have bad : s.hbmNat (k.record + 24) 8 = 0 ∨ s.hbmNat (k.record + 24) 8 / 2 ^ 40 ≠ 0 := by omega
  simp only [execServiceReply, hk]
  rw [if_pos (bad.imp_right Or.inl)]

/-- The halves of a reply's value in two s registers (R256): 0 below, the value above. -/
theorem splitRegs_pair (r v : Nat) : splitRegs [.s r, .s (r + 1)] (BitVec.ofNat 64 (v % 2 ^ 32 * 2 ^ 32)) =
    [(.s r, 0), (.s (r + 1), BitVec.ofNat 32 v)] := by
  have low : (BitVec.ofNat 64 (v % 2 ^ 32 * 2 ^ 32)).setWidth 32 = 0#32 := by
    apply BitVec.eq_of_toNat_eq
    simp only [BitVec.toNat_setWidth, BitVec.toNat_ofNat]
    omega
  have high : (BitVec.ofNat 64 (v % 2 ^ 32 * 2 ^ 32) >>> 32).setWidth 32 = BitVec.ofNat 32 v := by
    apply BitVec.eq_of_toNat_eq
    simp only [BitVec.toNat_setWidth, BitVec.toNat_ushiftRight, BitVec.toNat_ofNat, Nat.shiftRight_eq_div_pow]
    omega
  generalize BitVec.ofNat 64 (v % 2 ^ 32 * 2 ^ 32) = x at low high ⊢
  simp [splitRegs, List.zipIdx, low, high]

/-- The team with the pending bit of one of its s registers clear, as an arriving result leaves it (R83). -/
def Team.clearPend (i : Nat) (t : Team) : Team := { t with sPend := t.sPend &&& ~~~(1#1024 <<< i) }

/-- A result that arrives for a team is in its s registers, and their pending bits are clear (R83). -/
theorem arrive_uniform_pair {s : State} {team r : Nat} {m : Team} (hm : tget s.teams team = some m) (hr : r + 1 < 1024)
    (a b : Word) :
    let t := s.arrive (.uniform team) [(.s r, a), (.s (r + 1), b)]
    t = { s with teams := t.teams } ∧ t.holds (.uniform team) [(.s r, a), (.s (r + 1), b)] ∧
      t.pendBit (.uniform team) (.s r) = false ∧ t.pendBit (.uniform team) (.s (r + 1)) = false := by
  intro t
  have ht : t = ((s.modTeam team (Team.clearPend r)).modTeam team (Team.clearPend (r + 1))).modTeam team
      (fun t => t.puts [(.s r, a), (.s (r + 1), b)]) :=
    putRegs_uniform ..
  have team' : tget t.teams team = some (((m.clearPend r).clearPend (r + 1)).puts [(.s r, a), (.s (r + 1), b)]) := by
    rw [ht]
    simp [State.modTeam, hm]
  have takes : ∀ e ∈ [((.s r : Reg), a), (.s (r + 1), b)], teamTakes e := by
    simp only [List.forall_mem_cons, teamTakes, List.not_mem_nil, false_imp_iff, implies_true, and_true]
    omega
  refine ⟨by rw [ht]; rfl, fun e he => ?_, ?_, ?_⟩
  · have held := Team.puts_self ((m.clearPend r).clearPend (r + 1)) takes (by simp) e he
    rw [view_uniform_reg team', ← held]
    have kinds : e.1 = .s r ∨ e.1 = .s (r + 1) := by
      simp only [List.mem_cons, List.not_mem_nil, or_false] at he
      exact he.imp (congrArg Prod.fst) (congrArg Prod.fst)
    rcases kinds with h | h <;> rw [h]
  · simp [State.pendBit, team', Team.puts, Team.put, Team.clearPend]
  · simp [State.pendBit, team', Team.puts, Team.put, Team.clearPend]

/-- A service's reply reaches the registers that wait for it, its record is zeroed, and the call is over (R256, R405). -/
theorem execServiceReply_answers {s : State} {call r : Nat} {k : SvcCall} {m : Team} (hk : tget s.calls call = some k)
    (hdst : k.dst = [.s r, .s (r + 1)]) (hr : r + 1 < 1024) (hm : tget s.teams k.team = some m)
    (hsaved : ∀ q, s.place k.team = some q → q.cluster.saved = false) (hc : ∀ w, s.windowsClosed w) (hs : s.seals = [])
    (hrec : k.record + 32 ≤ 2 ^ 39) :
    let v := s.hbmNat (k.record + 24) 8
    v ≠ 0 → v < 2 ^ 40 → nextWith (execServiceReply call s) (fun t => tget t.calls call = none ∧ t.hostMem = s.hostMem ∧
      (∀ o, k.record ≤ o → o < k.record + 32 → t.hbm.read o = 0) ∧
      (∀ o, o < k.record ∨ k.record + 32 ≤ o → t.hbm.read o = s.hbm.read o) ∧
      t.holds (.uniform k.team) [(.s r, 0), (.s (r + 1), BitVec.ofNat 32 v)] ∧
      t.pendBit (.uniform k.team) (.s r) = false ∧ t.pendBit (.uniform k.team) (.s (r + 1)) = false) := by
  intro v hv0 hv
  have zeroed := ownRaws_clear hc hs (p := k.record) (b := List.replicate 32 0) (by simpa [hbmSize] using hrec)
  let u : State := { s with hbm := s.hbm.writeN k.record (List.replicate 32 0), calls := tdel s.calls call }
  have answers : execServiceReply call s =
      .next (u.arrive (.uniform k.team) [(.s r, 0), (.s (r + 1), BitVec.ofNat 32 v)]) := by
    have reserved : v / 2 ^ 40 = 0 := by omega
    have saved : (match s.place k.team with | some p => p.cluster.saved | none => false) = false := by
      split
      · next q hq => exact hsaved q hq
      · rfl
    simp only [execServiceReply, hk]
    rw [if_neg, zeroed, hdst, splitRegs_pair]
    rintro (h | h | h)
    · exact hv0 h
    · exact h reserved
    · exact Bool.noConfusion (saved.symm.trans h)
  obtain ⟨rest, holds, low, high⟩ := arrive_uniform_pair (s := u) hm hr 0 (BitVec.ofNat 32 v)
  refine ⟨_, answers, ?_, ?_, fun o hlo hhi => ?_, fun o ho => ?_, holds, low, high⟩
  · rw [rest]
    exact tget_tdel_self ..
  · rw [rest]
  · rw [rest]
    obtain ⟨i, rfl⟩ := Nat.exists_eq_add_of_le hlo
    exact (Mem.read_writeN_inside (by simpa using hhi)).trans (List.getElem_replicate ..)
  · rw [rest]
    exact Mem.read_writeN_outside (by simpa using ho)

end Sys2Proof.Machine

namespace Sys2Proof
open Machine

/-- Settles O53: each event's own lemma says what it comes to. -/
theorem endsAndWakes : Obligations.EndsAndWakes := by
  intro s core team tid off wake cl call r p u c l m k age vec
  refine ⟨execTeamEnd_ends, ?_, execBinExpiry_due, fun hu hp hst hsaved =>
    ⟨execSleepWake_wakes hu hp hst hsaved, execSleepWake_early hu hp hst⟩, ?_⟩
  · intro hc hm member waits hl hsaved hk hended pends copies drains set
    obtain ⟨t, ht, noCluster, noTeam, hostMem, counts⟩ := execClusterRelease_gone (s := s) (cl := cl)
      ⟨hc, hm, member, waits, hl, hsaved, hk, hended, pends, copies, drains, set⟩
    exact ⟨t, ht, noCluster, noTeam, hostMem, fun more => counts.more (by rwa [not_and_or]),
      fun h1 h2 => ⟨counts.last ⟨h1, h2⟩, counts.record ⟨h1, h2⟩⟩⟩
  · intro v hk hdst hr hm hsaved hc hs hrec
    exact ⟨execServiceReply_refused hk, execServiceReply_answers hk hdst hr hm hsaved hc hs hrec⟩

end Sys2Proof
end

section
/-! PROOF. Harts and the host (R16, R412): the tags that a fill checks are those of the tiles of device addresses, and a
frame that does not start a tile puts a byte of the access into the tile after. -/

namespace Sys2Proof.Machine

/-- World 1 holds keys, and its one page lies in HBM from byte 1 on: its address 511 has the first byte of L2 tile 1, which
an erased world left with this tag, and its address 0 lies in tile 0, which the world itself wrote. -/
def skewedFrame (k : WorldKeys) (tag : BitVec 56) : State :=
  { State.reset with
    devTab := [(1, 0, some 1)]
    worlds := [(1, { World.reset with key := some k })]
    seals := [(1, .dead tag), (0, .live 1 (.xts 0))] }

/-- What lies in tile 1 does not depend on the tag beside it. -/
theorem skewedFrame_rawBytes (k : WorldKeys) (tag : BitVec 56) :
    (skewedFrame k tag).rawBytes 512 512 = List.replicate 512 0 := by
  rw [List.eq_replicate_iff]
  refine ⟨by simp [State.rawBytes], fun b hb => ?_⟩
  obtain ⟨i, hi, rfl⟩ := List.mem_map.mp hb
  have hi : i < 512 := List.mem_range.mp hi
  have inside : ¬ hbmSize ≤ 512 + i := by unfold hbmSize; omega
  have tile : (512 + i) / 512 = 1 := by omega
  simp only [State.rawByte, inside, if_false, tile]
  rfl

/-- Some tag is wrong for tile 1. -/
theorem skewedFrame_wrongTag (k : WorldKeys) :
    ∃ tag, (Iv.xts 0).tag k ((skewedFrame k tag).rawBytes 512 512) ≠ tag := by
  simp only [skewedFrame_rawBytes]
  generalize (Iv.xts 0).tag k (List.replicate 512 0) = x
  exact ⟨x + 1, by simp⟩

/-- A load of address 511 gives a byte: its fill checks tile 0 alone, which is the world's own. -/
theorem skewedFrame_load (k : WorldKeys) (tag : BitVec 56) : ∃ v, exec (.hartAccess 1 511 (.load 1)) (skewedFrame k tag) =
    .next ((skewedFrame k tag).say (.value 1 [v])) := ⟨_, rfl⟩

end Sys2Proof.Machine

namespace Sys2Proof
open Machine

/-- Refutes O44. The statement is about every state, and one may map a page to a frame that does not start an L2 tile. With
the frame at HBM byte 1, a load of address 511 takes its byte from tile 1, whose tag is wrong, while what is filled is
tile 0, the one of address 0: the load gives a byte, and the clause on wrong tags (R412) asks that it give none. -/
theorem not_hostAccesses : ¬ Obligations.HostAccesses := by
  intro h
  let k := WorldKeys.derive []
  obtain ⟨tag, wrong⟩ := skewedFrame_wrongTag k
  obtain ⟨-, -, -, -, -, -, -, keyed, -⟩ := h 1 0 511 (.load 1) 0 0 .share (skewedFrame k tag)
  have closed : (skewedFrame k tag).windowsClosed 1 := by
    intro i
    have hw : ((skewedFrame k tag).world 1).windows = Vector.replicate 16 Window64.reset := rfl
    simp [hw, Window64.reset]
  obtain ⟨-, silent⟩ := keyed k 512 rfl rfl rfl ⟨rfl, rfl⟩ closed rfl
  obtain ⟨t, ht, sameOutbox, -⟩ := silent tag rfl wrong rfl rfl rfl rfl
  obtain ⟨v, hv⟩ := skewedFrame_load k tag
  rw [hv] at ht
  cases ht
  simp [State.say] at sameOutbox

end Sys2Proof
end

section
/-! PROOF. NOP, the moves, LEA and the identity reads (R32, R85, R125 to R130): what each gives, and the register that a
dynamic move's index names. -/

namespace Sys2Proof.Machine

/-! Words that write one list of registers in every lane that takes them. -/

/-- A word whose body writes registers of each taking lane gives every live one its own. -/
theorem issue_putRegs {i : Instr} {c : Ctl} {s : State} {h : Here} {body : Here → State → Body}
    {f : Agent → List (Reg × Word)} (hr : Ready i s h)
    (hb : body h (s.issued h i c) = .done ((h.taking c s).foldl (fun t a => t.putRegs a (f a)) (s.issued h i c)))
    (hf : ∀ a, writesFit h.pass.uniform (f a)) (regs : List Reg) (hs : ∀ a, ∀ e ∈ f a, e.1 ∈ regs) :
    nextWith (issue i c s body) (fun t => ∀ a ∈ h.taking c s, s.alive a = true → t.holds a (f a)) := by
  obtain ⟨holds, -⟩ := putRegs_lanes (c := c) (u := s.issued h i c) hr.here f regs (issued_rest s h i c)
    (fun k hk => issued_otherPasses s h i c hk) (fun a => (hf a).1) (fun a => (hf a).2) hs
  exact ⟨_, issue_done hr hb, holds⟩

/-- A team's registers hold what a uniform pass has written to them. -/
theorem putRegs_uniform_holds {s : State} {team : Nat} {m : Team} (hm : tget s.teams team = some m)
    {l : List (Reg × Word)} (hl : writesFit true l) : (s.putRegs (.uniform team) l).holds (.uniform team) l := by
  have takes : ∀ e ∈ l, teamTakes e := by simpa using hl.1
  have team' : tget (s.putRegs (.uniform team) l).teams team = some (m.puts l) := by
    rw [putRegs_uniform]
    simp [State.modTeam, hm]
  intro e he
  have held := Team.puts_self m takes hl.2 e he
  rw [view_uniform_reg team', ← held]
  have fits := takes e he
  cases h : e.1 with
  | k r => simp [teamTakes, h] at fits
  | _ => rfl

/-! NOP, MOV, MOVI and LEA. -/

theorem gives_nop (c : Ctl) : Gives (.nop c) c (fun _ => []) := by
  intro s h hr
  obtain ⟨t, ht, holds, -⟩ := alu_spec (c := c) (f := fun _ => []) hr (fun _ => ⟨by simp, by simp⟩) [] (by simp)
  exact ⟨t, ht, holds⟩

/-- The value of MOVI: a high half with a low half of 0, or the immediate extended as its type says (R126). -/
theorem moviVal_eq (hi : Bool) (t : Ty) (x : Word) : moviVal hi t x =
    if hi then x ++ 0#32 else if t = .i64 then x.signExtend 64 else x.setWidth 64 := by
  have high : x.setWidth 64 <<< 32 = x ++ 0#32 := by
    have := x.isLt
    apply BitVec.eq_of_toNat_eq
    simp only [BitVec.toNat_shiftLeft, BitVec.toNat_setWidth, BitVec.toNat_append, BitVec.toNat_ofNat, Nat.zero_mod,
      Nat.or_zero, Nat.shiftLeft_eq]
    omega
  cases hi
  · cases t <;> simp [moviVal]
  · simp [moviVal, high]

theorem wf2_pairOk {c : Ctl} {w : Bool} {d : Dst} {a : Src} (h : wf2 c w d a = true) : d.pairOk w = true := by
  simp only [wf2, Bool.and_eq_true] at h
  tauto

theorem gives_mov (c : Ctl) (t : Ty) (d : Dst) (a : Src) :
    Gives (.mov c t d a) c (fun v => dstWrites d t.wide (moveVal t (v.src t a))) :=
  gives_dst (fun _ => rfl) rfl wf2_pairOk (fun _ => rfl)

theorem gives_movi (c : Ctl) (hi : Bool) (t : Ty) (d : Dst) (x : Word) :
    Gives (.movi c hi t d x) c (fun _ => dstWrites d t.wide
      (if hi then x ++ 0#32 else if t = .i64 then x.signExtend 64 else x.setWidth 64)) := by
  refine gives_dst (f := fun _ => dstWrites d t.wide (moviVal hi t x)) (fun _ => rfl) rfl (fun wf => ?_)
    (fun _ => by rw [moviVal_eq])
  simp only [Instr.wf, Bool.and_eq_true] at wf
  exact wf.1.2

theorem gives_lea (c : Ctl) (n : BitVec 3) (t : Ty) (d : Dst) (a b e : Src) : Gives (.lea c n t d a b e) c (fun v =>
    let bx : Int := if t.signed then (v.src32 b).toInt else (v.src32 b).toNat
    dstWrites d t.wide (ofIntVal t (v.nat t a + bx * 2 ^ n.toNat + (v.src32 e).toInt))) := by
  refine gives_dst (w := t.wide) (fun _ => rfl) rfl (fun wf => ?_) (fun _ => rfl)
  simp only [Instr.wf, Bool.and_eq_true] at wf
  exact wf.1.1.2

/-! MOVS (R127). -/

/-- The uniform register that a dynamic move's index names: the one at IDX + B, or the first of a pair at IDX + 2 B. -/
def View.movsAt (v : View) (t : Ty) (idx : BitVec 10) (b : Src) : Nat :=
  idx.toNat + (if t.wide then 2 else 1) * (v.src32 b).toNat

theorem movsRegs_eq (v : View) (w : Bool) (t : Ty) (idx : BitVec 10) (b : Src) : v.movsRegs ⟨w, t, idx, b⟩ =
    if t.wide then [.s (v.movsAt t idx b), .s (v.movsAt t idx b + 1)] else [.s (v.movsAt t idx b)] := by
  unfold View.movsRegs View.movsAt
  cases h : t.wide <;> simp

/-- What a read moves: the register, or the pair with the first one below. -/
theorem movsRegs_value (v : View) (t : Ty) (idx : BitVec 10) (b : Src) :
    v.regs (v.movsRegs ⟨false, t, idx, b⟩) =
      let lo : Word := (v.s[v.movsAt t idx b]?).getD 0
      let hi : Word := (v.s[v.movsAt t idx b + 1]?).getD 0
      if t.wide then hi ++ lo else lo.setWidth 64 := by
  rw [movsRegs_eq]
  cases t.wide <;> rfl

theorem execMovs_reads {c : Ctl} {t : Ty} {d : Dst} {idx : BitVec 10} {b : Src} {s : State} {h : Here}
    (hr : Ready (.movs c t (.read d) idx b) s h) : nextWith (exec (.movs c t (.read d) idx b) s) (fun u =>
      ∀ ag ∈ h.taking c s, s.alive ag = true →
        u.holds ag (dstWrites d t.wide ((s.view ag).regs ((s.view ag).movsRegs ⟨false, t, idx, b⟩)))) := by
  have wf := hr.wf
  simp only [Instr.wf, Bool.and_eq_true] at wf
  refine issue_putRegs (regs := Dst.regs t.wide d) hr ?_ (fun a => dstWrites_fit rfl hr.form wf.2 _)
    (fun a => dstWrites_regs d t.wide _)
  simp only [issued_taking, issued_view]

/-- What a write moves to the registers named. -/
def movsWrites (v : View) (t : Ty) (a : Src) (idx : BitVec 10) (b : Src) : List (Reg × Word) :=
  (.s (v.movsAt t idx b), (v.src t a).setWidth 32) ::
    (if t.wide then [(.s (v.movsAt t idx b + 1), (v.src t a >>> 32).setWidth 32)] else [])

theorem movsWrites_fit {v : View} {t : Ty} {a : Src} {idx : BitVec 10} {b : Src}
    (hin : v.movsAt t idx b + (if t.wide then 1 else 0) < 1024) : writesFit true (movsWrites v t a idx b) := by
  unfold movsWrites
  cases h : t.wide <;> simp [h] at hin <;> simp [writesFit, teamTakes] <;> omega

/-- In a uniform block a write sets the registers named, as far as there are such. -/
theorem execMovs_writes {c : Ctl} {t : Ty} {a : Src} {idx : BitVec 10} {b : Src} {s : State} {h : Here}
    (hr : Ready (.movs c t (.write a) idx b) s h) (hu : h.pass.uniform = true) :
    nextWith (exec (.movs c t (.write a) idx b) s) (fun u => ∀ ag ∈ h.taking c s,
      (s.view ag).movsAt t idx b + (if t.wide then 1 else 0) < 1024 → u.holds ag (movsWrites (s.view ag) t a idx b)) := by
  obtain ⟨-, -, -, hp, -⟩ := here_spec hr.here
  obtain ⟨hm, -⟩ := place_spec hp
  let i := Instr.movs c t (.write a) idx b
  have sets : exec i s = .next ((h.taking c s).foldl (fun u ag => u.putRegs ag (movsWrites (s.view ag) t a idx b))
      (s.issued h i c)) := by
    refine issue_done hr ?_
    simp only [hu, issued_taking, issued_view, movsRegs_eq, movsWrites]
    cases t.wide <;> rfl
  refine ⟨_, sets, ?_⟩
  rcases taking_uniform c s hu with none | one
  · simp [none]
  · simp only [one, List.mem_singleton, forall_eq, List.foldl_cons, List.foldl_nil]
    exact fun hin => putRegs_uniform_holds (s := s.issued h i c) hm (movsWrites_fit hin)

/-! ID (R130). -/

/-- ID gives its identity value; one that varies within a team is read in thread blocks alone (R32). -/
theorem execId_gives {c : Ctl} {sel : IdSel} {d : Dst} {s : State} {h : Here} (hr : Ready (.id c sel d) s h)
    (hsel : h.pass.uniform = true → IdSel.varies sel = false) : nextWith (exec (.id c sel d) s) (fun u =>
      ∀ ag ∈ h.taking c s, s.alive ag = true →
        u.holds ag (dstWrites d false (BitVec.ofNat 64 (idVal h.place h.core ag sel)))) := by
  refine issue_putRegs (regs := Dst.regs false d) hr ?_ (fun a => dstWrites_fit rfl hr.form (by cases d <;> rfl) _)
    (fun a => dstWrites_regs d false _)
  have legal : (h.pass.uniform && IdSel.varies sel) = false := by
    cases hu : h.pass.uniform
    · rfl
    · exact hsel hu
  simp only [legal, Bool.false_eq_true, if_false, issued_taking]

theorem varies_iff (sel : IdSel) : IdSel.varies sel = true ↔ sel ∈ [IdSel.tid, .wpos, .wave, .core, .cpos] := by
  cases sel <;> decide

end Sys2Proof.Machine

namespace Sys2Proof
open Machine

/-- Settles O6: each word's own lemma says what it gives. -/
theorem moveAndIdentityResults : Obligations.MoveAndIdentityResults := by
  refine ⟨fun c t hi d a b e x n => ⟨gives_nop c, gives_mov c t d a, gives_movi c hi t d x, gives_lea c n t d a b e⟩,
    fun c t d a b idx s h => ⟨fun hr => ?_, fun hr hu => execMovs_writes hr hu⟩, fun c sel d s h hr hsel => ?_⟩
  · obtain ⟨u, hu, holds⟩ := execMovs_reads hr
    refine ⟨u, hu, fun ag ha hl => ?_⟩
    have given := holds ag ha hl
    rwa [movsRegs_value] at given
  · obtain ⟨u, hu, holds⟩ := execId_gives hr (fun hun => by
      simpa only [Bool.not_eq_true] using mt (varies_iff sel).mp (hsel hun))
    refine ⟨u, hu, fun ag ha hl => ?_⟩
    cases sel <;> exact holds ag ha hl

end Sys2Proof
end

section
/-! PROOF. Placement (R31, R351, R354) and team start (R37, R341). -/

namespace Sys2Proof.Machine

/-- One of several is picked from among them, and no more than a free value is drawn for it. -/
theorem pick_spec {α : Type} {s t : State} {l : List α} {a : α} (h : s.pick l = some (a, t)) :
    a ∈ l ∧ t = { s with free := t.free } := by
  match l with
  | [] => simp [State.pick] at h
  | [b] =>
    simp only [State.pick, Option.some.injEq, Prod.mk.injEq] at h
    obtain ⟨rfl, rfl⟩ := h
    exact ⟨by simp, rfl⟩
  | b :: c :: r =>
    simp only [State.pick, Option.some.injEq, Prod.mk.injEq] at h
    obtain ⟨rfl, rfl⟩ := h
    have inside : Config.freeChoice s.free % (b :: c :: r).length < (b :: c :: r).length :=
      Nat.mod_lt _ (by simp)
    rw [List.getElem?_eq_getElem inside]
    exact ⟨List.getElem_mem inside, rfl⟩

theorem pick_some {α : Type} (s : State) {l : List α} (h : l ≠ []) : ∃ a t, s.pick l = some (a, t) := by
  match l with
  | [] => exact absurd rfl h
  | [b] => exact ⟨_, _, rfl⟩
  | b :: c :: r => exact ⟨_, _, rfl⟩

/-! Contexts that become active. -/

/-- What a placement may make of its context: it is active or not, still bound to its world; no thread comes or goes. -/
structure Activates (p i : Nat) (s t : State) : Prop where
  contexts : ContextsOnly s t
  threads : t.threads.length = s.threads.length
  bound : (t.slot p i).bound = (s.slot p i).bound
  world : (t.slot p i).world = (s.slot p i).world

theorem unhalt_threads (s : State) (teams : List Nat) : (s.unhalt teams).threads.length = s.threads.length := by
  unfold State.unhalt
  exact List.foldlRecOn teams _ (motive := fun (t : State) => t.threads.length = s.threads.length) (by simp)
    (fun _ h _ _ => h)

theorem unhalt_slots (s : State) (teams : List Nat) : (s.unhalt teams).slots = s.slots := by
  unfold State.unhalt
  exact List.foldlRecOn teams _ (motive := fun (t : State) => t.slots = s.slots) rfl (fun _ h _ _ => h)

theorem makeActive_threads (s : State) (p i : Nat) : (s.makeActive p i).threads.length = s.threads.length := by
  unfold State.makeActive
  dsimp only
  rw [State.setSlot_threads, unhalt_threads]
  exact List.foldlRecOn _ _ (motive := fun (t : State) => t.threads.length = s.threads.length) rfl
    (fun t ht j _ => by split <;> exact ht)

theorem makeActive_slot (s : State) (p i : Nat) :
    (s.makeActive p i).slot p i = { s.slot p i with state := 1, resume := false, held := false } := by
  unfold State.makeActive
  dsimp only
  rw [State.slot_setSlot, State.slot_congr (unhalt_slots ..)]
  refine congrArg (fun c : Slot => { c with state := 1, resume := false, held := false }) ?_
  refine List.foldlRecOn _ _ (motive := fun (t : State) => t.slot p i = s.slot p i) rfl (fun t ht j _ => ?_)
  split
  · next hj => exact (State.slot_setSlot_ne t _ (by omega)).trans ht
  · exact ht

theorem makeActive_activates (s : State) (p i : Nat) : Activates p i s (s.makeActive p i) :=
  ⟨ContextsOnly.makeActive s p i, makeActive_threads s p i, by rw [makeActive_slot], by rw [makeActive_slot]⟩

theorem activates_if (b : Bool) (s : State) (p i : Nat) : Activates p i s (if b then s.makeActive p i else s) := by
  cases b
  · exact ⟨ContextsOnly.refl s, rfl, rfl, rfl⟩
  · exact makeActive_activates s p i

/-! PLACEMENT. -/

/-- A launch's next cluster as it is placed (R31, R328): its index in the grid, its first core, its teams, and nothing in its
memories and its set. -/
structure NextCluster (s : State) (id : Nat) (l : Launch) (cores : List Nat) (c : Cluster) : Prop where
  launch : c.launch = id
  cx : c.cx = l.placed % l.gx
  cy : c.cy = l.placed / l.gx % l.gy
  cz : c.cz = l.placed / l.gx / l.gy
  origin : c.origin = cores.headD 0
  near : c.near = .empty
  col : c.col = .empty
  set : c.set = []
  teams : c.teams = (List.range l.tpc).map (fun k => s.nextId + 1 + k)

/-- From s to t, the launch's next cluster has been placed in a context slot that is bound to its world. -/
structure PlacesCluster (s t : State) (id : Nat) (l : Launch) (slot : Nat) (cores : List Nat) : Prop where
  hbm : t.hbm = s.hbm
  hostMem : t.hostMem = s.hostMem
  threads : t.threads.length = s.threads.length
  clusters : ∃ c, t.clusters = s.clusters ++ [(s.nextId, c)] ∧ NextCluster s id l cores c
  nextId : t.nextId = s.nextId + 1 + l.tpc
  launch : (tget t.launches id).map (fun m => (m.placed, m.slot)) = some (l.placed + 1, slot)
  bound : (t.slot l.part slot).bound = true
  world : (t.slot l.part slot).world = l.world

theorem placeCluster_places (s : State) (n id : Nat) (l : Launch) (slot : Nat) (cores : List Nat)
    (units : List (List Nat)) :
    PlacesCluster s (State.placeCluster { s with free := n } id l slot cores units) id l slot cores := by
  unfold State.placeCluster
  dsimp only
  generalize hu : State.setSlot _ l.part slot _ = u
  generalize ((_ == 0) && _ : Bool) = first
  have active := activates_if first u l.part slot
  generalize (if first = true then _ else _) = t at active
  have rest := active.contexts.rest
  subst hu
  refine ⟨?_, ?_, active.threads, ⟨_, active.contexts.clusters, rfl, rfl, rfl, rfl, rfl, rfl, rfl, rfl, rfl⟩, ?_, ?_, ?_, ?_⟩
  · exact active.contexts.hbm
  · exact active.contexts.hostMem
  · rw [rest]; rfl
  · rw [active.contexts.launches]
    simp
  · rw [active.bound, State.slot_setSlot]
  · rw [active.world, State.slot_setSlot]

theorem findSlot_spec {s t : State} {l : Launch} {slot : Nat} (h : s.findSlot l = some (slot, t)) :
    t = { s with free := t.free } := by
  unfold State.findSlot at h
  split at h
  · cases h; rfl
  · exact (pick_spec h).2

/-- The first launch in order that fits is the one whose cluster is placed. -/
theorem placeFirst_fits {s s' : State} {id slot : Nat} {l : Launch} {rest : List (Nat × Launch)} {i : Image}
    {cores : List Nat} {units : List (List Nat)} (hi : s.imageOf l = some i) (hroom : s.findRoom l i = some (cores, units))
    (hslot : s.findSlot l = some (slot, s')) (htakes : s'.slotTakes l.part slot cores = true) :
    s.placeFirst ((id, l) :: rest) = some (s'.placeCluster id l slot cores units) := by
  simp [State.placeFirst, hi, hroom, hslot, htakes]

/-- With no saved context to resume, the worlds' launches are looked at in their order. -/
theorem noSaved {s : State} {p : Nat} (h : ∀ j < 16, (s.slot p j).state ≠ 6) :
    (List.range 16).filter (fun i =>
      let c := s.slot p i
      c.state == 6 && c.resume && s.goes c.world) = [] := by
  rw [List.filter_eq_nil_iff]
  intro j hj
  simp [h j (List.mem_range.mp hj)]

theorem execPlacement_places {s s' : State} {p w id slot : Nat} {l : Launch} {rest : List (Nat × Launch)} {i : Image}
    {cores : List Nat} {units : List (List Nat)} (hsaved : ∀ j < 16, (s.slot p j).state ≠ 6) (hturn : s.roundRobin p = [w])
    (horder : s.dispatchOrder w = (id, l) :: rest) (hi : s.imageOf l = some i)
    (hroom : s.findRoom l i = some (cores, units)) (hslot : s.findSlot l = some (slot, s'))
    (htakes : s'.slotTakes l.part slot cores = true) :
    nextWith (execPlacement p s) (fun t => PlacesCluster s t id l slot cores) := by
  have fits := placeFirst_fits (id := id) (rest := rest) hi hroom hslot htakes
  have drawn := findSlot_spec hslot
  refine ⟨s'.placeCluster id l slot cores units, ?_, ?_⟩
  · simp [execPlacement, noSaved hsaved, hturn, horder, fits]
  · rw [drawn]
    exact placeCluster_places ..

/-- Where no launch waits, nothing happens. -/
theorem execPlacement_idle {s : State} {p : Nat} (hsaved : ∀ j < 16, (s.slot p j).state ≠ 6)
    (hnone : ∀ k ∈ s.roundRobin p, s.dispatchOrder k = []) : execPlacement p s = .next s := by
  have nowhere : (s.roundRobin p).findSome? (fun w => s.placeFirst (s.dispatchOrder w)) = none := by
    rw [List.findSome?_eq_none_iff]
    intro k hk
    rw [hnone k hk]
    rfl
  have all : (s.roundRobin p).all (fun w => (s.dispatchOrder w).isEmpty) = true := by
    rw [List.all_eq_true]
    intro k hk
    rw [hnone k hk]
    rfl
  simp only [execPlacement, noSaved hsaved, nowhere, all, List.findSome?_nil, List.isEmpty_nil, and_self, if_true]

/-! TEAM_START. -/

/-- Candidates' entries are made, and no more than they changes. -/
theorem modCand_cands (s : State) (core team off : Nat) (resume : Bool) (f : Cand → Cand) :
    s.modCand core team off resume f = { s with cands := (s.modCand core team off resume f).cands } := by
  unfold State.modCand
  dsimp only
  split <;> rfl

/-- A team that has started: it has its reservation, and its uniform registers hold its launch's argument words (R37). -/
def Team.begun (m : Team) (args : List Word) (r : MatrixRes) : Team :=
  { m with started := true, mres := some r, s := Vector.ofFn (fun i : Fin 1024 => args.getD i.val 0) }

/-- A team starts, with its threads at the entry block (R37). -/
theorem startTeam_rest {s : State} {team : Nat} {p : Place} {r : MatrixRes} {b : Block}
    (hb : p.image.blocks[p.launch.entry]? = some b) :
    let t := s.startTeam team p r
    t = { s with
      teams := tmod s.teams team (fun m => m.begun p.launch.args r)
      threads := s.threads ++ (List.range p.launch.threads).map (fun k => (tkey team k, Thread.start (.waiting b.off)))
      cands := t.cands } := by
  unfold State.startTeam
  simp only [hb]
  refine List.foldlRecOn p.team.cores _ (motive := fun (t : State) => t = { s with
    teams := tmod s.teams team (fun m => m.begun p.launch.args r)
    threads := s.threads ++ (List.range p.launch.threads).map (fun k => (tkey team k, Thread.start (.waiting b.off)))
    cands := t.cands }) rfl (fun t ht core _ => ?_)
  split
  · exact ht
  · rw [modCand_cands, ht]

section Start

variable {s : State} {team core : Nat} {u : Team} {p : Place} (hs : s.teams = [(team, u)]) (hp : s.place team = some p)
include hs hp

/-- The only team of the machine, waiting on its core, starts with a place in the banks and in the weight buffer that it may
be granted (R341). -/
theorem execTeamStart_starts {b : Block} (hhome : u.home = core) (hres : u.mres = none) (hended : u.ended = false)
    (hstopped : u.stopped = false) (hstarted : u.started = false) (hsaved : p.cluster.saved = false)
    (hbanks : s.bankBases p ≠ []) (hwbuf : s.wbufBases p ≠ []) (hb : p.image.blocks[p.launch.entry]? = some b) :
    ∃ x y n c, x ∈ s.bankBases p ∧ y ∈ s.wbufBases p ∧ execTeamStart core s = .next { s with
      free := n, cands := c
      teams := [(team, u.begun p.launch.args ⟨x, p.image.accBanks, y, p.image.wbuf⟩)]
      threads := s.threads ++ (List.range p.launch.threads).map (fun k => (tkey team k, Thread.start (.waiting b.off))) } := by
  obtain rfl : p.team = u := by
    have own := (place_spec hp).1
    simpa [hs, tget] using own.symm
  obtain ⟨x, v, pickedBank⟩ := pick_some s hbanks
  obtain ⟨xin, hv⟩ := pick_spec pickedBank
  obtain ⟨y, w, pickedWbuf⟩ := pick_some v hwbuf
  obtain ⟨yin, hw⟩ := pick_spec pickedWbuf
  let r : MatrixRes := ⟨x, p.image.accBanks, y, p.image.wbuf⟩
  have waits : (s.teams.filterMap (fun e => (s.place e.1).bind (fun p =>
      let asks := p.team.mres.isNone && !p.team.ended && !p.team.stopped && !p.cluster.saved
      if p.team.home = core ∧ asks then some (e.1, p) else none))) = [(team, p)] := by
    simp [hs, hp, hhome, hres, hended, hstopped, hsaved]
  have first : leastBy (fun e : Nat × Place => e.2.team.asked) [(team, p)] = [(team, p)] := by simp [leastBy]
  have starts : execTeamStart core s = .next (w.startTeam team p r) := by
    unfold execTeamStart
    simp only [waits, first, pickedBank, pickedWbuf, hstarted, Bool.false_eq_true, if_false]
    rfl
  refine ⟨x, y, w.free, (w.startTeam team p r).cands, xin, yin, ?_⟩
  rw [starts, startTeam_rest hb, hw, hv, hs]
  simp [r, tmod, tset, tget]

end Start

end Sys2Proof.Machine

namespace Sys2Proof
open Machine

/-- Settles O51: what a placement comes to, and what a team's start does. -/
theorem placementAndStart : Obligations.PlacementAndStart := by
  intro s p w id slot core team l rest i cores units s' u pl b
  refine ⟨?_, execPlacement_idle, ?_⟩
  · intro hsaved hturn horder hi hroom hslot htakes
    obtain ⟨t, ht, places⟩ := execPlacement_places hsaved hturn horder hi hroom hslot htakes
    obtain ⟨c, clusters, next⟩ := places.clusters
    exact ⟨t, ht, places.hbm, places.hostMem, places.threads, ⟨c, clusters, next.launch, next.cx, next.cy, next.cz,
      next.origin, next.near, next.col, next.set, next.teams⟩, places.nextId, places.launch, places.bound, places.world⟩
  · intro hs hp hhome hres hended hstopped hstarted hsaved hbanks hwbuf hb
    obtain ⟨x, y, n, c, hx, hy, ht⟩ := execTeamStart_starts hs hp hhome hres hended hstopped hstarted hsaved hbanks hwbuf hb
    exact ⟨_, ht, rfl, rfl, rfl, rfl, _, x, y, hx, hy, rfl, rfl, fun k hk => by simp [Team.begun]⟩

end Sys2Proof
end

section
/-! PROOF. Words that read or write device memory as they issue (R318, R325, R333, R357, R385, R412): where all they use is
free, they go on at once, once the tiles they read are filled. -/

namespace Sys2Proof.Machine

/-- The issued state is one that keeps what an issue may change (R81, R257). -/
theorem issued_alike (s : State) (h : Here) (i : Instr) (c : Ctl) : s.alike (s.issued h i c) := rfl

/-! What states alike agree in. -/

theorem heldBy_alike {s u : State} (h : s.alike u) (a : Agent) (k : FenceKinds → Bool) : u.heldBy a k = s.heldBy a k := by
  rw [h]; cases a <;> rfl

theorem outstanding_alike {s u : State} (h : s.alike u) (a : Agent) : u.outstanding a = s.outstanding a := by
  rw [h]; cases a <;> rfl

theorem queued_alike {s u : State} (h : s.alike u) (w : Nat) : u.queued w = s.queued w := by rw [h]; rfl

theorem hbmNat_alike {s u : State} (h : s.alike u) (a n : Nat) : u.hbmNat a n = s.hbmNat a n := by rw [h]; rfl

theorem service_alike {s u : State} (h : s.alike u) (w t n : Nat) : u.service w t n = s.service w t n := by rw [h]; rfl

section Issued

variable (s : State) (h : Here) (i : Instr) (c : Ctl)

@[simp] theorem issued_pends : (s.issued h i c).pends = s.pends := rfl
@[simp] theorem issued_waves : (s.issued h i c).waves = s.waves := rfl
@[simp] theorem issued_svcSeq : (s.issued h i c).svcSeq = s.svcSeq := rfl
@[simp] theorem issued_heldBy (a : Agent) (k : FenceKinds → Bool) : (s.issued h i c).heldBy a k = s.heldBy a k :=
  heldBy_alike (issued_alike s h i c) a k
@[simp] theorem issued_heldAny (a : Agent) : (s.issued h i c).heldAny a = s.heldAny a := issued_heldBy ..
@[simp] theorem issued_outstanding (a : Agent) : (s.issued h i c).outstanding a = s.outstanding a :=
  outstanding_alike (issued_alike s h i c) a
@[simp] theorem issued_queued (w : Nat) : (s.issued h i c).queued w = s.queued w := queued_alike (issued_alike s h i c) w
@[simp] theorem issued_hbmNat (a n : Nat) : (s.issued h i c).hbmNat a n = s.hbmNat a n :=
  hbmNat_alike (issued_alike s h i c) a n
@[simp] theorem issued_service (w t n : Nat) : (s.issued h i c).service w t n = s.service w t n :=
  service_alike (issued_alike s h i c) w t n

end Issued

/-! Tokens (R357). -/

theorem takeTokens_unlimited {s : State} {p : Place} (h : (s.slotOf p.launch).rate = 0) (core n who : Nat) :
    s.takeTokens p core n who = (true, s) := by simp [State.takeTokens, h]

/-- A context that no bucket limits has its tokens at once. -/
theorem gatherTokens_unlimited {s : State} {p : Place} (h : (s.slotOf p.launch).rate = 0) (core who : Nat) (l : List Nat) :
    s.gatherTokens p core who l = (l.length, s) := by
  induction l with
  | nil => rfl
  | cons n l ih => simp [State.gatherTokens, takeTokens_unlimited h, ih]

theorem portWait_unlimited {h : Here} {l : List Nat} {s : State} {f : State → Body}
    (hl : l = [] ∨ (s.slotOf h.place.launch).rate = 0) : portWait h l s f = f s := by
  rcases hl with rfl | hr
  · simp [portWait, State.gatherTokens]
  · simp [portWait, gatherTokens_unlimited hr]

/-! Fills (R412). -/

/-- From s to t, tiles of HBM have come to lie as their worlds write them: no byte of another part of the state has
changed but for the counter of free values. -/
def TilesOnly (s t : State) : Prop := t = { s with free := t.free, hbm := t.hbm, seals := t.seals }

theorem TilesOnly.trans {s t u : State} (h : TilesOnly s t) (k : TilesOnly t u) : TilesOnly s u := by
  unfold TilesOnly at *
  rw [k, h]

theorem takeTile_tiles (s : State) (w : Nat) (iv : Iv) (p : Nat) : TilesOnly s (s.takeTile w iv p) := by
  unfold State.takeTile
  dsimp only
  split <;> split <;> rfl

theorem tagFits_tiles (s : State) (k : WorldKeys) (w : Nat) (iv : Iv) (p : Nat) : TilesOnly s (s.tagFits k w iv p).2 := by
  unfold State.tagFits
  dsimp only
  split
  · rfl
  · split <;> rfl
  · rfl
  · rfl

/-- A fill whose tag is right lets its world go on. -/
theorem fillTile_tiles {s : State} {w : Nat} {iv : Iv} {p : Nat} :
    (s.fillTile w iv p).1 = true → TilesOnly s (s.fillTile w iv p).2 := by
  unfold State.fillTile
  split
  · exact fun _ => rfl
  · next k _ =>
    split
    · exact fun _ => rfl
    · have tags := tagFits_tiles s k w iv p
      split
      · next u hu => rw [hu] at tags; exact fun _ => tags.trans (takeTile_tiles u w iv p)
      · exact fun right => Bool.noConfusion right

theorem fillBy_tiles {s : State} {w : Nat} {f : Nat → Iv × Bool} {a n : Nat} :
    (s.fillBy w f a n).1 = true → TilesOnly s (s.fillBy w f a n).2 := by
  unfold State.fillBy
  split
  · exact fun _ => rfl
  · refine List.foldlRecOn _ _ (motive := fun (e : Bool × State) => e.1 = true → TilesOnly s e.2) (fun _ => rfl)
      (fun e he i _ => ?_)
    dsimp only
    split
    · split
      · next hgo =>
        intro ht
        exact (he (by simp at hgo; exact hgo.1)).trans (fillTile_tiles ht)
      · exact he
    · exact he

theorem fills_tiles {s : State} {w : Nat} {l : List DevUse} :
    (s.fills w l).1 = true → TilesOnly s (s.fills w l).2 := by
  unfold State.fills
  refine List.foldlRecOn _ _ (motive := fun (e : Bool × State) => e.1 = true → TilesOnly s e.2) (fun _ => rfl)
    (fun e he u _ => ?_)
  split
  · next hgo =>
    intro ht
    exact (he (by simp at hgo; exact hgo.1)).trans (fillBy_tiles ht)
  · exact he

/-- With no keys a world's tiles need no fill. -/
theorem fills_clear {s : State} {w : Nat} (h : s.keys w = none) (l : List DevUse) : s.fills w l = (true, s) := by
  unfold State.fills
  refine List.foldlRecOn _ _ (motive := fun (e : Bool × State) => e = (true, s)) rfl (fun e he u _ => ?_)
  rw [he]
  split
  · exact fill_clear h ..
  · rfl

theorem fills_alike {s u : State} (h : s.alike u) (w : Nat) (l : List DevUse) : sameFill (s.fills w l) (u.fills w l) := by
  unfold State.fills
  suffices H : ∀ (l : List DevUse) (e e' : Bool × State), sameFill e e' → sameFill
      (l.foldl (fun e u => if e.1 && u.read then e.2.fill w u.a u.n else e) e)
      (l.foldl (fun e u => if e.1 && u.read then e.2.fill w u.a u.n else e) e') from H _ _ _ ⟨rfl, h⟩
  intro l
  induction l with
  | nil => exact fun _ _ h => h
  | cons x l ih =>
    intro e e' he
    refine ih _ _ ?_
    obtain ⟨same, alike⟩ := he
    dsimp only
    rw [same]
    exact sameFill_ite (fill_alike alike ..) ⟨same, alike⟩

/-! Going on. -/

/-- What is free stays so as the word issues. -/
theorem devFree_alike {s u : State} (h : s.alike u) {l : Launch} {uses : List DevUse} (hf : s.devFree l uses) :
    u.devFree l uses := by
  rcases hf with none | ⟨busy, rate, fills⟩
  · exact .inl none
  · have busy' : u.devBusy l.world = s.devBusy l.world := by rw [h]; rfl
    have slot : u.slotOf l = s.slotOf l := by rw [h]; rfl
    exact .inr ⟨busy'.symm ▸ busy, slot.symm ▸ rate, (fills_alike h l.world uses).1.trans fills⟩

/-- Where all that it uses is free, a word goes on in the state in which what it reads is filled, and its writes wait for
nothing any more. -/
theorem devWords_free {h : Here} {uses : List DevUse} {s : State} {f : State → Body}
    (hf : s.devFree h.place.launch uses) : devWords h uses s f =
      f (uses.foldl (fun s u => if u.write then s.wrote h.place.launch.world (.word u.agent) else s)
        (s.fills h.place.launch.world uses).2) := by
  have free : uses.any (s.devBusy h.place.launch.world) = false ∧
      (uses.flatMap (fun u => accessesOf u.a u.n) = [] ∨ (s.slotOf h.place.launch).rate = 0) ∧
      (s.fills h.place.launch.world uses).1 = true := by
    rcases hf with rfl | ⟨busy, rate, fills⟩
    · exact ⟨rfl, .inl rfl, rfl⟩
    · exact ⟨busy, .inr rate, fills⟩
  obtain ⟨busy, port, fills⟩ := free
  unfold devWords
  simp only [busy, Bool.false_eq_true, if_false]
  rw [portWait_unlimited port]
  split
  · next wrong => rw [wrong] at fills; cases fills
  · next right => rw [right]

end Sys2Proof.Machine
end

section
/-! PROOF. Numbers in bytes (R6): a field of a packet or a record, cut out of the doubleword that it lies in. -/

namespace Sys2Proof.Machine

theorem natOfBytes_drop (l : List Byte) (n : Nat) : natOfBytes (l.drop n) = natOfBytes l / 256 ^ n := by
  induction n generalizing l with
  | zero => simp
  | succ n ih =>
    cases l with
    | nil => simp [natOfBytes]
    | cons b l =>
      have := b.isLt
      rw [List.drop_succ_cons, ih, natOfBytes, Nat.pow_succ', ← Nat.div_div_eq_div_mul]
      congr 1
      omega

theorem natOfBytes_take (l : List Byte) (n : Nat) : natOfBytes (l.take n) = natOfBytes l % 256 ^ n := by
  induction n generalizing l with
  | zero => simp [natOfBytes, Nat.mod_one]
  | succ n ih =>
    cases l with
    | nil => simp [natOfBytes]
    | cons b l =>
      have := b.isLt
      have low : (b.toNat + 256 * natOfBytes l) % 256 = b.toNat := by omega
      have high : (b.toNat + 256 * natOfBytes l) / 256 = natOfBytes l := by omega
      rw [List.take_succ_cons, natOfBytes, natOfBytes, ih, Nat.pow_succ', Nat.mod_mul, low, high]

theorem natAt_eq (b : List Byte) (o n : Nat) : natAt b o n = natOfBytes b / 256 ^ o % 256 ^ n := by
  rw [natAt, natOfBytes_take, natOfBytes_drop]

/-- A number's bytes from the j-th on are the number that lies there. -/
theorem natAt_sub (b : List Byte) (o : Nat) {j m k : Nat} (h : j + m ≤ k) :
    natAt b o k / 256 ^ j % 256 ^ m = natAt b (o + j) m := by
  rw [natAt_eq, natAt_eq, Nat.pow_add, ← Nat.div_div_eq_div_mul]
  obtain ⟨r, rfl⟩ := Nat.exists_eq_add_of_le h
  rw [Nat.add_assoc, Nat.pow_add, Nat.mod_mul_right_div_self, Nat.mod_mod_of_dvd _ (Nat.pow_dvd_pow 256 (by omega))]

/-- So are the bits of a doubleword from its j-th byte on. -/
theorem bitsOf_natAt (b : List Byte) (o j m : Nat) (hm : 0 < m) (h : j + m ≤ 8) :
    bitsOf (natAt b o 8) (8 * (j + m) - 1) (8 * j) = natAt b (o + j) m := by
  have width : 8 * (j + m) - 1 - 8 * j + 1 = 8 * m := by omega
  rw [bitsOf, width, Nat.pow_mul, Nat.pow_mul]
  exact natAt_sub b o h

/-- The bytes of a number that is written out. -/
theorem natAt_bytesOfNat {k o n : Nat} (v : Nat) (h : o + n ≤ k) : natAt (bytesOfNat k v) o n = v / 256 ^ o % 256 ^ n := by
  obtain ⟨r, rfl⟩ := Nat.exists_eq_add_of_le h
  rw [natAt_eq, natOfBytes_bytesOfNat, Nat.add_assoc, Nat.pow_add, Nat.mod_mul_right_div_self,
    Nat.mod_mod_of_dvd _ (Nat.pow_dvd_pow 256 (by omega))]

theorem natAt_append_left {a b : List Byte} {o n : Nat} (h : o + n ≤ a.length) : natAt (a ++ b) o n = natAt a o n := by
  simp only [natAt]
  rw [List.drop_append_of_le_length (by omega), List.take_append_of_le_length (by rw [List.length_drop]; omega)]

theorem natAt_append_right {a b : List Byte} {o n : Nat} (h : a.length ≤ o) :
    natAt (a ++ b) o n = natAt b (o - a.length) n := by
  rw [natAt, natAt, List.drop_append, List.drop_of_length_le h, List.nil_append]

/-- What has been written to memory at a, read as a number. -/
theorem readN_writeN (m : Mem) (a : Nat) {o n : Nat} {l : List Byte} (h : o + n ≤ l.length) :
    (m.writeN a l).readN (a + o) n = (l.drop o).take n := by
  refine List.ext_getElem (by simp [Mem.readN]; omega) (fun i h1 h2 => ?_)
  have hi : i < n := by simpa [Mem.readN] using h1
  simp only [Mem.readN, List.getElem_map, List.getElem_range, List.getElem_take, List.getElem_drop, Nat.add_assoc]
  exact Mem.read_writeN_inside (by omega)

end Sys2Proof.Machine
end

section
/-! PROOF. LAUNCH (R36, R40 to R42, R255): a packet that is refused, and one that is captured. -/

namespace Sys2Proof.Machine

/-! Words that wait for their team's accesses (R243, R254 to R256). -/

/-- With no FENCE and no access of its team open, such a word issues. -/
theorem settled_done {i : Instr} {c : Ctl} {s t : State} {h : Here} {f : Here → State → Body} (hr : Ready i s h)
    (hone : Alone h c s (.uniform h.pass.team)) (hheld : s.heldAny (.uniform h.pass.team) = false)
    (hout : s.outstanding (.uniform h.pass.team) = []) (hf : f h (s.issued h i c) = .done t) :
    settled i c s f = .next t := by
  refine issue_done hr ?_
  simp only [issued_taking, hone.takes, List.any_cons, List.any_nil, issued_heldAny, hheld, issued_outstanding, hout,
    List.isEmpty_nil]
  exact hf

/-! A result on its way. -/

theorem coming_later (s : State) (a : Agent) (l : List (Reg × Word)) : (s.later a l).coming a l := by
  obtain ⟨-, he⟩ := pend_spec s a (.ready l) (l.map (·.1)) 0
  exact ⟨(s.nextId, ⟨a, .ready l, 0⟩), by rw [State.later, he]; simp, rfl⟩

/-- Beside the registers' pending bits a result on its way is all that is new. -/
theorem later_rest (s : State) (a : Agent) (l : List (Reg × Word)) :
    let t := s.later a l
    t = { s with threads := t.threads, teams := t.teams, pends := t.pends, nextId := t.nextId } := by
  obtain ⟨-, he⟩ := pend_spec s a (.ready l) (l.map (·.1)) 0
  intro t
  unfold t State.later
  rw [he]

theorem later_launches (s : State) (a : Agent) (l : List (Reg × Word)) : (s.later a l).launches = s.launches := by
  rw [later_rest]

theorem movedOn_congr {h : Here} {c : Ctl} {s t : State} (hp : t.passes = s.passes) (hm : movedOn h c s) : movedOn h c t := by
  unfold movedOn at *
  rwa [hp]

/-- A word whose whole effect is one result on its way. -/
theorem later_only {i : Instr} {c : Ctl} {s : State} {h : Here} (hh : s.here = some h) (a : Agent)
    (l : List (Reg × Word)) : let t := (s.issued h i c).later a l
    movedOn h c t ∧ t.coming a l ∧ OnlyPending h [a] s t := by
  intro t
  have same : OnlyPending h [a] s (s.issued h i c) :=
    OnlyPending.refl (issued_rest s h i c) (fun k hk => issued_otherPasses s h i c hk)
  refine ⟨movedOn_congr ?_ (issued_moves hh i c), coming_later _ a l, same.pend (by simp) ..⟩
  unfold t
  rw [later_rest]

/-! Capture (R36, R40 to R42). -/

/-- A packet without a parameter block that is in order enters its world's launch queue for its issuer's tenant. -/
theorem captureLaunch_plain {s : State} {w k kind : Nat} {b : List Byte} {l : Launch} (hlog : (s.world w).log = false)
    (hparam : bitOf (natAt b 0 8) 18 = false) (hp : readPacket w b k [] false s.now = (l, true)) (hal : l.compl % 32 = 0)
    (hr : s.devRange w l.compl 32 = true) :
    s.captureLaunch w b (some k) kind = State.checkLaunch { s with
      nextId := s.nextId + 1
      launches := s.launches ++ [(s.nextId, { l with part := (s.world w).part })] } s.nextId := by
  have plain : s.paramBlock w b = none := by simp [State.paramBlock, hparam]
  simp [State.captureLaunch, plain, hp, logRecord_off hlog, hal, hr]

/-- A launch whose image is under admission is held, and one that passes its checks is held as checked (R41, R42). -/
theorem checkLaunch_queues {s : State} {id : Nat} {l : Launch} {i : Image} (hl : tget s.launches id = some l)
    (hi : s.imageNamed l = some i) (hchecked : l.checked = false)
    (hok : i.state = .submitted ∨
      ((s.world l.world).migen = false ∧ s.checkImage { l with part := (s.world l.world).part } i = none)) :
    s.checkLaunch id = { s with
      launches := tset s.launches id { l with
        part := (s.world l.world).part, state := .held, checked := decide (i.state ≠ .submitted) } } := by
  by_cases hs : i.state = .submitted
  · rw [checkLaunch_holds hl hi hs]
    simp [hs, ← hchecked]
  · obtain ⟨hmig, hcheck⟩ := hok.resolve_left hs
    have named : s.imageNamed { l with part := (s.world l.world).part } = some i := hi
    simp [State.checkLaunch, hl, named, hs, hmig, hcheck]

theorem tget_fresh {α : Type} {l : Table α} {n : Nat} (h : ∀ e ∈ l, e.1 < n) : tget l n = none := by
  induction l with
  | nil => rfl
  | cons e l ih =>
    have hne : e.1 ≠ n := Nat.ne_of_lt (h e (List.mem_cons_self ..))
    simp only [tget, hne, if_false]
    exact ih (fun e he => h e (List.mem_cons_of_mem _ he))

/-- It is in the queue with its fields as the packet has them. -/
theorem captureLaunch_queues {s : State} {w k kind : Nat} {b : List Byte} {i : Image} (hlog : (s.world w).log = false)
    (hparam : bitOf (natAt b 0 8) 18 = false) (hids : ∀ e ∈ s.launches, e.1 < s.nextId) :
    let r := readPacket w b k [] false s.now
    let part := (s.world w).part
    r.2 = true → r.1.compl % 32 = 0 → s.devRange w r.1.compl 32 = true → s.imageNamed r.1 = some i →
      (i.state = .submitted ∨ ((s.world w).migen = false ∧ s.checkImage { r.1 with part := part } i = none)) →
      (s.captureLaunch w b (some k) kind).launches = s.launches ++ [(s.nextId, { r.1 with
        part := part, state := .held, checked := decide (i.state ≠ .submitted) })] := by
  intro r part hform hal hr hi hok
  have new := tget_fresh hids
  have pair : r = (r.1, true) := by rw [← hform]
  have queued := checkLaunch_queues (i := i) (l := { r.1 with part := part })
    (s := { s with nextId := s.nextId + 1, launches := s.launches ++ [(s.nextId, { r.1 with part := part })] })
    (tget_append_new new _) hi rfl hok
  rw [captureLaunch_plain hlog hparam pair hal hr, queued, tset_append_new new]
  rfl

theorem devReads_alike {s u : State} (h : s.alike u) (w a n : Nat) : u.devReads w a n = s.devReads w a n := by
  rw [h]; rfl

/-- The same in a state that is alike, where the packet is captured as the word issues. -/
theorem captureLaunch_queues_alike {s u : State} {w p k kind : Nat} {i : Image} (hu : s.alike u)
    (hlog : (s.world w).log = false) (hids : ∀ e ∈ s.launches, e.1 < s.nextId) :
    let b := s.devReads w p 64
    let r := readPacket w b k [] false s.now
    let part := (s.world w).part
    bitOf (natAt b 0 8) 18 = false → r.2 = true → r.1.compl % 32 = 0 → s.devRange w r.1.compl 32 = true →
      s.imageNamed r.1 = some i →
      (i.state = .submitted ∨ ((s.world w).migen = false ∧ s.checkImage { r.1 with part := part } i = none)) →
      (u.captureLaunch w (u.devReads w p 64) (some k) kind).launches = s.launches ++ [(s.nextId, { r.1 with
        part := part, state := .held, checked := decide (i.state ≠ .submitted) })] := by
  rw [devReads_alike hu]
  intro b r part hparam
  unfold State.alike at hu
  generalize u.passes = passes, u.perf = perf, u.copyQ = copyQ at hu
  subst hu
  exact captureLaunch_queues (s := { s with passes := passes, perf := perf, copyQ := copyQ }) hlog hparam hids

/-! LAUNCH (R255). -/

/-- The state in which a packet's bytes have been read: its tiles are filled. -/
def State.packetRead (s : State) (h : Here) (p : Nat) : State :=
  (s.fills h.place.launch.world [⟨.uniform h.pass.team, p, 64, true, false⟩]).2

theorem packetRead_clear {s : State} {h : Here} (hk : s.keys h.place.launch.world = none) (p : Nat) :
    s.packetRead h p = s := by
  rw [State.packetRead, fills_clear hk]

section Launch

variable {c : Ctl} {d : Dst} {a : Src} {s : State} {h : Here} (hr : Ready (.launch c d a) s h)
  (hone : Alone h c s (.uniform h.pass.team)) (hheld : s.heldAny (.uniform h.pass.team) = false)
  (hout : s.outstanding (.uniform h.pass.team) = [])
include hr hone hheld hout

/-- A packet that does not lie at a multiple of 64 is refused, whether the queue is full or not (log 40). -/
theorem execLaunch_misplaced (hp : (s.view (.uniform h.pass.team)).addr true a noDisp % 64 ≠ 0) :
    exec (.launch c d a) s =
      .next ((s.issued h (.launch c d a) c).later (.uniform h.pass.team) (dstWrites d false 2)) := by
  refine settled_done hr hone hheld hout ?_
  simp only [issued_view]
  exact if_pos hp

theorem execLaunch_full (hp : (s.view (.uniform h.pass.team)).addr true a noDisp % 64 = 0)
    (hfull : 64 ≤ s.queued h.place.launch.world) : exec (.launch c d a) s =
      .next ((s.issued h (.launch c d a) c).later (.uniform h.pass.team) (dstWrites d false 1)) := by
  refine settled_done hr hone hheld hout ?_
  simp only [issued_view, issued_queued]
  rw [if_neg (by simpa using hp), if_pos hfull]

/-- Another packet is captured once its bytes can be read. -/
theorem execLaunch_captures (hp : (s.view (.uniform h.pass.team)).addr true a noDisp % 64 = 0)
    (hroom : s.queued h.place.launch.world < 64) (hlog : (s.world h.place.launch.world).log = false)
    (hfree : s.devFree h.place.launch
      [⟨.uniform h.pass.team, (s.view (.uniform h.pass.team)).addr true a noDisp, 64, true, false⟩]) :
    let p := (s.view (.uniform h.pass.team)).addr true a noDisp
    let u := (s.issued h (.launch c d a) c).packetRead h p
    TilesOnly (s.issued h (.launch c d a) c) u ∧ exec (.launch c d a) s = .next
      ((u.captureLaunch h.place.launch.world (u.devReads h.place.launch.world p 64) (some h.place.launch.tenant) 2).later
        (.uniform h.pass.team) (dstWrites d false 0)) := by
  intro p u
  have free := devFree_alike (issued_alike s h (.launch c d a) c) hfree
  have tiles : TilesOnly (s.issued h (.launch c d a) c) u := fills_tiles (free.resolve_left (by simp)).2.2
  have worlds : u.worlds = s.worlds := by rw [tiles]; rfl
  have log : (u.world h.place.launch.world).log = false := by rw [State.world_congr worlds]; exact hlog
  refine ⟨tiles, settled_done hr hone hheld hout ?_⟩
  simp only [issued_view, issued_queued]
  rw [if_neg (by simpa using hp), if_neg (not_le.mpr hroom), devWords_free free]
  simp only [List.foldl_cons, List.foldl_nil, Bool.false_eq_true, if_false]
  rw [if_neg (by rw [logRoom_off (by exact log)]; simp)]
  rfl

end Launch

/-- A capture and its answer leave host memory, every register and the groups alone. -/
theorem captured_rest {s u : State} {h : Here} {i : Instr} {c : Ctl} (hh : s.here = some h)
    (tiles : TilesOnly (s.issued h i c) u) (w k kind : Nat) (b : List Byte) (a : Agent) (l : List (Reg × Word)) :
    let t := (u.captureLaunch w b (some k) kind).later a l
    movedOn h c t ∧ t.coming a l ∧ t.hostMem = s.hostMem ∧ ∀ b, t.view b = s.view b := by
  intro t
  have places := PlacesOnly.captureLaunch u w b (some k) kind
  have passes : t.passes = (s.issued h i c).passes := by
    unfold t
    rw [later_rest, places, tiles]
  refine ⟨movedOn_congr passes (issued_moves hh i c), coming_later .., ?_, fun b => ?_⟩
  · unfold t
    rw [later_rest, places, tiles]
    rfl
  · calc t.view b
      _ = (u.captureLaunch w _ (some k) kind).view b := pend_view ..
      _ = u.view b := view_congr places.threads places.teams b
      _ = s.view b := view_congr (by rw [tiles]; rfl) (by rw [tiles]; rfl) b

/-- The fields of a packet without a parameter block, by their bytes (R36). -/
theorem readPacket_fields (w : Nat) (b : List Byte) (k n : Nat) :
    let r := (readPacket w b k [] false n).1
    r.world = w ∧ r.tenant = k ∧ r.image.toNat = natAt b 4 4 ∧ r.compl = natAt b 32 8 ∧ r.entry = natAt b 8 2 ∧
      r.threads = natAt b 10 2 ∧ r.gx = natAt b 16 2 ∧ r.gy = natAt b 18 2 ∧ r.gz = natAt b 20 2 ∧ r.cw = natAt b 22 1 ∧
      r.ch = natAt b 23 1 ∧ r.tpc = natAt b 24 2 ∧ r.bin = natAt b 26 1 ∧ r.wdog = natAt b 28 4 := by
  have upper (o : Nat) : natAt b o 8 / 2 ^ 32 = natAt b (o + 4) 4 := by
    have whole : natAt b o 8 < 2 ^ 64 := by rw [natAt_eq]; exact Nat.mod_lt _ (by norm_num)
    rw [← natAt_sub b o (j := 4) (m := 4) (k := 8) (by norm_num)]
    omega
  have low (o : Nat) : natAt b o 4 < 2 ^ 32 := by rw [natAt_eq]; exact Nat.mod_lt _ (by norm_num)
  have image : (BitVec.ofNat 32 (natAt b 0 8 / 2 ^ 32)).toNat = natAt b 4 4 := by
    rw [BitVec.toNat_ofNat, upper, Nat.mod_eq_of_lt (low _)]
  have field (o j m : Nat) (h : 0 < m ∧ j + m ≤ 8) := bitsOf_natAt b o j m h.1 h.2
  simp only [readPacket, true_and]
  exact ⟨image, field 8 0 2 (by decide), field 8 2 2 (by decide), field 16 0 2 (by decide),
    field 16 2 2 (by decide), field 16 4 2 (by decide), field 16 6 1 (by decide), field 16 7 1 (by decide),
    field 24 0 2 (by decide), field 24 2 1 (by decide), upper 24⟩

end Sys2Proof.Machine
end

section
/-! PROOF. SVC (R256, R405): a call that is refused, and the record of one that is made. -/

namespace Sys2Proof.Machine

/-! The call record. -/

theorem callRecord_length (h : Here) (n arg len seq : Nat) : (callRecord h n arg len seq).length = 32 := by
  simp [callRecord]

/-- A number of a record of four doublewords lies in the one that its place names. -/
theorem natAt_doublewords (d0 d1 d2 d3 : Nat) {o n : Nat} (hn : o % 8 + n ≤ 8) (hlt : o < 24) :
    natAt (bytesOfNat 8 d0 ++ bytesOfNat 8 d1 ++ bytesOfNat 8 d2 ++ bytesOfNat 8 d3) o n =
      (if o < 8 then d0 else if o < 16 then d1 else d2) / 256 ^ (o % 8) % 256 ^ n := by
  rw [natAt_append_left (by simp; omega)]
  by_cases h16 : o < 16
  · rw [natAt_append_left (by simp; omega)]
    by_cases h8 : o < 8
    · rw [natAt_append_left (by simp; omega), natAt_bytesOfNat _ (by omega), if_pos h8, Nat.mod_eq_of_lt h8]
    · rw [natAt_append_right (by simp; omega), bytesOfNat_length, natAt_bytesOfNat _ (by omega), if_neg h8, if_pos h16,
        show o - 8 = o % 8 by omega]
  · rw [natAt_append_right (by simp; omega), List.length_append, bytesOfNat_length, bytesOfNat_length,
      natAt_bytesOfNat _ (by omega), if_neg (by omega), if_neg h16, show o - (8 + 8) = o % 8 by omega]

/-- What a call record says (R256): that it is a call, the service, the argument, the length, and the low half of the call's
number. -/
theorem callRecord_says (h : Here) {n arg len : Nat} (seq : Nat) (hn : n < 128) (harg : arg < 2 ^ 64)
    (hlen : len < 2 ^ 32) :
    let b := callRecord h n arg len seq
    natAt b 0 1 = 1 ∧ natAt b 1 1 = n ∧ natAt b 8 8 = arg ∧ natAt b 16 4 = len ∧ natAt b 20 4 = seq % 2 ^ 32 := by
  unfold callRecord
  simp only
  refine ⟨?_, ?_, ?_, ?_, ?_⟩
  all_goals
    rw [natAt_doublewords _ _ _ _ (by norm_num) (by norm_num)]
    norm_num
    omega

/-- With nothing encrypted, a number in HBM is what has been written there. -/
theorem hbmNat_writeN {s : State} {m : Mem} {a o n : Nat} {b : List Byte} (hs : s.seals = [])
    (hm : s.hbm = m.writeN a b) (hin : a + b.length ≤ hbmSize) (hn : o + n ≤ b.length) :
    s.hbmNat (a + o) n = natAt b o n := by
  have raw : s.rawBytes (a + o) n = s.hbm.readN (a + o) n := by
    refine List.map_congr_left (fun i hi => ?_)
    have inside : ¬ hbmSize ≤ a + o + i := by
      have := List.mem_range.mp hi
      omega
    simp [State.rawByte, inside, hs, tget]
  rw [State.hbmNat, raw, hm, readN_writeN m a hn]
  rfl

/-! The call. -/

/-- A call that has been made: its registers await the reply, and its record lies in its ring, which counts it. -/
def State.called (s : State) (team w : Nat) (regs : List Reg) (ring seq rec_ : Nat) (b : List Byte) : State :=
  { s with
    threads := (s.setPends (.uniform team) regs true).threads
    teams := (s.setPends (.uniform team) regs true).teams
    hbm := s.hbm.writeN rec_ b
    svcSeq := tset s.svcSeq ring (seq + 1)
    calls := s.calls ++ [(s.nextId, ⟨team, w, rec_, regs⟩)]
    nextId := s.nextId + 1 }

theorem called_view (s : State) (team w : Nat) (regs : List Reg) (ring seq rec_ : Nat) (b : List Byte) (a : Agent) :
    (s.called team w regs ring seq rec_ b).view a = s.view a :=
  (view_congr rfl rfl a).trans ((setPends_only s (.uniform team) regs true).view a)

section Service

variable {c : Ctl} {n : BitVec 7} {d : Dst} {a b : Src} {s : State} {h : Here} (hr : Ready (.svc c n d a b) s h)
  (hone : Alone h c s (.uniform h.pass.team)) (hheld : s.heldAny (.uniform h.pass.team) = false)
  (hout : s.outstanding (.uniform h.pass.team) = [])
include hr hone hheld hout

/-- No service of the tenant has this number. -/
theorem execSvc_unknown (hno : s.service h.place.launch.world h.place.launch.tenant n.toNat = none) :
    exec (.svc c n d a b) s =
      .next ((s.issued h (.svc c n d a b) c).later (.uniform h.pass.team) (dstWrites d true 1)) := by
  refine settled_done hr hone hheld hout ?_
  simp only [issued_service, hno]
  rfl

variable {ring slots : Nat}
  (hring : s.service h.place.launch.world h.place.launch.tenant n.toNat = some (ring, slots))
include hring

/-- A call of more than 4096 bytes is refused. -/
theorem execSvc_tooLong (hlen : 4096 < ((s.view (.uniform h.pass.team)).src32 b).toNat) : exec (.svc c n d a b) s =
    .next ((s.issued h (.svc c n d a b) c).later (.uniform h.pass.team) (dstWrites d true 1)) := by
  refine settled_done hr hone hheld hout ?_
  simp only [issued_service, hring, issued_view, issued_svcSeq, issued_hbmNat]
  exact if_pos hlen

/-- So is one for which the ring has no free record. -/
theorem execSvc_full (hlen : ((s.view (.uniform h.pass.team)).src32 b).toNat ≤ 4096)
    (hfull : slots = 0 ∨ s.hbmNat (ring + 32 * ((tget s.svcSeq ring).getD 0 % slots)) 8 ≠ 0) : exec (.svc c n d a b) s =
      .next ((s.issued h (.svc c n d a b) c).later (.uniform h.pass.team) (dstWrites d true 2)) := by
  refine settled_done hr hone hheld hout ?_
  simp only [issued_service, hring, issued_view, issued_svcSeq, issued_hbmNat]
  exact (if_neg (not_lt.mpr hlen)).trans (if_pos hfull)

/-- Another one is made: its record says what is asked of the service. -/
theorem execSvc_calls (hlen : ((s.view (.uniform h.pass.team)).src32 b).toNat ≤ 4096) (hslots : slots ≠ 0)
    (hfree : s.hbmNat (ring + 32 * ((tget s.svcSeq ring).getD 0 % slots)) 8 = 0) (hclosed : ∀ k, s.windowsClosed k)
    (hseals : s.seals = []) (hin : ring + 32 * ((tget s.svcSeq ring).getD 0 % slots) + 32 ≤ hbmSize) :
    let v := s.view (.uniform h.pass.team)
    let seq := (tget s.svcSeq ring).getD 0
    exec (.svc c n d a b) s = .next ((s.issued h (.svc c n d a b) c).called h.pass.team h.place.launch.world
      ((dstWrites d true 0).map (·.1)) ring seq (ring + 32 * (seq % slots))
      (callRecord h n.toNat (v.addr true a noDisp) (v.src32 b).toNat seq)) := by
  intro v seq
  have bits := (setPends_only (s.issued h (.svc c n d a b) c) (.uniform h.pass.team) ((dstWrites d true 0).map (·.1))
    true).rest
  generalize hu : (s.issued h (.svc c n d a b) c).setPends (.uniform h.pass.team) ((dstWrites d true 0).map (·.1)) true = u
    at bits
  have worlds : u.worlds = s.worlds := by rw [bits]; rfl
  have closed (k : Nat) : u.windowsClosed k := fun j => by rw [State.world_congr worlds]; exact hclosed k j
  have seals : u.seals = [] := by rw [bits]; exact hseals
  have writes := ownRaws_clear closed seals (p := ring + 32 * (seq % slots))
    (b := callRecord h n.toNat (v.addr true a noDisp) (v.src32 b).toNat seq) (by rw [callRecord_length]; exact hin)
  refine settled_done hr hone hheld hout ?_
  simp only [issued_service, hring, issued_view, issued_svcSeq, issued_hbmNat]
  rw [if_neg (not_lt.mpr hlen), if_neg (not_or.mpr ⟨hslots, not_not.mpr hfree⟩)]
  rw [State.called, hu, writes, bits]
  rfl

end Service

theorem addr_pair_lt (v : View) (a disp : Src) : v.addr true a disp < 2 ^ 64 := by
  rw [View.addr, if_pos rfl]
  exact BitVec.isLt _

/-- What a call that is made comes to: its record says what is asked, and it is all that HBM has new. -/
theorem called_record {s : State} {h : Here} {n arg len rec_ : Nat} (w : Nat) (regs : List Reg) (ring seq : Nat)
    (hseals : s.seals = []) (hin : rec_ + 32 ≤ hbmSize) (hn : n < 128) (harg : arg < 2 ^ 64) (hlen : len < 2 ^ 32) :
    let t := s.called h.pass.team w regs ring seq rec_ (callRecord h n arg len seq)
    t.hbmNat rec_ 1 = 1 ∧ t.hbmNat (rec_ + 1) 1 = n ∧ t.hbmNat (rec_ + 8) 8 = arg ∧ t.hbmNat (rec_ + 16) 4 = len ∧
      t.hbmNat (rec_ + 20) 4 = seq % 2 ^ 32 ∧
      ∀ o, o < rec_ ∨ rec_ + 32 ≤ o → t.hbm.read o = s.hbm.read o := by
  intro t
  obtain ⟨kind, service, argument, length, number⟩ := callRecord_says h seq hn harg hlen
  have reads (o k : Nat) (hk : o + k ≤ 32) : t.hbmNat (rec_ + o) k = natAt (callRecord h n arg len seq) o k :=
    hbmNat_writeN (m := s.hbm) hseals rfl (by rwa [callRecord_length]) (by rwa [callRecord_length])
  exact ⟨(reads 0 1 (by decide)).trans kind, (reads 1 1 (by decide)).trans service, (reads 8 8 (by decide)).trans argument,
    (reads 16 4 (by decide)).trans length, (reads 20 4 (by decide)).trans number,
    fun o ho => Mem.read_writeN_outside (by rwa [callRecord_length])⟩

end Sys2Proof.Machine

namespace Sys2Proof
open Machine

/-- Settles O35: what a LAUNCH and an SVC come to, case by case. -/
theorem launchAndServiceWords : Obligations.LaunchAndServiceWords := by
  refine ⟨?_, ?_⟩
  · intro c d a s h ag w p hr hone hheld hout
    refine ⟨fun hp => ⟨_, execLaunch_misplaced hr hone hheld hout hp, later_only hr.here ..⟩,
      fun hp hfull => ⟨_, execLaunch_full hr hone hheld hout hp hfull, later_only hr.here ..⟩,
      fun hp hroom hfree hlog => ?_, fun b k n _ => readPacket_fields w b k n⟩
    obtain ⟨tiles, captures⟩ := execLaunch_captures hr hone hheld hout hp hroom hlog hfree
    obtain ⟨moved, coming, hostMem, views⟩ := captured_rest (i := .launch c d a) hr.here tiles w h.place.launch.tenant 2
      (State.devReads _ w p 64) ag (dstWrites d false 0)
    refine ⟨_, captures, moved, coming, hostMem, views, ?_⟩
    intro b r part i hkeys hparam hform hal hrange hids hi hok
    rw [later_launches, packetRead_clear (s := s.issued h (.launch c d a) c) hkeys]
    exact captureLaunch_queues_alike (issued_alike ..) hlog hids hparam hform hal hrange hi hok
  · intro c n d a b s h ag l i len hr hone hheld hout gives
    refine ⟨fun hno => ⟨_, execSvc_unknown hr hone hheld hout hno, later_only hr.here ..⟩, ?_⟩
    intro ring slots hring seq at_
    refine ⟨fun hlen => ⟨_, execSvc_tooLong hr hone hheld hout hring hlen, later_only hr.here ..⟩,
      fun hlen hfull => ⟨_, execSvc_full hr hone hheld hout hring hlen hfull, later_only hr.here ..⟩,
      fun hlen hslots hfree hclosed hseals hin => ?_⟩
    obtain ⟨kind, service, argument, length, number, others⟩ := called_record (s := s.issued h i c) (h := h) l.world
      ((dstWrites d true 0).map (·.1)) ring seq hseals hin n.isLt (addr_pair_lt (s.view ag) a (.small 64))
      ((s.view ag).src32 b).isLt
    exact ⟨_, execSvc_calls hr hone hheld hout hring hlen hslots hfree hclosed hseals hin, issued_moves hr.here i c, rfl,
      fun b => (called_view ..).trans (issued_view ..), tget_tset_self .., kind, service, argument, length, number, others,
      _, rfl⟩

end Sys2Proof
end

section
/-! PROOF. Stores (R182, R185, R373): a wave's set, byte by byte, and the store of the one lane that takes the word. -/

namespace Sys2Proof.Machine

/-! A wave's set. -/

@[simp] theorem wcell_wput_self (k : Nat) (b : Byte) (tid : Nat) (l : List WCell) : wcell (wput k b tid l) k = some b := by
  induction l with
  | nil => simp [wput, wcell]
  | cons c l ih =>
    unfold wput
    split_ifs with hlt heq
    · simp [wcell]
    · simp [wcell]
    · have ne : (c.key == k) = false := by simpa using fun h => heq h.symm
      simpa [wcell, List.find?_cons, ne] using ih

theorem wcell_wput_ne {k j : Nat} (h : j ≠ k) (b : Byte) (tid : Nat) (l : List WCell) :
    wcell (wput k b tid l) j = wcell l j := by
  have new : (k == j) = false := by simpa using fun e => h e.symm
  induction l with
  | nil => simp [wput, wcell, new]
  | cons c l ih =>
    unfold wput
    split_ifs with hlt heq
    · simp [wcell, List.find?_cons, new]
    · subst heq
      simp [wcell, new]
    · cases hc : c.key == j with
      | true => simp [wcell, hc]
      | false => simpa [wcell, List.find?_cons, hc] using ih

/-- The cells with a store's bytes, whose places `key` gives from the n-th on. -/
def wputs (key : Nat → Nat) (tid : Nat) (bytes : List Byte) (n : Nat) (l : List WCell) : List WCell :=
  (bytes.zipIdx n).foldl (fun l e => wput (key e.2) e.1 tid l) l

theorem wcell_wputs_other {key : Nat → Nat} {tid k : Nat} {bytes : List Byte} {n : Nat} {l : List WCell}
    (h : ∀ j < bytes.length, k ≠ key (n + j)) : wcell (wputs key tid bytes n l) k = wcell l k := by
  induction bytes generalizing n l with
  | nil => rfl
  | cons b bytes ih =>
    have rest := ih (n := n + 1) (l := wput (key n) b tid l) (fun j hj => by
      have := h (j + 1) (by simpa using hj)
      rwa [Nat.add_assoc, Nat.add_comm 1])
    exact rest.trans (wcell_wput_ne (h 0 (by simp)) b tid l)

theorem wcell_wputs_inside {key : Nat → Nat} (inj : Function.Injective key) {tid : Nat} {bytes : List Byte} {n j : Nat}
    {l : List WCell} (hj : j < bytes.length) : wcell (wputs key tid bytes n l) (key (n + j)) = some bytes[j] := by
  induction bytes generalizing n l j with
  | nil => simp at hj
  | cons b bytes ih =>
    cases j with
    | zero =>
      have rest := wcell_wputs_other (key := key) (tid := tid) (k := key n) (bytes := bytes) (n := n + 1)
        (l := wput (key n) b tid l) (fun j _ => fun e => by have := inj e; omega)
      exact rest.trans (wcell_wput_self ..)
    | succ j =>
      have := ih (n := n + 1) (l := wput (key n) b tid l) (j := j) (by simpa using hj)
      rwa [Nat.add_assoc, Nat.add_comm 1] at this

theorem skey_injective (sp : Space) (a : Nat) : Function.Injective (fun j => skey sp (a + j)) := fun i j h => by
  simp only [skey] at h
  omega

/-- The state with a store's bytes in the set of the thread's wave. -/
def State.stored (s : State) (sp : Space) (team tid a : Nat) (bytes : List Byte) : State :=
  s.setWave team (tid / 32) { s.wave team (tid / 32) with
    cells := wputs (fun j => skey sp (a + j)) tid bytes 0 (s.wave team (tid / 32)).cells }

@[simp] theorem wave_setWave (s : State) (team wv : Nat) (w : Wave) : (s.setWave team wv w).wave team wv = w := by
  simp [State.wave, State.setWave]

theorem teamSectors_congr {s t : State} (hw : t.waves = s.waves) (ht : t.teams = s.teams) (team : Nat) :
    t.teamSectors team = s.teamSectors team := by
  simp only [State.teamSectors, hw, ht]

theorem stored_waves {s u : State} (hw : u.waves = s.waves) (sp : Space) (team tid a : Nat) (bytes : List Byte) :
    (u.stored sp team tid a bytes).waves = (s.stored sp team tid a bytes).waves := by
  simp only [State.stored, State.setWave, State.wave, hw]

/-- What a store makes of the sets: its bytes are in its wave's, in the place of those held there; no other byte,
no other wave and nothing collective of the wave has changed. -/
theorem stored_enters {s t : State} {sp : Space} {team tid a : Nat} {bytes : List Byte}
    (ht : t.waves = (s.stored sp team tid a bytes).waves) :
    let w := s.wave team (tid / 32)
    let x := t.wave team (tid / 32)
    (∀ k, k ≠ wkey team (tid / 32) → tget t.waves k = tget s.waves k) ∧
    (∀ j (hj : j < bytes.length), wcell x.cells (skey sp (a + j)) = some bytes[j]) ∧
    (∀ k, (∀ j < bytes.length, k ≠ skey sp (a + j)) → wcell x.cells k = wcell w.cells k) ∧ x.colls = w.colls := by
  intro w x
  have hx : x = (s.stored sp team tid a bytes).wave team (tid / 32) := by simp only [x, State.wave, ht]
  rw [hx, State.stored, wave_setWave]
  refine ⟨fun k hk => ?_, fun j hj => ?_, fun k hk => ?_, rfl⟩
  · rw [ht]
    exact tget_tset_ne _ _ hk
  · have := wcell_wputs_inside (skey_injective sp a) (tid := tid) (n := 0) (l := w.cells) hj
    simpa using this
  · exact wcell_wputs_other (key := fun j => skey sp (a + j)) (fun j hj => by simpa using hk j hj)

/-! One lane's store. -/

/-- A store goes on in its space, unless the walk for its host pages fails. -/
theorem storeLane_sets {s u : State} {h : Here} {x : Site} {team tid a : Nat} {bytes : List Byte} (hloc : x.space ≠ .loc)
    (hreach : ∀ f : Frames → State → State, ∃ xl,
      s.reach h (.thread team tid) x.space a bytes.length false true f = f xl u) :
    s.storeLane h (.thread team tid) x a bytes =
      if h.place.image.teamCap < (u.stored x.space team tid a bytes).teamSectors team ∧
          u.teamSectors team < (u.stored x.space team tid a bytes).teamSectors team then
        u.trapTeam team 0x10 h.group.off a
      else u.stored x.space team tid a bytes := by
  simp only [State.storeLane, if_neg hloc]
  obtain ⟨xl, hxl⟩ := hreach _
  rw [hxl]
  rfl

/-- Outside host memory nothing is translated (R373). -/
theorem reach_device (s : State) (h : Here) (ag : Agent) {sp : Space} (hsp : sp ≠ .host) (a n : Nat) (read write : Bool)
    (f : Frames → State → State) : s.reach h ag sp a n read write f = f [] s := by
  simp [State.reach, hsp]

theorem reach_host {s v : State} {h : Here} {ag : Agent} {a n : Nat} {read write : Bool} {xl : Frames}
    (hx : s.translateRange (h.core / 128) h.place.launch.world h.place.launch.pasid a n write = .ok xl v)
    (f : Frames → State → State) : s.reach h ag .host a n read write f = f xl (v.clearTries ag.waiter) := by
  simp [State.reach, hx]

theorem locStore_shared {s : State} {p : Place} (hp : p.launch.locdev = false) (team tid off n at_ : Nat)
    (f : State → State) : s.locStore p team tid off n at_ f = f s := by
  simp [State.locStore, hp]

end Sys2Proof.Machine
end

section
/-! PROOF. Translation (R372 to R376): what a walk leaves alone. -/

namespace Sys2Proof.Machine

/-- From s to t, the device has walked: no more than what a die caches of translations, and the counter of free values, has
changed. -/
def WalksOnly (s t : State) : Prop := t = { s with free := t.free, tlb := t.tlb, nonLeaf := t.nonLeaf, pctx := t.pctx }

namespace WalksOnly

theorem trans {s t u : State} (h : WalksOnly s t) (k : WalksOnly t u) : WalksOnly s u := by
  unfold WalksOnly at *
  rw [k, h]

theorem draw (s : State) : WalksOnly s s.draw.2 := rfl

theorem pick {α : Type} {s : State} {l : List α} {e : α × State} (h : s.pick l = some e) : WalksOnly s e.2 := by
  match l, h with
  | [_], rfl => rfl
  | _ :: _ :: _, rfl => rfl

theorem context (s : State) (die w p : Nat) : WalksOnly s (s.context die w p).2 := by
  unfold State.context
  split
  · rfl
  · split <;> rfl

theorem cacheLeaf (s : State) (die w p va : Nat) (l : Leaf) : WalksOnly s (s.cacheLeaf die w p va l) := by
  unfold State.cacheLeaf
  dsimp only
  split
  · next hp =>
    split at hp
    · simp at hp
    · exact (pick hp).trans rfl
  · rfl

theorem walkCached (s : State) (die w p root : Nat) (groot : Option Nat) (va : Nat) (write : Bool) :
    WalksOnly s (s.walkCached die w p root groot va write).2 := by
  unfold State.walkCached
  dsimp only
  have starts (l : List (Option NonLeaf)) : WalksOnly s (match s.pick l with | some e => e | none => (none, s)).2 := by
    split
    · next hp => exact pick hp
    · rfl
  have seen (u : State) (l : List (Nat × Nat)) : WalksOnly u (u.cacheSeen die w p va l) := rfl
  split
  · exact ((starts _).trans (seen ..)).trans (cacheLeaf ..)
  · exact (starts _).trans (seen ..)

end WalksOnly

/-- The state that the translation of a page or of a range leaves. -/
def XPage.state : XPage → State
  | .ok _ s => s
  | .miss s => s
  | .invalid s => s

@[inherit_doc XPage.state] def XRange.state : XRange → State
  | .ok _ s => s
  | .miss _ s => s
  | .invalid _ s => s

theorem translatePage_walks (s : State) (die w : Nat) (pasid : Option Nat) (va : Nat) (write : Bool) :
    WalksOnly s (s.translatePage die w pasid va write).state := by
  unfold State.translatePage
  cases pasid with
  | none => rfl
  | some p =>
    have walked {u : State} (hu : WalksOnly s u) : WalksOnly s (XPage.state (match u.context die w p with
        | (none, s) => .invalid s
        | (some (r, g), s) =>
          match s.walkCached die w p r g va write with
          | (some l, s) => .ok l s
          | (none, s) => .miss s)) := by
      have ctx := hu.trans (WalksOnly.context u die w p)
      split
      · next hc => rw [hc] at ctx; exact ctx
      · next r g v hc =>
        rw [hc] at ctx
        have walks := ctx.trans (WalksOnly.walkCached v die w p r g va write)
        split <;> next hw => rw [hw] at walks; exact walks
    dsimp only
    cases (s.cached die w p va).filter (fun l => l.write || !write) with
    | none => exact walked rfl
    | some l =>
      dsimp only
      split
      · exact WalksOnly.draw s
      · exact walked (WalksOnly.draw s)

theorem translatePages_walks (s : State) (die w : Nat) (pasid : Option Nat) (write : Bool) (n pg : Nat) :
    WalksOnly s (s.translatePages die w pasid write n pg).state := by
  induction n generalizing s pg with
  | zero => rfl
  | succ n ih =>
    unfold State.translatePages
    have page := translatePage_walks s die w pasid (pg * 4096) write
    split
    · next l u hu =>
      rw [hu] at page
      have rest := WalksOnly.trans page (ih u (pg + 1))
      split
      · next hr => rw [hr] at rest; exact rest
      · exact rest
    · next hu => rw [hu] at page; exact page
    · next hu => rw [hu] at page; exact page

theorem translateRange_walks {s v : State} {die w : Nat} {pasid : Option Nat} {a n : Nat} {write : Bool} {xl : Frames}
    (h : s.translateRange die w pasid a n write = .ok xl v) : WalksOnly s v := by
  have walks := translatePages_walks s die w pasid write ((a + (n - 1)) / 4096 - a / 4096 + 1) (a / 4096)
  rw [State.translateRange] at h
  rwa [h] at walks

end Sys2Proof.Machine
end

section
/-! PROOF. Stores of the one lane that takes the word: to its wave's set, to its own memory, and to device memory. -/

namespace Sys2Proof.Machine

/-! The store issues. -/

/-- The device memory that a thread's store uses as it issues (R35). -/
def storeUses (h : Here) (x : Site) (ag : Agent) (a n : Nat) : List DevUse :=
  if x.space = .loc then h.place.locUse ag a n true else []

/-- The state in which a store of them takes place: it waits for nothing any more. -/
def State.granted (s : State) (h : Here) (uses : List DevUse) : State :=
  uses.foldl (fun s u => if u.write then s.wrote h.place.launch.world (.word u.agent) else s)
    (s.fills h.place.launch.world uses).2

/-- A store reads nothing of device memory, so that nothing is filled. -/
theorem granted_store (s : State) (h : Here) (x : Site) (ag : Agent) (a n : Nat) :
    s.granted h (storeUses h x ag a n) = s ∨
      s.granted h (storeUses h x ag a n) = s.wrote h.place.launch.world (.word ag) := by
  unfold State.granted storeUses Place.locUse
  split
  · cases ag with
    | uniform => exact .inl rfl
    | thread team tid => dsimp only; split <;> [exact .inr rfl; exact .inl rfl]
  · exact .inl rfl

theorem storeUses_none {h : Here} {x : Site} (hx : x.space ≠ .loc ∨ h.place.launch.locdev = false)
    (ag : Agent) (a n : Nat) : storeUses h x ag a n = [] := by
  unfold storeUses Place.locUse
  rcases hx with hx | hx
  · rw [if_neg hx]
  · split
    · cases ag <;> simp [hx]
    · rfl

theorem granted_rest (s : State) (h : Here) (x : Site) (ag : Agent) (a n : Nat) :
    let t := s.granted h (storeUses h x ag a n)
    t = { s with worlds := t.worlds } := by
  intro t
  rcases granted_store s h x ag a n with e | e
  · unfold t; rw [e]
  · unfold t
    rw [e, State.wrote]
    split <;> rfl

section Issues

variable {i : Instr} {c : Ctl} {s : State} {h : Here} {x : Site} {ag : Agent}

/-- A store that one lane takes, with no FENCE and no access of it to the same bytes open, issues once it may write. -/
theorem access_stores {n : Nat} {addr : Site → View → Nat} {bytes : View → List Byte} (hr : Ready i s h)
    (hx : h.site = some x) (hone : Alone h c s ag) (hheld : s.heldBy ag (·.data) = false)
    (hover : overlaps s.pends ag x.space (addr x (s.view ag)) n = false)
    (hfree : s.devFree h.place.launch (storeUses h x ag (addr x (s.view ag)) n)) :
    access i c s (fun h x s =>
      stores h c x n (fun ag s => addr x (s.view ag)) (fun ag s => bytes (s.view ag)) s) =
      .next (((s.issued h i c).granted h (storeUses h x ag (addr x (s.view ag)) n)).storeLane h ag x
        (addr x (s.view ag)) (bytes (s.view ag))) := by
  refine issue_done hr ?_
  have rest := granted_rest (s.issued h i c) h x ag (addr x (s.view ag)) n
  have free := devFree_alike (issued_alike s h i c) hfree
  have uses : (if x.space = .loc then [ag].flatMap (fun ag => h.place.locUse ag (addr x (s.view ag)) n true)
      else []) = storeUses h x ag (addr x (s.view ag)) n := by simp [storeUses]
  simp only [hx, issued_taking, hone.takes, List.any_cons, List.any_nil, issued_heldBy, hheld, Bool.or_self,
    Bool.false_eq_true, if_false, stores, uses, issued_pends, issued_view, hover]
  rw [devWords_free free]
  generalize ht : (s.issued h i c).granted h (storeUses h x ag (addr x (s.view ag)) n) = t at rest
  have threads : t.threads = s.threads := by rw [rest]; rfl
  have teams : t.teams = s.teams := by rw [rest]; rfl
  unfold State.granted at ht
  rw [ht, taking_congr h c threads teams, hone.takes, eachLane_one _ ((alive_congr threads teams ag).trans hone.alive),
    view_congr threads teams]

end Issues

end Sys2Proof.Machine
end

section
/-! PROOF. What the stores come to. -/

namespace Sys2Proof.Machine

/-! A thread's own memory (R35). -/

/-- What a thread's registers read as does not depend on its local memory. -/
theorem view_of_windows {s t : State} (hm : t.teams = s.teams)
    (hw : ∀ k, (tget t.threads k).map (·.win) = (tget s.threads k).map (·.win)) (b : Agent) : t.view b = s.view b := by
  cases b with
  | thread team tid =>
    have windows := hw (tkey team tid)
    simp only [State.view, State.thread, hm]
    cases e : tget t.threads (tkey team tid) <;> cases e' : tget s.threads (tkey team tid) <;> simp_all
  | uniform team => simp only [State.view, hm]

/-- Bytes written to a thread's own memory. -/
def State.setLoc (s : State) (team tid off : Nat) (bytes : List Byte) : State :=
  s.modThread team tid (fun t => { t with loc := t.loc.writeN off bytes })

theorem locWrites_own {s : State} {p : Place} (hp : p.launch.locdev = false) (team tid off : Nat) (bytes : List Byte) :
    s.locWrites p team tid off bytes = s.setLoc team tid off bytes := by
  induction bytes generalizing s off with
  | nil => exact (congrArg (fun t => { s with threads := t }) (tmod_id s.threads (tkey team tid))).symm
  | cons b bytes ih =>
    rw [State.locWrites, ih]
    simp only [hp, Bool.false_eq_true, if_false, State.setLoc, State.modThread, tmod_tmod]
    rfl

section SetLoc

variable (s : State) (team tid off : Nat) (bytes : List Byte)

theorem setLoc_view (v : Agent) : (s.setLoc team tid off bytes).view v = s.view v := by
  refine view_of_windows (s := s) (t := s.setLoc team tid off bytes) rfl (fun k => ?_) v
  rw [State.setLoc, State.modThread, tget_tmod]
  split
  · next e => rw [e, Option.map_map]; rfl
  · rfl

theorem setLoc_thread : (s.setLoc team tid off bytes).thread team tid =
    (s.thread team tid).map (fun t => { t with loc := t.loc.writeN off bytes }) := by
  rw [State.setLoc, State.modThread, State.thread, tget_tmod_self]
  rfl

end SetLoc

/-- What is written there is read there, and every other byte is as before. -/
theorem setLoc_reads {s : State} {p : Place} {team tid off : Nat} {bytes : List Byte} (hp : p.launch.locdev = false)
    (halive : s.alive (.thread team tid) = true) :
    let t := s.setLoc team tid off bytes
    (∀ j (hj : j < bytes.length), t.locRead p team tid (off + j) = bytes[j]) ∧
      ∀ o, o < off ∨ off + bytes.length ≤ o → t.locRead p team tid o = s.locRead p team tid o := by
  intro t
  obtain ⟨u, hu⟩ := Option.isSome_iff_exists.mp (halive : (s.thread team tid).isSome = true)
  have new : t.thread team tid = some { u with loc := u.loc.writeN off bytes } := by rw [setLoc_thread, hu]; rfl
  simp only [State.locRead, hp, Bool.false_eq_true, if_false, new, hu]
  exact ⟨fun j hj => Mem.read_writeN_inside hj, fun o ho => Mem.read_writeN_outside ho⟩

/-! A local area in device memory (R35, R212, R385). -/

theorem readOnly_congr {s t : State} (h : t.images = s.images) (w a : Nat) : t.readOnly w a = s.readOnly w a := by
  simp only [State.readOnly, h]

theorem confTile_uncached {s : State} (h : s.recs = []) (w a : Nat) : s.confTile w a = none := by
  simp [State.confTile, h]

/-- With no record cached and no byte read-only a store there goes on. -/
theorem locStore_free {s : State} {p : Place} (hrecs : s.recs = []) {tid off n : Nat}
    (hro : ∀ j < n, s.readOnly p.launch.world (p.locBase tid + off + j) = false) (team at_ : Nat) (f : State → State) :
    s.locStore p team tid off n at_ f = f s := by
  have refused : s.refused p.launch.world (p.locBase tid + off) n = none := by
    simp [State.refused, confTile_uncached hrecs]
  have free : s.sealedByte p.launch.world (p.locBase tid + off) n = none := by
    simpa [State.sealedByte] using hro
  simp [State.locStore, refused, free]

theorem devRead_clear {s : State} {w a q : Nat} (hrecs : s.recs = []) (hu : s.unsealed w) (ha : s.devAddr w a = some q) :
    s.devRead w a = s.hbm.read q := by
  have byte := devByte_unsealed hu ha
  simp only [State.devByte, ha] at byte
  simpa [State.devRead, State.readBy, ha, State.ivOf, confTile_uncached hrecs] using byte

/-- The j-th byte of a store to a thread's local area has this package address. -/
def State.lies (s : State) (p : Place) (tid off j : Nat) : Option Nat := s.devAddr p.launch.world (p.locBase tid + off + j)

theorem lies_succ (s : State) (p : Place) (tid off j : Nat) : s.lies p tid (off + 1) j = s.lies p tid off (j + 1) :=
  congrArg (s.devAddr p.launch.world) (by omega)

/-- A store to a local area in device memory changes no more than the bytes of HBM that it lies at, and the lines that the
host may hold. -/
theorem locWrites_device {s : State} {p : Place} {tid off : Nat} {bytes : List Byte} (hp : p.launch.locdev = true)
    (hu : s.unsealed p.launch.world) (hc : s.windowsClosed p.launch.world)
    (hro : ∀ j < bytes.length, s.readOnly p.launch.world (p.locBase tid + off + j) = false)
    (hlies : ∀ j < bytes.length, (s.lies p tid off j).isSome = true) (team : Nat) :
    ∃ m l o, s.locWrites p team tid off bytes = { s with hbm := m, shared := l, outbox := o } ∧
      (∀ q, (∀ j < bytes.length, s.lies p tid off j ≠ some q) → m.read q = s.hbm.read q) ∧
      ((∀ j < bytes.length, ∀ k < bytes.length, s.lies p tid off j = s.lies p tid off k → j = k) →
        ∀ j (hj : j < bytes.length) q, s.lies p tid off j = some q → m.read q = bytes[j]) := by
  induction bytes generalizing s off with
  | nil => exact ⟨_, _, _, rfl, fun _ _ => rfl, fun _ j hj => absurd hj (Nat.not_lt_zero j)⟩
  | cons b bytes ih =>
    have shift {j : Nat} (hj : j < bytes.length) : j + 1 < (b :: bytes).length := by simpa using hj
    have free : s.readOnly p.launch.world (p.locBase tid + off) = false := hro 0 (by simp)
    obtain ⟨q, hq⟩ := Option.isSome_iff_exists.mp (hlies 0 (by simp))
    obtain ⟨l, o, pokes⟩ := devPoke_clear hu hc hq b
    let v : State := State.placedBy { s with hbm := s.hbm.write q b, shared := l, outbox := o } p.launch.world
      p.team.cluster (p.locBase tid + off)
    have writes : s.locWrites p team tid off (b :: bytes) = v.locWrites p team tid (off + 1) bytes := by
      rw [State.locWrites, if_pos hp, State.devWrite, free, if_neg Bool.false_ne_true]
      exact congrArg (fun t => State.locWrites (State.placedBy t _ _ _) p team tid (off + 1) bytes) pokes
    have next (j : Nat) : v.lies p tid (off + 1) j = s.lies p tid off (j + 1) := lies_succ s p tid off j
    obtain ⟨m, l', o', rest, others, reads⟩ := ih (s := v) (off := off + 1) hu hc
      (fun j hj => (congrArg (s.readOnly p.launch.world) (by omega)).trans (hro (j + 1) (shift hj)))
      (fun j hj => by rw [next]; exact hlies (j + 1) (shift hj))
    refine ⟨m, l', o', writes.trans rest, fun r hr => ?_, fun inj j hj r hr => ?_⟩
    · refine (others r fun j hj => ?_).trans (Mem.read_write_ne b ?_)
      · rw [next]
        exact hr (j + 1) (shift hj)
      · rintro rfl
        exact hr 0 (by simp) hq
    · cases j with
      | zero =>
        obtain rfl : q = r := Option.some.inj (hq.symm.trans hr)
        refine (others q fun j hj => ?_).trans (Mem.read_write_self ..)
        rw [next]
        intro again
        exact absurd (inj 0 (by simp) (j + 1) (shift hj) (hr.trans again.symm)) (by omega)
      | succ j =>
        refine reads (fun i hi k hk same => ?_) j (by simpa using hj) r ((next j).trans hr)
        rw [next, next] at same
        exact Nat.succ.inj (inj (i + 1) (shift hi) (k + 1) (shift hk) same)

end Sys2Proof.Machine
end

section
/-! PROOF. The clauses of a store: to its wave's set, to host memory's, to a local area in device memory and to the thread's
own. -/

namespace Sys2Proof.Machine

/-! What an issue and the end of a wait leave alone. -/

theorem SameDevice.of_alike {s u : State} (h : s.alike u) : SameDevice s u := by
  unfold State.alike at h
  refine ⟨?_, ?_, ?_, ?_, fun w => ?_, fun w => ?_⟩ <;> rw [h] <;> rfl

theorem windowsClosed_congr {s t : State} (h : t.worlds = s.worlds) {w : Nat} (hc : s.windowsClosed w) :
    t.windowsClosed w := fun i => by rw [State.world_congr h]; exact hc i

theorem SameDevice.unsealed {s t : State} (h : SameDevice s t) {w : Nat} (hu : s.unsealed w) : t.unsealed w :=
  ⟨(h.keys w).trans hu.1, h.seals.trans hu.2⟩

theorem SameDevice.wrote (s : State) (w : Nat) (who : Writer) : SameDevice s (s.wrote w who) := by
  unfold State.wrote
  split
  · exact SameDevice.setWorld s w (fun _ => rfl) (fun _ => rfl)
  · exact ⟨rfl, rfl, rfl, rfl, fun _ => rfl, fun _ => rfl⟩

theorem wrote_closed {s : State} {v : Nat} (hc : s.windowsClosed v) (w : Nat) (who : Writer) :
    (s.wrote w who).windowsClosed v := by
  unfold State.wrote
  split
  · intro i
    by_cases hw : v = w
    · subst hw
      rw [State.world_setWorld]
      exact hc i
    · rw [State.world_setWorld_ne s _ hw]
      exact hc i
  · exact hc

section Clauses

variable {i : Instr} {c : Ctl} {s : State} {h : Here} {x : Site} {team tid a : Nat} {bytes : List Byte}

/-- A store whose bytes fit is in its wave's set. -/
theorem storeLane_fits {u : State} (hloc : x.space ≠ .loc) (hw : u.waves = s.waves) (hm : u.teams = s.teams)
    (hreach : ∀ f : Frames → State → State, ∃ xl,
      (s.issued h i c).reach h (.thread team tid) x.space a bytes.length false true f = f xl u)
    (room : (s.stored x.space team tid a bytes).teamSectors team ≤ h.place.image.teamCap) :
    (s.issued h i c).storeLane h (.thread team tid) x a bytes = u.stored x.space team tid a bytes := by
  rw [storeLane_sets hloc hreach, teamSectors_congr (stored_waves hw x.space team tid a bytes) hm]
  exact if_neg (fun full => absurd full.1 (not_lt.mpr room))

/-- Where the host pages of a store are translated, no more has changed than what a die caches of translations, and its
thread has asked for no page (R372, R378). -/
theorem translated_rest {v : State} {die w n : Nat} {pasid : Option Nat} {write : Bool} {xl : Frames} {who : Waiter}
    (hx : (s.issued h i c).translateRange die w pasid a n write = .ok xl v) :
    let u := v.clearTries who
    u = { s with
      passes := (s.issued h i c).passes, perf := (s.issued h i c).perf, free := u.free, tries := u.tries, tlb := u.tlb
      nonLeaf := u.nonLeaf, pctx := u.pctx } := by
  intro u
  have walks := translateRange_walks hx
  unfold u State.clearTries
  rw [walks]
  rfl

/-- A store to a local area in device memory comes to lie there. -/
theorem storeLane_device (hp : h.place.launch.locdev = true) (hx : x.space = .loc) (hrecs : s.recs = [])
    (hu : s.unsealed h.place.launch.world) (hc : s.windowsClosed h.place.launch.world)
    (hro : ∀ j < bytes.length, s.readOnly h.place.launch.world (h.place.locBase tid + a + j) = false)
    (hlies : ∀ j < bytes.length, (s.lies h.place tid a j).isSome = true) :
    let t := s.storeLane h (.thread team tid) x a bytes
    t = { s with hbm := t.hbm, shared := t.shared, outbox := t.outbox } ∧
      (∀ q, (∀ j < bytes.length, s.lies h.place tid a j ≠ some q) → t.hbm.read q = s.hbm.read q) ∧
      ((∀ j < bytes.length, ∀ k < bytes.length, s.lies h.place tid a j = s.lies h.place tid a k → j = k) →
        ∀ j (hj : j < bytes.length), t.locRead h.place team tid (a + j) = bytes[j]) := by
  intro t
  obtain ⟨m, l, o, writes, others, reads⟩ := locWrites_device hp hu hc hro hlies team
  have lane : t = { s with hbm := m, shared := l, outbox := o } := by
    simp only [t, State.storeLane, if_pos hx]
    rw [locStore_free hrecs hro, writes]
  rw [lane]
  refine ⟨rfl, others, fun inj j hj => ?_⟩
  obtain ⟨q, hq⟩ := Option.isSome_iff_exists.mp (hlies j hj)
  rw [State.locRead, if_pos hp, ← Nat.add_assoc]
  refine (devRead_clear (q := q) ?_ ?_ ?_).trans (reads inj j hj q hq)
  exacts [hrecs, hu, hq]

theorem storeLane_own (hp : h.place.launch.locdev = false) (hx : x.space = .loc) :
    s.storeLane h (.thread team tid) x a bytes = s.setLoc team tid a bytes := by
  simp only [State.storeLane, if_pos hx]
  rw [locStore_shared hp, locWrites_own hp]

end Clauses

end Sys2Proof.Machine
end

section
/-! PROOF. Stores, clause by clause. -/

namespace Sys2Proof.Machine

/-- From s to t the bytes of a store have entered the set of the thread's wave, and the group stands behind the word. -/
def Here.entered (h : Here) (c : Ctl) (s t : State) (sp : Space) (team tid a : Nat) (bytes : List Byte) : Prop :=
  movedOn h c t ∧ (∀ k, k ≠ wkey team (tid / 32) → tget t.waves k = tget s.waves k) ∧
    (∀ j (hj : j < bytes.length), wcell (t.wave team (tid / 32)).cells (skey sp (a + j)) = some bytes[j]) ∧
    (∀ k, (∀ j < bytes.length, k ≠ skey sp (a + j)) →
      wcell (t.wave team (tid / 32)).cells k = wcell (s.wave team (tid / 32)).cells k) ∧
    (t.wave team (tid / 32)).colls = (s.wave team (tid / 32)).colls

section Clauses

variable {i : Instr} {c : Ctl} {s : State} {h : Here} {x : Site} {team tid a : Nat} {bytes : List Byte}
  (hexec : s.devFree h.place.launch (storeUses h x (.thread team tid) a bytes.length) → exec i s =
    .next (((s.issued h i c).granted h (storeUses h x (.thread team tid) a bytes.length)).storeLane h (.thread team tid) x a
      bytes))

theorem stored_entered {u : State} (hh : s.here = some h) (hp : u.passes = (s.issued h i c).passes)
    (hw : u.waves = s.waves) (sp : Space) :
    h.entered c s (u.stored sp team tid a bytes) sp team tid a bytes :=
  ⟨movedOn_congr (by exact hp) (issued_moves hh i c), stored_enters (stored_waves hw sp team tid a bytes)⟩

include hexec

/-- A store that uses no device memory as it issues issues at once. -/
theorem shared_exec (hx : x.space ≠ .loc ∨ h.place.launch.locdev = false) :
    exec i s = .next ((s.issued h i c).storeLane h (.thread team tid) x a bytes) := by
  have none := storeUses_none hx (.thread team tid) a bytes.length
  have runs := hexec (.inl none)
  rwa [none] at runs

variable (hh : s.here = some h)
  (room : (s.stored x.space team tid a bytes).teamSectors team ≤ h.place.image.teamCap)

include hh room in
theorem store_device_enters (hhost : x.space ≠ .host) (hloc : x.space ≠ .loc) : nextWith (exec i s) (fun t =>
    h.entered c s t x.space team tid a bytes ∧
      t = { s with waves := t.waves, passes := t.passes, perf := t.perf }) := by
  have fits := storeLane_fits (i := i) (c := c) (u := s.issued h i c) hloc (issued_waves ..) (issued_teams ..)
    (fun f => ⟨[], reach_device _ h _ hhost a _ _ _ f⟩) room
  refine ⟨_, (shared_exec hexec (.inl hloc)).trans (congrArg _ fits), stored_entered hh rfl (issued_waves ..) _, ?_⟩
  unfold State.stored State.setWave
  rw [issued_rest]

include hh room in
theorem store_host_enters (hhost : x.space = .host) {xl : Frames} (htranslates : ∀ u : State, s.alike u →
    ∃ v, u.translateRange (h.core / 128) h.place.launch.world h.place.launch.pasid a bytes.length true = .ok xl v) :
    nextWith (exec i s) (fun t => h.entered c s t x.space team tid a bytes ∧
      t = { s with
        waves := t.waves, passes := t.passes, perf := t.perf, free := t.free, tries := t.tries, tlb := t.tlb
        nonLeaf := t.nonLeaf, pctx := t.pctx }) := by
  obtain ⟨v, hv⟩ := htranslates _ (issued_alike s h i c)
  have hloc : x.space ≠ .loc := by rw [hhost]; decide
  have rest := translated_rest (who := Agent.waiter (.thread team tid)) hv
  generalize hu : v.clearTries (Agent.waiter (.thread team tid)) = u at rest
  have fits := storeLane_fits (i := i) (c := c) (u := u) (a := a) hloc (by rw [rest]) (by rw [rest])
    (fun f => ⟨xl, by rw [hhost, ← hu]; exact reach_host hv f⟩) room
  refine ⟨_, (shared_exec hexec (.inl hloc)).trans (congrArg _ fits),
    stored_entered (i := i) hh (by rw [rest]) (by rw [rest]) _, ?_⟩
  unfold State.stored State.setWave
  rw [rest]

include hh in
/-- A thread's own memory has the bytes at once. -/
theorem store_own (hx : x.space = .loc) (hp : h.place.launch.locdev = false) (halive : s.alive (.thread team tid) = true) :
    nextWith (exec i s) (fun t =>
      t = { s with threads := t.threads, passes := t.passes, perf := t.perf } ∧ movedOn h c t ∧
        (∀ v, t.view v = s.view v) ∧ (∀ j (hj : j < bytes.length), t.locRead h.place team tid (a + j) = bytes[j]) ∧
        (∀ o, o < a ∨ a + bytes.length ≤ o → t.locRead h.place team tid o = s.locRead h.place team tid o)) := by
  obtain ⟨written, others⟩ := setLoc_reads (s := s.issued h i c) (off := a) (bytes := bytes) hp (by simpa using halive)
  have old (o : Nat) : (s.issued h i c).locRead h.place team tid o = s.locRead h.place team tid o := by
    simp only [State.locRead, hp, Bool.false_eq_true, if_false]
    rfl
  refine ⟨_, (shared_exec hexec (.inr hp)).trans (congrArg _ (storeLane_own hp hx)), ?_,
    movedOn_congr (s := s.issued h i c) rfl (issued_moves hh i c), fun v => ?_, written,
    fun o ho => (others o ho).trans (old o)⟩
  · unfold State.setLoc State.modThread
    rw [issued_rest]
  · exact (setLoc_view ..).trans (issued_view ..)

include hh in
/-- So has device memory, where a local area lies in it. -/
theorem store_locdev (hx : x.space = .loc) (hp : h.place.launch.locdev = true)
    (hfree : s.devFree h.place.launch (h.place.locUse (.thread team tid) a bytes.length true)) (hrecs : s.recs = [])
    (hclosed : s.windowsClosed h.place.launch.world) (hunsealed : s.unsealed h.place.launch.world)
    (hlies : ∀ j < bytes.length, s.readOnly h.place.launch.world (h.place.locBase tid + a + j) = false ∧
      (s.lies h.place tid a j).isSome = true ∧ ∀ k < bytes.length, s.lies h.place tid a j = s.lies h.place tid a k → j = k) :
    nextWith (exec i s) (fun t => movedOn h c t ∧ (∀ v, t.view v = s.view v) ∧ t.waves = s.waves ∧ t.hostMem = s.hostMem ∧
      (∀ j (hj : j < bytes.length), t.locRead h.place team tid (a + j) = bytes[j]) ∧
      (∀ p, (∀ j < bytes.length, s.lies h.place tid a j ≠ some p) → t.hbm.read p = s.hbm.read p)) := by
  have uses : storeUses h x (.thread team tid) a bytes.length = h.place.locUse (.thread team tid) a bytes.length true :=
    if_pos hx
  have runs := hexec (uses ▸ hfree)
  have rest := granted_rest (s.issued h i c) h x (.thread team tid) a bytes.length
  have grant := granted_store (s.issued h i c) h x (.thread team tid) a bytes.length
  generalize hu : (s.issued h i c).granted h (storeUses h x (.thread team tid) a bytes.length) = u at runs rest grant
  have alike := SameDevice.of_alike (issued_alike s h i c)
  have issuedClosed : (s.issued h i c).windowsClosed h.place.launch.world := windowsClosed_congr rfl hclosed
  obtain ⟨same, closed⟩ : SameDevice s u ∧ u.windowsClosed h.place.launch.world := by
    rcases grant with rfl | rfl
    · exact ⟨alike, issuedClosed⟩
    · exact ⟨alike.trans (SameDevice.wrote ..), wrote_closed issuedClosed _ _⟩
  have lies (j : Nat) : u.lies h.place tid a j = s.lies h.place tid a j := same.devAddr ..
  have images : u.images = s.images := by rw [rest]; rfl
  obtain ⟨lane, others, reads⟩ := storeLane_device (s := u) (x := x) (team := team) (tid := tid) (a := a) (bytes := bytes)
    hp hx (same.recs.trans hrecs) (same.unsealed hunsealed) closed
    (fun j hj => (readOnly_congr images ..).trans (hlies j hj).1) (fun j hj => by rw [lies]; exact (hlies j hj).2.1)
  generalize u.storeLane h (.thread team tid) x a bytes = t at runs lane others reads
  refine ⟨t, runs, movedOn_congr (s := s.issued h i c) (by rw [lane, rest]) (issued_moves hh i c),
    fun v => view_congr (by rw [lane, rest]; rfl) (by rw [lane, rest]; rfl) v, by rw [lane, rest]; rfl,
    by rw [lane, rest]; rfl, reads fun j hj k hk e => ?_, fun p hne => ?_⟩
  · rw [lies, lies] at e
    exact (hlies j hj).2.2 k hk e
  · exact (others p fun j hj => by rw [lies]; exact hne j hj).trans (congrArg (fun m : Mem => m.read p) same.hbm)

end Clauses

end Sys2Proof.Machine
end

section
/-! PROOF. A team trap (R244, R246): its record, the threads that stop, and what the breaking of locks leaves alone (R199). -/

namespace Sys2Proof.Machine

/-! The record in the fault ring (R246). -/

theorem SameDevice.readTime (s : State) (w : Nat) : SameDevice s (s.readTime w).2 := by
  unfold State.readTime
  dsimp only
  exact SameDevice.setWorld s w (fun _ => rfl) (fun _ => rfl)

theorem trapSlot_readTime (s : State) (w : Nat) : (s.readTime w).2.trapSlot w = s.trapSlot w := by
  simp [State.trapSlot, State.readTime]

/-- A ring that is free is so whenever the world time has been read. -/
theorem ringFree_readTime {s : State} {w : Nat} (h : s.ringFree w) : (s.readTime w).2.ringFree w := by
  obtain ⟨slots, aligned, empty, mapped, closed, unsealed, dues, active, waiting⟩ := h
  have same := SameDevice.readTime s w
  have slot := trapSlot_readTime s w
  refine ⟨by simpa [State.readTime] using slots, ?_, ?_, ?_, fun i => ?_, same.unsealed unsealed, dues,
    by simpa [State.readTime] using active, by simpa [State.readTime] using waiting⟩
  · rw [slot]
    exact aligned
  · rw [slot, same.devNat]
    exact empty
  · rw [slot, same.devAddr]
    exact mapped
  · simpa [State.readTime] using closed i

theorem ringFree_alike {s u : State} (h : s.alike u) {w : Nat} (hf : s.ringFree w) : u.ringFree w := by
  unfold State.alike at h
  rw [h]
  exact hf

/-- The first doubleword of a trap record has the count of the records dropped before it. -/
def State.trapHead (s : State) (w : Nat) (b : List Byte) : List Byte :=
  bytesOfNat 8 (natOfBytes (b.take 8) + 2 ^ 16 * (s.world w).frdrop)

theorem trapHead_length (s : State) (w : Nat) (b : List Byte) : (s.trapHead w b).length = 8 := bytesOfNat_length ..

/-- A world whose fault ring has one record more. -/
def World.trapped (x : World) : World := { x with frindex := x.frindex + 1, frdrop := 0 }

/-- A trap record that can be written as it arises is written to the ring's next slot. -/
theorem own_trap {s : State} {w : Nat} (h : s.ringFree w) (b : List Byte) :
    s.own w (.trap b) = (s.devPokes w (s.trapSlot w) (s.trapHead w b ++ b.drop 8)).setWorld w World.trapped := by
  obtain ⟨slots, -, empty, -, -, -, dues, active, waiting⟩ := h
  have turn : s.ownTurn w s.nextId (.trap b) = true := by simp [State.ownTurn, dues]
  have free : s.ownFree w s.nextId (.trap b) = true := by simp [State.ownFree, State.mayWrite, active, waiting]
  have room : ¬ ((decide ((s.world w).frslots = 0) || s.devNat w (s.trapSlot w) 8 != 0) = true) := by
    simp [slots, empty]
  rw [State.own, turn, free]
  exact if_neg room

/-- It lies there. -/
theorem own_trap_lies {s : State} {w : Nat} {b : List Byte} (h : s.ringFree w) (hb : b.length = 64) {i : Nat} (hi : i < 8) :
    (s.own w (.trap b)).devNat w (s.trapSlot w + i) 1 = natAt (s.trapHead w b) i 1 := by
  have owns := own_trap h b
  obtain ⟨-, aligned, -, mapped, closed, unsealed, -⟩ := h
  obtain ⟨p, hp⟩ := Option.isSome_iff_exists.mp mapped
  have head : i < (s.trapHead w b).length := by rwa [trapHead_length]
  generalize hr : s.trapHead w b ++ b.drop 8 = r at owns
  have length : r.length = 64 := by rw [← hr, List.length_append, trapHead_length, List.length_drop]; omega
  obtain ⟨l, o, lies⟩ := devPokes_clear unsealed closed hp (b := r) (by omega)
  generalize hv : s.devPokes w (s.trapSlot w) r = v at owns lies
  have same : SameDevice v (v.setWorld w World.trapped) := SameDevice.setWorld v w (fun _ => rfl) (fun _ => rfl)
  have address : v.devAddr w (s.trapSlot w + i) = some (p + i) := by
    rw [lies]
    exact devAddr_add hp (by omega)
  have clear : v.unsealed w := by
    rw [lies]
    exact unsealed
  have byte : v.devByte w (s.trapSlot w + i) = r[i] := by
    rw [devByte_unsealed clear address, lies]
    exact Mem.read_writeN_inside (by omega)
  have first : (s.trapHead w b)[i] = r[i] := by
    simp only [← hr]
    rw [List.getElem_append_left head]
  rw [owns, same.devNat]
  simp only [State.devNat, State.devBytes, List.range_one, List.map_cons, List.map_nil, Nat.add_zero, byte, natAt]
  rw [List.take_one_drop_eq_of_lt_length head]
  exact congrArg (fun c => natOfBytes [c]) first.symm

theorem own_trap_told {s : State} {w code : Nat} {team : Bool} {b : List Byte} (h : s.ringFree w) (hb : b.length = 64)
    (hcode : natAt (s.trapHead w b) 0 1 = code) (hteam : natAt (s.trapHead w b) 1 1 = natOfBool team) :
    s.trapTold (s.own w (.trap b)) w code team :=
  ⟨(own_trap_lies h hb (i := 0) (by decide)).trans hcode, (own_trap_lies h hb (i := 1) (by decide)).trans hteam⟩

/-- A trap record begins with its code, and with whether a team has stopped. -/
theorem trapHead_says (s : State) (w : Nat) {code id : Nat} (team : Bool) (b : List Byte) (hcode : code < 256) :
    let l := s.trapHead w (bytesOfNat 8 (code + 2 ^ 8 * natOfBool team + 2 ^ 32 * id) ++ b)
    natAt l 0 1 = code ∧ natAt l 1 1 = natOfBool team := by
  have flag : natOfBool team < 2 := by cases team <;> decide
  intro l
  have head : l = bytesOfNat 8 ((code + 2 ^ 8 * natOfBool team + 2 ^ 32 * id) % 256 ^ 8 + 2 ^ 16 * (s.world w).frdrop) := by
    unfold l State.trapHead
    rw [List.take_append_of_le_length (by simp), List.take_of_length_le (by simp), natOfBytes_bytesOfNat]
  rw [head, natAt_bytesOfNat _ (by norm_num), natAt_bytesOfNat _ (by norm_num)]
  omega

/-- A trap record is written at the world time, with its code and what has stopped in its first doubleword. -/
theorem trapRecord_owns (s : State) (p : Place) (code : Nat) (team : Bool) (tid core off aux : Nat) :
    ∃ b : List Byte, b.length = 56 ∧ s.trapRecord p code team tid core off aux =
      (s.readTime p.launch.world).2.own p.launch.world
        (.trap (bytesOfNat 8 (code + 2 ^ 8 * natOfBool team + 2 ^ 32 * p.image.id.toNat) ++ b)) := by
  unfold State.trapRecord
  simp only [List.append_assoc]
  refine ⟨_, ?_, rfl⟩
  simp only [List.length_append, bytesOfNat_length]

/-- It says them. -/
theorem trapRecord_told {s : State} {p : Place} {code : Nat} (hcode : code < 256) (team : Bool) (tid core off aux : Nat)
    (h : s.ringFree p.launch.world) :
    s.trapTold (s.trapRecord p code team tid core off aux) p.launch.world code team := by
  obtain ⟨b, hb, owns⟩ := trapRecord_owns s p code team tid core off aux
  have ready := ringFree_readTime h
  have slot := trapSlot_readTime s p.launch.world
  rw [owns]
  generalize (s.readTime p.launch.world).2 = u at ready slot
  obtain ⟨kind, stops⟩ := trapHead_says u p.launch.world (id := p.image.id.toNat) team b hcode
  have told := own_trap_told ready (by rw [List.length_append, bytesOfNat_length, hb]) kind stops
  unfold State.trapTold at told ⊢
  rwa [← slot]

end Sys2Proof.Machine
end

section
/-! PROOF. A team that stops (R244): no thread of it is left, nor what its sets held; and a store for which they have no
room stops it (R95, R182). -/

namespace Sys2Proof.Machine

/-! Threads end. -/

theorem mem_tdel {α : Type} {l : Table α} {k : Nat} {e : Nat × α} (h : e ∈ tdel l k) : e ∈ l ∧ e.1 ≠ k := by
  induction l with
  | nil => cases h
  | cons d l ih =>
    obtain ⟨j, a⟩ := d
    by_cases hj : j = k
    · simp only [tdel, hj, if_true] at h
      exact ⟨List.mem_cons_of_mem _ (ih h).1, (ih h).2⟩
    · simp only [tdel, hj, if_false, List.mem_cons] at h
      rcases h with rfl | h
      · exact ⟨List.mem_cons_self .., hj⟩
      · exact ⟨List.mem_cons_of_mem _ (ih h).1, (ih h).2⟩

/-- From s to t, these threads of the team have ended: the others that are in t were in s, no team has come or gone, and
device memory reads as before. -/
structure ThreadsEnd (team : Nat) (tids : List Nat) (s t : State) : Prop where
  device : SameDevice s t
  threads : ∀ e ∈ t.threads, e ∈ s.threads ∧ ∀ tid ∈ tids, e.1 ≠ tkey team tid
  teams : ∀ q, (tget t.teams q).isSome = (tget s.teams q).isSome

theorem endThread_ends (s : State) (team tid : Nat) (stopped : Bool) :
    ThreadsEnd team [tid] s (s.endThread team tid stopped) := by
  have teams (u : State) (f : Team → Team) (q : Nat) : (tget (u.modTeam team f).teams q).isSome = (tget u.teams q).isSome := by
    rw [State.modTeam, tget_tmod]
    split
    · next e => rw [e, Option.isSome_map]
    · rfl
  have gone : ∀ e ∈ tdel s.threads (tkey team tid), e ∈ s.threads ∧ ∀ i ∈ [tid], e.1 ≠ tkey team i :=
    fun e he => ⟨(mem_tdel he).1, by simpa using (mem_tdel he).2⟩
  unfold State.endThread
  dsimp only
  split <;> exact ⟨⟨rfl, rfl, rfl, rfl, fun _ => rfl, fun _ => rfl⟩, gone, fun q => teams ..⟩

theorem endThreads_end (s : State) (team : Nat) (tids : List Nat) :
    ThreadsEnd team tids s (tids.foldl (fun s t => s.endThread team t true) s) := by
  induction tids generalizing s with
  | nil => exact ⟨⟨rfl, rfl, rfl, rfl, fun _ => rfl, fun _ => rfl⟩, fun e he => ⟨he, by simp⟩, fun _ => rfl⟩
  | cons tid tids ih =>
    have one := endThread_ends s team tid true
    have rest := ih (s.endThread team tid true)
    refine ⟨one.device.trans rest.device, fun e he => ?_, fun q => (rest.teams q).trans (one.teams q)⟩
    obtain ⟨mem, others⟩ := rest.threads e he
    obtain ⟨old, ne⟩ := one.threads e mem
    refine ⟨old, fun i hi => ?_⟩
    rcases List.mem_cons.mp hi with rfl | hi
    · exact ne i (by simp)
    · exact others i hi

theorem liveTids_spec {s : State} {team : Nat} {e : Nat × Thread} (he : e ∈ s.threads) (ht : e.1 / 8192 = team) :
    e.1 % 8192 ∈ s.liveTids team ∧ e.1 = tkey team (e.1 % 8192) :=
  ⟨List.mem_filterMap.mpr ⟨e, he, if_pos ht⟩, by unfold tkey; omega⟩

theorem liveTids_of_none {s : State} {team : Nat} (h : ∀ e ∈ s.threads, e.1 / 8192 ≠ team) : s.liveTids team = [] :=
  List.filterMap_eq_nil_iff.mpr fun e he => if_neg (h e he)

/-- When every live thread of a team has ended, none is left. -/
theorem threadsEnd_all {team : Nat} {s t : State} (h : ThreadsEnd team (s.liveTids team) s t) :
    ∀ e ∈ t.threads, e.1 / 8192 ≠ team := by
  intro e he ht
  obtain ⟨old, others⟩ := h.threads e he
  obtain ⟨mem, key⟩ := liveTids_spec old ht
  exact others _ mem key

/-! What the breaking of locks leaves alone (R199). -/

/-- From s to t, no thread, no team and no wave has changed. -/
structure KeepsAgents (s t : State) : Prop where
  threads : t.threads = s.threads
  teams : t.teams = s.teams
  waves : t.waves = s.waves

namespace KeepsAgents

theorem refl (s : State) : KeepsAgents s s := ⟨rfl, rfl, rfl⟩

theorem trans {s t u : State} (h : KeepsAgents s t) (k : KeepsAgents t u) : KeepsAgents s u :=
  ⟨k.threads.trans h.threads, k.teams.trans h.teams, k.waves.trans h.waves⟩

theorem foldl {α : Type} {f : State → α → State} (hf : ∀ s x, KeepsAgents s (f s x)) (l : List α) (s : State) :
    KeepsAgents s (l.foldl f s) :=
  List.foldlRecOn l f (motive := KeepsAgents s) (refl s) (fun _ h x _ => h.trans (hf _ x))

theorem places {s t : State} (h : PlacesOnly s t) : KeepsAgents s t := by
  unfold PlacesOnly at h
  constructor <;> rw [h]

theorem walks {s t : State} (h : WalksOnly s t) : KeepsAgents s t := by
  unfold WalksOnly at h
  constructor <;> rw [h]

theorem wrote (s : State) (w : Nat) (who : Writer) : KeepsAgents s (s.wrote w who) := by
  unfold State.wrote
  split <;> exact ⟨rfl, rfl, rfl⟩

theorem trapRecord (s : State) (p : Place) (code : Nat) (team : Bool) (tid core off aux : Nat) :
    KeepsAgents s (s.trapRecord p code team tid core off aux) := by
  obtain ⟨b, -, owns⟩ := trapRecord_owns s p code team tid core off aux
  rw [owns]
  exact places ((PlacesOnly.setWorld s _ _).trans (PlacesOnly.own ..))

theorem devWrite (s : State) (w a : Nat) (b : Byte) : KeepsAgents s (s.devWrite w a b) := by
  unfold State.devWrite
  split
  · exact refl s
  · exact places (PlacesOnly.devPokes s w a [b])

theorem touchHost (s : State) (w pa : Nat) (write : Bool) (ctx : Option Nat) :
    KeepsAgents s (s.touchHost w pa write ctx) := by
  unfold State.touchHost
  dsimp only
  split
  · split <;> exact ⟨rfl, rfl, rfl⟩
  · exact ⟨rfl, rfl, rfl⟩

theorem touchRange (s : State) (w : Nat) (xl : Frames) (a n : Nat) (write : Bool) (ctx : Option Nat) :
    KeepsAgents s (s.touchRange w xl a n write ctx) := by
  refine foldl (fun s i => ?_) _ s
  dsimp only
  split
  · split
    · exact touchHost ..
    · exact refl s
  · exact refl s

theorem hostWrite (s : State) (w : Nat) (xl : Frames) (ctx : Option Nat) (a : Nat) (b : Byte) :
    KeepsAgents s (s.hostWrite w xl ctx a b) := by
  unfold State.hostWrite
  split
  · exact (touchRange s w xl a 1 true ctx).trans ⟨rfl, rfl, rfl⟩
  · exact refl s

theorem homeWrite (s : State) (p : Place) (sp : Space) (a : Nat) (b : Byte) (xl : Frames) :
    KeepsAgents s (s.homeWrite p sp a b xl) := by
  unfold State.homeWrite
  cases sp with
  | loc | near | col => exact ⟨rfl, rfl, rfl⟩
  | dev =>
    dsimp only
    split
    · exact (places (PlacesOnly.takeTile ..)).trans ⟨rfl, rfl, rfl⟩
    · exact (devWrite ..).trans ⟨rfl, rfl, rfl⟩
  | host => exact hostWrite ..

theorem homeWrites (s : State) (p : Place) (sp : Space) (xl : Frames) (a : Nat) (l : List Byte) :
    KeepsAgents s (s.homeWrites p sp xl a l) := by
  induction l generalizing s a with
  | nil => exact refl s
  | cons b l ih => exact (homeWrite s p sp a b xl).trans (ih ..)

theorem joinRequest (s : State) (w : Nat) (pasid : Option Nat) (page : Nat) (read write : Bool) (who : Waiter)
    (addr : Nat) : KeepsAgents s (s.joinRequest w pasid page read write who addr).2 := by
  unfold State.joinRequest
  dsimp only
  split <;> exact ⟨rfl, rfl, rfl⟩

theorem breakDev {s t : State} {p : Place} {off id : Nat} {k : HeldLock} (h : s.breakDev p off id k = some t) :
    KeepsAgents s t := by
  unfold State.breakDev at h
  dsimp only at h
  split at h
  · cases h
  · split at h <;> cases h
    · exact (wrote ..).trans (trapRecord ..)
    · exact (wrote ..).trans (homeWrites ..)

/-- The break of a word of device memory is made, or comes to wait. -/
theorem breakDevice (s : State) (p : Place) (off : Nat) (k : HeldLock) :
    KeepsAgents s (match s.breakDev p off s.nextId k with
      | some s => s
      | none =>
        let (id, s) := s.fresh
        let s := if s.mayWrite p.launch.world (.lockBreak id) k.addr 4 0 then s
          else s.queueWriter p.launch.world (.lockBreak id)
        s.deferBreak p off id k) := by
  split
  · next h => exact breakDev h
  · dsimp only [State.fresh]
    have fresh : KeepsAgents s { s with nextId := s.nextId + 1 } := ⟨rfl, rfl, rfl⟩
    have defers (u : State) (id : Nat) : KeepsAgents u (u.deferBreak p off id k) := ⟨rfl, rfl, rfl⟩
    split
    · exact fresh.trans (defers ..)
    · exact (fresh.trans (places (PlacesOnly.queueWriter ..))).trans (defers ..)

theorem breakLock (s : State) (p : Place) (off : Nat) (k : HeldLock) : KeepsAgents s (s.breakLock p off k) := by
  unfold State.breakLock
  dsimp only
  split
  · exact ⟨rfl, rfl, rfl⟩
  · exact refl s
  · have walks := translatePages_walks s (p.team.home / 128) p.launch.world p.launch.pasid true
      ((k.addr + (4 - 1)) / 4096 - k.addr / 4096 + 1) (k.addr / 4096)
    unfold State.translateRange
    split
    · next h => rw [h] at walks; exact (KeepsAgents.walks walks).trans (homeWrites ..)
    · next u h =>
      rw [h] at walks
      have fresh : KeepsAgents u { u with nextId := u.nextId + 1 } := ⟨rfl, rfl, rfl⟩
      exact ((KeepsAgents.walks walks).trans fresh).trans ((joinRequest ..).trans ⟨rfl, rfl, rfl⟩)
    · next h => rw [h] at walks; exact (KeepsAgents.walks walks).trans (trapRecord ..)
  · exact breakDevice s p off k

end KeepsAgents

end Sys2Proof.Machine
end

section
/-! PROOF. A store for which the team's sets have no room (R95, R182, R244). -/

namespace Sys2Proof.Machine

/-- A team that has been stopped: its threads and its waves are gone, and its set is empty. -/
structure Stopped (team : Nat) (t : State) : Prop where
  threads : t.liveTids team = []
  stopped : (tget t.teams team).map (·.stopped) = some true
  set : (tget t.teams team).map (·.set) = some []
  waves : ∀ e ∈ t.waves, e.1 / 256 ≠ team

theorem KeepsAgents.stopped {team : Nat} {s t : State} (h : KeepsAgents s t) (hs : Stopped team s) : Stopped team t := by
  refine ⟨?_, ?_, ?_, ?_⟩
  · simpa only [State.liveTids, h.threads] using hs.threads
  · rw [h.teams]; exact hs.stopped
  · rw [h.teams]; exact hs.set
  · rw [h.waves]; exact hs.waves

/-- Stopping a team: device memory reads as before where the team holds no lock to be broken. -/
theorem stopTeam_stops {s : State} {team : Nat} (hm : (tget s.teams team).isSome = true) (p : Place) (off : Nat) :
    Stopped team (s.stopTeam team p off) ∧ (p.team.locks = [] → SameDevice s (s.stopTeam team p off)) := by
  have ends := endThreads_end s team (s.liveTids team)
  unfold State.stopTeam
  dsimp only
  generalize (s.liveTids team).foldl (fun s t => s.endThread team t true) s = u at ends
  generalize hv : State.modTeam _ team _ = v
  have threads : v.threads = u.threads := by rw [← hv]; rfl
  have waves : v.waves = u.waves.filter (fun e => e.1 / 256 != team) := by rw [← hv]; rfl
  obtain ⟨m, hum⟩ := Option.isSome_iff_exists.mp ((ends.teams team).trans hm)
  have here : tget v.teams team = some { m with
      set := [], stopped := true, locks := [], upark := none, uleave := none, sPend := 0, resPend := 0 } := by
    rw [← hv, State.modTeam, tget_tmod_self]
    exact congrArg (Option.map _) hum
  have stopped : Stopped team v := by
    refine ⟨liveTids_of_none (by rw [threads]; exact threadsEnd_all ends), by rw [here]; rfl, by rw [here]; rfl, ?_⟩
    rw [waves]
    intro e he
    simpa using (List.mem_filter.mp he).2
  refine ⟨(KeepsAgents.foldl (fun s k => KeepsAgents.breakLock s p off k) _ v).stopped stopped, fun none => ?_⟩
  have same : SameDevice u v := by rw [← hv]; exact ⟨rfl, rfl, rfl, rfl, fun _ => rfl, fun _ => rfl⟩
  rw [none]
  exact ends.device.trans same

/-- A team trap stops its team, and its record is in the fault ring, where that is free. -/
theorem trapTeam_stops {s : State} {team : Nat} {p : Place} (hp : s.place team = some p) (hrun : p.team.stopped = false)
    {code : Nat} (hcode : code < 256) (off aux : Nat) :
    Stopped team (s.trapTeam team code off aux) ∧ (p.team.locks = [] → s.ringFree p.launch.world →
      s.trapTold (s.trapTeam team code off aux) p.launch.world code true) := by
  obtain ⟨hm, -⟩ := place_spec hp
  have record := KeepsAgents.trapRecord s p code true 0 p.team.home off aux
  have told := trapRecord_told hcode true 0 p.team.home off aux (s := s) (p := p)
  have teamRecord : s.teamRecord team code off aux = (s.trapRecord p code true 0 p.team.home off aux).errClass p.team.launch 3 := by
    simp only [State.teamRecord, hp]
  generalize hv : s.trapRecord p code true 0 p.team.home off aux = v at record told teamRecord
  have traps : s.trapTeam team code off aux = (v.errClass p.team.launch 3).stopTeam team p off := by
    simp only [State.trapTeam, hp, hrun, Bool.false_eq_true, if_false, teamRecord]
  have marked : SameDevice v (v.errClass p.team.launch 3) := ⟨rfl, rfl, rfl, rfl, fun _ => rfl, fun _ => rfl⟩
  have there : (tget (v.errClass p.team.launch 3).teams team).isSome = true := by
    have teams : (v.errClass p.team.launch 3).teams = s.teams := record.teams
    rw [teams, hm]
    rfl
  obtain ⟨stopped, device⟩ := stopTeam_stops there p off
  rw [traps]
  refine ⟨stopped, fun locks ring => ?_⟩
  have same := marked.trans (device locks)
  unfold State.trapTold at told ⊢
  rw [same.devNat, same.devNat]
  exact told ring

theorem place_alike {s u : State} (h : s.alike u) (team : Nat) : u.place team = s.place team := by
  rw [h]; rfl

theorem trapTold_alike {s u t : State} (h : s.alike u) {w code : Nat} {team : Bool} (ht : u.trapTold t w code team) :
    s.trapTold t w code team := by
  rw [h] at ht
  exact ht

/-- A store for which the sets have no room stops its team with code 0x10. -/
theorem store_overflows {i : Instr} {c : Ctl} {s : State} {h : Here} {x : Site} {tid a : Nat} {bytes : List Byte}
    (hh : s.here = some h) (hexec : s.devFree h.place.launch (storeUses h x (.thread h.pass.team tid) a bytes.length) →
      exec i s = .next (((s.issued h i c).granted h (storeUses h x (.thread h.pass.team tid) a bytes.length)).storeLane h
        (.thread h.pass.team tid) x a bytes))
    (hhost : x.space ≠ .host) (hloc : x.space ≠ .loc) (hrun : h.place.team.stopped = false)
    (hcap : h.place.image.teamCap < (s.stored x.space h.pass.team tid a bytes).teamSectors h.pass.team)
    (hmore : s.teamSectors h.pass.team < (s.stored x.space h.pass.team tid a bytes).teamSectors h.pass.team) :
    nextWith (exec i s) (fun t => h.stops s t (.uniform h.pass.team) 0x10 ∧
      (tget t.teams h.pass.team).map (·.set) = some [] ∧ ∀ e ∈ t.waves, e.1 / 256 ≠ h.pass.team) := by
  have alike := issued_alike s h i c
  obtain ⟨-, -, -, hplace, -⟩ := here_spec hh
  have runs := shared_exec hexec (.inl hloc)
  rw [storeLane_sets (u := s.issued h i c) hloc (fun f => ⟨[], reach_device _ h _ hhost a _ _ _ f⟩),
    teamSectors_congr (stored_waves (issued_waves s h i c) x.space h.pass.team tid a bytes) (issued_teams s h i c),
    teamSectors_congr (issued_waves s h i c) (issued_teams s h i c), if_pos ⟨hcap, hmore⟩] at runs
  generalize s.issued h i c = u at alike runs
  obtain ⟨stopped, told⟩ := trapTeam_stops ((place_alike alike _).trans hplace) hrun (code := 0x10) (by decide) h.group.off a
  exact ⟨_, runs, ⟨stopped.threads, stopped.stopped,
    fun locks ring => trapTold_alike alike (told locks (ringFree_alike alike ring))⟩, stopped.set, stopped.waves⟩

/-! The words. -/

section Words

variable {c : Ctl} {a disp : Src} {s : State} {h : Here} {x : Site} {ag : Agent}

theorem execSt_stores {ty : Ty} {b : Src} (hr : Ready (.st c ty a b disp) s h) (hx : h.site = some x)
    (hone : Alone h c s ag) (hheld : s.heldBy ag (·.data) = false) :
    let at_ := (s.view ag).addr x.pair a disp
    let bytes := bytesOfNat ty.bytes ((s.view ag).src ty b).toNat
    overlaps s.pends ag x.space at_ bytes.length = false →
      s.devFree h.place.launch (storeUses h x ag at_ bytes.length) → exec (.st c ty a b disp) s = .next
        (((s.issued h (.st c ty a b disp) c).granted h (storeUses h x ag at_ bytes.length)).storeLane h ag x at_ bytes) := by
  intro at_ bytes hover hfree
  have length : bytes.length = ty.bytes := bytesOfNat_length ..
  rw [length] at hover hfree ⊢
  exact access_stores (addr := fun x v => v.addr x.pair a disp)
    (bytes := fun v => bytesOfNat ty.bytes (v.src ty b).toNat) hr hx hone hheld hover hfree

/-- The bytes of a run of registers. -/
def View.runBytes (v : View) (r n : Nat) : List Byte := (xrun r n).flatMap (fun q => bytesOfNat 4 (v.reg q).toNat)

theorem runBytes_length (v : View) (r n : Nat) : (v.runBytes r n).length = 4 * n := by
  simp [View.runBytes, xrun, List.length_flatMap, Function.comp_def, Nat.mul_comm]

theorem execStv_stores {n : VCount} {r : Fin 64} (hr : Ready (.stv c n a (.x r) disp) s h) (hx : h.site = some x)
    (hone : Alone h c s ag) (hheld : s.heldBy ag (·.data) = false) :
    let at_ := (s.view ag).addr x.pair a disp
    let bytes := (s.view ag).runBytes r.val n.regs
    overlaps s.pends ag x.space at_ bytes.length = false →
      s.devFree h.place.launch (storeUses h x ag at_ bytes.length) → exec (.stv c n a (.x r) disp) s = .next
        (((s.issued h (.stv c n a (.x r) disp) c).granted h (storeUses h x ag at_ bytes.length)).storeLane h ag x at_
          bytes) := by
  intro at_ bytes hover hfree
  have length : bytes.length = 4 * n.regs := runBytes_length ..
  rw [length] at hover hfree ⊢
  exact access_stores (addr := fun x v => v.addr x.pair a disp) (bytes := fun v => v.runBytes r.val n.regs) hr hx hone hheld
    hover hfree

end Words

end Sys2Proof.Machine

namespace Sys2Proof
open Machine

/-- Settles O17: what a store comes to in each space, and one for which the sets have no room. -/
theorem storesEnterTheWaveSet : Obligations.StoresEnterTheWaveSet := by
  refine ⟨?_, ?_⟩
  · intro c ty n a b disp s h x team tid ag at_ w l hx hone hheld puts room stores
    have clauses {i : Instr} {bytes : List Byte} (issues : Ready i s h →
        overlaps s.pends ag x.space at_ bytes.length = false →
        s.devFree h.place.launch (storeUses h x ag at_ bytes.length) → exec i s = .next
          (((s.issued h i c).granted h (storeUses h x ag at_ bytes.length)).storeLane h ag x at_ bytes)) :
        stores i bytes := by
      intro hr hover entered
      have hexec := issues hr hover
      exact ⟨fun hhost hloc hroom => store_device_enters hexec hr.here hroom hhost hloc,
        fun xl hhost htranslates hroom => store_host_enters hexec hr.here hroom hhost htranslates,
        fun hloc hdev hfree hrecs hclosed hunsealed hlies =>
          store_locdev hexec hr.here hloc hdev hfree hrecs hclosed hunsealed hlies,
        fun hloc hdev => store_own hexec hr.here hloc hdev hone.alive⟩
    refine ⟨clauses fun hr => execSt_stores hr hx hone hheld, ?_⟩
    rintro r rfl
    exact clauses fun hr => execStv_stores hr hx hone hheld
  · intro c ty a b disp s h x tid team ag i at_ bytes w full hr hx hhost hloc hone hheld hover hrun hcap hmore
    exact store_overflows (c := c) hr.here (execSt_stores hr hx hone hheld hover) hhost hloc hrun hcap hmore

end Sys2Proof
end

section
/-! PROOF. Rounding (R51): the numbers of a format in their order, and that a rounded magnitude is the neighbour that the
mode takes. -/

namespace Sys2Proof.Machine

/-! Which of its two neighbours a magnitude is rounded to. -/

/-- Of the neighbours lo and hi of a magnitude a, the mode takes the upper one; odd says that lo's last bit is 1. -/
def takesUpper (mode : Rnd) (neg : Bool) (odd : Prop) (lo a hi : ℚ) : Prop :=
  match mode with
  | .rn => hi - a < a - lo ∨ (hi - a = a - lo ∧ odd)
  | .rz => False
  | .rm => neg = true ∧ lo < a
  | .rp => neg = false ∧ lo < a

theorem takesUpper_scale (mode : Rnd) (neg : Bool) (odd : Prop) (lo a hi : ℚ) {c : ℚ} (hc : 0 < c) :
    takesUpper mode neg odd (lo * c) (a * c) (hi * c) ↔ takesUpper mode neg odd lo a hi := by
  cases mode <;> simp only [takesUpper, ← sub_mul, mul_lt_mul_iff_left₀ hc, mul_left_inj' hc.ne']

/-- A number that is its own lower neighbour stays. -/
theorem not_takesUpper_self (mode : Rnd) (neg : Bool) (odd : Prop) {a hi : ℚ} (h : a < hi) :
    ¬ takesUpper mode neg odd a a hi := by
  cases mode <;> simp [takesUpper, sub_eq_zero, h.le, h.ne']

/-- The magnitude a, rounded among the numbers v 0, v 1 and so on, is v k (R51). -/
def RoundsAmong (mode : Rnd) (neg : Bool) (v : ℕ → ℚ) (a : ℚ) (k : ℕ) : Prop :=
  ∃ lo, v lo ≤ a ∧ a < v (lo + 1) ∧
    ((k = lo ∧ ¬ takesUpper mode neg (lo % 2 = 1) (v lo) a (v (lo + 1))) ∨
      (k = lo + 1 ∧ takesUpper mode neg (lo % 2 = 1) (v lo) a (v (lo + 1))))

/-- The mode rounds magnitudes of this sign down. -/
def cutsDown (mode : Rnd) (neg : Bool) : Bool :=
  match mode with
  | .rn => false
  | .rz => true
  | .rm => !neg
  | .rp => neg

namespace RoundsAmong

variable {mode : Rnd} {neg : Bool} {v : ℕ → ℚ} {a : ℚ} {k : ℕ}

/-- No number lies nearer, and of two that lie as near the even one is taken. -/
theorem nearest (h : RoundsAmong .rn neg v a k) (hv : StrictMono v) (j : ℕ) :
    |v k - a| ≤ |v j - a| ∧ (j ≠ k → |v j - a| = |v k - a| → k % 2 = 0) := by
  obtain ⟨lo, hlo, hhi, hk⟩ := h
  have below : |v lo - a| = a - v lo := by rw [abs_sub_comm, abs_of_nonneg (by linarith)]
  have above : |v (lo + 1) - a| = v (lo + 1) - a := abs_of_nonneg (by linarith)
  simp only [takesUpper, not_or, not_and, not_lt] at hk
  rcases Nat.lt_or_ge lo j with hj | hj
  · have next : v (lo + 1) ≤ v j := hv.monotone hj
    have dist : |v j - a| = v j - a := abs_of_nonneg (by linarith)
    rcases hk with ⟨rfl, near, even⟩ | ⟨rfl, near⟩
    · rw [dist, below]
      refine ⟨by linarith, fun _ same => ?_⟩
      have := even (by linarith)
      omega
    · rw [dist, above]
      refine ⟨by linarith, fun ne same => absurd (hv.injective (by linarith)) ne⟩
  · have prev : v j ≤ v lo := hv.monotone hj
    have dist : |v j - a| = a - v j := by rw [abs_sub_comm, abs_of_nonneg (by linarith)]
    rcases hk with ⟨rfl, near, even⟩ | ⟨rfl, near⟩
    · rw [dist, below]
      exact ⟨by linarith, fun ne same => absurd (hv.injective (by linarith)) ne⟩
    · rw [dist, above]
      rcases near with near | ⟨near, odd⟩
      · exact ⟨by linarith, fun _ same => by linarith⟩
      · exact ⟨by linarith, fun _ _ => by omega⟩

theorem down (h : RoundsAmong mode neg v a k) (hm : cutsDown mode neg = true) : v k ≤ a ∧ a < v (k + 1) := by
  obtain ⟨lo, hlo, hhi, hk⟩ := h
  have stays : ¬ takesUpper mode neg (lo % 2 = 1) (v lo) a (v (lo + 1)) := by
    cases mode <;> simp_all [cutsDown, takesUpper]
  rcases hk with ⟨rfl, -⟩ | ⟨-, up⟩
  · exact ⟨hlo, hhi⟩
  · exact absurd up stays

theorem up (h : RoundsAmong mode neg v a k) (hv : StrictMono v) (hn : mode ≠ .rn) (hm : cutsDown mode neg = false) :
    a ≤ v k ∧ ∀ j < k, v j < a := by
  obtain ⟨lo, hlo, hhi, hk⟩ := h
  have goes : takesUpper mode neg (lo % 2 = 1) (v lo) a (v (lo + 1)) ↔ v lo < a := by
    cases mode <;> simp_all [cutsDown, takesUpper]
  rw [goes, not_lt] at hk
  rcases hk with ⟨rfl, reaches⟩ | ⟨rfl, less⟩
  · exact ⟨reaches, fun j hj => (hv hj).trans_le hlo⟩
  · exact ⟨hhi.le, fun j hj => (hv.monotone (Nat.lt_succ_iff.mp hj)).trans_lt less⟩

/-- It is one of the two neighbours. -/
theorem within (h : RoundsAmong mode neg v a k) (hv : StrictMono v) : (∀ j, v j ≤ a → j ≤ k) ∧ ∀ j, a ≤ v j → k ≤ j := by
  obtain ⟨lo, hlo, hhi, hk⟩ := h
  refine ⟨fun j hj => ?_, fun j hj => ?_⟩
  · have := hv.lt_iff_lt.mp (hj.trans_lt hhi)
    omega
  · have := hv.le_iff_le.mp (hlo.trans hj)
    rcases hk with ⟨rfl, -⟩ | ⟨rfl, up⟩
    · exact this
    · rcases this.eq_or_lt with rfl | lt
      · obtain rfl : v lo = a := le_antisymm hlo hj
        exact absurd up (not_takesUpper_self _ _ _ hhi)
      · exact lt

end RoundsAmong

/-- A quotient whose remainder rounds up or not is rounded among the integers. -/
theorem div_among (mode : Rnd) (neg : Bool) (m : ℕ) {d : ℕ} (hd : 0 < d) :
    RoundsAmong mode neg (fun n => (n : ℚ)) (m / d) (m / d + natOfBool (roundUp mode neg (m / d) (m % d) d)) := by
  have dpos : (0 : ℚ) < d := by exact_mod_cast hd
  have parts : (m : ℚ) / d = (m / d : ℕ) + (m % d : ℕ) / d := by
    have sum : (m : ℚ) = d * (m / d : ℕ) + (m % d : ℕ) := by exact_mod_cast (Nat.div_add_mod m d).symm
    rw [div_eq_iff dpos.ne', add_mul, div_mul_cancel₀ _ dpos.ne']
    linarith
  have rest : (m % d : ℕ) < d := Nat.mod_lt _ hd
  rw [parts]
  generalize m / d = t at *
  generalize m % d = r at *
  have rest' : (r : ℚ) / d < 1 := (div_lt_one dpos).mpr (by exact_mod_cast rest)
  have rest0 : 0 ≤ (r : ℚ) / d := by positivity
  have ups : takesUpper mode neg (t % 2 = 1) t (t + r / d) (t + 1 : ℕ) ↔ roundUp mode neg t r d = true := by
    have below : (t + r / d : ℚ) - t = r / d := by ring
    have above : ((t + 1 : ℕ) : ℚ) - (t + r / d) = 1 - r / d := by push_cast; ring
    have inexact : (t : ℚ) < t + r / d ↔ r ≠ 0 := by
      rw [lt_add_iff_pos_right, div_pos_iff_of_pos_right dpos, Nat.cast_pos, Nat.pos_iff_ne_zero]
    have more : 1 - (r : ℚ) / d < r / d ↔ d < 2 * r := by
      rw [sub_lt_iff_lt_add, ← two_mul, ← mul_div_assoc, one_lt_div dpos]
      exact_mod_cast Iff.rfl
    have tie : 1 - (r : ℚ) / d = r / d ↔ 2 * r = d := by
      rw [sub_eq_iff_eq_add, ← two_mul, ← mul_div_assoc, eq_comm, div_eq_one_iff_eq dpos.ne']
      exact_mod_cast Iff.rfl
    cases mode <;> simp only [takesUpper, roundUp, below, above, inexact, more, tie] <;> simp
  refine ⟨t, by linarith, by push_cast; linarith, ?_⟩
  rw [ups]
  cases roundUp mode neg t r d <;> simp [natOfBool]

/-- A value cut to a count of 2^q is the count that the mode rounds it to. -/
theorem roundAt_among (mode : Rnd) (neg : Bool) (m : ℕ) (e q : ℤ) :
    RoundsAmong mode neg (fun n => (n : ℚ)) (m * 2 ^ (e - q)) (roundAt mode neg m e q) := by
  unfold roundAt
  split
  · next hq =>
    have whole : (m : ℚ) * 2 ^ (e - q) = ((m * 2 ^ (e - q).toNat : ℕ) : ℚ) := by
      push_cast
      rw [← zpow_natCast, Int.toNat_of_nonneg (by omega)]
    refine ⟨m * 2 ^ (e - q).toNat, whole.ge, ?_, .inl ⟨rfl, ?_⟩⟩
    · rw [whole]; push_cast; linarith
    · rw [whole]
      exact not_takesUpper_self _ _ _ (by push_cast; linarith)
  · next hq =>
    have cut : (m : ℚ) * 2 ^ (e - q) = m / (2 ^ (q - e).toNat : ℕ) := by
      rw [div_eq_mul_inv]
      push_cast
      rw [← zpow_natCast, Int.toNat_of_nonneg (by omega), ← zpow_neg, neg_sub]
    rw [cut]
    exact div_among mode neg m (Nat.two_pow_pos _)

end Sys2Proof.Machine
end

section
/-! PROOF. The numbers of a format in their order (R48, R49): what the bits below the sign stand for. -/

namespace Sys2Proof.Machine

/-- What the formats have in common: a fraction, a range that holds every integer the fraction reaches, and few exponents. -/
structure Fmt.Sound (f : Fmt) : Prop where
  fb_pos : 1 ≤ f.fb
  eb_pos : 2 ≤ f.eb
  fits : f.fb + 1 ≤ 2 ^ (f.eb - 1)
  few : 2 ^ f.eb ≤ 256

theorem Fmt.sound_of_mem {f : Fmt} (h : f ∈ [fp32, fp16, bfp16]) : f.Sound := by
  simp only [List.mem_cons, List.not_mem_nil, or_false] at h
  rcases h with rfl | rfl | rfl <;> exact ⟨by decide, by decide, by decide, by decide⟩

theorem fp32_sound : fp32.Sound := Fmt.sound_of_mem (by simp)

/-- The number that the bits n below the sign stand for, in a format without infinities. -/
def Fmt.magNum (f : Fmt) (n : ℕ) : ℚ :=
  if n / 2 ^ f.fb = 0 then (n : ℚ) * 2 ^ (f.emin - f.fb)
  else ((n % 2 ^ f.fb + 2 ^ f.fb : ℕ) : ℚ) * 2 ^ (f.emin - f.fb + (n / 2 ^ f.fb - 1 : ℕ))

/-- A significand of sig, with its leading bit but in the lowest binade, is the number of those bits, and so is the one that
carries out of the binade. -/
theorem Fmt.magNum_of_sig (f : Fmt) {k sig : ℕ} (hk : k = 0 ∨ 2 ^ f.fb ≤ sig) (hs : sig ≤ 2 ^ (f.fb + 1)) :
    f.magNum (k * 2 ^ f.fb + sig) = sig * 2 ^ (f.emin - f.fb + k) := by
  unfold Fmt.magNum
  rw [pow_succ] at hs
  generalize hp : 2 ^ f.fb = p at *
  have ppos : 0 < p := hp ▸ Nat.two_pow_pos _
  rcases Nat.lt_or_ge sig p with low | high
  · obtain rfl : k = 0 := by omega
    simp [Nat.div_eq_of_lt low]
  · obtain ⟨r, rfl⟩ := Nat.exists_eq_add_of_le high
    rcases Nat.lt_or_ge r p with less | carry
    · have field : (k * p + (p + r)) / p = k + 1 := by
        rw [show k * p + (p + r) = r + (k + 1) * p by ring, Nat.add_mul_div_right _ _ ppos, Nat.div_eq_of_lt less]; omega
      have rest : (k * p + (p + r)) % p = r := by
        rw [show k * p + (p + r) = r + (k + 1) * p by ring, Nat.add_mul_mod_self_right, Nat.mod_eq_of_lt less]
      rw [field, rest, if_neg (by omega), Nat.add_sub_cancel, add_comm p r]
    · obtain rfl : r = p := by omega
      have field : (k * r + (r + r)) / r = k + 2 := by
        rw [show k * r + (r + r) = (k + 2) * r by ring, Nat.mul_div_cancel _ ppos]
      have rest : (k * r + (r + r)) % r = 0 := by
        rw [show k * r + (r + r) = (k + 2) * r by ring, Nat.mul_mod_left]
      rw [field, rest, if_neg (by omega), show k + 2 - 1 = k + 1 by omega]
      push_cast
      rw [← add_assoc, zpow_add_one₀ two_ne_zero]
      ring

/-- Every number of a binade is such a significand, short of the carry. -/
theorem Fmt.exists_sig (f : Fmt) (n : ℕ) :
    ∃ k sig, n = k * 2 ^ f.fb + sig ∧ (k = 0 ∨ 2 ^ f.fb ≤ sig) ∧ sig < 2 ^ (f.fb + 1) := by
  have split := Nat.div_add_mod' n (2 ^ f.fb)
  have rest := Nat.mod_lt n (Nat.two_pow_pos f.fb)
  rw [pow_succ]
  rcases Nat.eq_zero_or_pos (n / 2 ^ f.fb) with zero | pos
  · rw [zero] at split
    exact ⟨0, n, by omega, .inl rfl, by omega⟩
  · refine ⟨n / 2 ^ f.fb - 1, n % 2 ^ f.fb + 2 ^ f.fb, ?_, .inr (by omega), by omega⟩
    rw [Nat.sub_mul, one_mul]
    have : 2 ^ f.fb ≤ n / 2 ^ f.fb * 2 ^ f.fb := Nat.le_mul_of_pos_left _ pos
    omega

@[simp] theorem Fmt.magNum_zero (f : Fmt) : f.magNum 0 = 0 := by simp [Fmt.magNum]

theorem Fmt.magNum_strictMono (f : Fmt) : StrictMono f.magNum := by
  refine strictMono_nat_of_lt_succ fun n => ?_
  obtain ⟨k, sig, rfl, hk, hs⟩ := f.exists_sig n
  rw [add_assoc, f.magNum_of_sig hk hs.le, f.magNum_of_sig (hk.imp_right (by omega)) hs]
  exact mul_lt_mul_of_pos_right (by push_cast; linarith) (by positivity)

theorem Fmt.magNum_nonneg (f : Fmt) (n : ℕ) : 0 ≤ f.magNum n :=
  f.magNum_zero.symm.trans_le (f.magNum_strictMono.monotone (Nat.zero_le n))

theorem Fmt.magNum_pos (f : Fmt) {n : ℕ} (h : 0 < n) : 0 < f.magNum n :=
  f.magNum_zero.symm.trans_lt (f.magNum_strictMono h)

/-! The bits. -/

theorem Fmt.infBits_lt (f : Fmt) : f.infBits < 2 ^ (f.eb + f.fb) := by
  rw [Fmt.infBits, pow_add]
  exact Nat.mul_lt_mul_of_pos_right (Nat.sub_lt (Nat.two_pow_pos _) one_pos) (Nat.two_pow_pos _)

theorem Fmt.infBits_pos {f : Fmt} (hf : f.Sound) : 0 < f.infBits := by
  have : 2 ^ 2 ≤ 2 ^ f.eb := Nat.pow_le_pow_right two_pos hf.eb_pos
  exact Nat.mul_pos (by omega) (Nat.two_pow_pos _)

theorem Fmt.infBits_even {f : Fmt} (hf : f.Sound) : f.infBits % 2 = 0 := by
  obtain ⟨n, hn⟩ := Nat.exists_eq_add_of_le' hf.fb_pos
  simp [Fmt.infBits, hn, pow_succ, ← mul_assoc]

section Signed

variable (f : Fmt) (s : Bool) {k : ℕ} (hk : k < 2 ^ (f.eb + f.fb))
include hk

theorem Fmt.mag_sign : f.mag (f.signBit s + k) = k := by
  cases s <;> simp [Fmt.mag, Fmt.signBit, Nat.mod_eq_of_lt hk]

theorem Fmt.neg_sign : f.neg (f.signBit s + k) = s := by
  cases s <;> simp [Fmt.neg, Fmt.signBit, bitOf, Nat.div_eq_of_lt hk, Nat.add_div_left _ (Nat.two_pow_pos _)]

theorem Fmt.sign_lt : f.signBit s + k < 2 ^ (f.eb + f.fb + 1) := by
  rw [pow_succ]
  cases s <;> simp [Fmt.signBit] <;> omega

end Signed

theorem Fmt.mag_lt (f : Fmt) (n : ℕ) : f.mag n < 2 ^ (f.eb + f.fb) := Nat.mod_lt _ (Nat.two_pow_pos _)

/-- Bits of the format's width are a sign and a magnitude. -/
theorem Fmt.sign_mag (f : Fmt) {n : ℕ} (h : n < 2 ^ (f.eb + f.fb + 1)) : f.signBit (f.neg n) + f.mag n = n := by
  rw [pow_succ] at h
  have split := Nat.div_add_mod n (2 ^ (f.eb + f.fb))
  have bit : n / 2 ^ (f.eb + f.fb) < 2 := Nat.div_lt_of_lt_mul h
  unfold Fmt.signBit Fmt.neg Fmt.mag bitOf
  generalize n / 2 ^ (f.eb + f.fb) = b at *
  interval_cases b <;> simp <;> omega

theorem Fmt.sign_even {f : Fmt} (hf : f.Sound) (s : Bool) : f.signBit s % 2 = 0 := by
  obtain ⟨n, hn⟩ := Nat.exists_eq_add_of_le' hf.fb_pos
  cases s <;> simp [Fmt.signBit, hn, pow_succ, ← add_assoc]

/-- The sign as a factor. -/
def signNum (s : Bool) : ℚ := if s then -1 else 1

theorem FVal.num_fin (s : Bool) (m : ℕ) (e : ℤ) : (FVal.fin s m e).num = signNum s * (m * 2 ^ e) := mul_assoc ..

/-- What bits of the format stand for, by their sign and their magnitude. -/
theorem Fmt.unpack_spec (f : Fmt) (n : ℕ) :
    (f.mag n < f.infBits → ∃ (m : ℕ) (e : ℤ), f.unpack n = .fin (f.neg n) m e ∧ (m : ℚ) * 2 ^ e = f.magNum (f.mag n)) ∧
    (f.mag n = f.infBits → f.unpack n = .inf (f.neg n)) ∧ (f.infBits < f.mag n → f.unpack n = .nan) := by
  have frac : n % 2 ^ f.fb = f.mag n % 2 ^ f.fb := by
    rw [Fmt.mag, Nat.mod_mod_of_dvd _ (pow_dvd_pow 2 (by omega))]
  have lt := f.mag_lt n
  have split := Nat.div_add_mod' (f.mag n) (2 ^ f.fb)
  have rest := Nat.mod_lt (f.mag n) (Nat.two_pow_pos f.fb)
  have field : f.mag n / 2 ^ f.fb < 2 ^ f.eb := Nat.div_lt_of_lt_mul (by rwa [mul_comm, ← pow_add])
  unfold Fmt.unpack Fmt.infBits Fmt.magNum
  rw [frac]
  dsimp only
  generalize hp : 2 ^ f.fb = p at *
  generalize hx : f.mag n / p = x at *
  generalize f.mag n % p = q at *
  generalize 2 ^ f.eb = E at *
  rw [← split]
  by_cases top : x = E - 1
  · subst top
    simp only [if_true]
    refine ⟨fun h => by omega, fun h => by rw [if_pos (by omega)], fun h => by rw [if_neg (by omega)]⟩
  · have below : x * p + p ≤ (E - 1) * p := by
      rw [← Nat.succ_mul]
      exact Nat.mul_le_mul_right p (by omega)
    rw [if_neg top]
    refine ⟨fun _ => ?_, fun h => by omega, fun h => by omega⟩
    by_cases low : x = 0
    · subst low
      exact ⟨q, f.emin - f.fb, by simp, by simp⟩
    · have lead : ((x - 1 : ℕ) : ℤ) = x - 1 := by omega
      exact ⟨q + p, _, if_neg low, by simp [low, lead]⟩

end Sys2Proof.Machine
end

section
/-! PROOF. A value rounded to a format (R49, R51): its bits are those of the neighbour that the mode takes, or what the mode
makes of an overflow. -/

namespace Sys2Proof.Machine

/-- The bits below the sign that a value is rounded to, were there no end to the exponents. -/
def Fmt.enc (f : Fmt) (mode : Rnd) (neg : Bool) (m : ℕ) (e : ℤ) : ℕ :=
  (max (e + Nat.log2 m) f.emin - f.emin).toNat * 2 ^ f.fb + roundAt mode neg m e (max (e + Nat.log2 m) f.emin - f.fb)

/-- The magnitude that an overflow leaves. -/
def Fmt.overMag (f : Fmt) (mode : Rnd) (sat neg : Bool) : ℕ :=
  if sat || cutsDown mode neg then f.infBits - 1 else f.infBits

/-- The magnitude that a value is rounded to. -/
def Fmt.roundMag (f : Fmt) (mode : Rnd) (sat neg : Bool) (m : ℕ) (e : ℤ) : ℕ :=
  if f.infBits ≤ f.enc mode neg m e then f.overMag mode sat neg else f.enc mode neg m e

variable {f : Fmt} (hf : f.Sound)
include hf

theorem Fmt.overflow_eq (mode : Rnd) (sat neg : Bool) : f.overflow mode sat neg = f.signBit neg + f.overMag mode sat neg := by
  have := Fmt.infBits_pos hf
  have last : f.signBit neg + f.infBits - 1 = f.signBit neg + (f.infBits - 1) := by omega
  cases sat <;> cases mode <;> cases neg <;> simp [Fmt.overflow, Fmt.overMag, cutsDown, last]

theorem Fmt.round_eq (mode : Rnd) (sat neg : Bool) {m : ℕ} (hm : m ≠ 0) (e : ℤ) :
    f.round mode sat neg m e = f.signBit neg + f.roundMag mode sat neg m e := by
  have split : f.round mode sat neg m e = if f.infBits ≤ f.enc mode neg m e then f.overflow mode sat neg
      else f.signBit neg + f.enc mode neg m e := if_neg hm
  rw [split, Fmt.overflow_eq hf, Fmt.roundMag, apply_ite (f.signBit neg + ·)]

/-- The value's magnitude lies among a format's numbers as its significand lies among the integers. -/
theorem Fmt.enc_among (mode : Rnd) (neg : Bool) {m : ℕ} (hm : m ≠ 0) (e : ℤ) :
    RoundsAmong mode neg f.magNum (m * 2 ^ e) (f.enc mode neg m e) := by
  unfold Fmt.enc
  have lead : (2 : ℚ) ^ (Nat.log2 m : ℤ) ≤ m := by exact_mod_cast Nat.log2_self_le hm
  have next : (m : ℚ) < 2 ^ (Nat.log2 m + 1 : ℤ) := by exact_mod_cast Nat.lt_log2_self (n := m)
  generalize (Nat.log2 m : ℤ) = L at *
  generalize hx : max (e + L) f.emin = x
  have scaled : (m : ℚ) * 2 ^ (e - (x - f.fb)) * 2 ^ (x - f.fb) = m * 2 ^ e := by
    rw [mul_assoc, ← zpow_add₀ two_ne_zero, sub_add_cancel]
  obtain ⟨lo, hlo, hhi, hk⟩ := roundAt_among mode neg m e (x - f.fb)
  have reach : lo < 2 ^ (f.fb + 1) := by
    have : (lo : ℚ) < 2 ^ (f.fb + 1 : ℤ) := calc
      (lo : ℚ) ≤ m * 2 ^ (e - (x - f.fb)) := hlo
      _ < 2 ^ (L + 1) * 2 ^ (e - (x - f.fb)) := mul_lt_mul_of_pos_right next (by positivity)
      _ = 2 ^ (L + 1 + (e - (x - f.fb))) := (zpow_add₀ two_ne_zero _ _).symm
      _ ≤ 2 ^ (f.fb + 1 : ℤ) := zpow_le_zpow_right₀ one_le_two (by omega)
    exact_mod_cast this
  have normal : (x - f.emin).toNat = 0 ∨ 2 ^ f.fb ≤ lo := by
    refine or_iff_not_imp_left.mpr fun above => Nat.lt_succ_iff.mp ?_
    have : (2 : ℚ) ^ (f.fb : ℤ) < lo + 1 := calc
      (2 : ℚ) ^ (f.fb : ℤ) = 2 ^ (L + (e - (x - f.fb))) := by congr 1; omega
      _ = 2 ^ L * 2 ^ (e - (x - f.fb)) := zpow_add₀ two_ne_zero _ _
      _ ≤ m * 2 ^ (e - (x - f.fb)) := mul_le_mul_of_nonneg_right lead (by positivity)
      _ < lo + 1 := by exact_mod_cast hhi
    exact_mod_cast this
  have grid : f.emin - f.fb + (x - f.emin).toNat = x - f.fb := by omega
  have low := f.magNum_of_sig normal reach.le
  have high := f.magNum_of_sig (sig := lo + 1) (normal.imp_right (by omega)) reach
  have parity : ((x - f.emin).toNat * 2 ^ f.fb + lo) % 2 = lo % 2 := by
    obtain ⟨n, hn⟩ := Nat.exists_eq_add_of_le' hf.fb_pos
    rw [hn, pow_succ, ← mul_assoc, mul_comm _ 2, Nat.mul_add_mod]
  rw [grid] at low high
  refine ⟨(x - f.emin).toNat * 2 ^ f.fb + lo, ?_, ?_, ?_⟩
  · rw [low, ← scaled]
    exact mul_le_mul_of_nonneg_right hlo (by positivity)
  · rw [add_assoc, high, ← scaled]
    exact mul_lt_mul_of_pos_right hhi (by positivity)
  · rw [add_assoc _ lo 1, low, high, ← scaled, parity, takesUpper_scale _ _ _ _ _ _ (by positivity)]
    exact hk.imp (And.imp_left (congrArg _)) (And.imp_left (congrArg _))

/-! The ends of the range. -/

/-- The last finite number and the one after it, as significands. -/
theorem Fmt.magNum_infBits :
    f.magNum (f.infBits - 1) = f.big ∧ f.magNum f.infBits = 2 ^ (f.fb + 1) * 2 ^ (1 - f.emin - f.fb) := by
  have four : 2 ^ 2 ≤ 2 ^ f.eb := Nat.pow_le_pow_right two_pos hf.eb_pos
  obtain ⟨E, hE⟩ := Nat.exists_eq_add_of_le four
  have bits : f.infBits = (E + 1) * 2 ^ f.fb + 2 ^ (f.fb + 1) := by
    rw [Fmt.infBits, hE, pow_succ 2 f.fb, show 2 ^ 2 + E - 1 = E + 1 + 2 by omega]
    ring
  have bias : f.emin - f.fb + (E + 1 : ℕ) = 1 - f.emin - f.fb := by
    obtain ⟨n, hn⟩ := Nat.exists_eq_add_of_le' (one_le_two.trans hf.eb_pos)
    have double : (2 : ℤ) ^ f.eb = 2 * 2 ^ (f.eb - 1) := by rw [hn, pow_succ, Nat.add_sub_cancel, mul_comm]
    have whole : (2 : ℤ) ^ f.eb = 4 + E := by exact_mod_cast hE
    unfold Fmt.emin
    push_cast
    omega
  have one : 1 ≤ 2 ^ (f.fb + 1) := Nat.one_le_two_pow
  have half : 2 ^ f.fb ≤ 2 ^ (f.fb + 1) - 1 := by
    have := Nat.two_pow_pos f.fb
    rw [pow_succ]
    omega
  constructor
  · rw [bits, Nat.add_sub_assoc one, f.magNum_of_sig (.inr half) (Nat.sub_le ..), bias, Fmt.big]
    push_cast [one]
    rfl
  · rw [bits, f.magNum_of_sig (.inr (half.trans (Nat.sub_le ..))) le_rfl, bias]
    push_cast
    rfl

omit hf in
theorem Fmt.overMag_lt (mode : Rnd) (sat neg : Bool) : f.overMag mode sat neg < 2 ^ (f.eb + f.fb) := by
  have := f.infBits_lt
  unfold Fmt.overMag
  split <;> omega

omit hf in
theorem Fmt.roundMag_lt (mode : Rnd) (sat neg : Bool) (m : ℕ) (e : ℤ) : f.roundMag mode sat neg m e < 2 ^ (f.eb + f.fb) := by
  have := f.infBits_lt
  unfold Fmt.roundMag
  split
  · exact f.overMag_lt ..
  · omega

section Value

variable {mode : Rnd} {sat neg : Bool} {m : ℕ} {e : ℤ} (hm : m ≠ 0)
include hm

/-- A magnitude within the range does not overflow. -/
theorem Fmt.enc_of_le_big (h : (m : ℚ) * 2 ^ e ≤ f.big) : f.enc mode neg m e < f.infBits := by
  have := ((Fmt.enc_among hf mode neg hm e).within f.magNum_strictMono).2 _ (h.trans_eq (Fmt.magNum_infBits hf).1.symm)
  have := Fmt.infBits_pos hf
  omega

theorem Fmt.enc_of_big_lt (h : f.big < (m : ℚ) * 2 ^ e) : f.infBits - 1 ≤ f.enc mode neg m e :=
  ((Fmt.enc_among hf mode neg hm e).within f.magNum_strictMono).1 _ ((Fmt.magNum_infBits hf).1.trans_le h.le)

theorem Fmt.roundMag_of_le_big (h : (m : ℚ) * 2 ^ e ≤ f.big) : f.roundMag mode sat neg m e = f.enc mode neg m e :=
  if_neg (not_le.mpr (Fmt.enc_of_le_big hf hm h))

/-- Beyond the range it is the greatest finite number, or infinity where the mode rounds up to the number behind that. -/
theorem Fmt.roundMag_of_big_lt (h : f.big < (m : ℚ) * 2 ^ e) : f.roundMag mode sat neg m e =
    if f.infBits ≤ f.enc mode neg m e then f.overMag mode sat neg else f.infBits - 1 := by
  have := Fmt.enc_of_big_lt hf (mode := mode) (neg := neg) hm h
  unfold Fmt.roundMag
  split <;> omega

/-- Saturating, it is the greatest finite number. -/
theorem Fmt.roundMag_sat (h : f.big < (m : ℚ) * 2 ^ e) : f.roundMag mode true neg m e = f.infBits - 1 := by
  rw [Fmt.roundMag_of_big_lt hf hm h]
  exact ite_id _

/-- Rounded to nearest, it is infinity from the middle between that number and the one behind it on. -/
theorem Fmt.enc_nearest_overflows (h : f.big < (m : ℚ) * 2 ^ e) : f.infBits ≤ f.enc .rn neg m e ↔
    (2 ^ (f.fb + 2) - 1) * 2 ^ (-f.emin - f.fb) ≤ (m : ℚ) * 2 ^ e := by
  obtain ⟨last, inf⟩ := Fmt.magNum_infBits hf
  have pos := Fmt.infBits_pos hf
  have even := Fmt.infBits_even hf
  have near := (Fmt.enc_among hf .rn neg hm e).nearest f.magNum_strictMono
  have least := Fmt.enc_of_big_lt hf (mode := .rn) (neg := neg) hm h
  have middle : (2 ^ (f.fb + 2) - 1) * 2 ^ (-f.emin - f.fb) * 2 = f.magNum (f.infBits - 1) + f.magNum f.infBits := by
    rw [last, inf, Fmt.big, show 1 - f.emin - f.fb = -f.emin - f.fb + 1 by ring, zpow_add_one₀ two_ne_zero]
    ring
  have fromLast : |f.magNum (f.infBits - 1) - m * 2 ^ e| = m * 2 ^ e - f.magNum (f.infBits - 1) := by
    rw [abs_sub_comm, abs_of_nonneg (by linarith)]
  generalize (m : ℚ) * 2 ^ e = a at *
  generalize f.enc .rn neg m e = k at *
  constructor
  · intro hk
    by_contra less
    have beyond : f.magNum f.infBits ≤ f.magNum k := f.magNum_strictMono.monotone hk
    have := (near (f.infBits - 1)).1
    have := le_abs_self (f.magNum k - a)
    linarith
  · intro hle
    by_contra less
    obtain rfl : k = f.infBits - 1 := by omega
    obtain ⟨far, tie⟩ := near f.infBits
    rw [fromLast] at far tie
    rcases abs_cases (f.magNum f.infBits - a) with ⟨dist, -⟩ | ⟨dist, -⟩ <;> rw [dist] at far tie
    · have := tie (by omega) (by linarith)
      omega
    · have := f.magNum_strictMono (show f.infBits - 1 < f.infBits by omega)
      linarith

end Value

end Sys2Proof.Machine
end

section
/-! PROOF. What a rounded value is, as R51 has it. -/

namespace Sys2Proof.Machine

@[simp] theorem signNum_true : signNum true = -1 := rfl
@[simp] theorem signNum_false : signNum false = 1 := rfl

theorem signNum_abs (s : Bool) : |signNum s| = 1 := by cases s <;> simp

/-- Bits that stand for a number have a sign and a magnitude below infinity's. -/
theorem Fmt.unpack_finite {f : Fmt} {n : ℕ} (h : (f.unpack n).finite = true) :
    f.mag n < f.infBits ∧ (f.unpack n).num = signNum (f.neg n) * f.magNum (f.mag n) := by
  obtain ⟨number, inf, nan⟩ := f.unpack_spec n
  rcases lt_trichotomy (f.mag n) f.infBits with lt | eq | gt
  · obtain ⟨m, e, value, num⟩ := number lt
    rw [value, FVal.num_fin, num]
    exact ⟨lt, rfl⟩
  · rw [inf eq] at h; cases h
  · rw [nan gt] at h; cases h

theorem Fmt.unpack_sign (f : Fmt) (s : Bool) {k : ℕ} (hk : k < f.infBits) :
    (f.unpack (f.signBit s + k)).finite = true ∧ (f.unpack (f.signBit s + k)).num = signNum s * f.magNum k := by
  have hlt := hk.trans f.infBits_lt
  have number := (f.unpack_spec (f.signBit s + k)).1
  rw [f.mag_sign s hlt, f.neg_sign s hlt] at number
  obtain ⟨m, e, value, num⟩ := number hk
  rw [value, FVal.num_fin, num]
  exact ⟨rfl, rfl⟩

section

variable {f : Fmt} {mode : Rnd} {neg : Bool} {a : ℚ} {k : ℕ}

/-- Rounded to nearest among the magnitudes, a number is rounded to nearest among both signs' numbers. -/
theorem nearest_signed (ha : 0 ≤ a) (h : RoundsAmong .rn neg f.magNum a k) (s : Bool) (j : ℕ) :
    |signNum neg * f.magNum k - signNum neg * a| ≤ |signNum s * f.magNum j - signNum neg * a| ∧
      (signNum s * f.magNum j ≠ signNum neg * f.magNum k →
        |signNum s * f.magNum j - signNum neg * a| = |signNum neg * f.magNum k - signNum neg * a| → k % 2 = 0) := by
  have unit := signNum_abs neg
  have same (x : ℚ) : |signNum neg * x - signNum neg * a| = |x - a| := by rw [← mul_sub, abs_mul, unit, one_mul]
  rw [same]
  by_cases hs : s = neg
  · subst hs
    rw [same]
    obtain ⟨near, even⟩ := h.nearest f.magNum_strictMono j
    exact ⟨near, fun ne => even fun e => ne (by rw [e])⟩
  · have opposite : signNum s = -signNum neg := by cases s <;> cases neg <;> simp at hs ⊢
    have pos := f.magNum_nonneg j
    have far : |signNum s * f.magNum j - signNum neg * a| = f.magNum j + a := by
      rw [opposite, show -signNum neg * f.magNum j - signNum neg * a = -(signNum neg * (f.magNum j + a)) by ring, abs_neg,
        abs_mul, unit, one_mul, abs_of_nonneg (by linarith)]
    obtain ⟨near, even⟩ := h.nearest f.magNum_strictMono 0
    rw [f.magNum_zero, zero_sub, abs_neg, abs_of_nonneg ha] at near even
    rw [far]
    refine ⟨by linarith, fun ne tie => even ?_ (by linarith)⟩
    rintro rfl
    have : f.magNum j = 0 := by linarith
    simp [this] at ne

theorem signNum_mul (s t : Bool) : signNum s * signNum t = if s = t then 1 else -1 := by cases s <;> cases t <;> simp

/-- Where the magnitude is cut down, the number is the nearest one towards zero, whatever the others' signs. -/
theorem towards_signed (h : RoundsAmong mode neg f.magNum a k) (hm : cutsDown mode neg = true) (s : Bool) (j : ℕ)
    (hj : signNum neg * (signNum s * f.magNum j) ≤ a) : signNum neg * (signNum s * f.magNum j) ≤ f.magNum k := by
  rw [← mul_assoc, signNum_mul] at hj ⊢
  by_cases hs : neg = s
  · rw [if_pos hs, one_mul] at hj ⊢
    exact f.magNum_strictMono.monotone
      (Nat.lt_succ_iff.mp (f.magNum_strictMono.lt_iff_lt.mp (hj.trans_lt (h.down hm).2)))
  · rw [if_neg hs] at hj ⊢
    have := f.magNum_nonneg j
    have := f.magNum_nonneg k
    linarith

/-- Where it is not, and the mode is not to nearest, it is the nearest one away from zero. -/
theorem away_signed (ha : 0 < a) (h : RoundsAmong mode neg f.magNum a k) (hn : mode ≠ .rn) (hm : cutsDown mode neg = false)
    (s : Bool) (j : ℕ) (hj : a ≤ signNum neg * (signNum s * f.magNum j)) :
    f.magNum k ≤ signNum neg * (signNum s * f.magNum j) := by
  rw [← mul_assoc, signNum_mul] at hj ⊢
  by_cases hs : neg = s
  · rw [if_pos hs, one_mul] at hj ⊢
    exact f.magNum_strictMono.monotone
      (not_lt.mp fun less => absurd ((h.up f.magNum_strictMono hn hm).2 j less) (not_lt.mpr hj))
  · rw [if_neg hs] at hj
    have := f.magNum_nonneg j
    linarith

end

/-- A value that is not 0 is rounded once (R51). -/
theorem Fmt.round_rounds {f : Fmt} (hf : f.Sound) (mode : Rnd) (neg : Bool) {m : ℕ} (hm : m ≠ 0) (e : ℤ) :
    f.Rounds mode (FVal.fin neg m e).num (f.round mode false neg m e) := by
  rw [FVal.num_fin, Fmt.round_eq hf mode false neg hm]
  have among := Fmt.enc_among hf mode neg hm e
  have inRange := Fmt.roundMag_of_le_big hf (mode := mode) (sat := false) (neg := neg) (e := e) hm
  have beyond := Fmt.roundMag_of_big_lt hf (mode := mode) (sat := false) (neg := neg) (e := e) hm
  have threshold := Fmt.enc_nearest_overflows hf (neg := neg) (e := e) hm
  have finite := Fmt.enc_of_le_big hf (mode := mode) (neg := neg) (e := e) hm
  have lt := f.roundMag_lt mode false neg m e
  have apos : 0 < (m : ℚ) * 2 ^ e := by have := Nat.pos_of_ne_zero hm; positivity
  generalize (m : ℚ) * 2 ^ e = a at *
  generalize f.roundMag mode false neg m e = r at *
  have unit := signNum_abs neg
  have square : signNum neg * signNum neg = 1 := by cases neg <;> simp
  have size : |signNum neg * a| = a := by cases neg <;> simp [abs_of_pos apos]
  have sign : decide (signNum neg * a < 0) = neg := by cases neg <;> simp [apos, apos.le]
  refine ⟨f.sign_lt neg lt, ?_, fun hle => ?_, fun hgt => ?_⟩
  · rw [f.neg_sign neg lt, sign]
  · rw [size] at hle
    obtain rfl := inRange hle
    generalize f.enc mode neg m e = k at *
    obtain ⟨fin, num⟩ := f.unpack_sign neg (finite hle)
    refine ⟨fin, ?_⟩
    rw [num]
    have kpos := f.magNum_nonneg k
    cases mode with
    | rn =>
      rintro z ⟨n, -, hn, rfl⟩
      rw [(Fmt.unpack_finite hn).2, Nat.add_mod, Fmt.sign_even hf, zero_add, Nat.mod_mod]
      exact nearest_signed apos.le among _ _
    | rz =>
      refine ⟨?_, ?_, ?_⟩
      · rw [abs_mul, unit, one_mul, abs_of_nonneg kpos, size]
        exact (among.down rfl).1
      · rw [mul_mul_mul_comm, square, one_mul]
        exact mul_nonneg kpos apos.le
      · rintro z ⟨n, -, hn, rfl⟩ hz
        rw [(Fmt.unpack_finite hn).2, abs_mul, signNum_abs, one_mul, abs_of_nonneg (f.magNum_nonneg _)] at hz ⊢
        rw [abs_mul, unit, one_mul, abs_of_nonneg kpos]
        rw [size] at hz
        simpa [← mul_assoc, square] using towards_signed among rfl neg (f.mag n) (by simpa [← mul_assoc, square] using hz)
    | rm =>
      refine ⟨?_, ?_⟩
      · cases neg
        · simpa using (among.down rfl).1
        · simpa using (among.up f.magNum_strictMono nofun rfl).1
      · rintro z ⟨n, -, hn, rfl⟩ hz
        rw [(Fmt.unpack_finite hn).2] at hz ⊢
        cases neg
        · simpa using towards_signed among rfl (f.neg n) (f.mag n) (by simpa using hz)
        · have := away_signed apos among nofun rfl (f.neg n) (f.mag n) (by simp only [signNum_true] at hz ⊢; linarith)
          simp only [signNum_true] at this ⊢
          linarith
    | rp =>
      refine ⟨?_, ?_⟩
      · cases neg
        · simpa using (among.up f.magNum_strictMono nofun rfl).1
        · simpa using (among.down rfl).1
      · rintro z ⟨n, -, hn, rfl⟩ hz
        rw [(Fmt.unpack_finite hn).2] at hz ⊢
        cases neg
        · simpa using away_signed apos among nofun rfl (f.neg n) (f.mag n) (by simpa using hz)
        · have := towards_signed among rfl (f.neg n) (f.mag n) (by simp only [signNum_true] at hz ⊢; linarith)
          simp only [signNum_true] at this ⊢
          linarith
  · rw [size] at hgt
    rw [f.mag_sign neg lt, beyond hgt]
    have away (hn : mode ≠ .rn) (hm : cutsDown mode neg = false) : f.infBits ≤ f.enc mode neg m e := by
      have reached := (Fmt.magNum_infBits hf).1.trans_lt (hgt.trans_le (among.up f.magNum_strictMono hn hm).1)
      have := f.magNum_strictMono.lt_iff_lt.mp reached
      omega
    cases mode with
    | rn =>
      simp only [Fmt.overMag, cutsDown, Bool.or_false, Bool.false_eq_true, if_false, threshold hgt, size, decide_eq_true_eq,
        ← not_lt, ite_not]
    | rz => simp [Fmt.overMag, cutsDown]
    | rm =>
      cases neg
      · simp [Fmt.overMag, cutsDown, apos]
      · simp [Fmt.overMag, cutsDown, away nofun rfl, apos.le]
    | rp =>
      cases neg
      · simp [Fmt.overMag, cutsDown, away nofun rfl, apos.not_gt]
      · simp [Fmt.overMag, cutsDown, apos]

end Sys2Proof.Machine
end

section
/-! PROOF. Sums and conversions: FSUM (R134), and values rounded with saturation or to integers (R147 to R149). -/

namespace Sys2Proof.Machine

/-! Signs. -/

theorem FVal.num_abs (s : Bool) (m : ℕ) (e : ℤ) : |(FVal.fin s m e).num| = m * 2 ^ e := by
  rw [FVal.num_fin, abs_mul, signNum_abs, one_mul, abs_of_nonneg (by positivity)]

theorem FVal.num_eq_zero {s : Bool} {m : ℕ} {e : ℤ} : (FVal.fin s m e).num = 0 ↔ m = 0 := by
  have nonzero : signNum s ≠ 0 := by cases s <;> simp
  have power : (2 : ℚ) ^ e ≠ 0 := by positivity
  simp [FVal.num_fin, nonzero, power]

theorem FVal.num_neg_iff {s : Bool} {m : ℕ} {e : ℤ} (hm : m ≠ 0) : decide ((FVal.fin s m e).num < 0) = s := by
  have : 0 < (m : ℚ) * 2 ^ e := by have := Nat.pos_of_ne_zero hm; positivity
  cases s <;> simp [FVal.num_fin, this, this.le]

/-- A signed count of powers of two, as a sign and a magnitude. -/
theorem FVal.num_of_int (z e : ℤ) : (FVal.fin (decide (z < 0)) z.natAbs e).num = z * 2 ^ e := by
  rw [FVal.num_fin, ← mul_assoc]
  congr 1
  rcases lt_or_ge z 0 with neg | pos
  · simp [neg, Nat.cast_natAbs, abs_of_neg neg]
  · simp [pos.not_gt, Nat.cast_natAbs, abs_of_nonneg pos]

/-! Rounding with saturation (R147), and to integers (R148). -/

/-- Rounded once, and beyond the range with .sat the greatest finite number. -/
theorem Fmt.round_sat {f : Fmt} (hf : f.Sound) (mode : Rnd) (sat neg : Bool) {m : ℕ} (hm : m ≠ 0) (e : ℤ) :
    let x := (FVal.fin neg m e).num
    (sat = false ∨ |x| ≤ f.big → f.Rounds mode x (f.round mode sat neg m e)) ∧
      (sat = true → f.big < |x| → f.round mode sat neg m e = f.signBit (decide (x < 0)) + f.infBits - 1) := by
  intro x
  have rounds := Fmt.round_rounds hf mode neg hm e
  have pos := Fmt.infBits_pos hf
  refine ⟨?_, ?_⟩
  · rintro (rfl | hle)
    · exact rounds
    · rw [FVal.num_abs] at hle
      rw [Fmt.round_eq hf _ _ _ hm, Fmt.roundMag_of_le_big hf hm hle] at rounds ⊢
      exact rounds
  · rintro rfl hgt
    rw [FVal.num_abs] at hgt
    rw [Fmt.round_eq hf _ _ _ hm, Fmt.roundMag_sat hf hm hgt, FVal.num_neg_iff hm]
    omega

/-- Rounded up among the integers, a magnitude grows by less than 1. -/
theorem up_among_nat {mode : Rnd} {neg : Bool} {a : ℚ} {k : ℕ} (ha : 0 ≤ a)
    (h : RoundsAmong mode neg (fun n => (n : ℚ)) a k) (hn : mode ≠ .rn) (hm : cutsDown mode neg = false) :
    a ≤ k ∧ k < a + 1 := by
  obtain ⟨le, least⟩ := h.up Nat.strictMono_cast hn hm
  refine ⟨le, ?_⟩
  cases k with
  | zero => push_cast; linarith
  | succ k => have := least k k.lt_succ_self; push_cast; linarith

/-- A magnitude rounded among the integers is, with its sign, a number rounded to an integer. -/
theorem roundsToInt_signed {mode : Rnd} {neg : Bool} {a : ℚ} {k : ℕ} (ha : 0 ≤ a)
    (h : RoundsAmong mode neg (fun n => (n : ℚ)) a k) : RoundsToInt mode (signNum neg * a) (if neg then -(k : ℤ) else k) := by
  have cast : (((if neg then -(k : ℤ) else k) : ℤ) : ℚ) = signNum neg * k := by cases neg <;> simp
  have size : |signNum neg * a| = a := by rw [abs_mul, signNum_abs, one_mul, abs_of_nonneg ha]
  cases mode with
  | rn =>
    have dist : |signNum neg * k - signNum neg * a| = |(k : ℚ) - a| := by rw [← mul_sub, abs_mul, signNum_abs, one_mul]
    have parity : (if neg then -(k : ℤ) else k) % 2 = 0 ↔ k % 2 = 0 := by cases neg <;> simp <;> omega
    simp only [RoundsToInt, cast, dist, parity]
    obtain ⟨lo, hlo, hhi, hk⟩ := h
    simp only [takesUpper, not_or, not_and, not_lt] at hk
    push_cast at hk hhi
    rcases hk with ⟨rfl, near, even⟩ | ⟨rfl, near⟩
    · rw [abs_sub_comm, abs_of_nonneg (by linarith)]
      refine ⟨by linarith, fun half => ?_⟩
      have := even (by linarith)
      omega
    · push_cast
      rw [abs_of_nonneg (by linarith)]
      rcases near with near | ⟨tie, odd⟩
      · exact ⟨by linarith, fun half => by linarith⟩
      · exact ⟨by linarith, fun _ => by omega⟩
  | rz =>
    obtain ⟨le, lt⟩ := h.down rfl
    push_cast at lt
    have square : signNum neg * signNum neg = 1 := by cases neg <;> simp
    simp only [RoundsToInt, cast, size, abs_mul, signNum_abs, one_mul, Nat.abs_cast]
    refine ⟨le, lt, ?_⟩
    rw [mul_mul_mul_comm, square, one_mul]
    positivity
  | rm =>
    refine (Int.floor_eq_iff.mpr ?_).symm
    rw [cast]
    cases neg
    · obtain ⟨le, lt⟩ := h.down rfl
      push_cast at lt
      simp only [signNum_false]
      constructor <;> linarith
    · obtain ⟨le, lt⟩ := up_among_nat ha h nofun rfl
      simp only [signNum_true]
      constructor <;> linarith
  | rp =>
    refine (Int.ceil_eq_iff.mpr ?_).symm
    rw [cast]
    cases neg
    · obtain ⟨le, lt⟩ := up_among_nat ha h nofun rfl
      simp only [signNum_false]
      constructor <;> linarith
    · obtain ⟨le, lt⟩ := h.down rfl
      push_cast at lt
      simp only [signNum_true]
      constructor <;> linarith

/-- A finite value is rounded to an integer with its sign (R144, R148). -/
theorem roundInt_rounds (mode : Rnd) (neg : Bool) (m : ℕ) (e : ℤ) :
    RoundsToInt mode (FVal.fin neg m e).num (if neg then -(roundInt mode neg m e : ℤ) else roundInt mode neg m e) := by
  have among := roundAt_among mode neg m e 0
  rw [sub_zero] at among
  rw [FVal.num_fin]
  exact roundsToInt_signed (by positivity) among

/-! FSUM (R134). -/

/-- A finite term enters a sum. -/
def addTerm (a : ℤ × ℤ) (t : FVal) : ℤ × ℤ :=
  match t with
  | .fin n m e => if m = 0 then a else if a.1 = 0 then ((if n then -(m : ℤ) else m), e)
      else exactAdd a ((if n then -(m : ℤ) else m), e)
  | _ => a

/-- The number that a count of powers of two is. -/
def countNum (a : ℤ × ℤ) : ℚ := a.1 * 2 ^ a.2

theorem countNum_eq_zero {a : ℤ × ℤ} : countNum a = 0 ↔ a.1 = 0 := by
  have power : (2 : ℚ) ^ a.2 ≠ 0 := by positivity
  simp [countNum, power]

theorem countNum_exactAdd (x y : ℤ × ℤ) : countNum (exactAdd x y) = countNum x + countNum y := by
  have scaled (z : ℤ × ℤ) (hz : min x.2 y.2 ≤ z.2) :
      (z.1 : ℚ) * 2 ^ (z.2 - min x.2 y.2).toNat * 2 ^ min x.2 y.2 = countNum z := by
    rw [mul_assoc, ← zpow_natCast, Int.toNat_of_nonneg (by omega), ← zpow_add₀ two_ne_zero, sub_add_cancel, countNum]
  simp only [countNum, exactAdd]
  push_cast
  rw [add_mul, scaled x (min_le_left ..), scaled y (min_le_right ..)]
  rfl

theorem countNum_addTerm (a : ℤ × ℤ) {t : FVal} (ht : t.finite = true) : countNum (addTerm a t) = countNum a + t.num := by
  cases t with
  | nan | inf n => cases ht
  | fin n m e =>
    have term : countNum ((if n then -(m : ℤ) else m), e) = (FVal.fin n m e).num := by
      cases n <;> simp [countNum, FVal.num_fin]
    simp only [addTerm]
    split
    · next hm => rw [FVal.num_eq_zero.mpr hm, add_zero]
    · split
      · next ha => rw [countNum_eq_zero.mpr ha, zero_add, term]
      · rw [countNum_exactAdd, term]

/-- The sum of finite terms is exact. -/
theorem countNum_exactSum {l : List FVal} (hl : ∀ v ∈ l, v.finite = true) : countNum (exactSum l) = (l.map FVal.num).sum := by
  have sum (l : List FVal) (hl : ∀ v ∈ l, v.finite = true) (a : ℤ × ℤ) :
      countNum (l.foldl addTerm a) = countNum a + (l.map FVal.num).sum := by
    induction l generalizing a with
    | nil => simp
    | cons t l ih =>
      rw [List.foldl_cons, ih (fun v hv => hl v (List.mem_cons_of_mem _ hv)),
        countNum_addTerm a (hl t (List.mem_cons_self ..)), List.map_cons, List.sum_cons, add_assoc]
  have folded : exactSum l = l.foldl addTerm (0, 0) := rfl
  rw [folded, sum l hl]
  simp [countNum]

/-- A term is the zero of this sign. -/
def FVal.isZero (n : Bool) (t : FVal) : Bool :=
  match t with
  | .fin s m _ => decide (m = 0) && s == n
  | _ => false

theorem FVal.isZero_iff {n : Bool} {t : FVal} : t.isZero n = true ↔ ∃ k, t = .fin n 0 k := by
  cases t <;> simp [FVal.isZero]
  tauto

section Fsum

variable (f : Fmt) (mode : Rnd) {l : List FVal}

theorem fsum_nan (h : FVal.nan ∈ l ∨ (FVal.inf false ∈ l ∧ FVal.inf true ∈ l)) : fsum f mode l = f.nanBits := by
  simp [fsum, h]

theorem fsum_inf {n : Bool} (hnan : FVal.nan ∉ l) (hn : FVal.inf n ∈ l) (hother : FVal.inf (!n) ∉ l) :
    fsum f mode l = f.signBit n + f.infBits := by
  cases n <;> simp at hother <;> simp [fsum, hnan, hn, hother, Fmt.signBit]

/-- Finite terms whose sum is 0 give the zero of their one sign, or of the mode; others give it, rounded once. -/
theorem fsum_finite (hl : ∀ v ∈ l, v.finite = true) : fsum f mode l =
    if (exactSum l).1 = 0 then
      (if l.all (FVal.isZero true) then f.signBit true else if l.all (FVal.isZero false) then 0
        else f.signBit (decide (mode = .rm)))
    else f.round mode false (decide ((exactSum l).1 < 0)) (exactSum l).1.natAbs (exactSum l).2 := by
  have absent {v : FVal} (hv : v.finite = false) : l.any (fun t => t == v) = false := by
    rw [List.any_eq_false]
    rintro t ht
    simp only [beq_iff_eq]
    rintro rfl
    simp [hl t ht] at hv
  have sign : (mode == .rm) = decide (mode = .rm) := by cases mode <;> rfl
  simp only [fsum, absent (v := .nan) rfl, absent (v := .inf _) rfl, sign]
  rfl

end Fsum

theorem fsum_rounds {f : Fmt} (hf : f.Sound) (mode : Rnd) {l : List FVal} (hl : ∀ v ∈ l, v.finite = true)
    (hx : (l.map FVal.num).sum ≠ 0) : f.Rounds mode (l.map FVal.num).sum (fsum f mode l) := by
  have sum := countNum_exactSum hl
  have nonzero : (exactSum l).1 ≠ 0 := by rwa [← sum, ne_eq, countNum_eq_zero] at hx
  have rounds := Fmt.round_rounds hf mode (decide ((exactSum l).1 < 0)) (Int.natAbs_ne_zero.mpr nonzero) (exactSum l).2
  rw [FVal.num_of_int] at rounds
  rw [fsum_finite f mode hl, if_neg nonzero, ← sum]
  exact rounds

/-- The zeros of R134. -/
theorem fsum_zeros (f : Fmt) (mode : Rnd) {l : List FVal} (hl : ∀ v ∈ l, v.finite = true) (hx : (l.map FVal.num).sum = 0) :
    let zeros (n : Bool) : Prop := ∀ v ∈ l, ∃ k, v = .fin n 0 k
    (zeros true → fsum f mode l = f.signBit true) ∧ (l ≠ [] → zeros false → fsum f mode l = 0) ∧
      (¬ zeros true → ¬ zeros false → fsum f mode l = f.signBit (decide (mode = .rm))) := by
  intro zeros
  have all (n : Bool) : l.all (FVal.isZero n) = true ↔ zeros n := by simp only [List.all_eq_true, FVal.isZero_iff]; rfl
  rw [fsum_finite f mode hl, if_pos (countNum_eq_zero.mp ((countNum_exactSum hl).trans hx))]
  refine ⟨fun neg => if_pos ((all true).mpr neg), fun nonempty pos => ?_, fun neg pos => ?_⟩
  · obtain ⟨v, hv⟩ := List.exists_mem_of_ne_nil l nonempty
    have other : ¬ zeros true := fun neg => by
      obtain ⟨⟨k, rfl⟩, ⟨j, hj⟩⟩ := And.intro (pos v hv) (neg v hv)
      cases hj
    rw [if_neg (mt (all true).mp other), if_pos ((all false).mpr pos)]
  · rw [if_neg (mt (all true).mp neg), if_neg (mt (all false).mp pos)]

/-- A product of finite terms is exact. -/
theorem FVal.mul_num {p q : FVal} (hp : p.finite = true) (hq : q.finite = true) :
    (p.mul q).finite = true ∧ (p.mul q).num = p.num * q.num := by
  cases p with
  | nan | inf n => cases hp
  | fin s m e =>
    cases q with
    | nan | inf n => cases hq
    | fin t n g =>
      have signs : signNum (s != t) = signNum s * signNum t := by cases s <;> cases t <;> simp
      refine ⟨rfl, ?_⟩
      rw [FVal.mul, FVal.num_fin, FVal.num_fin, FVal.num_fin, signs, zpow_add₀ two_ne_zero]
      push_cast
      ring

end Sys2Proof.Machine
end

section
/-! PROOF. Step words of floating point (R138 to R144): comparison, class, scale, exponent and rounding to an integer. -/

namespace Sys2Proof.Machine

/-! The order of values (R138, R139). -/

/-- The number of a magnitude with a sign. -/
def Fmt.signedNum (f : Fmt) (z : ℤ) : ℚ := if 0 ≤ z then f.magNum z.natAbs else -f.magNum z.natAbs

theorem Fmt.signedNum_strictMono (f : Fmt) : StrictMono f.signedNum := by
  refine strictMono_int_of_lt_succ fun z => ?_
  unfold Fmt.signedNum
  rcases lt_trichotomy z (-1) with less | rfl | more
  · rw [if_neg (by omega), if_neg (by omega)]
    exact neg_lt_neg (f.magNum_strictMono (by omega))
  · have := f.magNum_pos one_pos
    simpa using this
  · rw [if_pos (by omega), if_pos (by omega)]
    exact f.magNum_strictMono (by omega)

theorem Fmt.num_valKey {f : Fmt} {n : ℕ} (h : (f.unpack n).finite = true) : (f.unpack n).num = f.signedNum (f.valKey n) := by
  rw [(Fmt.unpack_finite h).2, Fmt.signedNum, Fmt.valKey]
  cases f.neg n
  · simp
  · rcases Nat.eq_zero_or_pos (f.mag n) with zero | pos
    · simp [zero]
    · simp [pos.ne']

theorem Fmt.not_isNan {f : Fmt} {n : ℕ} (h : (f.unpack n).finite = true) : f.isNan n = false := by
  have := (Fmt.unpack_finite h).1
  simpa [Fmt.isNan] using this.le

/-- The order that puts -0 below +0 refines the one of values. -/
theorem Fmt.valKey_le_of_key_le {f : Fmt} {a b : ℕ} (h : f.key a ≤ f.key b) : f.valKey a ≤ f.valKey b := by
  unfold Fmt.key at h
  unfold Fmt.valKey
  split_ifs at h ⊢ <;> omega

section Finite

variable {f : Fmt} {a b : ℕ} (ha : (f.unpack a).finite = true) (hb : (f.unpack b).finite = true)
include ha hb

/-- FCMP compares the numbers (R139). -/
theorem Fmt.cmp_finite :
    (f.cmp .lt a b = true ↔ (f.unpack a).num < (f.unpack b).num) ∧
    (f.cmp .le a b = true ↔ (f.unpack a).num ≤ (f.unpack b).num) ∧
    (f.cmp .eq a b = true ↔ (f.unpack a).num = (f.unpack b).num) ∧
    (f.cmp .ne a b = true ↔ (f.unpack a).num ≠ (f.unpack b).num) ∧
    (f.cmp .gt a b = true ↔ (f.unpack b).num < (f.unpack a).num) ∧
    (f.cmp .ge a b = true ↔ (f.unpack b).num ≤ (f.unpack a).num) := by
  have mono := f.signedNum_strictMono
  simp only [Fmt.cmp, Fmt.not_isNan ha, Fmt.not_isNan hb, Fmt.num_valKey ha, Fmt.num_valKey hb, mono.lt_iff_lt, mono.le_iff_le]
  simp [mono.injective.eq_iff]

/-- FMIN gives the operand with the lesser number, and FMAX the one with the greater (R138). -/
theorem Fmt.minmax_finite (p : Bool) :
    f.minmax p false a b ∈ [a, b] ∧ (f.unpack (f.minmax p false a b)).num = min (f.unpack a).num (f.unpack b).num ∧
    f.minmax p true a b ∈ [a, b] ∧ (f.unpack (f.minmax p true a b)).num = max (f.unpack a).num (f.unpack b).num := by
  have less : f.minmax p false a b = if f.key a ≤ f.key b then a else b := by
    simp [Fmt.minmax, Fmt.not_isNan ha, Fmt.not_isNan hb]
  have more : f.minmax p true a b = if f.key b ≤ f.key a then a else b := by
    simp [Fmt.minmax, Fmt.not_isNan ha, Fmt.not_isNan hb]
  have order {x y : ℕ} (hx : (f.unpack x).finite = true) (hy : (f.unpack y).finite = true) (h : f.key x ≤ f.key y) :
      (f.unpack x).num ≤ (f.unpack y).num := by
    rw [Fmt.num_valKey hx, Fmt.num_valKey hy]
    exact f.signedNum_strictMono.monotone (Fmt.valKey_le_of_key_le h)
  rw [less, more]
  refine ⟨by split <;> simp, ?_, by split <;> simp, ?_⟩
  · split
    · next h => exact (min_eq_left (order ha hb h)).symm
    · next h => exact (min_eq_right (order hb ha (by omega))).symm
  · split
    · next h => exact (max_eq_left (order hb ha h)).symm
    · next h => exact (max_eq_right (order ha hb (by omega))).symm

end Finite

/-! Classes (R140). -/

theorem bitOf_eq_testBit (n i : ℕ) : bitOf n i = n.testBit i := by
  rw [bitOf, Nat.testBit_eq_decide_div_mod_eq]
  rfl

theorem Fmt.cls_spec (f : Fmt) (hf : f.Sound) (x : ℕ) : f.cls x = (match f.unpack x with
    | .nan => if x.testBit (f.fb - 1) then 9 else 8
    | .inf n => if n then 0 else 7
    | .fin n m _ => if m = 0 then (if n then 3 else 4)
        else if |(f.unpack x).num| < 2 ^ f.emin then (if n then 2 else 5) else (if n then 1 else 6)) := by
  obtain ⟨number, inf, nan⟩ := f.unpack_spec x
  rcases lt_trichotomy (f.mag x) f.infBits with lt | eq | gt
  · obtain ⟨m, e, value, num⟩ := number lt
    have zero : m = 0 ↔ f.mag x = 0 := by
      rw [← FVal.num_eq_zero (s := false) (e := e), FVal.num_fin, num, signNum_false, one_mul, ← f.magNum_zero]
      exact f.magNum_strictMono.injective.eq_iff
    have least : f.magNum (2 ^ f.fb) = 2 ^ f.emin := by
      have := f.magNum_of_sig (k := 0) (sig := 2 ^ f.fb) (.inl rfl) (Nat.pow_le_pow_right two_pos (Nat.le_succ _))
      rw [zero_mul, zero_add] at this
      rw [this, Nat.cast_zero, add_zero, zpow_sub₀ two_ne_zero, zpow_natCast]
      push_cast
      field_simp
    have subnormal : |(f.unpack x).num| < 2 ^ f.emin ↔ f.mag x < 2 ^ f.fb := by
      rw [value, FVal.num_abs, num, ← least]
      exact f.magNum_strictMono.lt_iff_lt
    rw [value] at subnormal ⊢
    simp only [Fmt.cls, zero, subnormal, if_neg lt.not_gt, if_neg lt.ne]
  · rw [inf eq]
    simp [Fmt.cls, eq]
  · have bit : bitOf (f.mag x) (f.fb - 1) = x.testBit (f.fb - 1) := by
      have inside : f.fb - 1 < f.eb + f.fb := by have := hf.fb_pos; have := hf.eb_pos; omega
      rw [Fmt.mag, bitOf_eq_testBit, Nat.testBit_mod_two_pow, decide_eq_true inside, Bool.true_and]
    rw [nan gt]
    simp only [Fmt.cls, if_pos gt, bit]

/-! Exponents (R143) and scaling (R142). -/

theorem Fmt.gex_spec {f : Fmt} {x : ℕ} (hx : (f.unpack x).finite = true) (h0 : (f.unpack x).num ≠ 0) :
    2 ^ f.gex x ≤ |(f.unpack x).num| ∧ |(f.unpack x).num| < 2 ^ (f.gex x + 1) := by
  unfold Fmt.gex
  cases value : f.unpack x with
  | nan | inf n => rw [value] at hx; cases hx
  | fin s m e =>
    rw [value, ne_eq, FVal.num_eq_zero] at h0
    simp only [if_neg h0, FVal.num_abs]
    have lead : (2 : ℚ) ^ (Nat.log2 m : ℤ) ≤ m := by exact_mod_cast Nat.log2_self_le h0
    have next : (m : ℚ) < 2 ^ (Nat.log2 m + 1 : ℤ) := by exact_mod_cast Nat.lt_log2_self (n := m)
    rw [add_assoc, zpow_add₀ two_ne_zero, zpow_add₀ two_ne_zero e, mul_comm, mul_comm (2 ^ e)]
    exact ⟨mul_le_mul_of_nonneg_right lead (by positivity), mul_lt_mul_of_pos_right next (by positivity)⟩

/-- A magnitude of less than half the least number is rounded to it or to 0, whatever it is. -/
theorem RoundsAmong.of_tiny {mode : Rnd} {neg : Bool} {v : ℕ → ℚ} {a : ℚ} {k : ℕ} (h : RoundsAmong mode neg v a k)
    (hv : StrictMono v) (h0 : v 0 = 0) (ha : 0 < a) (htiny : a * 2 < v 1) :
    k = if mode ≠ .rn ∧ cutsDown mode neg = false then 1 else 0 := by
  obtain ⟨lo, hlo, -, hk⟩ := h
  obtain rfl : lo = 0 := Nat.lt_one_iff.mp (hv.lt_iff_lt.mp (hlo.trans_lt (by linarith)))
  rw [zero_add, h0] at hk
  have far : ¬ v 1 - a < a ∧ v 1 - a ≠ a := ⟨by linarith, fun same => by linarith⟩
  cases mode <;> cases neg <;> simpa [takesUpper, cutsDown, ha, far] using hk

theorem Fmt.emin_bounds {f : Fmt} (hf : f.Sound) : -126 ≤ f.emin ∧ f.emin ≤ 0 ∧ f.emin + f.fb ≤ 1 := by
  obtain ⟨n, hn⟩ := Nat.exists_eq_add_of_le' hf.eb_pos
  have few := hf.few
  have fits := hf.fits
  have big : 2 ^ 1 ≤ 2 ^ (n + 1) := Nat.pow_le_pow_right two_pos (by omega)
  have double : 2 ^ (n + 2) = 2 * 2 ^ (n + 1) := by rw [pow_succ, mul_comm]
  have cast : ((2 ^ (n + 1) : ℕ) : ℤ) = 2 ^ (n + 1) := by push_cast; rfl
  rw [hn] at few fits
  rw [show n + 2 - 1 = n + 1 from rfl] at fits
  rw [Fmt.emin, hn, show n + 2 - 1 = n + 1 from rfl, ← cast]
  omega

theorem Fmt.magNum_one (f : Fmt) : f.magNum 1 = 2 ^ (f.emin - f.fb) := by
  have := f.magNum_of_sig (k := 0) (sig := 1) (.inl rfl) Nat.one_le_two_pow
  simpa using this

/-- A factor of 2^1000 leads from the least number past the greatest. -/
theorem Fmt.magNum_span {f : Fmt} (hf : f.Sound) : f.magNum f.infBits * 2 ≤ f.magNum 1 * 2 ^ (1000 : ℤ) := by
  obtain ⟨low, -, frac⟩ := Fmt.emin_bounds hf
  have power : (2 : ℚ) ^ (f.fb + 1) = 2 ^ (f.fb + 1 : ℤ) := by exact_mod_cast rfl
  rw [(Fmt.magNum_infBits hf).2, f.magNum_one, power, ← zpow_add₀ two_ne_zero, ← zpow_add_one₀ two_ne_zero,
    ← zpow_add₀ two_ne_zero]
  exact zpow_le_zpow_right₀ one_le_two (by omega)

/-- Beyond 2^1000 a scale gives no more, and below 2^-1000 no less. -/
theorem Fmt.round_clamped {f : Fmt} (hf : f.Sound) (mode : Rnd) (s : Bool) {m : ℕ} (e n : ℤ) (hm : m ≠ 0)
    (hlo : f.magNum 1 ≤ m * 2 ^ e) (hhi : (m : ℚ) * 2 ^ e < f.magNum f.infBits) :
    f.round mode false s m (e + max (-1000) (min 1000 n)) = f.round mode false s m (e + n) := by
  have span := Fmt.magNum_span hf
  have among (n : ℤ) := Fmt.enc_among hf mode s hm (e + n)
  have split (n : ℤ) : (m : ℚ) * 2 ^ (e + n) = m * 2 ^ e * 2 ^ n := by rw [zpow_add₀ two_ne_zero, mul_assoc]
  have pos : 0 < (m : ℚ) * 2 ^ e := (f.magNum_pos one_pos).trans_le hlo
  have overflows {n : ℤ} (hn : 1000 ≤ n) : f.infBits ≤ f.enc mode s m (e + n) := by
    refine ((among n).within f.magNum_strictMono).1 _ ?_
    rw [split]
    calc f.magNum f.infBits ≤ f.magNum 1 * 2 ^ (1000 : ℤ) := by linarith [f.magNum_nonneg f.infBits]
      _ ≤ m * 2 ^ e * 2 ^ n := mul_le_mul hlo (zpow_le_zpow_right₀ one_le_two hn) (by positivity) pos.le
  have vanishes {n : ℤ} (hn : n ≤ -1000) :
      f.enc mode s m (e + n) = if mode ≠ .rn ∧ cutsDown mode s = false then 1 else 0 := by
    refine (among n).of_tiny f.magNum_strictMono f.magNum_zero (by rw [split]; positivity) ?_
    rw [split]
    calc (m : ℚ) * 2 ^ e * 2 ^ n * 2 ≤ m * 2 ^ e * 2 ^ (-1000 : ℤ) * 2 := by
          gcongr
          exact one_le_two
      _ < f.magNum f.infBits * 2 ^ (-1000 : ℤ) * 2 := by gcongr
      _ = f.magNum f.infBits * 2 * 2 ^ (-1000 : ℤ) := by ring
      _ ≤ f.magNum 1 * 2 ^ (1000 : ℤ) * 2 ^ (-1000 : ℤ) := by gcongr
      _ = f.magNum 1 := by rw [mul_assoc, ← zpow_add₀ two_ne_zero]; simp
  rw [Fmt.round_eq hf _ _ _ hm, Fmt.round_eq hf _ _ _ hm, Fmt.roundMag, Fmt.roundMag]
  rcases le_total 1000 n with high | low
  · rw [if_pos (overflows (by omega)), if_pos (overflows high)]
  · rcases le_total n (-1000) with deep | near
    · rw [vanishes (by omega), vanishes deep]
    · rw [show max (-1000) (min 1000 n) = n by omega]

/-- A number lies between the least one and infinity. -/
theorem Fmt.num_bounds {f : Fmt} {x m : ℕ} {s : Bool} {e : ℤ} (hx : f.unpack x = .fin s m e) :
    f.mag x < f.infBits ∧ (m : ℚ) * 2 ^ e = f.magNum (f.mag x) := by
  have finite : (f.unpack x).finite = true := by rw [hx]; rfl
  obtain ⟨lt, num⟩ := Fmt.unpack_finite finite
  refine ⟨lt, ?_⟩
  have := congrArg abs num
  rwa [hx, FVal.num_abs, abs_mul, signNum_abs, one_mul, abs_of_nonneg (f.magNum_nonneg _)] at this

/-- FSCL rounds A times 2^B once (R142). -/
theorem Fmt.scale_rounds {f : Fmt} (hf : f.Sound) (mode : Rnd) {x : ℕ} (hx : (f.unpack x).finite = true)
    (h0 : (f.unpack x).num ≠ 0) (n : ℤ) : f.Rounds mode ((f.unpack x).num * 2 ^ n) (f.scale mode x n) := by
  unfold Fmt.scale
  cases value : f.unpack x with
  | nan | inf s => rw [value] at hx; cases hx
  | fin s m e =>
    rw [value, ne_eq, FVal.num_eq_zero] at h0
    obtain ⟨lt, num⟩ := Fmt.num_bounds value
    have pos : 0 < f.mag x := Nat.pos_of_ne_zero fun zero => by
      rw [zero, f.magNum_zero] at num
      have := Nat.pos_of_ne_zero h0
      have : 0 < (m : ℚ) * 2 ^ e := by positivity
      linarith
    have scaled : (FVal.fin s m e).num * 2 ^ n = (FVal.fin s m (e + n)).num := by
      rw [FVal.num_fin, FVal.num_fin, zpow_add₀ two_ne_zero]
      ring
    simp only [if_neg h0]
    rw [Fmt.round_clamped hf mode s e n h0 (num.symm ▸ f.magNum_strictMono.monotone pos)
      (num.trans_lt (f.magNum_strictMono lt)), scaled]
    exact Fmt.round_rounds hf mode s h0 (e + n)

/-! Rounding to an integer (R144). -/

/-- Every integer that the fraction reaches is a number of the format. -/
theorem Fmt.exists_mag_nat {f : Fmt} (hf : f.Sound) {k : ℕ} (h0 : k ≠ 0) (hk : k ≤ 2 ^ f.fb) :
    ∃ j < f.infBits, f.magNum j = k := by
  obtain ⟨-, nonpos, frac⟩ := Fmt.emin_bounds hf
  have below : Nat.log2 k ≤ f.fb := by
    rw [← Nat.pow_le_pow_iff_right one_lt_two]
    exact (Nat.log2_self_le h0).trans hk
  have low := Nat.log2_self_le h0
  have high : k < 2 ^ (Nat.log2 k + 1) := Nat.lt_log2_self
  generalize Nat.log2 k = L at *
  have power : 2 ^ L * 2 ^ (f.fb - L) = 2 ^ f.fb := by rw [← pow_add]; congr 1; omega
  have lead : 2 ^ f.fb ≤ k * 2 ^ (f.fb - L) := power ▸ Nat.mul_le_mul_right _ low
  have short : k * 2 ^ (f.fb - L) ≤ 2 ^ (f.fb + 1) := by
    rw [pow_succ, ← power, mul_right_comm, ← pow_succ]
    exact Nat.mul_le_mul_right _ high.le
  have value : f.magNum ((L - f.emin).toNat * 2 ^ f.fb + k * 2 ^ (f.fb - L)) = k := by
    rw [f.magNum_of_sig (.inr lead) short, Nat.cast_mul, Nat.cast_pow, mul_assoc, ← zpow_natCast, Nat.cast_ofNat,
      ← zpow_add₀ two_ne_zero, show ((f.fb - L : ℕ) : ℤ) + (f.emin - f.fb + (L - f.emin).toNat) = 0 by omega,
      zpow_zero, mul_one]
  refine ⟨_, f.magNum_strictMono.lt_iff_lt.mp (value.trans_lt ?_), value⟩
  rw [(Fmt.magNum_infBits hf).2]
  calc (k : ℚ) ≤ 2 ^ f.fb := by exact_mod_cast hk
    _ < 2 ^ (f.fb + 1) := pow_lt_pow_right₀ one_lt_two (Nat.lt_succ_self _)
    _ ≤ 2 ^ (f.fb + 1) * 2 ^ (1 - f.emin - f.fb) := le_mul_of_one_le_right (by positivity) (one_le_zpow₀ one_le_two (by omega))

/-- A number rounded to an integer is a number of the format. -/
theorem Fmt.exists_mag_rounded {f : Fmt} (hf : f.Sound) {mode : Rnd} {neg : Bool} {j k : ℕ} (hj : j < f.infBits)
    (h : RoundsAmong mode neg (fun n => (n : ℚ)) (f.magNum j) k) (h0 : k ≠ 0) : ∃ i < f.infBits, f.magNum i = k := by
  have ends := h.within Nat.strictMono_cast
  rcases le_total (f.magNum j) (2 ^ f.fb : ℕ) with low | high
  · exact Fmt.exists_mag_nat hf h0 (ends.2 _ low)
  · obtain ⟨K, sig, rfl, normal, short⟩ := f.exists_sig j
    have value := f.magNum_of_sig normal short.le
    have whole : 0 ≤ f.emin - f.fb + K := by
      have : (2 : ℚ) ^ (f.fb : ℤ) < 2 ^ (f.fb + 1 + (f.emin - f.fb + K)) := calc
        (2 : ℚ) ^ (f.fb : ℤ) = (2 ^ f.fb : ℕ) := by push_cast; rfl
        _ ≤ sig * 2 ^ (f.emin - f.fb + K) := high.trans_eq value
        _ < 2 ^ (f.fb + 1 : ℤ) * 2 ^ (f.emin - f.fb + K) := by gcongr; exact_mod_cast short
        _ = 2 ^ (f.fb + 1 + (f.emin - f.fb + K)) := (zpow_add₀ two_ne_zero _ _).symm
      have := (zpow_lt_zpow_iff_right₀ one_lt_two).mp this
      omega
    have integer : f.magNum (K * 2 ^ f.fb + sig) = (sig * 2 ^ (f.emin - f.fb + K).toNat : ℕ) := by
      rw [value]
      push_cast
      rw [← zpow_natCast, Int.toNat_of_nonneg whole]
    exact ⟨_, hj, integer.trans (congrArg _ (le_antisymm (ends.1 _ integer.ge) (ends.2 _ integer.le)))⟩

/-- FRND gives the integer that the mode rounds the number to (R144). -/
theorem Fmt.rndInt_rounds {f : Fmt} (hf : f.Sound) (mode : Rnd) {x : ℕ} (hx : (f.unpack x).finite = true) :
    (f.unpack (f.rndInt mode x)).finite = true ∧
      ∃ n : ℤ, RoundsToInt mode (f.unpack x).num n ∧ (f.unpack (f.rndInt mode x)).num = n := by
  unfold Fmt.rndInt
  cases value : f.unpack x with
  | nan | inf s => rw [value] at hx; cases hx
  | fin s m e =>
    obtain ⟨lt, num⟩ := Fmt.num_bounds value
    have rounds := roundInt_rounds mode s m e
    have among : RoundsAmong mode s (fun n => (n : ℚ)) (f.magNum (f.mag x)) (roundInt mode s m e) := by
      simpa [num, roundInt] using roundAt_among mode s m e 0
    dsimp only
    generalize roundInt mode s m e = k at *
    split
    · next zero =>
      subst zero
      have none : k = 0 := Nat.le_zero.mp ((among.within Nat.strictMono_cast).2 0 (by simp [← num]))
      rw [value]
      exact ⟨rfl, _, rounds, by simp [none, FVal.num_eq_zero.mpr]⟩
    · have signed : (((if s then -(k : ℤ) else k) : ℤ) : ℚ) = signNum s * k := by cases s <;> simp
      suffices ∃ i < f.infBits, f.round .rz false s k 0 = f.signBit s + i ∧ f.magNum i = k by
        obtain ⟨i, hi, bits, same⟩ := this
        obtain ⟨finite, number⟩ := f.unpack_sign s hi
        rw [bits]
        exact ⟨finite, _, rounds, by rw [number, same, signed]⟩
      by_cases h0 : k = 0
      · exact ⟨0, Fmt.infBits_pos hf, by simp [h0, Fmt.round], by simp [h0]⟩
      · obtain ⟨i, hi, same⟩ := Fmt.exists_mag_rounded hf lt among h0
        have ends := (Fmt.enc_among hf .rz s h0 0).within f.magNum_strictMono
        rw [zpow_zero, mul_one, ← same] at ends
        have enc : f.enc .rz s k 0 = i := le_antisymm (ends.2 i le_rfl) (ends.1 i le_rfl)
        exact ⟨i, hi, by rw [Fmt.round_eq hf _ _ _ h0, Fmt.roundMag, enc, if_neg hi.not_ge], same⟩

end Sys2Proof.Machine
end

section
/-! PROOF. The words of floating point and CVT (R132 to R151): what each gives is what its function makes of the operands. -/

namespace Sys2Proof.Machine

/-- Each element on its own: both of a packed operand, or the one of a scalar. -/
theorem perElem_eq (t : Ty) (f : ℕ → ℕ) : perElem t f = BitVec.ofNat 64 (if t.isPacked then f 0 + 2 ^ 16 * f 1 else f 0) := by
  unfold perElem
  split <;> rfl

theorem pairOk_narrow (d : Dst) : d.pairOk false = true := by cases d <;> rfl

/-- A word that writes one register gives its result. -/
theorem gives_narrow {i : Instr} {c : Ctl} {d : Dst} {g : View → DWord}
    (he : ∀ s, exec i s = alu i c (fun v => dstWrites d false (g v)) s) (hd : i.dst? = some d) : Gives i c (fun v => dstWrites d false (g v)) :=
  gives_dst he hd (fun _ => pairOk_narrow d) (fun _ => rfl)

/-- The same, element by element. -/
theorem gives_perElem {i : Instr} {c : Ctl} {t : Ty} {d : Dst} {g : View → ℕ → ℕ}
    (he : ∀ s, exec i s = alu i c (fun v => dstWrites d false (perElem t (g v))) s) (hd : i.dst? = some d) :
    Gives i c (fun v => dstWrites d false (BitVec.ofNat 64 (if t.isPacked then g v 0 + 2 ^ 16 * g v 1 else g v 0))) := by
  simp only [← perElem_eq]
  exact gives_narrow he hd

theorem gives_fclass (c : Ctl) (op : KComb) (t : Ty) (k : Fin 7) (a b : Src) : Gives (.fclass c op t k a b) c (fun v =>
    [kWrite k.val (combine op v ((v.src32 b).getLsbD ((fmtOf t).cls (v.elem t a 0))))]) := by
  refine gives_k (f := fun v => [kWrite k.val (combine op v (bitOf (v.amount b) ((fmtOf t).cls (v.elem t a 0))))])
    (fun _ => rfl) (by simp [Instr.writesRegs]) (fun v => ?_)
  rw [bitOf_eq_testBit]
  rfl

/-- A finite number is rounded once to the other format (R147). -/
theorem cvtFF_rounds {f g : Fmt} (hf : f.Sound) (r : Rnd) (sat : Bool) {x : ℕ} (hx : (g.unpack x).finite = true)
    (h0 : (g.unpack x).num ≠ 0) :
    (sat = false ∨ |(g.unpack x).num| ≤ f.big → f.Rounds r (g.unpack x).num (cvtFF g f r sat x)) ∧
      (sat = true → f.big < |(g.unpack x).num| →
        cvtFF g f r sat x = f.signBit (decide ((g.unpack x).num < 0)) + f.infBits - 1) := by
  unfold cvtFF
  cases value : g.unpack x with
  | nan | inf s => rw [value] at hx; cases hx
  | fin s m e =>
    rw [value, ne_eq, FVal.num_eq_zero] at h0
    exact Fmt.round_sat hf r sat s h0 e

/-- A finite number is rounded to an integer, and held within the limits (R148). -/
theorem cvtFI_rounds {g : Fmt} (lo hi : ℤ) (r : Rnd) {x : ℕ} (hx : (g.unpack x).finite = true) :
    ∃ n, RoundsToInt r (g.unpack x).num n ∧ cvtFI g lo hi r x = max lo (min hi n) := by
  unfold cvtFI
  cases value : g.unpack x with
  | nan | inf s => rw [value] at hx; cases hx
  | fin s m e => exact ⟨_, roundInt_rounds r s m e, rfl⟩

theorem gives_cvt (c : Ctl) (r : Rnd) (sat : Bool) (dt st : Ty) (d : Dst) (a b : Src) :
    Gives (.cvt c r sat dt st d a b) c (fun v => dstWrites d dt.wide
      (if dt.isPacked then BitVec.ofNat 64 (cvtFF fp32 (fmtOf dt) r sat (v.elem .f32 a 0) +
          2 ^ 16 * cvtFF fp32 (fmtOf dt) r sat (v.elem .f32 b 0))
       else if st.isF && dt.isF then BitVec.ofNat 64 (cvtFF (fmtOf st) (fmtOf dt) r sat (v.elem st a 0))
       else if st.isF then ofIntVal dt (cvtFI (fmtOf st) (intMin dt) (intMax dt) r (v.elem st a 0))
       else if dt.isF then BitVec.ofNat 64 (cvtIF (fmtOf dt) r sat (v.int st a))
       else ofIntVal dt (if sat then max (intMin dt) (min (v.int st a) (intMax dt)) else v.int st a))) := by
  refine gives_dst (f := fun v => dstWrites d dt.wide (cvtVal r sat dt st v a b)) (fun _ => rfl) rfl (fun wf => ?_)
    (fun v => ?_)
  · simp only [Instr.wf, Bool.and_eq_true] at wf
    tauto
  · unfold cvtVal wrapOrSat
    cases st.isF <;> cases dt.isF <;> simp [min_comm]

end Sys2Proof.Machine

namespace Sys2Proof
open Machine

/-- Settles O7: what the words give, by the meaning of each; then what FSUM, the comparisons and the step functions make of
numbers, by the lemma about rounding. -/
theorem floatResults : Obligations.FloatResults := by
  refine ⟨fun c r t d a b e => ⟨?fadd, ?fsub, ?fmul, ?ffma, ?fdot2, ?sums, ?specials, fun p q => FVal.mul_num⟩,
    fun c r t p cc op d k a b => ⟨?fmin, ?fmax, ?fcmp, gives_fclass c op t k a b, ?frcps, ?frsqs, ?fexs, ?flgs, ?fscl, ?fgex,
      ?frnd, ?steps⟩⟩
  case fadd => exact gives_perElem (g := fun v i => fsum (fmtOf t) r [v.fval t a i, v.fval t b i]) (fun _ => rfl) rfl
  case fsub => exact gives_perElem (g := fun v i => fsum (fmtOf t) r [v.fval t a i, (v.fval t b i).negate]) (fun _ => rfl) rfl
  case fmul => exact gives_perElem (g := fun v i => fsum (fmtOf t) r [(v.fval t a i).mul (v.fval t b i)]) (fun _ => rfl) rfl
  case ffma =>
    exact gives_perElem (g := fun v i => fsum (fmtOf t) r [(v.fval t a i).mul (v.fval t b i), v.fval t e i]) (fun _ => rfl) rfl
  case fdot2 => exact gives_narrow (fun _ => rfl) rfl
  case sums => exact fun f hf l hl => ⟨fsum_rounds (Fmt.sound_of_mem hf) r hl, fsum_zeros f r hl⟩
  case specials => exact fun f l => ⟨fsum_nan f r, fun n => fsum_inf f r⟩
  case fmin =>
    exact gives_perElem (g := fun v i => (fmtOf t).minmax p false (v.elem t a i) (v.elem t b i)) (fun _ => rfl) rfl
  case fmax =>
    exact gives_perElem (g := fun v i => (fmtOf t).minmax p true (v.elem t a i) (v.elem t b i)) (fun _ => rfl) rfl
  case fcmp => exact gives_k (fun _ => rfl) (by simp [Instr.writesRegs]) (fun _ => rfl)
  case frcps => exact gives_narrow (fun _ => rfl) rfl
  case frsqs => exact gives_narrow (fun _ => rfl) rfl
  case fexs => exact gives_narrow (fun _ => rfl) rfl
  case flgs => exact gives_narrow (fun _ => rfl) rfl
  case fscl =>
    exact gives_perElem (g := fun v i => (fmtOf t).scale r (v.elem t a i) (v.src32 b).toInt) (fun _ => rfl) rfl
  case fgex => exact gives_narrow (fun _ => rfl) rfl
  case frnd => exact gives_perElem (g := fun v i => (fmtOf t).rndInt r (v.elem t a i)) (fun _ => rfl) rfl
  case steps =>
    intro f hf x y _ _ X Y
    have sound := Fmt.sound_of_mem hf
    refine ⟨f.cls_spec sound x, fun hx h0 => ⟨Fmt.gex_spec hx h0, Fmt.scale_rounds sound r hx h0⟩,
      Fmt.rndInt_rounds sound r, fun hx hy => ?_⟩
    obtain ⟨lt, le, eq, ne, gt, ge⟩ := Fmt.cmp_finite hx hy
    exact ⟨lt, le, eq, ne, gt, ge, Fmt.minmax_finite hx hy p⟩

/-- Settles O8: what CVT gives, by its meaning; then each conversion of a number, by the lemmas about rounding. -/
theorem conversionResults : Obligations.ConversionResults := by
  intro c r sat dt st d a b
  refine ⟨gives_cvt c r sat dt st d a b, fun f hf v g x lo hi => ?_⟩
  have sound := Fmt.sound_of_mem hf
  intro X rounded
  refine ⟨fun hv => ?_, fun hX h0 => ?_, fun hX => ?_⟩
  · have rounds := Fmt.round_sat sound r sat (decide (v < 0)) (Int.natAbs_ne_zero.mpr hv) 0
    simp only [FVal.num_of_int, zpow_zero, mul_one] at rounds
    exact rounds
  · exact cvtFF_rounds sound r sat hX h0
  · exact cvtFI_rounds lo hi r hX

end Sys2Proof
end

section
/-! PROOF. The arithmetic of the matrix array and its drains (R55 to R60, R236): terms, their accumulation, covering codes and
quantised elements. -/

namespace Sys2Proof.Machine

/-! Terms (R59). -/

theorem finOf_num (z e : ℤ) : (finOf z e).finite = true ∧ (finOf z e).num = z * 2 ^ e := ⟨rfl, FVal.num_of_int z e⟩

/-- A scale byte's value (R55). -/
def scaleNum (e : ℕ × ℤ) : ℚ := (e.1 : ℚ) * 2 ^ e.2

theorem foldl_add_eq_sum (g : ℕ → ℤ) (l : List ℕ) (z : ℤ) : l.foldl (fun z k => z + g k) z = z + (l.map g).sum := by
  induction l generalizing z with
  | nil => simp
  | cons k l ih => rw [List.foldl_cons, ih, List.map_cons, List.sum_cons, add_assoc]

/-- The term of a block of 64 is the exact sum of products, times both scales. -/
theorem blockTerm_num (mode : MMode) (panel slot : ℕ → ℕ) (kk m n b : ℕ) :
    (blockTerm mode panel slot kk m n b).finite = true ∧ (blockTerm mode panel slot kk m n b).num =
      ((List.range 64).map (fun k => (sByte (panel (b * 4160 + m * 64 + k)) : ℚ) * weight mode slot (b * 64 + k) n)).sum *
        scaleNum (sc8 (panel (b * 4160 + 4096 + m))) * scaleNum (slotScale mode slot kk b n) / 2 ^ 7 := by
  have term : blockTerm mode panel slot kk m n b = finOf
      ((List.range 64).foldl (fun (z : ℤ) k => z + sByte (panel (b * 4160 + m * 64 + k)) * weight mode slot (b * 64 + k) n) 0 *
        (sc8 (panel (b * 4160 + 4096 + m))).1 * (slotScale mode slot kk b n).1)
      ((sc8 (panel (b * 4160 + 4096 + m))).2 + (slotScale mode slot kk b n).2 - 7) := rfl
  rw [term, foldl_add_eq_sum, zero_add]
  refine ⟨rfl, ?_⟩
  rw [(finOf_num _ _).2, scaleNum, scaleNum, zpow_sub₀ two_ne_zero, zpow_add₀ two_ne_zero]
  push_cast [Int.cast_list_sum, List.map_map, Function.comp_def]
  norm_num
  ring

/-- The term of one k with a fixed-point weight is the exact product, times the weight's scale. -/
theorem stepTerm_bfds8 {panel slot : ℕ → ℕ} {kk m n k : ℕ} (ha : (panelBf panel m k).finite = true) :
    (stepTerm .bfds8 panel slot kk m n k).finite = true ∧ (stepTerm .bfds8 panel slot kk m n k).num =
      (panelBf panel m k).num * (weight .bfds8 slot k n * scaleNum (slotScale .bfds8 slot kk (k / 64) n)) / 2 ^ 7 := by
  obtain ⟨finite, num⟩ := FVal.mul_num ha (finOf_num (weight .bfds8 slot k n * (slotScale .bfds8 slot kk (k / 64) n).1)
    ((slotScale .bfds8 slot kk (k / 64) n).2 - 7)).1
  refine ⟨finite, num.trans ?_⟩
  rw [(finOf_num _ _).2, scaleNum, zpow_sub₀ two_ne_zero]
  push_cast
  norm_num
  ring

/-! ACCADD (R60). -/

theorem accAdd_zero (c : ℕ) (n : Bool) (e : ℤ) : accAdd c (.fin n 0 e) = if fp32.isNan c then fp32.nanBits else c := rfl

theorem accAdd_of_num {c : ℕ} {t : FVal} (ht : t.finite = true → t.num ≠ 0) :
    accAdd c t = fsum fp32 .rn [fp32.unpack c, t] := by
  cases t with
  | nan | inf n => rfl
  | fin n m e =>
    cases m with
    | zero => exact absurd (FVal.num_eq_zero.mpr rfl) (ht rfl)
    | succ m => rfl

theorem unpack_of_isNan {c : ℕ} (h : fp32.isNan c = true) : fp32.unpack c = .nan :=
  (fp32.unpack_spec c).2.2 (by simpa [Fmt.isNan] using h)

/-- A NaN prevails. -/
theorem accAdd_nan {c : ℕ} {t : FVal} (h : t = .nan ∨ fp32.isNan c = true) : accAdd c t = fp32.nanBits := by
  by_cases ht : t.finite = true → t.num ≠ 0
  · rw [accAdd_of_num ht]
    refine fsum_nan _ _ (.inl ?_)
    rcases h with rfl | h
    · simp
    · simp [unpack_of_isNan h]
  · push Not at ht
    obtain ⟨finite, zero⟩ := ht
    cases t with
    | nan | inf n => cases finite
    | fin n m e =>
      obtain rfl := FVal.num_eq_zero.mp zero
      rw [accAdd_zero, if_pos (h.resolve_left nofun)]

/-- An exact zero leaves the element as it is. -/
theorem accAdd_of_num_zero {c : ℕ} {t : FVal} (hc : fp32.isNan c = false) (ht : t.finite = true) (h0 : t.num = 0) :
    accAdd c t = c := by
  cases t with
  | nan | inf n => cases ht
  | fin n m e =>
    obtain rfl := FVal.num_eq_zero.mp h0
    rw [accAdd_zero, hc]
    rfl

/-- Two numbers give their sum, rounded once to nearest; a sum of 0 is +0. -/
theorem accAdd_finite {c : ℕ} {t : FVal} (hc : (fp32.unpack c).finite = true) (ht : t.finite = true) (h0 : t.num ≠ 0) :
    ((fp32.unpack c).num + t.num ≠ 0 → fp32.Rounds .rn ((fp32.unpack c).num + t.num) (accAdd c t)) ∧
      ((fp32.unpack c).num + t.num = 0 → accAdd c t = 0) := by
  have finite : ∀ v ∈ [fp32.unpack c, t], v.finite = true := by simp [hc, ht]
  have sum : ([fp32.unpack c, t].map FVal.num).sum = (fp32.unpack c).num + t.num := by simp
  rw [accAdd_of_num fun _ => h0]
  refine ⟨fun hne => ?_, fun heq => ?_⟩
  · rw [← sum] at hne ⊢
    exact fsum_rounds fp32_sound .rn finite hne
  · have other (n : Bool) : ¬ ∀ v ∈ [fp32.unpack c, t], ∃ k, v = .fin n 0 k := fun all => by
      obtain ⟨k, rfl⟩ := all t (by simp)
      exact h0 (FVal.num_eq_zero.mpr rfl)
    exact (fsum_zeros fp32 .rn finite (sum.trans heq)).2.2 (other true) (other false)

/-- An infinity prevails over numbers, and over itself. -/
theorem accAdd_inf {c : ℕ} {t : FVal} {x : Bool} (hx : .inf x ∈ [fp32.unpack c, t])
    (others : ∀ v ∈ [fp32.unpack c, t], v = .inf x ∨ v.finite = true) (h0 : t.finite = true → t.num ≠ 0) :
    accAdd c t = fp32.signBit x + fp32.infBits := by
  rw [accAdd_of_num h0]
  refine fsum_inf _ _ (fun h => ?_) hx (fun h => ?_)
  · rcases others _ h with h | h <;> cases h
  · rcases others _ h with h | h
    · cases x <;> cases h
    · cases h

/-- Infinities of unlike sign give the default NaN. -/
theorem accAdd_unlike {c : ℕ} {t : FVal} {x : Bool} (hc : fp32.unpack c = .inf x) (ht : t = .inf (!x)) :
    accAdd c t = fp32.nanBits := by
  subst ht
  rw [accAdd_of_num (fun finite => by cases finite), hc]
  exact fsum_nan _ _ (.inr (by cases x <;> simp))

/-! Covering codes (R58). -/

theorem coverCode_spec (l : ℕ) {m : ℕ} (e : ℤ) (hm : 0 < m) :
    let covers (c : ℕ) : Prop := dyLe m e (l * (sc8 c).1) (sc8 c).2 = true
    let c := coverCode l (.fin false m e)
    (∀ k, 0 < k → k < c → ¬ covers k) ∧ (0 < c ∧ c ≤ 255) ∧ (covers c ∨ c = 255) := by
  intro covers c
  obtain ⟨m, rfl⟩ := Nat.exists_eq_add_of_le' hm
  have found : c = (((List.range 255).find? (fun k => dyLe (m + 1) e (l * (sc8 (k + 1)).1) (sc8 (k + 1)).2)).map (· + 1)).getD
      255 := by
    exact congrArg (Option.getD · 255) (List.find?_map ..)
  cases first : (List.range 255).find? (fun k => dyLe (m + 1) e (l * (sc8 (k + 1)).1) (sc8 (k + 1)).2) with
  | none =>
    have last : c = 255 := by rw [found, first]; rfl
    rw [List.find?_eq_none] at first
    refine ⟨fun k hk hlt => ?_, by omega, .inr last⟩
    obtain ⟨k, rfl⟩ := Nat.exists_eq_add_of_le' hk
    exact first k (List.mem_range.mpr (by omega))
  | some i =>
    have least : c = i + 1 := by rw [found, first]; rfl
    obtain ⟨holds, mem, before⟩ := List.find?_range_eq_some.mp first
    have := List.mem_range.mp mem
    refine ⟨fun k hk hlt => ?_, by omega, .inl (least ▸ holds)⟩
    obtain ⟨k, rfl⟩ := Nat.exists_eq_add_of_le' hk
    simpa [covers] using before k (by omega)

/-! Quantised elements (R55, R236). -/

theorem rheDiv_among (neg : Bool) (num : ℕ) {den : ℕ} (hd : 0 < den) :
    RoundsAmong .rn neg (fun n => (n : ℚ)) (num / den) (rheDiv num den) := by
  have same : rheDiv num den = num / den + natOfBool (roundUp .rn neg (num / den) (num % den) den) := by
    unfold rheDiv roundUp natOfBool
    dsimp only
    split <;> simp_all
  rw [same]
  exact div_among .rn neg num hd

/-- An element lies within its format's limit; it is 0 for a NaN and a scale of 0, and else the quotient by the scale, rounded
to nearest, or the limit. -/
theorem quantise_spec (l code v : ℕ) :
    let q := (quantise l code v).1
    let x := fp32.unpack v
    q.natAbs ≤ l ∧ (x = .nan ∨ (sc8 code).1 = 0 → quantise l code v = (0, 0)) ∧
      (x.finite = true → (sc8 code).1 ≠ 0 →
        ∃ n, RoundsToInt .rn (x.num / scaleNum (sc8 code)) n ∧ q = max (-(l : ℤ)) (min l n)) := by
  unfold quantise scaleNum
  generalize sc8 code = sc
  obtain ⟨ms, es⟩ := sc
  cases fp32.unpack v with
  | nan => exact ⟨Nat.zero_le _, fun _ => rfl, nofun⟩
  | inf s =>
    dsimp only
    refine ⟨?_, fun h => if_pos (h.resolve_left nofun), nofun⟩
    split <;> cases s <;> simp
  | fin s m e =>
    dsimp only
    refine ⟨?_, fun h => if_pos (h.resolve_left nofun), fun _ hms => ?_⟩
    · split
      · simp
      · cases s <;> simp <;> omega
    · have num := rheDiv_among s (m * 2 ^ (e - min e es).toNat) (den := ms * 2 ^ (es - min e es).toNat) (by positivity)
      have quotient : ((m * 2 ^ (e - min e es).toNat : ℕ) : ℚ) / (ms * 2 ^ (es - min e es).toNat : ℕ) =
          m * 2 ^ e / (ms * 2 ^ es) := by
        have power {x : ℤ} (h : min e es ≤ x) : (2 : ℚ) ^ (x - min e es).toNat = 2 ^ x / 2 ^ min e es := by
          rw [← zpow_natCast, Int.toNat_of_nonneg (by omega), zpow_sub₀ two_ne_zero]
        push_cast
        rw [power (min_le_left ..), power (min_le_right ..), ← mul_div_assoc, ← mul_div_assoc,
          div_div_div_cancel_right₀ (by positivity)]
      rw [if_neg hms, FVal.num_fin, mul_div_assoc]
      rw [quotient] at num
      refine ⟨_, roundsToInt_signed (by positivity) num, ?_⟩
      cases s <;> simp <;> omega

end Sys2Proof.Machine
end

section
/-! PROOF. Matrix operations start and finish (R228 to R234, R355): what an operation will leave, who passes the surge arbiter,
and what takes effect at the banks. -/

namespace Sys2Proof.Machine

/-! An operation starts (R228, R232). -/

theorem mmaBank_elem (m : MOp) (panel slot : ℕ → ℕ) (j : ℕ) {bank : List Word} {e : ℕ} (he : e < bank.length) :
    (mmaBank m panel slot bank j)[e]? = some (BitVec.ofNat 32 (mmaElem m.mode panel slot m.k
      (32 * (if m.acc.quad then j / 2 else if m.mh then 1 else 0) + e / 32)
      (32 * (if m.acc.quad then j % 2 else if m.nh then 1 else 0) + e % 32) ((bank[e]?).getD 0).toNat)) := by
  simp [mmaBank, List.getElem?_map, List.getElem?_zipIdx, List.getElem?_eq_getElem he, natOfBool]

/-- An operation's panel, as it reads it. -/
def State.panelOf (s : State) (pl : Place) (m : MOp) (i : ℕ) : ℕ := (s.clusterByte pl.team.cluster m.space (m.panel + i)).toNat

/-- An operation's slot of the weight buffer. -/
def State.slotBytes (s : State) (core : ℕ) (res : MatrixRes) (m : MOp) (i : ℕ) : ℕ :=
  ((s.wbuf core).read (res.wbuf + m.slot * 512 + i)).toNat

/-- What it will leave in its banks. -/
def State.mmaResult (s : State) (o : BankOp) (m : MOp) (pl : Place) (res : MatrixRes) : List (List Word) :=
  o.banks.zipIdx.map (fun e => mmaBank m (s.panelOf pl m) (s.slotBytes o.core res m) (s.bank o.core e.1) e.2)

theorem mmaResult_elem {s : State} {o : BankOp} {m : MOp} {pl : Place} {res : MatrixRes} {j e : ℕ} (hj : j < o.banks.length)
    (he : e < (s.bank o.core o.banks[j]).length) : ((s.mmaResult o m pl res)[j]?).bind (·[e]?) =
      some (BitVec.ofNat 32 (mmaElem m.mode (s.panelOf pl m) (s.slotBytes o.core res m) m.k
        (32 * (if m.acc.quad then j / 2 else if m.mh then 1 else 0) + e / 32)
        (32 * (if m.acc.quad then j % 2 else if m.nh then 1 else 0) + e % 32)
        (((s.bank o.core o.banks[j])[e]?).getD 0).toNat)) := by
  rw [← mmaBank_elem m _ _ j he]
  simp [State.mmaResult, hj]

theorem exec_matrixStart {s : State} {id : ℕ} {o : BankOp} {m : MOp} {pl : Place} {res : MatrixRes}
    (ho : tget s.bankOps id = some o) (hk : o.kind = .mma m) (hp : s.place o.team = some pl) (hr : pl.team.mres = some res)
    (hready : s.mmaReady id o = true) (hsurge : pl.team.surge = true) : exec (.matrixStart id) s =
      .next { s.spend pl o.core 5 m.time with
        bankOps := tset s.bankOps id { o with started := true, result := s.mmaResult o m pl res }
        wbufUses := s.wbufUses.filter (fun u => u.owner != id) } := by
  show execMatrixStart id s = _
  simp only [execMatrixStart, ho, hk, hp, hr, hready, hsurge, Bool.not_true, Bool.or_false, Bool.false_eq_true, if_false]
  rfl

/-! The surge arbiter (R355). -/

theorem foldl_min_spec {α : Type} (key : α → ℕ) (l : List α) (m : ℕ) :
    l.foldl (fun m b => Nat.min m (key b)) m ≤ m ∧ (∀ b ∈ l, l.foldl (fun m b => Nat.min m (key b)) m ≤ key b) ∧
      (l.foldl (fun m b => Nat.min m (key b)) m = m ∨ ∃ b ∈ l, l.foldl (fun m b => Nat.min m (key b)) m = key b) := by
  induction l generalizing m with
  | nil => simp
  | cons a l ih =>
    obtain ⟨le, all, attained⟩ := ih (Nat.min m (key a))
    simp only [List.foldl_cons, List.mem_cons, forall_eq_or_imp, exists_eq_or_imp]
    refine ⟨le.trans (Nat.min_le_left ..), ⟨le.trans (Nat.min_le_right ..), all⟩, ?_⟩
    rcases attained with same | other
    · rw [same]
      rcases Nat.le_total m (key a) with h | h
      · exact .inl (Nat.min_eq_left h)
      · exact .inr (.inl (Nat.min_eq_right h))
    · exact .inr (.inr other)

/-- The elements with the least key are some of the list's, unless it is empty. -/
theorem leastBy_spec {α : Type} (key : α → ℕ) (l : List α) :
    (∀ e ∈ leastBy key l, e ∈ l ∧ ∀ b ∈ l, key e ≤ key b) ∧ (leastBy key l = [] → l = []) := by
  cases l with
  | nil => simp [leastBy]
  | cons a r =>
    obtain ⟨le, all, attained⟩ := foldl_min_spec key r (key a)
    simp only [leastBy]
    generalize r.foldl (fun m b => Nat.min m (key b)) (key a) = m at *
    constructor
    · simp only [List.mem_filter, beq_iff_eq]
      rintro e ⟨mem, rfl⟩
      exact ⟨mem, List.forall_mem_cons.mpr ⟨le, all⟩⟩
    · intro none
      rw [List.filter_eq_nil_iff] at none
      rcases attained with same | ⟨b, mem, same⟩
      · exact absurd (by simp [same]) (none a (by simp))
      · exact absurd (by simp [same]) (none b (by simp [mem]))

/-- A team of a running context with an operation that would start but for the arbiter asks it in a quarter, since when and
from which core. -/
def State.asksSurge (s : State) (q team at_ home : ℕ) : Prop :=
  ∃ e ∈ s.bankOps, ∃ u, e.2.team = team ∧ s.place team = some u ∧ u.team.surge = false ∧
    ((s.slotOf u.launch).state = 1 ∨ (s.slotOf u.launch).state = 3) ∧ s.mmaReady e.1 e.2 = true ∧
    u.team.surgeAsk = some at_ ∧ u.team.home = home ∧ home / 128 * 4 + home % 128 / 64 * 2 + home % 16 / 8 = q

/-- Those who ask, and the order in which they pass. -/
def State.surgeAsks (s : State) (q : ℕ) : List (ℕ × ℕ) :=
  s.surgeTeams.filterMap (fun team =>
    match tget s.teams team with
    | some t => if quarterOf t.home = q then t.surgeAsk.map (fun a => (team, a * 512 + t.home)) else none
    | none => none)

theorem mem_surgeTeams {s : State} {team : ℕ} : team ∈ s.surgeTeams ↔ ∃ e ∈ s.bankOps, ∃ u, e.2.team = team ∧
    s.place team = some u ∧ u.team.surge = false ∧ ((s.slotOf u.launch).state = 1 ∨ (s.slotOf u.launch).state = 3) ∧
    s.mmaReady e.1 e.2 = true := by
  simp only [State.surgeTeams, List.mem_eraseDups, List.mem_filterMap]
  refine exists_congr fun e => and_congr_right fun _ => ?_
  constructor
  · intro h
    cases hp : s.place e.2.team with
    | none => simp [hp] at h
    | some u =>
      simp only [hp, Option.ite_none_right_eq_some, Option.some.injEq, Bool.and_eq_true, Bool.not_eq_true', Slot.runs,
        Bool.or_eq_true, beq_iff_eq] at h
      obtain ⟨⟨⟨surge, runs⟩, ready⟩, rfl⟩ := h
      exact ⟨u, rfl, hp, surge, runs, ready⟩
  · rintro ⟨u, rfl, hp, surge, runs, ready⟩
    simp [hp, surge, runs, ready, Slot.runs]

theorem mem_surgeAsks {s : State} {q team key : ℕ} :
    (team, key) ∈ s.surgeAsks q ↔ ∃ at_ home, s.asksSurge q team at_ home ∧ key = at_ * 512 + home := by
  simp only [State.surgeAsks, List.mem_filterMap, mem_surgeTeams]
  constructor
  · rintro ⟨k, ⟨e, he, u, rfl, hp, surge, runs, ready⟩, asked⟩
    simp only [(place_spec hp).1, Option.ite_none_right_eq_some, Option.map_eq_some_iff, Prod.mk.injEq] at asked
    obtain ⟨quarter, at_, since, rfl, rfl⟩ := asked
    exact ⟨at_, u.team.home, ⟨e, he, u, rfl, hp, surge, runs, ready, since, rfl, quarter⟩, rfl⟩
  · rintro ⟨at_, home, ⟨e, he, u, rfl, hp, surge, runs, ready, since, rfl, quarter⟩, rfl⟩
    refine ⟨e.2.team, ⟨e, he, u, rfl, hp, surge, runs, ready⟩, ?_⟩
    have here : quarterOf u.team.home = q := quarter
    simp [(place_spec hp).1, here, since]

theorem exec_surgeGrant (s : State) (q : ℕ) : exec (.surgeGrant q) s =
    match leastBy (fun e => e.2) (s.surgeAsks q) with
    | [] => .next s
    | e :: _ => .next (s.modTeam e.1 (fun t => { t with surge := true, surgeAsk := none })) := rfl

/-- Of the teams that ask, the first that asked passes, or of those the one on the lowest core; where none asks, nothing
changes. -/
theorem surgeGrant_passes (s : State) (q : ℕ) : nextWith (exec (.surgeGrant q) s) (fun t =>
    ((∀ k n c, ¬ s.asksSurge q k n c) → t = s) ∧
    ((∃ k n c, s.asksSurge q k n c) → (∀ k n c, s.asksSurge q k n c → c < 512) → ∃ k n c, s.asksSurge q k n c ∧
      (∀ k' n' c', s.asksSurge q k' n' c' → n < n' ∨ (n = n' ∧ c ≤ c')) ∧ (tget t.teams k).map (·.surge) = some true ∧
      t = { s with teams := t.teams } ∧ ∀ j, j ≠ k → tget t.teams j = tget s.teams j)) := by
  obtain ⟨least, none⟩ := leastBy_spec (fun e : ℕ × ℕ => e.2) (s.surgeAsks q)
  rw [exec_surgeGrant]
  cases chosen : leastBy (fun e : ℕ × ℕ => e.2) (s.surgeAsks q) with
  | nil =>
    refine ⟨s, rfl, fun _ => rfl, fun ⟨k, n, c, asks⟩ => ?_⟩
    have mem := mem_surgeAsks.mpr ⟨n, c, asks, rfl⟩
    rw [none chosen] at mem
    cases mem
  | cons e r =>
    obtain ⟨mem, first⟩ := least e (by simp [chosen])
    obtain ⟨n, c, asks, key⟩ := mem_surgeAsks.mp mem
    refine ⟨_, rfl, fun nobody => absurd asks (nobody _ _ _), fun _ cores => ⟨e.1, n, c, asks,
      fun k' n' c' asks' => ?_, ?_, rfl, fun j hj => tget_tmod_ne _ _ hj⟩⟩
    · have := first _ (mem_surgeAsks.mpr ⟨n', c', asks', rfl⟩)
      have := cores _ _ _ asks
      have := cores _ _ _ asks'
      omega
    · obtain ⟨d, -, u, -, hp, -⟩ := asks
      simp [State.modTeam, (place_spec hp).1]

/-! The banks (R60, R234, R237). -/

section Entries

variable {α β : Type} (g : β → ℕ) (v : β → α) (l : List β) (t : Table α) {k : ℕ}

/-- Setting entries leaves the others. -/
theorem tget_foldl_tset_ne (h : ∀ b ∈ l, k ≠ g b) : tget (l.foldl (fun t b => tset t (g b) (v b)) t) k = tget t k :=
  List.foldlRecOn l _ (motive := fun u => tget u k = tget t k) rfl
    (fun _ same b hb => (tget_tset_ne _ _ (h b hb)).trans same)

/-- An entry that is set to nothing but x holds it. -/
theorem tget_foldl_tset {x : α} (hx : ∀ b ∈ l, k = g b → v b = x) (hk : ∃ b ∈ l, k = g b) :
    tget (l.foldl (fun t b => tset t (g b) (v b)) t) k = some x := by
  induction l generalizing t with
  | nil => simp at hk
  | cons b l ih =>
    rw [List.foldl_cons]
    by_cases later : ∃ b ∈ l, k = g b
    · exact ih _ (fun c hc => hx c (List.mem_cons_of_mem _ hc)) later
    · push Not at later
      rw [tget_foldl_tset_ne g v l _ later]
      obtain ⟨c, hc, rfl⟩ := hk
      rcases List.mem_cons.mp hc with rfl | hc
      · rw [tget_tset_self, hx c (by simp) rfl]
      · exact absurd rfl (later c hc)

end Entries

/-- An operation that is done has left the queue, and each of its banks holds what it computed (R60, R232). -/
theorem matrixDone_banks {s : State} {id : ℕ} {o : BankOp} (ho : tget s.bankOps id = some o) (hs : o.started = true)
    (distinct : o.banks.Nodup) (hlen : o.result.length = o.banks.length) :
    nextWith (exec (.matrixDone id) s) (fun t => tget t.bankOps id = none ∧
      t = { s with bankOps := t.bankOps, accs := t.accs } ∧
      (∀ i (hi : i < o.banks.length), tget t.accs (o.core * 8 + o.banks[i]) = o.result[i]?) ∧
      ∀ k, (∀ b ∈ o.banks, k ≠ o.core * 8 + b) → tget t.accs k = tget s.accs k) := by
  have done : exec (.matrixDone id) s = .next { s with
      bankOps := tdel s.bankOps id
      accs := (o.banks.zip o.result).foldl (fun a e => tset a (o.core * 8 + e.1) e.2) s.accs } := by
    show execMatrixDone id s = _
    simp [execMatrixDone, ho, hs]
  refine ⟨_, done, tget_tdel_self .., rfl, fun i hi => ?_, fun k hk => ?_⟩
  · have hi' : i < o.result.length := hlen ▸ hi
    rw [List.getElem?_eq_getElem hi']
    refine tget_foldl_tset (fun e : ℕ × List Word => o.core * 8 + e.1) (fun e => e.2) _ _ ?_
      ⟨(o.banks[i], o.result[i]), ?_, rfl⟩
    · rintro ⟨b, r⟩ mem same
      obtain ⟨j, hj, at_⟩ := List.mem_iff_getElem.mp mem
      rw [List.getElem_zip, Prod.mk.injEq] at at_
      obtain ⟨rfl, rfl⟩ := at_
      have same' : o.banks[i] = o.banks[j]'(by simp at hj; omega) := Nat.add_left_cancel same
      simp only [(distinct.getElem_inj_iff).mp same']
    · exact List.mem_iff_getElem.mpr ⟨i, by simp [hi, hi'], by simp⟩
  · exact tget_foldl_tset_ne (fun e : ℕ × List Word => o.core * 8 + e.1) (fun e => e.2) _ _
      (fun e he => hk e.1 (List.of_mem_zip he).1)

/-! What takes effect in its turn (R233, R234, R237). -/

section Turn

variable {s : State} {id : ℕ} {o : BankOp} {pl : Place} (hturn : s.bankTurn id o.core o.banks = true)
  (hp : s.place o.team = some pl)
include hturn hp

theorem quickBank_azero (hk : o.kind = .azero) :
    let t := s.quickBank id o
    t = { s with bankOps := tdel s.bankOps id, accs := t.accs } ∧
      (∀ b ∈ o.banks, t.bank o.core b = List.replicate 1024 0) ∧
      ∀ k, (∀ b ∈ o.banks, k ≠ o.core * 8 + b) → tget t.accs k = tget s.accs k := by
  have zeroes : s.quickBank id o = { s with
      bankOps := tdel s.bankOps id
      accs := o.banks.foldl (fun a b => tset a (o.core * 8 + b) (List.replicate 1024 0)) s.accs } := by
    rw [State.quickBank, hturn]
    simp only [hp, hk, Bool.not_true, Bool.false_eq_true, if_false]
  rw [zeroes]
  refine ⟨rfl, fun b hb => ?_, fun k hk => tget_foldl_tset_ne (fun b => o.core * 8 + b) (fun _ => _) _ _ hk⟩
  have zero := tget_foldl_tset (fun b => o.core * 8 + b) (fun _ => List.replicate 1024 (0 : Word)) o.banks s.accs
    (k := o.core * 8 + b) (fun _ _ _ => rfl) ⟨b, hb, rfl⟩
  exact congrArg (Option.getD · _) zero

theorem quickBank_awr {b e : ℕ} {v : Word} (hk : o.kind = .awr e v) (hb : o.banks = [b]) :
    let t := s.quickBank id o
    t = { s with bankOps := tdel s.bankOps id, accs := t.accs } ∧ t.bank o.core b = (s.bank o.core b).set e v ∧
      ∀ k, k ≠ o.core * 8 + b → tget t.accs k = tget s.accs k := by
  have writes : s.quickBank id o = { s with
      bankOps := tdel s.bankOps id
      accs := tset s.accs (o.core * 8 + b) ((s.bank o.core b).set e v) } := by
    rw [State.quickBank, hturn]
    simp only [hp, hk, hb, Bool.not_true, Bool.false_eq_true, if_false]
    rfl
  rw [writes]
  exact ⟨rfl, congrArg (Option.getD · _) (tget_tset_self ..), fun k hk => tget_tset_ne _ _ hk⟩

theorem quickBank_ard {b tid e : ℕ} {dst : List Reg} (hk : o.kind = .ard (some tid) dst e) (hb : o.banks = [b]) :
    let t := s.quickBank id o
    tget t.bankOps id = none ∧ t.accs = s.accs ∧
      t.coming (.thread o.team tid) (dst.map (fun r => (r, ((s.bank o.core b)[e]?).getD 0))) := by
  have reads : s.quickBank id o = State.later { s with bankOps := tdel s.bankOps id } (.thread o.team tid)
      (dst.map (fun r => (r, ((s.bank o.core b)[e]?).getD 0))) := by
    rw [State.quickBank, hturn]
    simp only [hp, hk, hb, Bool.not_true, Bool.false_eq_true, if_false]
    rfl
  rw [reads]
  obtain ⟨-, enters⟩ := pend_spec { s with bankOps := tdel s.bankOps id } (.thread o.team tid)
    (.ready (dst.map (fun r => (r, ((s.bank o.core b)[e]?).getD 0))))
    ((dst.map (fun r => (r, ((s.bank o.core b)[e]?).getD 0))).map (·.1)) 0
  rw [State.later, enters]
  exact ⟨tget_tdel_self .., rfl, _, List.mem_append_right _ (List.mem_singleton_self _), rfl⟩

theorem quickBank_qst {d : Drain} (hk : o.kind = .qst d) (hres : s.resTurn id o d pl = true)
    (hsure : s.drainUnsure pl.launch.world id d = false) (hfree : s.drainRefused pl.launch.world d = false) :
    s.quickBank id o = s.drainBank id o d pl := by
  rw [State.quickBank, hturn]
  simp only [hp, hk, hres, hsure, hfree, Bool.not_true, Bool.or_false, Bool.false_eq_true, if_false]

end Turn

end Sys2Proof.Machine
end

section
/-! PROOF. A drain reads its banks (R236 to R240): what its lines come to, and where its tile, its residues and its counts
go. -/

namespace Sys2Proof.Machine

/-! Lines (R236). -/

section Line

variable (d : Drain) (codes : List ℕ) (banks : List (List Word)) (start : ℕ → ℕ)

/-- The element that is the j-th of line r. -/
def Drain.spot (r j : ℕ) : ℕ × ℕ := if d.axisM then (j, r) else (r, j)

/-- The code of that element's block. -/
def Drain.codeAt (r j : ℕ) : ℕ := (codes[if d.baxis then (d.spot r j).2 else (d.spot r j).1]?).getD 0

/-- The residue that line r has before its j-th element. -/
def Drain.resAt (r : ℕ) : ℕ → ℕ
  | 0 => start r
  | j + 1 => (drainElem d.fmt (d.codeAt codes r j)
      (drainVal (accElem banks (d.spot r j).1 (d.spot r j).2) d.post.toNat (Drain.resAt r j))).2

/-- The value of the element. -/
def Drain.valAt (r j : ℕ) : ℕ :=
  drainVal (accElem banks (d.spot r j).1 (d.spot r j).2) d.post.toNat (d.resAt codes banks start r j)

/-- The code that the element is written as. -/
def Drain.outAt (r j : ℕ) : ℕ := (drainElem d.fmt (d.codeAt codes r j) (d.valAt codes banks start r j)).1

theorem drainLine_cons (r j : ℕ) (js : List ℕ) (e : ℕ) :
    let v := drainVal (accElem banks (d.spot r j).1 (d.spot r j).2) d.post.toNat e
    let x := drainElem d.fmt (d.codeAt codes r j) v
    let rest := drainLine d.fmt d.baxis d.axisM codes banks d.post.toNat r js x.2
    drainLine d.fmt d.baxis d.axisM codes banks d.post.toNat r (j :: js) e = (x.1 :: rest.1, v :: rest.2.1, rest.2.2) := rfl

/-- A line's codes and values, element by element, and the residue it leaves. -/
theorem drainLine_eq (r k n : ℕ) : drainLine d.fmt d.baxis d.axisM codes banks d.post.toNat r (List.range' k n)
    (d.resAt codes banks start r k) = ((List.range' k n).map (d.outAt codes banks start r),
      (List.range' k n).map (d.valAt codes banks start r), d.resAt codes banks start r (k + n)) := by
  induction n generalizing k with
  | zero => rfl
  | succ n ih =>
    have next := ih (k + 1)
    rw [Drain.resAt] at next
    rw [List.range'_succ, drainLine_cons, next, show k + (n + 1) = k + 1 + n by omega]
    rfl

/-- What the lines of a drain come to. -/
theorem drain_lines (side : ℕ) (res : Vector Word 64)
    (hstart : start = fun r => if d.rin then ((res[r]?).getD 0).toNat else 0) :
    d.lines side codes banks res = (List.range side).map (fun r => ((List.range side).map (d.outAt codes banks start r),
      (List.range side).map (d.valAt codes banks start r), d.resAt codes banks start r side)) := by
  subst hstart
  unfold Drain.lines
  refine List.map_congr_left fun r _ => ?_
  have line := drainLine_eq d codes banks (fun r => if d.rin then ((res[r]?).getD 0).toNat else 0) r 0 side
  rw [zero_add, ← List.range_eq_range'] at line
  exact line

end Line

/-! Residues and counts (R236, R240). -/

/-- Entries set in a row, from the k-th on. -/
theorem getElem?_foldl_zipIdx {α : Type} (g : α → Word) (l : List α) (k : ℕ) (res : Vector Word 64) {r : ℕ} (hr : r < 64) :
    ((l.zipIdx k).foldl (fun v e => v.setIfInBounds e.2 (g e.1)) res)[r]? =
      if k ≤ r then ((l[r - k]?).map g).or res[r]? else res[r]? := by
  induction l generalizing k res with
  | nil => simp
  | cons a l ih =>
    rw [List.zipIdx_cons, List.foldl_cons, ih (k + 1), Vector.getElem?_setIfInBounds]
    rcases lt_trichotomy k r with before | here | after
    · have shift : r - k = r - (k + 1) + 1 := by omega
      simp only [if_pos (show k + 1 ≤ r by omega), if_pos before.le, if_neg before.ne, shift, List.getElem?_cons_succ]
    · subst here
      simp [hr]
    · simp only [if_neg (show ¬ k + 1 ≤ r by omega), if_neg after.not_ge, if_neg after.ne']

/-- The residues that lines leave, where they are written. -/
theorem drain_residues {α : Type} (f : ℕ → α × α × ℕ) (res : Vector Word 64) (out : Bool) (side : ℕ) {r : ℕ} (hr : r < 64) :
    (if out then ((List.range side).map f).zipIdx.foldl (fun v e => v.setIfInBounds e.2 (BitVec.ofNat 32 e.1.2.2)) res
      else res)[r]? = some (if out ∧ r < side then BitVec.ofNat 32 (f r).2.2 else (res[r]?).getD 0) := by
  have old : res[r]? = some ((res[r]?).getD 0) := by simp [hr]
  cases out with
  | false => simpa using old
  | true =>
    rw [if_pos rfl, getElem?_foldl_zipIdx (fun l : α × α × ℕ => BitVec.ofNat 32 l.2.2) _ 0 res hr, if_pos (Nat.zero_le r),
      Nat.sub_zero, List.getElem?_map]
    rcases Nat.lt_or_ge r side with inside | outside
    · simp [inside]
    · simp [outside.not_gt, hr]

/-- A drain changes its team's residues, if it writes them, and the counts of a histogram slot, if it has one. -/
def State.drainTeam (s : State) (o : BankOp) (d : Drain) (lines : List (List ℕ × List ℕ × ℕ)) : State :=
  let s := if d.rout then s.modTeam o.team (fun t => { t with
      res := lines.zipIdx.foldl (fun v e => v.setIfInBounds e.2 (BitVec.ofNat 32 e.1.2.2)) t.res }) else s
  if d.hslot = 0 then s else s.modHist o.team (d.hslot - 1) (fun h => (lines.flatMap (fun l => l.2.1)).foldl HistSlot.add h)

section Team

variable (s : State) (o : BankOp) (d : Drain) (lines : List (List ℕ × List ℕ × ℕ))

theorem drainTeam_rest : s.drainTeam o d lines = { s with teams := (s.drainTeam o d lines).teams } := by
  unfold State.drainTeam
  dsimp only
  split <;> split <;> rfl

variable {s o} {t : Team} (ht : tget s.teams o.team = some t)
include ht

/-- The team as the drain's residues leave it. -/
theorem drainTeam_team : ∃ u, tget (s.drainTeam o d lines).teams o.team = some u ∧
    u.res = (if d.rout then lines.zipIdx.foldl (fun v e => v.setIfInBounds e.2 (BitVec.ofNat 32 e.1.2.2)) t.res else t.res) ∧
    ∀ x, d.hslot ≠ 0 → t.hist[d.hslot - 1]? = some x →
      u.hist[d.hslot - 1]? = some ((lines.flatMap (fun l => l.2.1)).foldl HistSlot.add x) := by
  let r : Vector Word 64 :=
    if d.rout then lines.zipIdx.foldl (fun v e => v.setIfInBounds e.2 (BitVec.ofNat 32 e.1.2.2)) t.res else t.res
  let m : State := if d.rout then s.modTeam o.team (fun t => { t with
    res := lines.zipIdx.foldl (fun v e => v.setIfInBounds e.2 (BitVec.ofNat 32 e.1.2.2)) t.res }) else s
  have residues : tget m.teams o.team = some { t with res := r } := by
    simp only [m, r]
    split <;> simp [State.modTeam, ht]
  have counts : s.drainTeam o d lines = if d.hslot = 0 then m
    else m.modHist o.team (d.hslot - 1) (fun h => (lines.flatMap (fun l => l.2.1)).foldl HistSlot.add h) := rfl
  rw [counts]
  by_cases hslot : d.hslot = 0
  · exact ⟨_, by rw [if_pos hslot, residues], rfl, fun x h => absurd hslot h⟩
  · rw [if_neg hslot]
    simp only [State.modHist, State.modTeam, tget_tmod_self, residues, Option.map_some]
    refine ⟨_, rfl, ?_, fun x _ hx => ?_⟩
    · split <;> rfl
    · obtain ⟨inside, rfl⟩ := Vector.getElem?_eq_some_iff.mp hx
      simp [inside]

end Team

/-- A drain's tile, as it is still to be written (R237). -/
def State.drainTile (s : State) (o : BankOp) (d : Drain) (p : Place) (side : ℕ) (codes : List ℕ)
    (lines : List (List ℕ × List ℕ × ℕ)) : TileWrite :=
  ⟨o.team, o.core, o.off, d, d.runs { s.readRec p.launch.world d.record with
    base := d.base, spbase := d.spbase, febase := d.febase, cols := d.cols, baxis := d.baxis } side codes lines, 0⟩

theorem drainBank_eq (s : State) (id : ℕ) (o : BankOp) (d : Drain) (p : Place) :
    let banks := o.banks.map (fun b => s.bank o.core b)
    let side := if o.banks.length = 1 then 32 else 64
    let codes := drainCodes d.fmt d.blk d.code.toNat d.baxis banks d.post.toNat
    let lines := d.lines side codes banks p.team.res
    s.drainBank id o d p = { (s.drainTeam o d lines).spend p o.core 6 ((if d.blk then 2 * side else side) + 16) with
      bankOps := tdel s.bankOps id
      drains := s.drains ++ [(id, s.drainTile o d p side codes lines)] } := by
  intro banks side codes lines
  have rest := drainTeam_rest s o d lines
  have bankOps : (s.drainTeam o d lines).bankOps = s.bankOps := by rw [rest]
  have drains : (s.drainTeam o d lines).drains = s.drains := by rw [rest]
  rw [← bankOps, ← drains]
  rfl

/-! What a drain leaves (R236, R237). -/

/-- The scale bytes of a tile by its column blocks, or by its row blocks (R210). -/
theorem drain_scaleRuns (d : Drain) {r : TRec} (side : ℕ) (codes : List ℕ) (lines : List (List ℕ × List ℕ × ℕ))
    (hspbase : r.spbase = d.spbase) (hcols : r.cols = d.cols) (hbaxis : r.baxis = d.baxis) (hf : d.fmt = .bx8 ∨ d.fmt = .bx4) :
    let n := d.cols / 64
    let runs := d.runs r side codes lines
    (d.baxis = true → (d.spbase + d.tile / n * d.cols + d.tile % n * 64, codes.map (BitVec.ofNat 8)) ∈ runs) ∧
      (d.baxis = false → ∀ m < 64,
        (d.spbase + (d.tile / n * 64 + m) * n + d.tile % n, [BitVec.ofNat 8 (codes.getD m 0)]) ∈ runs) := by
  intro n runs
  have planes : runs.tail =
      if d.baxis then (r.planeRuns d.tile).map (fun e => (e.1, codes.map (BitVec.ofNat 8)))
      else (r.planeRuns d.tile).zipIdx.map (fun e => (e.1.1, [(codes.map (BitVec.ofNat 8)).getD e.2 0])) := by
    simp only [runs, Drain.runs, if_pos hf, List.tail_cons]
  refine ⟨fun hb => List.mem_of_mem_tail ?_, fun hb m hm => List.mem_of_mem_tail ?_⟩
  · rw [planes, if_pos hb]
    simp [TRec.planeRuns, hb, hbaxis, hspbase, hcols, n]
  · simp only [planes, TRec.planeRuns, hb, hbaxis, hspbase, hcols, Bool.false_eq_true, if_false, List.mem_map]
    refine ⟨((d.spbase + (d.tile / n * 64 + m) * n + d.tile % n, 1), m), ?_, ?_⟩
    · exact List.mem_iff_getElem?.mpr ⟨m, by simp [hm, n]⟩
    · cases h : codes[m]? <;> simp [h]

/-- The lines of a drain that takes effect now. -/
def State.linesOf (s : State) (o : BankOp) (d : Drain) (p : Place) (side : ℕ) : List (List ℕ × List ℕ × ℕ) :=
  let banks := o.banks.map (s.bank o.core ·)
  d.lines side (drainCodes d.fmt d.blk d.code.toNat d.baxis banks d.post.toNat) banks p.team.res

/-- A drain that takes effect has left the queue, with its tile still to be written, and its banks and memory are as they were;
its team has the residues and the counts of its lines. -/
theorem drainBank_spec {s : State} (id : ℕ) {o : BankOp} {p : Place} (d : Drain) (hp : s.place o.team = some p) :
    let t := s.drainBank id o d p
    let side : ℕ := if o.banks.length = 1 then 32 else 64
    let codes := drainCodes d.fmt d.blk d.code.toNat d.baxis (o.banks.map (s.bank o.core ·)) d.post.toNat
    tget t.bankOps id = none ∧ t.accs = s.accs ∧ t.hbm = s.hbm ∧
      t.drains = s.drains ++ [(id, s.drainTile o d p side codes (s.linesOf o d p side))] ∧
      ∃ u, tget t.teams o.team = some u ∧
        u.res = (if d.rout then (s.linesOf o d p side).zipIdx.foldl
          (fun v e => v.setIfInBounds e.2 (BitVec.ofNat 32 e.1.2.2)) p.team.res else p.team.res) ∧
        ∀ x, d.hslot ≠ 0 → p.team.hist[d.hslot - 1]? = some x →
          u.hist[d.hslot - 1]? = some (((s.linesOf o d p side).flatMap (fun l => l.2.1)).foldl HistSlot.add x) := by
  intro t side codes
  have comes : t = _ := drainBank_eq s id o d p
  have rest := drainTeam_rest s o d (s.linesOf o d p side)
  obtain ⟨u, team, others⟩ := drainTeam_team d (s.linesOf o d p side) (place_spec hp).1
  rw [comes]
  exact ⟨tget_tdel_self .., (congrArg State.accs rest :), (congrArg State.hbm rest :), rfl, u, team, others⟩

end Sys2Proof.Machine
end

section
/-! PROOF. A drain's tile is written (R212, R237): its bytes come to lie in device memory, and F and W of the tile are 1. -/

namespace Sys2Proof.Machine

/-! What a placement by an engine leaves alone. -/

theorem homeWrite_dev (s : State) (p : Place) (a : ℕ) (b : Byte) : s.homeWrite p .dev a b [] =
    (s.devWrite p.launch.world a b).placedBy p.launch.world p.team.cluster a := rfl

namespace PlacesOnly

theorem devWrite (s : State) (w a : ℕ) (b : Byte) : PlacesOnly s (s.devWrite w a b) := by
  unfold State.devWrite
  split
  · rfl
  · exact devPokes s w a [b]

theorem placedBy (s : State) (w cluster a : ℕ) : PlacesOnly s (s.placedBy w cluster a) := rfl

theorem homeWrites_dev (s : State) (p : Place) (a : ℕ) (l : List Byte) : PlacesOnly s (s.homeWrites p .dev [] a l) := by
  induction l generalizing s a with
  | nil => rfl
  | cons b l ih =>
    rw [State.homeWrites, homeWrite_dev]
    exact ((devWrite ..).trans (placedBy ..)).trans (ih ..)

theorem setTileBit (s : State) (w febase i : ℕ) (v : Bool) : PlacesOnly s (s.setTileBit w febase i v) := by
  unfold State.setTileBit
  exact devPokes s w _ [_]

theorem setMark (s : State) (w cluster : ℕ) (m : TileMark) : PlacesOnly s (s.setMark w cluster m) :=
  ((setTileBit ..).trans (setTileBit ..)).trans (placedBy ..)

end PlacesOnly

/-! A drain is done (R237). -/

/-- The state in which a drain's tile is about to be written: it has left the unit, and waits no more. -/
def State.drainLeaves (s : State) (id w : ℕ) : State := State.wrote { s with drains := tdel s.drains id } w (.drain id)

/-- Its tile and its scale bytes are written, and then the tile's state. -/
def State.drainWrites (s : State) (d : TileWrite) (p : Place) : State :=
  (d.runs.foldl (fun s e => s.homeWrites p .dev [] e.1 e.2) s).setMark p.launch.world p.team.cluster
    ⟨d.drain.febase, d.drain.tile, []⟩

theorem exec_drainComplete {s : State} {id : ℕ} {d : TileWrite} {pl : Place} (hd : tget s.drains id = some d)
    (hp : s.place d.team = some pl) (hclaims : ∀ n ∈ d.drain.claims, s.claimedBy pl.launch.world n id true = false)
    (hmay : ∀ e ∈ d.ranges, s.mayWrite pl.launch.world (.drain id) e.1 e.2 d.drain.record = true)
    (hfree : s.drainRefused pl.launch.world d.drain = false) (hrate : (s.slotOf pl.launch).rate = 0) :
    exec (.drainComplete id) s = .next ((s.drainLeaves id pl.launch.world).drainWrites d pl) := by
  have claims : d.drain.claims.any (fun t => s.claimedBy pl.launch.world t id true) = false := by
    simpa using hclaims
  have may : d.ranges.any (fun e => !s.mayWrite pl.launch.world (.drain id) e.1 e.2 d.drain.record) = false := by
    simpa using hmay
  show execDrainComplete id s = _
  simp only [execDrainComplete, hd, hp, claims, may, hfree, gatherTokens_unlimited hrate, Bool.false_eq_true, if_false,
    ne_eq, not_true_eq_false]
  rfl

theorem drainLeaves_rest (s : State) (id w : ℕ) :
    s.drainLeaves id w = { s with drains := tdel s.drains id, worlds := (s.drainLeaves id w).worlds } := by
  unfold State.drainLeaves State.wrote
  split <;> rfl

theorem drainWrites_places (s : State) (d : TileWrite) (p : Place) : PlacesOnly s (s.drainWrites d p) :=
  (PlacesOnly.foldl (fun _ _ => PlacesOnly.homeWrites_dev ..) d.runs s).trans (PlacesOnly.setMark ..)

/-! Bytes that come to lie in the clear. -/

/-- The bytes of a run of device memory, each with its address. -/
def runCells (e : ℕ × List Byte) : List (ℕ × Byte) := (List.range e.2.length).map (fun i => (e.1 + i, e.2.getD i 0))

theorem runCells_cons (a : ℕ) (b : Byte) (l : List Byte) : runCells (a, b :: l) = (a, b) :: runCells (a + 1, l) := by
  simp only [runCells, List.length_cons, List.range_succ_eq_map, List.map_cons, List.map_map]
  refine congrArg _ (List.map_congr_left fun i _ => ?_)
  simp [Nat.add_left_comm, Nat.add_comm]

theorem homeWrites_eq_foldl (s : State) (p : Place) (a : ℕ) (l : List Byte) : s.homeWrites p .dev [] a l =
    (runCells (a, l)).foldl (fun s c => s.homeWrite p .dev c.1 c.2 []) s := by
  induction l generalizing s a with
  | nil => rfl
  | cons b l ih => rw [runCells_cons, State.homeWrites, ih, List.foldl_cons]

/-- A byte is written where its address lies, if it does. -/
def Mem.put (f : ℕ → Option ℕ) (m : Mem) (c : ℕ × Byte) : Mem :=
  match f c.1 with
  | some x => m.write x c.2
  | none => m

section Put

variable {f : ℕ → Option ℕ} {cells : List (ℕ × Byte)}

theorem read_puts_outside {m : Mem} {x : ℕ} (h : ∀ c ∈ cells, f c.1 ≠ some x) :
    (cells.foldl (Mem.put f) m).read x = m.read x := by
  refine List.foldlRecOn cells _ (motive := fun u => Mem.read u x = m.read x) rfl (fun u same c hc => ?_)
  rw [← same, Mem.put]
  split
  · next y hy => exact Mem.read_write_ne _ fun eq => h c hc (eq ▸ hy)
  · rfl

/-- Bytes that lie apart all lie there afterwards. -/
theorem read_puts {m : Mem} {c : ℕ × Byte} {x : ℕ} (apart : (cells.map (fun c => f c.1)).Nodup) (hc : c ∈ cells)
    (hx : f c.1 = some x) : (cells.foldl (Mem.put f) m).read x = c.2 := by
  induction cells generalizing m with
  | nil => cases hc
  | cons d cells ih =>
    rw [List.map_cons, List.nodup_cons] at apart
    obtain ⟨first, apart⟩ := apart
    rw [List.foldl_cons]
    rcases List.mem_cons.mp hc with rfl | hc
    · rw [read_puts_outside fun e he same => first (List.mem_map.mpr ⟨e, he, same.trans hx.symm⟩), Mem.put, hx,
        Mem.read_write_self]
    · exact ih apart hc

end Put

/-- Where a byte that a device agent writes at an address of world w comes to lie: a read-only one nowhere. -/
def State.laysAt (s : State) (w a : ℕ) : Option ℕ := if s.readOnly w a then none else s.devAddr w a

/-- An engine's placement in clear memory writes its byte, and asks lines back that the host may hold (R385). -/
theorem homeWrite_clear {s : State} {p : Place} (hu : s.unsealed p.launch.world) (hc : s.windowsClosed p.launch.world)
    (c : ℕ × Byte) : ∃ l o, s.homeWrite p .dev c.1 c.2 [] =
      { s with hbm := Mem.put (s.laysAt p.launch.world) s.hbm c, shared := l, outbox := o } := by
  rw [homeWrite_dev, State.devWrite, Mem.put, State.laysAt]
  cases s.readOnly p.launch.world c.1 with
  | true => exact ⟨_, _, rfl⟩
  | false =>
    simp only [Bool.false_eq_true, if_false]
    cases lies : s.devAddr p.launch.world c.1 with
    | some x =>
      obtain ⟨l, o, poke⟩ := devPoke_clear hu hc lies c.2
      rw [poke]
      exact ⟨_, _, rfl⟩
    | none =>
      have raw : s.devRaw p.launch.world c.1 c.2 = s := by simp [State.devRaw, State.devPut, lies]
      rw [State.devPoke, histCopy_closed hc, State.devLay, raw]
      dsimp only
      split <;> exact ⟨_, _, rfl⟩

theorem homeWrites_clear {s : State} {p : Place} (hu : s.unsealed p.launch.world) (hc : s.windowsClosed p.launch.world)
    (cells : List (ℕ × Byte)) : ∃ l o, cells.foldl (fun s c => s.homeWrite p .dev c.1 c.2 []) s =
      { s with hbm := cells.foldl (Mem.put (s.laysAt p.launch.world)) s.hbm, shared := l, outbox := o } := by
  induction cells generalizing s with
  | nil => exact ⟨_, _, rfl⟩
  | cons c cells ih =>
    obtain ⟨l, o, one⟩ := homeWrite_clear hu hc c
    rw [List.foldl_cons, List.foldl_cons, one]
    exact ih (s := { s with hbm := Mem.put (s.laysAt p.launch.world) s.hbm c, shared := l, outbox := o }) hu hc

/-! Tile state (R211). -/

/-- A byte with a bit set. -/
def setBit (b : Byte) (k : ℕ) : Byte := BitVec.ofNat 8 (b.toNat ||| 2 ^ k)

theorem bitOf_setBit (b : Byte) {k j : ℕ} (hj : j < 8) : bitOf (setBit b k).toNat j = (bitOf b.toNat j || decide (k = j)) := by
  simp only [bitOf_eq_testBit, setBit, BitVec.toNat_ofNat, Nat.testBit_mod_two_pow, hj, decide_true, Bool.true_and,
    Nat.testBit_or, Nat.testBit_two_pow]

theorem setTileBit_clear {s : State} {w febase i x : ℕ} (hu : s.unsealed w) (hc : s.windowsClosed w)
    (hx : s.devAddr w (febase + i / 8) = some x) : ∃ l o, s.setTileBit w febase i true =
      { s with hbm := s.hbm.write x (setBit (s.hbm.read x) (i % 8)), shared := l, outbox := o } := by
  unfold State.setTileBit
  rw [devByte_unsealed hu hx]
  exact devPoke_clear hu hc hx _

/-- A tile's mark sets both bits of its byte of tile state, and no other byte of HBM changes. -/
theorem setMark_clear {s : State} {w : ℕ} {m : TileMark} {x : ℕ} (hu : s.unsealed w) (hc : s.windowsClosed w)
    (hx : s.devAddr w (m.febase + m.tile / 4) = some x) (cluster : ℕ) : ∃ h l o, s.setMark w cluster m =
      { s with hbm := h, shared := l, outbox := o } ∧
      h.read x = setBit (setBit (s.hbm.read x) (2 * m.tile % 8)) ((2 * m.tile + 1) % 8) ∧
      ∀ y, y ≠ x → h.read y = s.hbm.read y := by
  have place : 2 * m.tile / 8 = m.tile / 4 ∧ (2 * m.tile + 1) / 8 = m.tile / 4 := by omega
  obtain ⟨l, o, first⟩ := setTileBit_clear (i := 2 * m.tile) hu hc (by rwa [place.1])
  let t : State := { s with hbm := s.hbm.write x (setBit (s.hbm.read x) (2 * m.tile % 8)), shared := l, outbox := o }
  obtain ⟨l', o', second⟩ := setTileBit_clear (s := t) (i := 2 * m.tile + 1) hu hc (show s.devAddr w _ = _ by rwa [place.2])
  rw [State.setMark, first, second]
  exact ⟨_, _, _, rfl, by simp [t], fun y hy => by simp [t, Mem.read_write_ne _ hy]⟩

/-! A drain's tile in the clear. -/

theorem drainLeaves_world (s : State) (id w : ℕ) : ((s.drainLeaves id w).world w).windows = (s.world w).windows ∧
    ((s.drainLeaves id w).world w).devtab = (s.world w).devtab ∧ ((s.drainLeaves id w).world w).key = (s.world w).key := by
  unfold State.drainLeaves State.wrote
  split
  · simp only [State.world_setWorld]
    exact ⟨rfl, rfl, rfl⟩
  · exact ⟨rfl, rfl, rfl⟩

theorem drainLeaves_devAddr (s : State) (id w a : ℕ) : (s.drainLeaves id w).devAddr w a = s.devAddr w a := by
  rw [State.devAddr, (drainLeaves_world s id w).2.1, drainLeaves_rest]
  rfl

theorem drainLeaves_clear {s : State} {id w : ℕ} (hu : s.unsealed w) (hc : s.windowsClosed w) :
    (s.drainLeaves id w).unsealed w ∧ (s.drainLeaves id w).windowsClosed w := by
  obtain ⟨windows, -, key⟩ := drainLeaves_world s id w
  refine ⟨⟨key.trans hu.1, ?_⟩, fun i => ?_⟩
  · rw [drainLeaves_rest]
    exact hu.2
  · rw [windows]
    exact hc i

/-- Where the bytes of a drain's tile and its scale bytes lie. -/
def TileWrite.places (d : TileWrite) (s : State) (w : ℕ) : List (Option ℕ) :=
  d.runs.flatMap (fun e => (List.range e.2.length).map (fun i => s.devAddr w (e.1 + i)))

/-- Its bytes one by one, with their addresses. -/
def TileWrite.cells (d : TileWrite) : List (ℕ × Byte) := d.runs.flatMap runCells

section Writes

variable {s : State} {d : TileWrite} {p : Place} {x : ℕ} (hu : s.unsealed p.launch.world) (hc : s.windowsClosed p.launch.world)
  (hx : s.devAddr p.launch.world (d.drain.febase + d.drain.tile / 4) = some x)
include hu hc hx

/-- Where memory is clear, the bytes are put where they lie one by one, and then both bits of the tile's state are set. -/
theorem drainWrites_clear : ∃ h l o, s.drainWrites d p = { s with hbm := h, shared := l, outbox := o } ∧
    (∃ b, h.read x = setBit (setBit b (2 * d.drain.tile % 8)) ((2 * d.drain.tile + 1) % 8)) ∧
      ∀ y, y ≠ x → h.read y = (d.cells.foldl (Mem.put (s.laysAt p.launch.world)) s.hbm).read y := by
  have flat : d.runs.foldl (fun s e => s.homeWrites p .dev [] e.1 e.2) s =
      d.cells.foldl (fun s c => s.homeWrite p .dev c.1 c.2 []) s := by
    rw [TileWrite.cells, List.foldl_flatMap]
    exact congrArg (fun f => d.runs.foldl f s) (funext fun s => funext fun e => homeWrites_eq_foldl ..)
  obtain ⟨l, o, writes⟩ := homeWrites_clear hu hc d.cells
  obtain ⟨h, l', o', marks, bits, others⟩ := setMark_clear (m := ⟨d.drain.febase, d.drain.tile, []⟩)
    (s := { s with hbm := d.cells.foldl (Mem.put (s.laysAt p.launch.world)) s.hbm, shared := l, outbox := o })
    hu hc hx p.team.cluster
  rw [State.drainWrites, flat, writes, marks]
  exact ⟨h, l', o', rfl, ⟨_, bits⟩, others⟩

/-- F and W of the tile are 1. -/
theorem drainWrites_marks {k : ℕ} (hk : k < 2) :
    (s.drainWrites d p).tileBit p.launch.world d.drain.febase (2 * d.drain.tile + k) = true := by
  obtain ⟨h, l, o, comes, ⟨b, bits⟩, -⟩ := drainWrites_clear hu hc hx
  have byte := devByte_unsealed (s := { s with hbm := h, shared := l, outbox := o }) hu hx
  rw [comes, State.tileBit, show (2 * d.drain.tile + k) / 8 = d.drain.tile / 4 by omega, byte, bits,
    bitOf_setBit _ (by omega), bitOf_setBit _ (by omega)]
  rcases (show k = 0 ∨ k = 1 by omega) with rfl | rfl <;> simp

/-- Bytes that lie apart, and in no read-only page, are there. -/
theorem drainWrites_bytes (apart : (d.places s p.launch.world ++ [some x]).Nodup)
    (mapped : ∀ a ∈ d.places s p.launch.world, a.isSome = true)
    (free : ∀ e ∈ d.runs, ∀ i < e.2.length, s.readOnly p.launch.world (e.1 + i) = false) {e : ℕ × List Byte} (he : e ∈ d.runs)
    {i : ℕ} (hi : i < e.2.length) : (s.drainWrites d p).devByte p.launch.world (e.1 + i) = e.2[i] := by
  obtain ⟨h, l, o, comes, -, others⟩ := drainWrites_clear hu hc hx
  obtain ⟨apart, -, tile⟩ := List.nodup_append.mp apart
  have lies : d.cells.map (fun c => s.laysAt p.launch.world c.1) = d.places s p.launch.world := by
    rw [TileWrite.cells, List.map_flatMap]
    refine List.flatMap_congr fun e he => ?_
    rw [runCells, List.map_map]
    refine List.map_congr_left fun i hi => ?_
    simp [State.laysAt, free e he i (List.mem_range.mp hi)]
  have mem : s.devAddr p.launch.world (e.1 + i) ∈ d.places s p.launch.world :=
    List.mem_flatMap.mpr ⟨e, he, List.mem_map.mpr ⟨i, List.mem_range.mpr hi, rfl⟩⟩
  have cell : (e.1 + i, e.2[i]) ∈ d.cells :=
    List.mem_flatMap.mpr ⟨e, he, List.mem_map.mpr ⟨i, List.mem_range.mpr hi, by simp [hi]⟩⟩
  obtain ⟨y, hy⟩ := Option.isSome_iff_exists.mp (mapped _ mem)
  have ne : y ≠ x := by
    rintro rfl
    exact tile _ mem _ (List.mem_singleton_self _) hy
  have byte := devByte_unsealed (s := { s with hbm := h, shared := l, outbox := o }) hu hy
  rw [comes, byte, others y ne]
  exact read_puts (lies ▸ apart) cell (by simp [State.laysAt, free e he i hi, hy])

end Writes

/-- No bank, no register and no byte of host memory has changed, and the drain has left the unit. -/
theorem drainLeaves_writes_rest (s : State) (id : ℕ) (d : TileWrite) (p : Place) :
    let t := (s.drainLeaves id p.launch.world).drainWrites d p
    tget t.drains id = none ∧ t.hostMem = s.hostMem ∧ t.accs = s.accs ∧ ∀ a, t.view a = s.view a := by
  intro t
  have leaves := drainLeaves_rest s id p.launch.world
  have writes : PlacesOnly _ t := drainWrites_places (s.drainLeaves id p.launch.world) d p
  refine ⟨?_, writes.hostMem.trans (by rw [leaves]), ?_, fun a => ?_⟩
  · rw [writes, leaves]
    exact tget_tdel_self ..
  · rw [writes, leaves]
  · exact view_congr (writes.threads.trans (by rw [leaves])) (writes.teams.trans (by rw [leaves])) a

end Sys2Proof.Machine
end

section
/-! PROOF. The clauses of matrix operations (R55 to R60, R232 to R237, R355), put together. -/

namespace Sys2Proof
open Machine

/-- Settles O31: each operation and event by the lemma that says what it comes to, and each clause of the arithmetic by its
own. -/
theorem matrixOperationsRun : Obligations.MatrixOperationsRun := by
  refine ⟨fun s id q o m pl res => ⟨fun ho hk hp hr hready hsurge => ?starts, surgeGrant_passes s q⟩,
    fun panel slot kk m n c => ⟨fun mode hmode => ?blocks, ?steps, ?accumulates⟩, ?banks,
    fun s id o ho hs distinct hlen _ => matrixDone_banks ho hs distinct hlen, ?drains, fun l m e => coverCode_spec l e,
    quantise_spec⟩
  case starts =>
    exact ⟨_, exec_matrixStart ho hk hp hr hready hsurge, fun _ => rfl, rfl, rfl, rfl, _, tget_tset_self .., rfl, rfl, rfl,
      by simp [State.mmaResult], fun j hj e he hlen => mmaResult_elem hj (he.trans_eq hlen.symm)⟩
  case blocks =>
    refine ⟨blockTerm mode panel slot kk m n, fun b => ?_, ?_⟩
    · have term := blockTerm_num mode panel slot kk m n b
      rcases hmode with rfl | rfl <;> exact term
    · rcases hmode with rfl | rfl <;> rfl
  case steps =>
    intro av mode hmode
    refine ⟨stepTerm mode panel slot kk m n, fun k finite => ⟨?_, ?_⟩, ?_⟩
    · rintro rfl
      exact stepTerm_bfds8 finite
    · rintro rfl w hw
      exact FVal.mul_num finite hw
    · rcases hmode with rfl | rfl <;> rfl
  case accumulates =>
    intro t C
    refine ⟨accAdd_nan, accAdd_of_num_zero, accAdd_finite, fun x => accAdd_unlike, fun x hC ht => ?_, fun x hC ht => ?_⟩
    · have others : t = .inf x ∨ t.finite = true := ht.symm.imp_right And.left
      have number : t.finite = true → t.num ≠ 0 := fun finite => ht.elim And.right (by rintro rfl; cases finite)
      exact accAdd_inf (by simp [C] at hC; simp [hC]) (by simpa [C, hC] using others) number
    · subst ht
      exact accAdd_inf (by simp) (by simp [C] at hC; simp [hC]) (fun finite => by cases finite)
  case banks =>
    intro s id o pl t _ hturn hp
    refine ⟨quickBank_azero hturn hp, fun b e v => quickBank_awr hturn hp, fun b tid dst e => quickBank_ard hturn hp,
      ?_⟩
    intro d hk hres hsure hfree banks D codes
    have comes : t = s.drainBank id o d pl := quickBank_qst hturn hp hk hres hsure hfree
    obtain ⟨gone, accs, hbm, drains, u, team, res, hist⟩ := drainBank_spec id d hp
    let start (r : ℕ) : ℕ := if d.rin then ((pl.team.res[r]?).getD 0).toNat else 0
    let out (r j : ℕ) : ℕ := (((s.linesOf o d pl D).getD r ([], [], 0)).1).getD j 0
    have lines : s.linesOf o d pl D = _ := drain_lines d codes banks start D pl.team.res rfl
    have code {r j : ℕ} (hr : r < D) (hj : j < D) : out r j = d.outAt codes banks start r j := by simp [out, lines, hr, hj]
    rw [comes, team]
    refine ⟨gone, accs, hbm, d.valAt codes banks start, out, d.resAt codes banks start, _, drains, rfl, rfl,
      fun r hr => ⟨rfl, fun j hj => ⟨rfl, by rw [code hr hj]; rfl⟩⟩, ⟨_, rfl, rfl⟩, drain_scaleRuns d D codes _ rfl rfl rfl,
      fun r hr => ?_, fun x hslot hx => ?_⟩
    · rw [Option.bind_some, res, lines]
      exact drain_residues _ _ d.rout D hr
    · rw [Option.bind_some, hist x hslot hx, lines, List.flatMap_map]
  case drains =>
    intro s id d pl w bit hd hp hclaims hmay hfree hrate
    obtain ⟨gone, hostMem, accs, view⟩ := drainLeaves_writes_rest s id d pl
    refine ⟨_, exec_drainComplete hd hp hclaims hmay hfree hrate, gone, hostMem, accs, view, fun hc hu hx => ?_⟩
    obtain ⟨x, hx⟩ := Option.isSome_iff_exists.mp hx
    obtain ⟨hu', hc'⟩ := drainLeaves_clear (id := id) (w := pl.launch.world) hu hc
    have hx' := (drainLeaves_devAddr s id pl.launch.world _).trans hx
    refine ⟨drainWrites_marks hu' hc' hx' two_pos, drainWrites_marks hu' hc' hx' one_lt_two, ?_⟩
    intro places apart mapped free e he i hi
    have same : d.places (s.drainLeaves id pl.launch.world) pl.launch.world = d.places s pl.launch.world := by
      simp only [TileWrite.places, drainLeaves_devAddr]
    have readOnly (a : ℕ) := readOnly_congr (congrArg State.images (drainLeaves_rest s id pl.launch.world)) pl.launch.world a
    refine drainWrites_bytes hu' hc' hx' ?_ ?_ (fun e he i hi => (readOnly _).trans (free e he i hi)) he hi
    · rw [same, ← hx]
      exact apart
    · rw [same]
      exact mapped

end Sys2Proof
end

section
/-! PROOF. Integer arithmetic (R112 to R115): what each value function comes to, and the words that give it. -/

namespace Sys2Proof

/-! Widths. -/

theorem Ty.width_pos (t : Ty) : 0 < t.width := by cases t <;> decide

theorem Ty.two_pow_width (t : Ty) : 2 ^ t.width = 2 * 2 ^ (t.width - 1) := by
  rw [← pow_succ', Nat.sub_add_cancel t.width_pos]

theorem Ty.width_of_isInt3264 {t : Ty} : t.isInt3264 = true → t.width = if t.wide then 64 else 32 := by
  cases t <;> decide

end Sys2Proof

namespace Sys2Proof.Machine

/-! Values. -/

theorem View.nat_lt (v : View) (t : Ty) (a : Src) : v.nat t a < 2 ^ t.width := Nat.mod_lt _ (Nat.two_pow_pos _)

theorem wrapOrSat_eq (sat : Bool) (t : Ty) (v : Int) :
    wrapOrSat sat t v = ofIntVal t (if sat then max (intMin t) (min v (intMax t)) else v) := by
  rw [wrapOrSat, min_comm]

/-- Integers that agree modulo 2^W have the same result. -/
theorem ofIntVal_congr {t : Ty} {x y : Int} (h : x % 2 ^ t.width = y % 2 ^ t.width) : ofIntVal t x = ofIntVal t y := by
  simp only [ofIntVal, h]

/-- MIN_W divided by −1 is 2^(W − 1), which wraps to MIN_W (R115). -/
theorem ofIntVal_divVal (t : Ty) (a b : Int) : ofIntVal t (divVal t a b) = ofIntVal t
    (if b = 0 then (if t.signed then -1 else 2 ^ t.width - 1)
     else if t.signed = true ∧ a = -2 ^ (t.width - 1) ∧ b = -1 then a
     else a.tdiv b) := by
  by_cases zero : b = 0
  · cases signed : t.signed <;> simp [divVal, intMax, zero, signed]
  by_cases least : t.signed = true ∧ a = -2 ^ (t.width - 1) ∧ b = -1
  · rw [if_neg zero, if_pos least, divVal, if_neg zero]
    obtain ⟨-, rfl, rfl⟩ := least
    have whole : (2 : Int) ^ t.width = 2 * 2 ^ (t.width - 1) := mod_cast t.two_pow_width
    refine ofIntVal_congr (Int.modEq_iff_dvd.mpr ⟨-1, ?_⟩)
    rw [Int.tdiv_neg, Int.tdiv_one, whole]
    ring
  · rw [if_neg zero, if_neg least, divVal, if_neg zero]

theorem remVal_eq (t : Ty) (a b : Int) : remVal a b =
    if b = 0 then a
    else if t.signed = true ∧ a = -2 ^ (t.width - 1) ∧ b = -1 then 0
    else a - a.tdiv b * b := by
  by_cases zero : b = 0
  · simp [remVal, zero]
  by_cases least : t.signed = true ∧ a = -2 ^ (t.width - 1) ∧ b = -1
  · rw [if_neg zero, if_pos least, remVal, if_neg zero, least.2.2]
    simp
  · rw [if_neg zero, if_neg least, remVal, if_neg zero, Int.tmod_def, Int.mul_comm]

/-- A difference with a borrow, modulo 2^W: what the model adds keeps it from falling below 0 (R113). -/
theorem ofBits_sub_borrow (t : Ty) {a b : Nat} (hb : b < 2 ^ t.width) (cin : Bool) :
    ofBits t (a + 2 * 2 ^ t.width - b - natOfBool cin) =
      BitVec.ofInt 64 (((a : Int) - b - natOfBool cin) % 2 ^ t.width) := by
  have carry : natOfBool cin ≤ 1 := by cases cin <;> decide
  have raised : ((a + 2 * 2 ^ t.width - b - natOfBool cin : Nat) : Int) =
      ((a : Int) - b - natOfBool cin) + 2 ^ t.width * 2 := by
    push_cast [show natOfBool cin ≤ a + 2 * 2 ^ t.width - b by omega, show b ≤ a + 2 * 2 ^ t.width by omega]
    ring
  rw [← Int.add_mul_emod_self_left _ (2 ^ t.width) 2, ← raised, ofBits, ← BitVec.ofInt_natCast]
  push_cast
  rfl

/-! The words. -/

theorem pairOk_of_wf3 {p : Bool} {c : Ctl} {w : Bool} {d : Dst} {a b : Src} (h : (p && wf3 c w d a b) = true) :
    d.pairOk w = true := by
  simp only [wf3, Bool.and_eq_true] at h
  tauto

/-- A word whose meaning writes one destination and one condition register gives both in one event. -/
theorem gives_dst_k {i : Instr} {c : Ctl} {d : Dst} {w : Bool} {k : Fin 7} {f : View → List (Reg × Word)}
    {g : View → DWord} {b : View → Bool} (he : ∀ s, exec i s = alu i c f s) (hd : i.dst? = some d)
    (hp : i.wf = true → d.pairOk w = true) (hk : Reg.k k.val ∈ i.writesRegs)
    (hg : ∀ v, f v = dstWrites d w (g v) ++ [kWrite k.val (b v)]) :
    Gives i c (fun v => dstWrites d w (g v) ++ [kWrite k.val (b v)]) := by
  obtain rfl : f = fun v => dstWrites d w (g v) ++ [kWrite k.val (b v)] := funext hg
  intro s h hr
  have apart : Reg.k k.val ∉ Dst.regs w d := by cases d <;> cases w <;> simp [Dst.regs]
  have fits (v : View) : writesFit h.pass.uniform (dstWrites d w (g v) ++ [kWrite k.val (b v)]) := by
    obtain ⟨takes, nodup⟩ := dstWrites_fit hd hr.form (hp hr.wf) (g v)
    obtain ⟨takes', nodup'⟩ := kWrite_fit hk hr.form (b v)
    refine ⟨fun e he => (List.mem_append.mp he).elim (takes e) (takes' e), ?_⟩
    rw [List.map_append, List.nodup_append']
    refine ⟨nodup, nodup', fun r hr hr' => apart ?_⟩
    obtain ⟨e, he, rfl⟩ := List.mem_map.mp hr
    have same : e.1 = .k k.val := by simpa [kWrite] using hr'
    exact same ▸ dstWrites_regs d w _ e he
  obtain ⟨t, ht, holds, -⟩ := alu_spec (c := c) hr fits (Dst.regs w d ++ [.k k.val]) (fun v e he => by
    rcases List.mem_append.mp he with he | he
    · exact List.mem_append_left _ (dstWrites_regs d w _ e he)
    · simp_all [kWrite])
  rw [he]
  exact ⟨t, ht, holds⟩

/-- A word of variable latency has its result on its way. -/
theorem givesLater_aluVar {i : Instr} {c : Ctl} {f g : View → List (Reg × Word)} (he : ∀ s, exec i s = aluVar i c f s)
    (hg : ∀ v, f v = g v) : GivesLater i c g := by
  obtain rfl : f = g := funext hg
  intro s h hr
  rw [he]
  obtain ⟨t, ht, coming, only, moved⟩ := aluVar_spec f hr
  exact ⟨t, ht, fun a ha _ => coming a ha, only, moved⟩

section Arithmetic
variable (c : Ctl) (sat : Bool) (t : Ty) (d : Dst) (a b e : Src) (k : Fin 7)

theorem gives_add : Gives (.add c sat t d a b) c (fun v => dstWrites d t.wide (ofIntVal t
    (if sat then max (intMin t) (min (v.int t a + v.int t b) (intMax t)) else v.int t a + v.int t b))) :=
  gives_dst (fun _ => rfl) rfl pairOk_of_wf3 (fun _ => congrArg (dstWrites d t.wide) (wrapOrSat_eq ..))

theorem gives_sub : Gives (.sub c sat t d a b) c (fun v => dstWrites d t.wide (ofIntVal t
    (if sat then max (intMin t) (min (v.int t a - v.int t b) (intMax t)) else v.int t a - v.int t b))) :=
  gives_dst (fun _ => rfl) rfl pairOk_of_wf3 (fun _ => congrArg (dstWrites d t.wide) (wrapOrSat_eq ..))

theorem gives_mul : Gives (.mul c t d a b) c (fun v => dstWrites d t.wide (ofIntVal t (v.int t a * v.int t b))) :=
  gives_dst (fun _ => rfl) rfl pairOk_of_wf3 (fun _ => rfl)

theorem gives_mad : Gives (.mad c t d a b e) c (fun v =>
    dstWrites d t.wide (ofIntVal t (v.int t a * v.int t b + v.int t e))) := by
  refine gives_dst (fun _ => rfl) rfl (fun wf => ?_) (fun _ => rfl)
  simp only [Instr.wf, Bool.and_eq_true] at wf
  tauto

theorem gives_min : Gives (.min c t d a b) c (fun v => dstWrites d t.wide (ofIntVal t (min (v.int t a) (v.int t b)))) :=
  gives_dst (fun _ => rfl) rfl pairOk_of_wf3 (fun _ => by rw [min_def]; rfl)

theorem gives_max : Gives (.max c t d a b) c (fun v => dstWrites d t.wide (ofIntVal t (max (v.int t a) (v.int t b)))) :=
  gives_dst (fun _ => rfl) rfl pairOk_of_wf3 (fun _ => by rw [max_def']; rfl)

theorem gives_abs : Gives (.abs c sat t d a) c (fun v => dstWrites d t.wide (ofIntVal t
    (if sat then max (intMin t) (min |v.int t a| (intMax t)) else |v.int t a|))) := by
  refine gives_dst (f := fun v => dstWrites d t.wide (wrapOrSat sat t (v.int t a).natAbs)) (fun _ => rfl) rfl
    (fun wf => ?_) (fun v => ?_)
  · simp only [Instr.wf, Bool.and_eq_true] at wf
    exact wf2_pairOk wf.2
  · rw [wrapOrSat_eq, Int.natCast_natAbs]

theorem gives_mulh : Gives (.mulh c t d a b) c (fun v =>
    dstWrites d t.wide (ofIntVal t (v.int t a * v.int t b / 2 ^ t.width))) :=
  gives_dst (fun _ => rfl) rfl pairOk_of_wf3 (fun _ => rfl)

theorem gives_addc : Gives (.addc c t d a b k) c (fun v =>
    let x := v.nat t a + v.nat t b + natOfBool (v.kreg k.val)
    dstWrites d t.wide (BitVec.ofNat 64 (x % 2 ^ t.width)) ++ [kWrite k.val (decide (2 ^ t.width ≤ x))]) :=
  gives_dst_k (fun _ => rfl) rfl pairOk_of_wf3 (by simp [Instr.writesRegs]) (fun _ => rfl)

theorem gives_subc : Gives (.subc c t d a b k) c (fun v =>
    let x : Int := (v.nat t a : Int) - v.nat t b - natOfBool (v.kreg k.val)
    dstWrites d t.wide (BitVec.ofInt 64 (x % 2 ^ t.width)) ++ [kWrite k.val (decide (x < 0))]) := by
  refine gives_dst_k (f := fun v => dstWrites d t.wide
      (ofBits t (v.nat t a + 2 * 2 ^ t.width - v.nat t b - natOfBool (v.kreg k.val))) ++
        [kWrite k.val (borrowOut (v.nat t a) (v.nat t b) (v.kreg k.val))])
    (fun _ => rfl) rfl pairOk_of_wf3 (by simp [Instr.writesRegs]) (fun v => ?_)
  have borrow : borrowOut (v.nat t a) (v.nat t b) (v.kreg k.val) =
      decide ((v.nat t a : Int) - v.nat t b - natOfBool (v.kreg k.val) < 0) := by
    rw [borrowOut, decide_eq_decide]
    omega
  rw [ofBits_sub_borrow t (v.nat_lt t b), borrow]

theorem givesLater_div : GivesLater (.div c t d a b) c (fun v => dstWrites d t.wide (ofIntVal t
    (if v.int t b = 0 then (if t.signed then -1 else 2 ^ t.width - 1)
     else if t.signed = true ∧ v.int t a = -2 ^ (t.width - 1) ∧ v.int t b = -1 then v.int t a
     else (v.int t a).tdiv (v.int t b)))) :=
  givesLater_aluVar (fun _ => rfl) (fun _ => congrArg (dstWrites d t.wide) (ofIntVal_divVal ..))

theorem givesLater_rem : GivesLater (.rem c t d a b) c (fun v => dstWrites d t.wide (ofIntVal t
    (if v.int t b = 0 then v.int t a
     else if t.signed = true ∧ v.int t a = -2 ^ (t.width - 1) ∧ v.int t b = -1 then 0
     else v.int t a - (v.int t a).tdiv (v.int t b) * v.int t b))) :=
  givesLater_aluVar (fun _ => rfl) (fun _ => congrArg (fun x => dstWrites d t.wide (ofIntVal t x)) (remVal_eq ..))

end Arithmetic

end Sys2Proof.Machine

namespace Sys2Proof
open Machine

/-- Settles O1: each word's own lemma says what it gives. -/
theorem arithmeticResults : Obligations.ArithmeticResults :=
  ⟨fun c sat t d a b e => ⟨gives_add c sat t d a b, gives_sub c sat t d a b, gives_mul c t d a b, gives_mad c t d a b e,
      gives_min c t d a b, gives_max c t d a b, gives_abs c sat t d a⟩,
    gives_mulh, fun c t d a b k => ⟨gives_addc c t d a b k, gives_subc c t d a b k⟩,
    fun c t d a b => ⟨givesLater_div c t d a b, givesLater_rem c t d a b⟩⟩

end Sys2Proof
end

section
/-! PROOF. Logic and shifts (R116 to R118): the bits of what the words give. -/

namespace Sys2Proof.Machine

/-! Bits of a result. -/

/-- A doubleword by the bits of its number. -/
theorem ofNat_eq_ofFnLE {n : Nat} {f : Fin 64 → Bool} (h : ∀ i : Fin 64, n.testBit i = f i) :
    BitVec.ofNat 64 n = BitVec.ofFnLE f := by
  refine BitVec.eq_of_getLsbD_eq (fun i hi => ?_)
  rw [BitVec.getLsbD_ofNat, BitVec.getLsbD_ofFnLE, dif_pos hi, ← h ⟨i, hi⟩]
  simp [hi]

/-- W bits by the bits of their number. -/
theorem ofBits_eq_ofFnLE {t : Ty} {n : Nat} {f : Nat → Bool} (h : ∀ i < t.width, n.testBit i = f i) :
    ofBits t n = BitVec.ofFnLE (fun i : Fin 64 => decide (i.val < t.width) && f i.val) := by
  refine ofNat_eq_ofFnLE (fun i => ?_)
  rw [Nat.testBit_mod_two_pow]
  by_cases inside : i.val < t.width
  · rw [h i inside]
  · simp [inside]

/-- The complement of W bits. -/
theorem testBit_complement {w x : Nat} (hx : x < 2 ^ w) {i : Nat} (hi : i < w) :
    (2 ^ w - 1 - x).testBit i = !x.testBit i := by
  rw [show 2 ^ w - 1 - x = 2 ^ w - (x + 1) by omega, Nat.testBit_two_pow_sub_succ hx]
  simp [hi]

/-- Shifted left by the width or more, nothing is left of W bits (R117). -/
theorem ofBits_shl (t : Ty) (x n : Nat) : (if t.width ≤ n then 0 else ofBits t (x * 2 ^ n)) = ofBits t (x * 2 ^ n) := by
  split
  · next gone =>
    rw [ofBits, Nat.mod_eq_zero_of_dvd (Dvd.dvd.mul_left (Nat.pow_dvd_pow 2 gone) x)]
    rfl
  · rfl

/-- Shifted right by the width or more, nothing is left of W bits (R117). -/
theorem ofBits_shr (t : Ty) {x : Nat} (hx : x < 2 ^ t.width) (n : Nat) :
    (if t.width ≤ n then 0 else ofBits t (x / 2 ^ n)) = ofBits t (x / 2 ^ n) := by
  split
  · next gone =>
    rw [Nat.div_eq_of_lt (hx.trans_le (Nat.pow_le_pow_right two_pos gone))]
    simp [ofBits]
  · rfl

/-! Logic. -/

section Logic
variable (c : Ctl) (t : Ty) (d : Dst) (a b : Src)

/-- A two-operand word of logic gives the bits of its function. -/
theorem gives_bits2 {i : Instr} {f : Nat → Nat → Nat} {g : Bool → Bool → Bool}
    (he : ∀ s, exec i s = alu i c (bits2 t d a b f) s) (hd : i.dst? = some d) (hp : i.wf = true → d.pairOk t.wide = true)
    (hg : ∀ x y, y < 2 ^ t.width → ∀ j < t.width, (f x y).testBit j = g (x.testBit j) (y.testBit j)) :
    Gives i c (fun v => dstWrites d t.wide (BitVec.ofFnLE (fun j : Fin 64 =>
      decide (j.val < t.width) && g ((v.nat t a).testBit j) ((v.nat t b).testBit j)))) :=
  gives_dst he hd hp (fun v => congrArg (dstWrites d t.wide)
    (ofBits_eq_ofFnLE (f := fun j => g ((v.nat t a).testBit j) ((v.nat t b).testBit j)) (hg _ _ (v.nat_lt t b))))

theorem gives_and : Gives (.and c t d a b) c (fun v => dstWrites d t.wide (BitVec.ofFnLE (fun j : Fin 64 =>
    decide (j.val < t.width) && ((v.nat t a).testBit j && (v.nat t b).testBit j)))) :=
  gives_bits2 c t d a b (g := and) (fun _ => rfl) rfl pairOk_of_wf3 (fun x y _ j _ => Nat.testBit_and x y j)

theorem gives_or : Gives (.or c t d a b) c (fun v => dstWrites d t.wide (BitVec.ofFnLE (fun j : Fin 64 =>
    decide (j.val < t.width) && ((v.nat t a).testBit j || (v.nat t b).testBit j)))) :=
  gives_bits2 c t d a b (g := or) (fun _ => rfl) rfl pairOk_of_wf3 (fun x y _ j _ => Nat.testBit_or x y j)

theorem gives_xor : Gives (.xor c t d a b) c (fun v => dstWrites d t.wide (BitVec.ofFnLE (fun j : Fin 64 =>
    decide (j.val < t.width) && ((v.nat t a).testBit j != (v.nat t b).testBit j)))) :=
  gives_bits2 c t d a b (g := bne) (fun _ => rfl) rfl pairOk_of_wf3 (fun x y _ j _ => Nat.testBit_xor x y j)

theorem gives_andn : Gives (.andn c t d a b) c (fun v => dstWrites d t.wide (BitVec.ofFnLE (fun j : Fin 64 =>
    decide (j.val < t.width) && ((v.nat t a).testBit j && !(v.nat t b).testBit j)))) :=
  gives_bits2 c t d a b (g := fun x y => x && !y) (fun _ => rfl) rfl pairOk_of_wf3 (fun x y hy j hj => by
    rw [Nat.testBit_and, testBit_complement hy hj])

theorem gives_not : Gives (.not c t d a) c (fun v => dstWrites d t.wide (BitVec.ofFnLE (fun j : Fin 64 =>
    decide (j.val < t.width) && !(v.nat t a).testBit j))) := by
  refine gives_dst (f := fun v => dstWrites d t.wide (ofBits t (2 ^ t.width - 1 - v.nat t a))) (fun _ => rfl) rfl
    (fun wf => ?_) (fun v => ?_)
  · simp only [Instr.wf, Bool.and_eq_true] at wf
    exact wf2_pairOk wf.2
  · rw [ofBits_eq_ofFnLE (fun _ hj => testBit_complement (v.nat_lt t a) hj)]

end Logic

/-! Shifts. -/

theorem pairOk_of_shift {p q r : Bool} {w : Bool} {d : Dst} (h : (p && d.pairOk w && q && r) = true) : d.pairOk w = true := by
  simp only [Bool.and_eq_true] at h
  tauto

section Shift
variable (c : Ctl) (t : Ty) (d : Dst) (a b n : Src) (flag : Bool)

theorem gives_shl : Gives (.shl c t d a n) c (fun v =>
    dstWrites d t.wide (ofBits t (v.nat t a * 2 ^ (v.src32 n).toNat))) :=
  gives_dst (fun _ => rfl) rfl pairOk_of_shift (fun _ => congrArg (dstWrites d t.wide) (ofBits_shl ..))

theorem gives_shr : Gives (.shr c t d a n) c (fun v =>
    dstWrites d t.wide (ofBits t (v.nat t a / 2 ^ (v.src32 n).toNat))) :=
  gives_dst (fun _ => rfl) rfl pairOk_of_shift (fun v => congrArg (dstWrites d t.wide) (ofBits_shr t (v.nat_lt t a) _))

theorem gives_sha : Gives (.sha c t d a n) c (fun v =>
    dstWrites d t.wide (ofIntVal t (v.int t a / 2 ^ min (v.src32 n).toNat (t.width - 1)))) :=
  gives_dst (fun _ => rfl) rfl pairOk_of_shift (fun _ => rfl)

theorem gives_rot : Gives (.rot c flag t d a n) c (fun v =>
    let k := (v.src32 n).toNat % t.width
    dstWrites d t.wide (ofBits t
      (if flag then v.nat t a / 2 ^ k + v.nat t a * 2 ^ (t.width - k)
        else v.nat t a * 2 ^ k + v.nat t a / 2 ^ (t.width - k)))) :=
  gives_dst (fun _ => rfl) rfl pairOk_of_shift (fun _ => rfl)

theorem gives_fsh : Gives (.fsh c flag d a b n) c (fun v =>
    let j := v.nat .b32 a * 2 ^ 32 + v.nat .b32 b
    let m := (v.src32 n).toNat % 32
    dstWrites d false (BitVec.ofNat 64 ((if flag then j * 2 ^ m / 2 ^ 32 else j / 2 ^ m) % 2 ^ 32))) :=
  gives_narrow (fun _ => rfl) rfl

end Shift

end Sys2Proof.Machine

namespace Sys2Proof
open Machine

/-- Settles O2: each word's own lemma says what it gives. -/
theorem logicResults : Obligations.LogicResults := fun c t d a b =>
  ⟨gives_and c t d a b, gives_or c t d a b, gives_xor c t d a b, gives_andn c t d a b, gives_not c t d a⟩

/-- Settles O3: each word's own lemma says what it gives. -/
theorem shiftResults : Obligations.ShiftResults := fun c t d a b n flag =>
  ⟨gives_shl c t d a n, gives_shr c t d a n, gives_sha c t d a n, gives_rot c t d a n flag, gives_fsh c d a b n flag⟩

end Sys2Proof
end

section
/-! PROOF. Bit counts, reversal, fields and byte permutation (R119 to R121): the bits of what the words give. -/

namespace Sys2Proof.Machine

/-! Counts and reversal (R119). -/

/-- The number of leading zeros is the place of the first one bit from above. -/
theorem clzNat_eq {w n : Nat} (hn : n < 2 ^ w) :
    clzNat w n = ((List.range w).find? (fun i => n.testBit (w - 1 - i))).getD w := by
  unfold clzNat
  split
  · next zero =>
    have none : (List.range w).find? (fun i => n.testBit (w - 1 - i)) = none := by simp [zero]
    rw [none, Option.getD_none]
  · next pos =>
    have top : n.log2 < w := (Nat.log2_lt pos).mpr hn
    have first : (List.range w).find? (fun i => n.testBit (w - 1 - i)) = some (w - 1 - n.log2) := by
      rw [List.find?_range_eq_some]
      refine ⟨?_, List.mem_range.mpr (by omega), fun j hj => ?_⟩
      · rw [show w - 1 - (w - 1 - n.log2) = n.log2 by omega]
        exact Nat.testBit_log2 pos
      · rw [Nat.testBit_lt_two_pow ((Nat.log2_lt pos).mp (by omega))]
        rfl
    rw [first, Option.getD_some]

theorem popNat_eq (w n : Nat) : popNat w n = (List.range w).countP (fun i => n.testBit i) := by
  induction w generalizing n with
  | zero => rfl
  | succ w ih =>
    have above : (fun i => n.testBit i) ∘ Nat.succ = fun i => (n / 2).testBit i := funext (Nat.testBit_succ n)
    rw [popNat, ih, List.range_succ_eq_map, List.countP_cons, List.countP_map, above, Nat.testBit_zero, Nat.add_comm]
    rcases Nat.mod_two_eq_zero_or_one n with even | odd <;> simp [*]

theorem revNat_lt (w n : Nat) : revNat w n < 2 ^ w := by
  induction w generalizing n with
  | zero => exact one_pos
  | succ w ih =>
    have rest := ih (n / 2)
    have low : n % 2 * 2 ^ w ≤ 1 * 2 ^ w := Nat.mul_le_mul_right _ (by omega)
    rw [revNat, pow_succ]
    omega

theorem testBit_revNat (w n i : Nat) : (revNat w n).testBit i = (decide (i < w) && n.testBit (w - 1 - i)) := by
  induction w generalizing n with
  | zero => simp [revNat]
  | succ w ih =>
    rw [revNat, Nat.mul_comm, Nat.testBit_two_pow_mul_add _ (revNat_lt w _), ih]
    rcases Nat.lt_trichotomy i w with below | rfl | above
    · rw [if_pos below, ← Nat.testBit_succ, show (w - 1 - i).succ = w + 1 - 1 - i by omega]
      simp [below, below.trans (Nat.lt_succ_self w)]
    · simp
    · rw [if_neg (by omega), Nat.testBit_lt_two_pow (show n % 2 < 2 ^ (i - w) from ?_)]
      · simp [show ¬ i < w + 1 by omega]
      · exact (Nat.mod_lt n two_pos).trans_le (Nat.le_self_pow (by omega) 2)

/-! Fields (R120). -/

/-- Two's complement: half the range or more stands for what lies below 0. -/
theorem toInt_of_half {w : Nat} (hw : 0 < w) (y : BitVec w) :
    (if 2 ^ (w - 1) ≤ y.toNat then (y.toNat : Int) - 2 ^ w else y.toNat) = y.toInt := by
  have whole : 2 ^ w = 2 * 2 ^ (w - 1) := by rw [← pow_succ', Nat.sub_add_cancel hw]
  rw [BitVec.toInt_eq_toNat_cond]
  by_cases upper : 2 ^ (w - 1) ≤ y.toNat
  · rw [if_pos upper, if_neg (by omega)]
    push_cast
    rfl
  · rw [if_neg upper, if_pos (by omega)]

/-- An operand's value by its low W bits. -/
theorem intVal_eq (t : Ty) (x : DWord) :
    intVal t x = if t.signed then (x.setWidth t.width).toInt else ((x.setWidth t.width).toNat : Int) := by
  cases signed : t.signed
  · simp [intVal, signed]
  · rw [if_pos rfl, ← toInt_of_half t.width_pos]
    simp [intVal, signed]

/-- A result of a 32-bit or 64-bit type is the number's low W bits. -/
theorem ofIntVal_eq {t : Ty} (ht : t.isInt3264 = true) (z : Int) : ofIntVal t z = (BitVec.ofInt t.width z).setWidth 64 := by
  have low : (BitVec.ofInt t.width z).setWidth 64 = BitVec.ofNat 64 (z % 2 ^ t.width).toNat := by
    rw [← BitVec.ofNat_toNat, BitVec.toNat_ofInt]
    push_cast
    rfl
  have width := Ty.width_of_isInt3264 ht
  rw [low]
  unfold ofIntVal
  cases wide : t.wide
  · simp [width, wide]
  · rfl

/-- The field that BFX takes: l bits from bit p on of an operand, which is extended as its type says. -/
def fieldOf (t : Ty) (x : BitVec t.width) (p l : Nat) : BitVec l :=
  (if t.signed then x.sshiftRight p else x >>> p).setWidth l

theorem fieldOf_toNat (t : Ty) (x : DWord) (p : Nat) {l : Nat} (hl : l ≤ t.width) :
    ((fieldOf t (x.setWidth t.width) p l).toNat : Int) = intVal t x / 2 ^ p % 2 ^ l := by
  rw [intVal_eq]
  unfold fieldOf
  cases t.signed
  · simp [Nat.shiftRight_eq_div_pow]
  · have shifted : (x.setWidth t.width).toInt / 2 ^ p = ((x.setWidth t.width).sshiftRight p).toInt := by
      rw [BitVec.toInt_sshiftRight, Int.shiftRight_eq_div_pow]
      push_cast
      rfl
    have within : (2 : Int) ^ l ∣ ((2 ^ t.width : Nat) : Int) := mod_cast Nat.pow_dvd_pow 2 hl
    simp only [if_true, shifted, BitVec.toNat_setWidth]
    rw [← Int.emod_emod_of_dvd _ within, BitVec.toInt_eq_toNat_bmod, Int.bmod_emod, Int.emod_emod_of_dvd _ within]
    push_cast
    rfl

/-- BFX's value is its field as a number of l bits, signed or not. -/
theorem bfxVal_eq (t : Ty) (x : DWord) (f : Nat) : bfxVal t (intVal t x) f =
    let y := fieldOf t (x.setWidth t.width) (f % 256) (min (f / 256 % 256) t.width)
    if t.signed then y.toInt else (y.toNat : Int) := by
  have start : bitsOf f 7 0 = f % 256 := by simp [bitsOf]
  have value := fieldOf_toNat t x (f % 256) (Nat.min_le_right (f / 256 % 256) t.width)
  have span : Nat.min (bitsOf f 15 8) t.width = min (f / 256 % 256) t.width := rfl
  unfold bfxVal
  simp only [start, span, ← value]
  clear value span
  generalize min (f / 256 % 256) t.width = l
  generalize fieldOf t (x.setWidth t.width) (f % 256) l = y
  rcases Nat.eq_zero_or_pos l with rfl | pos
  · simp [BitVec.eq_nil y]
  · cases t.signed
    · simp [pos.ne']
    · simp only [pos.ne', if_false, if_true, Bool.true_and, decide_eq_true_eq, ← toInt_of_half pos]
      norm_cast

theorem getLsbD_fieldOf (t : Ty) (x : DWord) (p : Nat) {l i : Nat} (hi : i < l) (hl : l ≤ t.width) :
    (fieldOf t (x.setWidth t.width) p l).getLsbD i =
      if p + i < t.width then (x.toNat % 2 ^ t.width).testBit (p + i)
      else t.signed && (x.toNat % 2 ^ t.width).testBit (t.width - 1) := by
  have inside : i < t.width := hi.trans_le hl
  have bit (j : Nat) : (x.setWidth t.width).getLsbD j = (x.toNat % 2 ^ t.width).testBit j := by
    rw [← BitVec.testBit_toNat, BitVec.toNat_setWidth]
  unfold fieldOf
  cases t.signed
  · rw [if_neg Bool.false_ne_true, BitVec.getLsbD_setWidth, BitVec.getLsbD_ushiftRight, bit]
    split
    · simp [hi]
    · next outside =>
      rw [Nat.testBit_mod_two_pow]
      simp [outside]
  · rw [if_pos rfl, BitVec.getLsbD_setWidth, BitVec.getLsbD_sshiftRight, bit, BitVec.msb_eq_getLsbD_last, bit]
    simp [hi, inside]

/-- A number of l bits, as wide as the result: its own bits, then copies of its highest if it is signed. -/
theorem getLsbD_extended (w : Nat) {l : Nat} (signed : Bool) (y : BitVec l) (i : Nat) :
    (BitVec.ofInt w (if signed then y.toInt else (y.toNat : Int))).getLsbD i =
      (decide (i < w) && if i < l then y.getLsbD i else signed && y.msb) := by
  cases signed
  · rw [if_neg Bool.false_ne_true, BitVec.ofInt_natCast, BitVec.getLsbD_ofNat, BitVec.testBit_toNat]
    split
    · rfl
    · next out => rw [BitVec.getLsbD_of_ge _ _ (by omega), Bool.false_and]
  · rw [if_pos rfl, Bool.true_and]
    exact BitVec.getLsbD_signExtend y

/-- The bits of BFX's result: the field's own, then copies of its highest as the type says. -/
theorem bfx_bits {t : Ty} (ht : t.isInt3264 = true) (x : DWord) (f : Nat) :
    ofIntVal t (bfxVal t (intVal t x) f) =
      let p := f % 256
      let l := min (f / 256 % 256) t.width
      let bit (i : Nat) : Bool :=
        if p + i < t.width then (x.toNat % 2 ^ t.width).testBit (p + i)
        else t.signed && (x.toNat % 2 ^ t.width).testBit (t.width - 1)
      BitVec.ofFnLE (fun i : Fin 64 =>
        if l = 0 then false else if i.val < l then bit i.val
        else t.signed && bit (l - 1) && decide (i.val < (if t.wide then 64 else 32))) := by
  have hl := Nat.min_le_right (f / 256 % 256) t.width
  rw [ofIntVal_eq ht, bfxVal_eq, ← Ty.width_of_isInt3264 ht]
  generalize min (f / 256 % 256) t.width = l at *
  refine BitVec.eq_of_getLsbD_eq (fun i hi => ?_)
  rw [BitVec.getLsbD_ofFnLE, dif_pos hi]
  rcases Nat.eq_zero_or_pos l with rfl | pos
  · simp [BitVec.eq_nil (fieldOf ..)]
  have own (i : Nat) (hi : i < l) := getLsbD_fieldOf t x (f % 256) hi hl
  have last := own (l - 1) (by omega)
  rw [← BitVec.msb_eq_getLsbD_last] at last
  simp only [← last, pos.ne', if_false]
  rw [BitVec.getLsbD_setWidth, getLsbD_extended, decide_eq_true hi, Bool.true_and]
  by_cases inside : i < l
  · simp only [inside, inside.trans_le hl, own, decide_true, Bool.true_and, if_true]
  · simp [inside, Bool.and_comm]

/-- The bits of BFI's result: those of the field from the one operand, the others from the other. -/
theorem testBit_bfiVal {w a b f i : Nat} (hi : i < w) : (bfiVal w a b f).testBit i =
    (let p := f % 256
     let l := f / 256 % 256
     if p ≤ i ∧ i < p + l then b.testBit (i - p) else a.testBit i) := by
  have start : bitsOf f 7 0 = f % 256 := by simp [bitsOf]
  have span : bitsOf f 15 8 = f / 256 % 256 := rfl
  unfold bfiVal
  simp only [start, span]
  generalize f % 256 = p
  generalize f / 256 % 256 = L
  split
  · rw [if_neg (by omega)]
  · have hl : Nat.min L (w - p) = min L (w - p) := rfl
    have parts (l : Nat) : a % 2 ^ p + b % 2 ^ l * 2 ^ p + a / 2 ^ (p + l) * 2 ^ (p + l) =
        2 ^ p * (2 ^ l * (a / 2 ^ (p + l)) + b % 2 ^ l) + a % 2 ^ p := by
      rw [pow_add]
      ring
    rw [parts, Nat.testBit_two_pow_mul_add _ (Nat.mod_lt a (Nat.two_pow_pos p)),
      Nat.testBit_two_pow_mul_add _ (Nat.mod_lt b (Nat.two_pow_pos _)), hl]
    by_cases low : i < p
    · rw [if_pos low, if_neg (by omega), Nat.testBit_mod_two_pow]
      simp [low]
    · rw [if_neg low]
      by_cases field : i - p < min L (w - p)
      · rw [if_pos field, if_pos (by omega), Nat.testBit_mod_two_pow]
        simp [field]
      · rw [if_neg field, if_neg (by omega), Nat.testBit_div_two_pow]
        congr 1
        omega

theorem bfi_bits (t : Ty) (a b f : Nat) : ofBits t (bfiVal t.width a b f) =
    (let p := f % 256
     let l := f / 256 % 256
     BitVec.ofFnLE (fun i : Fin 64 => decide (i.val < t.width) &&
       (if p ≤ i.val ∧ i.val < p + l then b.testBit (i.val - p) else a.testBit i.val))) := by
  dsimp only
  rw [ofBits_eq_ofFnLE (fun _ hi => testBit_bfiVal hi)]

/-! Byte permutation (R121). -/

theorem prmByte_lt (x sel i : Nat) : prmByte x sel i < 2 ^ 8 := by
  have byte := Nat.mod_lt (x / 2 ^ (8 * (bitsOf sel (4 * i + 3) (4 * i) % 8))) (show 0 < 256 by decide)
  unfold prmByte
  dsimp only
  split
  · exact byte
  · split <;> decide

/-- Bit j of a byte of the result: the selected byte's own, or its highest where the nibble asks for copies of it. -/
theorem testBit_prmByte (x sel i : Nat) {j : Nat} (hj : j < 8) : (prmByte x sel i).testBit j =
    x.testBit (8 * (sel / 2 ^ (4 * i) % 8) + if sel.testBit (4 * i + 3) then 7 else j) := by
  have nibble : bitsOf sel (4 * i + 3) (4 * i) = sel / 2 ^ (4 * i) % 16 := by
    rw [bitsOf, show 4 * i + 3 - 4 * i + 1 = 4 by omega]
    rfl
  have byteNo : sel / 2 ^ (4 * i) % 16 % 8 = sel / 2 ^ (4 * i) % 8 := Nat.mod_mod_of_dvd _ (by decide)
  have top : sel.testBit (4 * i + 3) = decide (8 ≤ sel / 2 ^ (4 * i) % 16) := by
    rw [Nat.add_comm, ← Nat.testBit_div_two_pow, Nat.testBit_eq_decide_div_mod_eq, decide_eq_decide]
    omega
  have byte (k : Nat) (hk : k < 8) (n : Nat) : (x / 2 ^ n % 256).testBit k = x.testBit (n + k) := by
    rw [show 256 = 2 ^ 8 by rfl, Nat.testBit_mod_two_pow, Nat.testBit_div_two_pow, Nat.add_comm]
    simp [hk]
  unfold prmByte
  simp only [nibble, byteNo, top, decide_eq_true_eq]
  by_cases low : sel / 2 ^ (4 * i) % 16 < 8
  · rw [if_pos low, if_neg (by omega), byte j hj]
  · rw [if_neg low, if_pos (show 8 ≤ sel / 2 ^ (4 * i) % 16 by omega), ← byte 7 (by decide)]
    have small := Nat.mod_lt (x / 2 ^ (8 * (sel / 2 ^ (4 * i) % 8))) (show 0 < 256 by decide)
    generalize x / 2 ^ (8 * (sel / 2 ^ (4 * i) % 8)) % 256 = y at small ⊢
    by_cases high : 128 ≤ y
    · rw [if_pos high, Nat.testBit_of_two_pow_le_and_two_pow_add_one_gt (i := 7) high small, show 255 = 2 ^ 8 - 1 by rfl,
        Nat.testBit_two_pow_sub_one, decide_eq_true hj]
    · rw [if_neg high, Nat.zero_testBit, Nat.testBit_lt_two_pow (by omega)]

/-- The bits of four bytes. -/
theorem testBit_bytes {B : Nat → Nat} (hB : ∀ i, B i < 2 ^ 8) (j : Nat) :
    (B 0 + 2 ^ 8 * B 1 + 2 ^ 16 * B 2 + 2 ^ 24 * B 3).testBit j = (decide (j < 32) && (B (j / 8)).testBit (j % 8)) := by
  have nested : B 0 + 2 ^ 8 * B 1 + 2 ^ 16 * B 2 + 2 ^ 24 * B 3 =
      2 ^ 8 * (2 ^ 8 * (2 ^ 8 * B 3 + B 2) + B 1) + B 0 := by ring
  rw [nested, Nat.testBit_two_pow_mul_add _ (hB 0), Nat.testBit_two_pow_mul_add _ (hB 1),
    Nat.testBit_two_pow_mul_add _ (hB 2)]
  have within (k : Nat) (hk : k < 4) (above : 8 * k ≤ j) (below : j < 8 * k + 8) :
      (decide (j < 32) && (B (j / 8)).testBit (j % 8)) = (B k).testBit (j - 8 * k) := by
    rw [show j / 8 = k by omega, show j % 8 = j - 8 * k by omega, decide_eq_true (by omega), Bool.true_and]
  split_ifs with h0 h1 h2
  · rw [within 0 (by decide) (by omega) (by omega), Nat.mul_zero, Nat.sub_zero]
  · rw [within 1 (by decide) (by omega) (by omega)]
  · rw [within 2 (by decide) (by omega) (by omega), Nat.sub_sub]
  · rw [Nat.sub_sub, Nat.sub_sub]
    by_cases inside : j < 32
    · rw [within 3 (by decide) (by omega) (by omega)]
    · rw [Nat.testBit_lt_two_pow ((hB 3).trans_le (Nat.pow_le_pow_right two_pos (by omega)))]
      simp [inside]

/-- PRM's result bit by bit. -/
theorem prm_bits (x sel : Nat) : BitVec.ofNat 64
    (prmByte x sel 0 + 2 ^ 8 * prmByte x sel 1 + 2 ^ 16 * prmByte x sel 2 + 2 ^ 24 * prmByte x sel 3) =
      BitVec.ofFnLE (fun j : Fin 64 => decide (j.val < 32) && x.testBit
        (8 * (sel / 2 ^ (4 * (j.val / 8)) % 8) + if sel.testBit (4 * (j.val / 8) + 3) then 7 else j.val % 8)) := by
  refine ofNat_eq_ofFnLE (fun j => ?_)
  rw [testBit_bytes (B := prmByte x sel) (prmByte_lt x sel), testBit_prmByte x sel _ (Nat.mod_lt _ (by decide))]

/-! The words. -/

section BitFields
variable (c : Ctl) (t : Ty) (d : Dst) (a b n : Src)

theorem gives_clz : Gives (.clz c t d a) c (fun v => dstWrites d false (BitVec.ofNat 64
    (((List.range t.width).find? (fun i => (v.nat t a).testBit (t.width - 1 - i))).getD t.width))) :=
  gives_dst (f := fun v => dstWrites d false (BitVec.ofNat 64 (clzNat t.width (v.nat t a)))) (fun _ => rfl) rfl
    (fun _ => pairOk_narrow d) (fun v => by rw [clzNat_eq (v.nat_lt t a)])

theorem gives_popc : Gives (.popc c t d a) c (fun v => dstWrites d false (BitVec.ofNat 64
    ((List.range t.width).countP (fun i => (v.nat t a).testBit i)))) :=
  gives_dst (f := fun v => dstWrites d false (BitVec.ofNat 64 (popNat t.width (v.nat t a)))) (fun _ => rfl) rfl
    (fun _ => pairOk_narrow d) (fun _ => by rw [popNat_eq])

theorem gives_brev : Gives (.brev c t d a) c (fun v => dstWrites d t.wide (BitVec.ofFnLE (fun i : Fin 64 =>
    decide (i.val < t.width) && (v.nat t a).testBit (t.width - 1 - i.val)))) := by
  refine gives_dst (f := fun v => dstWrites d t.wide (BitVec.ofNat 64 (revNat t.width (v.nat t a)))) (fun _ => rfl) rfl
    (fun wf => ?_) (fun v => ?_)
  · simp only [Instr.wf, Bool.and_eq_true] at wf
    exact wf2_pairOk wf.2
  · rw [ofNat_eq_ofFnLE (fun _ => testBit_revNat ..)]

theorem gives_bfx : Gives (.bfx c t d a n) c (fun v =>
    let p := (v.src32 n).toNat % 256
    let l := min ((v.src32 n).toNat / 256 % 256) t.width
    let bit (i : Nat) : Bool :=
      if p + i < t.width then (v.nat t a).testBit (p + i) else t.signed && (v.nat t a).testBit (t.width - 1)
    dstWrites d t.wide (BitVec.ofFnLE (fun i : Fin 64 =>
      if l = 0 then false else if i.val < l then bit i.val
      else t.signed && bit (l - 1) && decide (i.val < (if t.wide then 64 else 32))))) := by
  intro s h hr
  have wf := hr.wf
  simp only [Instr.wf, Bool.and_eq_true] at wf
  obtain ⟨⟨⟨whole, pair⟩, -⟩, -⟩ := wf
  refine gives_dst (f := fun v => dstWrites d t.wide (ofIntVal t (bfxVal t (v.int t a) (v.amount n)))) (fun _ => rfl) rfl
    (fun _ => pair) (fun v => congrArg (dstWrites d t.wide) (bfx_bits whole (v.src t a) _)) s h hr

theorem gives_bfi : Gives (.bfi c t d a b n) c (fun v =>
    let p := (v.src32 n).toNat % 256
    let l := (v.src32 n).toNat / 256 % 256
    dstWrites d t.wide (BitVec.ofFnLE (fun i : Fin 64 => decide (i.val < t.width) &&
      (if p ≤ i.val ∧ i.val < p + l then (v.nat t b).testBit (i.val - p) else (v.nat t a).testBit i.val)))) := by
  refine gives_dst
    (f := fun v => dstWrites d t.wide (ofBits t (bfiVal t.width (v.nat t a) (v.nat t b) (v.amount n)))) (fun _ => rfl) rfl
    (fun wf => ?_) (fun v => congrArg (dstWrites d t.wide) (bfi_bits ..))
  simp only [Instr.wf, Bool.and_eq_true] at wf
  tauto

theorem gives_prm : Gives (.prm c d a b n) c (fun v =>
    let x := v.nat .b32 b * 2 ^ 32 + v.nat .b32 a
    let sel := (v.src32 n).toNat
    dstWrites d false (BitVec.ofFnLE (fun j : Fin 64 => decide (j.val < 32) && x.testBit
      (8 * (sel / 2 ^ (4 * (j.val / 8)) % 8) + if sel.testBit (4 * (j.val / 8) + 3) then 7 else j.val % 8)))) :=
  gives_dst (fun _ => rfl) rfl (fun _ => pairOk_narrow d) (fun _ => congrArg (dstWrites d false) (prm_bits ..))

end BitFields

end Sys2Proof.Machine

namespace Sys2Proof
open Machine

/-- Settles O4: each word's own lemma says what it gives. -/
theorem bitFieldResults : Obligations.BitFieldResults := fun c t d a b n =>
  ⟨gives_clz c t d a, gives_popc c t d a, gives_brev c t d a, gives_bfx c t d a n, gives_bfi c t d a b n,
    gives_prm c d a b n⟩

end Sys2Proof
end

section
/-! PROOF. Selection, comparison and truth tables (R122 to R124, R131). -/

namespace Sys2Proof.Machine

theorem gives_sel (c : Ctl) (t : Ty) (d : Dst) (a b : Src) (k : Fin 8) : Gives (.sel c t d a b k) c (fun v =>
    dstWrites d t.wide (moveVal t (if v.kreg k.val then v.src t a else v.src t b))) :=
  gives_dst (fun _ => rfl) rfl (fun wf => pairOk_of_wf3 (p := true) wf) (fun _ => rfl)

/-- What CMP writes: the comparison at the type that admission notes for the word, combined with k[c]. -/
def Here.cmpWrites (h : Here) (cc : Cond) (op : KComb) (t : Ty) (k : Fin 7) (a b : Src) (v : View) : List (Reg × Word) :=
  [kWrite k.val (combine op v (condHolds cc (v.int (h.cmpType t) a) (v.int (h.cmpType t) b)))]

theorem execCmp_gives {c : Ctl} {cc : Cond} {op : KComb} {t : Ty} {k : Fin 7} {a b : Src} {s : State} {h : Here}
    (hr : Ready (.cmp c cc op t k a b) s h) : nextWith (exec (.cmp c cc op t k a b) s) (fun u =>
      ∀ ag ∈ h.taking c s, s.alive ag = true → u.holds ag (h.cmpWrites cc op t k a b (s.view ag))) := by
  refine issue_putRegs (regs := [.k k.val]) hr ?_ (fun a => kWrite_fit (by simp [Instr.writesRegs]) hr.form _)
    (by simp [Here.cmpWrites, kWrite])
  simp only [issued_taking, issued_view]
  rfl

theorem natOfBool_eq_toNat (b : Bool) : natOfBool b = b.toNat := by cases b <;> rfl

theorem gives_kop (c : Ctl) (k : Fin 7) (ka kb kc : Fin 8) (table : BitVec 8) : Gives (.kop c k ka kb kc table) c (fun v =>
    [kWrite k.val (table.getLsbD
      (4 * (v.kreg ka.val).toNat + 2 * (v.kreg kb.val).toNat + (v.kreg kc.val).toNat))]) := by
  refine gives_k (f := fun v => [kWrite k.val (tableBit table (v.kf ka) (v.kf kb) (v.kf kc))]) (fun _ => rfl)
    (by simp [Instr.writesRegs]) (fun v => ?_)
  simp only [tableBit, natOfBool_eq_toNat, View.kf]

end Sys2Proof.Machine

namespace Sys2Proof
open Machine

/-- Settles O5: each word's own lemma says what it gives. -/
theorem selectCompareResults : Obligations.SelectCompareResults := by
  refine fun c cc op t d k a b ka kb kc table => ⟨gives_sel c t d a b kc, fun s h hr => ?_, gives_kop c k ka kb kc table⟩
  obtain ⟨u, hu, holds⟩ := execCmp_gives hr
  refine ⟨u, hu, fun ag ha hl => ?_⟩
  have given := holds ag ha hl
  cases op <;> exact given

end Sys2Proof
end

section
/-! PROOF. Barrier and convergence registers (R168, R172, R173): what a change of one makes of its team. -/

namespace Sys2Proof.Machine

/-! One lane (R80). -/

/-- The effect of a word on the one lane that takes it. -/
theorem eachLane_alone {i : Instr} {c : Ctl} {s : State} {h : Here} {ag : Agent} (hone : Alone h c s ag)
    (f : Agent → State → State) :
    eachLane (h.taking c (s.issued h i c)) f (s.issued h i c) = f ag (s.issued h i c) := by
  rw [issued_taking, hone.takes, eachLane_one f ((issued_alive ..).trans hone.alive)]

theorem modTeam_others (s : State) (team : Nat) (f : Team → Team) {k : Nat} (hk : k ≠ team) :
    tget (s.modTeam team f).teams k = tget s.teams k := tget_tmod_ne _ _ hk

/-- The registers that an agent of the team reads in it. -/
def Team.files (m : Team) : Vector Word 1024 × Vector Word 8 × Vector Word 2 := (m.s, m.uo, m.uy)

/-- A view is made of the threads' windows and the teams' files. -/
theorem view_of_files {s t : State} (hw : ∀ k, (tget t.threads k).map (·.win) = (tget s.threads k).map (·.win))
    (hm : ∀ k, (tget t.teams k).map Team.files = (tget s.teams k).map Team.files) (a : Agent) : t.view a = s.view a := by
  cases a with
  | thread team tid =>
    have windows := hw (tkey team tid)
    have files := hm team
    simp only [State.view, State.thread]
    cases e1 : tget t.teams team <;> cases e2 : tget s.teams team <;> cases e3 : tget t.threads (tkey team tid) <;>
      cases e4 : tget s.threads (tkey team tid) <;> simp_all [Team.files]
  | uniform team =>
    have files := hm team
    simp only [State.view]
    cases e1 : tget t.teams team <;> cases e2 : tget s.teams team <;> simp_all [Team.files]

/-- So it stays where one team changes in other parts. -/
theorem view_of_team {s t : State} {team : Nat} {m m' : Team} (hw : t.threads = s.threads) (hm : tget s.teams team = some m)
    (hm' : tget t.teams team = some m') (hf : m'.files = m.files) (others : ∀ k, k ≠ team → tget t.teams k = tget s.teams k)
    (a : Agent) : t.view a = s.view a := by
  refine view_of_files (fun k => by rw [hw]) (fun k => ?_) a
  by_cases hk : k = team
  · rw [hk, hm, hm', Option.map_some, Option.map_some, hf]
  · rw [others k hk]

/-! A result on its way to a thread (R83). -/

theorem setPends_thread_rest (s : State) (team tid : Nat) (l : List Reg) (b : Bool) :
    s.setPends (.thread team tid) l b = { s with threads := (s.setPends (.thread team tid) l b).threads } := by
  unfold State.setPends
  induction l generalizing s with
  | nil => rfl
  | cons r l ih =>
    have first : s.setPend (.thread team tid) r b = { s with threads := (s.setPend (.thread team tid) r b).threads } := by
      cases r <;> rfl
    rw [List.foldl_cons, ih, first]

/-- Its registers' bits are the thread's own, so that no team changes. -/
theorem later_thread_rest (s : State) (team tid : Nat) (l : List (Reg × Word)) :
    let t := s.later (.thread team tid) l
    t = { s with threads := t.threads, pends := t.pends, nextId := t.nextId } := by
  intro t
  unfold t State.later
  rw [(pend_spec ..).2, setPends_thread_rest]

/-! The registers of a team. -/

section Registers
variable {s : State} {team : Nat} {m : Team} (hm : tget s.teams team = some m)
include hm

theorem bar_eq {i : Nat} (hi : i < 16) : s.bar team i = m.bar[i] := by simp [State.bar, hm, hi]

theorem conv_eq {i : Nat} (hi : i < 16) : s.conv team i = m.conv[i] := by simp [State.conv, hm, hi]

theorem modBar_team {i : Nat} (hi : i < 16) (f : BarReg → BarReg) :
    tget (s.modBar team i f).teams team = some { m with bar := m.bar.set i (f (s.bar team i)) hi } := by
  simp [State.modBar, State.modTeam, hm, bar_eq hm hi, hi, Vector.setIfInBounds, Array.setIfInBounds]

theorem modConv_team {i : Nat} (hi : i < 16) (f : ConvReg → ConvReg) :
    tget (s.modConv team i f).teams team = some { m with conv := m.conv.set i (f (s.conv team i)) hi } := by
  simp [State.modConv, State.modTeam, hm, conv_eq hm hi, hi, Vector.setIfInBounds, Array.setIfInBounds]

theorem bar_modBar {i : Nat} (hi : i < 16) (f : BarReg → BarReg) : (s.modBar team i f).bar team i = f (s.bar team i) := by
  rw [bar_eq (modBar_team hm hi f) hi]
  exact Vector.getElem_set_self hi

end Registers

/-! The words. -/

theorem execBinit_sets {c : Ctl} {live : Bool} {i : Fin 16} {a : Src} {s : State} {h : Here}
    (hone : Alone h c s (.uniform h.pass.team)) (hr : Ready (.binit c live i a) s h) :
    exec (.binit c live i a) s = .next ((s.issued h (.binit c live i a) c).modBar h.pass.team i.val (fun b =>
      b.init live (((s.view (.uniform h.pass.team)).src32 a).toNat % 65536) (s.liveCount h.pass.team))) := by
  refine issue_done hr ?_
  rw [eachLane_alone hone, issued_view]
  rfl

theorem execCinit_sets {c : Ctl} {i : Fin 16} {a : Src} {s : State} {h : Here}
    (hone : Alone h c s (.uniform h.pass.team)) (hr : Ready (.cinit c i a) s h) :
    exec (.cinit c i a) s = .next ((s.issued h (.cinit c i a) c).modConv h.pass.team i.val (fun r =>
      { r with exp := min ((s.view (.uniform h.pass.team)).src32 a).toNat 8192, sig := 0, set := none })) := by
  refine issue_done hr ?_
  rw [eachLane_alone hone, issued_view]

/-- What one signature with no operation leaves of its register (R173). -/
def ConvReg.signed (r : ConvReg) : ConvReg :=
  if r.exp = 0 then r else if r.sig + 1 < r.exp then { r with sig := r.sig + 1 } else { r with sig := 0, seq := r.seq + 1 }

theorem modConv_id {s : State} {team i : Nat} {m : Team} (hm : tget s.teams team = some m) (hi : i < 16) :
    tget s.teams team = some { m with conv := m.conv.set i (s.conv team i) hi } := by
  rw [hm, conv_eq hm hi, Vector.set_getElem_self]

/-- A signature at a register with no open matrix set. -/
theorem sign_plain {s : State} {team i off : Nat} {m : Team} (hm : tget s.teams team = some m) (hi : i < 16)
    (hset : (s.conv team i).set = none) :
    ∃ t, s.sign team i off none = (decide ((s.conv team i).exp ≠ 0 ∧ (s.conv team i).exp ≤ (s.conv team i).sig + 1), t) ∧
      t = { s with teams := t.teams } ∧ (∀ k, k ≠ team → tget t.teams k = tget s.teams k) ∧
      tget t.teams team = some { m with conv := m.conv.set i (s.conv team i).signed hi } := by
  unfold State.sign
  dsimp only
  generalize hr : s.conv team i = r at hset ⊢
  by_cases h0 : r.exp = 0
  · refine ⟨s, by simp [h0], rfl, fun _ _ => rfl, ?_⟩
    rw [ConvReg.signed, if_pos h0, ← hr]
    exact modConv_id hm hi
  by_cases hlt : r.sig + 1 < r.exp
  · refine ⟨s.modConv team i (fun r => { r with sig := r.sig + 1, set := none }), ?_, rfl, fun k hk => modTeam_others _ _ _ hk, ?_⟩
    · simp [h0, hlt, hset, Nat.not_le.mpr hlt]
    · rw [modConv_team hm hi, hr, ConvReg.signed, if_neg h0, if_pos hlt, ← hset]
  · refine ⟨s.modConv team i (fun r => { r with sig := 0, set := none, seq := r.seq + 1 }), ?_, rfl,
      fun k hk => modTeam_others _ _ _ hk, ?_⟩
    · simp [h0, hlt, hset, Nat.not_lt.mp hlt]
    · rw [modConv_team hm hi, hr, ConvReg.signed, if_neg h0, if_neg hlt, ← hset]

/-- No open set is there for a signature to complete, so that it waits for no bank. -/
theorem signWaits_plain {h : Here} {s : State} {i : Nat} (hset : (s.conv h.pass.team i).set = none) (n : Nat) :
    h.signWaits s i n none = false := by
  unfold Here.signWaits
  simp only [hset]
  cases h.place.team.mres <;> rfl

/-- A signature of the one lane that takes the word, at a register with no open matrix set (R173). -/
theorem execCsign_signs {c : Ctl} {i : Fin 16} {d : KDst} {s : State} {h : Here} {team tid : Nat}
    (hone : Alone h c s (.thread team tid)) (hr : Ready (.csign c i d) s h)
    (hset : (s.conv h.pass.team i.val).set = none) :
    let r := s.conv h.pass.team i.val
    ∃ t : State, exec (.csign c i d) s =
        .next (t.later (.thread team tid) (kWrites d (decide (r.exp ≠ 0 ∧ r.exp ≤ r.sig + 1)))) ∧
      t = { s.issued h (.csign c i d) c with teams := t.teams } ∧
      (∀ k, k ≠ h.pass.team → tget t.teams k = tget s.teams k) ∧
      tget t.teams h.pass.team = some { h.place.team with conv := h.place.team.conv.set i.val r.signed i.isLt } := by
  intro r
  obtain ⟨-, -, -, hpl, -⟩ := here_spec hr.here
  obtain ⟨hm, -, -, -⟩ := place_spec hpl
  obtain ⟨t, hsign, hrest, hothers, hteam⟩ :=
    sign_plain (s := s.issued h (.csign c i d) c) (off := h.group.off) hm i.isLt hset
  have halive : t.alive (.thread team tid) = true := by
    rw [← hone.alive, hrest]
    rfl
  refine ⟨t, issue_done hr ?_, hrest, hothers, hteam⟩
  rw [signWaits_plain (s := s.issued h (.csign c i d) c) hset, eachLane_alone hone, hsign]
  simp only [halive, if_true]
  rfl

end Sys2Proof.Machine

namespace Sys2Proof
open Machine

/-- Settles O13: the registers that BINIT and CINIT set, and what a signature leaves. -/
theorem barrierAndConvergenceRegisters : Obligations.BarrierAndConvergenceRegisters := by
  refine ⟨?_, ?_⟩
  · intro c live i a s h ag n m b bar conv hone
    refine ⟨fun hr => ?_, fun hr => ?_⟩
    · obtain ⟨hm, -, -, -⟩ := place_spec (here_spec hr.here).2.2.2.1
      refine ⟨_, execBinit_sets hone hr, rfl, issued_moves hr.here (.binit c live i a) c, ?_, fun k hk => modTeam_others _ _ _ hk⟩
      rw [modBar_team (s := s.issued h (.binit c live i a) c) hm i.isLt]
      simp only [BarReg.init, ite_not]
      rfl
    · obtain ⟨hm, -, -, -⟩ := place_spec (here_spec hr.here).2.2.2.1
      refine ⟨_, execCinit_sets hone hr, rfl, issued_moves hr.here (.cinit c i a) c, ?_, fun k hk => modTeam_others _ _ _ hk⟩
      rw [modConv_team (s := s.issued h (.cinit c i a) c) hm i.isLt]
      rw [conv_eq (s := s.issued h (.cinit c i a) c) hm i.isLt]
  · intro c i d s h tid ag r hr hone hset
    obtain ⟨hm, -, -, -⟩ := place_spec (here_spec hr.here).2.2.2.1
    obtain ⟨t, hexec, hrest, hothers, hteam⟩ := execCsign_signs hone hr hset
    have hi := issued_rest s h (.csign c i d) c
    have hmoved := issued_moves hr.here (.csign c i d) c
    generalize s.issued h (.csign c i d) c = v at hrest hi hmoved
    have seen (b : Agent) : t.view b = s.view b := view_of_team (by rw [hrest, hi]) hm hteam rfl hothers b
    refine ⟨_, hexec, coming_later .., ?_⟩
    have rest := later_thread_rest t h.pass.team tid (kWrites d (decide (r.exp ≠ 0 ∧ r.exp ≤ r.sig + 1)))
    have view (b : Agent) : (t.later (.thread h.pass.team tid) _).view b = t.view b := pend_view t _ b
      (.ready (kWrites d (decide (r.exp ≠ 0 ∧ r.exp ≤ r.sig + 1)))) _ 0
    generalize t.later (.thread h.pass.team tid) (kWrites d (decide (r.exp ≠ 0 ∧ r.exp ≤ r.sig + 1))) = u at rest view
    refine ⟨movedOn_congr ?_ hmoved, fun b => (view b).trans (seen b), ?_, ?_, fun k hk => ?_⟩
    · rw [rest, hrest]
    · rw [rest, hrest, hi]
    · rw [rest]; exact hteam
    · rw [rest]; exact hothers k hk

end Sys2Proof
end

section
/-! PROOF. A word that ends its block, with one lane that takes it (R70, R156): the group's other lanes fall through. -/

namespace Sys2Proof.Machine

/-! Keys of the threads. -/

theorem tset_keys {α : Type} {t : Table α} {k : Nat} {a : α} (h : tget t k = some a) (b : α) :
    (tset t k b).map (·.1) = t.map (·.1) := by
  induction t with
  | nil => cases h
  | cons e r ih =>
    obtain ⟨j, d⟩ := e
    by_cases hj : j = k
    · simp [tset, hj]
    · simp only [tget, hj, if_false] at h
      simp [tset, hj, ih h]

theorem tmod_keys {α : Type} (t : Table α) (k : Nat) (f : α → α) : (tmod t k f).map (·.1) = t.map (·.1) := by
  unfold tmod
  split
  · next a ha => exact tset_keys ha _
  · rfl

/-- The live threads are those with a key. -/
theorem liveTids_congr {s t : State} (h : t.threads.map (·.1) = s.threads.map (·.1)) (team : Nat) :
    t.liveTids team = s.liveTids team := by
  have keyed (u : State) : u.liveTids team =
      (u.threads.map (·.1)).filterMap (fun k => if k / 8192 = team then some (k % 8192) else none) := by
    rw [List.filterMap_map]
    rfl
  rw [keyed, keyed, h]

theorem liveCount_congr {s t : State} (h : t.threads.map (·.1) = s.threads.map (·.1)) (team : Nat) :
    t.liveCount team = s.liveCount team := by
  rw [State.liveCount, liveTids_congr h, State.liveCount]

theorem setPends_keys (s : State) (a : Agent) (l : List Reg) (b : Bool) :
    (s.setPends a l b).threads.map (·.1) = s.threads.map (·.1) := by
  unfold State.setPends
  induction l generalizing s with
  | nil => rfl
  | cons r l ih =>
    rw [List.foldl_cons, ih]
    cases a <;> cases r <;> first | rfl | exact tmod_keys ..

theorem later_keys (s : State) (a : Agent) (l : List (Reg × Word)) :
    (s.later a l).threads.map (·.1) = s.threads.map (·.1) := setPends_keys ..

/-! Lanes that fall through. -/

/-- From s to t, no more has changed than where threads other than this agent go next. -/
structure OthersLeave (ag : Agent) (s t : State) : Prop where
  rest : t = { s with threads := t.threads }
  keys : t.threads.map (·.1) = s.threads.map (·.1)
  threads : ∀ k, (tget t.threads k).map Thread.sansLeave = (tget s.threads k).map Thread.sansLeave
  mine : ∀ team tid, ag = .thread team tid → t.thread team tid = s.thread team tid

namespace OthersLeave

theorem refl (ag : Agent) (s : State) : OthersLeave ag s s := ⟨rfl, rfl, fun _ => rfl, fun _ _ _ => rfl⟩

theorem trans {ag : Agent} {s t u : State} (h : OthersLeave ag s t) (k : OthersLeave ag t u) : OthersLeave ag s u :=
  ⟨by rw [k.rest, h.rest], k.keys.trans h.keys, fun i => (k.threads i).trans (h.threads i),
    fun team tid e => (k.mine team tid e).trans (h.mine team tid e)⟩

theorem setLeave {ag : Agent} (s : State) {team i : Nat} (hne : Agent.thread team i ≠ ag) (h : ∀ q j, ag = .thread q j → q = team)
    (l : Leave) : OthersLeave ag s (s.setLeave (.thread team i) l) := by
  have only := setLeave_only s (.thread team i) l
  refine ⟨rfl, tmod_keys .., only.threads, fun q j e => only.otherThreads _ ?_⟩
  rintro q' i' e'
  cases e'
  obtain rfl := h q j e
  intro hk
  exact hne (by rw [e, tkey_inj hk])

variable {ag : Agent} {s t : State} (h : OthersLeave ag s t)
include h

/-- A part of the threads beside where they go is as before. -/
theorem part {α : Type} (f : Thread → α) (hf : ∀ u, f u.sansLeave = f u) (k : Nat) :
    (tget t.threads k).map f = (tget s.threads k).map f := by
  have same := congrArg (Option.map f) (h.threads k)
  simpa only [Option.map_map, Function.comp_def, hf] using same

theorem teams : t.teams = s.teams := by rw [h.rest]

theorem view (a : Agent) : t.view a = s.view a :=
  view_of_files (h.part _ (fun _ => rfl)) (fun k => by rw [h.teams]) a

theorem alive (a : Agent) : t.alive a = s.alive a := by
  cases a with
  | thread team tid => simpa [State.alive, State.thread] using congrArg Option.isSome (h.threads (tkey team tid))
  | uniform team => simp only [State.alive, h.teams]

theorem leaveOf : t.leaveOf ag = s.leaveOf ag := by
  cases ag with
  | thread team tid => simp only [State.leaveOf, h.mine team tid rfl]
  | uniform team => simp only [State.leaveOf, h.teams]

theorem liveTids (team : Nat) : t.liveTids team = s.liveTids team := liveTids_congr h.keys team

theorem place (team : Nat) : t.place team = s.place team := by rw [h.rest]; rfl

theorem device : SameDevice s t := by
  rw [h.rest]
  exact ⟨rfl, rfl, rfl, rfl, fun _ => rfl, fun _ => rfl⟩

end OthersLeave

/-- In a pass of threads every agent is one of the team. -/
theorem agents_cases {h : Here} {a : Agent} (ha : a ∈ h.agents) :
    (h.pass.uniform = true ∧ a = .uniform h.pass.team) ∨ (h.pass.uniform = false ∧ ∃ i, a = .thread h.pass.team i) := by
  unfold Here.agents at ha
  cases hu : h.pass.uniform with
  | true => simp_all
  | false =>
    simp only [hu, Bool.false_eq_true, if_false, List.mem_map] at ha
    obtain ⟨i, -, rfl⟩ := ha
    exact .inr ⟨rfl, i, rfl⟩

/-- The other lanes see what they saw where no other thread's window has changed and no team's registers. -/
theorem view_otherLane {h : Here} {team tid : Nat} {b : Agent} (hag : .thread team tid ∈ h.agents) (hb : b ∈ h.agents)
    (hne : b ≠ .thread team tid) {s t : State} (ht : ∀ k, k ≠ tkey team tid → tget t.threads k = tget s.threads k)
    (hm : ∀ k, (tget t.teams k).map Team.files = (tget s.teams k).map Team.files) : t.view b = s.view b := by
  obtain ⟨hu, j, e⟩ : h.pass.uniform = false ∧ ∃ j, Agent.thread team tid = .thread h.pass.team j := by
    simpa using agents_cases hag
  cases e
  rcases agents_cases hb with ⟨hu', -⟩ | ⟨-, i, rfl⟩
  · simp [hu] at hu'
  have key : tkey h.pass.team i ≠ tkey h.pass.team tid := fun hk => hne (by rw [tkey_inj hk])
  have files := hm h.pass.team
  simp only [State.view, State.thread, ht _ key]
  cases e1 : tget t.teams h.pass.team <;> cases e2 : tget s.teams h.pass.team <;> simp_all [Team.files]

/-! A change of one thread. -/

/-- From s to t, no more than one thread has changed. -/
structure OneThread (team tid : Nat) (s t : State) : Prop where
  rest : t = { s with threads := t.threads }
  others : ∀ k, k ≠ tkey team tid → tget t.threads k = tget s.threads k

namespace OneThread

theorem refl (team tid : Nat) (s : State) : OneThread team tid s s := ⟨rfl, fun _ _ => rfl⟩

theorem trans {team tid : Nat} {s t u : State} (h : OneThread team tid s t) (k : OneThread team tid t u) : OneThread team tid s u :=
  ⟨by rw [k.rest, h.rest], fun i hi => (k.others i hi).trans (h.others i hi)⟩

theorem modThread (s : State) (team tid : Nat) (f : Thread → Thread) : OneThread team tid s (s.modThread team tid f) :=
  ⟨rfl, fun _ hk => tget_tmod_ne _ _ hk⟩

/-- A change of a thread ends none. -/
theorem alive_modThread (s : State) (team tid : Nat) (f : Thread → Thread) (a : Agent) :
    (s.modThread team tid f).alive a = s.alive a := by
  cases a with
  | thread q i =>
    simp only [State.alive, State.thread, State.modThread, tget_tmod]
    split
    · next e => rw [e, Option.isSome_map]
    · rfl
  | uniform q => rfl

theorem putRegs (s : State) (team tid : Nat) (l : List (Reg × Word)) : OneThread team tid s (s.putRegs (.thread team tid) l) := by
  rw [putRegs_thread]
  exact modThread ..

theorem setLeave (s : State) (team tid : Nat) (l : Leave) : OneThread team tid s (s.setLeave (.thread team tid) l) :=
  modThread ..

theorem view {h : Here} {team tid : Nat} {s t : State} (ho : OneThread team tid s t) (hag : .thread team tid ∈ h.agents)
    {b : Agent} (hb : b ∈ h.agents) (hne : b ≠ .thread team tid) : t.view b = s.view b :=
  view_otherLane hag hb hne ho.others (fun k => by rw [ho.rest])

end OneThread

/-- A lane that is live when its turn comes. -/
theorem eachLane_around {f : Agent → State → State} {l r : List Agent} {a : Agent} {s : State}
    (h : (eachLane l f s).alive a = true) : eachLane (l ++ a :: r) f s = eachLane r f (f a (eachLane l f s)) := by
  unfold eachLane at h ⊢
  rw [List.foldl_append, List.foldl_cons, if_pos h]

/-- What the end of a block is to one lane: what the word does there, or the fall-through where its guard fails. -/
def Here.ends (h : Here) (c : Ctl) (F : Agent → View → State → State) (a : Agent) (s : State) : State :=
  if c.guard.holds (s.view a) then F a (s.view a) s else s.setLeave a (.goto (h.fallThrough c))

/-- The lanes of the group but for the one that takes the word, as a list of them passes. -/
theorem eachLane_falls {h : Here} {c : Ctl} {ag : Agent} (hag : ag ∈ h.agents) (F : Agent → View → State → State)
    (m : List Agent) (hm : ∀ b ∈ m, b ∈ h.agents ∧ b ≠ ag) (t : State)
    (hfails : ∀ b ∈ m, t.alive b = true → c.guard.holds (t.view b) = false) :
    OthersLeave ag t (eachLane m (h.ends c F) t) := by
  induction m generalizing t with
  | nil => exact .refl ag t
  | cons b m ih =>
    have rest (u : State) (hu : OthersLeave ag t u) := ih (fun b hb => hm b (List.mem_cons_of_mem _ hb)) u (fun b hb hl => by
      rw [hu.view]
      exact hfails b (List.mem_cons_of_mem _ hb) (by rwa [← hu.alive]))
    unfold eachLane at rest ⊢
    rw [List.foldl_cons]
    by_cases hl : t.alive b = true
    · obtain ⟨hb, hne⟩ := hm b (List.mem_cons_self ..)
      have guard := hfails b (List.mem_cons_self ..) hl
      have falls : OthersLeave ag t (t.setLeave b (.goto (h.fallThrough c))) := by
        rcases agents_cases hag with ⟨hu, e⟩ | ⟨hu, j, e⟩ <;> rcases agents_cases hb with ⟨hu', e'⟩ | ⟨hu', i, e'⟩
        · exact absurd (e'.trans e.symm) hne
        · simp [hu] at hu'
        · simp [hu] at hu'
        · subst e'
          exact .setLeave t hne (fun q j' eq => by rw [e] at eq; cases eq; rfl) _
      simp only [hl, if_true, Here.ends, guard, Bool.false_eq_true, if_false]
      exact falls.trans (rest _ falls)
    · simp only [hl, Bool.false_eq_true, if_false]
      exact rest t (.refl ag t)

theorem Alone.mem {h : Here} {c : Ctl} {s : State} {ag : Agent} (hone : Alone h c s ag) : ag ∈ h.agents :=
  taking_subset h c s ag (by rw [hone.takes]; exact List.mem_singleton_self ag)

/-- The issuing group has ended its block. -/
def State.groupDone (s : State) (h : Here) : State := s.modGroup h.pid h.gid (fun g => { g with done := true })

theorem groupDone_view (s : State) (h : Here) (a : Agent) : (s.groupDone h).view a = s.view a := view_congr rfl rfl a

theorem groupDone_alive (s : State) (h : Here) (a : Agent) : (s.groupDone h).alive a = s.alive a := alive_congr rfl rfl a

theorem groupDone_ended {s : State} {h : Here} (hh : s.here = some h) (i : Instr) (c : Ctl) :
    ended h ((s.issued h i c).groupDone h) := by
  obtain ⟨p, g, hp, hg⟩ := issued_group hh i c
  unfold ended State.groupDone State.modGroup
  simp [hp, hg]

theorem ended_congr {h : Here} {s t : State} (hp : t.passes = s.passes) (he : ended h s) : ended h t := by
  unfold ended at *
  rwa [hp]

theorem OthersLeave.ended {ag : Agent} {s t : State} (ho : OthersLeave ag s t) {h : Here} (he : ended h s) :
    Machine.ended h t := ended_congr (by rw [ho.rest]) he

/-- When the lane's turn comes, no more has changed than the other lanes' ways, the group's place and the counters. -/
theorem OthersLeave.of_issued {ag : Agent} {s v : State} {h : Here} {i : Instr} {c : Ctl}
    (ho : OthersLeave ag ((s.issued h i c).groupDone h) v) :
    v = { s with threads := v.threads, passes := v.passes, perf := v.perf } := by
  have done : (s.issued h i c).groupDone h =
      { s.issued h i c with passes := ((s.issued h i c).groupDone h).passes } := rfl
  have issued := issued_rest s h i c
  generalize (s.issued h i c).groupDone h = w at ho done
  generalize s.issued h i c = u at done issued
  rw [ho.rest, done, issued]

/-- What ending a block comes to where one lane takes the word. -/
theorem endBlock_alone {s u : State} {h : Here} {c : Ctl} {ag : Agent} (hone : Alone h c s ag) (F : Agent → View → State → State)
    (hview : ∀ b, u.view b = s.view b) (halive : u.alive ag = true)
    (hF : ∀ v, (∀ b, v.view b = s.view b) → ∀ b ∈ h.agents, b ≠ ag → (F ag (s.view ag) v).alive b = true →
      (F ag (s.view ag) v).view b = s.view b) :
    ∃ v, OthersLeave ag (u.groupDone h) v ∧
      OthersLeave ag (F ag (s.view ag) v) (u.endBlock h c F) := by
  have hag : ag ∈ h.agents := taking_subset h c s ag (by rw [hone.takes]; simp)
  obtain ⟨l, r, hl, hfails, htakes, hr⟩ := List.filter_eq_cons_iff.mp hone.takes
  have hfails' : ∀ b ∈ r, ¬ c.guard.holds (s.view b) = true := List.filter_eq_nil_iff.mp hr
  have other {b : Agent} (hb : ¬ c.guard.holds (s.view b) = true) : b ≠ ag := by
    rintro rfl
    exact hb htakes
  have hmem (b : Agent) (hb : b ∈ l ∨ b ∈ r) : b ∈ h.agents := by
    rw [hl]
    rcases hb with hb | hb <;> simp [hb]
  have first := eachLane_falls (c := c) hag F l (fun b hb => ⟨hmem b (.inl hb), other (hfails b hb)⟩)
    (u.groupDone h) (fun b hb _ => by
      rw [groupDone_view, hview]
      simpa using hfails b hb)
  refine ⟨_, first, ?_⟩
  generalize hv : eachLane l (h.ends c F) (u.groupDone h) = v at first ⊢
  have seen (b : Agent) : v.view b = s.view b := (first.view b).trans ((groupDone_view ..).trans (hview b))
  have live : v.alive ag = true := (first.alive ag).trans ((groupDone_alive ..).trans halive)
  have last := eachLane_falls (c := c) hag F r (fun b hb => ⟨hmem b (.inr hb), other (hfails' b hb)⟩) (F ag (s.view ag) v)
    (fun b hb hl => by
      rw [hF v seen b (hmem b (.inr hb)) (other (hfails' b hb)) hl]
      simpa using hfails' b hb)
  have whole : u.endBlock h c F = eachLane r (h.ends c F) (F ag (s.view ag) v) := calc
    _ = eachLane (l ++ ag :: r) (h.ends c F) (u.groupDone h) := by rw [← hl]; rfl
    _ = eachLane r (h.ends c F) (h.ends c F ag v) := by
      rw [← hv] at live
      rw [eachLane_around live, hv]
    _ = _ := by rw [Here.ends, seen, if_pos htakes]
  rw [whole]
  exact last

end Sys2Proof.Machine
end

section
/-! PROOF. Barrier words (R169 to R171): tokens, arrivals, tests and waits. -/

namespace Sys2Proof.Machine

/-! Arrivals (R169). -/

theorem arrive_unused {b : BarReg} (h : b.exp = 0) (who : Option Nat) (live : Nat) :
    b.arrive who live = { b with err := true } := if_pos h

/-- An arrival that EXP counts is one more, with which the phase may be complete. -/
theorem arrive_adds {b : BarReg} (h : b.exp ≠ 0) {who : Option Nat} (hwho : ∀ t ∈ who, b.live = false ∨ t ∉ b.late) (live : Nat) :
    ∃ m, b.arrive who live = BarReg.check { b with arr := b.arr + 1, mask := m } live := by
  cases who with
  | none => exact ⟨b.mask, if_neg h⟩
  | some t =>
    refine ⟨if b.mask.contains t then b.mask else t :: b.mask, ?_⟩
    rcases hwho t rfl with hl | hl <;> simp [BarReg.arrive, h, hl]

theorem arrive_counted {b : BarReg} (h : b.exp ≠ 0) {who : Option Nat} (hwho : ∀ t ∈ who, b.live = false ∨ t ∉ b.late) (live : Nat) :
    (b.arrive who live).err = b.err ∧
      if b.arr + 1 = b.exp then (b.arrive who live).gen = b.gen + 1 ∧ (b.arrive who live).arr = 0 ∧
        (b.arrive who live).exp = if b.live then live + b.extra else b.exp
      else (b.arrive who live).gen = b.gen ∧ (b.arrive who live).arr = b.arr + 1 ∧ (b.arrive who live).exp = b.exp := by
  obtain ⟨m, hm⟩ := arrive_adds h hwho live
  rw [hm, BarReg.check]
  by_cases full : b.arr + 1 = b.exp
  · simp [full, h]
  · simp [full]

/-! The words. -/

/-- What BWAIT does in a lane (R170). -/
def Here.bwaitLane (h : Here) (c : Ctl) (i : Fin 16) (d : KDst) (a : Src) (ag : Agent) (v : View) (s : State) : State :=
  let b := s.bar h.pass.team i.val
  let tok := v.src32 a
  if b.err || b.gen != tok then (s.putRegs ag (kWrites d b.err)).setLeave ag (.goto (h.fallThrough c))
  else s.setLeave ag (.block (h.fallThrough c) (.barrier i.val d tok))

theorem bwaitLane_one (h : Here) (c : Ctl) (i : Fin 16) (d : KDst) (a : Src) (team tid : Nat) (v : View) (s : State) :
    OneThread team tid s (h.bwaitLane c i d a (.thread team tid) v s) := by
  unfold Here.bwaitLane
  dsimp only
  split
  · exact (OneThread.putRegs ..).trans (.setLeave ..)
  · exact .setLeave ..

theorem kWrites_take (d : KDst) (b : Bool) : ∀ e ∈ kWrites d b, windowTakes e := by
  cases d with
  | none => simp [kWrites]
  | some r => cases b <;> simp [kWrites, windowTakes, natOfBool]

theorem putRegs_holds {s : State} {team tid : Nat} {l : List (Reg × Word)} (hl : s.alive (.thread team tid) = true)
    (ht : ∀ e ∈ l, windowTakes e) (hn : (l.map (·.1)).Nodup) :
    (s.putRegs (.thread team tid) l).holds (.thread team tid) l :=
  lanePuts_holds s team (tids := [tid]) (fun _ => l) (List.mem_singleton_self tid) hl ht hn

theorem bwaitLane_leaves {h : Here} {c : Ctl} {i : Fin 16} {d : KDst} {a : Src} {team tid : Nat} {v : View} {s : State}
    (hl : s.alive (.thread team tid) = true) :
    let t := h.bwaitLane c i d a (.thread team tid) v s
    let b := s.bar h.pass.team i.val
    if b.err = true ∨ b.gen ≠ v.src32 a then
      t.leaveOf (.thread team tid) = some (.goto (h.fallThrough c)) ∧ t.holds (.thread team tid) (kWrites d b.err)
    else t.leaveOf (.thread team tid) = some (.block (h.fallThrough c) (.barrier i.val d (v.src32 a))) := by
  intro t b
  unfold t Here.bwaitLane
  simp only [Bool.or_eq_true, bne_iff_ne]
  have holds := putRegs_holds (l := kWrites d b.err) hl (kWrites_take d b.err) (by cases d <;> simp [kWrites])
  by_cases hb : b.err = true ∨ b.gen ≠ v.src32 a
  · rw [if_pos hb, if_pos hb]
    refine ⟨setLeave_leaveOf _ _ ?_, fun e he => ?_⟩
    · rw [putRegs_thread, OneThread.alive_modThread]; exact hl
    · rw [(setLeave_only ..).view]
      exact holds e he
  · rw [if_neg hb, if_neg hb]
    exact setLeave_leaveOf _ _ hl

/-- R171: an access of a lane that takes the word holds its arrival back. -/
theorem execBarv_waits {d : Dst} {a : Agent} {c : Ctl} {i : Fin 16} {s : State} {h : Here} (hr : Ready (.barv c false i d) s h) (ha : a ∈ h.taking c s)
    (hout : s.outstanding a ≠ []) : exec (.barv c false i d) s = .next s := by
  have waits : (h.taking c (s.issued h (.barv c false i d) c)).any (fun a =>
      !((s.issued h (.barv c false i d) c).outstanding a).isEmpty) = true := by
    rw [issued_taking, List.any_eq_true]
    exact ⟨a, ha, by simpa using hout⟩
  refine (issue_ready hr _).trans ?_
  rw [waits]
  rfl

section Words
variable {c : Ctl} {i : Fin 16} {s : State} {h : Here} {tid : Nat} (hone : Alone h c s (.thread h.pass.team tid))
include hone

/-- BARV that may take effect: GEN is on its way, and unless it peeks the thread arrives. -/
theorem execBarv_gives {peek : Bool} {d : Dst} (hr : Ready (.barv c peek i d) s h)
    (hout : peek = true ∨ s.outstanding (.thread h.pass.team tid) = []) :
    let t := (s.issued h (.barv c peek i d) c).later (.thread h.pass.team tid)
      (dstWrites d false ((s.bar h.pass.team i.val).gen.setWidth 64))
    exec (.barv c peek i d) s = .next (if peek then t
      else t.modBar h.pass.team i.val (fun b => b.arrive (some tid) (s.liveCount h.pass.team))) := by
  intro t
  have waits : (!peek && (h.taking c (s.issued h (.barv c peek i d) c)).any (fun a =>
      !((s.issued h (.barv c peek i d) c).outstanding a).isEmpty)) = false := by
    simp only [issued_taking, issued_outstanding, hone.takes]
    rcases hout with rfl | hout <;> simp_all
  have count : t.liveCount h.pass.team = s.liveCount h.pass.team := liveCount_congr (later_keys ..) _
  refine issue_done hr ?_
  rw [waits, eachLane_alone hone, ← count]
  cases peek <;> rfl

theorem execBtest_gives {err : Bool} {d : KDst} {a : Src} (hr : Ready (.btest c err i d a) s h) :
    let b := s.bar h.pass.team i.val
    exec (.btest c err i d a) s = .next ((s.issued h (.btest c err i d a) c).later (.thread h.pass.team tid)
      (kWrites d (if err then b.err else b.gen != (s.view (.thread h.pass.team tid)).src32 a))) := by
  refine issue_done hr ?_
  rw [eachLane_alone hone, issued_view]
  rfl

/-- BWAIT that goes on, or is blocked, in the one lane that takes it. -/
theorem execBwait_leaves {d : KDst} {a : Src} (hr : Ready (.bwait c i d a) s h) :
    let b := s.bar h.pass.team i.val
    let tok := (s.view (.thread h.pass.team tid)).src32 a
    let fall := h.fallThrough c
    nextWith (exec (.bwait c i d a) s) (fun t => ended h t ∧
      t = { s with threads := t.threads, passes := t.passes, perf := t.perf } ∧
      if b.err = true ∨ b.gen ≠ tok then
        t.leaveOf (.thread h.pass.team tid) = some (.goto fall) ∧ t.holds (.thread h.pass.team tid) (kWrites d b.err)
      else t.leaveOf (.thread h.pass.team tid) = some (.block fall (.barrier i.val d tok))) := by
  intro b tok fall
  obtain ⟨v, before, after⟩ := endBlock_alone (u := s.issued h (.bwait c i d a) c) hone (h.bwaitLane c i d a) (issued_view s h _ c)
    ((issued_alive ..).trans hone.alive) (fun v hv b hb hne _ => ((bwaitLane_one ..).view hone.mem hb hne).trans (hv b))
  have leaves := bwaitLane_leaves (h := h) (c := c) (i := i) (d := d) (a := a) (v := s.view (.thread h.pass.team tid))
    (((before.alive _).trans (groupDone_alive ..)).trans ((issued_alive ..).trans hone.alive))
  have one := bwaitLane_one h c i d a h.pass.team tid (s.view (.thread h.pass.team tid)) v
  have hended := before.ended (groupDone_ended hr.here (.bwait c i d a) c)
  have hi := before.of_issued
  have hexec : exec (.bwait c i d a) s = .next ((s.issued h (.bwait c i d a) c).endBlock h c (h.bwaitLane c i d a)) :=
    issue_done hr rfl
  generalize State.endBlock (s.issued h (.bwait c i d a) c) h c (h.bwaitLane c i d a) = t at after hexec
  generalize h.bwaitLane c i d a (.thread h.pass.team tid) (s.view (.thread h.pass.team tid)) v = w at after leaves one
  refine ⟨t, hexec, after.ended (ended_congr (by rw [one.rest]) hended), by rw [after.rest, one.rest, hi], ?_⟩
  have bar : v.bar h.pass.team i.val = b := by rw [hi]; rfl
  simp only [State.holds, after.view, after.leaveOf]
  rw [bar] at leaves
  exact leaves

end Words

end Sys2Proof.Machine
end

namespace Sys2Proof
open Machine

/-- Settles O14: what BARV, BTEST and BWAIT make of a barrier register and of the thread. -/
theorem barrierWords : Obligations.BarrierWords := by
  refine ⟨?_, fun c i d s h a hr ha hout => execBarv_waits hr ha hout⟩
  intro c f i d kd a s h tid ag b fall hone
  refine ⟨fun hr hout => ?_, fun hr => ?_, fun hr => execBwait_leaves hone hr⟩
  · obtain ⟨hm, -, -, -⟩ := place_spec (here_spec hr.here).2.2.2.1
    have hexec := execBarv_gives hone hr hout
    have hi := issued_rest s h (.barv c f i d) c
    have hmoved := issued_moves hr.here (.barv c f i d) c
    generalize s.issued h (.barv c f i d) c = u at hi hmoved hexec
    have rest := later_thread_rest u h.pass.team tid (dstWrites d false ((s.bar h.pass.team i.val).gen.setWidth 64))
    have coming := coming_later u (.thread h.pass.team tid) (dstWrites d false ((s.bar h.pass.team i.val).gen.setWidth 64))
    dsimp only at rest hexec
    generalize u.later (.thread h.pass.team tid) (dstWrites d false ((s.bar h.pass.team i.val).gen.setWidth 64)) = t
      at rest coming hexec
    have hmt : tget t.teams h.pass.team = some h.place.team := by rw [rest, hi]; exact hm
    have bar : t.bar h.pass.team i.val = b := (bar_eq hmt i.isLt).trans (bar_eq hm i.isLt).symm
    have hmoved : movedOn h c t := movedOn_congr (by rw [rest]) hmoved
    have hbm : t.hbm = s.hbm := by rw [rest, hi]
    have host : t.hostMem = s.hostMem := by rw [rest, hi]
    refine ⟨_, hexec, ?_⟩
    cases f with
    | true => exact ⟨coming, hbm, host, hmoved, bar⟩
    | false =>
      refine ⟨coming, hbm, host, hmoved, ?_⟩
      simp only [Bool.false_eq_true, if_false]
      rw [bar_modBar hmt i.isLt, bar]
      by_cases h0 : b.exp = 0
      · rw [if_pos h0]
        exact arrive_unused h0 ..
      · rw [if_neg h0]
        intro hlate
        exact (arrive_counted h0 (by simpa using hlate) _).2
  · have flag : decide (b.gen ≠ (s.view ag).src32 a) = (b.gen != (s.view ag).src32 a) := by
      rw [Bool.eq_iff_iff]
      simp
    obtain ⟨moved, coming, only⟩ := later_only (i := .btest c f i kd a) (c := c) hr.here ag
      (kWrites kd (if f then b.err else b.gen != (s.view ag).src32 a))
    rw [flag]
    exact ⟨_, execBtest_gives hone hr, coming, only, moved⟩

end Sys2Proof

section
/-! PROOF. Threads that end and start (R162 to R164). -/

namespace Sys2Proof.Machine

theorem tget_map {α β : Type} (t : Table α) (f : α → β) (k : Nat) : tget (t.map (fun e => (e.1, f e.2))) k = (tget t k).map f := by
  induction t with
  | nil => rfl
  | cons e t ih =>
    simp only [List.map_cons, tget]
    split
    · rfl
    · exact ih

/-! EXIT (R162). -/

/-- A group without one of its lanes. -/
def Group.without (g : Group) (tid : Nat) : Group := { g with lanes := g.lanes.filter (fun t => t != tid) }

/-- A pass of the team, without one of its threads. -/
def Pass.without (p : Pass) (team tid : Nat) : Pass :=
  if p.team = team then { p with groups := p.groups.map (fun e => (e.1, e.2.without tid)) } else p

theorem leaveGroups_passes (s : State) (team tid : Nat) :
    (s.leaveGroups team tid).passes = s.passes.map (fun e => (e.1, e.2.without team tid)) := by
  refine List.map_congr_left (fun e _ => ?_)
  unfold Pass.without
  split <;> rfl

theorem without_done (p : Pass) (team tid gid : Nat) :
    (tget (p.without team tid).groups gid).map (·.done) = (tget p.groups gid).map (·.done) := by
  unfold Pass.without
  split
  · rw [tget_map _ (fun g : Group => g.without tid), Option.map_map]
    rfl
  · rfl

theorem leaveGroups_ended {s : State} {h : Here} (he : ended h s) (team tid : Nat) : ended h (s.leaveGroups team tid) := by
  unfold ended at *
  rw [leaveGroups_passes, tget_map _ (fun p : Pass => p.without team tid), ← he]
  cases tget s.passes h.pid with
  | none => rfl
  | some p => exact without_done ..

/-- What the end of a thread may change at all. -/
theorem endThread_rest (s : State) (team tid : Nat) (stopped : Bool) : let t := s.endThread team tid stopped
    t = { s with
      threads := tdel s.threads (tkey team tid), passes := (s.leaveGroups team tid).passes, pends := t.pends, copies := t.copies,
      bankOps := t.bankOps, pageReqs := t.pageReqs, tries := t.tries, waves := t.waves, teams := t.teams, launches := t.launches } := by
  intro t
  unfold t State.endThread
  dsimp only
  split <;> rfl

/-- The team departs its barriers. -/
theorem endThread_teams (s : State) (team tid : Nat) (stopped : Bool) :
    ∃ live, (s.endThread team tid stopped).teams =
      tmod s.teams team (fun m => { m with bar := m.bar.map (fun b => b.depart tid stopped live) }) := by
  unfold State.endThread
  dsimp only
  split <;> exact ⟨_, rfl⟩

/-- Its launch counts it. -/
theorem endThread_launches {s : State} {team : Nat} {m : Team} (hm : tget s.teams team = some m) (tid : Nat) (stopped : Bool) :
    (s.endThread team tid stopped).launches =
      tmod s.launches m.launch (fun l => if stopped then { l with stops := l.stops + 1 } else { l with exits := l.exits + 1 }) := by
  unfold State.endThread
  dsimp only
  split
  · next m' hm' =>
    have same : m'.launch = m.launch := by
      simp only [State.modTeam, tget_tmod_self] at hm'
      change (tget s.teams team).map _ = _ at hm'
      rw [hm] at hm'
      cases hm'
      rfl
    rw [← same]
    rfl
  · next hn =>
    simp only [State.modTeam, tget_tmod_self] at hn
    change (tget s.teams team).map _ = _ at hn
    rw [hm] at hn
    cases hn

/-- What EXIT does in a lane. -/
def Here.exitLane (h : Here) (ag : Agent) (_ : View) (s : State) : State :=
  let out (team : Nat) (s : State) : State := s.modTeam team (fun t => { t with lastOff := h.group.off })
  match ag with
  | .thread team tid => out team (s.endThread team tid false)
  | .uniform team => out team ((s.liveTids team).foldl (fun s t => s.endThread team t false) s)

theorem modTeam_files (s : State) (team : Nat) {f : Team → Team} (hf : ∀ m, (f m).files = m.files) (k : Nat) :
    (tget (s.modTeam team f).teams k).map Team.files = (tget s.teams k).map Team.files := by
  rw [State.modTeam, tget_tmod]
  split
  · next e =>
    subst e
    rw [Option.map_map]
    exact congrArg (Option.map · _) (funext hf)
  · rfl

/-- The end of a thread leaves the other threads, what the teams' agents read, memory, and the group that has ended. -/
structure EndsThread (h : Here) (team tid : Nat) (s t : State) : Prop where
  threads : t.threads = tdel s.threads (tkey team tid)
  files : ∀ k, (tget t.teams k).map Team.files = (tget s.teams k).map Team.files
  hbm : t.hbm = s.hbm
  hostMem : t.hostMem = s.hostMem
  ended : Machine.ended h s → Machine.ended h t

theorem endThread_leaves (h : Here) (s : State) (team tid : Nat) (stopped : Bool) :
    EndsThread h team tid s (s.endThread team tid stopped) := by
  obtain ⟨live, teams⟩ := endThread_teams s team tid stopped
  have rest := endThread_rest s team tid stopped
  have files := modTeam_files s team (f := fun m => { m with bar := m.bar.map (fun b => b.depart tid stopped live) }) (fun _ => rfl)
  generalize s.endThread team tid stopped = t at rest teams
  refine ⟨by rw [rest], fun k => by rw [teams]; exact files k, by rw [rest], by rw [rest], fun he => ?_⟩
  exact ended_congr (by rw [rest]) (leaveGroups_ended he team tid)

namespace EndsThread

variable {h : Here} {team tid : Nat} {s t : State} (he : EndsThread h team tid s t)
include he

theorem gone : t.thread team tid = none := by
  rw [State.thread, he.threads, tget_tdel_self]

theorem others {k : Nat} (hk : k ≠ tkey team tid) : tget t.threads k = tget s.threads k := by
  rw [he.threads, tget_tdel_ne _ hk]

theorem lastOff (off : Nat) : EndsThread h team tid s (t.modTeam team (fun m => { m with lastOff := off })) :=
  ⟨he.threads, fun k => (modTeam_files _ _ (by exact fun _ => rfl) k).trans (he.files k), he.hbm, he.hostMem, fun hs =>
    ended_congr rfl (he.ended hs)⟩

theorem view {h' : Here} (hag : .thread team tid ∈ h'.agents) {b : Agent} (hb : b ∈ h'.agents) (hne : b ≠ .thread team tid) :
    t.view b = s.view b := view_otherLane hag hb hne (fun _ hk => he.others hk) he.files

end EndsThread

theorem groupDone_threads (s : State) (h : Here) : (s.groupDone h).threads = s.threads := rfl

/-- EXIT of a thread. -/
theorem execExit_thread {c : Ctl} {s : State} {h : Here} {team tid : Nat} (hr : Ready (.exit c) s h)
    (hone : Alone h c s (.thread team tid)) :
    nextWith (exec (.exit c) s) (fun t => ended h t ∧ t.hbm = s.hbm ∧ t.hostMem = s.hostMem ∧ t.thread team tid = none ∧
      (∀ q i, (q, i) ≠ (team, tid) → i < 8192 → tid < 8192 → (t.thread q i).map (·.win) = (s.thread q i).map (·.win)) ∧
      (tget t.launches h.place.team.launch).map (·.exits) = some (h.place.launch.exits + 1)) := by
  obtain rfl : team = h.pass.team := by
    rcases agents_cases hone.mem with ⟨-, e⟩ | ⟨-, i, e⟩ <;> cases e
    rfl
  obtain ⟨hm, -, hl, -⟩ := place_spec (here_spec hr.here).2.2.2.1
  have lane (v : State) : EndsThread h h.pass.team tid v (h.exitLane (.thread h.pass.team tid) (s.view (.thread h.pass.team tid)) v) :=
    (endThread_leaves h v h.pass.team tid false).lastOff h.group.off
  obtain ⟨v, before, after⟩ := endBlock_alone (u := s.issued h (.exit c) c) hone h.exitLane (issued_view s h _ c)
    ((issued_alive ..).trans hone.alive) (fun v hv b hb hne _ => ((lane v).view hone.mem hb hne).trans (hv b))
  have hended := before.ended (groupDone_ended hr.here (.exit c) c)
  have hi := before.of_issued
  have counts : (h.exitLane (.thread h.pass.team tid) (s.view (.thread h.pass.team tid)) v).launches =
      tmod v.launches h.place.team.launch (fun l => { l with exits := l.exits + 1 }) :=
    endThread_launches (by rw [hi]; exact hm) tid false
  have ends := lane v
  have wins (k : Nat) : (tget v.threads k).map (·.win) = (tget s.threads k).map (·.win) := by
    rw [before.part (·.win) (fun _ => rfl), groupDone_threads, issued_threads]
  have hexec : exec (.exit c) s = .next ((s.issued h (.exit c) c).endBlock h c h.exitLane) := issue_done hr rfl
  generalize State.endBlock (s.issued h (.exit c) c) h c h.exitLane = t at after hexec
  generalize h.exitLane (.thread h.pass.team tid) (s.view (.thread h.pass.team tid)) v = w at after ends counts
  have gone : t.thread h.pass.team tid = none := (after.mine h.pass.team tid rfl).trans ends.gone
  have hended := after.ended (ends.ended hended)
  refine ⟨t, hexec, hended, ?_, ?_, gone, fun q i hne hi' ht => ?_, ?_⟩
  · rw [after.rest, ends.hbm, hi]
  · rw [after.rest, ends.hostMem, hi]
  · have key : tkey q i ≠ tkey h.pass.team tid := fun hk => hne (by
      unfold tkey at hk
      exact Prod.ext (by show q = _; omega) (by show i = _; omega))
    exact (after.part (·.win) (fun _ => rfl) _).trans ((congrArg _ (ends.others key)).trans (wins _))
  · rw [after.rest, counts, tget_tmod_self, hi, hl]
    rfl

/-! EXIT of a team. -/

/-- One thread, and then others, have ended. -/
theorem ThreadsEnd.cons {team tid : Nat} {tids : List Nat} {s t u : State} (one : ThreadsEnd team [tid] s t)
    (rest : ThreadsEnd team tids t u) : ThreadsEnd team (tid :: tids) s u := by
  refine ⟨one.device.trans rest.device, fun e he => ?_, fun q => (rest.teams q).trans (one.teams q)⟩
  obtain ⟨mem, others⟩ := rest.threads e he
  obtain ⟨old, ne⟩ := one.threads e mem
  exact ⟨old, List.forall_mem_cons.mpr ⟨ne tid (List.mem_singleton_self tid), others⟩⟩

/-- The end of some threads of a team leaves memory, and the group that has ended. -/
theorem endThreads_leave (h : Here) (team : Nat) (tids : List Nat) (s : State) :
    let t := tids.foldl (fun s i => s.endThread team i false) s
    ThreadsEnd team tids s t ∧ t.hbm = s.hbm ∧ t.hostMem = s.hostMem ∧ (ended h s → ended h t) := by
  induction tids generalizing s with
  | nil => exact ⟨⟨⟨rfl, rfl, rfl, rfl, fun _ => rfl, fun _ => rfl⟩, fun e he => ⟨he, by simp⟩, fun _ => rfl⟩, rfl, rfl, id⟩
  | cons tid tids ih =>
    obtain ⟨ends, hbm, host, done⟩ := ih (s.endThread team tid false)
    have one := endThread_leaves h s team tid false
    exact ⟨(endThread_ends s team tid false).cons ends, hbm.trans one.hbm, host.trans one.hostMem, fun he => done (one.ended he)⟩

/-- EXIT in a uniform block. -/
theorem execExit_uniform {c : Ctl} {s : State} {h : Here} {team : Nat} (hr : Ready (.exit c) s h)
    (hone : Alone h c s (.uniform team)) :
    nextWith (exec (.exit c) s) (fun t => ended h t ∧ t.hbm = s.hbm ∧ t.hostMem = s.hostMem ∧ t.liveTids team = []) := by
  obtain ⟨v, before, after⟩ := endBlock_alone (u := s.issued h (.exit c) c) hone h.exitLane (issued_view s h _ c)
    ((issued_alive ..).trans hone.alive) (fun v hv b hb hne _ => by
      rcases agents_cases hone.mem with ⟨hu, e⟩ | ⟨-, i, e⟩
      · rcases agents_cases hb with ⟨-, rfl⟩ | ⟨hu', -⟩
        · exact absurd e.symm hne
        · simp [hu] at hu'
      · cases e)
  have hended := before.ended (groupDone_ended hr.here (.exit c) c)
  have hi := before.of_issued
  obtain ⟨ends, hbm, host, done⟩ := endThreads_leave h team (v.liveTids team) v
  have hexec : exec (.exit c) s = .next ((s.issued h (.exit c) c).endBlock h c h.exitLane) := issue_done hr rfl
  generalize State.endBlock (s.issued h (.exit c) c) h c h.exitLane = t at after hexec
  have lane : h.exitLane (.uniform team) (s.view (.uniform team)) v =
    ((v.liveTids team).foldl (fun s i => s.endThread team i false) v).modTeam team (fun m => { m with lastOff := h.group.off }) := rfl
  rw [lane] at after
  generalize (v.liveTids team).foldl (fun s i => s.endThread team i false) v = w at after ends hbm host done
  refine ⟨t, hexec, after.ended (ended_congr rfl (done hended)), ?_, ?_, ?_⟩
  · have kept : v.hbm = s.hbm := by rw [hi]
    rw [after.rest, ← kept, ← hbm]
    rfl
  · have kept : v.hostMem = s.hostMem := by rw [hi]
    rw [after.rest, ← kept, ← host]
    rfl
  · have none : w.liveTids team = [] := liveTids_of_none (threadsEnd_all ends)
    exact (after.liveTids team).trans none


/-! SPAWN (R163, R164). -/

theorem setPends_oneThread (s : State) (team tid : Nat) (l : List Reg) (b : Bool) :
    OneThread team tid s (s.setPends (.thread team tid) l b) := by
  unfold State.setPends
  induction l generalizing s with
  | nil => exact .refl ..
  | cons r l ih =>
    rw [List.foldl_cons]
    refine .trans ?_ (ih _)
    cases r <;> first | exact .modThread .. | exact .refl ..

/-- A result on its way to a thread touches no other. -/
theorem later_otherThreads (s : State) (team tid : Nat) (l : List (Reg × Word)) {k : Nat} (hk : k ≠ tkey team tid) :
    tget (s.later (.thread team tid) l).threads k = tget s.threads k := by
  unfold State.later
  rw [(pend_spec ..).2]
  exact (setPends_oneThread ..).others k hk

/-- The lowest free index. -/
theorem freeTid_some {s : State} {team cap i : Nat} (hi : i < cap) (hfree : s.thread team i = none)
    (lowest : ∀ j, j < cap ∧ s.thread team j = none → i ≤ j) : s.freeTid team cap = some i := by
  unfold State.freeTid
  rw [List.find?_range_eq_some]
  refine ⟨by simp [hfree], List.mem_range.mpr hi, fun j hj => ?_⟩
  have taken : s.thread team j ≠ none := fun hn => absurd (lowest j ⟨by omega, hn⟩) (by omega)
  cases h : s.thread team j with
  | none => exact absurd h taken
  | some u => rfl

theorem freeTid_none {s : State} {team cap : Nat} (full : ∀ i, ¬ (i < cap ∧ s.thread team i = none)) :
    s.freeTid team cap = none := by
  unfold State.freeTid
  rw [List.find?_eq_none]
  intro i hi hn
  exact full i ⟨List.mem_range.mp hi, Option.isNone_iff_eq_none.mp hn⟩

/-- A run of registers as a thread starts with it (R164). -/
def spawnRun (v : View) (a n : Nat) : Vector Word 64 :=
  (List.range n).foldl (fun (r : Vector Word 64) j => r.setIfInBounds j (v.reg (.x (a + j)))) (Vector.replicate 64 0)

theorem spawnRun_get (v : View) (a n : Nat) (r : Nat) (hr : r < 64) :
    (spawnRun v a n)[r] = if r < n then v.reg (.x (a + r)) else 0 := by
  unfold spawnRun
  induction n with
  | zero => simp
  | succ n ih =>
    rw [List.range_succ, List.foldl_append, List.foldl_cons, List.foldl_nil, Vector.getElem_setIfInBounds, ih]
    by_cases hn : n = r
    · simp [hn]
    · simp only [hn, if_false]
      congr 1
      apply propext
      omega

/-- A thread that has just been spawned (R164). -/
def Thread.spawn (e : Nat) (xs : Vector Word 64) (joins : Table Nat) : Thread :=
  { Thread.start (.waiting e) with x := xs, spawned := true, joins := joins }

/-- The state with it in its team. -/
def Here.starts (h : Here) (s : State) (i e : Nat) (xs : Vector Word 64) : State :=
  let s' : State := { s with
    threads := tset s.threads (tkey h.pass.team i) (.spawn e xs (s.wave h.pass.team (i / 32)).opened) }
  (s'.modTeam h.pass.team (fun u => { u with bar := u.bar.map (fun b =>
    if b.live then { b with late := i :: b.late } else b) })).openBin h.place h.pass.team i e

theorem openBin_rest (s : State) (p : Place) (team tid off : Nat) :
    s.openBin p team tid off = { s with cands := (s.openBin p team tid off).cands } := by
  unfold State.openBin State.modCand
  dsimp only
  split <;> rfl

theorem starts_rest (h : Here) (s : State) (i e : Nat) (xs : Vector Word 64) : let t := h.starts s i e xs
    t = { s with threads := t.threads, teams := t.teams, cands := t.cands } ∧
      t.thread h.pass.team i = some (.spawn e xs (s.wave h.pass.team (i / 32)).opened) := by
  intro t
  unfold t Here.starts
  dsimp only
  rw [openBin_rest]
  exact ⟨rfl, tget_tset_self ..⟩

theorem execSpawn_starts {c : Ctl} {n : Fin 17} {d : Dst} {a : Fin 64} {k : Blk} {s : State} {h : Here} {e : Block} {tid i : Nat}
    (hr : Ready (.spawn c n d a k) s h) (hone : Alone h c s (.thread h.pass.team tid))
    (he : h.place.image.blocks[k.index]? = some e) (hi : s.freeTid h.pass.team h.place.image.threads = some i) :
    exec (.spawn c n d a k) s = .next ((h.starts (s.issued h (.spawn c n d a k) c) i e.off
      (spawnRun (s.view (.thread h.pass.team tid)) a.val n.val)).later (.thread h.pass.team tid)
        (dstWrites d false (BitVec.ofNat 64 i))) := by
  have entry : h.entry k = some e.off := by rw [Here.entry, he]; rfl
  have free : (s.issued h (.spawn c n d a k) c).freeTid h.pass.team h.place.image.threads = some i := hi
  refine issue_done hr ?_
  rw [entry]
  dsimp only
  rw [eachLane_alone hone, free, issued_view]
  rfl

theorem execSpawn_full {c : Ctl} {n : Fin 17} {d : Dst} {a : Fin 64} {k : Blk} {s : State} {h : Here} {e : Block} {tid : Nat}
    (hr : Ready (.spawn c n d a k) s h) (hone : Alone h c s (.thread h.pass.team tid))
    (he : h.place.image.blocks[k.index]? = some e) (hi : s.freeTid h.pass.team h.place.image.threads = none) :
    exec (.spawn c n d a k) s = .next ((s.issued h (.spawn c n d a k) c).later (.thread h.pass.team tid)
      (dstWrites d false 0xFFFFFFFF)) := by
  have entry : h.entry k = some e.off := by rw [Here.entry, he]; rfl
  have free : (s.issued h (.spawn c n d a k) c).freeTid h.pass.team h.place.image.threads = none := hi
  refine issue_done hr ?_
  rw [entry]
  dsimp only
  rw [eachLane_alone hone, free]

end Sys2Proof.Machine

namespace Sys2Proof
open Machine

/-- Settles O12: a thread that ends is gone and counted, a team's end leaves none, and SPAWN starts the lowest free index. -/
theorem threadsEndAndStart : Obligations.ThreadsEndAndStart := by
  refine ⟨?_, ?_⟩
  · intro c s h a hr hone
    cases a with
    | thread team tid => exact execExit_thread hr hone
    | uniform team => exact execExit_uniform hr hone
  · intro c n d a k s h tid e ag hr hone he free
    refine ⟨fun i hfree lowest => ?_, fun full => ?_⟩
    · have hexec := execSpawn_starts hr hone he (freeTid_some hfree.1 hfree.2 lowest)
      have hi := issued_rest s h (.spawn c n d a k) c
      have hmoved := issued_moves hr.here (.spawn c n d a k) c
      generalize s.issued h (.spawn c n d a k) c = u at hi hmoved hexec
      obtain ⟨starts, new⟩ := starts_rest h u i e.off (spawnRun (s.view ag) a.val n.val)
      generalize h.starts u i e.off (spawnRun (s.view ag) a.val n.val) = v at starts new hexec
      have rest := later_thread_rest v h.pass.team tid (dstWrites d false (BitVec.ofNat 64 i))
      have coming := coming_later v ag (dstWrites d false (BitVec.ofNat 64 i))
      have hne : tkey h.pass.team i ≠ tkey h.pass.team tid := by
        intro hk
        have alive : (s.thread h.pass.team tid).isSome = true := hone.alive
        have none : s.thread h.pass.team tid = none := by rw [State.thread, ← hk]; exact hfree.2
        simp [none] at alive
      have others := later_otherThreads v h.pass.team tid (dstWrites d false (BitVec.ofNat 64 i)) hne
      dsimp only at rest
      generalize v.later (.thread h.pass.team tid) (dstWrites d false (BitVec.ofNat 64 i)) = t at rest coming others hexec
      refine ⟨t, hexec, coming, ?_, ?_, movedOn_congr ?_ hmoved, _, others.trans new, rfl, rfl, rfl, fun r hlt => spawnRun_get ..⟩
      · rw [rest, starts, hi]
      · rw [rest, starts, hi]
      · rw [rest, starts]
    · obtain ⟨moved, coming, only⟩ := later_only (i := .spawn c n d a k) (c := c) hr.here ag (dstWrites d false 0xFFFFFFFF)
      exact ⟨_, execSpawn_full hr hone he (freeTid_none full), coming, only, moved⟩

end Sys2Proof
end

section
/-! PROOF. Copy requests (R202, R218, R219, R224, R334): how one leaves the unit, and what its last part or count leaves. -/

namespace Sys2Proof.Machine

/-! A request leaves the copy unit (R224). -/

/-- From s to t, no more has changed than requests, their threads' statuses and their barriers: every view and all memory are as
before. -/
structure LeavesUnit (s t : State) : Prop where
  rest : t = { s with copies := t.copies, wbufUses := t.wbufUses, threads := t.threads, teams := t.teams }
  view : ∀ a, t.view a = s.view a

namespace LeavesUnit

theorem trans {s t u : State} (h : LeavesUnit s t) (k : LeavesUnit t u) : LeavesUnit s u :=
  ⟨by rw [k.rest, h.rest], fun a => (k.view a).trans (h.view a)⟩

theorem device {s t : State} (h : LeavesUnit s t) : SameDevice s t := by
  rw [h.rest]
  exact ⟨rfl, rfl, rfl, rfl, fun _ => rfl, fun _ => rfl⟩

theorem setCopies (s : State) (l : Table CopyReq) : LeavesUnit s { s with copies := l } := ⟨rfl, fun _ => rfl⟩

theorem dropCopy (s : State) (id : Nat) (r : CopyReq) : LeavesUnit s (s.dropCopy id r) := by
  unfold State.dropCopy
  dsimp only
  split
  · exact ⟨rfl, fun _ => rfl⟩
  · refine ⟨rfl, view_of_files (fun k => ?_) (fun _ => rfl)⟩
    rw [State.modThread, tget_tmod]
    split
    · next e =>
      subst e
      rw [Option.map_map]
      rfl
    · rfl

theorem modBar (s : State) (team i : Nat) (f : BarReg → BarReg) : LeavesUnit s (s.modBar team i f) := by
  refine ⟨rfl, view_of_files (fun _ => rfl) (modTeam_files s team (fun m => ?_))⟩
  split <;> rfl

theorem endCopy {s : State} {id : Nat} {r : CopyReq} (he : r.ecode = 0)
    (hdown : ∀ m, tget s.teams r.team = some m → s.coreDown m.home = false) : LeavesUnit s (s.endCopy id r) := by
  unfold State.endCopy
  split
  · exact setCopies ..
  split
  · exact dropCopy ..
  rw [if_neg (not_not.mpr he)]
  split
  · next b m _ hm =>
    rw [hdown m hm, if_neg Bool.false_ne_true]
    dsimp only
    split
    · exact dropCopy ..
    · exact (dropCopy ..).trans (modBar ..)
  · exact dropCopy ..

end LeavesUnit

theorem dropCopy_copies (s : State) (id : Nat) (r : CopyReq) : (s.dropCopy id r).copies = tdel s.copies id := by
  unfold State.dropCopy
  dsimp only
  split <;> rfl

theorem dropCopy_teams (s : State) (id : Nat) (r : CopyReq) : (s.dropCopy id r).teams = s.teams := by
  unfold State.dropCopy
  dsimp only
  split <;> rfl

/-- The thread that a request's status goes to, which keeps the statuses it has (R224). -/
structure CopyReq.Issuer (r : CopyReq) (s : State) (tid : Nat) (u : Thread) : Prop where
  issues : r.tid = some tid
  thread : s.thread r.team tid = some u
  keeps : ∀ e ∈ u.copies, u.copySeq ≤ e.seq + 32

theorem dropCopy_status {s : State} {id tid : Nat} {r : CopyReq} {u : Thread} (hi : r.Issuer s tid u) :
    ((s.dropCopy id r).thread r.team tid).map (·.copies) = some (u.copies ++ [⟨r.seq, r.state.code r.ecode, r.done⟩]) := by
  have kept : u.copies.filter (fun e => decide (u.copySeq ≤ e.seq + 32)) = u.copies := by
    rw [List.filter_eq_self]
    simpa using hi.keeps
  have hu := hi.thread
  simp only [State.dropCopy, hi.issues, State.thread, State.modThread, tget_tmod_self] at hu ⊢
  rw [hu, Option.map_some, Option.map_some, kept]

/-- A request in the unit, of a team that is there, in a cluster that is not saved. -/
structure CopyReq.Here (r : CopyReq) (s : State) (id : Nat) (pl : Place) : Prop where
  copy : tget s.copies id = some r
  place : s.place r.team = some pl
  cluster : r.cluster = pl.team.cluster
  saved : pl.cluster.saved = false

/-- A request that has one row to deliver in one place, and nothing amiss. -/
structure CopyReq.OneRow (r : CopyReq) (row : Row) : Prop where
  rows : r.rows = [row]
  pos : r.pos = 0
  buf : r.buf = []
  members : r.members = none
  state : r.state = .queued
  lost : r.lost = false
  flights : r.flights = []
  owed : r.owed = []
  ecode : r.ecode = 0
  cancel : r.cancel = false

/-- A request with nothing left to do and nothing amiss. -/
structure CopyReq.Complete (r : CopyReq) : Prop where
  rows : r.rows = []
  claims : r.claims = []
  flights : r.flights = []
  owed : r.owed = []
  ecode : r.ecode = 0
  cancel : r.cancel = false

namespace CopyReq.Complete

variable {r : CopyReq} (h : r.Complete)
include h

theorem isOver : r.over = true := by simp [CopyReq.over, h.rows, h.claims, h.flights, h.owed]

theorem done : r.done = r.moved := by simp [CopyReq.done, h.flights]

theorem endCopy_barrier {s : State} {id b : Nat} {m : Team} (ht : r.target = .barrier b) (hm : tget s.teams r.team = some m)
    (hdown : s.coreDown m.home = false) (hended : m.ended = false) :
    s.endCopy id r = (s.dropCopy id { r with state := .complete }).modBar r.team b (fun b =>
      b.arrive none ((s.dropCopy id { r with state := .complete }).liveCount r.team)) := by
  simp [State.endCopy, h.isOver, h.cancel, h.ecode, ht, hm, hdown, hended]

theorem endCopy_sync {s : State} {id a : Nat} (ht : r.target = .sync a) :
    s.endCopy id r = s.dropCopy id { r with state := .complete } := by
  simp [State.endCopy, h.isOver, h.cancel, h.ecode, ht]

/-- What is left of it is its status, with its thread. -/
theorem dropCopy_left {s : State} {id tid : Nat} {u : Thread} (hi : r.Issuer s tid u) : let t := s.dropCopy id { r with state := .complete }
    tget t.copies id = none ∧ (t.thread r.team tid).map (·.copies) = some (u.copies ++ [⟨r.seq, 4, r.moved⟩]) := by
  refine ⟨by rw [dropCopy_copies, tget_tdel_self], ?_⟩
  have status := dropCopy_status (id := id) (r := { r with state := .complete }) ⟨hi.issues, hi.thread, hi.keeps⟩
  rwa [show CopyReq.done { r with state := .complete } = r.done from rfl, h.done] at status

end CopyReq.Complete

/-- An arrival of a copy: the register counts it, or has no use for it (R169). -/
theorem arrive_copied (x : BarReg) (live : Nat) : (x.arrive none live).err = (x.err || x.exp == 0) ∧
    (x.arrive none live).gen = (if x.exp ≠ 0 ∧ x.arr + 1 = x.exp then x.gen + 1 else x.gen) ∧
    (x.arrive none live).arr = (if x.exp = 0 then x.arr else if x.arr + 1 = x.exp then 0 else x.arr + 1) := by
  by_cases h0 : x.exp = 0
  · simp [arrive_unused h0, h0]
  · obtain ⟨err, rest⟩ := arrive_counted h0 (who := none) (by simp) live
    by_cases full : x.arr + 1 = x.exp
    · rw [if_pos full] at rest
      simp [err, rest.1, rest.2.1, h0, full]
    · rw [if_neg full] at rest
      simp [err, rest.1, rest.2.1, h0, full]

/-- A request that is complete tells its barrier (R219). -/
theorem endCopy_tells {s : State} {id b tid : Nat} {r : CopyReq} {m : Team} {u : Thread} (h : r.Complete)
    (ht : r.target = .barrier b) (hb : b < 16) (hm : tget s.teams r.team = some m) (hdown : s.coreDown m.home = false)
    (hended : m.ended = false) (hi : r.Issuer s tid u) :
    let t := s.endCopy id r
    let x := s.bar r.team b
    tget t.copies id = none ∧ (t.thread r.team tid).map (·.copies) = some (u.copies ++ [⟨r.seq, 4, r.moved⟩]) ∧
      (t.bar r.team b).err = (x.err || x.exp == 0) ∧
      (t.bar r.team b).gen = (if x.exp ≠ 0 ∧ x.arr + 1 = x.exp then x.gen + 1 else x.gen) ∧
      (t.bar r.team b).arr = (if x.exp = 0 then x.arr else if x.arr + 1 = x.exp then 0 else x.arr + 1) := by
  intro t x
  unfold t
  rw [h.endCopy_barrier ht hm hdown hended]
  obtain ⟨gone, status⟩ := h.dropCopy_left (id := id) hi
  have teams := dropCopy_teams s id { r with state := .complete }
  generalize s.dropCopy id { r with state := .complete } = v at gone status teams
  have hmv : tget v.teams r.team = some m := by rw [teams]; exact hm
  have bar : v.bar r.team b = x := (bar_eq hmv hb).trans (bar_eq hm hb).symm
  rw [bar_modBar hmv hb, bar]
  exact ⟨gone, status, arrive_copied x _⟩

/-! The event (R218). -/

/-- A delivery of a request that has one thing to do. -/
theorem exec_copyDelivery {s : State} {id : Nat} {r : CopyReq} {pl : Place} {m : CopyMove} (h : r.Here s id pl)
    (hmoves : r.moves = [m]) : exec (.copyDelivery id) s = .next (match m with
      | .count a n => s.copyCount id r a n
      | .land f => s.copyLand id r f
      | .tile k => s.placeTile id r k
      | .part row => s.copyPart id r row) := by
  obtain ⟨-, cluster, -, -⟩ := place_spec h.place
  show execCopyDelivery id s = _
  simp only [execCopyDelivery, h.copy, h.cluster, cluster, h.saved, hmoves, State.pick, Bool.false_eq_true, if_false]
  cases m <;> rfl

theorem countCopied_rest (s : State) (r : CopyReq) (n : Nat) :
    s.countCopied r n = { s with perf := (s.countCopied r n).perf } := by
  unfold State.countCopied
  split <;> rfl

/-- The bytes of near or column memory that a part is to read. -/
def State.partOf (s : State) (r : CopyReq) (sp : Space) (a n : Nat) : List Byte :=
  (List.range n).map (fun i => s.clusterByte r.cluster sp (a + i))

/-- A request whose last part has been delivered in the one place it goes to. -/
def CopyReq.delivered (r : CopyReq) (n : Nat) : CopyReq :=
  { r with
    state := .active, buf := [], rows := [], pos := 0, plain := [], moved := r.moved + n
    owed := r.owed ++ r.syncs.map (fun a => (a, n)) }

/-- A request whose last part has been gathered for device memory (R334). -/
def CopyReq.gatheredPart (r : CopyReq) (a : Nat) (b : List Byte) : CopyReq :=
  { r with
    state := .active, buf := [], rows := [], pos := 0, plain := []
    staging := r.staging ++ b.zipIdx.map (fun e => (a + e.2, e.1)), parts := r.parts ++ [(a, b.length)] }

/-- One part from near or column memory is what its row is. -/
theorem copyPart_reads {s : State} {id : Nat} {r : CopyReq} {sp : Space} {sa da len : Nat} (hsp : sp = .near ∨ sp = .col)
    (hpos : r.pos = 0) (hbuf : r.buf = []) (hlen : da % 32 + len ≤ 32) (dst : PSpace) :
    s.copyPart id r ⟨.mem sp, sa, dst, da, len, false⟩ =
      s.copyPut id { r with state := .active, buf := s.partOf r sp sa len } ⟨.mem sp, sa, dst, da, len, false⟩ := by
  have whole : Nat.min (len - r.pos) (32 - (da + r.pos) % 32) = len := by
    rw [hpos, Nat.add_zero, Nat.sub_zero]
    exact Nat.min_eq_left (by omega)
  unfold State.copyPart State.copyFetch
  dsimp only
  rw [whole, hbuf, hpos]
  rcases hsp with rfl | rfl <;> rfl

/-- A part that ends the last row. -/
theorem advance_last {r : CopyReq} {row : Row} (hrows : r.rows = [row]) (hpos : r.pos = 0) {n : Nat} (hlen : row.len = n) :
    r.advance n = { r with buf := [], rows := [], pos := 0, plain := [] } := by
  simp [CopyReq.advance, hrows, hpos, hlen]

theorem copyFinal_ends (s : State) (id : Nat) {r : CopyReq} {row : Row} (hrows : r.rows = [row]) (hpos : r.pos = 0) {n : Nat}
    (hlen : row.len = n) (hstate : r.state = .active) :
    ∃ k, s.copyFinal id r n = State.endCopy { s with perf := k } id (r.delivered n) := by
  refine ⟨(s.countCopied (r.advance n) n).perf, ?_⟩
  rw [← countCopied_rest]
  unfold State.copyFinal State.countMoved CopyReq.delivered
  rw [advance_last hrows hpos hlen, ← hstate]
  rfl

/-- Its last part comes to near or column memory. -/
theorem copyPut_lands {s : State} {id : Nat} {r : CopyReq} {row : Row} {sq : Space} (hrow : row.dst = .mem sq)
    (hsq : sq = .near ∨ sq = .col) (hrows : r.rows = [row]) (hpos : r.pos = 0) (hlen : row.len = r.buf.length)
    (hmembers : r.members = none)
    (hdown : s.memberDown r.cluster (row.da / (if sq = .col then 2 ^ 23 else 2 ^ 19)) = false) (hstate : r.state = .active) :
    ∃ k, s.copyPut id r row =
      State.endCopy { s.clusterWrites r.cluster sq row.da r.buf with perf := k } id (r.delivered r.buf.length) := by
  obtain ⟨k, final⟩ := copyFinal_ends (s.clusterWrites r.cluster sq row.da r.buf) id hrows hpos hlen hstate
  refine ⟨k, ?_⟩
  rw [← final]
  unfold State.copyPut
  rw [hrow, hpos]
  rcases hsq with rfl | rfl <;> dsimp only [Nat.add_zero] <;> rw [hdown, hmembers, if_neg Bool.false_ne_true]

/-- A byte of near or column memory. -/
def Cluster.localByte (k : Cluster) (sp : Space) (a : Nat) : Byte := if sp = .col then k.col.read a else k.near.read a

/-- Bytes written to near or column memory lie there, and no others have changed. -/
theorem clusterWrites_bytes {s : State} {c : Nat} {k : Cluster} (hk : tget s.clusters c = some k) {sq : Space} (a : Nat)
    (l : List Byte) : ∃ k', tget (s.clusterWrites c sq a l).clusters c = some k' ∧
      (∀ i (hi : i < l.length), k'.localByte sq (a + i) = l[i]) ∧
      ∀ sp o, sp = .near ∨ sp = .col → sq = .near ∨ sq = .col → sp ≠ sq ∨ o < a ∨ a + l.length ≤ o →
        k'.localByte sp o = k.localByte sp o := by
  refine ⟨if sq = .col then { k with col := k.col.writeN a l } else { k with near := k.near.writeN a l }, ?_, ?_, ?_⟩
  · rw [State.clusterWrites, State.modCluster, tget_tmod_self, hk]
    rfl
  · intro i hi
    by_cases h : sq = .col <;> simp [Cluster.localByte, h, Mem.read_writeN_inside hi]
  · intro sp o hsp hsq h
    by_cases same : sp = sq
    · subst same
      have out : o < a ∨ a + l.length ≤ o := h.resolve_left (not_not.mpr rfl)
      rcases hsp with rfl | rfl <;> simp [Cluster.localByte, Mem.read_writeN_outside out]
    · rcases hsp with rfl | rfl <;> rcases hsq with rfl | rfl <;> simp_all [Cluster.localByte]

/-- A request whose one part goes from near or column memory to near or column memory. -/
theorem copyPart_lands {s : State} {id : Nat} {r : CopyReq} {pl : Place} {sa da len : Nat} {sp sq : Space}
    (h : r.Here s id pl) (hone : r.OneRow ⟨.mem sp, sa, .mem sq, da, len, false⟩) (hsp : sp = .near ∨ sp = .col)
    (hsq : sq = .near ∨ sq = .col) (hlen : da % 32 + len ≤ 32)
    (hdown : s.memberDown r.cluster (da / (if sq = .col then 2 ^ 23 else 2 ^ 19)) = false) :
    ∃ k c, s.copyPart id r ⟨.mem sp, sa, .mem sq, da, len, false⟩ =
        State.endCopy { s with clusters := c, perf := k } id (r.delivered len) ∧
      ∃ k', tget c r.cluster = some k' ∧
        (∀ i < len, k'.localByte sq (da + i) = pl.cluster.localByte sp (sa + i)) ∧
        ∀ sp' o, sp' = .near ∨ sp' = .col → sp' ≠ sq ∨ o < da ∨ da + len ≤ o → k'.localByte sp' o = pl.cluster.localByte sp' o := by
  obtain ⟨-, cluster, -, -⟩ := place_spec h.place
  rw [← h.cluster] at cluster
  have length : (s.partOf r sp sa len).length = len := by simp [State.partOf]
  obtain ⟨k', hk', inside, outside⟩ := clusterWrites_bytes cluster (sq := sq) da (s.partOf r sp sa len)
  obtain ⟨k, lands⟩ := copyPut_lands (s := s) (id := id) (r := { r with state := .active, buf := s.partOf r sp sa len }) (sq := sq)
    rfl hsq hone.rows hone.pos length.symm hone.members hdown rfl
  refine ⟨k, (s.clusterWrites r.cluster sq da (s.partOf r sp sa len)).clusters, ?_, k', hk', fun i hi => ?_, fun sp' o hsp' out => ?_⟩
  · rw [copyPart_reads hsp hone.pos hone.buf hlen, lands]
    simp only [length]
    rfl
  · rw [inside i (by rw [length]; exact hi)]
    simp [State.partOf, State.clusterByte, cluster, Cluster.localByte]
  · exact outside sp' o hsp' hsq (by rwa [length])

/-- It is delivered, and its target is told (R218, R219). -/
theorem delivers_local {s : State} {id : Nat} {r : CopyReq} {pl : Place} {sa da len tid : Nat} {u : Thread} {sp sq : Space}
    (h : r.Here s id pl) (hone : r.OneRow ⟨.mem sp, sa, .mem sq, da, len, false⟩) (hclaims : r.claims = [])
    (hsp : sp = .near ∨ sp = .col) (hsq : sq = .near ∨ sq = .col) (hlen : da % 32 + len ≤ 32)
    (hdown : s.memberDown r.cluster (da / (if sq = .col then 2 ^ 23 else 2 ^ 19)) = false) (hended : pl.team.ended = false)
    (hhome : s.coreDown pl.team.home = false) :
    nextWith (exec (.copyDelivery id) s) (fun t => t.hbm = s.hbm ∧ t.hostMem = s.hostMem ∧ (∀ a, t.view a = s.view a) ∧
       (∃ k, tget t.clusters r.cluster = some k ∧
         (∀ i < len, k.localByte sq (da + i) = pl.cluster.localByte sp (sa + i)) ∧
         ∀ sp' o, sp' = .near ∨ sp' = .col → sp' ≠ sq ∨ o < da ∨ da + len ≤ o →
           k.localByte sp' o = pl.cluster.localByte sp' o) ∧
       (∀ b, r.target = .barrier b → b < 16 → r.Issuer s tid u → let x := s.bar r.team b
         tget t.copies id = none ∧ (t.thread r.team tid).map (·.copies) = some (u.copies ++ [⟨r.seq, 4, r.moved + len⟩]) ∧
         (t.bar r.team b).err = (x.err || x.exp == 0) ∧
         (t.bar r.team b).gen = (if x.exp ≠ 0 ∧ x.arr + 1 = x.exp then x.gen + 1 else x.gen) ∧
         (t.bar r.team b).arr = (if x.exp = 0 then x.arr else if x.arr + 1 = x.exp then 0 else x.arr + 1)) ∧
       (∀ a, r.target = .sync a → ∃ q, tget t.copies id = some q ∧ q.rows = [] ∧ q.owed = [(a, len)] ∧
         q.moved = r.moved + len)) := by
  obtain ⟨hm, -, -, -⟩ := place_spec h.place
  have moves : r.moves = [.part ⟨.mem sp, sa, .mem sq, da, len, false⟩] := by
    simp [CopyReq.moves, hone.owed, hone.flights, hclaims, hone.rows, hone.state, hone.lost]
  obtain ⟨k, c, lands, bytes⟩ := copyPart_lands (s := s) h hone hsp hsq hlen hdown
  have leaves := LeavesUnit.endCopy (s := { s with clusters := c, perf := k }) (id := id) (r := r.delivered len) hone.ecode
    (fun m e => by
      obtain rfl : pl.team = m := Option.some.inj (hm.symm.trans e)
      exact hhome)
  refine ⟨_, (exec_copyDelivery h moves).trans (congrArg Host.Outcome.next lands), ?_, ?_, leaves.view, ?_, ?_, ?_⟩
  · rw [leaves.rest]
  · rw [leaves.rest]
  · obtain ⟨k', hk', rest⟩ := bytes
    exact ⟨k', by rw [leaves.rest]; exact hk', rest⟩
  · intro b ht hb hi
    have complete : (r.delivered len).Complete :=
      ⟨rfl, hclaims, hone.flights, by simp [CopyReq.delivered, hone.owed, CopyReq.syncs, ht], hone.ecode, hone.cancel⟩
    exact endCopy_tells (s := { s with clusters := c, perf := k }) complete ht hb hm hhome hended ⟨hi.issues, hi.thread, hi.keeps⟩
  · intro a ht
    have owed : (r.delivered len).owed = [(a, len)] := by
      simp [CopyReq.delivered, hone.owed, CopyReq.syncs, ht, hone.members]
    have waits : (r.delivered len).over = false := by simp [CopyReq.over, owed]
    refine ⟨r.delivered len, ?_, rfl, owed, rfl⟩
    unfold State.endCopy
    rw [waits]
    exact tget_tset_self ..

/-! Sync words (R202). -/

/-- A number that a memory holds. -/
def Mem.num (m : Mem) (a n : Nat) : Nat := natOfBytes (m.readN a n)

theorem natOfBytes_lt (l : List Byte) : natOfBytes l < 256 ^ l.length := by
  induction l with
  | nil => simp [natOfBytes]
  | cons b l ih =>
    have byte := b.isLt
    simp only [natOfBytes, List.length_cons, Nat.pow_succ]
    omega

theorem Mem.num_lt (m : Mem) (a n : Nat) : m.num a n < 256 ^ n := by
  simpa [Mem.num, Mem.readN] using natOfBytes_lt (m.readN a n)

/-- A sync word as two numbers of 8 bytes hold it (R201). -/
def SyncWord.ofNums (lo hi : Nat) : SyncWord := ⟨lo % 2 ^ 32, lo / 2 ^ 32, hi % 2 ^ 32, bitOf hi 32, bitsOf hi 35 33⟩

/-- The fields are of their widths. -/
structure SyncWord.Fits (w : SyncWord) : Prop where
  target : w.target < 2 ^ 32
  count : w.count < 2 ^ 32
  gen : w.gen < 2 ^ 32
  ecode : w.ecode < 8

theorem SyncWord.ofNums_fits {lo : Nat} (h : lo < 256 ^ 8) (hi : Nat) : (SyncWord.ofNums lo hi).Fits :=
  ⟨Nat.mod_lt _ (by decide), Nat.div_lt_of_lt_mul (by simpa using h), Nat.mod_lt _ (by decide), Nat.mod_lt _ (by decide)⟩

theorem SyncWord.ofNums_toNums {w : SyncWord} (h : w.Fits) :
    SyncWord.ofNums (w.target + 2 ^ 32 * w.count) (w.gen + 2 ^ 32 * natOfBool w.err + 2 ^ 33 * w.ecode) = w := by
  obtain ⟨target, count, gen, err, ecode⟩ := w
  obtain ⟨ht, hc, hg, he⟩ := h
  simp only at ht hc hg he
  simp only [SyncWord.ofNums, bitOf, bitsOf, natOfBool, SyncWord.mk.injEq]
  refine ⟨by omega, by omega, ?_, ?_, ?_⟩
  · cases err <;> simp <;> omega
  · cases err <;> simp <;> omega
  · cases err <;> simp <;> omega

/-- The bytes that hold a sync word. -/
def SyncWord.bytes (w : SyncWord) : List Byte :=
  bytesOfNat 8 (w.target + 2 ^ 32 * w.count) ++ bytesOfNat 8 (w.gen + 2 ^ 32 * natOfBool w.err + 2 ^ 33 * w.ecode)

theorem SyncWord.bytes_length (w : SyncWord) : w.bytes.length = 16 := by simp [SyncWord.bytes]

theorem Mem.num_writeN (m : Mem) (a : Nat) {o n : Nat} {l : List Byte} (h : o + n ≤ l.length) :
    (m.writeN a l).num (a + o) n = natOfBytes ((l.drop o).take n) := by
  rw [Mem.num, readN_writeN m a h]

/-- A sync word that is written is the one that is there. -/
theorem SyncWord.ofNums_writeN {w : SyncWord} (h : w.Fits) (m : Mem) (a : Nat) :
    SyncWord.ofNums ((m.writeN a w.bytes).num a 8) ((m.writeN a w.bytes).num (a + 8) 8) = w := by
  have hlo := Mem.num_writeN m a (o := 0) (n := 8) (l := w.bytes) (by simp [w.bytes_length])
  have hhi := Mem.num_writeN m a (o := 8) (n := 8) (l := w.bytes) (by simp [w.bytes_length])
  obtain ⟨ht, hc, hg, he⟩ := h
  have lo : natOfBytes ((w.bytes.drop 0).take 8) = w.target + 2 ^ 32 * w.count := by
    rw [List.drop_zero, SyncWord.bytes, List.take_left' (by simp), natOfBytes_bytesOfNat]
    exact Nat.mod_eq_of_lt (by omega)
  have hi : natOfBytes ((w.bytes.drop 8).take 8) = w.gen + 2 ^ 32 * natOfBool w.err + 2 ^ 33 * w.ecode := by
    rw [SyncWord.bytes, List.drop_left' (by simp), List.take_of_length_le (by simp), natOfBytes_bytesOfNat]
    exact Nat.mod_eq_of_lt (by cases w.err <;> simp only [natOfBool, if_true, Bool.false_eq_true, if_false] <;> omega)
  rw [Nat.add_zero] at hlo
  rw [hlo, hhi, lo, hi]
  exact ofNums_toNums ⟨ht, hc, hg, he⟩

theorem homeWrites_near (s : State) (p : Place) (a : Nat) (l : List Byte) :
    s.homeWrites p .near [] a l = s.modCluster p.team.cluster (fun c => { c with near := c.near.writeN a l }) := by
  induction l generalizing s a with
  | nil => exact (congrArg (fun t => ({ s with clusters := t } : State)) (tmod_id s.clusters p.team.cluster)).symm
  | cons b l ih =>
    rw [State.homeWrites, ih]
    exact congrArg (fun t => ({ s with clusters := t } : State)) (tmod_tmod ..)

section Sync
variable {s : State} {p : Place} {k : Cluster} (hk : tget s.clusters p.team.cluster = some k)
include hk

theorem homeByte_near (a : Nat) : s.homeByte p .near a [] = k.near.read a := by
  simp [State.homeByte, hk]

theorem syncWord_eq (a : Nat) : s.syncWord p a = .ofNums (k.near.num a 8) (k.near.num (a + 8) 8) := by
  simp only [State.syncWord, homeByte_near hk, SyncWord.ofNums, Mem.num, Mem.readN, Nat.add_zero]

theorem syncWord_fits (a : Nat) : (s.syncWord p a).Fits := by
  rw [syncWord_eq hk]
  exact SyncWord.ofNums_fits (Mem.num_lt ..) _

theorem setSyncWord_writes (a : Nat) (w : SyncWord) :
    tget (s.setSyncWord p a w).clusters p.team.cluster = some { k with near := k.near.writeN a w.bytes } ∧
      s.setSyncWord p a w = { s with clusters := (s.setSyncWord p a w).clusters } := by
  have writes : s.setSyncWord p a w = s.modCluster p.team.cluster (fun c => { c with near := c.near.writeN a w.bytes }) :=
    homeWrites_near ..
  rw [writes, State.modCluster, tget_tmod_self, hk]
  exact ⟨rfl, rfl⟩

/-- It reads back, and no other byte of near memory has changed. -/
theorem setSyncWord_sets {a : Nat} {w : SyncWord} (h : w.Fits) :
    (s.setSyncWord p a w).syncWord p a = w ∧
      ∀ o, o < a ∨ a + 16 ≤ o → (s.setSyncWord p a w).homeByte p .near o [] = s.homeByte p .near o [] := by
  obtain ⟨writes, -⟩ := setSyncWord_writes hk a w
  refine ⟨(syncWord_eq writes a).trans (SyncWord.ofNums_writeN h k.near a), fun o ho => ?_⟩
  rw [homeByte_near writes, homeByte_near hk]
  exact Mem.read_writeN_outside (by rw [w.bytes_length]; exact ho)

end Sync

/-- What an arrival of n bytes makes of a sync word (R202). -/
theorem SyncWord.arrive_eq (w : SyncWord) (n : Nat) : let c := min (w.count + n) (2 ^ 32 - 1)
    w.arrive n = if w.target ≠ 0 ∧ w.target ≤ c then ⟨0, c - w.target, (w.gen + 1) % 2 ^ 32, w.err, w.ecode⟩
      else { w with count := c } := rfl

theorem SyncWord.arrive_fits {w : SyncWord} (h : w.Fits) (n : Nat) : (w.arrive n).Fits := by
  obtain ⟨ht, hc, hg, he⟩ := h
  have count : min (w.count + n) (2 ^ 32 - 1) < 2 ^ 32 := by omega
  rw [SyncWord.arrive_eq]
  split
  · exact ⟨Nat.two_pow_pos 32, Nat.lt_of_le_of_lt (Nat.sub_le ..) count, Nat.mod_lt _ (by decide), he⟩
  · exact ⟨ht, count, hg, he⟩

/-- A sync word counts a request's last bytes, with which the request is complete. -/
theorem copyCount_last {s : State} {id a n : Nat} {r : CopyReq} {pl : Place} (hp : s.place r.team = some pl)
    (howed : r.owed = [(a, n)]) (hdown : s.memberDown r.cluster (a / 2 ^ 19) = false) :
    s.copyCount id r a n = (s.setSyncWord pl a ((s.syncWord pl a).arrive n)).endCopy id { r with owed := [] } := by
  unfold State.copyCount
  dsimp only
  rw [hdown, if_neg Bool.false_ne_true, hp, howed, List.erase_cons_head]

/-- It has left the unit then, and no other byte of near memory has changed. -/
theorem counts_last {s : State} {id a n tid : Nat} {r : CopyReq} {pl : Place} {u : Thread} (h : r.Here s id pl)
    (hlast : CopyReq.Complete { r with owed := [] }) (howed : r.owed = [(a, n)]) (ht : r.target = .sync a)
    (hdown : s.memberDown r.cluster (a / 2 ^ 19) = false) (hi : r.Issuer s tid u) :
    nextWith (exec (.copyDelivery id) s) (fun t => tget t.copies id = none ∧
      (t.thread r.team tid).map (·.copies) = some (u.copies ++ [⟨r.seq, 4, r.moved⟩]) ∧
      t.syncWord pl a = (s.syncWord pl a).arrive n ∧
      (∀ o, o < a ∨ a + 16 ≤ o → t.homeByte pl .near o [] = s.homeByte pl .near o []) ∧
      t.hbm = s.hbm ∧ t.hostMem = s.hostMem ∧ ∀ b, t.view b = s.view b) := by
  obtain ⟨-, cluster, -, -⟩ := place_spec h.place
  have moves : r.moves = [.count a n] := by
    obtain ⟨rows, claims, flights, -, -, -⟩ := hlast
    simp only at rows claims flights
    simp [CopyReq.moves, howed, flights, claims, rows, List.eraseDups_cons]
  obtain ⟨reads, others⟩ := setSyncWord_sets cluster (a := a) (SyncWord.arrive_fits (syncWord_fits cluster a) n)
  obtain ⟨-, writes⟩ := setSyncWord_writes cluster a ((s.syncWord pl a).arrive n)
  have hexec := exec_copyDelivery h moves
  dsimp only at hexec
  rw [copyCount_last h.place howed hdown, hlast.endCopy_sync ht] at hexec
  generalize s.setSyncWord pl a ((s.syncWord pl a).arrive n) = v at hexec reads others writes
  have threads : v.threads = s.threads := by rw [writes]
  obtain ⟨gone, status⟩ := hlast.dropCopy_left (s := v) (id := id)
    ⟨hi.issues, by rw [State.thread, threads]; exact hi.thread, hi.keeps⟩
  have leaves := LeavesUnit.dropCopy v id { r with owed := [], state := .complete }
  dsimp only at gone status
  generalize v.dropCopy id { r with owed := [], state := .complete } = t at hexec gone status leaves
  have near (o : Nat) : t.homeByte pl .near o [] = v.homeByte pl .near o [] := by
    rw [leaves.rest]
    rfl
  refine ⟨t, hexec, gone, status, ?_, fun o ho => (near o).trans (others o ho), ?_, ?_, fun b => ?_⟩
  · rw [← reads, leaves.rest]
    rfl
  · rw [leaves.rest, writes]
  · rw [leaves.rest, writes]
  · rw [leaves.view, writes]
    rfl

/-! Device memory (R333, R334). -/

/-- A part that goes to device memory is gathered, and its request goes on (R334). -/
theorem gathers_part {s : State} {id : Nat} {r : CopyReq} {pl : Place} {sa da : Nat} {b : List Byte}
    (h : r.Here s id pl) (hone : r.OneRow ⟨.mem .near, sa, .mem .dev, da, b.length, false⟩) (hclaims : r.claims = [da / 512])
    (hstaging : r.staging = []) (hlen : da % 32 + b.length ≤ 32)
    (hread : ∀ i (hi : i < b.length), pl.cluster.near.read (sa + i) = b[i]) :
    nextWith (exec (.copyDelivery id) s) (fun t => t = { s with copies := t.copies } ∧
      ∃ q, tget t.copies id = some q ∧ q.rows = [] ∧ q.staging = b.zipIdx.map (fun e => (da + e.2, e.1)) ∧
        q.claims = [da / 512] ∧ q.moved = r.moved) := by
  obtain ⟨-, cluster, -, -⟩ := place_spec h.place
  have moves : r.moves = [.part ⟨.mem .near, sa, .mem .dev, da, b.length, false⟩] := by
    simp [CopyReq.moves, hone.owed, hone.flights, hclaims, hone.rows, hone.state, hone.lost, CopyReq.gathered, hstaging]
  have part : s.partOf r .near sa b.length = b := by
    refine List.ext_getElem (by simp [State.partOf]) (fun i _ hi => ?_)
    simp [State.partOf, State.clusterByte, h.cluster, cluster, hread i hi]
  have last := advance_last (r := { r with state := .active, buf := b }) hone.rows hone.pos (n := b.length) rfl
  let q : CopyReq := { r with
    state := .active, buf := [], rows := [], pos := 0, plain := []
    staging := b.zipIdx.map (fun e => (da + e.2, e.1)), parts := r.parts ++ [(da, b.length)] }
  have gathers : s.copyPart id r ⟨.mem .near, sa, .mem .dev, da, b.length, false⟩ = s.endCopy id q := by
    rw [copyPart_reads (.inl rfl) hone.pos hone.buf hlen, part]
    unfold State.copyPut
    dsimp only
    rw [last, hone.pos, hstaging]
    rfl
  have waits : q.over = false := by simp [q, CopyReq.over, hclaims]
  have goes : s.endCopy id q = { s with copies := tset s.copies id q } := by
    unfold State.endCopy
    rw [waits]
    rfl
  refine ⟨_, (exec_copyDelivery h moves).trans (congrArg Host.Outcome.next (gathers.trans goes)), rfl, q,
    tget_tset_self .., rfl, rfl, hclaims, rfl⟩

/-- The bytes of a part with their addresses. -/
theorem zipIdx_runCells (a : Nat) (b : List Byte) : b.zipIdx.map (fun e => (a + e.2, e.1)) = runCells (a, b) := by
  refine List.ext_getElem (by simp [runCells]) (fun i h _ => ?_)
  have hi : i < b.length := by simpa using h
  simp [runCells, hi]

/-- The place of an engine that writes for another world. -/
def Place.inWorld (p : Place) (w : Nat) : Place := { p with launch := { p.launch with world := w } }

/-- A request whose last tile has been placed. -/
def CopyReq.placedLast (r : CopyReq) (tile : Nat) : CopyReq :=
  { r with
    staging := [], claims := r.claims.filter (· != tile), parts := r.parts.filter (fun e => e.1 / 512 != tile), marks := []
    tok := 0, moved := r.moved + r.staging.length }

/-- What a request has gathered is written. -/
def State.tileWrites (s : State) (pl : Place) (r : CopyReq) : State :=
  r.staging.foldl (fun s e => s.homeWrite (pl.inWorld r.world) .dev e.1 e.2 []) s

/-- A request, complete but for its one tile, which is gathered whole and which nothing holds back (R212, R325, R333, R357). -/
structure CopyReq.LastTile (r : CopyReq) (s : State) (pl : Place) (id tile : Nat) : Prop where
  rows : r.rows = []
  claims : r.claims = [tile]
  marks : r.marks = []
  flights : r.flights = []
  owed : r.owed = []
  ecode : r.ecode = 0
  cancel : r.cancel = false
  staging : r.staging ≠ [] ∧ ∀ e ∈ r.staging, e.1 / 512 = tile
  claimed : s.claimedBy r.world tile id true = false
  may : s.mayWrite r.world (.copy id tile) (tile * 512) 512 r.record = true
  refused : s.copyRefused r.world (tile * 512) = false
  readOnly : s.readOnly r.world (tile * 512) = false
  rate : (s.slotOf pl.launch).rate = 0

namespace CopyReq.LastTile

variable {s : State} {id tile : Nat} {r : CopyReq} {pl : Place} (h : r.LastTile s pl id tile)
include h

theorem moves : r.moves = [.tile tile] := by
  obtain ⟨e, l, hl⟩ := List.exists_cons_of_ne_nil h.staging.1
  have whole : r.gathered tile = true := by
    have first := h.staging.2 e (by rw [hl]; exact List.mem_cons_self ..)
    simp [CopyReq.gathered, CopyReq.rest, h.rows, hl, first]
  simp [CopyReq.moves, h.owed, h.flights, h.claims, h.rows, whole]

theorem complete : (r.placedLast tile).Complete := by
  refine ⟨h.rows, ?_, h.flights, h.owed, h.ecode, h.cancel⟩
  simp [CopyReq.placedLast, h.claims]

/-- It is written where it lies, with which the request is complete. -/
theorem placeTile {bar : Nat} (here : r.Here s id pl) (ht : r.target = .barrier bar) :
    ∃ q n, s.placeTile id r tile =
      (((s.wrote r.world (.copy id tile)).tileWrites pl r).countCopied q n).endCopy id (r.placedLast tile) := by
  have all : r.staging.filter (fun e => e.1 / 512 == tile) = r.staging := by
    rw [List.filter_eq_self]
    simpa using h.staging.2
  have none : r.staging.filter (fun e => e.1 / 512 != tile) = [] := by
    rw [List.filter_eq_nil_iff]
    simpa using h.staging.2
  have owes (q : CopyReq) (hq : q.target = .barrier bar) (l : List (Nat × Nat)) :
      l.foldl (fun q e => q.owe e.2) q = q := by
    refine List.foldlRecOn l _ (motive := fun u => u = q) rfl (fun u hu e _ => ?_)
    have silent : q.syncs = [] := by simp [CopyReq.syncs, hq]
    rw [hu, CopyReq.owe, silent, List.map_nil, List.append_nil]
  have writes (v : State) : r.staging.foldl (fun s e => (s.devWrite r.world e.1 e.2).placedBy r.world r.cluster e.1) v =
      v.tileWrites pl r := by
    rw [here.cluster]
    rfl
  unfold State.placeTile
  dsimp only
  rw [h.claimed, all, none, here.place]
  simp only [CopyReq.finals, h.marks, List.filter_nil, List.all_nil, List.any_nil, Bool.and_true, h.may, h.refused, h.readOnly,
    gatherTokens_unlimited h.rate, Bool.not_true, Bool.or_false, Bool.false_eq_true, if_false, ne_eq, not_true_eq_false,
    List.foldl_nil, List.map_nil, State.countMoved]
  rw [owes, writes]
  · exact ⟨_, _, rfl⟩
  · exact ht

end CopyReq.LastTile

/-- Its bytes lie in clear memory afterwards, and no others of HBM change. -/
theorem tileWrites_bytes {s : State} {r : CopyReq} {da : Nat} {b : List Byte} (pl : Place) (hb : r.staging = runCells (da, b))
    (hu : s.unsealed r.world) (hc : s.windowsClosed r.world) (ha : (s.devAddr r.world da).isSome = true)
    (hin : da % 512 + b.length ≤ 512) (hfree : ∀ i < b.length, s.readOnly r.world (da + i) = false) :
    let t := s.tileWrites pl r
    (∀ i (hi : i < b.length), t.devByte r.world (da + i) = b[i]) ∧
      ∀ x, (∀ i < b.length, s.devAddr r.world (da + i) ≠ some x) → t.hbm.read x = s.hbm.read x := by
  obtain ⟨p, ha⟩ := Option.isSome_iff_exists.mp ha
  have lies (i : Nat) (hi : i < b.length) : s.devAddr r.world (da + i) = some (p + i) := devAddr_add ha (by omega)
  have lays (i : Nat) (hi : i < b.length) : s.laysAt r.world (da + i) = some (p + i) := by
    rw [State.laysAt, hfree i hi, lies i hi]
    rfl
  have cell (c : Nat × Byte) (hmem : c ∈ runCells (da, b)) : ∃ i, ∃ hi : i < b.length, c = (da + i, b[i]) := by
    obtain ⟨i, hi, rfl⟩ := List.mem_map.mp hmem
    have hi := List.mem_range.mp hi
    exact ⟨i, hi, by simp [List.getElem?_eq_getElem (show i < b.length from hi)]⟩
  have apart : ((runCells (da, b)).map (fun c => s.laysAt r.world c.1)).Nodup := by
    have places : (runCells (da, b)).map (fun c => s.laysAt r.world c.1) = (List.range b.length).map (fun i => some (p + i)) := by
      rw [runCells, List.map_map]
      exact List.map_congr_left (fun i hi => lays i (List.mem_range.mp hi))
    rw [places]
    exact List.nodup_range.map (fun i j e => by simpa using e)
  obtain ⟨l, o, writes⟩ := homeWrites_clear (p := pl.inWorld r.world) hu hc r.staging
  intro t
  have comes : t = { s with hbm := r.staging.foldl (Mem.put (s.laysAt r.world)) s.hbm, shared := l, outbox := o } := writes
  rw [hb] at comes
  refine ⟨fun i hi => ?_, fun x hx => ?_⟩
  · have byte := devByte_unsealed (p := p + i) (s := { s with
      hbm := (runCells (da, b)).foldl (Mem.put (s.laysAt r.world)) s.hbm, shared := l, outbox := o }) hu (lies i hi)
    rw [comes, byte]
    have mem : (da + i, b[i]) ∈ runCells (da, b) :=
      List.mem_map.mpr ⟨i, List.mem_range.mpr hi, by simp [List.getElem?_eq_getElem (show i < b.length from hi)]⟩
    exact read_puts apart mem (lays i hi)
  · rw [comes]
    refine read_puts_outside (fun c hc' e => ?_)
    obtain ⟨i, hi, rfl⟩ := cell c hc'
    exact hx i hi (by rw [lies i hi, ← lays i hi]; exact e)

/-- A request's last tile is placed (R334). -/
theorem places_last {s : State} {id tid bar da : Nat} {r : CopyReq} {pl : Place} {u : Thread} {b : List Byte}
    (h : r.LastTile s pl id (da / 512)) (here : r.Here s id pl) (hb : r.staging = runCells (da, b)) (ht : r.target = .barrier bar)
    (hbar : bar < 16) (hi : r.Issuer s tid u) (hended : pl.team.ended = false) (hhome : s.coreDown pl.team.home = false)
    (hin : da % 512 + b.length ≤ 512) (hfree : ∀ i < b.length, s.readOnly r.world (da + i) = false) :
    nextWith (exec (.copyDelivery id) s) (fun t => tget t.copies id = none ∧
      (t.thread r.team tid).map (·.copies) = some (u.copies ++ [⟨r.seq, 4, r.moved + b.length⟩]) ∧
      (t.bar r.team bar).arr = (let x := s.bar r.team bar; if x.exp = 0 then x.arr else if x.arr + 1 = x.exp then 0 else x.arr + 1) ∧
      t.hostMem = s.hostMem ∧ (∀ a, t.view a = s.view a) ∧
      (s.windowsClosed r.world → s.unsealed r.world → (s.devAddr r.world da).isSome = true →
        (∀ i (hi : i < b.length), t.devByte r.world (da + i) = b[i]) ∧
        ∀ x, (∀ i < b.length, s.devAddr r.world (da + i) ≠ some x) → t.hbm.read x = s.hbm.read x)) := by
  obtain ⟨hm, -, -, -⟩ := place_spec here.place
  obtain ⟨q, n, places⟩ := h.placeTile here ht
  have device := SameDevice.wrote s r.world (.copy id (da / 512))
  have waits : PlacesOnly s (s.wrote r.world (.copy id (da / 512))) := by
    unfold State.wrote
    split <;> rfl
  have closed := fun hcl => wrote_closed (s := s) (v := r.world) hcl r.world (.copy id (da / 512))
  have hexec := (exec_copyDelivery here h.moves).trans (congrArg Host.Outcome.next places)
  generalize s.wrote r.world (.copy id (da / 512)) = v at device waits closed hexec
  have writes : PlacesOnly v (v.tileWrites pl r) :=
    PlacesOnly.foldl (fun s (e : Nat × Byte) => PlacesOnly.homeWrites_dev s (pl.inWorld r.world) e.1 [e.2]) r.staging v
  have bytes := tileWrites_bytes (s := v) (da := da) pl hb
  have counted := countCopied_rest (v.tileWrites pl r) q n
  generalize v.tileWrites pl r = w at writes bytes hexec counted
  generalize w.countCopied q n = x at hexec counted
  have same : PlacesOnly s w := waits.trans writes
  have teams : x.teams = s.teams := by rw [counted]; exact same.teams
  have threads : x.threads = s.threads := by rw [counted]; exact same.threads
  have down : x.coreDown pl.team.home = false := by
    rw [counted, same]
    exact hhome
  have hmx : tget x.teams r.team = some pl.team := by rw [teams]; exact hm
  obtain ⟨gone, status, -, -, arr⟩ := endCopy_tells (id := id) h.complete ht hbar hmx down hended
    ⟨hi.issues, by rw [State.thread, threads]; exact hi.thread, hi.keeps⟩
  have leaves := LeavesUnit.endCopy (s := x) (id := id) (r := r.placedLast (da / 512)) h.ecode (fun m e => by
    obtain rfl : pl.team = m := Option.some.inj (hmx.symm.trans e)
    exact down)
  generalize x.endCopy id (r.placedLast (da / 512)) = t at hexec gone status arr leaves
  have moved : (r.placedLast (da / 512)).moved = r.moved + b.length := by
    simp [CopyReq.placedLast, hb, runCells]
  refine ⟨t, hexec, gone, moved ▸ status, ?_, ?_, fun a => ?_, fun hcl hun hlies => ?_⟩
  · have bar : x.bar r.team bar = s.bar r.team bar := (bar_eq hmx hbar).trans (bar_eq hm hbar).symm
    rw [← bar]
    exact arr
  · rw [leaves.rest, counted]
    exact same.hostMem
  · exact (leaves.view a).trans (view_congr threads teams a)
  · have readOnly (i : Nat) (hi : i < b.length) : v.readOnly r.world (da + i) = false := by
      rw [waits]
      exact hfree i hi
    obtain ⟨inside, outside⟩ := bytes ⟨(device.keys _).trans hun.1, device.seals.trans hun.2⟩ (closed hcl)
      (by rw [device.devAddr]; exact hlies) hin readOnly
    have last : SameDevice w t := by
      refine SameDevice.trans ?_ leaves.device
      rw [counted]
      exact ⟨rfl, rfl, rfl, rfl, fun _ => rfl, fun _ => rfl⟩
    refine ⟨fun i hi => (last.devByte ..).trans (inside i hi), fun y hy => ?_⟩
    rw [last.hbm, outside y (fun i hi => by rw [device.devAddr]; exact hy i hi), device.hbm]

end Sys2Proof.Machine

namespace Sys2Proof
open Machine

/-- Settles O30: a part's bytes come to their place or are gathered, a sync word counts, and a gathered tile is placed. -/
theorem copyDelivers : Obligations.CopyDelivers := by
  refine ⟨?_, ?_, ?_⟩
  · intro s id r pl sa da len tid u sp sq rd size hr hrows hsp hsq hpos hclaims hmarks hmembers hstate hlost hc hp hflights howed
      hbuf hecode hcancel hsaved hdown hended hhome _ hlen
    obtain ⟨t, hexec, hbm, host, views, bytes, tells, counts⟩ := delivers_local (tid := tid) (u := u) ⟨hr, hp, hc, hsaved⟩
      ⟨hrows, hpos, hbuf, hmembers, hstate, hlost, hflights, howed, hecode, hcancel⟩ hclaims hsp hsq hlen hdown hended hhome
    exact ⟨t, hexec, hbm, host, views, bytes, fun b ht hb htid hu hkeep => tells b ht hb ⟨htid, hu, hkeep⟩, counts⟩
  · intro s id r pl a n tid u w c hr hp hc hsaved hrows hclaims hflights howed ht hecode hcancel hdown htid hu hkeep
    obtain ⟨t, hexec, gone, status, sync, rest⟩ := counts_last ⟨hr, hp, hc, hsaved⟩
      ⟨hrows, hclaims, hflights, rfl, hecode, hcancel⟩ howed ht hdown ⟨htid, hu, hkeep⟩
    exact ⟨t, hexec, gone, status, sync.trans (SyncWord.arrive_eq ..), rest⟩
  · intro s id r pl da b bar tid u w tile bytes hr hp hc hsaved hclaims hb hin hmembers hmarks hflights howed hecode hcancel hlost
    refine ⟨fun sa hrows hpos hbuf hstaging hlen hstate hread => ?_, fun hrows hstaging ht hbar htid hu hkeep hended hhome hclaimed
      hmay hrefused hfree hreadOnly hrate => ?_⟩
    · exact gathers_part ⟨hr, hp, hc, hsaved⟩
        ⟨hrows, hpos, hbuf, hmembers, hstate, hlost, hflights, howed, hecode, hcancel⟩ hclaims hstaging hlen hread
    · have cells : r.staging = runCells (da, b) := hstaging.trans (zipIdx_runCells da b)
      have inTile : r.staging ≠ [] ∧ ∀ e ∈ r.staging, e.1 / 512 = tile := by
        rw [cells]
        refine ⟨by simpa [runCells] using hb, fun e he => ?_⟩
        obtain ⟨i, hi, rfl⟩ := List.mem_map.mp he
        have hi := List.mem_range.mp hi
        simp only [tile] at hi ⊢
        omega
      exact places_last ⟨hrows, hclaims, hmarks, hflights, howed, hecode, hcancel, inTile, hclaimed, hmay, hrefused, hreadOnly, hrate⟩
        ⟨hr, hp, hc, hsaved⟩ cells ht hbar ⟨htid, hu, hkeep⟩ hended hhome hin hfree

end Sys2Proof
end

section
/-! PROOF. CALL and RET (R160, R161, R212): the word on the thread's stack, and the traps that a push or a pop takes. -/

namespace Sys2Proof.Machine

/-! Traps and the other lanes (R244). -/

/-- From s to t, threads may have ended, and no other thread has changed, nor what agents read in a team. -/
structure OnlyEnds (s t : State) : Prop where
  threads : ∀ k, tget t.threads k = none ∨ tget t.threads k = tget s.threads k
  files : ∀ k, (tget t.teams k).map Team.files = (tget s.teams k).map Team.files

namespace OnlyEnds

theorem refl (s : State) : OnlyEnds s s := ⟨fun _ => .inr rfl, fun _ => rfl⟩

theorem trans {s t u : State} (h : OnlyEnds s t) (k : OnlyEnds t u) : OnlyEnds s u := by
  refine ⟨fun i => ?_, fun i => (k.files i).trans (h.files i)⟩
  rcases k.threads i with none | same
  · exact .inl none
  · rw [same]
    exact h.threads i

theorem agents {s t : State} (h : KeepsAgents s t) : OnlyEnds s t :=
  ⟨fun _ => .inr (by rw [h.threads]), fun _ => by rw [h.teams]⟩

theorem modTeam (s : State) (team : Nat) {f : Team → Team} (hf : ∀ m, (f m).files = m.files) : OnlyEnds s (s.modTeam team f) :=
  ⟨fun _ => .inr rfl, modTeam_files s team hf⟩

theorem endThread (s : State) (team tid : Nat) (stopped : Bool) : OnlyEnds s (s.endThread team tid stopped) := by
  obtain ⟨live, teams⟩ := endThread_teams s team tid stopped
  have rest := endThread_rest s team tid stopped
  generalize s.endThread team tid stopped = t at rest teams
  refine ⟨fun k => ?_, fun k => ?_⟩
  · have threads : t.threads = tdel s.threads (tkey team tid) := by rw [rest]
    rw [threads]
    by_cases hk : k = tkey team tid
    · exact .inl (by rw [hk, tget_tdel_self])
    · exact .inr (tget_tdel_ne _ hk)
  · rw [teams]
    exact modTeam_files s team (f := fun m => { m with bar := m.bar.map (fun b => b.depart tid stopped live) }) (fun _ => rfl) k

theorem stopTeam (s : State) (team : Nat) (p : Place) (off : Nat) : OnlyEnds s (s.stopTeam team p off) := by
  have ends := List.foldlRecOn (s.liveTids team) (fun s t => s.endThread team t true) (motive := OnlyEnds s) (refl s)
    (fun u h i _ => h.trans (endThread u team i true))
  unfold State.stopTeam
  dsimp only
  generalize (s.liveTids team).foldl (fun s t => s.endThread team t true) s = u at ends
  refine trans (ends.trans ?_) (agents (KeepsAgents.foldl (fun s k => KeepsAgents.breakLock s p off k) _ _))
  exact ⟨fun _ => .inr rfl, modTeam_files u team (f := fun m => { m with
    set := [], stopped := true, locks := [], upark := none, uleave := none, sPend := 0, resPend := 0 }) (fun _ => rfl)⟩

theorem trapRecord (s : State) (p : Place) (code : Nat) (team : Bool) (tid core off aux : Nat) (l cls : Nat) :
    OnlyEnds s ((s.trapRecord p code team tid core off aux).errClass l cls) :=
  (agents (KeepsAgents.trapRecord ..)).trans ⟨fun _ => .inr rfl, fun _ => rfl⟩

theorem trapTeam (s : State) (team code off aux : Nat) : OnlyEnds s (s.trapTeam team code off aux) := by
  unfold State.trapTeam State.teamRecord
  cases s.place team with
  | none => exact refl s
  | some p =>
    dsimp only
    split
    · exact refl s
    · exact (trapRecord ..).trans (stopTeam ..)

theorem trapThread (s : State) (team tid code off aux : Nat) : OnlyEnds s (s.trapThread team tid code off aux) := by
  unfold State.trapThread
  cases s.place team with
  | none => exact refl s
  | some p =>
    have told := trapRecord s p code false tid (p.team.coreOf p.image.threads tid) off aux p.team.launch (if code = 0x0B then 2 else 1)
    dsimp only
    generalize State.errClass _ p.team.launch _ = v at told
    have marks := modTeam v team (f := fun m => { m with lastOff := off }) (fun _ => rfl)
    generalize v.modTeam team (fun m => { m with lastOff := off }) = w at marks
    exact (told.trans marks).trans (endThread ..)

/-- A thread that is still live sees what it saw. -/
theorem view {s t : State} (h : OnlyEnds s t) {team tid : Nat} (hl : t.alive (.thread team tid) = true) :
    t.view (.thread team tid) = s.view (.thread team tid) := by
  have same : tget t.threads (tkey team tid) = tget s.threads (tkey team tid) := by
    refine (h.threads _).resolve_left (fun none => ?_)
    simp [State.alive, State.thread, none] at hl
  have files := h.files team
  simp only [State.view, State.thread, same]
  cases e1 : tget t.teams team <;> cases e2 : tget s.teams team <;> simp_all [Team.files]

end OnlyEnds

/-- A thread trap stops its thread, and its record is in the fault ring, where that is free (R244). -/
theorem trapThread_stops {s : State} {team tid : Nat} {p : Place} (hp : s.place team = some p) {code : Nat} (hcode : code < 256)
    (off aux : Nat) : let t := s.trapThread team tid code off aux
    t.thread team tid = none ∧ (s.ringFree p.launch.world → s.trapTold t p.launch.world code false) := by
  have told := trapRecord_told hcode false tid (p.team.coreOf p.image.threads tid) off aux (s := s) (p := p)
  intro t
  have comes : t = (((s.trapRecord p code false tid (p.team.coreOf p.image.threads tid) off aux).errClass p.team.launch
      (if code = 0x0B then 2 else 1)).modTeam team (fun m => { m with lastOff := off })).endThread team tid true := by
    simp only [t, State.trapThread, hp]
  generalize s.trapRecord p code false tid (p.team.coreOf p.image.threads tid) off aux = v at told comes
  have marked : SameDevice v ((v.errClass p.team.launch (if code = 0x0B then 2 else 1)).modTeam team (fun m => { m with lastOff := off })) :=
    ⟨rfl, rfl, rfl, rfl, fun _ => rfl, fun _ => rfl⟩
  generalize (v.errClass p.team.launch (if code = 0x0B then 2 else 1)).modTeam team (fun m => { m with lastOff := off }) = w
    at comes marked
  have same := marked.trans (endThread_ends w team tid true).device
  have threads : (w.endThread team tid true).threads = tdel w.threads (tkey team tid) := by rw [endThread_rest]
  refine ⟨?_, fun ring => ?_⟩
  · rw [comes, State.thread, threads, tget_tdel_self]
  · have told := told ring
    rw [comes]
    unfold State.trapTold at told ⊢
    rw [same.devNat, same.devNat]
    exact told

/-! The local area (R35). -/

theorem locWrites_places {p : Place} (hp : p.launch.locdev = true) (team tid off : Nat) (bytes : List Byte) (s : State) :
    PlacesOnly s (s.locWrites p team tid off bytes) := by
  induction bytes generalizing s off with
  | nil => exact .refl s
  | cons b bytes ih =>
    rw [State.locWrites, if_pos hp]
    exact ((PlacesOnly.devWrite ..).trans (PlacesOnly.placedBy ..)).trans (ih ..)

/-- Bytes written there change what no agent reads in its registers. -/
theorem locWrites_keeps (s : State) (p : Place) (team tid off : Nat) (bytes : List Byte) :
    let t := s.locWrites p team tid off bytes
    (∀ b, t.view b = s.view b) ∧ (∀ b, t.alive b = s.alive b) ∧ t.passes = s.passes := by
  intro t
  cases hp : p.launch.locdev with
  | true =>
    have places : PlacesOnly s t := locWrites_places hp team tid off bytes s
    exact ⟨view_congr places.threads places.teams, alive_congr places.threads places.teams, by rw [places]⟩
  | false =>
    have own : t = s.setLoc team tid off bytes := locWrites_own hp team tid off bytes
    rw [own]
    exact ⟨fun _ => setLoc_view .., fun _ => OneThread.alive_modThread .., rfl⟩

theorem locRead_own {s t : State} {p : Place} {team tid : Nat} (hp : p.launch.locdev = false)
    (hloc : (t.thread team tid).map (·.loc) = (s.thread team tid).map (·.loc)) (o : Nat) :
    t.locRead p team tid o = s.locRead p team tid o := by
  simp only [State.locRead, hp, Bool.false_eq_true, if_false]
  cases e1 : t.thread team tid <;> cases e2 : s.thread team tid <;> simp_all

/-! A lane that leaves its block with its stack pointer moved. -/

/-- A lane goes to a block, with a register set. -/
def State.jump (s : State) (ag : Agent) (x : Fin 64) (v : Word) (o : Nat) : State :=
  (s.putReg ag (.x x.val) v).setLeave ag (.goto o)

section Jump
variable (s : State) (team tid : Nat) (x : Fin 64) (v : Word) (o : Nat)

theorem jump_one : OneThread team tid s (s.jump (.thread team tid) x v o) :=
  (OneThread.putRegs s team tid [(.x x.val, v)]).trans (.setLeave ..)

theorem jump_loc : ((s.jump (.thread team tid) x v o).thread team tid).map (·.loc) = (s.thread team tid).map (·.loc) := by
  simp only [State.jump, State.setLeave, State.putReg, State.thread, State.modThread, tget_tmod_self, Option.map_map]
  rfl

theorem jump_otherRegs {q : Reg} (hq : q ≠ .x x.val) :
    ((s.jump (.thread team tid) x v o).view (.thread team tid)).reg q = (s.view (.thread team tid)).reg q := by
  have other (w : Window) : (w.put (.x x.val) v).reg q = w.reg q := Window.put_other w v hq
  rw [State.jump, (setLeave_only ..).view]
  simp only [State.putReg, State.view, State.thread, State.modThread, tget_tmod_self]
  cases e : tget s.threads (tkey team tid) with
  | none => rfl
  | some u => cases q with
    | s r => rfl
    | e r => rfl
    | x r => exact other u.win
    | k r => exact other u.win
    | o r => exact other u.win
    | y r => exact other u.win

variable {s team tid} (hl : s.alive (.thread team tid) = true)
include hl

theorem jump_leaveOf : (s.jump (.thread team tid) x v o).leaveOf (.thread team tid) = some (.goto o) :=
  setLeave_leaveOf _ _ ((OneThread.alive_modThread ..).trans hl)

theorem jump_reg : ((s.jump (.thread team tid) x v o).view (.thread team tid)).reg (.x x.val) = v := by
  rw [State.jump, (setLeave_only ..).view]
  exact putRegs_holds (l := [(.x x.val, v)]) hl (by simp [windowTakes]) (by simp) _ (List.mem_singleton_self _)

end Jump

/-! The words. -/

/-- What CALL does in a lane (R160). -/
def Here.callLane (h : Here) (c : Ctl) (x : Fin 64) (e : Nat) (ag : Agent) (v : View) (s : State) : State :=
  let sp := v.reg (.x x.val) - 4
  match ag with
  | .uniform _ => s
  | .thread team tid =>
    s.locStore h.place team tid sp.toNat 4 h.group.off (fun s =>
      (s.locWrites h.place team tid sp.toNat (bytesOfNat 4 (h.fallThrough c))).jump ag x sp e)

/-- What RET does in a lane (R161). -/
def Here.retLane (h : Here) (x : Fin 64) (k : Blk) (ag : Agent) (v : View) (s : State) : State :=
  match ag with
  | .uniform _ => s
  | .thread team tid =>
    let sp := v.reg (.x x.val)
    let t := natOfBytes (s.locReads h.place team tid sp.toNat 4)
    match h.indirect k t with
    | .ok o => s.jump ag x (sp + 4) o
    | .error code => s.trap ag code h.group.off t

theorem locStore_cases (s : State) (p : Place) (team tid off n at_ : Nat) (f : State → State) :
    (∃ b, s.locStore p team tid off n at_ f = s.trapTeam team 0x15 at_ b) ∨
      (∃ b, s.locStore p team tid off n at_ f = s.trapThread team tid 0x0C at_ b) ∨
      s.locStore p team tid off n at_ f = f s := by
  unfold State.locStore
  dsimp only
  split
  · exact .inl ⟨_, rfl⟩
  · exact .inr (.inl ⟨_, rfl⟩)
  · exact .inr (.inr rfl)

/-- In a group with a thread every lane is one. -/
theorem otherLane {h : Here} {team tid : Nat} (hag : .thread team tid ∈ h.agents) {b : Agent} (hb : b ∈ h.agents) :
    ∃ i, b = .thread h.pass.team i := by
  rcases agents_cases hag with ⟨-, e⟩ | ⟨hu, -⟩
  · cases e
  · rcases agents_cases hb with ⟨hu', -⟩ | ⟨-, i, e⟩
    · simp [hu] at hu'
    · exact ⟨i, e⟩

theorem OnlyEnds.otherLane {h : Here} {team tid : Nat} (hag : .thread team tid ∈ h.agents) {b : Agent} (hb : b ∈ h.agents)
    {s t : State} (he : OnlyEnds s t) (hl : t.alive b = true) : t.view b = s.view b := by
  obtain ⟨i, rfl⟩ := Machine.otherLane hag hb
  exact he.view hl

section Lanes
variable {h : Here} {c : Ctl} {x : Fin 64} {team tid : Nat} {view : View} {s : State}

section Call
variable {e b : Nat}

theorem callLane_refused (hdev : h.place.launch.locdev = true)
    (hb : s.refused h.place.launch.world (h.place.locBase tid + (view.reg (.x x.val) - 4).toNat) 4 = some b) :
    h.callLane c x e (.thread team tid) view s = s.trapTeam team 0x15 h.group.off b := by
  simp only [Here.callLane, State.locStore, hdev, if_true, hb]

theorem callLane_sealed (hdev : h.place.launch.locdev = true)
    (hnone : s.refused h.place.launch.world (h.place.locBase tid + (view.reg (.x x.val) - 4).toNat) 4 = none)
    (hb : s.sealedByte h.place.launch.world (h.place.locBase tid + (view.reg (.x x.val) - 4).toNat) 4 = some b) :
    h.callLane c x e (.thread team tid) view s = s.trapThread team tid 0x0C h.group.off b := by
  simp only [Here.callLane, State.locStore, hdev, if_true, hnone, hb]

/-- A push that R212 does not refuse, to no read-only byte, goes on. -/
theorem callLane_goes (hfree : h.place.launch.locdev = true →
      s.refused h.place.launch.world (h.place.locBase tid + (view.reg (.x x.val) - 4).toNat) 4 = none ∧
        s.sealedByte h.place.launch.world (h.place.locBase tid + (view.reg (.x x.val) - 4).toNat) 4 = none) :
    h.callLane c x e (.thread team tid) view s =
      (s.locWrites h.place team tid (view.reg (.x x.val) - 4).toNat (bytesOfNat 4 (h.fallThrough c))).jump (.thread team tid) x
        (view.reg (.x x.val) - 4) e := by
  unfold Here.callLane State.locStore
  cases hdev : h.place.launch.locdev with
  | true =>
    obtain ⟨refused, free⟩ := hfree hdev
    simp only [if_true, refused, free]
  | false => rfl

end Call

theorem retLane_ok {k : Blk} {top o : Nat} (ht : natOfBytes (s.locReads h.place team tid (view.reg (.x x.val)).toNat 4) = top)
    (ho : h.indirect k top = .ok o) :
    h.retLane x k (.thread team tid) view s = s.jump (.thread team tid) x (view.reg (.x x.val) + 4) o := by
  simp only [Here.retLane, ht, ho]

theorem retLane_traps {k : Blk} {top code : Nat}
    (ht : natOfBytes (s.locReads h.place team tid (view.reg (.x x.val)).toNat 4) = top) (ho : h.indirect k top = .error code) :
    h.retLane x k (.thread team tid) view s = s.trapThread team tid code h.group.off top := by
  simp only [Here.retLane, ht, ho, State.trap]

end Lanes

/-- The other lanes see what they saw, where they still live. -/
theorem callLane_view {h : Here} {team tid : Nat} (hag : .thread team tid ∈ h.agents) (c : Ctl) (x : Fin 64) (e : Nat) (v : View)
    (s : State) {b : Agent} (hb : b ∈ h.agents) (hne : b ≠ .thread team tid)
    (hl : (h.callLane c x e (.thread team tid) v s).alive b = true) :
    (h.callLane c x e (.thread team tid) v s).view b = s.view b := by
  unfold Here.callLane at hl ⊢
  dsimp only at hl ⊢
  rcases locStore_cases s h.place team tid (v.reg (.x x.val) - 4).toNat 4 h.group.off (fun s =>
      (s.locWrites h.place team tid (v.reg (.x x.val) - 4).toNat (bytesOfNat 4 (h.fallThrough c))).jump (.thread team tid) x
        (v.reg (.x x.val) - 4) e) with ⟨a, traps⟩ | ⟨a, traps⟩ | stores
  · rw [traps] at hl ⊢
    exact (OnlyEnds.trapTeam ..).otherLane hag hb hl
  · rw [traps] at hl ⊢
    exact (OnlyEnds.trapThread ..).otherLane hag hb hl
  · rw [stores, (jump_one ..).view hag hb hne]
    exact (locWrites_keeps ..).1 b

theorem retLane_view {h : Here} {team tid : Nat} (hag : .thread team tid ∈ h.agents) (x : Fin 64) (k : Blk) (v : View)
    (s : State) {b : Agent} (hb : b ∈ h.agents) (hne : b ≠ .thread team tid)
    (hl : (h.retLane x k (.thread team tid) v s).alive b = true) :
    (h.retLane x k (.thread team tid) v s).view b = s.view b := by
  unfold Here.retLane at hl ⊢
  dsimp only at hl ⊢
  split at hl
  · exact (jump_one ..).view hag hb hne
  · exact (OnlyEnds.trapThread ..).otherLane hag hb hl

theorem indirect_ok {h : Here} {k : Blk} {e : Block} {top : Nat} (he : h.place.image.blocks[k.index]? = some e)
    (h64 : top % 64 = 0) (hcode : top < h.place.image.codeLen)
    (hb : ∃ b, h.place.image.blocks.find? (fun b => b.off == top) = some b ∧ b.ann = e.ann) : h.indirect k top = .ok top := by
  obtain ⟨b, hb, ann⟩ := hb
  simp [Here.indirect, h64, hb, he, hcode, ann]

theorem indirect_error {h : Here} {k : Blk} {e : Block} {top : Nat} (he : h.place.image.blocks[k.index]? = some e)
    (hbad : top % 64 ≠ 0 ∨ ¬ (top < h.place.image.codeLen ∧
      ∃ b, h.place.image.blocks.find? (fun b => b.off == top) = some b ∧ b.ann = e.ann)) :
    h.indirect k top = .error (if top % 64 ≠ 0 then 3 else 4) := by
  by_cases h64 : top % 64 = 0
  · have bad := hbad.resolve_left (not_not.mpr h64)
    simp only [Here.indirect, h64, ne_eq, not_true_eq_false, if_false, he]
    cases hb : h.place.image.blocks.find? (fun b => b.off == top) with
    | none => rfl
    | some b =>
      have other : ¬ (top < h.place.image.codeLen ∧ b.ann = e.ann) := fun ⟨code, ann⟩ => bad ⟨code, b, hb, ann⟩
      simp only [other, if_false]
  · simp [Here.indirect, h64]

/-! The lane's turn. -/

/-- A push waits for nothing any more, and nothing is filled. -/
theorem granted_push (u : State) (h : Here) (team tid off n : Nat) :
    u.granted h (h.place.locUse (.thread team tid) off n true) = u ∨
      u.granted h (h.place.locUse (.thread team tid) off n true) = u.wrote h.place.launch.world (.word (.thread team tid)) := by
  unfold State.granted Place.locUse
  dsimp only
  split
  · exact .inr rfl
  · exact .inl rfl

/-- A pop fills nothing in a world without keys. -/
theorem granted_pop {u : State} {h : Here} (hkeys : h.place.launch.locdev = true → u.keys h.place.launch.world = none)
    (team tid off n : Nat) : u.granted h (h.place.locUse (.thread team tid) off n false) = u := by
  unfold State.granted Place.locUse
  dsimp only
  split
  · next hdev => rw [fills_clear (hkeys hdev)]; rfl
  · rfl

/-- When the lane's turn comes, the state is s for all that it and a trap of it depend on. -/
structure Here.Turn (h : Here) (s v : State) (team tid : Nat) : Prop where
  view : ∀ b, v.view b = s.view b
  alive : v.alive (.thread team tid) = true
  ended : Machine.ended h v
  device : SameDevice s v
  place : v.place team = s.place team
  images : v.images = s.images
  thread : v.thread team tid = s.thread team tid
  hostMem : v.hostMem = s.hostMem
  ring : s.ringFree h.place.launch.world → v = { s with threads := v.threads, passes := v.passes, perf := v.perf }

theorem wrote_ringFree {s : State} {w : Nat} (hring : s.ringFree w) (who : Writer) : s.wrote w who = s := by
  obtain ⟨-, -, -, -, -, -, -, -, waiting⟩ := hring
  simp [State.wrote, waiting]

theorem wrote_rest (s : State) (w : Nat) (who : Writer) : s.wrote w who = { s with worlds := (s.wrote w who).worlds } := by
  unfold State.wrote
  split <;> rfl

theorem turn {s u v : State} {h : Here} {i : Instr} {c : Ctl} {team tid : Nat} (hh : s.here = some h)
    (hl : s.alive (.thread team tid) = true) {who : Writer}
    (hu : u = s.issued h i c ∨ u = (s.issued h i c).wrote h.place.launch.world who)
    (before : OthersLeave (.thread team tid) (u.groupDone h) v) : h.Turn s v team tid := by
  have alike := issued_alike s h i c
  have hi := issued_rest s h i c
  have threads := issued_threads s h i c
  have teams := issued_teams s h i c
  have done : ended h ((s.issued h i c).groupDone h) := groupDone_ended hh i c
  generalize s.issued h i c = x at hu alike hi done threads teams
  have rest : u = { x with worlds := u.worlds } := by
    rcases hu with rfl | rfl
    · rfl
    · exact wrote_rest ..
  have same : SameDevice x u := by
    rcases hu with rfl | rfl
    · exact ⟨rfl, rfl, rfl, rfl, fun _ => rfl, fun _ => rfl⟩
    · exact SameDevice.wrote ..
  have group : u.groupDone h = { u with passes := (u.groupDone h).passes } := rfl
  have groupPasses : (u.groupDone h).passes = (x.groupDone h).passes := by rw [rest]; rfl
  have groupDevice : SameDevice u (u.groupDone h) := ⟨rfl, rfl, rfl, rfl, fun _ => rfl, fun _ => rfl⟩
  have groupThreads : (u.groupDone h).threads = s.threads := by rw [group, rest]; exact threads
  have groupTeams : (u.groupDone h).teams = s.teams := by rw [group, rest]; exact teams
  have hended : ended h v := before.ended (ended_congr groupPasses done)
  have mine : v.thread team tid = s.thread team tid := by rw [before.mine team tid rfl, State.thread, groupThreads]; rfl
  have unwritten : s.ringFree h.place.launch.world → u = x := fun ring => by
    rcases hu with e | e
    · exact e
    · rw [e]
      exact wrote_ringFree (ringFree_alike alike ring) who
  generalize u.groupDone h = y at before group groupDevice groupThreads groupTeams
  have device : SameDevice s v :=
    (SameDevice.of_alike alike).trans (same.trans (groupDevice.trans before.device))
  refine ⟨fun b => (before.view b).trans (view_congr groupThreads groupTeams b), ?_, hended, device, ?_, ?_, mine, ?_, fun ring => ?_⟩
  · rw [before.alive, alive_congr groupThreads groupTeams]
    exact hl
  · rw [before.place, group, rest, hi]
    rfl
  · rw [before.rest, group, rest, hi]
  · rw [before.rest, group, rest, hi]
  · rw [before.rest, group, unwritten ring, hi]

namespace Here.Turn

variable {h : Here} {s v : State} {team tid : Nat} (ht : h.Turn s v team tid)
include ht

theorem locReads (off n : Nat) : v.locReads h.place team tid off n = s.locReads h.place team tid off n := by
  simp only [State.locReads, State.locRead, ht.thread, ht.device.devRead]

theorem refused (w a n : Nat) : v.refused w a n = s.refused w a n := by
  simp only [State.refused, ht.device.confTile]

theorem sealedByte (w a n : Nat) : v.sealedByte w a n = s.sealedByte w a n := by
  simp only [State.sealedByte, readOnly_congr ht.images]

/-- What a trap in the lane tells, it tells of s. -/
theorem told {t : State} {code : Nat} {b : Bool}
    (h' : v.ringFree h.place.launch.world → v.trapTold t h.place.launch.world code b) (ring : s.ringFree h.place.launch.world) :
    s.trapTold t h.place.launch.world code b := by
  have rest := ht.ring ring
  have told := h' (by rw [rest]; exact ring)
  have slot : v.trapSlot h.place.launch.world = s.trapSlot h.place.launch.world := by rw [rest]; rfl
  unfold State.trapTold at told ⊢
  rwa [slot] at told

end Here.Turn

/-- A thread trap in the lane. -/
theorem Here.Turn.trapsThread {h : Here} {s v t : State} {team tid : Nat} (ht : h.Turn s v team tid)
    (hp : s.place team = some h.place) {code : Nat} (hcode : code < 256) {off aux : Nat}
    (after : OthersLeave (.thread team tid) (v.trapThread team tid code off aux) t) : h.stops s t (.thread team tid) code := by
  obtain ⟨gone, told⟩ := trapThread_stops (tid := tid) (ht.place.trans hp) hcode off aux
  refine ⟨(after.mine _ _ rfl).trans gone, ht.told (fun ring => ?_)⟩
  have told := told ring
  unfold State.trapTold at told ⊢
  rwa [after.device.devNat, after.device.devNat]

/-- A team trap in the lane. -/
theorem Here.Turn.trapsTeam {h : Here} {s v t : State} {team tid : Nat} (ht : h.Turn s v team tid)
    (hp : s.place team = some h.place) (hrun : h.place.team.stopped = false) {code : Nat} (hcode : code < 256) {off aux : Nat}
    (after : OthersLeave (.thread team tid) (v.trapTeam team code off aux) t) : h.stops s t (.uniform team) code := by
  obtain ⟨stopped, told⟩ := trapTeam_stops (ht.place.trans hp) hrun hcode off aux
  refine ⟨(after.liveTids team).trans stopped.threads, by rw [after.teams]; exact stopped.stopped, fun locks =>
    ht.told (fun ring => ?_)⟩
  have told := told locks ring
  unfold State.trapTold at told ⊢
  rwa [after.device.devNat, after.device.devNat]

theorem Alone.pass_team {h : Here} {c : Ctl} {s : State} {team tid : Nat} (hone : Alone h c s (.thread team tid)) :
    team = h.pass.team := by
  obtain ⟨i, e⟩ := otherLane hone.mem hone.mem
  cases e
  rfl

section Words
variable {c : Ctl} {s : State} {h : Here} {team tid : Nat} (hone : Alone h c s (.thread team tid))
include hone

/-- The turn of the one lane that takes a word that ends its block, once it waits for nothing: then the others fall through. -/
theorem endBlock_turns {u : State} {i : Instr} {who : Writer} (hh : s.here = some h)
    (hu : u = s.issued h i c ∨ u = (s.issued h i c).wrote h.place.launch.world who) (F : Agent → View → State → State)
    (hF : ∀ v, ∀ b ∈ h.agents, b ≠ .thread team tid → (F (.thread team tid) (s.view (.thread team tid)) v).alive b = true →
      (F (.thread team tid) (s.view (.thread team tid)) v).view b = v.view b) :
    ∃ v, h.Turn s v team tid ∧
      OthersLeave (.thread team tid) (F (.thread team tid) (s.view (.thread team tid)) v) (u.endBlock h c F) := by
  have threads : u.threads = s.threads := by
    rcases hu with rfl | rfl
    · exact issued_threads ..
    · rw [wrote_rest, issued_threads]
  have teams : u.teams = s.teams := by
    rcases hu with rfl | rfl
    · exact issued_teams ..
    · rw [wrote_rest, issued_teams]
  obtain ⟨v, before, after⟩ := endBlock_alone hone F (view_congr threads teams) ((alive_congr threads teams _).trans hone.alive)
    (fun v hv b hb hne hl => (hF v b hb hne hl).trans (hv b))
  exact ⟨v, turn hh hone.alive hu before, after⟩

variable {x : Fin 64} {k : Blk}

/-- CALL, once its push waits for nothing. -/
theorem execCall_turns {e : Block} (hr : Ready (.call c x k) s h) (he : h.place.image.blocks[k.index]? = some e)
    (hover : overlaps s.pends (.thread team tid) .loc ((s.view (.thread team tid)).reg (.x x.val) - 4).toNat 4 = false)
    (hfree : s.devFree h.place.launch
      (h.place.locUse (.thread team tid) ((s.view (.thread team tid)).reg (.x x.val) - 4).toNat 4 true)) :
    nextWith (exec (.call c x k) s) (fun t => ∃ v, h.Turn s v team tid ∧
      OthersLeave (.thread team tid) (h.callLane c x e.off (.thread team tid) (s.view (.thread team tid)) v) t) := by
  have entry : h.entry k = some e.off := by rw [Here.entry, he]; rfl
  have issues : exec (.call c x k) s = .next (((s.issued h (.call c x k) c).granted h
      (h.place.locUse (.thread team tid) ((s.view (.thread team tid)).reg (.x x.val) - 4).toNat 4 true)).endBlock h c
        (h.callLane c x e.off)) := by
    refine issue_done hr ?_
    rw [entry]
    dsimp only
    rw [issued_taking, hone.takes]
    simp only [List.any_cons, List.any_nil, Bool.or_false, List.flatMap_cons, List.flatMap_nil, List.append_nil, issued_view,
      issued_pends, hover, Bool.false_eq_true, if_false]
    exact devWords_free (devFree_alike (issued_alike ..) hfree)
  exact ⟨_, issues, endBlock_turns hone hr.here (granted_push ..) _ (fun v b hb hne hl => callLane_view hone.mem c x e.off _ v hb hne hl)⟩

/-- RET, once its pop waits for nothing, in a world without keys. -/
theorem execRet_turns (hr : Ready (.ret c x k) s h)
    (hover : overlaps s.pends (.thread team tid) .loc ((s.view (.thread team tid)).reg (.x x.val)).toNat 4 = false)
    (hkeys : h.place.launch.locdev = true → s.keys h.place.launch.world = none)
    (hfree : s.devFree h.place.launch
      (h.place.locUse (.thread team tid) ((s.view (.thread team tid)).reg (.x x.val)).toNat 4 false)) :
    nextWith (exec (.ret c x k) s) (fun t => ∃ v, h.Turn s v team tid ∧
      OthersLeave (.thread team tid) (h.retLane x k (.thread team tid) (s.view (.thread team tid)) v) t) := by
  have issues : exec (.ret c x k) s = .next (((s.issued h (.ret c x k) c).granted h
      (h.place.locUse (.thread team tid) ((s.view (.thread team tid)).reg (.x x.val)).toNat 4 false)).endBlock h c
        (h.retLane x k)) := by
    refine issue_done hr ?_
    dsimp only
    rw [issued_taking, hone.takes]
    simp only [List.any_cons, List.any_nil, Bool.or_false, List.flatMap_cons, List.flatMap_nil, List.append_nil, issued_view,
      issued_pends, hover, Bool.false_eq_true, if_false]
    exact devWords_free (devFree_alike (issued_alike ..) hfree)
  have keys : h.place.launch.locdev = true → (s.issued h (.ret c x k) c).keys h.place.launch.world = none := fun hdev =>
    ((SameDevice.of_alike (issued_alike ..)).keys _).trans (hkeys hdev)
  rw [granted_pop keys] at issues
  exact ⟨_, issues, endBlock_turns (who := .word (.thread team tid)) hone hr.here (.inl rfl) _ (fun v b hb hne hl =>
    retLane_view hone.mem x k _ v hb hne hl)⟩

end Words

section Jumps
variable {s v t : State} {h : Here} {team tid : Nat} (turns : h.Turn s v team tid) {x : Fin 64} {sp : Word} {o : Nat}
include turns

/-- What is left of a lane that has gone to a block, when the others have fallen through. -/
theorem jumped {w : State} (hw : (∀ b, w.view b = v.view b) ∧ (∀ b, w.alive b = v.alive b) ∧ w.passes = v.passes)
    (after : OthersLeave (.thread team tid) (w.jump (.thread team tid) x sp o) t) :
    t.leaveOf (.thread team tid) = some (.goto o) ∧ (t.view (.thread team tid)).reg (.x x.val) = sp ∧ ended h t ∧
      ∀ r, r ≠ .x x.val → (t.view (.thread team tid)).reg r = (s.view (.thread team tid)).reg r := by
  obtain ⟨view, alive, passes⟩ := hw
  have live : w.alive (.thread team tid) = true := (alive _).trans turns.alive
  refine ⟨after.leaveOf.trans (jump_leaveOf x sp o live), ?_, ?_, fun r hr => ?_⟩
  · rw [after.view]
    exact jump_reg x sp o live
  · exact after.ended (ended_congr (by rw [(jump_one ..).rest, passes]) turns.ended)
  · rw [after.view, jump_otherRegs _ _ _ _ _ _ hr, view, turns.view]

/-- The word that CALL pushes on a stack of the thread's own. -/
theorem pushed {off n : Nat} (hp : h.place.launch.locdev = false)
    (after : OthersLeave (.thread team tid)
      ((v.locWrites h.place team tid off (bytesOfNat 4 n)).jump (.thread team tid) x sp o) t) (hn : n < 2 ^ 32) :
    natOfBytes (t.locReads h.place team tid off 4) = n ∧
      (∀ o, o < off ∨ off + 4 ≤ o → t.locRead h.place team tid o = s.locRead h.place team tid o) ∧
      t.hbm = s.hbm ∧ t.hostMem = s.hostMem := by
  rw [locWrites_own hp] at after
  obtain ⟨inside, outside⟩ := setLoc_reads (bytes := bytesOfNat 4 n) (off := off) hp turns.alive
  have last (o : Nat) : t.locRead h.place team tid o = (v.setLoc team tid off (bytesOfNat 4 n)).locRead h.place team tid o :=
    locRead_own hp (by rw [after.mine _ _ rfl]; exact jump_loc ..) o
  have word : t.locReads h.place team tid off 4 = bytesOfNat 4 n := by
    refine List.ext_getElem (by simp [State.locReads]) (fun i _ hi => ?_)
    simp only [State.locReads, List.getElem_map, List.getElem_range, last]
    exact inside i hi
  refine ⟨?_, fun o ho => ?_, ?_, ?_⟩
  · rw [word, natOfBytes_bytesOfNat]
    exact Nat.mod_eq_of_lt hn
  · rw [last, outside o (by simpa using ho)]
    exact locRead_own hp (by rw [turns.thread]) o
  · rw [after.rest, (jump_one ..).rest]
    exact turns.device.hbm
  · rw [after.rest, (jump_one ..).rest]
    exact turns.hostMem

end Jumps

end Sys2Proof.Machine

namespace Sys2Proof
open Machine

/-- Settles O11: what a push and a pop leave, and the traps that they take. -/
theorem callAndReturn : Obligations.CallAndReturn := by
  intro c x k s h team tid e hone he ag sp fall top l at_ free pushes pops ofClass
  obtain rfl := hone.pass_team
  refine ⟨fun hr hfree hdev b hrefused hrun => ?_, fun hr hfree hdev hnone b hsealed => ?_, fun hr hpush => ?_,
    fun hr hpop h64 hclass => ?_, fun hr hpop hbad => ?_⟩
  · obtain ⟨t, hexec, v, turns, after⟩ := execCall_turns hone hr he hfree.2 hfree.1
    rw [callLane_refused hdev ((turns.refused ..).trans hrefused)] at after
    exact ⟨t, hexec, turns.trapsTeam (here_spec hr.here).2.2.2.1 hrun (by decide) after⟩
  · obtain ⟨t, hexec, v, turns, after⟩ := execCall_turns hone hr he hfree.2 hfree.1
    rw [callLane_sealed hdev ((turns.refused ..).trans hnone) ((turns.sealedByte ..).trans hsealed)] at after
    exact ⟨t, hexec, turns.trapsThread (here_spec hr.here).2.2.2.1 (by decide) after⟩
  · obtain ⟨t, hexec, v, turns, after⟩ := execCall_turns hone hr he hpush.1.2 hpush.1.1
    rw [callLane_goes (fun hdev => by rw [turns.refused, turns.sealedByte]; exact hpush.2 hdev)] at after
    obtain ⟨leave, reg, hended, others⟩ := jumped turns (locWrites_keeps ..) after
    exact ⟨t, hexec, leave, reg, hended, others, fun hdev hn => pushed turns hdev after hn⟩
  · obtain ⟨t, hexec, v, turns, after⟩ := execRet_turns hone hr hpop.2.2 hpop.2.1 hpop.1
    rw [retLane_ok (congrArg natOfBytes (turns.locReads ..)) (indirect_ok he h64 hclass.1 hclass.2)] at after
    obtain ⟨leave, reg, hended, others⟩ := jumped turns ⟨fun _ => rfl, fun _ => rfl, rfl⟩ after
    refine ⟨t, hexec, leave, reg, hended, others, ?_, ?_⟩
    · rw [after.rest, (jump_one ..).rest]
      exact turns.device.hbm
    · rw [after.rest, (jump_one ..).rest]
      exact turns.hostMem
  · obtain ⟨t, hexec, v, turns, after⟩ := execRet_turns hone hr hpop.2.2 hpop.2.1 hpop.1
    rw [retLane_traps (congrArg natOfBytes (turns.locReads ..)) (indirect_error he hbad)] at after
    exact ⟨t, hexec, turns.trapsThread (here_spec hr.here).2.2.2.1 (by split <;> decide) after⟩

end Sys2Proof
end

section
/-! PROOF. Wave collectives (R163, R174 to R176, R188 to R190): how a lane joins a collective of its wave. -/

namespace Sys2Proof.Machine

/-! Pending bits of a thread (R83). -/

/-- A register that a thread has a pending bit of. -/
def threadPends (r : Reg) : Prop :=
  match r with
  | .x i => i < 64
  | .k i => i < 7
  | _ => False

section Bits
variable {s : State} {team tid : Nat} (hl : s.alive (.thread team tid) = true)
include hl

theorem setPend_bit {r : Reg} (hr : threadPends r) :
    (s.setPend (.thread team tid) r true).pendBit (.thread team tid) r = true := by
  obtain ⟨u, hu⟩ := Option.isSome_iff_exists.mp (hl : (s.thread team tid).isSome = true)
  simp only [State.thread] at hu
  cases r with
  | x i =>
    have hi : i < 64 := hr
    simp [State.setPend, State.pendBit, State.modThread, State.thread, hu, hi]
  | k i =>
    have hi : i < 7 := hr
    simp [State.setPend, State.pendBit, State.modThread, State.thread, hu, hi]
  | o | y | s | e => exact hr.elim

omit hl in
theorem setPend_keepsBit {r : Reg} (hb : s.pendBit (.thread team tid) r = true) (q : Reg) :
    (s.setPend (.thread team tid) q true).pendBit (.thread team tid) r = true := by
  cases hu : tget s.threads (tkey team tid) with
  | none => cases q <;> cases r <;> simp_all [State.setPend, State.pendBit, State.modThread, State.thread]
  | some u =>
    cases q <;> cases r <;> simp_all [State.setPend, State.pendBit, State.modThread, State.thread]

omit hl in
theorem setPends_keepBit (l : List Reg) {r : Reg} (hb : s.pendBit (.thread team tid) r = true) :
    (s.setPends (.thread team tid) l true).pendBit (.thread team tid) r = true :=
  List.foldlRecOn l _ (motive := fun (t : State) => t.pendBit (.thread team tid) r = true) hb (fun _ hb q _ => setPend_keepsBit hb q)

theorem setPends_bits {l : List Reg} (hr : ∀ r ∈ l, threadPends r) :
    ∀ r ∈ l, (s.setPends (.thread team tid) l true).pendBit (.thread team tid) r = true := by
  induction l generalizing s with
  | nil => simp
  | cons q l ih =>
    obtain ⟨first, rest⟩ := List.forall_mem_cons.mp hr
    refine List.forall_mem_cons.mpr ⟨setPends_keepBit l (setPend_bit hl first), ?_⟩
    exact ih (((setPend_only ..).live _).trans hl) rest

end Bits

/-! Joining (R174). -/

theorem waveTids_congr {s t : State} (h : t.threads.map (·.1) = s.threads.map (·.1)) (team wv : Nat) :
    t.waveTids team wv = s.waveTids team wv := by
  rw [State.waveTids, State.waveTids, liveTids_congr h]

/-- The n-th collective at an offset that a thread opens in its wave. -/
def State.opens (s : State) (team tid off n : Nat) (kind : CollKind) (j : Join) : State :=
  let w := s.wave team (tid / 32)
  (({ s with nextId := s.nextId + 1 } : State).setWave team (tid / 32) { w with
    colls := w.colls ++ [⟨s.nextId, off, n, kind, s.waveTids team (tid / 32), [j]⟩]
    opened := tset w.opened off (Nat.max n ((tget w.opened off).getD 0)) }).modThread team tid
      (fun t => { t with joins := tset t.joins off n })

section Join
variable {s : State} {team tid off : Nat} {u : Thread} {kind : CollKind} {j : Join} (hu : s.thread team tid = some u)
  (hj : j.tid = tid)
include hu hj

/-- A thread that comes to a collective that is not open yet opens it. -/
theorem joinColl_opens (hnew : ∀ e ∈ (s.wave team (tid / 32)).colls, e.off = off → e.num ≠ (tget u.joins off).getD 0 + 1)
    (hroom : (s.wave team (tid / 32)).colls.length < 4) :
    s.joinColl team off kind j = (some s.nextId, s.opens team tid off ((tget u.joins off).getD 0 + 1) kind j) := by
  have none : (s.wave team (tid / 32)).colls.find? (fun k => k.off == off && k.num == (tget u.joins off).getD 0 + 1) = none := by
    rw [List.find?_eq_none]
    intro e he
    simpa using hnew e he
  unfold State.joinColl State.opens
  rw [hj, hu]
  dsimp only
  rw [none]
  simp only [Nat.not_le.mpr hroom, if_false]

/-- Where four are open already it is parked before the word. -/
theorem joinColl_parks (hnew : ∀ e ∈ (s.wave team (tid / 32)).colls, e.off = off → e.num ≠ (tget u.joins off).getD 0 + 1)
    (hfull : 4 ≤ (s.wave team (tid / 32)).colls.length) :
    s.joinColl team off kind j = (none, s.parkThread team tid off .collective) := by
  have none : (s.wave team (tid / 32)).colls.find? (fun k => k.off == off && k.num == (tget u.joins off).getD 0 + 1) = none := by
    rw [List.find?_eq_none]
    intro e he
    simpa using hnew e he
  unfold State.joinColl
  rw [hj, hu]
  dsimp only
  rw [none]
  simp only [hfull, if_true]

end Join

theorem parkThread_parks {s : State} {team tid : Nat} {u : Thread} (hu : s.thread team tid = some u) (off : Nat) (cause : ParkCause) :
    ((s.parkThread team tid off cause).thread team tid).map (·.st) = some (.parked off cause false) := by
  have parked : ((s.parkThread team tid off cause).threads) = tmod s.threads (tkey team tid) (fun t =>
      { t with st := .parked off cause false, leave := none }) := by
    unfold State.parkThread
    dsimp only
    split <;> rfl
  rw [State.thread] at hu ⊢
  rw [parked, tget_tmod_self, hu]
  rfl

/-- A change of a thread beside its window is seen by no agent. -/
theorem modThread_view (s : State) (team tid : Nat) {f : Thread → Thread} (hf : ∀ t, (f t).win = t.win) (b : Agent) :
    (s.modThread team tid f).view b = s.view b := by
  refine view_of_windows (s := s) (t := s.modThread team tid f) rfl (fun k => ?_) b
  rw [State.modThread, tget_tmod]
  split
  · next e =>
    rw [e, Option.map_map]
    exact congrArg (Option.map · _) (funext hf)
  · rfl

section Opens
variable (s : State) (team tid off n : Nat) (kind : CollKind) (j : Join)

theorem opens_rest : let t := s.opens team tid off n kind j
    t = { s with threads := t.threads, waves := t.waves, nextId := t.nextId } := rfl

theorem opens_wave : let t := s.opens team tid off n kind j
    (t.wave team (tid / 32)).colls = (s.wave team (tid / 32)).colls ++
      [⟨s.nextId, off, n, kind, s.waveTids team (tid / 32), [j]⟩] ∧
    (t.wave team (tid / 32)).cells = (s.wave team (tid / 32)).cells := by
  intro t
  have same : t.wave team (tid / 32) = _ := wave_setWave ..
  rw [same]
  exact ⟨rfl, rfl⟩

theorem opens_view (b : Agent) : (s.opens team tid off n kind j).view b = s.view b := by
  exact (modThread_view _ team tid (f := fun t => { t with joins := tset t.joins off n }) (fun _ => rfl) b).trans
    (view_congr rfl rfl b)

theorem opens_alive (b : Agent) : (s.opens team tid off n kind j).alive b = s.alive b :=
  (OneThread.alive_modThread ..).trans (alive_congr rfl rfl b)

end Opens

/-- The one lane of a group that takes a word joins its wave's collective. -/
theorem joinLanes_alone {h : Here} {c : Ctl} {s u : State} {team tid : Nat} (hag : h.agents = [.thread team tid])
    (hone : Alone h c s (.thread team tid)) (hview : u.view (.thread team tid) = s.view (.thread team tid))
    (halive : u.alive (.thread team tid) = true) (kind : CollKind) (mk : Agent → View → Nat → Join)
    (after : Agent → Nat → Join → State → State) :
    let j := mk (.thread team tid) (s.view (.thread team tid)) tid
    joinLanes h c kind mk after u = match u.joinColl team h.group.off kind j with
      | (some id, t) => after (.thread team tid) id j t
      | (none, t) => t := by
  have guard : c.guard.holds (s.view (.thread team tid)) = true := by
    have mem : Agent.thread team tid ∈ h.taking c s := by rw [hone.takes]; exact List.mem_singleton_self _
    exact (List.mem_filter.mp mem).2
  intro j
  unfold joinLanes
  rw [hag, eachLane_one _ halive]
  dsimp only
  rw [hview, if_pos guard]
  rcases u.joinColl team h.group.off kind j with ⟨_ | id, t⟩ <;> rfl

/-! Votes and exchanges (R175, R176). -/

/-- A lane that comes to a collective of its wave that is not open yet. -/
structure Here.Comes (h : Here) (c : Ctl) (s : State) (tid : Nat) (u : Thread) : Prop where
  agents : h.agents = [.thread h.pass.team tid]
  alone : Alone h c s (.thread h.pass.team tid)
  thread : s.thread h.pass.team tid = some u
  fresh : ∀ e ∈ (s.wave h.pass.team (tid / 32)).colls, e.off = h.group.off → e.num ≠ (tget u.joins h.group.off).getD 0 + 1

section Comes
variable {h : Here} {c : Ctl} {s : State} {tid : Nat} {u : Thread} (hc : h.Comes c s tid u) {i : Instr} {kind : CollKind} {j : Join}
  (htid : j.tid = tid)
include hc htid

theorem Here.Comes.joins (hroom : (s.wave h.pass.team (tid / 32)).colls.length < 4) :
    (s.issued h i c).joinColl h.pass.team h.group.off kind j =
      (some s.nextId, (s.issued h i c).opens h.pass.team tid h.group.off ((tget u.joins h.group.off).getD 0 + 1) kind j) :=
  joinColl_opens (s := s.issued h i c) hc.thread htid hc.fresh hroom

theorem Here.Comes.parks (hfull : 4 ≤ (s.wave h.pass.team (tid / 32)).colls.length) :
    (s.issued h i c).joinColl h.pass.team h.group.off kind j =
      (none, (s.issued h i c).parkThread h.pass.team tid h.group.off .collective) :=
  joinColl_parks (s := s.issued h i c) hc.thread htid hc.fresh hfull

variable {mk : Agent → View → Nat → Join} {regs : List Reg}
  (hmk : mk (.thread h.pass.team tid) (s.view (.thread h.pass.team tid)) tid = j)
  (hexec : exec i s = .next (joinLanes h c kind mk (fun ag _ j s => if j.takes then s.setPends ag regs true else s) (s.issued h i c)))
include hmk hexec

/-- The lane opens a collective with its contribution, and waits for its registers. -/
theorem Here.Comes.opens (hh : s.here = some h) (htakes : j.takes = true) (hregs : ∀ r ∈ regs, threadPends r) (hroom : (s.wave h.pass.team (tid / 32)).colls.length < 4) :
    nextWith (exec i s) (fun t => t.hbm = s.hbm ∧ t.hostMem = s.hostMem ∧ movedOn h c t ∧
      (∀ r ∈ regs, t.pendBit (.thread h.pass.team tid) r = true) ∧
      ∃ id, (t.wave h.pass.team (tid / 32)).colls = (s.wave h.pass.team (tid / 32)).colls ++
        [⟨id, h.group.off, (tget u.joins h.group.off).getD 0 + 1, kind, s.waveTids h.pass.team (tid / 32), [j]⟩]) := by
  have runs := hexec
  rw [joinLanes_alone hc.agents hc.alone (issued_view ..) ((issued_alive ..).trans hc.alone.alive), hmk, hc.joins htid hroom] at runs
  have hi := issued_rest s h i c
  have moved := issued_moves hh i c
  have live : (s.issued h i c).alive (.thread h.pass.team tid) = true := (issued_alive ..).trans hc.alone.alive
  have threads := issued_threads s h i c
  generalize s.issued h i c = v at runs hi moved live threads
  have rest := opens_rest v h.pass.team tid h.group.off ((tget u.joins h.group.off).getD 0 + 1) kind j
  have wave := (opens_wave v h.pass.team tid h.group.off ((tget u.joins h.group.off).getD 0 + 1) kind j).1
  have alive := (opens_alive v h.pass.team tid h.group.off ((tget u.joins h.group.off).getD 0 + 1) kind j _).trans live
  have same : v.wave h.pass.team (tid / 32) = s.wave h.pass.team (tid / 32) := by rw [hi]; rfl
  have tids : v.waveTids h.pass.team (tid / 32) = s.waveTids h.pass.team (tid / 32) := waveTids_congr (by rw [threads]) ..
  rw [same, tids] at wave
  dsimp only at rest
  generalize v.opens h.pass.team tid h.group.off ((tget u.joins h.group.off).getD 0 + 1) kind j = w at runs rest wave alive
  have bits := setPends_bits alive hregs
  have pends := setPends_thread_rest w h.pass.team tid regs true
  simp only [htakes, if_true] at runs
  generalize w.setPends (.thread h.pass.team tid) regs true = t at runs bits pends
  refine ⟨t, runs, ?_, ?_, movedOn_congr ?_ moved, bits, v.nextId, ?_⟩
  · rw [pends, rest, hi]
  · rw [pends, rest, hi]
  · rw [pends, rest]
  · rw [pends]
    exact wave

/-- Where four are open already, it is parked. -/
theorem Here.Comes.waits (hfull : 4 ≤ (s.wave h.pass.team (tid / 32)).colls.length) :
    nextWith (exec i s) (fun t => (t.thread h.pass.team tid).map (·.st) = some (.parked h.group.off .collective false)) := by
  have runs := hexec
  rw [joinLanes_alone hc.agents hc.alone (issued_view ..) ((issued_alive ..).trans hc.alone.alive), hmk, hc.parks htid hfull] at runs
  exact ⟨_, runs, parkThread_parks (s := s.issued h i c) hc.thread _ _⟩

end Comes

/-- The x registers of a destination, and none of the zero one, have bits of the thread. -/
theorem dstRegs_pend {d : Dst} {wide : Bool} (hd : d = .zero ∨ ∃ r, d = .x r) (hpair : d.pairOk wide = true) :
    ∀ r ∈ Dst.regs wide d, threadPends r := by
  rcases hd with rfl | ⟨r, rfl⟩
  · simp [Dst.regs]
  · have hr := r.isLt
    cases wide with
    | false => simp [Dst.regs, threadPends]
    | true =>
      have even : r.val % 2 = 0 := by simpa [Dst.pairOk] using hpair
      simp only [Dst.regs, if_true, List.mem_cons, List.not_mem_nil, or_false, forall_eq_or_imp, forall_eq, threadPends]
      exact ⟨hr, by omega⟩

theorem wvote_pends {c : Ctl} {m : Vote} {k : Fin 8} {s : State} {h : Here} (hr : Ready (.wvote c m k) s h) :
    ∀ r ∈ Vote.dstRegs m, threadPends r := by
  have form := hr.form
  cases m with
  | ballot d =>
    have kind : d = .zero ∨ ∃ r, d = .x r := by
      cases d <;> simp_all [Instr.formOk, Instr.dst?, Instr.dstKinds, Instr.legalIn, Instr.variableLatency]
    exact dstRegs_pend kind (by cases d <;> rfl)
  | any d | all d | uni d =>
    cases d with
    | none => simp [Vote.dstRegs, kdRegs]
    | some r => simp [Vote.dstRegs, kdRegs, threadPends]

theorem wxch_pends {c : Ctl} {x : Xch} {ty : Ty} {d : Dst} {a b : Src} {s : State} {h : Here} (hr : Ready (.wxch c x ty d a b) s h) :
    ∀ r ∈ Dst.regs ty.wide d, threadPends r := by
  have form := hr.form
  have wf := hr.wf
  have kind : d = .zero ∨ ∃ r, d = .x r := by
    cases d <;> simp_all [Instr.formOk, Instr.dst?, Instr.dstKinds, Instr.legalIn, Instr.variableLatency]
  refine dstRegs_pend kind ?_
  simp only [Instr.wf, Bool.and_eq_true] at wf
  tauto

theorem execWvote_joins {c : Ctl} {m : Vote} {k : Fin 8} {s : State} {h : Here} (hr : Ready (.wvote c m k) s h) :
    exec (.wvote c m k) s = .next (joinLanes h c (.vote m)
      (fun _ v tid => ⟨tid, true, BitVec.ofNat 64 (natOfBool (v.kf k)), 0, false⟩)
      (fun ag _ j s => if j.takes then s.setPends ag (Vote.dstRegs m) true else s) (s.issued h (.wvote c m k) c)) :=
  issue_done hr rfl

theorem execWxch_joins {c : Ctl} {x : Xch} {ty : Ty} {d : Dst} {a b : Src} {s : State} {h : Here}
    (hr : Ready (.wxch c x ty d a b) s h) : exec (.wxch c x ty d a b) s = .next (joinLanes h c (.xch x ty.wide d)
      (fun _ v tid => ⟨tid, true, v.src ty a, v.src32 b, false⟩)
      (fun ag _ j s => if j.takes then s.setPends ag (Dst.regs ty.wide d) true else s) (s.issued h (.wxch c x ty d a b) c)) :=
  issue_done hr rfl

/-! COMMIT.w and ABORT.w (R163, R188, R190, R318). -/

/-- The cells of a wave that a thread's COMMIT.w or ABORT.w takes with it. -/
def Wave.marked (w : Wave) (tid id : Nat) (left : Bool) : List WCell :=
  w.cells.map (fun e => if (e.writer = tid ∨ (left ∧ e.writer = 8192)) ∧ e.inst = none then { e with inst := some id } else e)

theorem joinStores_joins {h : Here} {c : Ctl} {s : State} {tid : Nat} {u : Thread} (hc : h.Comes c s tid u) {i : Instr}
    {k : CollKind}
    (hmeets : s.meetsCells (.thread h.pass.team tid) (((s.wave h.pass.team (tid / 32)).openCells tid).map (·.key)) = false)
    (hroom : (s.wave h.pass.team (tid / 32)).colls.length < 4) :
    joinStores h c k (s.issued h i c) = .done (((s.issued h i c).opens h.pass.team tid h.group.off
      ((tget u.joins h.group.off).getD 0 + 1) k ⟨tid, true, 0, 0, false⟩).markCells h.pass.team tid s.nextId (k == .commit)) := by
  have meets : (s.issued h i c).meetsCells (.thread h.pass.team tid)
      ((((s.issued h i c).wave h.pass.team (tid / 32)).openCells tid).map (·.key)) = false := hmeets
  have joined := hc.joins (i := i) (kind := k) (j := ⟨tid, true, 0, 0, false⟩) rfl hroom
  unfold joinStores
  dsimp only
  rw [issued_taking, hc.alone.takes]
  simp only [List.any_cons, List.any_nil, Bool.or_false, meets, Bool.false_eq_true, if_false]
  rw [joinLanes_alone hc.agents hc.alone (issued_view ..) ((issued_alive ..).trans hc.alone.alive), joined]
  rfl

theorem markCells_rest (s : State) (team tid id : Nat) (left : Bool) :
    let t := s.markCells team tid id left
    t = { s with waves := t.waves } := rfl

theorem markCells_wave (s : State) (team tid id : Nat) (left : Bool) :
    (s.markCells team tid id left).wave team (tid / 32) =
      { s.wave team (tid / 32) with cells := (s.wave team (tid / 32)).marked tid id left } := wave_setWave ..

/-- A word that opens a collective and marks the thread's stores as its own does that alone. -/
theorem nextWith_joinedStores {h : Here} {c : Ctl} {s : State} {tid : Nat} {u : Thread} {i : Instr} {k : CollKind} (hh : s.here = some h)
    (hexec : exec i s = .next (((s.issued h i c).opens h.pass.team tid h.group.off
      ((tget u.joins h.group.off).getD 0 + 1) k ⟨tid, true, 0, 0, false⟩).markCells h.pass.team tid s.nextId (k == .commit))) :
    nextWith (exec i s) (fun t =>
      t = { s with threads := t.threads, waves := t.waves, passes := t.passes, perf := t.perf, nextId := t.nextId } ∧
      movedOn h c t ∧ (∀ b, t.view b = s.view b) ∧ ∃ id,
        (t.wave h.pass.team (tid / 32)).colls = (s.wave h.pass.team (tid / 32)).colls ++
          [⟨id, h.group.off, (tget u.joins h.group.off).getD 0 + 1, k, s.waveTids h.pass.team (tid / 32), [⟨tid, true, 0, 0, false⟩]⟩] ∧
        (t.wave h.pass.team (tid / 32)).cells = (s.wave h.pass.team (tid / 32)).marked tid id (k == .commit)) := by
  have hi := issued_rest s h i c
  have moved := issued_moves hh i c
  have threads := issued_threads s h i c
  have views := fun b => issued_view s h i c b
  generalize s.issued h i c = v at hexec hi moved threads views
  have same : v.wave h.pass.team (tid / 32) = s.wave h.pass.team (tid / 32) := by rw [hi]; rfl
  have tids : v.waveTids h.pass.team (tid / 32) = s.waveTids h.pass.team (tid / 32) := waveTids_congr (by rw [threads]) ..
  have id : v.nextId = s.nextId := by rw [hi]
  have rest := opens_rest v h.pass.team tid h.group.off ((tget u.joins h.group.off).getD 0 + 1) k ⟨tid, true, 0, 0, false⟩
  have wave := opens_wave v h.pass.team tid h.group.off ((tget u.joins h.group.off).getD 0 + 1) k ⟨tid, true, 0, 0, false⟩
  have view := fun b => opens_view v h.pass.team tid h.group.off ((tget u.joins h.group.off).getD 0 + 1) k ⟨tid, true, 0, 0, false⟩ b
  dsimp only at rest wave
  rw [same, tids, id] at wave
  generalize v.opens h.pass.team tid h.group.off ((tget u.joins h.group.off).getD 0 + 1) k ⟨tid, true, 0, 0, false⟩ = w
    at hexec rest wave view
  have marks := markCells_rest w h.pass.team tid s.nextId (k == .commit)
  have marked := markCells_wave w h.pass.team tid s.nextId (k == .commit)
  dsimp only at marks
  generalize w.markCells h.pass.team tid s.nextId (k == .commit) = t at hexec marks marked
  refine ⟨t, hexec, ?_, movedOn_congr ?_ moved, fun b => ?_, s.nextId, ?_, ?_⟩
  · rw [marks, rest, hi]
  · rw [marks, rest]
  · exact (view_congr (by rw [marks]) (by rw [marks]) b).trans ((view b).trans (views b))
  · rw [marked]
    exact wave.1
  · rw [marked, Wave.marked, wave.2]
    rfl

/-- A lane that takes the word waits neither for its accesses nor, at its wave, for its team's. -/
theorem storesFree {h : Here} {c : Ctl} {s : State} {tid : Nat} {u : Thread} (hc : h.Comes c s tid u)
    (hheld : s.heldBy (.thread h.pass.team tid) (·.data) = false) (i : Instr) :
    ((h.taking c (s.issued h i c)).any (fun a => (s.issued h i c).heldBy a (·.data)) ||
      (Lv.w != Lv.w && h.setsBusy (s.issued h i c) .w)) = false := by
  have level : (Lv.w != Lv.w) = false := rfl
  rw [issued_taking, hc.alone.takes, level]
  simp only [List.any_cons, List.any_nil, issued_heldBy, hheld, Bool.false_and, Bool.or_false]

theorem execCommit_joins {h : Here} {c : Ctl} {s : State} {tid : Nat} {u : Thread} (hc : h.Comes c s tid u)
    (hr : Ready (.commit c .w) s h) (hheld : s.heldBy (.thread h.pass.team tid) (·.data) = false)
    (hmeets : s.meetsCells (.thread h.pass.team tid) (((s.wave h.pass.team (tid / 32)).openCells tid).map (·.key)) = false)
    (hroom : (s.wave h.pass.team (tid / 32)).colls.length < 4) :
    exec (.commit c .w) s = .next (((s.issued h (.commit c .w) c).opens h.pass.team tid h.group.off
      ((tget u.joins h.group.off).getD 0 + 1) .commit ⟨tid, true, 0, 0, false⟩).markCells h.pass.team tid s.nextId true) := by
  have joined := joinStores_joins hc (i := .commit c .w) (k := .commit) hmeets hroom
  have free := storesFree hc hheld (.commit c .w)
  refine issue_done hr ?_
  dsimp only
  rw [free]
  exact joined

theorem execAbort_joins {h : Here} {c : Ctl} {s : State} {tid : Nat} {u : Thread} (hc : h.Comes c s tid u)
    (hr : Ready (.abort c .w) s h) (hheld : s.heldBy (.thread h.pass.team tid) (·.data) = false)
    (hmeets : s.meetsCells (.thread h.pass.team tid) (((s.wave h.pass.team (tid / 32)).openCells tid).map (·.key)) = false)
    (hroom : (s.wave h.pass.team (tid / 32)).colls.length < 4) :
    exec (.abort c .w) s = .next (((s.issued h (.abort c .w) c).opens h.pass.team tid h.group.off
      ((tget u.joins h.group.off).getD 0 + 1) .abort ⟨tid, true, 0, 0, false⟩).markCells h.pass.team tid s.nextId false) := by
  have joined := joinStores_joins hc (i := .abort c .w) (k := .abort) hmeets hroom
  have free := storesFree hc hheld (.abort c .w)
  refine issue_done hr ?_
  dsimp only
  rw [free]
  exact joined

end Sys2Proof.Machine
end

section
/-! PROOF. Wave collectives (R174 to R176): the values that votes and exchanges give, and the bytes that a merge places. -/

namespace Sys2Proof.Machine

/-! The ballot (R175). -/

/-- A power of two added to a number without that bit sets that bit alone. -/
theorem ofNat_add_two_pow {n p : Nat} (hp : p < 32) (hn : (BitVec.ofNat 32 n).getLsbD p = false) (i : Nat) :
    (BitVec.ofNat 32 (n + 2 ^ p)).getLsbD i = ((BitVec.ofNat 32 n).getLsbD i || p == i) := by
  have apart : BitVec.ofNat 32 n &&& BitVec.twoPow 32 p = 0#32 := by
    refine BitVec.eq_of_getLsbD_eq fun j _ => ?_
    rw [BitVec.getLsbD_and, BitVec.getLsbD_twoPow, BitVec.getLsbD_zero]
    by_cases e : p = j
    · rw [← e, hn, Bool.false_and]
    · rw [decide_eq_false e, Bool.and_false, Bool.and_false]
  have pow : BitVec.ofNat 32 (2 ^ p) = BitVec.twoPow 32 p := by
    refine BitVec.eq_of_toNat_eq ?_
    rw [BitVec.toNat_ofNat, BitVec.toNat_twoPow]
  rw [BitVec.ofNat_add, pow, BitVec.add_eq_or_of_and_eq_zero _ _ apart, BitVec.getLsbD_or, BitVec.getLsbD_twoPow, decide_eq_true hp,
    Bool.true_and]
  rfl

/-- The bits of a ballot are those of the lanes that voted 1, where no two are of one position. -/
theorem ballot_bits (l : List Join) (hl : (l.map (fun j => j.tid % 32)).Nodup) (n : Nat)
    (hn : ∀ j ∈ l, (BitVec.ofNat 32 n).getLsbD (j.tid % 32) = false) (i : Nat) :
    (BitVec.ofNat 32 (l.foldl (fun n j => if j.value == 1 then n + 2 ^ (j.tid % 32) else n) n)).getLsbD i =
      ((BitVec.ofNat 32 n).getLsbD i || l.any (fun j => j.value == 1 && j.tid % 32 == i)) := by
  induction l generalizing n with
  | nil => simp
  | cons j l ih =>
    obtain ⟨new, apart⟩ := List.nodup_cons.mp hl
    obtain ⟨free, later⟩ := List.forall_mem_cons.mp hn
    rw [List.foldl_cons, List.any_cons]
    cases one : j.value == 1 with
    | false => simpa using ih apart n later
    | true =>
      have bits := ofNat_add_two_pow (Nat.mod_lt j.tid (by decide : 0 < 32)) free
      rw [if_pos rfl, ih apart, bits, Bool.true_and, Bool.or_assoc]
      intro e he
      have other : j.tid % 32 ≠ e.tid % 32 := fun same => new (List.mem_map.mpr ⟨e, he, same.symm⟩)
      rw [bits, later e he, Bool.false_or, beq_eq_false_iff_ne.mpr other]

/-! The values of votes. -/

theorem voteVal_ballot {l : List Join} (hl : (l.map (fun j => j.tid % 32)).Nodup) (d : Dst) (i : Nat) :
    (voteVal (.ballot d) l).getLsbD i = l.any (fun j => j.value == 1 && j.tid % 32 == i) := by
  have bits := ballot_bits l hl 0 (fun _ _ => by simp) i
  rwa [BitVec.getLsbD_zero, Bool.false_or] at bits

/-- What a reduction gives: 1 where it holds, else 0. -/
theorem ofNat_natOfBool (b : Bool) : BitVec.ofNat 32 (natOfBool b) = if b = true then 1 else 0 := by cases b <;> rfl

theorem voteVal_any (l : List Join) (d : KDst) : voteVal (.any d) l = if ∃ j ∈ l, j.value = 1 then 1 else 0 := by
  simp only [voteVal, ofNat_natOfBool, List.any_eq_true, beq_iff_eq]

theorem voteVal_all (l : List Join) (d : KDst) : voteVal (.all d) l = if ∀ j ∈ l, j.value = 1 then 1 else 0 := by
  simp only [voteVal, ofNat_natOfBool, List.all_eq_true, beq_iff_eq]

theorem voteVal_uni (l : List Join) (d : KDst) :
    voteVal (.uni d) l = if (∀ j ∈ l, j.value = 1) ∨ (∀ j ∈ l, j.value ≠ 1) then 1 else 0 := by
  simp only [voteVal, ofNat_natOfBool, Bool.or_eq_true, List.all_eq_true, beq_iff_eq, Bool.not_eq_true', beq_eq_false_iff_ne]

/-! The values of exchanges (R176). -/

/-- A value in halves is what an instruction writes of it. -/
theorem splitRegs_dst (d : Dst) (wide : Bool) (v : DWord) : splitRegs (Dst.regs wide d) v = dstWrites d wide v := by
  cases d <;> cases wide <;> simp [splitRegs, Dst.regs, dstWrites, List.zipIdx]

/-- The source position of an exchange (R176). -/
def xchSource (x : Xch) (j : Join) : Int :=
  match x with
  | .idx => (j.sel.toNat : Int) % 32
  | .up => ((j.tid % 32 : Nat) : Int) - (j.sel.toNat : Int)
  | .down => ((j.tid % 32 : Nat) : Int) + (j.sel.toNat : Int)
  | .xor => (((j.tid % 32) ^^^ (j.sel.toNat % 32) : Nat) : Int)

/-- The value of the contributor at a position, or else a value of the lane's own. -/
def laneValue (l : List Join) (p : Nat) (own : DWord) : DWord :=
  match l.find? (fun i => i.tid % 32 == p) with | some i => i.value | none => own

theorem laneValue_at {l : List Join} (hl : (l.map (fun j => j.tid % 32)).Nodup) {i : Join} (hi : i ∈ l) {p : Nat} (hp : i.tid % 32 = p)
    (own : DWord) : laneValue l p own = i.value := by
  unfold laneValue
  cases found : l.find? (fun i => i.tid % 32 == p) with
  | none => exact absurd (by simp [hp]) (List.find?_eq_none.mp found i hi)
  | some e =>
    have there : e.tid % 32 = p := by simpa using List.find?_some found
    rw [List.inj_on_of_nodup_map hl (List.mem_of_find?_eq_some found) hi (there.trans hp.symm)]

theorem laneValue_absent {l : List Join} {p : Nat} (hl : ∀ i ∈ l, i.tid % 32 ≠ p) (own : DWord) : laneValue l p own = own := by
  have none : l.find? (fun i => i.tid % 32 == p) = none := List.find?_eq_none.mpr (by simpa using hl)
  simp [laneValue, none]

/-- An exchange gives its lane the value at the source position, where that is one of the wave's. -/
theorem xchVal_lane (x : Xch) (l : List Join) (j : Join) :
    (∃ p : Nat, xchSource x j = p ∧ xchVal x l j = laneValue l p j.value) ∨ (xchSource x j < 0 ∧ xchVal x l j = j.value) := by
  cases x with
  | idx => exact .inl ⟨j.sel.toNat % 32, by simp [xchSource], rfl⟩
  | down => exact .inl ⟨j.tid % 32 + j.sel.toNat, by simp [xchSource], rfl⟩
  | xor => exact .inl ⟨(j.tid % 32) ^^^ (j.sel.toNat % 32), rfl, rfl⟩
  | up =>
    by_cases le : j.sel.toNat ≤ j.tid % 32
    · refine .inl ⟨j.tid % 32 - j.sel.toNat, (Int.ofNat_sub le).symm, ?_⟩
      simp only [xchVal, le, if_true]
      rfl
    · refine .inr ⟨?_, by simp only [xchVal, le, if_false]⟩
      have : j.tid % 32 < j.sel.toNat := Nat.lt_of_not_le le
      simp only [xchSource]
      omega

theorem xchVal_at {l : List Join} (hl : (l.map (fun j => j.tid % 32)).Nodup) {i : Join} (hi : i ∈ l) {x : Xch} {j : Join}
    (hp : ((i.tid % 32 : Nat) : Int) = xchSource x j) : xchVal x l j = i.value := by
  rcases xchVal_lane x l j with ⟨p, src, value⟩ | ⟨src, -⟩
  · rw [value, laneValue_at hl hi (Int.ofNat_inj.mp (hp.trans src))]
  · omega

theorem xchVal_absent {l : List Join} {x : Xch} {j : Join} (hl : ∀ i ∈ l, ((i.tid % 32 : Nat) : Int) ≠ xchSource x j) :
    xchVal x l j = j.value := by
  rcases xchVal_lane x l j with ⟨p, src, value⟩ | ⟨-, value⟩
  · rw [value, laneValue_absent (fun i hi same => hl i hi (by rw [src, same]))]
  · exact value

/-! Bytes that enter a team set (R188, R189). -/

theorem scell_sput_self (k : Nat) (b : Byte) (m : Option Nat) (l : List SCell) : scell (sput k b m l) k = some b := by
  induction l with
  | nil => simp [sput, scell]
  | cons c l ih =>
    unfold sput
    split
    · simp [scell]
    · next ge =>
      split
      · simp [scell]
      · next ne =>
        have other : (c.key == k) = false := by simpa using fun e => ne e.symm
        simpa [scell, List.find?_cons, other] using ih

theorem scell_sput_ne {k k' : Nat} (hk : k' ≠ k) (b : Byte) (m : Option Nat) (l : List SCell) :
    scell (sput k b m l) k' = scell l k' := by
  have other : (k == k') = false := by simpa using fun e => hk e.symm
  induction l with
  | nil => simp [sput, scell, other]
  | cons c l ih =>
    unfold sput
    split
    · simp [scell, List.find?_cons, other]
    · next ge =>
      split
      · next e =>
        have same : (c.key == k') = false := by rw [← e, other]
        simp [scell, other, same]
      · cases at' : c.key == k' with
        | true => simp [scell, at']
        | false => simpa [scell, List.find?_cons, at'] using ih

/-- The team set with the cells of a wave merged into it. -/
def mergedSet (who : Nat) (taken : List WCell) (set : List SCell) : List SCell :=
  taken.foldl (fun l c => sput c.key c.byte (some who) l) set

/-- Of a place that no cell is of, the set holds what it held. -/
theorem scell_mergedSet_absent (who : Nat) {taken : List WCell} {key : Nat} (hk : ∀ c ∈ taken, c.key ≠ key) (set : List SCell) :
    scell (mergedSet who taken set) key = scell set key := by
  unfold mergedSet
  induction taken generalizing set with
  | nil => rfl
  | cons c l ih =>
    obtain ⟨first, rest⟩ := List.forall_mem_cons.mp hk
    rw [List.foldl_cons, ih rest, scell_sput_ne first.symm]

/-- A byte that all cells of its place agree in is held from then on. -/
theorem scell_mergedSet_keeps (who : Nat) {taken : List WCell} {key : Nat} {b : Byte} (hb : ∀ c ∈ taken, c.key = key → c.byte = b)
    {set : List SCell} (held : scell set key = some b) : scell (mergedSet who taken set) key = some b := by
  refine List.foldlRecOn taken _ (motive := fun l => scell l key = some b) held (fun l held c hc => ?_)
  by_cases e : c.key = key
  · rw [← e, scell_sput_self, hb c hc e]
  · rw [scell_sput_ne (Ne.symm e), held]

theorem scell_mergedSet_of_mem (who : Nat) {taken : List WCell} {c : WCell} (hc : c ∈ taken)
    (hb : ∀ c' ∈ taken, c'.key = c.key → c'.byte = c.byte) (set : List SCell) :
    scell (mergedSet who taken set) c.key = some c.byte := by
  obtain ⟨before, after, rfl⟩ := List.append_of_mem hc
  have agree : ∀ c' ∈ after, c'.key = c.key → c'.byte = c.byte := fun c' h =>
    hb c' (List.mem_append_right _ (List.mem_cons_of_mem _ h))
  have split : mergedSet who (before ++ c :: after) set =
      mergedSet who after (sput c.key c.byte (some who) (mergedSet who before set)) := by
    simp only [mergedSet, List.foldl_append, List.foldl_cons]
  rw [split]
  exact scell_mergedSet_keeps who agree (scell_sput_self ..)

end Sys2Proof.Machine
end

section
/-! PROOF. Wave collectives (R174 to R176, R188 to R190): a complete collective gives its results. -/

namespace Sys2Proof.Machine

/-! Results on their way, one after another. -/

/-- The live contributors of a collective are each given their registers' values. -/
def State.gives (s : State) (team : Nat) (f : Join → List (Reg × Word)) (l : List Join) : State :=
  l.foldl (fun s j => if j.gone then s else s.later (.thread team j.tid) (f j)) s

theorem later_pends (s : State) (a : Agent) (l : List (Reg × Word)) :
    (s.later a l).pends = s.pends ++ [(s.nextId, ⟨a, .ready l, 0⟩)] := by
  obtain ⟨-, he⟩ := pend_spec s a (.ready l) (l.map (·.1)) 0
  rw [State.later, he]

/-- What is on its way stays so while more results enter. -/
theorem coming_of_pends {s t : State} {m : List (Nat × Pend)} (h : t.pends = s.pends ++ m) {a : Agent} {l : List (Reg × Word)}
    (hc : s.coming a l) : t.coming a l := by
  obtain ⟨e, he, is⟩ := hc
  exact ⟨e, by rw [h]; exact List.mem_append_left _ he, is⟩

section Gives
variable (s : State) (team : Nat) (f : Join → List (Reg × Word)) (l : List Join)

theorem gives_rest : let t := s.gives team f l
    t = { s with threads := t.threads, teams := t.teams, pends := t.pends, nextId := t.nextId } := by
  unfold State.gives
  refine List.foldlRecOn l _ (motive := fun (t : State) =>
    t = { s with threads := t.threads, teams := t.teams, pends := t.pends, nextId := t.nextId }) rfl (fun t rest j _ => ?_)
  split
  · exact rest
  · have step := later_rest t (.thread team j.tid) (f j)
    dsimp only at step
    rw [step, rest]

theorem gives_keys : (s.gives team f l).threads.map (·.1) = s.threads.map (·.1) := by
  unfold State.gives
  refine List.foldlRecOn l _ (motive := fun (t : State) => t.threads.map (·.1) = s.threads.map (·.1)) rfl (fun t keys j _ => ?_)
  split
  · exact keys
  · exact (later_keys ..).trans keys

theorem gives_pends : ∃ m, (s.gives team f l).pends = s.pends ++ m := by
  unfold State.gives
  refine List.foldlRecOn l _ (motive := fun (t : State) => ∃ m, t.pends = s.pends ++ m) ⟨[], (List.append_nil _).symm⟩
    (fun t more j _ => ?_)
  split
  · exact more
  · obtain ⟨m, hm⟩ := more
    exact ⟨m ++ [(t.nextId, ⟨.thread team j.tid, .ready (f j), 0⟩)], by rw [later_pends, hm, List.append_assoc]⟩

variable {l}

theorem gives_coming {j : Join} (hj : j ∈ l) (hg : j.gone = false) : (s.gives team f l).coming (.thread team j.tid) (f j) := by
  obtain ⟨before, after, rfl⟩ := List.append_of_mem hj
  have split : s.gives team f (before ++ j :: after) =
      ((s.gives team f before).later (.thread team j.tid) (f j)).gives team f after := by
    simp only [State.gives, List.foldl_append, List.foldl_cons, hg, Bool.false_eq_true, if_false]
  obtain ⟨m, hm⟩ := gives_pends ((s.gives team f before).later (.thread team j.tid) (f j)) team f after
  rw [split]
  exact coming_of_pends hm (coming_later ..)

end Gives

/-! A collective that leaves its wave (R174). -/

/-- A thread parked for want of a collective may resume. -/
def Thread.mayResume (t : Thread) : Thread :=
  match t.st with
  | .parked off .collective _ => { t with st := .parked off .collective true }
  | _ => t

/-- A wave without a collective and the cells that are the collective's. -/
def Wave.without (w : Wave) (id : Nat) : Wave :=
  { w with cells := w.cells.filter (fun c => c.inst != some id), colls := w.colls.filter (fun e => e.id != id) }

/-- What a collective's completion does first: it leaves its wave, and the threads parked for one may resume. -/
def State.closes (s : State) (team wv id : Nat) : State :=
  let t := s.setWave team wv ((s.wave team wv).without id)
  (t.waveTids team wv).foldl (fun s tid => s.modThread team tid Thread.mayResume) t

section Closes
variable (s : State) (team wv id : Nat)

theorem closes_rest : let t := s.closes team wv id
    t = { s with waves := tset s.waves (wkey team wv) ((s.wave team wv).without id), threads := t.threads } := by
  unfold State.closes
  dsimp only
  refine List.foldlRecOn _ _ (motive := fun (t : State) =>
    t = { s with waves := tset s.waves (wkey team wv) ((s.wave team wv).without id), threads := t.threads }) rfl
    (fun t rest tid _ => ?_)
  rw [rest]
  rfl

theorem closes_keys : (s.closes team wv id).threads.map (·.1) = s.threads.map (·.1) := by
  unfold State.closes
  dsimp only
  refine List.foldlRecOn _ _ (motive := fun (t : State) => t.threads.map (·.1) = s.threads.map (·.1)) rfl (fun t keys tid _ => ?_)
  exact (tmod_keys ..).trans keys

theorem closes_wave : (s.closes team wv id).wave team wv = (s.wave team wv).without id := by
  rw [closes_rest]
  exact wave_setWave ..

theorem closes_place (q : Nat) : (s.closes team wv id).place q = s.place q := by
  rw [closes_rest]
  rfl

end Closes

section Finish
variable {s : State} {team wv : Nat} {k : Coll}

theorem finishColl_vote {m : Vote} (hk : k.kind = .vote m) : s.finishColl team wv k =
    (s.closes team wv k.id).gives team (fun _ => (Vote.dstRegs m).map (fun r => (r, voteVal m k.contributors))) k.contributors := by
  unfold State.finishColl
  rw [hk]
  rfl

theorem finishColl_xch {x : Xch} {wide : Bool} {d : Dst} (hk : k.kind = .xch x wide d) : s.finishColl team wv k =
    (s.closes team wv k.id).gives team (fun j => dstWrites d wide (xchVal x k.contributors j)) k.contributors := by
  simp only [← splitRegs_dst]
  unfold State.finishColl
  rw [hk]
  rfl

theorem finishColl_abort (hk : k.kind = .abort) : s.finishColl team wv k = s.closes team wv k.id := by
  unfold State.finishColl
  rw [hk]
  rfl

end Finish

/-! What follows a step (R163, R174). -/

/-- A wave that has one collective, which has all it awaits, has it completed; its stores stay while it has live threads. -/
theorem settleWaves_one {s : State} {team wv : Nat} {w : Wave} {k : Coll} (hwv : wv < 256) (hs : s.waves = [(wkey team wv, w)])
    (hw : w.colls = [k]) (hk : ∀ i ∈ k.awaited, ∃ j ∈ k.joined, j.tid = i ∧ j.gone = false)
    (hkeys : (s.finishColl team wv k).threads.map (·.1) = s.threads.map (·.1)) (hlive : s.waveTids team wv ≠ []) :
    s.settleWaves = s.finishColl team wv k := by
  have complete : k.complete = true := by
    simp only [Coll.complete, List.all_eq_true, List.any_eq_true, Bool.and_eq_true, beq_iff_eq, Bool.not_eq_true']
    exact hk
  have teamOf : wkey team wv / 256 = team := by unfold wkey; omega
  have waveOf : wkey team wv % 256 = wv := by unfold wkey; omega
  have live : ((s.finishColl team wv k).waveTids team wv).isEmpty = false := by
    rw [waveTids_congr hkeys]
    simpa using hlive
  unfold State.settleWaves
  rw [hs]
  simp only [List.foldl_cons, List.foldl_nil, hw, complete, if_true, teamOf, waveOf, live, Bool.and_false, Bool.false_eq_true,
    if_false]
  split <;> rfl

/-! A merge into the team set (R188, R189). -/

/-- A team with the cells of a wave merged into its set, and the merge's conflict counted. -/
def Team.merged (who : Nat) (taken : List WCell) (c : Option Nat) (m : Team) : Team :=
  { m with set := mergedSet who taken m.set, tconf := if c.isSome then satInc m.tconf else m.tconf }

/-- A counter is no part of a place. -/
theorem place_count (s : State) (h : Place) (core ctr n team : Nat) : (s.count h core ctr n).place team = s.place team := rfl

theorem modTeam_other (s : State) (f : Team → Team) {team q : Nat} (hq : q ≠ team) :
    tget (s.modTeam team f).teams q = tget s.teams q := tget_tmod_ne _ _ hq

section Merge
variable {s : State} {team who : Nat} {p : Place} {taken : List WCell} (hp : s.place team = some p)
  (hroom : (s.modTeam team (fun m => { m with set := mergedSet who taken m.set })).teamSectors team ≤ p.image.teamCap) (off : Nat)
include hp hroom

/-- A merge that fits enters its bytes, and counts a conflict. -/
theorem mergeTeam_fits : let r := s.mergeTeam team off who (taken.map WCell.pair)
    r.2 = { s with teams := r.2.teams, perf := r.2.perf } ∧ (∀ q, q ≠ team → tget r.2.teams q = tget s.teams q) ∧
      r.2.place team = some { p with team := p.team.merged who taken (conflict p.team.set who (taken.map WCell.pair)) } := by
  have merges : (fun (m : Team) => { m with set := (taken.map WCell.pair).foldl (fun l e => sput e.1 e.2 (some who) l) m.set }) =
      fun m => { m with set := mergedSet who taken m.set } := by
    funext m
    rw [List.foldl_map]
    rfl
  have placed := place_modTeam (f := fun m => { m with set := mergedSet who taken m.set }) hp rfl rfl
  unfold State.mergeTeam
  rw [hp]
  dsimp only
  rw [merges, if_neg (Nat.not_lt.mpr hroom)]
  cases conflict p.team.set who (taken.map WCell.pair) with
  | none => exact ⟨rfl, fun q hq => modTeam_other s _ hq, placed⟩
  | some at_ =>
    refine ⟨rfl, fun q hq => (modTeam_other _ _ hq).trans (modTeam_other s _ hq), ?_⟩
    dsimp only
    rw [place_count]
    exact place_modTeam (f := fun m => { m with tconf := satInc m.tconf }) placed rfl rfl

end Merge

/-- Without SCOMMIT a conflict is counted and no more. -/
theorem scommitWave_plain {s : State} {team : Nat} {p : Place} (hp : s.place team = some p) (hs : p.launch.scommit = false)
    (wv off : Nat) (c : Option Nat) : s.scommitWave team wv off c = s := by
  unfold State.scommitWave
  rw [hp]
  cases c <;> simp [hs]

/-- A COMMIT.w's completion counts, and merges what its lanes have stored. -/
theorem finishColl_commit {s : State} {team wv : Nat} {k : Coll} (hk : k.kind = .commit) {p : Place}
    (hp : (s.closes team wv k.id).place team = some p) :
    let r := ((s.closes team wv k.id).count p (p.team.coreOf p.image.threads (32 * wv)) 10 1).mergeTeam team k.off (wv + 1)
      (((s.wave team wv).cells.filter (fun c => c.inst == some k.id)).map WCell.pair)
    s.finishColl team wv k = r.2.scommitWave team wv k.off r.1 := by
  have closed : s.finishColl team wv k =
      (let t := match (s.closes team wv k.id).place team with
        | some p => (s.closes team wv k.id).count p (p.team.coreOf p.image.threads (32 * wv)) 10 1
        | none => s.closes team wv k.id
      let r := t.mergeTeam team k.off (wv + 1) (((s.wave team wv).cells.filter (fun c => c.inst == some k.id)).map WCell.pair)
      r.2.scommitWave team wv k.off r.1) := by
    unfold State.finishColl
    rw [hk]
    rfl
  rw [closed, hp]

end Sys2Proof.Machine
end

section
/-! PROOF. Wave collectives (R163, R174 to R176, R188 to R190): the statement, assembled. -/

namespace Sys2Proof.Machine

/-- The state's one wave has one collective, which every live thread it awaits has joined, and a live thread. -/
structure Completes (s : State) (team wv : Nat) (w : Wave) (k : Coll) : Prop where
  low : wv < 256
  waves : s.waves = [(wkey team wv, w)]
  one : w.colls = [k]
  live : s.waveTids team wv ≠ []
  joined : ∀ i ∈ k.awaited, ∃ j ∈ k.joined, j.tid = i ∧ j.gone = false

/-- Changes that agree in the team that is there come to the same. -/
theorem modTeam_congr {s : State} {team : Nat} {m : Team} (hm : tget s.teams team = some m) {f g : Team → Team} (h : f m = g m) :
    (s.modTeam team f).teams = (s.modTeam team g).teams := by
  simp only [State.modTeam, tmod, hm, h]

namespace Completes
variable {s : State} {team wv : Nat} {w : Wave} {k : Coll} (hc : Completes s team wv w k)
include hc

theorem wave : s.wave team wv = w := by simp [State.wave, hc.waves, tget]

theorem closed_wave : (s.closes team wv k.id).wave team wv =
    { w with cells := w.cells.filter (fun c => c.inst != some k.id), colls := [] } := by
  rw [closes_wave, hc.wave, Wave.without, hc.one]
  simp

/-- What gives a vote's or an exchange's results gives them to each live contributor. -/
theorem gives {f : Join → List (Reg × Word)}
    (hf : s.finishColl team wv k = (s.closes team wv k.id).gives team f k.contributors) : let t := s.settleWaves
    t = { s with waves := t.waves, threads := t.threads, teams := t.teams, pends := t.pends, nextId := t.nextId } ∧
      (t.wave team wv).colls = [] ∧ ∀ j ∈ k.contributors, j.gone = false → t.coming (.thread team j.tid) (f j) := by
  have settled := settleWaves_one hc.low hc.waves hc.one hc.joined (by rw [hf, gives_keys, closes_keys]) hc.live
  have closes := closes_rest s team wv k.id
  have wave := hc.closed_wave
  have rest := gives_rest (s.closes team wv k.id) team f k.contributors
  have coming := fun j (hj : j ∈ k.contributors) hg => gives_coming (s.closes team wv k.id) team f hj hg
  rw [settled, hf]
  generalize (s.closes team wv k.id).gives team f k.contributors = t at rest coming
  dsimp only at rest closes ⊢
  have same : t.wave team wv = (s.closes team wv k.id).wave team wv := by rw [rest]; rfl
  rw [same, wave]
  exact ⟨by rw [rest, closes], rfl, coming⟩

theorem aborts (hk : k.kind = .abort) : let t := s.settleWaves
    t = { s with waves := t.waves, threads := t.threads } ∧
      (t.wave team wv).cells = w.cells.filter (fun c => c.inst != some k.id) ∧ (t.wave team wv).colls = [] := by
  have hf := finishColl_abort (s := s) (team := team) (wv := wv) hk
  have settled := settleWaves_one hc.low hc.waves hc.one hc.joined (by rw [hf, closes_keys]) hc.live
  have rest := closes_rest s team wv k.id
  have wave := hc.closed_wave
  rw [settled, hf]
  generalize s.closes team wv k.id = u at rest wave
  dsimp only at rest ⊢
  rw [wave]
  exact ⟨by rw [rest], rfl, rfl⟩

/-- The threads that may resume do not change how many sectors a merge leaves in the sets. -/
theorem closed_teamSectors {pl : Place} (hp : s.place team = some pl) (taken : List WCell) :
    ((s.closes team wv k.id).modTeam team (fun m => { m with set := mergedSet (wv + 1) taken m.set })).teamSectors team =
      ((s.setWave team wv { w with cells := w.cells.filter (fun c => c.inst != some k.id), colls := [] }).modTeam team
        (fun m => { m with set := mergedSet (wv + 1) taken pl.team.set })).teamSectors team := by
  refine teamSectors_congr ?_ ?_ team
  · rw [closes_rest, hc.wave, Wave.without, hc.one]
    simp [State.setWave]
  · rw [closes_rest]
    exact modTeam_congr (place_spec hp).1 rfl

/-- A COMMIT.w's stores that fit come to the team set, and a conflict is counted. -/
theorem commits (hk : k.kind = .commit) {pl : Place} (hp : s.place team = some pl)
    (hroom : ((s.setWave team wv { w with cells := w.cells.filter (fun c => c.inst != some k.id), colls := [] }).modTeam team
      (fun m => { m with set := mergedSet (wv + 1) (w.cells.filter (fun c => c.inst == some k.id)) pl.team.set })).teamSectors team ≤
        pl.image.teamCap) (hs : pl.launch.scommit = false) : let t := s.settleWaves
    let taken := w.cells.filter (fun c => c.inst == some k.id)
    t = { s with waves := t.waves, threads := t.threads, teams := t.teams, perf := t.perf } ∧
      (t.wave team wv).cells = w.cells.filter (fun c => c.inst != some k.id) ∧ (t.wave team wv).colls = [] ∧
      (∀ q, q ≠ team → tget t.teams q = tget s.teams q) ∧
      tget t.teams team = some (pl.team.merged (wv + 1) taken (conflict pl.team.set (wv + 1) (taken.map WCell.pair))) := by
  have closes := closes_rest s team wv k.id
  have wave := hc.closed_wave
  have keys := closes_keys s team wv k.id
  have fits := (hc.closed_teamSectors hp _).trans_le hroom
  have placed := (closes_place s team wv k.id team).trans hp
  have finished := finishColl_commit hk placed
  rw [hc.wave] at finished
  generalize s.closes team wv k.id = u at closes wave keys fits placed finished
  dsimp only at closes
  have merge := mergeTeam_fits (s := u.count pl (pl.team.coreOf pl.image.threads (32 * wv)) 10 1) (who := wv + 1)
    ((place_count ..).trans placed) fits k.off
  dsimp only at merge finished
  generalize State.mergeTeam _ _ _ _ _ = r at merge finished
  obtain ⟨rest, others, place⟩ := merge
  rw [scommitWave_plain place hs] at finished
  have settled := (settleWaves_one hc.low hc.waves hc.one hc.joined (by rw [finished, rest]; exact keys) hc.live).trans finished
  rw [settled]
  generalize r.2 = t at rest others place
  have same : t.wave team wv = u.wave team wv := by rw [rest]; rfl
  dsimp only
  rw [same, wave]
  refine ⟨?_, rfl, rfl, fun q hq => (others q hq).trans ?_, (place_spec place).1⟩
  · rw [rest, closes]
    rfl
  · rw [closes]
    rfl

end Completes

theorem satInc_eq (c : Prop) [Decidable c] (w : Word) :
    (if c then satInc w else w) = if c ∧ w ≠ 0xFFFFFFFF then w + 1 else w := by
  unfold satInc
  split_ifs <;> simp_all

end Sys2Proof.Machine

namespace Sys2Proof
open Machine

/-- Settles O15: a lane that comes first opens its wave's collective or is parked, and what follows a step completes a collective
that every thread it awaits has joined. -/
theorem waveCollectives : Obligations.WaveCollectives := by
  unfold Obligations.WaveCollectives
  refine ⟨?_, ?_, ?_⟩
  · intro c m x ty k d a b s h tid u team ag v n w hag hone hu hfresh opens
    have hc : h.Comes c s tid u := ⟨hag, hone, hu, hfresh⟩
    refine ⟨fun hr => ⟨fun hroom => ?_, fun hfull => ?_⟩, fun hr => ⟨fun hroom => ?_, fun hfull => ?_⟩⟩
    · exact hc.opens rfl rfl (execWvote_joins hr) hr.here rfl (wvote_pends hr) hroom
    · exact hc.waits rfl rfl (execWvote_joins hr) hfull
    · exact hc.opens rfl rfl (execWxch_joins hr) hr.here rfl (wxch_pends hr) hroom
    · exact hc.waits rfl rfl (execWxch_joins hr) hfull
  · intro c s h tid u team ag n w hag hone hu hheld hfresh hroom hmeets joins
    have hc : h.Comes c s tid u := ⟨hag, hone, hu, hfresh⟩
    exact ⟨fun hr => nextWith_joinedStores hr.here (execCommit_joins hc hr hheld hmeets hroom),
      fun hr => nextWith_joinedStores hr.here (execAbort_joins hc hr hheld hmeets hroom)⟩
  · intro s team wv w k pl t got given left taken set merged hwv hw hk hp hrun hlive hjoined hpos
    have hc : Completes s team wv w k := ⟨hwv, hw, hk, hlive, hjoined⟩
    refine ⟨fun m hm => ?_, fun x wide d hx => ?_, hc.aborts, fun hcommit hroom hs => ?_⟩
    · obtain ⟨rest, colls, coming⟩ := hc.gives (finishColl_vote hm)
      refine ⟨rest, colls, voteVal m k.contributors, coming, ?_⟩
      cases m with
      | ballot d => exact fun i => voteVal_ballot hpos d i
      | any d => exact voteVal_any _ d
      | all d => exact voteVal_all _ d
      | uni d => exact voteVal_uni _ d
    · obtain ⟨rest, colls, coming⟩ := hc.gives (finishColl_xch hx)
      refine ⟨rest, colls, fun j hj hg => ⟨xchVal x k.contributors j, coming j hj hg, fun i hi hsrc => ?_, fun habs => ?_⟩⟩
      · exact xchVal_at hpos hi (hsrc.trans (by cases x <;> rfl))
      · exact xchVal_absent fun i hi same => habs i hi (same.trans (by cases x <;> rfl))
    · obtain ⟨rest, cells, colls, others, mine⟩ := hc.commits hcommit hp hroom hs
      refine ⟨rest, cells, colls, others, ?_, fun c hm hb => scell_mergedSet_of_mem (wv + 1) hm hb pl.team.set,
        fun key hkey => scell_mergedSet_absent (wv + 1) hkey pl.team.set⟩
      rw [mine]
      simp only [Option.map_some, Team.merged, satInc_eq]
      rfl

end Sys2Proof
end
